-- ==== Sys2Proof/Word.lean ====
section
/-! DEFINITION. The word types of the Sprinvia 4000 and their plainest arithmetic (00 R8, R11): bytes, 64-bit words,
field extraction by bit position, little-endian bytes. -/

namespace Sys2Proof

/-- One byte of memory. -/
abbrev Byte := BitVec 8

/-- A 64-bit register value, address or instruction word. -/
abbrev Word := BitVec 64

end Sys2Proof
end

