-- ==== Sys2Proof/Syntax.lean ====
section
/-! DEFINITION. The instruction syntax of the Sprinvia 4000: the eight Ronid formats of 02 (R19, R25 to R32), the
Milestone format of 03 (R71), the parameters that events carry, and the one inductive of all steps of the opcode
table. Fields keep the names and the widths of the spec's tables; which values a field may hold is WellFormed's. -/

namespace Sys2Proof

/-- Format A, register (R25). -/
structure FmtA where
  la : BitVec 4
  nf : Bool
  gd : BitVec 3
  order : BitVec 2
  scope : BitVec 3
  sat : Bool
  rnd : BitVec 3
  ty : BitVec 4
  fn : BitVec 4
  c : BitVec 5
  b : BitVec 5
  a : BitVec 5
  d : BitVec 5
deriving DecidableEq, Repr

/-- Format I, immediate (R26). -/
structure FmtI where
  la : BitVec 4
  nf : Bool
  gd : BitVec 3
  imm : BitVec 32
  b : BitVec 5
  a : BitVec 5
  d : BitVec 5
deriving DecidableEq, Repr

/-- Format M, memory (R27). The FN bits carry TYPE. -/
structure FmtM where
  la : BitVec 4
  nf : Bool
  gd : BitVec 3
  order : BitVec 2
  scope : BitVec 3
  size : BitVec 3
  offs : BitVec 16
  ty : BitVec 4
  c : BitVec 5
  b : BitVec 5
  a : BitVec 5
  d : BitVec 5
deriving DecidableEq, Repr

/-- Format B, branch and task target (R28). -/
structure FmtB where
  la : BitVec 4
  nf : Bool
  gd : BitVec 3
  offs : BitVec 24
  fn : BitVec 4
  c : BitVec 5
  b : BitVec 5
  a : BitVec 5
  d : BitVec 5
deriving DecidableEq, Repr

/-- Format T, tile and matrix (R29). -/
structure FmtT where
  la : BitVec 4
  nf : Bool
  gd : BitVec 3
  wrap : Bool
  rnd : BitVec 3
  sat : Bool
  ty : BitVec 4
  coff : BitVec 10
  fn : BitVec 4
  c : BitVec 5
  b : BitVec 5
  a : BitVec 5
  d : BitVec 5
deriving DecidableEq, Repr

/-- Format W, view (R30). -/
structure FmtW where
  la : BitVec 4
  nf : Bool
  gd : BitVec 3
  b8 : BitVec 5
  mode : BitVec 2
  space : BitVec 3
  imm : BitVec 9
  ty : BitVec 4
  fn : BitVec 4
  c : BitVec 5
  b : BitVec 5
  a : BitVec 5
  d : BitVec 5
deriving DecidableEq, Repr

/-- Format E, engine command (R31). -/
structure FmtE where
  la : BitVec 4
  nf : Bool
  gd : BitVec 3
  tag : BitVec 6
  split : BitVec 3
  mbx : Bool
  scope : BitVec 3
  fn : BitVec 4
  c : BitVec 5
  b : BitVec 5
  a : BitVec 5
  d : BitVec 5
deriving DecidableEq, Repr

/-- Format S, system (R32). -/
structure FmtS where
  la : BitVec 4
  nf : Bool
  gd : BitVec 3
  sel : BitVec 12
  fn : BitVec 4
  c : BitVec 5
  b : BitVec 5
  a : BitVec 5
  d : BitVec 5
deriving DecidableEq, Repr

/-- A Milestone word (R71). -/
structure FmtMs where
  imm : BitVec 14
  b : BitVec 4
  a : BitVec 4
  d : BitVec 4
deriving DecidableEq, Repr

/-- An execution context: a task slot of a compute core (cores are numbered cluster x 32 + core over the package's
clusters), a TSC, or a system core of a die (R45, R294). -/
inductive HartId where
  | slot (core n : Nat)
  | tsc (cluster : Nat)
  | sys (die n : Nat)
deriving DecidableEq, Repr

/-- Where an engine command stands: in the command queue of a slot (R246), or kept by a die after its task ended
(R157). -/
inductive Site where
  | hart (h : HartId)
  | die (d : Nat)
deriving DecidableEq, Repr

/-- A firmware image where the resident system places it (R344, R375): the file of R380, the address it is entered at, the
virtual address of its first page, the frames of its pages, and how many of them are text. One without frames stands where it
stood. -/
structure FirmwareImage where
  file : List Byte := []
  entry : Word := 0
  base : Word := 0
  frames : List Nat := []
  text : Nat := 0
deriving DecidableEq, Repr

/-- Where a new partition stands (R388): its clusters, and of each queue pair but pair 0 the place of its ASID among the
partition's and whether it delivers in order (R102). -/
structure PartitionPlan where
  clusters : List Nat
  pairs : List (Nat × Bool)
deriving DecidableEq, Repr

/-- A 64 KiB bank that can enter retention (R350). -/
inductive Bank where
  | typed (core : Nat) (space : BitVec 3) (i : Nat)
  | cluster (cluster i : Nat)
  | dieCache (die i : Nat)
deriving DecidableEq, Repr

/-- What goes over Turnpike from package to package (R260, R262, R120, R351): a payload flit for a physical address, one
whose payload is poisoned, one of 4-bit elements that leave the other halves of their bytes, the signal of a fused copy, a message
for a mailbox, and the answers to what this package sent: the acknowledgement of a flit or signal of a command, with 0 or the status that it fails with (R373), and the answers to
a `send`, to a command's completion, to a launch's, and to a message that is dropped where it is refused. -/
inductive Packet where
  | flit (pa : Nat) (bytes : List Byte)
  | poisoned (pa : Nat) (bytes : List Byte)
  | nibbles (half : List (Nat × Bool × Nat))
  | acknowledged (command status : Nat)
  | signal (pa : Nat) (add : Bool)
  | message (part : Nat) (handle : Word) (body : List Byte)
  | answer (h : HartId) (status : Nat)
  | commandAnswer (command status : Nat)
  | launchAnswer (part launch status : Nat)
  | dropAnswer (part status : Nat)
deriving DecidableEq, Repr

/-- The algorithms an SPDM requester proposes (R394). -/
structure SpdmAlgorithms where
  signature : Nat
  hash : Nat
  exchange : Nat
  cipher : Nat
deriving DecidableEq, Repr

/-- What the medium behind a port engine did with one descriptor (R403): whether it failed, and the bytes it
brought in. -/
structure PortOutcome where
  failed : Bool
  bytes : List Byte
  /-- The block of the medium that it is about (R403). -/
  block : Nat := 0
deriving DecidableEq, Repr

/-- Every row of the table of operations and events. A Ronid or Milestone constructor carries its word's fields; an
event constructor carries what names the parties of the event. -/
inductive Instr where
  /-- ADD, R146. -/
  | add (f : FmtA)
  /-- ADDI, R146. -/
  | addi (f : FmtI)
  /-- SUB, R146. -/
  | sub (f : FmtA)
  /-- MUL, R146. -/
  | mul (f : FmtA)
  /-- MULH, R146. -/
  | mulh (f : FmtA)
  /-- DIV, R146. -/
  | div (f : FmtA)
  /-- REM, R146. -/
  | rem (f : FmtA)
  /-- AND, R146. -/
  | and (f : FmtA)
  /-- ANDI, R146. -/
  | andi (f : FmtI)
  /-- OR, R146. -/
  | or (f : FmtA)
  /-- ORI, R146. -/
  | ori (f : FmtI)
  /-- XOR, R146. -/
  | xor (f : FmtA)
  /-- XORI, R146. -/
  | xori (f : FmtI)
  /-- SHL, R146. -/
  | shl (f : FmtA)
  /-- SHLI, R146. -/
  | shli (f : FmtI)
  /-- SHR, R146. -/
  | shr (f : FmtA)
  /-- SHRI, R146. -/
  | shri (f : FmtI)
  /-- SRA, R146. -/
  | sra (f : FmtA)
  /-- SRAI, R146. -/
  | srai (f : FmtI)
  /-- MIN, R146. -/
  | min (f : FmtA)
  /-- MAX, R146. -/
  | max (f : FmtA)
  /-- CSET, R147. -/
  | cset (f : FmtA)
  /-- CSEL, R148. -/
  | csel (f : FmtA)
  /-- CLZ, R146. -/
  | clz (f : FmtA)
  /-- CTZ, R146. -/
  | ctz (f : FmtA)
  /-- POPC, R146. -/
  | popc (f : FmtA)
  /-- BEXT, R149. -/
  | bext (f : FmtA)
  /-- BINS, R149. -/
  | bins (f : FmtA)
  /-- LI, R150. -/
  | li (f : FmtI)
  /-- LIH, R150. -/
  | lih (f : FmtI)
  /-- ADDPC, R150. -/
  | addpc (f : FmtI)
  /-- BR, R151. -/
  | br (f : FmtB)
  /-- JMP, R151. -/
  | jmp (f : FmtB)
  /-- JR, R152. -/
  | jr (f : FmtA)
  /-- CALL, R152. -/
  | call (f : FmtB)
  /-- CALLR, R152. -/
  | callr (f : FmtA)
  /-- REP, R154. -/
  | rep (f : FmtI)
  /-- GSET, R147. -/
  | gset (f : FmtA)
  /-- GCLR, R155. -/
  | gclr (f : FmtA)
  /-- RGN, R156. -/
  | rgn (f : FmtA)
  /-- END, R157. -/
  | taskEnd (f : FmtA)
  /-- NOP, R156. -/
  | nop (f : FmtA)
  /-- BRK, R158. -/
  | brk (f : FmtI)
  /-- LD, R235. -/
  | ld (f : FmtM)
  /-- ST, R235. -/
  | st (f : FmtM)
  /-- WLD, R238. -/
  | wld (f : FmtM)
  /-- WST, R238. -/
  | wst (f : FmtM)
  /-- PF, R236. -/
  | pf (f : FmtM)
  /-- BLD, R235. -/
  | bld (f : FmtM)
  /-- BST, R235. -/
  | bst (f : FmtM)
  /-- CLN, R237. -/
  | cln (f : FmtM)
  /-- AMO, R311. -/
  | amo (f : FmtM)
  /-- CAS, R311. -/
  | cas (f : FmtM)
  /-- CAS2, R311. -/
  | cas2 (f : FmtM)
  /-- FENCE, R312. -/
  | fence (f : FmtA)
  /-- BARR, R314. -/
  | barr (f : FmtM)
  /-- WFV, R315. -/
  | wfv (f : FmtM)
  /-- VADD, R193. -/
  | vadd (f : FmtA)
  /-- VSUB, R193. -/
  | vsub (f : FmtA)
  /-- VMUL, R193. -/
  | vmul (f : FmtA)
  /-- VFMA, R193. -/
  | vfma (f : FmtA)
  /-- VFMS, R193. -/
  | vfms (f : FmtA)
  /-- VMIN, R194. -/
  | vmin (f : FmtA)
  /-- VMAX, R194. -/
  | vmax (f : FmtA)
  /-- VABS, R193. -/
  | vabs (f : FmtA)
  /-- VNEG, R193. -/
  | vneg (f : FmtA)
  /-- VAND, R193. -/
  | vand (f : FmtA)
  /-- VOR, R193. -/
  | vor (f : FmtA)
  /-- VXOR, R193. -/
  | vxor (f : FmtA)
  /-- VSHL, R193. -/
  | vshl (f : FmtA)
  /-- VSHR, R193. -/
  | vshr (f : FmtA)
  /-- VSRA, R193. -/
  | vsra (f : FmtA)
  /-- VCMP, R195. -/
  | vcmp (f : FmtA)
  /-- VSEL, R196. -/
  | vsel (f : FmtA)
  /-- VCVT, R201. -/
  | vcvt (f : FmtA)
  /-- VRED, R202. -/
  | vred (f : FmtA)
  /-- VSCAN, R202. -/
  | vscan (f : FmtA)
  /-- VPERM, R198. -/
  | vperm (f : FmtA)
  /-- VPERM2, R198. -/
  | vperm2 (f : FmtA)
  /-- VBCAST, R198. -/
  | vbcast (f : FmtA)
  /-- VEXT, R198. -/
  | vext (f : FmtA)
  /-- VINS, R198. -/
  | vins (f : FmtA)
  /-- VRCP, R204. -/
  | vrcp (f : FmtA)
  /-- VRSQRT, R204. -/
  | vrsqrt (f : FmtA)
  /-- VEXP2, R204. -/
  | vexp2 (f : FmtA)
  /-- VLOG2, R204. -/
  | vlog2 (f : FmtA)
  /-- VSQRT, R204. -/
  | vsqrt (f : FmtA)
  /-- VDIV, R204. -/
  | vdiv (f : FmtA)
  /-- VDOT, R203. -/
  | vdot (f : FmtA)
  /-- VMOV, R196. -/
  | vmov (f : FmtA)
  /-- VLD, R206. -/
  | vld (f : FmtM)
  /-- VST, R206. -/
  | vst (f : FmtM)
  /-- VGATH, R207. -/
  | vgath (f : FmtM)
  /-- VSCAT, R207. -/
  | vscat (f : FmtM)
  /-- VBLD, R208. -/
  | vbld (f : FmtM)
  /-- VBST, R208. -/
  | vbst (f : FmtM)
  /-- KOP, R199. -/
  | kop (f : FmtA)
  /-- VCLASS, R197. -/
  | vclass (f : FmtA)
  /-- VWLD, R238. -/
  | vwld (f : FmtM)
  /-- VWST, R238. -/
  | vwst (f : FmtM)
  /-- TCFG, R285. -/
  | tcfg (f : FmtT)
  /-- TCFG_GET, R285. -/
  | tcfgGet (f : FmtT)
  /-- TCLAIM, R284. -/
  | tclaim (f : FmtT)
  /-- TFREE, R284. -/
  | tfree (f : FmtT)
  /-- TLD, R286. -/
  | tld (f : FmtT)
  /-- TST, R287. -/
  | tst (f : FmtT)
  /-- TZERO, R285. -/
  | tzero (f : FmtT)
  /-- MMA, R289. -/
  | mma (f : FmtT)
  /-- MMG, R290. -/
  | mmg (f : FmtT)
  /-- DMMA, R289. -/
  | dmma (f : FmtT)
  /-- TSCL, R291. -/
  | tscl (f : FmtT)
  /-- TTR, R288. -/
  | ttr (f : FmtT)
  /-- CREAD, R292. -/
  | cread (f : FmtT)
  /-- WSET, R239. -/
  | wset (f : FmtW)
  /-- WSET_DIM, R239. -/
  | wsetDim (f : FmtW)
  /-- WSET_SCL, R239. -/
  | wsetScl (f : FmtW)
  /-- WSET_SREG, R239. -/
  | wsetSreg (f : FmtW)
  /-- WOPEN, R240. -/
  | wopen (f : FmtW)
  /-- WRETIRE, R241. -/
  | wretire (f : FmtW)
  /-- WBIND, R242. -/
  | wbind (f : FmtW)
  /-- WUNBIND, R242. -/
  | wunbind (f : FmtW)
  /-- WEOS, R242. -/
  | weos (f : FmtW)
  /-- WSUB, R243. -/
  | wsub (f : FmtW)
  /-- WTEST, R244. -/
  | wtest (f : FmtW)
  /-- CPY, R259. -/
  | cpy (f : FmtE)
  /-- CPYS, R261. -/
  | cpys (f : FmtE)
  /-- COLL, R264. -/
  | coll (f : FmtE)
  /-- TWANY, R258. -/
  | twany (f : FmtI)
  /-- TWALL, R258. -/
  | twall (f : FmtI)
  /-- TFIRST, R258. -/
  | tfirst (f : FmtI)
  /-- TCLR, R258. -/
  | tclr (f : FmtI)
  /-- CFILL, R259. -/
  | cfill (f : FmtE)
  /-- FORK, R111. -/
  | fork (f : FmtB)
  /-- FORKC, R111. -/
  | forkc (f : FmtB)
  /-- FORKG, R111. -/
  | forkg (f : FmtB)
  /-- JOIN, R114. -/
  | join (f : FmtB)
  /-- SEND, R120. -/
  | send (f : FmtA)
  /-- SPAWN, R111. -/
  | spawn (f : FmtB)
  /-- QINFO, R121. -/
  | qinfo (f : FmtA)
  /-- TRAP, R331. -/
  | trap (f : FmtS)
  /-- CTRLR, R332. -/
  | ctrlr (f : FmtS)
  /-- CTRLW, R332. -/
  | ctrlw (f : FmtS)
  /-- VXF_ACCESS, R49. -/
  | vxfAccess (write : Bool) (f : FmtS)
  /-- QUOTA_WRITE, R104. -/
  | quotaWrite (f : FmtS)
  /-- TRET_TAKE, R333. -/
  | tretTake (f : FmtS)
  /-- TRET_DEFER, R334. -/
  | tretDefer (f : FmtS)
  /-- TRET_TERM, R334. -/
  | tretTerm (f : FmtS)
  /-- TRET_RELEASE, R334. -/
  | tretRelease (f : FmtS)
  /-- TLBW, R335. -/
  | tlbw (f : FmtS)
  /-- TLBI_PAGE, R336. -/
  | tlbiPage (f : FmtS)
  /-- TLBI_ASID, R336. -/
  | tlbiAsid (f : FmtS)
  /-- TLBI_ALL, R336. -/
  | tlbiAll (f : FmtS)
  /-- MBIND, R337. -/
  | mbind (f : FmtS)
  /-- MBIND_UN, R337. -/
  | mbindUn (f : FmtS)
  /-- QSAVE, R338. -/
  | qsave (f : FmtS)
  /-- QREST, R329. -/
  | qrest (f : FmtS)
  /-- REPRW_GET, R363. -/
  | reprwGet (f : FmtS)
  /-- REPRW_ADD, R363. -/
  | reprwAdd (f : FmtS)
  /-- REPRW_APPLY, R363. -/
  | reprwApply (f : FmtS)
  /-- REPRW_CLR, R363. -/
  | reprwClr (f : FmtS)
  /-- REPRW_SUM, R363. -/
  | reprwSum (f : FmtS)
  /-- HALT, R340. -/
  | halt (f : FmtS)
  /-- CINV_I, R341. -/
  | cinvI (f : FmtS)
  /-- CINV_D, R341. -/
  | cinvD (f : FmtS)
  /-- MS_HALT, R72. -/
  | msHalt (f : FmtMs)
  /-- MS_LDI, R72. -/
  | msLdi (f : FmtMs)
  /-- MS_LDH, R72. -/
  | msLdh (f : FmtMs)
  /-- MS_MOV, R72. -/
  | msMov (f : FmtMs)
  /-- MS_ADD, R72. -/
  | msAdd (f : FmtMs)
  /-- MS_ADDI, R72. -/
  | msAddi (f : FmtMs)
  /-- MS_SUB, R72. -/
  | msSub (f : FmtMs)
  /-- MS_AND, R72. -/
  | msAnd (f : FmtMs)
  /-- MS_OR, R72. -/
  | msOr (f : FmtMs)
  /-- MS_XOR, R72. -/
  | msXor (f : FmtMs)
  /-- MS_SHL, R72. -/
  | msShl (f : FmtMs)
  /-- MS_SHR, R72. -/
  | msShr (f : FmtMs)
  /-- MS_INB, R72. -/
  | msInb (f : FmtMs)
  /-- MS_INW, R72. -/
  | msInw (f : FmtMs)
  /-- MS_LDS, R72. -/
  | msLds (f : FmtMs)
  /-- MS_STS, R72. -/
  | msSts (f : FmtMs)
  /-- MS_BEQ, R74. -/
  | msBeq (f : FmtMs)
  /-- MS_BNE, R72. -/
  | msBne (f : FmtMs)
  /-- MS_BLT, R72. -/
  | msBlt (f : FmtMs)
  /-- MS_JMP, R72. -/
  | msJmp (f : FmtMs)
  /-- MS_WAY, R72. -/
  | msWay (f : FmtMs)
  /-- MS_EMIT, R72. -/
  | msEmit (f : FmtMs)
  /-- BUDGET_EXHAUSTED, R72. -/
  | budgetExhausted (k : Nat)
  /-- LOAD_REQUEST, R58. -/
  | loadRequest (part : Nat) (object : List Byte) (base : Word)
  /-- CAIRN_WAIT_RESOLVE, R80. -/
  | cairnWaitResolve (part load : Nat)
  /-- PAGE_HASH_CHECK, R82. -/
  | pageHashCheck (part : Nat) (obj : Word) (page : Nat)
  /-- REVOCATION_NOTICE, R83. -/
  | revocationNotice (core : Nat) (obj : Word)
  /-- HOST_WINDOW_READ, R102. -/
  | hostWindowRead (part qp : Nat) (va : Word) (len : Nat)
  /-- HOST_WINDOW_WRITE, R102. -/
  | hostWindowWrite (part qp : Nat) (va : Word) (bytes : List Byte)
  /-- MAILBOX_SLOT_WRITE, R95. -/
  | mailboxSlotWrite (part qp mbx off : Nat) (bytes : List Byte)
  /-- MAILBOX_SLOT_READ, R97. -/
  | mailboxSlotRead (part qp mbx off len : Nat)
  /-- DOORBELL_WRITE, R97. -/
  | doorbellWrite (part qp mbx off : Nat) (bytes : List Byte)
  /-- MAILBOX_FAULT, R100. -/
  | mailboxFault (part mbx : Nat)
  /-- HELD_SLOT_PUSH, R99. -/
  | heldSlotPush (part : Nat)
  /-- TASK_START, R123. -/
  | taskStart (core slot : Nat)
  /-- GANG_PLACE, R116. -/
  | gangPlace (cluster : Nat)
  /-- TASK_REPLAY, R323. -/
  | taskReplay (core slot : Nat)
  /-- INSTRUCTION_CACHE_FILL, R129. -/
  | instructionCacheFill (h : HartId)
  /-- LONG_LATENCY_COMPLETE, R130. -/
  | longLatencyComplete (h : HartId)
  /-- GUARD_RESOLVE, R134. -/
  | guardResolve (h : HartId)
  /-- STORE_DRAIN, R297. -/
  | storeDrain (h : HartId)
  /-- WATCHDOG_EXPIRE, R143. -/
  | watchdogExpire (core slot : Nat)
  /-- MISS_QUEUE_ADMIT, R223. -/
  | missQueueAdmit (cluster : Nat)
  /-- COUNTER_DECREMENT_PERFORM, R115. -/
  | counterDecrementPerform (part : Nat)
  /-- LAUNCH_COMPLETION_RETRY, R118. -/
  | launchCompletionRetry (part launch : Nat)
  /-- MATRIX_SLICE_START, R273. -/
  | matrixSliceStart (core : Nat)
  /-- TILE_CLAIM_GRANT, R271. -/
  | tileClaimGrant (core : Nat)
  /-- GANGWAIT_EXPIRE, R280. -/
  | gangwaitExpire (gang : Nat)
  /-- COMMAND_KICK, R246. -/
  | commandKick (site : Site)
  /-- GRANULE_COMPLETE, R252. -/
  | granuleComplete (site : Site) (i : Nat)
  /-- COMPLETION_MESSAGE_RETRY, R260. -/
  | completionMessageRetry (site : Site) (i : Nat)
  /-- STREAM_FILL, R232. -/
  | streamFill (h : HartId) (r : Nat)
  /-- STREAM_DRAIN, R232. -/
  | streamDrain (h : HartId) (r : Nat)
  /-- RETENTION_ENTER, R350. -/
  | retentionEnter (bank : Bank)
  /-- RETENTION_ENTRY_DONE, R350. -/
  | retentionEntryDone (bank : Bank)
  /-- RETENTION_EXIT_DONE, R350. -/
  | retentionExitDone (bank : Bank) (corrected : List (Nat × Nat × Bool)) (bad : List Nat)
  /-- HISTOGRAM_FLUSH, R357. -/
  | histogramFlush (die : Nat)
  /-- TIME_SLICE_END, R327. -/
  | timeSliceEnd (part : Nat)
  /-- SERVICE_MESSAGE_ARRIVAL, R340. -/
  | serviceMessageArrival (die core : Nat) (msg : List Byte)
  /-- PORT_TRANSMIT, R403. -/
  | portTransmit (queue : Nat) (out : PortOutcome)
  /-- PORT_RECEIVE, R403. -/
  | portReceive (queue : Nat) (out : PortOutcome)
  /-- PORT_READ_BLOCK, R403. -/
  | portReadBlock (queue : Nat) (out : PortOutcome)
  /-- PORT_WRITE_BLOCK, R403. -/
  | portWriteBlock (queue : Nat) (out : PortOutcome)
  /-- PORT_FLUSH, R403. -/
  | portFlush (queue : Nat) (out : PortOutcome)
  /-- TURNPIKE_ARRIVAL, R262. -/
  | turnpikeArrival (packet : Packet)
  /-- RETIREMENT_REQUEST, R369. -/
  | retirementRequest (stack : BitVec 4)
  /-- RETIREMENT_CANCEL, R369. -/
  | retirementCancel (stack : BitVec 4)
  /-- SWEEP_START, R369. -/
  | sweepStart
  /-- RETIREMENT_COMMIT, R369. -/
  | retirementCommit
  /-- SWEEP_PAUSE, R368. -/
  | sweepPause
  /-- SWEEP_RESUME, R368. -/
  | sweepResume
  /-- SWEEP_LINE_COPY, R370. -/
  | sweepLineCopy
  /-- SWEEP_UNIT_COMPLETE, R370. -/
  | sweepUnitComplete
  /-- REQUEST_REPLAY, R372. -/
  | requestReplay
  /-- PACKAGE_RESET, R379. -/
  | packageReset
  /-- PARTITION_CREATE, R388. -/
  | partitionCreate (record : List Byte) (clusters : PartitionPlan)
  /-- PARTITION_DESTROY, R391. -/
  | partitionDestroy (part : Nat)
  /-- KEY_SLOT_FREE, R390. -/
  | keySlotFree (slot : Nat)
  /-- FIRMWARE_STAGE, R399. -/
  | firmwareStage (image : List Byte)
  /-- SVN_RAISE, R381. -/
  | svnRaise (stage value : Nat)
  /-- UPDATE_REQUEST, R399. -/
  | updateRequest
  /-- HEARTBEAT, R399. -/
  | heartbeat
  /-- HEARTBEAT_TIMEOUT, R399. -/
  | heartbeatTimeout
  /-- GET_VERSION, R394. -/
  | getVersion (ep : Nat)
  /-- GET_CAPABILITIES, R394. -/
  | getCapabilities (ep : Nat)
  /-- NEGOTIATE_ALGORITHMS, R394. -/
  | negotiateAlgorithms (ep : Nat) (choice : SpdmAlgorithms)
  /-- GET_DIGESTS, R394. -/
  | getDigests (ep : Nat)
  /-- GET_CERTIFICATE, R394. -/
  | getCertificate (ep : Nat)
  /-- CHALLENGE, R394. -/
  | challenge (ep : Nat) (nonce : List Byte)
  /-- GET_MEASUREMENTS, R395. -/
  | getMeasurements (ep index : Nat) (nonce : List Byte)
  /-- KEY_EXCHANGE, R394. -/
  | keyExchange (ep : Nat) (exchange : List Byte)
  /-- FINISH, R396. -/
  | finish (ep : Nat) (mac : List Byte)
  /-- END_SESSION, R394. -/
  | endSession (ep : Nat)
  /-- KEY_STORE_SET, R393. -/
  | keyStoreSet (ep index : Nat) (p384 hss : List Byte)
  /-- KEY_STORE_DISABLE, R393. -/
  | keyStoreDisable (ep index : Nat)
  /-- KEY_STORE_STATUS, R393. -/
  | keyStoreStatus (ep : Nat)
  /-- TSC_FIRMWARE_START, R344, R375: `system` for a system-core program at system level. -/
  | tscFirmwareStart (h : HartId) (entry : FirmwareImage) (system : Bool)
  /-- IMAGE_UNLOAD, R85. -/
  | imageUnload (part : Nat) (obj : Word)
  /-- ORDERLY_SHUTDOWN, R357. -/
  | orderlyShutdown
  /-- BOOT_STAGE_HANDOFF, R379. -/
  | bootStageHandoff (primary secondary : Option (List Byte))
  /-- MARCH_TEST_COMPLETE, R361. -/
  | marchTestComplete (die : Nat) (rows : List (BitVec 32)) (unusable : List Nat)
  /-- FULL_SERVICE_SWITCH, R387. -/
  | fullServiceSwitch
  /-- CLOCK_STEP_DOWN, R378. -/
  | clockStepDown (milliwatts deciCelsius : Nat)
  /-- CLOCK_STEP_UP, R378. -/
  | clockStepUp (clearMicroseconds : Nat)
deriving DecidableEq, Repr

end Sys2Proof
end

