-- ==== Sys2Proof/WellFormed.lean ====
section
/-! DEFINITION. Check 2 of R20: which field values each instruction accepts, from the format tables of 02, the
attribute table of R51 and each instruction's own description. -/

namespace Sys2Proof

/-! ### Field values -/

/-- An integer TYPE code, i8 to n64 (R33). -/
def tyInt (t : BitVec 4) : Bool := t.toNat < 8
/-- A signed integer TYPE code, i8 to i64. -/
def tySigned (t : BitVec 4) : Bool := t.toNat < 4
/-- An unsigned integer TYPE code, n8 to n64. -/
def tyUnsigned (t : BitVec 4) : Bool := 4 ≤ t.toNat && t.toNat < 8
/-- One of the four binary formats f64, f32, f16, bf16. -/
def tyIeee (t : BitVec 4) : Bool := 8 ≤ t.toNat && t.toNat < 12
/-- TYPE 0x0 to 0xB. -/
def tyPlain (t : BitVec 4) : Bool := t.toNat < 12
/-- i32, n32, i64, n64 (R310). -/
def tyAtomic (t : BitVec 4) : Bool := t == 2#4 || t == 3#4 || t == 6#4 || t == 7#4
/-- i32, n32, i64, n64, f32, f64 (R195, R202, R207). -/
def tyWide (t : BitVec 4) : Bool := tyAtomic t || t == 8#4 || t == 9#4

/-- The width in bits of a TYPE code (R33); 0 for the reserved code. -/
def tyWidth (t : BitVec 4) : Nat :=
  match t.toNat with
  | 0 | 4 | 14 => 8
  | 1 | 5 | 10 | 11 => 16
  | 2 | 6 | 9 => 32
  | 3 | 7 | 8 => 64
  | 12 | 13 => 4
  | _ => 0

/-- The SIZE code of a TYPE's width in whole bytes (R40); the 4-bit types take 0 (R238). -/
def tySize (t : BitVec 4) : BitVec 3 :=
  match tyWidth t with
  | 16 => 1#3
  | 32 => 2#3
  | 64 => 3#3
  | _ => 0#3

/-- A rounding code: 0 to 4, or 7 for DYN (R35). -/
def rndCode (r : BitVec 3) : Bool := r.toNat ≤ 4 || r == 7#3
/-- A scope code, 0 to 5 (R38). -/
def scopeCode (s : BitVec 3) : Bool := s.toNat ≤ 5
/-- The space code of a typed buffer, 2 to 5 (R27). -/
def bufferCode (s : BitVec 3) : Bool := 2 ≤ s.toNat && s.toNat ≤ 5
/-- A condition code with a type (R37): `un` and `or` need a floating type. -/
def condCode (c : BitVec 4) (t : BitVec 4) : Bool := c.toNat ≤ 5 || (c.toNat ≤ 7 && tyIeee t)
/-- A binary8 storage code, 0x04 to 0x1F (R34). -/
def b8Code (b : BitVec 5) : Bool := 4 ≤ b.toNat
/-- The storage code field beside a TYPE: a binary8 code for 0xE, 0 otherwise. -/
def b8Beside (t : BitVec 4) (b : BitVec 5) : Bool := if t == 14#4 then b8Code b else b == 0#5
/-- A field that names a w register (R21). -/
def wReg (r : BitVec 5) : Bool := r.toNat < 16
/-- A field that names a k or t register (R21). -/
def kReg (r : BitVec 5) : Bool := r.toNat < 8
/-- A field that names a guard as a destination (R21). -/
def gReg (r : BitVec 5) : Bool := 1 ≤ r.toNat && r.toNat ≤ 7
/-- A field that names a stream register, v24 to v31 (R242). -/
def streamReg (r : BitVec 5) : Bool := 24 ≤ r.toNat
/-- The C field of a vector instruction: C[27:26] reserved (R25). -/
def maskField (c : BitVec 5) : Bool := c.toNat < 8
/-- An even register number (R310). -/
def evenReg (r : BitVec 5) : Bool := r.toNat % 2 == 0
/-- The control registers of R46. -/
def controlReg (n : BitVec 12) : Bool := n.toNat ≤ 0x00B || (0x100 ≤ n.toNat && n.toNat ≤ 0x103)
/-- The control registers that have a row of their own: vxf.lo and vxf.hi (R49). -/
def vxfReg (n : BitVec 12) : Bool := n == 5#12 || n == 6#12

/-! ### The attribute columns of R51 -/

/-- Which of LA, NF, RND and SAT an opcode may set (R51). -/
structure Attr where
  la : Bool := false
  nf : Bool := false
  rnd : Bool := false
  sat : Bool := false
deriving DecidableEq, Repr

/-- LA, NF, RND and SAT of a format A word keep to its attributes. -/
def FmtA.attrOk (f : FmtA) (t : Attr) : Bool :=
  (t.la || f.la == 0#4) && (t.nf || !f.nf) && (t.sat || !f.sat)
    && (if t.rnd then rndCode f.rnd else f.rnd == 0#3)

/-- LA, NF, RND and SAT of a format T word keep to its attributes. -/
def FmtT.attrOk (f : FmtT) (t : Attr) : Bool :=
  (t.la || f.la == 0#4) && (t.nf || !f.nf) && (t.sat || !f.sat)
    && (if t.rnd then rndCode f.rnd else f.rnd == 0#3)

/-! ### Format A -/

/-- No order and no scope (R25). -/
def FmtA.unordered (f : FmtA) : Bool := f.order == 0#2 && f.scope == 0#3

/-- The register forms of R144 and R145. -/
def FmtA.alu (f : FmtA) (t : Attr) (ty : BitVec 4 → Bool) : Bool :=
  f.attrOk t && f.unordered && f.fn == 0#4 && f.c == 0#5 && ty f.ty

/-- A format A word of a vector instruction (R191) with FN zero. -/
def FmtA.vec (f : FmtA) (t : Attr) (ty : BitVec 4 → Bool) : Bool :=
  f.attrOk t && f.unordered && f.fn == 0#4 && maskField f.c && ty f.ty
    && (!tyInt f.ty || f.rnd == 0#3)

/-- A format A word in which only GD, D, A and B may be set. -/
def FmtA.regsOnly (f : FmtA) : Bool :=
  f.attrOk {} && f.unordered && f.fn == 0#4 && f.c == 0#5 && f.ty == 0#4

/-- A format A word in which only GD may be set (R156, R157). -/
def FmtA.guardOnly (f : FmtA) : Bool := f.regsOnly && f.a == 0#5 && f.b == 0#5 && f.d == 0#5

/-- `cset`, `gset` (R147). -/
def FmtA.compare (f : FmtA) : Bool :=
  f.attrOk {} && f.unordered && f.c == 0#5 && tyPlain f.ty && condCode f.fn f.ty

/-- `kop` (R199): which file each field names, by FN. -/
def FmtA.kop (f : FmtA) : Bool :=
  f.attrOk {} && f.unordered && f.ty == 0#4 && f.c == 0#5 && f.fn.toNat ≤ 8
    && (6 ≤ f.fn.toNat || kReg f.d) && (f.fn == 5#4 || kReg f.a)
    && (if f.fn.toNat ≤ 3 then kReg f.b else f.b == 0#5)

/-- `vcvt` (R200). -/
def FmtA.cvt (f : FmtA) : Bool :=
  f.attrOk { nf := true, rnd := true, sat := true } && f.unordered && maskField f.c
    && f.ty != 15#4 && f.fn != 15#4 && f.ty != f.fn
    && (if f.ty == 14#4 || f.fn == 14#4 then b8Code f.b else f.b == 0#5)
    && (f.c == 0#5 || tyWidth f.ty == tyWidth f.fn)

/-- `vred`, `vscan` (R202). -/
def FmtA.fold (f : FmtA) : Bool :=
  f.attrOk { la := true, nf := true, rnd := true } && f.unordered && maskField f.c && tyWide f.ty
    && f.b == 0#5 && (f.fn.toNat ≤ 2 || (f.fn.toNat ≤ 5 && tyInt f.ty))
    && (!tyInt f.ty || f.rnd == 0#3)

/-! ### Format I -/

/-- No lookahead and no flag field (R51). -/
def FmtI.plain (f : FmtI) : Bool := f.la == 0#4 && !f.nf
/-- The TYPE code in B[21:18] of a typed immediate form (R26). -/
def FmtI.ty (f : FmtI) : BitVec 4 := f.b.setWidth 4
/-- A typed immediate form (R26, R145). -/
def FmtI.typed (f : FmtI) (ty : BitVec 4 → Bool) : Bool :=
  f.plain && f.b.toNat < 16 && ty f.ty
/-- A shift by an immediate: 0 to W - 1 (R145). -/
def FmtI.shift (f : FmtI) (ty : BitVec 4 → Bool) : Bool :=
  f.typed ty && f.imm.toNat < tyWidth f.ty
/-- The tag-wait instructions: B[22:19] zero (R257). -/
def FmtI.tags (f : FmtI) : Bool := f.plain && f.b.toNat < 2

/-! ### Format M -/

/-- LA only where the opcode is long-latency, no NF, a scope code (R51, R38). -/
def FmtM.mem (f : FmtM) (la : Bool) : Bool := (la || f.la == 0#4) && !f.nf && scopeCode f.scope
/-- A load's orders: plain, acquire (R39). -/
def FmtM.loadOrder (f : FmtM) : Bool := f.order == 0#2 || f.order == 1#2
/-- A store's orders: plain, release (R39). -/
def FmtM.storeOrder (f : FmtM) : Bool := f.order == 0#2 || f.order == 2#2
/-- `bld` and `bst` (R234): a buffer's space code, ORDER 0. -/
def FmtM.buffer (f : FmtM) (la : Bool) : Bool :=
  (la || f.la == 0#4) && !f.nf && bufferCode f.scope && f.order == 0#2
/-- TYPE and SIZE of a scalar access (R27, R234). -/
def FmtM.scalar (f : FmtM) : Bool := tyPlain f.ty && f.size == tySize f.ty && f.c == 0#5
/-- TYPE and SIZE of a scalar view access (R238). -/
def FmtM.element (f : FmtM) : Bool := f.ty != 15#4 && f.size == tySize f.ty && f.c == 0#5 && wReg f.a
/-- A vector access of 64 bytes (R206). -/
def FmtM.vector (f : FmtM) (ty : BitVec 4 → Bool) : Bool := f.size == 6#3 && maskField f.c && ty f.ty
/-- An atomic on a value of TYPE's width (R310). -/
def FmtM.atomic (f : FmtM) : Bool := f.mem true && tyAtomic f.ty && f.size == tySize f.ty

/-! ### Formats B, T, W, E, S -/

/-- No LA and no NF (R51). -/
def FmtB.plain (f : FmtB) : Bool := f.la == 0#4 && !f.nf
/-- G is 0 to 4 and C is 0 (R110). -/
def FmtB.task (f : FmtB) : Bool := f.plain && f.c == 0#5 && (f.fn.extractLsb' 0 3).toNat ≤ 4

/-- The fields no row of R283 but the matrix rows uses. -/
def FmtT.bare (f : FmtT) : Bool := !f.wrap && f.ty == 0#4 && f.coff == 0#10
/-- `mma`, `mmg`, `dmma` (R283). -/
def FmtT.product (f : FmtT) (coffMax : Nat) : Bool :=
  f.attrOk { la := true, nf := true } && f.ty == 0#4 && f.c == 0#5 && f.fn.toNat ≤ 1
    && kReg f.a && kReg f.b && f.coff.toNat ≤ coffMax

/-- LA, NF 0 (R30). -/
def FmtW.plain (f : FmtW) : Bool := f.la == 0#4 && !f.nf
/-- MODE, SPACE, TYPE and B8 all 0. -/
def FmtW.untyped (f : FmtW) : Bool := f.mode == 0#2 && f.space == 0#3 && f.ty == 0#4 && f.b8 == 0#5

/-- The fields that R250 gives every command. -/
def FmtE.command (f : FmtE) : Bool :=
  f.la == 0#4 && !f.nf && f.split.toNat ≤ 6 && scopeCode f.scope && wReg f.d
    && (if f.mbx then f.tag == 0#6 else f.c == 0#5)

/-- LA, NF 0 (R32). -/
def FmtS.plain (f : FmtS) : Bool := f.la == 0#4 && !f.nf
/-- SEL and C 0, FN as the row gives (R330). -/
def FmtS.row (f : FmtS) (fn : BitVec 4) : Bool := f.plain && f.sel == 0#12 && f.c == 0#5 && f.fn == fn

/-- A compute core, TSC or system core of the shipping package (R1). -/
def HartId.ok : HartId → Bool
  | .slot c n => c < 3328 && n < 4
  | .tsc c => c < 104
  | .sys d n => d < 4 && n < 4

/-- A site of engine commands in the package. -/
def Site.ok : Site → Bool
  | .hart h => h.ok
  | .die d => d < 4

/-! ### The checks, instruction by instruction -/

/-- Check 2 of R20: every field holds a value that the instruction accepts. For an event, that it names hardware of
the package. -/
def Instr.wf : Instr → Bool
  | .add f | .sub f => f.alu { sat := true } tyInt
  | .mul f => f.alu { la := true, sat := true } tyInt
  | .mulh f | .div f | .rem f => f.alu { la := true } tyInt
  | .and f | .or f | .xor f | .shl f | .min f | .max f => f.alu {} tyInt
  | .shr f => f.alu {} tyUnsigned
  | .sra f => f.alu {} tySigned
  | .clz f | .ctz f | .popc f => f.alu {} tyInt && f.b == 0#5
  | .addi f | .andi f | .ori f | .xori f => f.typed tyInt
  | .shli f => f.shift tyInt
  | .shri f => f.shift tyUnsigned
  | .srai f => f.shift tySigned
  | .cset f => f.compare
  | .gset f => f.compare && gReg f.d
  | .csel f => f.attrOk {} && f.unordered && f.fn == 0#4 && f.ty == 0#4
  | .bext f => f.attrOk {} && f.unordered && f.ty == 0#4 && f.c == 0#5 && f.fn.toNat ≤ 1
  | .bins f => f.regsOnly
  | .li f | .lih f | .addpc f => f.plain && f.b == 0#5 && f.a == 0#5
  | .br f | .jmp f => f.plain && f.fn == 0#4 && f.c == 0#5 && f.b == 0#5 && f.a == 0#5 && f.d == 0#5
  | .jr f => f.regsOnly && f.b == 0#5 && f.d == 0#5
  | .call f => f.plain && f.fn == 0#4 && f.c == 0#5 && f.b == 0#5 && f.a == 0#5
  | .callr f => f.regsOnly && f.b == 0#5
  | .rep f => f.plain && f.b == 0#5 && f.d == 0#5 && f.imm.toNat < 2 ^ 9
  | .gclr f => f.attrOk {} && f.unordered && f.ty == 0#4 && f.c == 0#5 && f.b == 0#5 && f.a == 0#5
      && gReg f.d && f.fn.toNat ≤ 2
  | .rgn f | .taskEnd f | .nop f => f.guardOnly
  | .brk f => f.plain && f.b == 0#5 && f.a == 0#5 && f.d == 0#5 && f.imm.toNat < 2 ^ 16
  | .ld f => f.mem true && f.loadOrder && f.scalar && f.b == 0#5
  | .st f => f.mem false && f.storeOrder && f.scalar && f.d == 0#5
  | .wld f => f.mem true && f.loadOrder && f.element
  | .wst f => f.mem false && f.storeOrder && f.element
  | .pf f => f.mem false && f.scope == 0#3 && f.order == 0#2 && f.size == 0#3 && f.ty.toNat ≤ 2
      && f.c == 0#5 && f.b == 0#5 && f.d == 0#5
  | .cln f => f.mem false && f.order == 0#2 && f.size == 0#3 && f.ty.toNat ≤ 1
      && f.c == 0#5 && f.b == 0#5 && f.d == 0#5
  | .bld f => f.buffer true && f.scalar && f.b == 0#5
  | .bst f => f.buffer false && f.scalar && f.d == 0#5
  | .amo f => f.atomic && f.c.toNat ≤ 8
  | .cas f => f.atomic
  | .cas2 f => f.mem true && f.ty == 7#4 && f.size == 4#3 && evenReg f.d && evenReg f.b && evenReg f.c
  | .fence f => f.attrOk {} && f.order != 0#2 && scopeCode f.scope && f.ty == 0#4 && f.fn == 0#4
      && f.c == 0#5 && f.b == 0#5 && f.a == 0#5 && f.d == 0#5
  | .barr f => f.mem false && f.order == 3#2 && f.ty == 0#4 && f.size == 4#3 && f.b == 0#5 && f.c == 0#5
  | .wfv f => f.atomic && f.loadOrder && f.c.toNat ≤ 5
  | .vadd f | .vsub f | .vmul f => f.vec { nf := true, rnd := true, sat := true } tyPlain
  | .vfma f | .vfms f => f.vec { nf := true, rnd := true, sat := true } tyIeee
  | .vmin f | .vmax f => f.vec { nf := true } tyPlain
  | .vabs f | .vneg f => f.vec {} (fun t => tySigned t || tyIeee t) && f.b == 0#5
  | .vand f | .vor f | .vxor f => f.vec {} (· == 0#4)
  | .vshl f => f.vec {} tyInt
  | .vshr f => f.vec {} tyUnsigned
  | .vsra f => f.vec {} tySigned
  | .vcmp f => f.attrOk { nf := true } && f.unordered && maskField f.c && tyWide f.ty && condCode f.fn f.ty
      && kReg f.d
  | .vsel f => f.vec {} (· == 0#4)
  | .vmov f => f.vec {} (· == 0#4) && f.b == 0#5
  | .vclass f => f.vec {} tyIeee && f.b == 0#5
  | .vperm f => f.vec {} tyPlain
  | .vperm2 f => f.attrOk {} && f.unordered && f.fn == 1#4 && maskField f.c && tyPlain f.ty
  | .vbcast f => f.vec {} tyPlain && f.b == 0#5
  | .vext f | .vins f => f.alu {} tyPlain
  | .kop f => f.kop
  | .vcvt f => f.cvt
  | .vred f | .vscan f => f.fold
  | .vdot f => f.vec { la := true, nf := true, rnd := true, sat := true }
      (fun t => t == 0#4 || t == 4#4 || t == 10#4 || t == 11#4)
  | .vrcp f | .vrsqrt f | .vexp2 f | .vlog2 f =>
      f.vec { la := true, nf := true, rnd := true } (fun t => tyIeee t && t != 8#4) && f.b == 0#5
  | .vsqrt f => f.vec { la := true, nf := true, rnd := true } tyIeee && f.b == 0#5
  | .vdiv f => f.vec { la := true, nf := true, rnd := true } tyIeee
  | .vld f => f.mem true && f.loadOrder && f.vector tyPlain && f.b == 0#5
  | .vst f => f.mem false && f.storeOrder && f.vector tyPlain && f.d == 0#5
  | .vgath f => f.mem true && f.loadOrder && f.vector tyWide
  | .vscat f => f.mem false && f.storeOrder && f.vector tyWide
  | .vbld f => f.buffer true && f.vector tyPlain && f.b == 0#5
  | .vbst f => f.buffer false && f.vector tyPlain && f.d == 0#5
  | .vwld f => f.mem true && f.loadOrder && f.vector (· != 15#4) && wReg f.a
  | .vwst f => f.mem false && f.storeOrder && f.vector (· != 15#4) && wReg f.a
  | .tcfg f => f.attrOk {} && f.bare && f.fn == 0#4 && f.b == 0#5 && f.c == 0#5 && kReg f.d
  | .tcfgGet f => f.attrOk {} && f.bare && f.fn == 1#4 && f.b == 0#5 && f.c == 0#5 && kReg f.a
  | .tclaim f => f.attrOk {} && f.bare && f.fn.toNat ≤ 1 && f.b == 0#5 && f.c == 0#5
  | .tfree f => f.attrOk {} && f.bare && f.fn == 0#4 && f.b == 0#5 && f.c == 0#5 && f.d == 0#5
  | .tld f => f.attrOk { la := true } && f.bare && f.fn.toNat ≤ 3 && f.b == 0#5 && f.c == 0#5
      && kReg f.d && wReg f.a
  | .tst f => f.attrOk {} && !f.wrap && f.coff == 0#10 && f.fn.toNat ≤ 1 && f.b == 0#5
      && wReg f.d && kReg f.a && f.ty != 15#4 && b8Beside f.ty f.c
  | .tzero f => f.attrOk {} && f.bare && f.fn == 0#4 && f.b == 0#5 && f.c == 0#5 && f.a == 0#5 && kReg f.d
  | .mma f => f.product 896 && f.d == 0#5
  | .mmg f => f.product 1008
  | .dmma f => f.product 896 && f.d == 0#5 && !f.wrap
  | .tscl f => f.attrOk { la := true, nf := true, rnd := true } && !f.wrap && f.ty == 0#4 && f.fn.toNat ≤ 1
      && f.coff.toNat ≤ 896 && f.d == 0#5 && f.b == 0#5 && f.c == 0#5
  | .ttr f => f.attrOk { la := true } && f.bare && f.fn.toNat ≤ 3 && f.b == 0#5 && f.c == 0#5
      && kReg f.d && kReg f.a && f.d != f.a
  | .cread f => f.attrOk { la := true, nf := true, rnd := true, sat := true } && !f.wrap && f.b == 0#5
      && f.fn.toNat < 8 && f.fn.toNat % 4 != 3 && (4 ≤ f.fn.toNat || f.a == 0#5) && f.ty != 15#4
      && (f.fn.toNat % 4 == 2 || tyWidth f.ty != 64) && b8Beside f.ty f.c
  | .wset f => f.plain && f.fn == 0#4 && wReg f.d && f.c == 0#5 && f.mode == 0#2 && f.space.toNat ≤ 5
      && f.ty != 15#4 && b8Beside f.ty f.b8
  | .wsetDim f => f.plain && f.fn == 1#4 && wReg f.d && f.c == 0#5 && f.untyped && f.imm.toNat ≤ 3
  | .wsetScl f => f.plain && f.fn == 2#4 && wReg f.d && f.untyped && f.imm.toNat ≤ 3
  | .wsetSreg f => f.plain && f.fn == 3#4 && wReg f.d && f.c == 0#5 && f.mode == 0#2 && f.space == 5#3
      && tyPlain f.ty && f.b8 == 0#5 && f.imm == 0#9
  | .wopen f => f.plain && f.fn == 0#4 && wReg f.d && f.a == 0#5 && f.b == 0#5 && f.c == 0#5
      && (f.mode == 1#2 || f.mode == 2#2) && f.space == 0#3 && f.ty == 0#4 && f.b8 == 0#5 && f.imm.toNat ≤ 5
  | .wretire f => f.plain && f.fn.toNat ≤ 1 && wReg f.d && f.a == 0#5 && f.b == 0#5 && f.c == 0#5
      && f.untyped && f.imm == 0#9
  | .wbind f => f.plain && f.fn == 0#4 && streamReg f.d && wReg f.a && f.b == 0#5 && f.c == 0#5
      && f.untyped && f.imm == 0#9
  | .wunbind f | .weos f => f.plain && f.fn == 0#4 && streamReg f.d && f.a == 0#5 && f.b == 0#5
      && f.c == 0#5 && f.untyped && f.imm == 0#9
  | .wsub f => f.plain && f.fn == 0#4 && wReg f.d && wReg f.a && f.untyped && f.imm.toNat ≤ 3
  | .wtest f => f.plain && f.fn.toNat ≤ 2 && wReg f.a && (if f.fn == 0#4 then wReg f.b else f.b == 0#5)
      && f.c == 0#5 && f.untyped && f.imm == 0#9
  | .cpy f => f.command && f.fn == 0#4 && wReg f.a && f.b == 0#5
  | .cpys f => f.command && f.fn.toNat ≤ 1 && wReg f.a
  | .coll f => f.command && f.fn.toNat ≤ 5 && wReg f.a
  | .cfill f => f.command && f.fn == 0#4 && f.b == 0#5
  | .twany f | .tfirst f => f.tags
  | .twall f | .tclr f => f.tags && f.d == 0#5
  | .fork f => f.task && f.a == 0#5 && f.b == 0#5
  | .forkc f | .join f => f.task && f.b == 0#5
  | .forkg f => f.task && f.fn == 0#4 && f.b == 0#5
  | .spawn f => f.task
  | .send f => f.regsOnly
  | .qinfo f => f.attrOk {} && f.unordered && f.ty == 0#4 && f.fn.toNat ≤ 10
      && f.a == 0#5 && f.b == 0#5 && f.c == 0#5
  | .trap f => f.plain && f.fn == 0#4 && f.b == 0#5 && f.c == 0#5 && f.d == 0#5
  | .ctrlr f => f.plain && f.fn == 0#4 && f.a == 0#5 && f.b == 0#5 && f.c == 0#5 && controlReg f.sel
      && !vxfReg f.sel
  | .ctrlw f => f.plain && f.fn == 0#4 && f.b == 0#5 && f.c == 0#5 && f.d == 0#5 && controlReg f.sel
      && !vxfReg f.sel && f.sel != 9#12
  | .vxfAccess w f => f.plain && f.fn == 0#4 && f.b == 0#5 && f.c == 0#5 && vxfReg f.sel
      && (if w then f.d == 0#5 else f.a == 0#5)
  | .quotaWrite f => f.plain && f.fn == 0#4 && f.b == 0#5 && f.c == 0#5 && f.d == 0#5 && f.sel == 9#12
  | .tretTake f => f.row 0#4 && f.a == 0#5 && f.b == 0#5
  | .tretDefer f => f.row 1#4 && f.b == 0#5 && f.d == 0#5
  | .tretTerm f => f.row 2#4 && f.d == 0#5
  | .tretRelease f => f.row 3#4 && f.b == 0#5 && f.d == 0#5
  | .tlbw f => f.row 0#4
  | .tlbiPage f => f.row 0#4 && f.d == 0#5
  | .tlbiAsid f => f.row 1#4 && f.d == 0#5 && f.a == 0#5
  | .tlbiAll f => f.row 2#4 && f.d == 0#5 && f.a == 0#5 && f.b == 0#5
  | .mbind f => f.row 0#4
  | .mbindUn f => f.row 1#4 && f.b == 0#5
  | .qsave f | .qrest f => f.plain && f.sel == 0#12 && f.fn == 0#4
  | .reprwGet f => f.row 0#4 && f.b == 0#5
  | .reprwAdd f => f.row 1#4 && f.b == 0#5
  | .reprwApply f => f.row 2#4 && f.b == 0#5
  | .reprwClr f => f.row 3#4 && f.b == 0#5 && f.a == 0#5 && f.d == 0#5
  | .reprwSum f => f.row 4#4 && f.b == 0#5 && f.a == 0#5
  | .halt f => f.row 0#4 && f.d == 0#5 && f.a == 0#5 && f.b == 0#5
  | .cinvI f => f.row 0#4 && f.d == 0#5
  | .cinvD f => f.row 1#4 && f.d == 0#5 && f.b == 0#5
  | .msHalt f => f.imm == 0#14 && f.b == 0#4 && f.a == 0#4 && f.d == 0#4
  | .msLdi f | .msLdh f => f.b == 0#4 && f.a == 0#4
  | .msMov f | .msWay f => f.imm == 0#14 && f.b == 0#4
  | .msAdd f | .msSub f | .msAnd f | .msOr f | .msXor f | .msShl f | .msShr f => f.imm == 0#14
  | .msAddi f | .msInb f | .msInw f | .msLds f => f.b == 0#4
  | .msSts f | .msBeq f | .msBne f | .msBlt f => f.d == 0#4
  | .msJmp f => f.b == 0#4 && f.a == 0#4 && f.d == 0#4
  | .msEmit f => f.imm == 0#14 && f.b == 0#4 && f.d == 0#4
  | .taskStart c n | .taskReplay c n | .watchdogExpire c n => (HartId.slot c n).ok
  | .revocationNotice c _ | .matrixSliceStart c | .tileClaimGrant c => c < 3328
  | .gangPlace c | .missQueueAdmit c => c < 104
  | .longLatencyComplete h | .guardResolve h | .storeDrain h | .streamFill h _ | .streamDrain h _
  | .instructionCacheFill h | .tscFirmwareStart h _ _ => h.ok
  | .commandKick q | .granuleComplete q _ | .completionMessageRetry q _ => q.ok
  | .histogramFlush d | .marchTestComplete d _ _ => d < 4
  | .serviceMessageArrival d c _ => (HartId.sys d c).ok
  | .budgetExhausted _ | .loadRequest _ _ _ | .cairnWaitResolve _ _ | .pageHashCheck _ _ _
  | .hostWindowRead _ _ _ _ | .hostWindowWrite _ _ _ _ | .mailboxSlotWrite _ _ _ _ _
  | .mailboxSlotRead _ _ _ _ _ | .doorbellWrite _ _ _ _ _ | .mailboxFault _ _ | .heldSlotPush _
  | .counterDecrementPerform _ | .launchCompletionRetry _ _ | .gangwaitExpire _
  | .retentionEnter _ | .retentionEntryDone _ | .retentionExitDone _ _ _ | .timeSliceEnd _
  | .retirementRequest _ | .retirementCancel _ | .sweepStart | .retirementCommit | .sweepPause
  | .sweepResume | .sweepLineCopy | .sweepUnitComplete | .requestReplay | .packageReset
  | .bootStageHandoff _ _ | .fullServiceSwitch | .clockStepDown _ _ | .clockStepUp _
  | .partitionCreate _ _ | .partitionDestroy _ | .keySlotFree _ | .firmwareStage _ | .svnRaise _ _
  | .updateRequest | .heartbeat | .heartbeatTimeout | .getVersion _ | .getCapabilities _
  | .negotiateAlgorithms _ _ | .getDigests _ | .getCertificate _ | .challenge _ _
  | .getMeasurements _ _ _ | .keyExchange _ _ | .finish _ _ | .endSession _ | .keyStoreSet _ _ _ _
  | .keyStoreDisable _ _ | .keyStoreStatus _ | .portTransmit _ _ | .portReceive _ _ | .portReadBlock _ _
  | .portWriteBlock _ _ | .portFlush _ _ | .turnpikeArrival _ | .imageUnload _ _ | .orderlyShutdown => true

end Sys2Proof
end

