-- ==== Sys2Proof/Decode.lean ====
section
/-! DEFINITION. Instruction words and bytes (02 R18 to R32, R50; 03 R71): the decoder, total on any bytes, which
refuses by name, and after it the encoder, written from the same tables. -/

namespace Sys2Proof

/-- Why a word is no instruction: checks 1 and 2 of R20 (03 R71 for a Milestone word), or too few bytes. -/
inductive Reject where
  | tooShort
  | unassignedOpcode
  | reservedBits
  | illegalField
deriving DecidableEq, Repr

/-- Bits [lo + len - 1 : lo] of a word (R8). -/
def bits (w lo len : Nat) : Nat := w / 2 ^ lo % 2 ^ len

/-- The value of little-endian bytes (R8). -/
def leNat : List Byte → Nat
  | [] => 0
  | b :: bs => b.toNat + 256 * leNat bs

/-- The low n bytes of a value, least significant first (R8). -/
def leBytes : Nat → Nat → List Byte
  | 0, _ => []
  | n + 1, w => BitVec.ofNat 8 w :: leBytes n (w / 256)

/-! ### The fields of each format -/

/-- The fields of a format A word (R25). -/
def FmtA.ofWord (w : Nat) : FmtA where
  la := BitVec.ofNat 4 (bits w 60 4)
  nf := bits w 59 1 == 1
  gd := BitVec.ofNat 3 (bits w 56 3)
  order := BitVec.ofNat 2 (bits w 43 2)
  scope := BitVec.ofNat 3 (bits w 40 3)
  sat := bits w 39 1 == 1
  rnd := BitVec.ofNat 3 (bits w 36 3)
  ty := BitVec.ofNat 4 (bits w 32 4)
  fn := BitVec.ofNat 4 (bits w 28 4)
  c := BitVec.ofNat 5 (bits w 23 5)
  b := BitVec.ofNat 5 (bits w 18 5)
  a := BitVec.ofNat 5 (bits w 13 5)
  d := BitVec.ofNat 5 (bits w 8 5)

/-- The fields of a format I word (R26). -/
def FmtI.ofWord (w : Nat) : FmtI where
  la := BitVec.ofNat 4 (bits w 60 4)
  nf := bits w 59 1 == 1
  gd := BitVec.ofNat 3 (bits w 56 3)
  imm := BitVec.ofNat 32 (bits w 23 32)
  b := BitVec.ofNat 5 (bits w 18 5)
  a := BitVec.ofNat 5 (bits w 13 5)
  d := BitVec.ofNat 5 (bits w 8 5)

/-- The fields of a format M word (R27). -/
def FmtM.ofWord (w : Nat) : FmtM where
  la := BitVec.ofNat 4 (bits w 60 4)
  nf := bits w 59 1 == 1
  gd := BitVec.ofNat 3 (bits w 56 3)
  order := BitVec.ofNat 2 (bits w 54 2)
  scope := BitVec.ofNat 3 (bits w 51 3)
  size := BitVec.ofNat 3 (bits w 48 3)
  offs := BitVec.ofNat 16 (bits w 32 16)
  ty := BitVec.ofNat 4 (bits w 28 4)
  c := BitVec.ofNat 5 (bits w 23 5)
  b := BitVec.ofNat 5 (bits w 18 5)
  a := BitVec.ofNat 5 (bits w 13 5)
  d := BitVec.ofNat 5 (bits w 8 5)

/-- The fields of a format B word (R28). -/
def FmtB.ofWord (w : Nat) : FmtB where
  la := BitVec.ofNat 4 (bits w 60 4)
  nf := bits w 59 1 == 1
  gd := BitVec.ofNat 3 (bits w 56 3)
  offs := BitVec.ofNat 24 (bits w 32 24)
  fn := BitVec.ofNat 4 (bits w 28 4)
  c := BitVec.ofNat 5 (bits w 23 5)
  b := BitVec.ofNat 5 (bits w 18 5)
  a := BitVec.ofNat 5 (bits w 13 5)
  d := BitVec.ofNat 5 (bits w 8 5)

/-- The fields of a format T word (R29). -/
def FmtT.ofWord (w : Nat) : FmtT where
  la := BitVec.ofNat 4 (bits w 60 4)
  nf := bits w 59 1 == 1
  gd := BitVec.ofNat 3 (bits w 56 3)
  wrap := bits w 53 1 == 1
  rnd := BitVec.ofNat 3 (bits w 50 3)
  sat := bits w 49 1 == 1
  ty := BitVec.ofNat 4 (bits w 45 4)
  coff := BitVec.ofNat 10 (bits w 32 10)
  fn := BitVec.ofNat 4 (bits w 28 4)
  c := BitVec.ofNat 5 (bits w 23 5)
  b := BitVec.ofNat 5 (bits w 18 5)
  a := BitVec.ofNat 5 (bits w 13 5)
  d := BitVec.ofNat 5 (bits w 8 5)

/-- The fields of a format W word (R30). -/
def FmtW.ofWord (w : Nat) : FmtW where
  la := BitVec.ofNat 4 (bits w 60 4)
  nf := bits w 59 1 == 1
  gd := BitVec.ofNat 3 (bits w 56 3)
  b8 := BitVec.ofNat 5 (bits w 50 5)
  mode := BitVec.ofNat 2 (bits w 48 2)
  space := BitVec.ofNat 3 (bits w 45 3)
  imm := BitVec.ofNat 9 (bits w 36 9)
  ty := BitVec.ofNat 4 (bits w 32 4)
  fn := BitVec.ofNat 4 (bits w 28 4)
  c := BitVec.ofNat 5 (bits w 23 5)
  b := BitVec.ofNat 5 (bits w 18 5)
  a := BitVec.ofNat 5 (bits w 13 5)
  d := BitVec.ofNat 5 (bits w 8 5)

/-- The fields of a format E word (R31). -/
def FmtE.ofWord (w : Nat) : FmtE where
  la := BitVec.ofNat 4 (bits w 60 4)
  nf := bits w 59 1 == 1
  gd := BitVec.ofNat 3 (bits w 56 3)
  tag := BitVec.ofNat 6 (bits w 50 6)
  split := BitVec.ofNat 3 (bits w 47 3)
  mbx := bits w 46 1 == 1
  scope := BitVec.ofNat 3 (bits w 43 3)
  fn := BitVec.ofNat 4 (bits w 28 4)
  c := BitVec.ofNat 5 (bits w 23 5)
  b := BitVec.ofNat 5 (bits w 18 5)
  a := BitVec.ofNat 5 (bits w 13 5)
  d := BitVec.ofNat 5 (bits w 8 5)

/-- The fields of a format S word (R32). -/
def FmtS.ofWord (w : Nat) : FmtS where
  la := BitVec.ofNat 4 (bits w 60 4)
  nf := bits w 59 1 == 1
  gd := BitVec.ofNat 3 (bits w 56 3)
  sel := BitVec.ofNat 12 (bits w 32 12)
  fn := BitVec.ofNat 4 (bits w 28 4)
  c := BitVec.ofNat 5 (bits w 23 5)
  b := BitVec.ofNat 5 (bits w 18 5)
  a := BitVec.ofNat 5 (bits w 13 5)
  d := BitVec.ofNat 5 (bits w 8 5)

/-- The fields of a Milestone word (R71). -/
def FmtMs.ofWord (w : Nat) : FmtMs where
  imm := BitVec.ofNat 14 (bits w 18 14)
  b := BitVec.ofNat 4 (bits w 14 4)
  a := BitVec.ofNat 4 (bits w 10 4)
  d := BitVec.ofNat 4 (bits w 6 4)

/-! ### Decoding -/

/-- Check 2 of R20 on a decoded instruction. -/
def accept (i : Instr) : Except Reject Instr := if i.wf then .ok i else .error .illegalField

/-- The reserved bits of the format must be zero, then the fields are checked (R20). -/
def acceptIf (reserved : Bool) (i : Instr) : Except Reject Instr :=
  if reserved then accept i else .error .reservedBits

/-- Format A: bits [55:45] reserved (R25). -/
def decodeA (w : Nat) (k : FmtA → Instr) : Except Reject Instr := acceptIf (bits w 45 11 == 0) (k (.ofWord w))
/-- Format I: bit 55 reserved (R26). -/
def decodeI (w : Nat) (k : FmtI → Instr) : Except Reject Instr := acceptIf (bits w 55 1 == 0) (k (.ofWord w))
/-- Format M: every bit is a field (R27). -/
def decodeM (w : Nat) (k : FmtM → Instr) : Except Reject Instr := accept (k (.ofWord w))
/-- Format B: every bit is a field (R28). -/
def decodeB (w : Nat) (k : FmtB → Instr) : Except Reject Instr := accept (k (.ofWord w))
/-- Format T: bits [55:54] and [44:42] reserved (R29). -/
def decodeT (w : Nat) (k : FmtT → Instr) : Except Reject Instr :=
  acceptIf (bits w 54 2 == 0 && bits w 42 3 == 0) (k (.ofWord w))
/-- Format W: bit 55 reserved (R30). -/
def decodeW (w : Nat) (k : FmtW → Instr) : Except Reject Instr := acceptIf (bits w 55 1 == 0) (k (.ofWord w))
/-- Format E: bits [42:32] reserved (R31). -/
def decodeE (w : Nat) (k : FmtE → Instr) : Except Reject Instr := acceptIf (bits w 32 11 == 0) (k (.ofWord w))
/-- Format S: bits [55:44] reserved (R32). -/
def decodeS (w : Nat) (k : FmtS → Instr) : Except Reject Instr := acceptIf (bits w 44 12 == 0) (k (.ofWord w))

/-- FN of a word, bits [31:28] (R19). -/
def fnBits (w : Nat) : Nat := bits w 28 4
/-- SEL of a format S word, bits [43:32] (R32). -/
def selBits (w : Nat) : Nat := bits w 32 12

/-- A 64-bit Ronid word (R20 checks 1 and 2, opcode map of R50). -/
def decodeRonid (w : Nat) : Except Reject Instr :=
  match bits w 0 8 with
  | 0x01 => decodeA w .add
  | 0x02 => decodeI w .addi
  | 0x03 => decodeA w .sub
  | 0x04 => decodeA w .mul
  | 0x05 => decodeA w .mulh
  | 0x06 => decodeA w .div
  | 0x07 => decodeA w .rem
  | 0x08 => decodeA w .and
  | 0x09 => decodeI w .andi
  | 0x0A => decodeA w .or
  | 0x0B => decodeI w .ori
  | 0x0C => decodeA w .xor
  | 0x0D => decodeI w .xori
  | 0x0E => decodeA w .shl
  | 0x0F => decodeI w .shli
  | 0x10 => decodeA w .shr
  | 0x11 => decodeI w .shri
  | 0x12 => decodeA w .sra
  | 0x13 => decodeI w .srai
  | 0x14 => decodeA w .min
  | 0x15 => decodeA w .max
  | 0x16 => decodeA w .cset
  | 0x17 => decodeA w .csel
  | 0x18 => decodeA w .clz
  | 0x19 => decodeA w .ctz
  | 0x1A => decodeA w .popc
  | 0x1B => decodeA w .bext
  | 0x1C => decodeA w .bins
  | 0x1D => decodeI w .li
  | 0x1E => decodeI w .lih
  | 0x1F => decodeI w .addpc
  | 0x30 => decodeB w .br
  | 0x31 => decodeB w .jmp
  | 0x32 => decodeA w .jr
  | 0x33 => decodeB w .call
  | 0x34 => decodeA w .callr
  | 0x35 => decodeI w .rep
  | 0x36 => decodeA w .gset
  | 0x37 => decodeA w .gclr
  | 0x38 => decodeA w .rgn
  | 0x39 => decodeA w .taskEnd
  | 0x3A => decodeA w .nop
  | 0x3B => decodeI w .brk
  | 0x40 => decodeM w .ld
  | 0x41 => decodeM w .st
  | 0x42 => decodeM w .wld
  | 0x43 => decodeM w .wst
  | 0x44 => decodeM w .pf
  | 0x45 => decodeM w .bld
  | 0x46 => decodeM w .bst
  | 0x47 => decodeM w .cln
  | 0x50 => decodeM w .amo
  | 0x51 => decodeM w .cas
  | 0x52 => decodeM w .cas2
  | 0x53 => decodeA w .fence
  | 0x54 => decodeM w .barr
  | 0x55 => decodeM w .wfv
  | 0x60 => decodeA w .vadd
  | 0x61 => decodeA w .vsub
  | 0x62 => decodeA w .vmul
  | 0x63 => decodeA w .vfma
  | 0x64 => decodeA w .vfms
  | 0x65 => decodeA w .vmin
  | 0x66 => decodeA w .vmax
  | 0x67 => decodeA w .vabs
  | 0x68 => decodeA w .vneg
  | 0x69 => decodeA w .vand
  | 0x6A => decodeA w .vor
  | 0x6B => decodeA w .vxor
  | 0x6C => decodeA w .vshl
  | 0x6D => decodeA w .vshr
  | 0x6E => decodeA w .vsra
  | 0x6F => decodeA w .vcmp
  | 0x70 => decodeA w .vsel
  | 0x71 => decodeA w .vcvt
  | 0x72 => decodeA w .vred
  | 0x73 => decodeA w .vscan
  | 0x74 => match fnBits w with
    | 1 => decodeA w .vperm2
    | _ => decodeA w .vperm
  | 0x75 => decodeA w .vbcast
  | 0x76 => decodeA w .vext
  | 0x77 => decodeA w .vins
  | 0x78 => decodeA w .vrcp
  | 0x79 => decodeA w .vrsqrt
  | 0x7A => decodeA w .vexp2
  | 0x7B => decodeA w .vlog2
  | 0x7C => decodeA w .vsqrt
  | 0x7D => decodeA w .vdiv
  | 0x7E => decodeA w .vdot
  | 0x7F => decodeA w .vmov
  | 0x80 => decodeM w .vld
  | 0x81 => decodeM w .vst
  | 0x82 => decodeM w .vgath
  | 0x83 => decodeM w .vscat
  | 0x84 => decodeM w .vbld
  | 0x85 => decodeM w .vbst
  | 0x86 => decodeA w .kop
  | 0x87 => decodeA w .vclass
  | 0x88 => decodeM w .vwld
  | 0x89 => decodeM w .vwst
  | 0x90 => match fnBits w with
    | 1 => decodeT w .tcfgGet
    | _ => decodeT w .tcfg
  | 0x91 => decodeT w .tclaim
  | 0x92 => decodeT w .tfree
  | 0x93 => decodeT w .tld
  | 0x94 => decodeT w .tst
  | 0x95 => decodeT w .tzero
  | 0x96 => decodeT w .mma
  | 0x97 => decodeT w .mmg
  | 0x98 => decodeT w .dmma
  | 0x99 => decodeT w .tscl
  | 0x9A => decodeT w .ttr
  | 0x9B => decodeT w .cread
  | 0xA0 => match fnBits w with
    | 1 => decodeW w .wsetDim
    | 2 => decodeW w .wsetScl
    | 3 => decodeW w .wsetSreg
    | _ => decodeW w .wset
  | 0xA1 => decodeW w .wopen
  | 0xA2 => decodeW w .wretire
  | 0xA3 => decodeW w .wbind
  | 0xA4 => decodeW w .wunbind
  | 0xA5 => decodeW w .weos
  | 0xA6 => decodeW w .wsub
  | 0xA7 => decodeW w .wtest
  | 0xB0 => decodeE w .cpy
  | 0xB1 => decodeE w .cpys
  | 0xB2 => decodeE w .coll
  | 0xB3 => decodeI w .twany
  | 0xB4 => decodeI w .twall
  | 0xB5 => decodeI w .tfirst
  | 0xB6 => decodeI w .tclr
  | 0xB7 => decodeE w .cfill
  | 0xC0 => decodeB w .fork
  | 0xC1 => decodeB w .forkc
  | 0xC2 => decodeB w .forkg
  | 0xC3 => decodeB w .join
  | 0xC4 => decodeA w .send
  | 0xC5 => decodeB w .spawn
  | 0xC6 => decodeA w .qinfo
  | 0xD0 => decodeS w .trap
  | 0xD1 => if selBits w = 5 ∨ selBits w = 6 then decodeS w (.vxfAccess false) else decodeS w .ctrlr
  | 0xD2 => if selBits w = 5 ∨ selBits w = 6 then decodeS w (.vxfAccess true)
            else if selBits w = 9 then decodeS w .quotaWrite else decodeS w .ctrlw
  | 0xD3 => match fnBits w with
    | 1 => decodeS w .tretDefer
    | 2 => decodeS w .tretTerm
    | 3 => decodeS w .tretRelease
    | _ => decodeS w .tretTake
  | 0xD4 => decodeS w .tlbw
  | 0xD5 => match fnBits w with
    | 1 => decodeS w .tlbiAsid
    | 2 => decodeS w .tlbiAll
    | _ => decodeS w .tlbiPage
  | 0xD6 => match fnBits w with
    | 1 => decodeS w .mbindUn
    | _ => decodeS w .mbind
  | 0xD7 => decodeS w .qsave
  | 0xD8 => decodeS w .qrest
  | 0xD9 => match fnBits w with
    | 1 => decodeS w .reprwAdd
    | 2 => decodeS w .reprwApply
    | 3 => decodeS w .reprwClr
    | 4 => decodeS w .reprwSum
    | _ => decodeS w .reprwGet
  | 0xDA => decodeS w .halt
  | 0xDB => match fnBits w with
    | 1 => decodeS w .cinvD
    | _ => decodeS w .cinvI
  | _ => .error .unassignedOpcode

/-- A 32-bit Milestone word (R71). -/
def decodeMilestone (w : Nat) : Except Reject Instr :=
  match bits w 0 6 with
  | 0x00 => accept (.msHalt (.ofWord w))
  | 0x01 => accept (.msLdi (.ofWord w))
  | 0x02 => accept (.msLdh (.ofWord w))
  | 0x03 => accept (.msMov (.ofWord w))
  | 0x04 => accept (.msAdd (.ofWord w))
  | 0x05 => accept (.msAddi (.ofWord w))
  | 0x06 => accept (.msSub (.ofWord w))
  | 0x07 => accept (.msAnd (.ofWord w))
  | 0x08 => accept (.msOr (.ofWord w))
  | 0x09 => accept (.msXor (.ofWord w))
  | 0x0A => accept (.msShl (.ofWord w))
  | 0x0B => accept (.msShr (.ofWord w))
  | 0x0C => accept (.msInb (.ofWord w))
  | 0x0D => accept (.msInw (.ofWord w))
  | 0x0E => accept (.msLds (.ofWord w))
  | 0x0F => accept (.msSts (.ofWord w))
  | 0x10 => accept (.msBeq (.ofWord w))
  | 0x11 => accept (.msBne (.ofWord w))
  | 0x12 => accept (.msBlt (.ofWord w))
  | 0x13 => accept (.msJmp (.ofWord w))
  | 0x14 => accept (.msWay (.ofWord w))
  | 0x15 => accept (.msEmit (.ofWord w))
  | _ => .error .unassignedOpcode

/-- A Ronid instruction at the head of bytes, little-endian (R18), and the bytes after it. -/
def decode (bs : List Byte) : Except Reject (Instr × List Byte) :=
  if bs.length < 8 then .error .tooShort
  else match decodeRonid (leNat (bs.take 8)) with
    | .ok i => .ok (i, bs.drop 8)
    | .error e => .error e

/-- A Milestone instruction at the head of bytes, little-endian (R71), and the bytes after it. -/
def decodeMilestoneBytes (bs : List Byte) : Except Reject (Instr × List Byte) :=
  if bs.length < 4 then .error .tooShort
  else match decodeMilestone (leNat (bs.take 4)) with
    | .ok i => .ok (i, bs.drop 4)
    | .error e => .error e

/-- The instruction of a table row's word: 32 bits and fewer are Milestone rows, longer ones Ronid words. -/
def decodeTableWord (nbits w : Nat) : Option Instr :=
  match (if nbits ≤ 32 then decodeMilestoneBytes (leBytes 4 (w % 2 ^ nbits)) else decode (leBytes 8 (w % 2 ^ nbits))) with
  | .ok (i, _) => some i
  | .error _ => none

/-! ### Encoding -/

/-- One bit of a word. -/
def bit (b : Bool) : Nat := if b then 1 else 0

/-- A format A word (R25). -/
def FmtA.word (op : Nat) (f : FmtA) : Nat :=
  op + f.d.toNat * 2 ^ 8 + f.a.toNat * 2 ^ 13 + f.b.toNat * 2 ^ 18 + f.c.toNat * 2 ^ 23 + f.fn.toNat * 2 ^ 28
    + f.ty.toNat * 2 ^ 32 + f.rnd.toNat * 2 ^ 36 + bit f.sat * 2 ^ 39 + f.scope.toNat * 2 ^ 40
    + f.order.toNat * 2 ^ 43 + f.gd.toNat * 2 ^ 56 + bit f.nf * 2 ^ 59 + f.la.toNat * 2 ^ 60

/-- A format I word (R26). -/
def FmtI.word (op : Nat) (f : FmtI) : Nat :=
  op + f.d.toNat * 2 ^ 8 + f.a.toNat * 2 ^ 13 + f.b.toNat * 2 ^ 18 + f.imm.toNat * 2 ^ 23
    + f.gd.toNat * 2 ^ 56 + bit f.nf * 2 ^ 59 + f.la.toNat * 2 ^ 60

/-- A format M word (R27). -/
def FmtM.word (op : Nat) (f : FmtM) : Nat :=
  op + f.d.toNat * 2 ^ 8 + f.a.toNat * 2 ^ 13 + f.b.toNat * 2 ^ 18 + f.c.toNat * 2 ^ 23 + f.ty.toNat * 2 ^ 28
    + f.offs.toNat * 2 ^ 32 + f.size.toNat * 2 ^ 48 + f.scope.toNat * 2 ^ 51 + f.order.toNat * 2 ^ 54
    + f.gd.toNat * 2 ^ 56 + bit f.nf * 2 ^ 59 + f.la.toNat * 2 ^ 60

/-- A format B word (R28). -/
def FmtB.word (op : Nat) (f : FmtB) : Nat :=
  op + f.d.toNat * 2 ^ 8 + f.a.toNat * 2 ^ 13 + f.b.toNat * 2 ^ 18 + f.c.toNat * 2 ^ 23 + f.fn.toNat * 2 ^ 28
    + f.offs.toNat * 2 ^ 32 + f.gd.toNat * 2 ^ 56 + bit f.nf * 2 ^ 59 + f.la.toNat * 2 ^ 60

/-- A format T word (R29). -/
def FmtT.word (op : Nat) (f : FmtT) : Nat :=
  op + f.d.toNat * 2 ^ 8 + f.a.toNat * 2 ^ 13 + f.b.toNat * 2 ^ 18 + f.c.toNat * 2 ^ 23 + f.fn.toNat * 2 ^ 28
    + f.coff.toNat * 2 ^ 32 + f.ty.toNat * 2 ^ 45 + bit f.sat * 2 ^ 49 + f.rnd.toNat * 2 ^ 50
    + bit f.wrap * 2 ^ 53 + f.gd.toNat * 2 ^ 56 + bit f.nf * 2 ^ 59 + f.la.toNat * 2 ^ 60

/-- A format W word (R30). -/
def FmtW.word (op : Nat) (f : FmtW) : Nat :=
  op + f.d.toNat * 2 ^ 8 + f.a.toNat * 2 ^ 13 + f.b.toNat * 2 ^ 18 + f.c.toNat * 2 ^ 23 + f.fn.toNat * 2 ^ 28
    + f.ty.toNat * 2 ^ 32 + f.imm.toNat * 2 ^ 36 + f.space.toNat * 2 ^ 45 + f.mode.toNat * 2 ^ 48
    + f.b8.toNat * 2 ^ 50 + f.gd.toNat * 2 ^ 56 + bit f.nf * 2 ^ 59 + f.la.toNat * 2 ^ 60

/-- A format E word (R31). -/
def FmtE.word (op : Nat) (f : FmtE) : Nat :=
  op + f.d.toNat * 2 ^ 8 + f.a.toNat * 2 ^ 13 + f.b.toNat * 2 ^ 18 + f.c.toNat * 2 ^ 23 + f.fn.toNat * 2 ^ 28
    + f.scope.toNat * 2 ^ 43 + bit f.mbx * 2 ^ 46 + f.split.toNat * 2 ^ 47 + f.tag.toNat * 2 ^ 50
    + f.gd.toNat * 2 ^ 56 + bit f.nf * 2 ^ 59 + f.la.toNat * 2 ^ 60

/-- A format S word (R32). -/
def FmtS.word (op : Nat) (f : FmtS) : Nat :=
  op + f.d.toNat * 2 ^ 8 + f.a.toNat * 2 ^ 13 + f.b.toNat * 2 ^ 18 + f.c.toNat * 2 ^ 23 + f.fn.toNat * 2 ^ 28
    + f.sel.toNat * 2 ^ 32 + f.gd.toNat * 2 ^ 56 + bit f.nf * 2 ^ 59 + f.la.toNat * 2 ^ 60

/-- A Milestone word (R71). -/
def FmtMs.word (op : Nat) (f : FmtMs) : Nat :=
  op + f.d.toNat * 2 ^ 6 + f.a.toNat * 2 ^ 10 + f.b.toNat * 2 ^ 14 + f.imm.toNat * 2 ^ 18

/-- The 64-bit word of a Ronid instruction; none for a Milestone instruction and for an event. -/
def encodeRonid : Instr → Option Nat
  | .add f => some (f.word 0x01)
  | .addi f => some (f.word 0x02)
  | .sub f => some (f.word 0x03)
  | .mul f => some (f.word 0x04)
  | .mulh f => some (f.word 0x05)
  | .div f => some (f.word 0x06)
  | .rem f => some (f.word 0x07)
  | .and f => some (f.word 0x08)
  | .andi f => some (f.word 0x09)
  | .or f => some (f.word 0x0A)
  | .ori f => some (f.word 0x0B)
  | .xor f => some (f.word 0x0C)
  | .xori f => some (f.word 0x0D)
  | .shl f => some (f.word 0x0E)
  | .shli f => some (f.word 0x0F)
  | .shr f => some (f.word 0x10)
  | .shri f => some (f.word 0x11)
  | .sra f => some (f.word 0x12)
  | .srai f => some (f.word 0x13)
  | .min f => some (f.word 0x14)
  | .max f => some (f.word 0x15)
  | .cset f => some (f.word 0x16)
  | .csel f => some (f.word 0x17)
  | .clz f => some (f.word 0x18)
  | .ctz f => some (f.word 0x19)
  | .popc f => some (f.word 0x1A)
  | .bext f => some (f.word 0x1B)
  | .bins f => some (f.word 0x1C)
  | .li f => some (f.word 0x1D)
  | .lih f => some (f.word 0x1E)
  | .addpc f => some (f.word 0x1F)
  | .br f => some (f.word 0x30)
  | .jmp f => some (f.word 0x31)
  | .jr f => some (f.word 0x32)
  | .call f => some (f.word 0x33)
  | .callr f => some (f.word 0x34)
  | .rep f => some (f.word 0x35)
  | .gset f => some (f.word 0x36)
  | .gclr f => some (f.word 0x37)
  | .rgn f => some (f.word 0x38)
  | .taskEnd f => some (f.word 0x39)
  | .nop f => some (f.word 0x3A)
  | .brk f => some (f.word 0x3B)
  | .ld f => some (f.word 0x40)
  | .st f => some (f.word 0x41)
  | .wld f => some (f.word 0x42)
  | .wst f => some (f.word 0x43)
  | .pf f => some (f.word 0x44)
  | .bld f => some (f.word 0x45)
  | .bst f => some (f.word 0x46)
  | .cln f => some (f.word 0x47)
  | .amo f => some (f.word 0x50)
  | .cas f => some (f.word 0x51)
  | .cas2 f => some (f.word 0x52)
  | .fence f => some (f.word 0x53)
  | .barr f => some (f.word 0x54)
  | .wfv f => some (f.word 0x55)
  | .vadd f => some (f.word 0x60)
  | .vsub f => some (f.word 0x61)
  | .vmul f => some (f.word 0x62)
  | .vfma f => some (f.word 0x63)
  | .vfms f => some (f.word 0x64)
  | .vmin f => some (f.word 0x65)
  | .vmax f => some (f.word 0x66)
  | .vabs f => some (f.word 0x67)
  | .vneg f => some (f.word 0x68)
  | .vand f => some (f.word 0x69)
  | .vor f => some (f.word 0x6A)
  | .vxor f => some (f.word 0x6B)
  | .vshl f => some (f.word 0x6C)
  | .vshr f => some (f.word 0x6D)
  | .vsra f => some (f.word 0x6E)
  | .vcmp f => some (f.word 0x6F)
  | .vsel f => some (f.word 0x70)
  | .vcvt f => some (f.word 0x71)
  | .vred f => some (f.word 0x72)
  | .vscan f => some (f.word 0x73)
  | .vperm f => some (f.word 0x74)
  | .vperm2 f => some (f.word 0x74)
  | .vbcast f => some (f.word 0x75)
  | .vext f => some (f.word 0x76)
  | .vins f => some (f.word 0x77)
  | .vrcp f => some (f.word 0x78)
  | .vrsqrt f => some (f.word 0x79)
  | .vexp2 f => some (f.word 0x7A)
  | .vlog2 f => some (f.word 0x7B)
  | .vsqrt f => some (f.word 0x7C)
  | .vdiv f => some (f.word 0x7D)
  | .vdot f => some (f.word 0x7E)
  | .vmov f => some (f.word 0x7F)
  | .vld f => some (f.word 0x80)
  | .vst f => some (f.word 0x81)
  | .vgath f => some (f.word 0x82)
  | .vscat f => some (f.word 0x83)
  | .vbld f => some (f.word 0x84)
  | .vbst f => some (f.word 0x85)
  | .kop f => some (f.word 0x86)
  | .vclass f => some (f.word 0x87)
  | .vwld f => some (f.word 0x88)
  | .vwst f => some (f.word 0x89)
  | .tcfg f => some (f.word 0x90)
  | .tcfgGet f => some (f.word 0x90)
  | .tclaim f => some (f.word 0x91)
  | .tfree f => some (f.word 0x92)
  | .tld f => some (f.word 0x93)
  | .tst f => some (f.word 0x94)
  | .tzero f => some (f.word 0x95)
  | .mma f => some (f.word 0x96)
  | .mmg f => some (f.word 0x97)
  | .dmma f => some (f.word 0x98)
  | .tscl f => some (f.word 0x99)
  | .ttr f => some (f.word 0x9A)
  | .cread f => some (f.word 0x9B)
  | .wset f => some (f.word 0xA0)
  | .wsetDim f => some (f.word 0xA0)
  | .wsetScl f => some (f.word 0xA0)
  | .wsetSreg f => some (f.word 0xA0)
  | .wopen f => some (f.word 0xA1)
  | .wretire f => some (f.word 0xA2)
  | .wbind f => some (f.word 0xA3)
  | .wunbind f => some (f.word 0xA4)
  | .weos f => some (f.word 0xA5)
  | .wsub f => some (f.word 0xA6)
  | .wtest f => some (f.word 0xA7)
  | .cpy f => some (f.word 0xB0)
  | .cpys f => some (f.word 0xB1)
  | .coll f => some (f.word 0xB2)
  | .twany f => some (f.word 0xB3)
  | .twall f => some (f.word 0xB4)
  | .tfirst f => some (f.word 0xB5)
  | .tclr f => some (f.word 0xB6)
  | .cfill f => some (f.word 0xB7)
  | .fork f => some (f.word 0xC0)
  | .forkc f => some (f.word 0xC1)
  | .forkg f => some (f.word 0xC2)
  | .join f => some (f.word 0xC3)
  | .send f => some (f.word 0xC4)
  | .spawn f => some (f.word 0xC5)
  | .qinfo f => some (f.word 0xC6)
  | .trap f => some (f.word 0xD0)
  | .ctrlr f => some (f.word 0xD1)
  | .ctrlw f => some (f.word 0xD2)
  | .vxfAccess w f => some (f.word (if w then 0xD2 else 0xD1))
  | .quotaWrite f => some (f.word 0xD2)
  | .tretTake f => some (f.word 0xD3)
  | .tretDefer f => some (f.word 0xD3)
  | .tretTerm f => some (f.word 0xD3)
  | .tretRelease f => some (f.word 0xD3)
  | .tlbw f => some (f.word 0xD4)
  | .tlbiPage f => some (f.word 0xD5)
  | .tlbiAsid f => some (f.word 0xD5)
  | .tlbiAll f => some (f.word 0xD5)
  | .mbind f => some (f.word 0xD6)
  | .mbindUn f => some (f.word 0xD6)
  | .qsave f => some (f.word 0xD7)
  | .qrest f => some (f.word 0xD8)
  | .reprwGet f => some (f.word 0xD9)
  | .reprwAdd f => some (f.word 0xD9)
  | .reprwApply f => some (f.word 0xD9)
  | .reprwClr f => some (f.word 0xD9)
  | .reprwSum f => some (f.word 0xD9)
  | .halt f => some (f.word 0xDA)
  | .cinvI f => some (f.word 0xDB)
  | .cinvD f => some (f.word 0xDB)
  | _ => none

/-- The 32-bit word of a Milestone instruction. -/
def encodeMilestone : Instr → Option Nat
  | .msHalt f => some (f.word 0x00)
  | .msLdi f => some (f.word 0x01)
  | .msLdh f => some (f.word 0x02)
  | .msMov f => some (f.word 0x03)
  | .msAdd f => some (f.word 0x04)
  | .msAddi f => some (f.word 0x05)
  | .msSub f => some (f.word 0x06)
  | .msAnd f => some (f.word 0x07)
  | .msOr f => some (f.word 0x08)
  | .msXor f => some (f.word 0x09)
  | .msShl f => some (f.word 0x0A)
  | .msShr f => some (f.word 0x0B)
  | .msInb f => some (f.word 0x0C)
  | .msInw f => some (f.word 0x0D)
  | .msLds f => some (f.word 0x0E)
  | .msSts f => some (f.word 0x0F)
  | .msBeq f => some (f.word 0x10)
  | .msBne f => some (f.word 0x11)
  | .msBlt f => some (f.word 0x12)
  | .msJmp f => some (f.word 0x13)
  | .msWay f => some (f.word 0x14)
  | .msEmit f => some (f.word 0x15)
  | _ => none

/-- The bytes of an instruction as memory holds them (R18, R71); none for an event, which has no word. -/
def encode (i : Instr) : Option (List Byte) :=
  match encodeRonid i, encodeMilestone i with
  | some w, _ => some (leBytes 8 w)
  | none, some w => some (leBytes 4 w)
  | none, none => none

/-- An event: a row without a word of its own. -/
def Instr.isEvent (i : Instr) : Bool := (encodeRonid i).isNone && (encodeMilestone i).isNone

/-- A row of the Milestone set (R71). -/
def Instr.isMilestone (i : Instr) : Bool := (encodeMilestone i).isSome

end Sys2Proof
end

