-- ==== Sys2Proof/Config.lean ====
section
/-! DEFINITION. What the manual leaves to the package, to cryptography outside it, or open: constants without a body,
so that no proof can see a value of them. Each is named in the assumption log. -/

namespace Sys2Proof.Config

/-- Spare rows of each die (R361 gives no number). -/
opaque spareRows : Nat → Nat

/-- The order in which the Crossing engines add the members of a collective use (R264): for use, element and
position, which of the remaining addends comes next. -/
opaque sumPick : Nat → Nat → Nat → Nat

/-- Where the source and destination bytes of a copy overlap (R259): for a command, an element and a position in the walk
to it, 0 for the value from before the command, else which value of the command. -/
opaque copyPick : Nat → Nat → Nat → Nat

/-- ECDSA P-384 verification of a digest under a public key (R59, R381). -/
opaque ecdsaVerifies (key digest signature : List Byte) : Bool

/-- HSS verification of a digest under a public key (R59, R381). -/
opaque hssVerifies (key digest signature : List Byte) : Bool

/-- The root keys fused into the package that KEYINDEX selects (R381): ECDSA, then HSS. -/
opaque rootKeys : Nat → List Byte × List Byte

/-- A P-384 public key is well formed (R393). -/
opaque p384WellFormed : List Byte → Bool

/-- An HSS public key is well formed (R393). -/
opaque hssWellFormed : List Byte → Bool

/-- The ROM's fused identity record (R382). -/
opaque identityRecord : List Byte

/-- The certificate chain of the one slot (R394). -/
opaque certificateChain : List Byte

/-- A signature by the device identity key (R395), for the n-th use of it. -/
opaque deviceSignature : Nat → List Byte → List Byte

/-- The device's share and the session secret of an ECDH exchange (R394), for the n-th use. -/
opaque exchangeReply : Nat → List Byte → List Byte

/-- The verify data that FINISH must carry for an exchange (R394, R396). -/
opaque finishCode : Nat → List Byte → List Byte

/-- The bytes of the internal sections of the n-th save area (R339): how many, and which. -/
opaque saveLength : Nat → Nat
/-- Byte i of the internal sections of the n-th save area. -/
opaque saveByte : Nat → Nat → Byte

/-- What a byte written under one key reads as under another, at a physical address (R219, R390): the keys are given as slot
and count. -/
opaque unrelated (old new : Nat × Nat) (pa : Nat) (x : Byte) : Byte

/-- The first frame at which the firmware of a boot stage stands, and the bytes of its image that are text (R344, R379). -/
opaque firmwareFrame : Nat → Nat
opaque firmwareText : List Byte → Nat

/-- The layout version and the body of the handover structure that an old scheduler firmware writes (R401). -/
opaque handoverVersion : List Byte → Nat
opaque handoverBody : List Byte → List Byte

/-- The bank of its home die's cache that serves a physical line (R350). -/
opaque dieBank : Nat → Nat

/-- The first frames of a die's event ring and of its histogram area, as boot maps them (R356, R357). -/
opaque ringFrame : Nat → Nat
opaque histogramFrame : Nat → Nat

/-- A partition's policy asks for block signatures (R358). -/
opaque signaturePolicy : Nat → Bool

/-- The image of a view register and the progress word of a command in a record extension (R325), which are internal to the
chip: byte i of the n-th. -/
opaque extensionByte : Nat → Nat → Byte

/-- A free value of 64 bits, for the n-th use. -/
opaque freeWord : Nat → Word

end Sys2Proof.Config
end

