-- ==== Sys2Proof/Machine/State.lean ====
section
/-! DEFINITION. The state of the machine: every piece of architectural state the manual names, as plain data, and the
state after reset. Names and layouts follow the rules cited at each field. -/

namespace Sys2Proof.Machine

open Sys2Proof

/-- A keyed table: what is not listed is at the default its reader names. -/
abbrev Table (κ α : Type) := List (κ × α)

/-- Memory: the bytes that differ from 0 by rising address (log entry 7: an unlisted byte reads 0), and the numbers
of the 8-byte words that carry poison (R351), rising. -/
structure Mem where
  cells : List (Nat × Byte) := []
  poison : List Nat := []
deriving DecidableEq, Repr

/-! ### Views, streams and registers of a slot -/

/-- The state of a view register (R224, R228). -/
inductive ViewState where
  | empty | set | opened | wide
deriving DecidableEq, Repr

/-- One dimension of a view (R224). -/
structure Dim where
  ext : Int := 1
  lo : Int := 0
  stride : Int := 0
deriving DecidableEq, Repr

/-- The scale description of a view (R224, R226). -/
structure Scale where
  base : Word
  block : Word
  row : Word
  kdim : Nat
  e8m0 : Bool
deriving DecidableEq, Repr

/-- A view register (R224). -/
structure View where
  state : ViewState := .empty
  space : BitVec 3 := 0
  base : Word := 0
  rank : Nat := 1
  dims : Vector Dim 4 := Vector.replicate 4 {}
  ty : BitVec 4 := 0
  b8 : BitVec 5 := 0
  scl : Option Scale := none
  /-- Name and size of an S-region view (R231). -/
  sreg : Option (Word × Word) := none
  /-- 0 none, 1 read, 2 write. -/
  mode : BitVec 2 := 0
  scope : BitVec 3 := 0
  /-- The stream register bound to the view. -/
  stream : Option Nat := none
deriving DecidableEq, Repr

/-- The binding of one of v24 to v31 (R232, R233). The saved value stands in the vector register itself. -/
structure Stream where
  view : Nat
  output : Bool
  /-- Its place in the task's program order among streams and commands (R230). -/
  seq : Nat := 0
  /-- Entries popped or pushed. -/
  pos : Nat := 0
  /-- Entries filled and not popped, or pushed and not written, oldest first; with each the entry number. -/
  entries : List (Nat × BitVec 512) := []
  ended : Bool := false
  /-- Its view has been retired since, so that no view operation waits for it any more (R230). -/
  retired : Bool := false
deriving DecidableEq, Repr

/-- One entry of the inline stack (R113, R324): where an inline run returns, and the indices still to run. -/
structure Frame where
  ret : Word
  target : Word := 0
  index : Nat := 0
  left : Nat := 0
deriving DecidableEq, Repr

/-- The repetition state (R154). -/
structure Rep where
  n : Nat
  pass : Nat := 0
  j : Nat := 0
  len : Nat
  stride : Nat
  addr : Word
  /-- The repetition buffer: the words of the body, each with its page's SIG bit, as the `rep` fetched them (R153); empty after a
  replay, which fetches them anew. -/
  words : List (Nat × Bool) := []
deriving DecidableEq, Repr

/-- The registers that a region's checkpoint covers (R137). -/
structure Regs where
  s : Vector Word 32 := Vector.replicate 32 0
  v : Vector (BitVec 512) 32 := Vector.replicate 32 0
  k : Vector (BitVec 16) 8 := Vector.replicate 8 0
  w : Vector View 16 := Vector.replicate 16 {}
  g : Vector Bool 8 := Vector.replicate 8 false
  rmode : BitVec 3 := 0
  inline : List Frame := []
  streams : Vector (Option Stream) 8 := Vector.replicate 8 none
  rep : Option Rep := none
deriving DecidableEq, Repr

/-! ### Tasks -/

/-- A task descriptor (R105), with the partition and the ASID it runs under. -/
structure Descriptor where
  payload : Vector Word 8 := Vector.replicate 8 0
  entry : Word := 0
  counter : Word := 0
  launch : Nat := 0
  /-- 0 task, 1 range, 2 gang member, 3 continuation. -/
  kind : Nat := 0
  glade : Nat := 4
  urgent : Bool := false
  /-- Core of the package where it was pushed. -/
  origin : Nat := 0
  lo : Nat := 0
  hi : Nat := 0
  object : Word := 0
  asid : Nat := 0
  part : Nat := 0
deriving DecidableEq, Repr

/-- What a slot knows of the task it holds (R123, R143, R280, R324). -/
structure Task where
  desc : Descriptor := {}
  wdlimit : Nat := 0x01000000
  gang : Option Nat := none
  episode : Nat := 0
  /-- SIGMIS: block, logical core and count of the most recent signature mismatch (R324, R359). -/
  sigmis : Option (Word × Nat × Nat) := none
deriving DecidableEq, Repr

/-! ### Traps -/

/-- The trap classes of R318, and the inline-overflow status. -/
inductive TrapClass where
  | illegal | privilege | alignment | viewFormat | pageFault | protection | poison | signature
  | watchdog | gang | integrity | software | inlineOverflow
deriving DecidableEq, Repr

/-- A trap with what its report says of it (R321). -/
structure Trap where
  cls : TrapClass
  detail : BitVec 32 := 0
  addr : Word := 0
  value : Word := 0
deriving DecidableEq, Repr

/-! ### Engine commands -/

/-- What a command does (R250). -/
inductive CommandOp where
  | cpy
  | cpys (set : Bool)
  | coll (op : Nat)
  | cfill (value : Word)
deriving DecidableEq, Repr

/-- Where a command stands (R136, R246, R253). -/
inductive CommandState where
  | held (guard : Nat)
  | queued
  | kicked
  | stopped
deriving DecidableEq, Repr

/-- An engine command that holds an entry of a command queue, or that a die keeps (R157, R246). -/
structure Command where
  id : Nat
  word : Word
  op : CommandOp
  state : CommandState
  dst : View
  src : View := {}
  /-- Registers that name the views, for `wretire` (R241). -/
  dstReg : Nat := 0
  /-- Signal or group-record address. -/
  aux : Word := 0
  tag : Nat := 0
  mbx : Option Word := none
  split : Nat := 3
  scope : BitVec 3 := 4
  /-- Issued in the region that is not yet over (R253). -/
  fresh : Bool := true
  /-- Granules completed, and the status once the command has finished or failed (R255). -/
  done : Nat := 0
  status : Option Nat := none
  /-- Its completion message is on its way to another package, whose answer has not come (R260). -/
  away : Bool := false
  /-- The group record of a collective, as the kick read it (R263): GROUP, COUNT and RANK, EPOCH, ROSTER. -/
  record : Option (List Nat) := none
  /-- Bytes the completed granules wrote (R260). -/
  bytes : Nat := 0
  /-- Flits that it has sent to another package and whose acknowledgement has not come (R262). -/
  flits : Nat := 0
  /-- A copy inside one space: that space as it was before the first granule (R259). -/
  before : Mem := {}
  /-- The task has ended, so its tag is dropped (R254). -/
  orphan : Bool := false
  core : Nat := 0
  slot : Nat := 0
  launch : Nat := 0
  asid : Nat := 0
  part : Nat := 0
deriving DecidableEq, Repr

/-! ### A hart: a task slot, a TSC or a system core -/

/-- A tile register (R44, R269): element codes by outer index and K index, side-band scales by outer index and block,
each with what an unlisted place holds, and the descriptor's fields. -/
structure Tile where
  codes : Table (Nat × Nat) Nat := []
  scales : Table (Nat × Nat) Nat := []
  /-- The binary32 code of an unlisted side-band entry: 0 after a claim, 1.0 after `tld` or `tzero`. -/
  scaleFill : Nat := 0
  bad : List (Nat × Nat) := []
  kext : Nat := 0
  oext : Nat := 0
  b8 : BitVec 5 := 0
  ty : BitVec 4 := 0
  scaled : Bool := false
  role : Bool := false
  loaded : Bool := false
  holder : Option Nat := none
deriving DecidableEq, Repr

/-- A register result that lands when its instruction completes (R130 to R132). -/
inductive Dest where
  | s (n : Nat) (x : Word)
  | v (n : Nat) (x : BitVec 512)
  | k (n : Nat) (x : BitVec 16)
  | t (n : Nat) (x : Tile)
deriving DecidableEq, Repr

/-- An issued long-latency instruction whose results have not landed. -/
structure Pending where
  dests : List Dest
  /-- Instructions still to issue in its window (R131). -/
  left : Nat
  /-- The core cycle at which it completes; none while the matrix slice has not started it (R273). -/
  doneAt : Option Nat
  /-- It ended the current region and has performed its access, so the region boundary does not wait for it (R140). -/
  performed : Bool := false
  /-- The job of the matrix slice it waits for, 0 for none. -/
  job : Nat := 0
  /-- It is a flag-setting instruction: whether it does, and the flags it adds to `vxf` when it completes (R49). -/
  sets : Bool := false
  flagsLo : Word := 0
  flagsHi : Word := 0
deriving DecidableEq, Repr

/-- A guard write not yet resolved (R134). -/
structure GuardWrite where
  guard : Nat
  value : Bool
  issued : Nat
deriving DecidableEq, Repr

/-- The bytes one instruction stored that no other agent can read yet (R297): in physical memory, or in the memory of a
cluster. -/
structure Store where
  cluster : Option Nat
  bytes : List (Nat × Byte)
  /-- Nibbles of bytes that it stores only half of (R164, R238): address, true for bits [7:4], and code. -/
  half : List (Nat × Bool × Nat) := []
  /-- The key slots of the pages it writes, by 64 KiB frame (R219). -/
  keys : Table Nat Nat := []
  /-- Issued in the region that is not yet over (R141). -/
  fresh : Bool := true
  /-- The low bit of PHASE under which its request was routed, and the stacks it went to, once it has been (R372). -/
  routed : Option (Bool × List Nat) := none
deriving DecidableEq, Repr

/-- Why a slot that holds a task does not issue (R125). -/
inductive Wait where
  | fetch | miss | window | guard | boundary | flags | tags | value | barrier | send | stream | gang | drain
  | views | queue | claim | slice | bank | sweep | take | message | update
deriving DecidableEq, Repr

/-- The trap of a task that stalls or parks on a fault-queue entry (R222, R326), with the word it is at: what its report
says if the entry is terminated (R321). -/
structure FaultMark where
  trap : Trap
  pc : Word
  insn : Word
deriving DecidableEq, Repr

/-- A basic block as the signature checker follows it (R358): its first word, the words so far, and whether one of them differs
from the word that was admitted in its place. -/
structure Block where
  first : Word
  count : Nat
  differs : Bool := false
deriving DecidableEq, Repr

/-- The registers and the private state of one hart. -/
structure Hart where
  regs : Regs := {}
  pc : Word := 0
  regionpc : Word := 0
  checkpoint : Regs := {}
  checkWd : Nat := 0
  /-- Performed atomics and matrix instructions whose windows overlap the region (R140). -/
  checkPend : List Pending := []
  /-- The word at issue, for the report (R321). -/
  insn : Word := 0
  tagdone : Word := 0
  /-- The hidden failed marks of the tags (R256), with the status of each failed tag. -/
  tagfail : Table Nat Nat := []
  vxfLo : Word := 0
  vxfHi : Word := 0
  pend : List Pending := []
  unres : List GuardWrite := []
  stores : List Store := []
  queue : List Command := []
  task : Option Task := none
  wd : Nat := 0
  /-- The next instruction begins a region (R140). -/
  boundary : Bool := false
  wait : Option Wait := none
  /-- A task that keeps its slot while it waits on this fault-queue entry (R323), 0 for no entry. -/
  parked : Option Nat := none
  /-- The fault that the task waits on, while it stalls or is parked on a fault-queue entry. -/
  fault : Option FaultMark := none
  /-- The generation and the arrival of a `barr` that waits (R314), and the answer of a `send` (R120). -/
  arrival : Option (Nat × Nat) := none
  answer : Option Nat := none
  sent : Bool := false
  /-- The word at pc with its page's SIG bit, once it has been fetched, while its instruction waits (R125). -/
  word : Option (Nat × Bool) := none
  /-- The block the signature checker follows (R358). -/
  block : Option Block := none
  /-- The same at region entry, for a replay (R358). -/
  checkBlock : Option Block := none
  /-- The trap that it owes: of the miss it stalled on, which has been terminated (R334), or of a task whose end waits for what its
  release comes after (R320). It is taken when it is its turn to issue (R126), and nothing displaces it (R319). -/
  verdict : Option Trap := none
  /-- TSC or system core: issuing (R341). -/
  running : Bool := false
  /-- A system core other than core 0 of its die that runs a program at system level (R375). -/
  raised : Bool := false
  /-- `halt` in force (R340). -/
  halted : Bool := false
  /-- ASID under which a TSC or system core translates. -/
  asid : Nat := 0
  /-- The clock at the reset of a TSC or a system core (R46, log entry 24). -/
  since : Nat := 0
  /-- Service queue of a system core (R340), oldest first. -/
  inbox : List (List Byte) := []
deriving DecidableEq, Repr

/-- What a deque or spill area holds: a descriptor, or a task record that is ready for replay (R326), with the core that
parked it; `fixed` for one that a signature mismatch parked, which no other core takes. -/
inductive Work where
  | desc (d : Descriptor)
  | replay (h : Hart) (origin : Nat) (fixed : Bool)
deriving DecidableEq, Repr

/-! ### Translation and misses -/

/-- A TLB entry as `tlbw` writes it (R215, R216), with the partition that owns its ASID. -/
structure TlbEntry where
  word0 : Word
  word1 : Word
deriving DecidableEq, Repr

/-- Who waits for a miss (R222, R255, R115). -/
inductive Requester where
  | hart (h : HartId)
  | command (site : Site) (id : Nat)
  | decrement (part id : Nat)
deriving DecidableEq, Repr

/-- A live entry of a cluster's miss queue (R222, R342). -/
structure MissEntry where
  seq : Nat
  asid : Nat
  page : Nat
  /-- The 256 bits of R342. -/
  image : BitVec 256
  parked : Bool := false
  taken : Bool := false
  /-- Restored, and not yet waiting in the queue (R329): its number is the model's own, above every number of R343. -/
  restored : Bool := false
  stalled : List Requester := []
  /-- Tasks parked on it: records, and tasks that kept their slots. -/
  records : List (Hart × HartId) := []
  kept : List HartId := []
deriving DecidableEq, Repr

/-- A miss that waits outside a full queue (R223): its key, and the image of its entry without a number. -/
structure MissWait where
  who : Requester
  asid : Nat
  page : Nat
  image : BitVec 256
deriving DecidableEq, Repr

/-! ### Tiles, the matrix slice and gangs -/

/-- A matrix instruction in the slice's queue (R273), with the tiles as it read them. -/
structure SliceJob where
  id : Nat
  slot : Nat
  /-- 0 `mma`, 1 `dmma`, 2 `tscl` of binary32, 3 `tscl` of binary64. -/
  kind : Nat
  coff : Nat
  a : Tile := {}
  b : Tile := {}
  z : Bool := false
  wrap : Bool := false
  nf : Bool := false
  rnd : BitVec 3 := 0
  scale : Nat := 0
deriving DecidableEq, Repr

/-- The instruction that the slice runs: its slot, its C region and the cycle at which it completes. -/
structure SliceRun where
  slot : Nat
  lo : Nat
  hi : Nat
  doneAt : Nat
deriving DecidableEq, Repr

/-- A member's arrival at a gang's barrier (R280): its tiles, its C region and its flags field. -/
structure Arrival where
  member : Nat
  a : Tile
  b : Tile
  coff : Nat
  z : Bool
  wrap : Bool
  nf : Bool
deriving DecidableEq, Repr

/-- What a resolved episode brings one member (R280, R290): its status and its flags. -/
structure GangResult where
  member : Nat
  status : Nat
  /-- The cycle at which the member's instruction completes (R273). -/
  doneAt : Nat := 0
  flagsLo : Word := 0
  flagsHi : Word := 0
deriving DecidableEq, Repr

/-- A live gang (R116, R280 to R282). -/
structure Gang where
  cluster : Nat
  row : Nat
  slots : List (Nat × Nat)
  limit : Nat
  broken : Bool := false
  ended : List Nat := []
  /-- The open episode: number, cycle of the first arrival, arrivals. -/
  episode : Nat := 0
  since : Nat := 0
  arrived : List Arrival := []
  /-- Results of resolved episodes not yet delivered. -/
  results : List GangResult := []
  /-- The episode that failed by timeout, if one did. -/
  timedOut : Option Nat := none
deriving DecidableEq, Repr

/-- An S region (R231). -/
structure SRegion where
  name : Word
  offset : Nat
  size : Nat
  holders : List HartId
  freeing : Bool := false
deriving DecidableEq, Repr

/-! ### Cores, clusters, dies -/

/-- What is held per compute core. -/
structure Core where
  cur : Nat := 0
  run : Nat := 0
  /-- The clock at the core's reset (R46, log entry 24). -/
  since : Nat := 0
  tiles : Vector Tile 8 := Vector.replicate 8 {}
  /-- Waiting claims in issue order: slot and mask (R271). -/
  claims : List (Nat × BitVec 8) := []
  jobs : List SliceJob := []
  slice : Option SliceRun := none
  /-- The `mmg` instructions of its slots whose barrier is resolved and which have not completed (R276, R290). -/
  mmgs : List SliceRun := []
  w : Mem := {}
  a : Mem := {}
  c : Mem := {}
  sbuf : Mem := {}
  sregions : List SRegion := []
  dequeN : List Work := []
  dequeU : List Work := []
  spillN : List Work := []
  spillU : List Work := []
  /-- The four rotating steal pointers, once set (R108). -/
  pointers : Vector (Option Nat) 4 := Vector.replicate 4 none
  tlb : List TlbEntry := []
  /-- Lines of the instruction cache, by ASID and line of the virtual address. -/
  icache : List (Nat × Nat) := []
  /-- Lines that `pf` brought into the L1 data cache. -/
  lines : List Nat := []
  quarantined : Bool := false
  /-- Objects whose revocation notice has arrived (R83). -/
  notices : List Word := []
deriving DecidableEq, Repr

/-- A gang that waits for a row (R116). -/
structure GangWait where
  members : List Descriptor
deriving DecidableEq, Repr

/-- What is held per cluster. -/
structure Cluster where
  owner : Nat := 0
  tlb : List TlbEntry := []
  victims : List TlbEntry := []
  misses : List MissEntry := []
  /-- Misses that found the queue full, in order of arrival (R223). -/
  overflow : List MissWait := []
  nextSeq : Nat := 1
  mem : Mem := {}
  /-- Owners of the live-view directory's entries (R228): hart and view register. -/
  directory : List (HartId × Nat) := []
  gangs : List GangWait := []
  firmware : List Byte := []
  /-- The march test left rows of it that cannot be repaired (R383). -/
  disabled : Bool := false
deriving DecidableEq, Repr

/-- A record of the event ring (R356). -/
structure LogEvent where
  row : BitVec 32
  event : Nat
  bits : Nat
  seq : Nat
deriving DecidableEq, Repr

/-- What is held per die. -/
structure Die where
  tlb : List TlbEntry := []
  /-- The first frame of the read-only mapping of its event ring, and of its histogram area, once boot has fixed them (R356,
  R357). -/
  ringFrame : Option Nat := none
  histogramFrame : Option Nat := none
  lines : List Nat := []
  /-- Commands of ended tasks (R157, R254). -/
  orphans : List Command := []
  bloom : List Nat := []
  ring : List LogEvent := []
  events : Nat := 0
  repair : List Word := []
  sparesUsed : Nat := 0
  summary : Word := 0
  /-- Counters by physical core and lane 0 to 15 or sub-array 16 to 23 (R357), and as they stand in flash. -/
  counters : Table (Nat × Nat) Nat := []
  flash : Table (Nat × Nat) Nat := []
  /-- The clock at the last time they reached flash. -/
  flushedAt : Nat := 0
deriving DecidableEq, Repr

/-- The state of a bank (R350). -/
inductive BankState where
  | active | entering (wanted : Bool) | retention | exiting
deriving DecidableEq, Repr

/-! ### Partitions -/

/-- The state of a mailbox (R98, R99). -/
inductive MbxState where
  | unbound | armed | held | faulted
deriving DecidableEq, Repr

/-- A mailbox (R91 to R99). -/
structure Mailbox where
  state : MbxState := .unbound
  gen : Nat := 0
  object : Word := 0
  entry : Word := 0
  asid : Nat := 0
  urgent : Bool := false
  glade : Nat := 4
  home : Nat := 0
  logDepth : Nat := 0
  messageFed : Bool := false
  doneMbx : Word := 0
  faultMbx : Word := 0
  expect : Nat := 1
  slot : Nat := 0
  fails : Nat := 0
  announced : List Nat := []
  /-- Slots that a message filled ahead of E and that E has not reached. -/
  filled : List Nat := []
  latched : Option (List Byte) := none
  /-- Faulted, and the message of R100 not yet sent. -/
  owes : Bool := false
  bytes : Mem := {}
deriving DecidableEq, Repr

/-- An installed object (R62, R63, R82, R83). -/
structure Object where
  handle : Word
  asid : Nat
  /-- Virtual address of image word 0, and the words of the image. -/
  base : Word
  words : Nat
  /-- Export numbers and their word indices. -/
  entries : List (Nat × Nat)
  /-- Physical page of each image page, then of each data page. -/
  frames : List Nat := []
  native : Bool := false
  /-- The words admitted, of which the signatures of its blocks are derived (R358). -/
  admitted : List Nat := []
  /-- For a native image: the file's bytes of the image and the digests of its pages, and the pages passed. -/
  image : List Byte := []
  digests : List (List Byte) := []
  passed : List Nat := []
  /-- Page being hashed (R82). -/
  hashing : Option Nat := none
  revoked : Bool := false
deriving DecidableEq, Repr

/-- A translation that a Clearing runs (R70 to R76). -/
structure Clearing where
  part : Nat := 0
  /-- The cluster of the loading partition on whose TSC it runs (R76); none while the partition has no cluster. -/
  tsc : Option Nat := none
  m : Vector Word 16 := Vector.replicate 16 0
  missed : Bool := false
  scratch : Mem := {}
  /-- Output words, newest first. -/
  out : List Word := []
  ip : Word := 0
  units : Nat := 0
  budget : Nat := 1
  pathfinder : List Byte := []
  code : List Byte := []
  /-- The Cairn key (R78), the object's file and the place of its image. -/
  key : List Byte := []
  file : List Byte := []
  base : Word := 0
  /-- Loads that wait for this translation (R80): their files and bases. -/
  waiting : List (List Byte × Word) := []
  running : Bool := false
  /-- The outcome once it has ended: code and detail. -/
  outcome : Option (Nat × Nat) := none
deriving DecidableEq, Repr

/-- A launch in the completion tree (R90, R118, R347, R348). -/
structure Launch where
  id : Nat
  born : Nat := 1
  normal : Nat := 0
  trapped : Nat := 0
  discarded : Nat := 0
  commands : Nat := 0
  first : Word := 0
  integrity : Bool := false
  origin : Word := 0
  doneMbx : Word := 0
  faultMbx : Word := 0
  /-- Its completion message is on its way to another package, whose answer has not come (R118). -/
  away : Bool := false
deriving DecidableEq, Repr

/-- An armed continuation (R114): its counter, and where that lies as the latest translation of its page has it. -/
structure Join where
  counter : Word
  pa : Nat
  desc : Descriptor
deriving DecidableEq, Repr

/-- How the task ended whose counter is to be decremented (R115). -/
inductive EndKind where
  | normal
  | trapped
  | discarded
deriving DecidableEq, Repr

/-- A counter decrement that has not been performed (R115). -/
structure Decrement where
  id : Nat
  desc : Descriptor
  kind : EndKind
  cluster : Nat
  core : Nat
  slot : Nat
  first : Word := 0
  integrity : Bool := false
  /-- `regionpc` of the task, for the entry of a miss (R342). -/
  regionpc : Word := 0
  /-- The word of the task's `end`, for the report of a failed decrement. -/
  pc : Word := 0
  insn : Word := 0
deriving DecidableEq, Repr

/-- An Ultra Ethernet queue pair (R102). -/
structure QueuePair where
  asid : Nat
  ordered : Bool := true
deriving DecidableEq, Repr

/-- A key store entry (R393). -/
inductive KeyEntry where
  | empty
  | enabled (p384 hss : List Byte)
  | disabled (p384 hss : List Byte)
deriving DecidableEq, Repr

/-- How far an SPDM requester has come (R394): the messages answered, in their order. -/
inductive SpdmStage where
  | start | version | capabilities | algorithms
deriving DecidableEq, Repr

/-- An SPDM requester's connection (R394, R396): how far it has come, the open exchange with the count of key uses at
it, and whether the session is secured. -/
structure Spdm where
  stage : SpdmStage := .start
  exchange : Option (Nat × List Byte) := none
  secured : Bool := false
deriving DecidableEq, Repr

/-- How far a pre-emption has come (R327), and a restore whose remainders are not over yet (R254, R329). -/
inductive Preempt where
  | running | stopping | saved | restoring
deriving DecidableEq, Repr

/-- A partition (R388, R389). -/
structure Partition where
  id : Nat := 0
  reduced : Bool := false
  features : BitVec 256 := BitVec.ofNat 256 (2 ^ 255 - 1)
  budgetCap : Nat := 2 ^ 26
  shares : List Nat := [0, 0, 0]
  collDomain : Nat := 0
  nqp : Nat := 2
  nmbx : Nat := 4096
  nasid : Nat := 0
  nkey : Nat := 0
  /-- Clusters of the package in logical order (R122). -/
  slice : List Nat := []
  quota : Nat := 2 ^ 24 - 1
  wdlimit : Nat := 0x01000000
  gangwait : Nat := 0x00010000
  asids : List Nat := []
  keys : List Nat := []
  /-- Pages of the partition's memory: all, and those not yet drawn. -/
  frames : List Nat := []
  framesLeft : List Nat := []
  record : List Byte := []
  mailboxes : Table Nat Mailbox := []
  /-- Mailboxes with a held slot, in the order of validation (R96). -/
  heldOrder : List Nat := []
  objects : Table Word Object := []
  /-- Cairn entries, most recently used first: key and words (R79). -/
  cairn : List (List Byte × List Word) := []
  keyStore : Table Nat KeyEntry := []
  joins : List Join := []
  launches : Table Nat Launch := []
  decrements : List Decrement := []
  /-- Records that have become ready while the partition does not run (R327): they are pushed when it runs again. -/
  ready : List Work := []
  drops : Nat := 0
  qps : Table Nat QueuePair := []
  spdm : Spdm := {}
  preempt : Preempt := .running
  nextLaunch : Nat := 1
  nextObject : Nat := 1
  nextId : Nat := 1
deriving DecidableEq, Repr

/-! ### The package -/

/-- The state of a key slot (R390). -/
inductive KeySlot where
  | free | assigned (part : Nat) | scrubbing
deriving DecidableEq, Repr

/-- A member of a use that has joined (R265): its command, its place and its roster as the entries of R263 give them, and the
codes of its source with their poison. -/
structure Member where
  rank : Nat
  command : Nat
  place : Nat := 0
  roster : List Nat := []
  codes : List (Nat × Bool) := []
deriving DecidableEq, Repr

/-- A live use of a collective (R265, R266). -/
structure Use where
  group : Word
  epoch : Word
  count : Nat
  op : Nat
  width : Nat
  domain : Nat
  /-- Elements of each member's source. -/
  elements : Nat
  members : List Member := []
deriving DecidableEq, Repr

/-- A save of a partition (R328, R339): the number of its free bytes, and the on-chip state it holds. -/
structure Save where
  number : Nat
  area : List Byte
  partition : Partition
  clusters : List Cluster
  cores : List Core
  /-- Harts that keep their slots, by logical core and slot; gangs with live members. -/
  harts : List (Nat × Nat × Hart)
  gangs : Table Nat Gang
  orphans : List Command
deriving DecidableEq, Repr

/-- What moves next: a compute core issues; the units around it (scheduler, engines, store drains) do one activity; a
TSC, a system core or a Clearing runs one instruction. -/
inductive Agent where
  | core (n : Nat)
  | units (n : Nat)
  | tsc (cluster : Nat)
  | sys (die n : Nat)
  | clearing (k : Nat)
deriving DecidableEq, Repr

/-- A level of R220 that holds TLB entries: a core's L1 TLB, a cluster's TLB and victim storage, a die's last-level TLB. -/
inductive TlbLevel where
  | core (c : Nat)
  | cluster (k : Nat)
  | victims (k : Nat)
  | die (d : Nat)
deriving DecidableEq, Repr

/-- The word of a core's array that holds a correctable error, as R357 counts it: a 64-bit word of a vector register with the bad
bit; an element's word of a tile; a C-buffer word, by its byte, that an instruction reads in its C region, of 64 rows, or of 32 for
binary64; one that the `mmg` of a gang's member reads in its region of eight rows; any other. -/
inductive ErrorPlace where
  | vector (word bit : Nat)
  | tile (n r k : Nat)
  | matrix (double : Bool) (coff byte : Nat)
  | gang (member coff byte : Nat)
  | other
deriving DecidableEq, Repr

/-- A hardware error that a later access or block end meets (R349, R355, R358), which is the model's own way to let one occur. A row
is its place in the HBM stack or in the array of its kind (R354). -/
inductive Upset where
  /-- A correctable error of a physical word; `lasting` is what the retest finds. -/
  | corrected (word : Nat) (row : BitVec 32) (bits : Nat) (lasting : Bool)
  /-- An uncorrectable error of a physical word. -/
  | uncorrected (word : Nat) (row : BitVec 32)
  /-- The core's checker computes a wrong hash at its next block end. -/
  | signature (core : Nat)
  /-- A correctable error of an on-chip array met at a core: the row's identifier, and the word that holds it (R355, R357). -/
  | array (core : Nat) (row : BitVec 32) (bits : Nat) (lasting : Bool) (place : ErrorPlace)
  /-- An uncorrectable word of a slot's register file, which its next instruction reads; with `checkpoint`, the checkpoint is
  bad as well (R349). -/
  | register (h : HartId) (checkpoint : Bool)
  /-- An uncorrectable word of a tile register, by one of its elements. -/
  | tile (core n r k : Nat)
  /-- An uncorrectable word of the side-band scales of a tile register, by one of its scales: outer index and block. -/
  | scale (core n r block : Nat)
  /-- An uncorrectable word of a bank; of a die cache, the physical word that it caches. -/
  | bank (b : Bank) (word : Nat)
  /-- An uncorrectable line of an instruction cache: ASID and line. -/
  | line (core asid line : Nat)
  /-- An uncorrectable entry of a level of the TLBs. -/
  | entry (level : TlbLevel) (e : TlbEntry)
deriving DecidableEq, Repr

/-- The state of a scheduler-firmware update (R399). -/
inductive Update where
  | running | quiescing | starting (since : Nat)
deriving DecidableEq, Repr

/-- A firmware slot of flash (R399). -/
structure FirmwareSlot where
  image : List Byte := []
  failed : Bool := false
deriving DecidableEq, Repr

/-- The phases of a retirement (R369). -/
structure Detour where
  capacity : Nat := 0x00C000000000
  phase : BitVec 32 := 0
  retire : BitVec 4 := 0
  pend : Bool := false
  live : BitVec 16 := 0xFFFF
  done : Bool := false
  pause : Bool := false
  /-- The sweep pointer, a byte address. -/
  pointer : Nat := 0
  /-- Lines of the moving unit that have been copied, from the top (R370). -/
  copied : Nat := 0
  /-- A unit is being moved. -/
  moving : Bool := false
deriving DecidableEq, Repr

/-- The package. -/
structure State where
  /-- What moves when the agenda is empty, and the events that come before it (log entry 1). -/
  turn : Agent := .core 0
  agenda : List Instr := []
  /-- What has arrived and waits outside (R371, R399, R400), oldest first: it is tried again in every round. -/
  waiting : List Instr := []
  /-- The hart of the executing instruction. -/
  cur : HartId := .slot 0 0
  /-- The Clearing of the executing Milestone instruction. -/
  clearing : Nat := 0
  freeCount : Nat := 0
  upsets : List Upset := []
  /-- This package's NODE and the packages of the scale-up domain (R91). -/
  node : Nat := 0
  present : List Nat := [0]
  harts : Table HartId Hart := []
  cores : Table Nat Core := []
  clusters : Table Nat Cluster := []
  dies : Table Nat Die := []
  partitions : Table Nat Partition := []
  clearings : Table Nat Clearing := []
  mem : Mem := {}
  detour : Detour := {}
  banks : Table Bank BankState := []
  /-- The clock at the last access to a bank, and at the last one that passed through a die cache to a 128-byte line (R350). -/
  bankUse : Table Bank Nat := []
  lineUse : Table Nat Nat := []
  /-- How often the key of a key slot has been made anew (R390), and the key, as a slot and that count, under which each
  frame was zeroed and each 128-byte line was last written since (R219, log entry 37). -/
  keyCount : Table Nat Nat := []
  frameKeys : Table Nat (Nat × Nat) := []
  lineKeys : Table Nat (Nat × Nat) := []
  /-- The frames of the physical address space behind which the platform has put memory of another package, with its NODE and the
  frame there (R262, log entry 77). -/
  remote : Table Nat (Nat × Nat) := []
  gangs : Table Nat Gang := []
  uses : List Use := []
  saves : List Save := []
  nextId : Nat := 1
  keySlots : Table Nat KeySlot := []
  /-- Boot status word (R383) and measurement registers (R382). -/
  boot : Word := 0
  mr : Vector (BitVec 384) 16 := Vector.replicate 16 0
  svnMin : Table Nat Nat := []
  /-- The images that boot has accepted, by stage (R379, R381). -/
  images : Table Nat (List Byte) := []
  /-- Flash slots A and B of the scheduler firmware; which one is committed (true for B), and the update (R399). -/
  slotA : FirmwareSlot := {}
  slotB : FirmwareSlot := {}
  committedB : Bool := false
  update : Update := .running
  /-- The handover structure of an update (R401): its header and its body. -/
  handover : List Byte := []
  /-- Service messages that have reached the scheduler firmware (R401). -/
  messages : Nat := 0
  /-- Clock step: 0 is 1.9 GHz, 3 the lowest (R378); 0.95 GHz in reduced service follows from the boot status. -/
  clockStep : Nat := 0
  /-- Telemetry of the management function (R405): package power in milliwatts, coolant inlet in tenths of a degree. -/
  power : Nat := 0
  coolant : Nat := 0
  /-- SPDM state of the resident system's own endpoint (R394), and a count of uses of the device key. -/
  spdm : Spdm := {}
  signatures : Nat := 0
  /-- Cycles of the arithmetic clock since package reset (R378); each core counts them from its own reset (R6, R46; log
  entry 24). -/
  clock : Nat := 0
  /-- What the device has answered to hosts, loaders and requesters, oldest first, and what it has sent to other
  packages. -/
  answers : List (List Byte) := []
  sent : List (Nat × Packet) := []
  /-- Interrupts that port engines have raised (R403): queue and TAG, oldest first. -/
  interrupts : List (Nat × Nat) := []
deriving DecidableEq, Repr

/-- Why the model stops with a fault. -/
inductive Fault where
  /-- Raised by `step` when the turn names an agent that the package does not have. Safe: no real agent is meant. -/
  | noAgent
deriving DecidableEq, Repr

/-- Why the model refuses. -/
inductive Refusal where
  /-- Raised by an arm of `exec` whose instruction has no meaning yet. Safe: nothing is claimed of it. -/
  | notModelled (mnemonic : String)
  /-- Raised by `step` when the agenda names an instruction where an event must stand. Safe: no event is meant. -/
  | notAnEvent
deriving DecidableEq, Repr

/-- The outcome of a step. -/
abbrev Out := Host.Outcome State Fault Refusal

/-- The machine right after package reset: every array, register and table empty or zero, PHASE 0, sixteen live
stacks, the clock at its highest step (R46, R365 to R368, R379, R382). -/
def State.reset : State := {}

end Sys2Proof.Machine
end

