-- ==== Sys2Proof/Machine/Memory.lean ====
section
/-! DEFINITION. Keyed tables, and memory: bytes in one canonical form, with the poison of its 8-byte words
(00 R8, 17 R351 to R353). -/

namespace Sys2Proof.Machine

open Sys2Proof

/-! ### Tables -/

/-- The value a table holds for a key. -/
def Table.find {κ α : Type} [DecidableEq κ] : Table κ α → κ → Option α
  | [], _ => none
  | (j, x) :: t, k => if j = k then some x else Table.find t k

/-- The value a table holds for a key, or the default. -/
def Table.get {κ α : Type} [DecidableEq κ] (t : Table κ α) (k : κ) (d : α) : α := (t.find k).getD d

/-- A table with one value replaced or added. -/
def Table.set {κ α : Type} [DecidableEq κ] : Table κ α → κ → α → Table κ α
  | [], k, x => [(k, x)]
  | (j, y) :: t, k, x => if j = k then (k, x) :: t else (j, y) :: Table.set t k x

/-- A table without a key. -/
def Table.erase {κ α : Type} [DecidableEq κ] (t : Table κ α) (k : κ) : Table κ α := List.filter (fun e => e.1 ≠ k) t

/-- A table with every value changed. -/
def Table.update {κ α : Type} (t : Table κ α) (f : κ → α → α) : Table κ α := List.map (fun e => (e.1, f e.1 e.2)) t

/-! ### Bytes -/

/-- The byte at an address; an unlisted address reads 0. -/
def cellsGet : List (Nat × Byte) → Nat → Byte
  | [], _ => 0
  | (b, x) :: t, a => if a = b then x else cellsGet t a

/-- Cells with the byte at one address changed, in canonical form: rising addresses, no zero listed. -/
def cellsSet : List (Nat × Byte) → Nat → Byte → List (Nat × Byte)
  | [], a, x => if x = 0 then [] else [(a, x)]
  | (b, y) :: t, a, x =>
    if a < b then (if x = 0 then (b, y) :: t else (a, x) :: (b, y) :: t)
    else if a = b then (if x = 0 then t else (a, x) :: t)
    else (b, y) :: cellsSet t a x

/-- A rising list of numbers with one added. -/
def insertRising : List Nat → Nat → List Nat
  | [], a => [a]
  | b :: t, a => if a < b then a :: b :: t else if a = b then b :: t else b :: insertRising t a

/-- The byte of a memory at an address. -/
def Mem.byte (m : Mem) (a : Nat) : Byte := cellsGet m.cells a

/-- The bytes of a memory from an address upward. -/
def Mem.bytes (m : Mem) (a : Nat) : Nat → List Byte
  | 0 => []
  | n + 1 => m.byte a :: Mem.bytes m (a + 1) n

/-- The little-endian value of n bytes from an address upward (R8). -/
def Mem.nat (m : Mem) (a n : Nat) : Nat := leNat (m.bytes a n)

/-- The word of 8 bytes that holds a byte is poisoned (R351). -/
def Mem.poisoned (m : Mem) (a : Nat) : Bool := m.poison.contains (a / 8)

/-- Some byte of a range lies in a poisoned word. -/
def Mem.bad (m : Mem) (a n : Nat) : Bool := m.poison.any (fun w => w * 8 < a + n && a < w * 8 + 8)

/-- A memory with a word poisoned. -/
def Mem.mark (m : Mem) (w : Nat) : Mem := { m with poison := insertRising m.poison w }

/-- A memory with one byte written, its poison unchanged. -/
def Mem.setByte (m : Mem) (a : Nat) (x : Byte) : Mem := { m with cells := cellsSet m.cells a x }

/-- All eight bytes of a word are among the addresses written. -/
def covers (l : List (Nat × Byte)) (w : Nat) : Bool :=
  (List.range 8).all (fun i => l.any (fun e => e.1 == w * 8 + i))

/-- One access that writes bytes (R352, R353): poison is cleared only from the words it covers whole. -/
def Mem.store (m : Mem) (l : List (Nat × Byte)) : Mem :=
  let m' := l.foldl (fun m e => m.setByte e.1 e.2) m
  { m' with poison := m'.poison.filter (fun w => !covers l w) }

/-- The bytes of a value at consecutive addresses (R8). -/
def bytesAt (a : Nat) : List Byte → List (Nat × Byte)
  | [] => []
  | x :: t => (a, x) :: bytesAt (a + 1) t

/-- The byte that a nibble store leaves (R164, R238): true for bits [7:4]. -/
def State.nibbleInto (old : Byte) (high : Bool) (x : Nat) : Byte :=
  BitVec.ofNat 8 (if high then old.toNat % 16 + 16 * (x % 16) else old.toNat / 16 * 16 + x % 16)

/-- A memory with one nibble written. -/
def Mem.setNibble (m : Mem) (e : Nat × Bool × Nat) : Mem := m.setByte e.1 (State.nibbleInto (m.byte e.1) e.2.1 e.2.2)

/-- One access that writes bytes and nibbles (R238, R352): a byte written in half leaves its word's poison. -/
def Mem.storeBoth (m : Mem) (bytes : List (Nat × Byte)) (half : List (Nat × Bool × Nat)) : Mem :=
  half.foldl Mem.setNibble (m.store bytes)

/-- Nibble writes of one access, in order, as the bytes of which it writes both halves and the nibbles that are left; of
two writes to one nibble the later counts. -/
def joinNibbles (l : List (Nat × Bool × Nat)) : List (Nat × Byte) × List (Nat × Bool × Nat) :=
  let last (a : Nat) (high : Bool) : Option Nat := ((l.filter fun e => e.1 == a && e.2.1 == high).getLast?).map (·.2.2)
  ((l.filter (·.2.1)).filterMap fun e => (last e.1 false).map fun x =>
      (e.1, BitVec.ofNat 8 (x % 16 + (last e.1 true).getD 0 % 16 * 16)),
   l.filter fun e => (last e.1 (!e.2.1)).isNone)

/-- One access that writes n bytes of a value, little-endian. -/
def Mem.storeNat (m : Mem) (a n x : Nat) : Mem := m.store (bytesAt a (leBytes n x))

/-- One access that copies a whole byte list. -/
def Mem.storeBytes (m : Mem) (a : Nat) (l : List Byte) : Mem := m.store (bytesAt a l)

/-- A little-endian field of a byte list; what the list does not reach reads 0. -/
def fileNat (o : List Byte) (off n : Nat) : Nat := leNat ((o.drop off).take n)

/-- Addresses rise strictly and no listed byte is 0. -/
def cellsWf : List (Nat × Byte) → Bool
  | [] => true
  | [(_, x)] => x != 0
  | (a, x) :: (b, y) :: t => x != 0 && a < b && cellsWf ((b, y) :: t)

/-- Numbers rise strictly. -/
def risingWf : List Nat → Bool
  | [] => true
  | [_] => true
  | a :: b :: t => a < b && risingWf (b :: t)

/-- The canonical form of memory. -/
def Mem.wf (m : Mem) : Bool := cellsWf m.cells && risingWf m.poison

end Sys2Proof.Machine
end

