-- ==== Sys2Proof/Machine/Ops.lean ====
section
/-! DEFINITION. The named operations over registers, memory, translation, mailboxes, tasks and regions, and taking a
trap as one operation (15 R318 to R326). -/

namespace Sys2Proof.Machine

open Sys2Proof

/-! ### Where things are -/

/-- The compute core of a slot. A TSC and a system core hold no tiles or buffers: what of a compute core their instructions act on
is the first core of their cluster or die (log entry 64). -/
def hartCore : HartId → Nat
  | .slot c _ => c
  | .tsc k => k * 32
  | .sys d _ => d * 832
/-- The cluster a hart lies in; a system core lies in none and is given its die's first. -/
def hartCluster (h : HartId) : Nat := hartCore h / 32
/-- The die a hart lies on: 26 clusters of 32 cores each (R1). -/
def hartDie (h : HartId) : Nat := hartCore h / 832
/-- The slot number of a hart (R46; log entry 64 for a TSC or system core). -/
def hartSlot : HartId → Nat
  | .slot _ n => n
  | .tsc _ => 0
  | .sys _ n => n
/-- A hart that can run tasks. -/
def isSlot : HartId → Bool
  | .slot _ _ => true
  | _ => false

namespace State

def hart (s : State) (h : HartId) : Hart := s.harts.get h {}
def setHart (s : State) (h : HartId) (x : Hart) : State := { s with harts := s.harts.set h x }
def modHart (s : State) (h : HartId) (f : Hart → Hart) : State := s.setHart h (f (s.hart h))
/-- The privilege level (R45): 0 task, 1 service, 2 system. The resident system runs on system core 0 of a die, the
scheduler firmware on the others (R379), where the resident system may start a program at system level instead (R375). -/
def level (s : State) (h : HartId) : Nat :=
  match h with
  | .slot _ _ => 0
  | .tsc _ => 1
  | .sys _ n => if n = 0 || (s.hart h).raised then 2 else 1
/-- The executing hart. -/
def me (s : State) : Hart := s.hart s.cur
def setMe (s : State) (x : Hart) : State := s.setHart s.cur x
def modMe (s : State) (f : Hart → Hart) : State := s.setMe (f s.me)
def core (s : State) (c : Nat) : Core := s.cores.get c {}
def setCore (s : State) (c : Nat) (x : Core) : State := { s with cores := s.cores.set c x }
def cluster (s : State) (k : Nat) : Cluster := s.clusters.get k {}
def setCluster (s : State) (k : Nat) (x : Cluster) : State := { s with clusters := s.clusters.set k x }
def die (s : State) (d : Nat) : Die := s.dies.get d {}
def setDie (s : State) (d : Nat) (x : Die) : State := { s with dies := s.dies.set d x }
def partition (s : State) (p : Nat) : Partition := s.partitions.get p {}
def setPartition (s : State) (p : Nat) (x : Partition) : State := { s with partitions := s.partitions.set p x }
/-- The compute core the executing hart lies on, and its cluster. -/
def myCore (s : State) : Core := s.core (hartCore s.cur)
def setMyCore (s : State) (x : Core) : State := s.setCore (hartCore s.cur) x
def myCluster (s : State) : Cluster := s.cluster (hartCluster s.cur)
/-- The cycle that it is. -/
def now (s : State) : Nat := s.clock
/-- What a hart's core counts as `cycle` (R6, R46): the cycles since its own reset. -/
def cycleOf (s : State) (h : HartId) : Word :=
  BitVec.ofNat 64 (s.clock - (if isSlot h then (s.core (hartCore h)).since else (s.hart h).since))
/-- The package offers reduced service (R384, R387): the resident system has started, and FULL is clear. -/
def reducedService (s : State) : Bool := 4 ≤ bits s.boot.toNat 8 3 && !s.boot.toNat.testBit 1
/-- The partition that a hart works for; a system core, the one whose ASID it translates under (log entry 16). -/
def partOf (s : State) (h : HartId) : Nat :=
  match h with
  | .slot _ _ => ((s.hart h).task.getD {}).desc.part
  | .tsc k => (s.cluster k).owner
  | .sys _ _ => ((s.partitions.find? fun e => e.2.asids.contains (s.hart h).asid).map (·.1)).getD 0
def myPart (s : State) : Partition := s.partition (s.partOf s.cur)
/-- The ASID under which a hart translates. -/
def asidOf (s : State) (h : HartId) : Nat :=
  match (s.hart h).task with
  | some t => t.desc.asid
  | none => (s.hart h).asid
/-- Logical number of a core, cluster x 32 + core, in a partition's slice (R122). -/
def logicalCore (s : State) (p c : Nat) : Nat := (s.partition p).slice.findIdx (· == c / 32) * 32 + c % 32
/-- What has arrived waits outside and is tried again. -/
def await (s : State) (i : Instr) : State := { s with waiting := s.waiting ++ [i] }
/-- One free value (log entry 2) and the next count. -/
def free (s : State) : Word × State := (Config.freeWord s.freeCount, { s with freeCount := s.freeCount + 1 })

/-! ### Registers (R42, R43) -/

end State

def Regs.getS (r : Regs) (n : BitVec 5) : Word := if n = 0 then 0 else r.s[n.toNat]'n.isLt
def Regs.setS (r : Regs) (n : BitVec 5) (x : Word) : Regs := if n = 0 then r else { r with s := r.s.set n.toNat x n.isLt }
def Regs.getV (r : Regs) (n : BitVec 5) : BitVec 512 := r.v[n.toNat]'n.isLt
def Regs.setV (r : Regs) (n : BitVec 5) (x : BitVec 512) : Regs := { r with v := r.v.set n.toNat x n.isLt }
def Regs.getK (r : Regs) (n : BitVec 3) : BitVec 16 := if n = 0 then 0xFFFF else r.k[n.toNat]'n.isLt
def Regs.setK (r : Regs) (n : BitVec 3) (x : BitVec 16) : Regs := if n = 0 then r else { r with k := r.k.set n.toNat x n.isLt }
def Regs.getW (r : Regs) (n : BitVec 4) : View := r.w[n.toNat]'n.isLt
def Regs.setW (r : Regs) (n : BitVec 4) (x : View) : Regs := { r with w := r.w.set n.toNat x n.isLt }
/-- The value of a guard field: 0 is always (R22). -/
def Regs.guard (r : Regs) (n : BitVec 3) : Bool := if n = 0 then true else r.g[n.toNat]'n.isLt
def Regs.setG (r : Regs) (n : BitVec 3) (x : Bool) : Regs := if n = 0 then r else { r with g := r.g.set n.toNat x n.isLt }
/-- The stream binding of v24 + i. -/
def Regs.stream (r : Regs) (i : BitVec 3) : Option Stream := r.streams[i.toNat]'i.isLt
def Regs.setStream (r : Regs) (i : BitVec 3) (x : Option Stream) : Regs :=
  { r with streams := r.streams.set i.toNat x i.isLt }

def Hart.modRegs (h : Hart) (f : Regs → Regs) : Hart := { h with regs := f h.regs }

namespace State

def getS (s : State) (n : BitVec 5) : Word := s.me.regs.getS n
def setS (s : State) (n : BitVec 5) (x : Word) : State := s.modMe (·.modRegs (·.setS n x))
def setV (s : State) (n : BitVec 5) (x : BitVec 512) : State := s.modMe (·.modRegs (·.setV n x))
def getK (s : State) (n : BitVec 5) : BitVec 16 := s.me.regs.getK (n.setWidth 3)
def setK (s : State) (n : BitVec 5) (x : BitVec 16) : State := s.modMe (·.modRegs (·.setK (n.setWidth 3) x))
def getW (s : State) (n : BitVec 5) : View := s.me.regs.getW (n.setWidth 4)
def setW (s : State) (n : BitVec 5) (x : View) : State := s.modMe (·.modRegs (·.setW (n.setWidth 4) x))

end State

/-! ### Moving on, waiting, guards -/

/-- The address of the next word in program order, and the repetition state with it (R154). -/
def Hart.advance (h : Hart) : Hart :=
  match h.regs.rep with
  | none => { h with pc := h.pc + 8 }
  | some r =>
    if r.j + 1 < r.len then { h with pc := h.pc + 8, regs := { h.regs with rep := some { r with j := r.j + 1 } } }
    else if r.pass + 1 < r.n then
      { h with pc := r.addr + 8, regs := { h.regs with rep := some { r with j := 0, pass := r.pass + 1 } } }
    else { h with pc := r.addr + 8 + BitVec.ofNat 64 (8 * r.len), regs := { h.regs with rep := none } }

namespace State

def advance (s : State) : State := s.modMe Hart.advance
/-- The slot does not issue and tries again (R125). -/
def stall (s : State) (w : Wait) : State := s.modMe fun h => { h with wait := some w }
/-- The instruction ends its region (R139): the next one begins a region. -/
def endRegion (s : State) : State := s.modMe fun h => { h with boundary := true }
/-- A guard of the executing hart is unresolved (R134). -/
def guardOpen (s : State) (gd : BitVec 3) : Bool := gd != 0 && s.me.unres.any (·.guard == gd.toNat)
/-- The next state in which the instruction is over. -/
def finish (s : State) : Out := .next s.advance
/-- A core instruction under its guard (R22, R135): it waits for an unresolved guard, and is a no-op under a false
one. -/
def guarded (s : State) (gd : BitVec 3) (k : State → Out) : Out :=
  if s.guardOpen gd then .next (s.stall .guard)
  else if s.me.regs.guard gd then k s else s.finish

end State

/-- What an operation of an instruction comes to: a value and a state to go on in, or the state in which the step ends,
because a trap was taken or the slot waits. -/
inductive Res (α : Type) where
  | ok (x : α) (s : State)
  | stop (s : State)

def Res.bind {α β : Type} (r : Res α) (k : α → State → Res β) : Res β :=
  match r with
  | .ok x s => k x s
  | .stop s => .stop s

/-- Go on with the rest of an instruction. -/
def Res.run {α : Type} (r : Res α) (k : α → State → Out) : Out :=
  match r with
  | .ok x s => k x s
  | .stop s => .next s

/-- An operation on each element of a list in order, stopping at the first that stops. -/
def Res.each {α : Type} (f : α → State → Res Unit) : List α → State → Res Unit
  | [], s => .ok () s
  | x :: t, s => (f x s).bind fun _ s => Res.each f t s

/-- The results of an operation on each element of a list in order. -/
def Res.collect {α β : Type} (f : α → State → Res β) : List α → State → Res (List β)
  | [], s => .ok [] s
  | x :: t, s => (f x s).bind fun y s => (Res.collect f t s).bind fun ys s => .ok (y :: ys) s

/-! ### Stores and their drain (R133, R297, R299) -/

namespace State

/-- The new capacity of a retirement (R369). -/
def newCapacity (s : State) : Nat := s.detour.capacity - 0x0C00000000
/-- A retirement is in its sweeping or swept state. -/
def sweepOn (s : State) : Bool := s.detour.phase.toNat % 2 == 1
/-- Physical addresses from here up fault (R373). -/
def limit (s : State) : Nat := if s.sweepOn then s.newCapacity else s.detour.capacity
/-- The 64 KiB unit of an address is being moved (R370, R371). -/
def movingUnit (s : State) (a : Nat) : Bool :=
  s.sweepOn && s.detour.moving && a / 65536 + 1 == s.detour.pointer / 65536

/-! ### Stacks and the error log -/

/-- The live stacks in rising order (R364). -/
def survivors (s : State) : List Nat := (List.range 16).filter fun i => s.detour.live.toNat.testBit i

/-- The stacks that the map of a physical address uses: without the retiring one from the sweep pointer up, and from the
lowest line of the moving unit that has been copied (R364, R370, R371). -/
def stacksOf (s : State) (pa : Nat) : List Nat :=
  if s.sweepOn && s.detour.pointer - 128 * s.detour.copied ≤ pa then s.survivors.filter (· ≠ s.detour.retire.toNat)
  else s.survivors

/-- The stack that holds a physical address (R364). -/
def stackOf (s : State) (pa : Nat) : Nat :=
  let l := s.stacksOf pa
  l.getD (pa / 256 % max l.length 1) 0

/-- The stripe that holds a physical address, and its byte within the stack (R364). -/
def stripeOf (s : State) (pa : Nat) : Nat := pa / 256 / max (s.stacksOf pa).length 1
def stackByte (s : State) (pa : Nat) : Nat := s.stripeOf pa * 256 + pa % 256

/-- The home die of a physical address (R296, R364). -/
def homeDie (s : State) (pa : Nat) : Nat := s.stackOf pa / 4

/-- The row identifier of an HBM row (R354): KIND 0, the stack of the die, and the row within the stack. -/
def hbmRow (s : State) (pa : Nat) (row : BitVec 32) : BitVec 32 :=
  BitVec.ofNat 32 (s.stackOf pa % 4 * 2 ^ 27 + row.toNat % 2 ^ 27)

end State

/-- The three positions of a row in the Bloom filter (R355). -/
def bloomBits (row : Nat) : List Nat :=
  [0x9E3779B1, 0x85EBCA77, 0xC2B2AE3D].map fun m => row * m % 2 ^ 32 / 2 ^ 18

/-- Add a record to a die's event ring, the oldest leaving a full one (R356). -/
def Die.log (d : Die) (row : BitVec 32) (event n : Nat) : Die :=
  let ring := d.ring ++ [{ row, event, bits := n, seq := d.events + 1 }]
  { d with ring := ring.drop (ring.length - 4096), events := d.events + 1 }

/-- Append a row to a die's repair table in a state (R362); the place of the entry, or none when the table is full. -/
def Die.addRepair (d : Die) (row : BitVec 32) (state : Nat) : Die × Option Nat :=
  if 1024 ≤ d.repair.length then ({ d with summary := d.summary ||| 4 }, none)
  else ({ d with repair := d.repair ++ [BitVec.ofNat 64 (2 ^ 63 + state * 2 ^ 61 + row.toNat)],
                 summary := if d.repair.length + 1 = 1024 then d.summary ||| 4 else d.summary }, some d.repair.length)

/-- A corrected error (R355): a first sighting is logged; a repeat offender is retested, and a lasting fault enters the
repair table. -/
def Die.corrected (d : Die) (row : BitVec 32) (n : Nat) (lasting : Bool) : Die :=
  let b := bloomBits row.toNat
  if b.any fun i => !d.bloom.contains i then ({ d with bloom := b.foldl insertRising d.bloom }).log row 0 n
  else if !lasting then d.log row 1 n
  else ((d.log row 2 n).addRepair row 0).1

/-- One more event of a counter that saturates (R357). -/
def Die.count (d : Die) (core i : Nat) : Die :=
  { d with counters := d.counters.set (core, i) (min 0xFFFFFFFF (d.counters.get (core, i) 0 + 1)) }

namespace State

/-- The lines of n bytes from a physical address upward. -/
def linesOf (pa n : Nat) : List Nat := (List.range ((pa % 128 + n + 127) / 128)).map (pa / 128 + ·)

/-- The banks of the die caches that some bytes pass through (log entry 78). -/
def dieBanks (s : State) (pa n : Nat) : List Bank :=
  (linesOf pa n).map fun l => .dieCache (s.homeDie (l * 128)) (Config.dieBank l % 2048)

/-- The errors that a read of physical bytes meets (R349, R355). -/
def meetErrors (s : State) (pa n : Nat) : State :=
  if s.upsets.isEmpty then s
  else s.upsets.foldl (fun s u => match u with
    | .corrected w row b lasting =>
      if w * 8 < pa + n && pa < w * 8 + 8 then
        let d := s.homeDie (w * 8)
        { s.setDie d ((s.die d).corrected (s.hbmRow (w * 8) row) b lasting) with upsets := s.upsets.erase u }
      else s
    | .uncorrected w row =>
      if w * 8 < pa + n && pa < w * 8 + 8 then
        let d := s.homeDie (w * 8)
        { s.setDie d ((s.die d).log (s.hbmRow (w * 8) row) 3 0) with upsets := s.upsets.erase u, mem := s.mem.mark w }
      else s
    | _ => s) s

/-- The errors that a store meets (R352): in the words that it does not write whole, which it reads first. An error of a
word that it writes whole is gone. -/
def meetStore (s : State) (bytes : List (Nat × Byte)) (half : List (Nat × Bool × Nat)) : State :=
  if s.upsets.isEmpty then s
  else
    let whole (u : Upset) : Bool := match u with
      | .corrected w _ _ _ | .uncorrected w _ => covers bytes w
      | _ => false
    let s := { s with upsets := s.upsets.filter fun u => !whole u }
    (bytes.map (·.1) ++ half.map (·.1)).foldl (fun s a => s.meetErrors a 1) s

/-! ### Keys (R219, R390) -/

/-- The key of a key slot as it stands: the slot, and how often its key has been made anew. -/
def keyOf (s : State) (slot : Nat) : Nat × Nat := (slot, s.keyCount.get slot 0)

/-- The key under which a 128-byte line was last written; none for memory of no partition (log entry 37). -/
def keyAt (s : State) (line : Nat) : Option (Nat × Nat) :=
  match s.lineKeys.find line with
  | some k => some k
  | none => s.frameKeys.find (line / 512)

/-- The lines of some bytes read as they are under the key of a slot. -/
def keyed (s : State) (slot pa n : Nat) : Bool :=
  (linesOf pa n).all fun l => match s.keyAt l with | none => true | some k => k == s.keyOf slot

/-- One line is under the key of a slot: its bytes are what they read as under that key. -/
def rekeyLine (slot : Nat) (s : State) (line : Nat) : State :=
  match s.keyAt line with
  | none => s
  | some k =>
    if k = s.keyOf slot then s
    else { s with
      mem := (List.range 128).foldl (fun m i =>
        m.setByte (line * 128 + i) (Config.unrelated k (s.keyOf slot) (line * 128 + i) (m.byte (line * 128 + i)))) s.mem
      lineKeys := s.lineKeys.set line (s.keyOf slot) }

/-- A frame is zeroed under the key of a slot (R390): no line of it is under another. -/
def freshFrame (s : State) (slot pfn : Nat) : State :=
  { s with frameKeys := s.frameKeys.set pfn (s.keyOf slot), lineKeys := s.lineKeys.filter fun e => e.1 / 512 ≠ pfn }

/-- The lines of some bytes are under the key of a slot. -/
def rekey (s : State) (slot pa n : Nat) : State := (linesOf pa n).foldl (rekeyLine slot) s

/-! ### The banks of the die caches (R350) -/

/-- Every die-cache bank that some bytes pass through serves accesses. -/
def dieAwake (s : State) (pa n : Nat) : Bool :=
  s.banks.isEmpty || (s.dieBanks pa n).all fun b => match s.banks.find b with | none | some .active => true | _ => false

/-- An access wakes a bank that is not active. -/
def wakeBank (s : State) (b : Bank) : State :=
  match s.banks.find b with
  | some (.entering _) => { s with banks := s.banks.set b (.entering true) }
  | some .retention => { s with banks := s.banks.set b .exiting }
  | _ => s

/-- An access wakes the die-cache banks that it passes through. -/
def wakeDie (s : State) (pa n : Nat) : State := (s.dieBanks pa n).foldl wakeBank s

/-- The lines of some bytes have been accessed in this cycle, and with them their banks (R350). -/
def touchDie (s : State) (pa n : Nat) : State :=
  { s with lineUse := (linesOf pa n).foldl (fun t l => t.set l s.clock) s.lineUse }

end State

/-- The addresses of the bytes and nibbles of a store. -/
def Store.addrs (st : Store) : List Nat := st.bytes.map (·.1) ++ st.half.map (·.1)

namespace State

/-- A store finds the die-cache banks on its way awake (R350). -/
def awakeFor (s : State) (st : Store) : Bool := st.cluster.isSome || st.addrs.all fun a => s.dieAwake a 1

/-- Stores wake the die-cache banks on their way. -/
def wakeFor (s : State) (l : List Store) : State :=
  (l.filter (·.cluster.isNone)).foldl (fun s st => st.addrs.foldl (fun s a => s.wakeDie a 1) s) s

/-! ### Performing stores -/

/-- An access to n bytes that is made in this step, through banks that are awake: it meets the errors there (R349, R350). -/
def accessNow (s : State) (pa n : Nat) : State := (s.touchDie pa n).meetErrors pa n

/-- The same of a store (R352). -/
def storeNow (s : State) (bytes : List (Nat × Byte)) (half : List (Nat × Bool × Nat)) : State :=
  ((bytes.map (·.1) ++ half.map (·.1)).foldl (fun s a => s.touchDie a 1) s).meetStore bytes half

/-- Perform a store: its bytes reach the point of coherence (R296) under the keys of its pages (R219). What lies at or above
the limit is dropped (R373). -/
def perform (s : State) (st : Store) : State :=
  match st.cluster with
  | some k => s.setCluster k { s.cluster k with mem := (s.cluster k).mem.storeBoth st.bytes st.half }
  | none =>
    let bytes := st.bytes.filter fun e => e.1 < s.limit
    let half := st.half.filter fun e => e.1 < s.limit
    let s := s.storeNow bytes half
    let s := (bytes.map Prod.fst ++ half.map Prod.fst).foldl (fun (s : State) (a : Nat) =>
      match st.keys.find (a / 65536) with | some k => s.rekey k a 1 | none => s) s
    { s with mem := s.mem.storeBoth bytes half }

/-- A store waits for the unit it writes to (R371). -/
def blocked (s : State) (st : Store) : Bool :=
  st.cluster.isNone && (st.bytes.any (fun e => s.movingUnit e.1) || st.half.any fun e => s.movingUnit e.1)

/-- The unit being moved completes (R370): its remaining lines are copied, and the pointer falls by 64 KiB; the unit at address 0
ends the sweep. -/
def completeUnit (s : State) : State :=
  let d := s.detour
  let p := d.pointer - 65536
  let s := s.meetErrors p (65536 - 128 * d.copied)
  { s with detour := { d with moving := false, copied := 0, pointer := p, done := d.done || p == 0 } }

/-- Perform the stores of a task that leaves its slot, oldest first: the release that follows comes after them (R299, R320). Where one
waits for the unit being moved, that unit completes first (R371; log entry 53). -/
def leaveStores (s : State) (l : List Store) : State :=
  l.foldl perform (if l.any s.blocked then s.completeUnit else s)

/-- Perform every undrained store of a hart, oldest first; a request that was routed before a change is routed again on the
way (R372). -/
def drainAll (s : State) (h : HartId) : State :=
  ((s.hart h).stores.foldl perform s).modHart h fun x => { x with stores := [] }

/-- What performs stores at once waits for a unit being moved (R371), and for the banks of die caches on their way, which it wakes
(R350). -/
def awaitStores (s : State) (l : List Store) : Res Unit :=
  if l.any s.blocked then .stop (s.stall .sweep)
  else if !l.all s.awakeFor then .stop ((s.wakeFor l).stall .bank)
  else .ok () s

/-- Every earlier store of the executing hart is performed. -/
def release (s : State) : Res Unit := (s.awaitStores s.me.stores).bind fun _ s => .ok () (s.drainAll s.cur)

/-- Global memory as a hart sees it: its own undrained stores lie over it (R133). -/
def globalFor (s : State) (h : HartId) : Mem :=
  (s.hart h).stores.foldl (fun m st => if st.cluster.isNone then m.storeBoth st.bytes st.half else m) s.mem

/-- The memory of a cluster as a hart sees it. -/
def clusterFor (s : State) (h : HartId) (k : Nat) : Mem :=
  (s.hart h).stores.foldl (fun m st => if st.cluster == some k then m.storeBoth st.bytes st.half else m) (s.cluster k).mem

/-- Issue a store (R297): it stays with its hart until it drains. -/
def issueStore (s : State) (st : Store) : State := s.modMe fun h => { h with stores := h.stores ++ [st] }

/-! ### Deques and the pending count (R104, R107) -/

end State

/-- Descriptors of a partition in a list of work. -/
def pendingIn (p : Nat) (l : List Work) : Nat :=
  (l.filter fun w => match w with | .desc d => d.part == p | .replay _ _ _ => false).length

/-- A push at the new end; a full deque first spills its 16 oldest (R107). Lists are oldest first. -/
def pushWork (deque spill : List Work) (w : Work) : List Work × List Work :=
  if 64 ≤ deque.length then (deque.drop 16 ++ [w], spill ++ deque.take 16) else (deque ++ [w], spill)

namespace State

/-- The pending count: descriptors in deques, spill areas, held mailbox slots and gang queues (R104), and the armed
continuations, which R114 counts in it. -/
def pending (s : State) (p : Nat) : Nat :=
  (s.cores.map fun e => pendingIn p e.2.dequeN + pendingIn p e.2.dequeU + pendingIn p e.2.spillN
      + pendingIn p e.2.spillU).sum
    + ((s.partition p).mailboxes.filter fun e => e.2.state == .held).length
    + (s.clusters.map fun e => ((e.2.gangs.map (·.members)).flatten.filter (·.part == p)).length).sum
    + (s.partition p).joins.length

/-- Push work onto a core's deque of its class (R107). -/
def push (s : State) (c : Nat) (urgent : Bool) (w : Work) : State :=
  let k := s.core c
  if urgent then
    let q := pushWork k.dequeU k.spillU w
    s.setCore c { k with dequeU := q.1, spillU := q.2 }
  else
    let q := pushWork k.dequeN k.spillN w
    s.setCore c { k with dequeN := q.1, spillN := q.2 }

def launch (s : State) (p l : Nat) : Option Launch := (s.partition p).launches.find l
def modLaunch (s : State) (p l : Nat) (f : Launch → Launch) : State :=
  match s.launch p l with
  | some x => s.setPartition p { s.partition p with launches := (s.partition p).launches.set l (f x) }
  | none => s
/-- Births of a launch (R118). -/
def birth (s : State) (p l n : Nat) : State := s.modLaunch p l fun x => { x with born := x.born + n }
/-- One dropped message (R101). -/
def drop (s : State) (p : Nat) : State := s.setPartition p { s.partition p with drops := (s.partition p).drops + 1 }

end State

/-! ### Mailboxes (R91 to R101) -/

/-- The checksum of a slot (R93). -/
def checksum (q : Nat) (body : List Byte) : Nat :=
  (q + ((List.range 14).map fun i => (2 * i + 1) * leNat ((body.drop (4 * i)).take 4)).sum) % 2 ^ 32

/-- The 64 bytes of a message with the stamp of a sequence (R93). -/
def stamped (q : Nat) (body : List Byte) : List Byte :=
  let b := (body ++ List.replicate 56 0).take 56
  b ++ leBytes 4 q ++ leBytes 4 (checksum q b)

/-- Eight little-endian words of 64 bytes (R15). -/
def payloadOf (b : List Byte) : Vector Word 8 :=
  Vector.ofFn fun i => BitVec.ofNat 64 (leNat ((b.drop (8 * i.val)).take 8))

namespace Mailbox

def depth (m : Mailbox) : Nat := 2 ^ m.logDepth
/-- The 64 bytes of a slot as they stand. -/
def slotBytes (m : Mailbox) (i : Nat) : List Byte := m.bytes.bytes (64 * i) 64
/-- The slot of E holds E and a correct checksum (R95). -/
def valid (m : Mailbox) : Bool :=
  let b := m.slotBytes m.slot
  leNat ((b.drop 56).take 4) == m.expect && leNat (b.drop 60) == checksum m.expect b
/-- E and P after a trigger (R94), with the slot's announced mark and the failure count cleared (R97). -/
def next (m : Mailbox) : Mailbox :=
  { m with expect := if m.expect = 0xFFFFFFFF then 1 else m.expect + 1, slot := (m.slot + 1) % m.depth, fails := 0,
           announced := m.announced.erase m.slot, filled := m.filled.erase m.slot }
/-- How far a non-zero sequence is ahead of E (R94). -/
def ahead (m : Mailbox) (q : Nat) : Nat := (q + (2 ^ 32 - 1) - m.expect) % (2 ^ 32 - 1)
/-- The sequence that is n ahead of E (R94). -/
def sequence (m : Mailbox) (n : Nat) : Nat := (m.expect - 1 + n) % (2 ^ 32 - 1) + 1

end Mailbox

/-- The handle of a mailbox (R91). -/
def handleOf (node gen index : Nat) : Word := BitVec.ofNat 64 (node * 2 ^ 48 + gen * 2 ^ 32 + index)

/-- The live launch ids keep clear of each other: the next one not in use (R90). -/
def freshLaunch (used : List Nat) : Nat → Nat → Nat
  | n, 0 => if n = 0 then 1 else n
  | n, k + 1 => if n = 0 || used.contains n then freshLaunch used ((n + 1) % 2 ^ 32) k else n

namespace State

def mailbox (s : State) (p i : Nat) : Mailbox := (s.partition p).mailboxes.get i {}
def setMailbox (s : State) (p i : Nat) (m : Mailbox) : State :=
  s.setPartition p { s.partition p with mailboxes := (s.partition p).mailboxes.set i m }

/-- A live core for work of a core: itself, or another of its row, or of its cluster (R122). -/
def liveCore (s : State) (c : Nat) : Nat :=
  if !(s.core c).quarantined then c
  else (((List.range 8).map (c / 8 * 8 + ·) ++ (List.range 32).map (c / 32 * 32 + ·)).find?
    fun j => !(s.core j).quarantined).getD c

/-- A validated slot becomes the first task of a new launch (R89, R90, R96). -/
def trigger (s : State) (p i : Nat) (m : Mailbox) (b : List Byte) : State :=
  let q := s.partition p
  let id := freshLaunch (q.launches.map (·.1)) q.nextLaunch (q.launches.length + 2)
  let l : Launch := { id, origin := handleOf s.node m.gen i, doneMbx := m.doneMbx, faultMbx := m.faultMbx }
  let q := { q with launches := q.launches.set id l, nextLaunch := (id + 1) % 2 ^ 32, mailboxes := q.mailboxes.set i m.next }
  let d : Descriptor := { payload := payloadOf b, entry := m.entry, launch := id, glade := m.glade, urgent := m.urgent
                          origin := m.home, object := m.object, asid := m.asid, part := p }
  (s.setPartition p q).push (s.liveCore m.home) m.urgent (.desc d)

/-- Validate the slot of E, and the slots E then reaches (R95, R96, R97, R99). -/
def validate (p i : Nat) : Nat → State → State
  | 0, s => s
  | n + 1, s =>
    let m := s.mailbox p i
    if m.state != .armed || (s.partition p).preempt != .running then s
    else if m.valid then
      if (s.partition p).quota ≤ s.pending p then
        let s := s.setMailbox p i { m with state := .held, latched := some (m.slotBytes m.slot) }
        s.setPartition p { s.partition p with heldOrder := (s.partition p).heldOrder ++ [i] }
      else validate p i n (s.trigger p i m (m.slotBytes m.slot))
    else if m.announced.contains m.slot then
      if 63 ≤ m.fails then s.setMailbox p i { m with fails := 64, state := .faulted, owes := true }
      else s.setMailbox p i { m with fails := m.fails + 1 }
    else s

/-- Deliver a message of a partition to a mailbox (R96, R100, R101, R120). 0 accepted, 1 ring full, 2 no such mailbox,
3 faulted, 4 window-fed, 5 on its way to another package. A held slot keeps its place among the filled ones, so that a
message takes the next free sequence. -/
def deliver (s : State) (p : Nat) (handle : Word) (body : List Byte) : State × Nat :=
  let h := handle.toNat
  let node := bits h 48 10
  let i := bits h 0 12
  let m := s.mailbox p i
  if bits h 58 6 ≠ 0 || bits h 12 20 ≠ 0 || bits h 32 16 = 0 || !s.present.contains node then (s, 2)
  else if node ≠ s.node then ({ s with sent := s.sent ++ [(node, .message p handle body)] }, 5)
  else if m.gen ≠ bits h 32 16 || m.state == .unbound then (s, 2)
  else if m.state == .faulted then (s, 3)
  else if !m.messageFed then (s, 4)
  else
    let n := m.filled.length
    if m.depth ≤ n then (s, 1)
    else
      let slot := (m.slot + n) % m.depth
      let m := { m with filled := m.filled ++ [slot], bytes := m.bytes.storeBytes (64 * slot) (stamped (m.sequence n) body) }
      (validate p i 256 (s.setMailbox p i m), 0)

/-- Deliver a message that is dropped when the mailbox does not take it (R101): a drop counts, whatever the mailbox refuses it for
(log entry 79); one to another package is counted when its answer comes. -/
def deliverOrDrop (s : State) (p : Nat) (handle : Word) (body : List Byte) : State :=
  if handle = 0 then s
  else match s.deliver p handle body with
    | (s, 0) | (s, 5) => s
    | (s, _) => s.drop p

/-- The message of a faulted mailbox without its stamp (R100). -/
def faultBody (handle : Word) (m : Mailbox) : List Byte :=
  leBytes 8 handle.toNat ++ leBytes 4 m.expect ++ (m.slotBytes m.slot).drop 56 ++ List.replicate 36 0

/-- A faulted mailbox sends the message that it owes (R100). -/
def sendFault (s : State) (p i : Nat) : State :=
  let m := s.mailbox p i
  if m.state != .faulted || !m.owes then s
  else (s.setMailbox p i { m with owes := false }).deliverOrDrop p m.faultMbx (faultBody (handleOf s.node m.gen i) m)

/-! ### The completion tree (R118, R119, R347, R348) -/

end State

/-- The completion message without its stamp (R119). -/
def completionBody (l : Launch) : List Byte :=
  leBytes 4 l.id ++ [if l.integrity then 2 else if l.trapped ≠ 0 then 1 else 0, 0, 0, 0] ++ leBytes 8 l.normal
    ++ leBytes 8 l.trapped ++ leBytes 8 l.discarded ++ leBytes 8 l.origin.toNat ++ leBytes 8 l.first.toNat

namespace State

/-- A launch is over: its id is free (R118). -/
def launchGone (s : State) (p l : Nat) : State :=
  s.setPartition p { s.partition p with launches := (s.partition p).launches.erase l }

/-- What a launch's completion message came to (R118): accepted, held while the ring is full, on its way, or dropped. -/
def launchAnswered (s : State) (p l answer : Nat) : State :=
  match answer with
  | 0 => s.launchGone p l
  | 1 => s.modLaunch p l fun x => { x with away := false }
  | 5 => s.modLaunch p l fun x => { x with away := true }
  | _ => (s.launchGone p l).drop p

/-- Send the completion message of a launch whose count is final; while the mailbox is full it is held (R118). -/
def completeLaunch (s : State) (p l : Nat) : State :=
  match s.launch p l with
  | none => s
  | some x =>
    if x.normal + x.trapped + x.discarded ≠ x.born || x.commands ≠ 0 || x.away then s
    else if x.doneMbx = 0 then s.launchGone p l
    else
      let r := s.deliver p x.doneMbx (completionBody x)
      r.1.launchAnswered p l r.2

/-- One command of a launch is over (R348). -/
def commandOver (s : State) (p l n : Nat) : State :=
  (s.modLaunch p l fun x => { x with commands := x.commands - n }).completeLaunch p l

/-- Count a task's end (R118), with the FIRSTTRAP word of a trapped one (R322). -/
def countEnd (s : State) (p l : Nat) (kind : EndKind) (first : Word) (integrity : Bool) : State :=
  (s.modLaunch p l fun x => match kind with
    | .normal => { x with normal := x.normal + 1 }
    | .trapped => { x with trapped := x.trapped + 1, first := if x.first = 0 then first else x.first,
                           integrity := x.integrity || integrity }
    | .discarded => { x with discarded := x.discarded + 1, integrity := x.integrity || integrity }).completeLaunch p l

/-- A task is over: its end is counted, after its counter's decrement if it has a counter (R115, R347). -/
def taskOver (s : State) (d : Descriptor) (kind : EndKind) (core slot : Nat) (first : Word) (integrity : Bool)
    (regionpc pc insn : Word) : State :=
  if d.counter = 0 then s.countEnd d.part d.launch kind first integrity
  else
    let q := s.partition d.part
    let x : Decrement :=
      { id := q.nextId, desc := d, kind, cluster := core / 32, core, slot, first, integrity, regionpc, pc, insn }
    s.setPartition d.part { q with nextId := q.nextId + 1, decrements := q.decrements ++ [x] }

end State

/-! ### Trap reports (R318, R321, R322) -/

/-- The code of a trap class (R318). -/
def TrapClass.code : TrapClass → Nat
  | .illegal => 1 | .privilege => 2 | .alignment => 3 | .viewFormat => 4 | .pageFault => 5 | .protection => 6
  | .poison => 7 | .signature => 8 | .watchdog => 9 | .gang => 10 | .integrity => 11 | .software => 12
  | .inlineOverflow => 13

/-- An address lies in the pages of an object's image. -/
def Object.holds (o : Object) (asid : Nat) (va : Word) : Bool :=
  o.asid == asid && o.base.toNat ≤ va.toNat && va.toNat < o.base.toNat + (o.words * 8 + 65535) / 65536 * 65536

namespace State

/-- The object of the faulting word (R321): the one of the partition whose image holds it, else the descriptor's (log entry 80). -/
def faultObject (s : State) (d : Descriptor) (pc : Word) : Word :=
  (((s.partition d.part).objects.find? fun e => e.2.holds d.asid pc).map (·.1)).getD d.object

/-- The image word index of an address (R62, R321): from word 0 of the object's image. -/
def wordIndex (s : State) (p : Nat) (object addr : Word) : Nat :=
  match (s.partition p).objects.find object with
  | some o => (addr - o.base).toNat / 8 % 2 ^ 32
  | none => 0

/-- The trap report without its stamp (R321). -/
def report (s : State) (d : Descriptor) (core slot : Nat) (pc insn : Word) (t : Trap) : List Byte :=
  let o := s.faultObject d pc
  leBytes 4 d.launch ++ [BitVec.ofNat 8 t.cls.code, BitVec.ofNat 8 slot] ++ leBytes 2 (s.logicalCore d.part core)
    ++ leBytes 8 o.toNat ++ leBytes 4 (s.wordIndex d.part o pc) ++ leBytes 4 t.detail.toNat
    ++ leBytes 8 t.addr.toNat ++ leBytes 8 t.value.toNat
    ++ leBytes 8 (if t.cls == .integrity then 0 else insn.toNat)

/-- The FIRSTTRAP word (R322). -/
def firstTrap (s : State) (d : Descriptor) (pc : Word) (t : Trap) : Word :=
  BitVec.ofNat 64 (t.cls.code * 2 ^ 56 + s.wordIndex d.part (s.faultObject d pc) pc)

/-- The fault mailbox of a launch (R92, R321). -/
def faultMbx (s : State) (d : Descriptor) : Word := ((s.launch d.part d.launch).map (·.faultMbx)).getD 0

end State

/-! ### What a task holds outside its registers -/

/-- The instruction of a pending result has completed (R130). -/
def Pending.complete (p : Pending) (now : Nat) : Bool := match p.doneAt with | some t => t ≤ now | none => false

/-- A matrix instruction of a task has not completed, wherever its slice is (R278). -/
def Hart.working (h : Hart) (now : Nat) : Bool := h.pend.any fun p => p.job ≠ 0 && !p.complete now

/-- A matrix instruction of a slot waits in the slice or has not completed (R278). -/
def Core.working (k : Core) (now slot : Nat) : Bool :=
  k.jobs.any (·.slot == slot) || (k.slice.toList ++ k.mmgs).any fun r => r.slot == slot && now < r.doneAt

/-- Free the tiles a slot holds (R270). -/
def Core.freeTiles (k : Core) (slot : Nat) : Core :=
  { k with tiles := k.tiles.map fun t => if t.holder == some slot then { t with holder := none } else t,
           claims := k.claims.filter (·.1 ≠ slot) }

/-- A slot holds some tile. -/
def Core.holds (k : Core) (slot : Nat) : Bool := k.tiles.toList.any (·.holder == some slot)

/-- A holder of an S region leaves it (R231): a freeing region without holders is gone. -/
def Core.leaveRegions (k : Core) (h : HartId) : Core :=
  let rs := k.sregions.map fun r => { r with holders := r.holders.filter (· ≠ h) }
  { k with sregions := rs.filter fun r => !(r.freeing && r.holders.isEmpty) }

/-- A region begins at the hart's pc (R137): `regionpc`, the checkpoint, and what is no longer of the current region. What
ended the last one has performed its access, and its result may still be outstanding (R140). -/
def Hart.enterRegion (h : Hart) : Hart :=
  let pend := h.pend.map fun (p : Pending) => { p with performed := false }
  { h with boundary := false, regionpc := h.pc, checkpoint := h.regs, checkWd := h.wd, pend, checkPend := pend
           checkBlock := h.block, stores := h.stores.map fun st => { st with fresh := false }
           queue := h.queue.map fun c => { c with fresh := false } }

/-- The instruction at issue has performed its access and waits (R278, R280, R314): a region begins at it, with the windows as
they were before it. -/
def Hart.arrive (h : Hart) : Hart :=
  let h := h.enterRegion
  { h with checkPend := h.checkPend.map fun (p : Pending) => { p with left := p.left + 1 } }

/-- A hart whose last region has ended is at the start of the next one. -/
def Hart.inRegion (h : Hart) : Hart := if h.boundary then h.enterRegion else h

/-- The stores that a task leaves behind: those of regions that are over (R320, R323). -/
def Hart.olderStores (h : Hart) : List Store := h.inRegion.stores.filter fun st => !st.fresh

/-- The task of a hart has used up its watchdog count (R143). -/
def Hart.watchdogDue (h : Hart) : Bool := match h.task with | some t => t.wdlimit ≤ h.wd | none => false

/-- Resolve the open episode of a gang with a status for every member that has arrived (R280). -/
def Gang.resolve (g : Gang) (status : Nat) : Gang :=
  { g with arrived := [], episode := g.episode + 1,
           results := g.results ++ g.arrived.map fun a => { member := a.member, status } }

/-- A member ends (R280): an open episode fails with status 2, and the gang is broken. -/
def Gang.memberEnds (g : Gang) (m : Nat) : Gang :=
  { (if g.arrived.isEmpty then g else g.resolve 2) with broken := true, ended := g.ended ++ [m] }

namespace State

/-- Drop the live-view entries of a hart and its holds on S regions (R228, R231). -/
def dropViews (s : State) (h : HartId) : State :=
  let k := s.cluster (hartCluster h)
  let s := s.setCluster (hartCluster h) { k with directory := k.directory.filter (·.1 ≠ h) }
  s.setCore (hartCore h) ((s.core (hartCore h)).leaveRegions h)

/-- A hart no longer waits in its cluster's miss queue. -/
def unstall (s : State) (id : HartId) : State :=
  let k := s.cluster (hartCluster id)
  if k.misses.all (fun e => !e.stalled.contains (.hart id)) && k.overflow.all (fun e => e.who != .hart id)
      && k.misses.all (fun e => !e.kept.contains id) then s
  else s.setCluster (hartCluster id) { k with
    misses := k.misses.map fun e => { e with stalled := e.stalled.filter (· != .hart id), kept := e.kept.filter (· != id) }
    overflow := k.overflow.filter fun e => e.who != .hart id }

/-- A gang member of a task ends (R280); a gang without live members is gone. -/
def leaveGang (s : State) (t : Task) : State :=
  match t.gang with
  | none => s
  | some i =>
    match s.gangs.find i with
    | none => s
    | some g =>
      let g := g.memberEnds t.desc.lo
      if 8 ≤ g.ended.length then { s with gangs := s.gangs.erase i } else { s with gangs := s.gangs.set i g }

/-! ### Ending a task by a trap (R320) -/

/-- R320 for a task whose hart is given: discard the region's stores and all commands, drop views, streams and tiles,
make the release, send the report, count. A task that is `own`ed by its slot leaves what it holds there; the slot itself is
freed by the caller. A record has no slot. -/
def endTrapped (s : State) (id : HartId) (h : Hart) (task : Task) (t : Trap) (own : Bool) : State :=
  let d := task.desc
  let core := hartCore id
  let s := s.leaveStores h.olderStores
  let s := if own then (s.dropViews id).unstall id else s
  let s := if own then s.setCore core ((s.core core).freeTiles (hartSlot id)) else s
  let s := s.modLaunch d.part d.launch fun x => { x with commands := x.commands - h.queue.length }
  let s := s.leaveGang task
  let s := s.deliverOrDrop d.part (s.faultMbx d) (s.report d core (hartSlot id) h.pc h.insn t)
  s.taskOver d .trapped core (hartSlot id) (s.firstTrap d h.pc t) (t.cls == .integrity) h.regionpc h.pc h.insn

/-- A message for the service queue of a system core (R340); while the queue is full its sender waits (R400). -/
def serve (s : State) (die core : Nat) (msg : List Byte) : State :=
  if 4096 ≤ (s.hart (.sys die core)).inbox.length then s.await (.serviceMessageArrival die core msg)
  else
    let s := if core ≠ 0 then { s with messages := s.messages + 1 } else s
    s.modHart (.sys die core) fun h => { h with inbox := h.inbox ++ [msg] }

/-- A trap at service or system level stops the core and is reported to system core 0 of its die (R341). -/
def stopHart (s : State) (id : HartId) (t : Trap) : State :=
  let h := s.hart id
  (s.setHart id { h with running := false, word := none, wait := none }).serve (hartDie id) 0
    (s.report {} (hartCore id) (hartSlot id) h.pc h.insn t)

/-- What the release of a task that ends comes after is over (R320): the matrix work of its slot (R278, log entry 27), and the sleep of
the die-cache banks that its stores pass through (R350). -/
def mayLeave (s : State) (id : HartId) : Bool :=
  !(s.core (hartCore id)).working s.now (hartSlot id) && !(s.hart id).working s.now && (s.hart id).olderStores.all s.awakeFor

/-- A task owes a trap: the region's stores are gone, and the rest follows once what its release comes after is over. -/
def owe (s : State) (id : HartId) (t : Trap) : State :=
  (s.wakeFor (s.hart id).olderStores).modHart id fun h =>
    { h with verdict := some t, wait := some .slice, stores := h.olderStores }

/-- Take a trap at a hart: a task ends (R320) and its slot is free, at once or when its release can be made; a TSC or system core stops
(R341). -/
def trapAt (s : State) (id : HartId) (t : Trap) : State :=
  match (s.hart id).task with
  | some task => if s.mayLeave id then (s.endTrapped id (s.hart id) task t true).setHart id {} else s.owe id t
  | none => if isSlot id then s.setHart id {} else s.stopHart id t

/-- The trap that ends a task waiting on a terminated entry (R222, R321): its own class and address, and the TSC's
status. -/
def endTrap (h : Hart) (status : Word) : Trap :=
  let t := (h.fault.map (·.trap)).getD { cls := .pageFault }
  { t with detail := status.setWidth 32 }

/-- The task's word at the fault, for its report. -/
def atFault (h : Hart) : Hart := match h.fault with | some m => { h with pc := m.pc, insn := m.insn } | none => h

/-- Take the trap that a hart owes, if it owes one (R320, R334). -/
def takeVerdict (s : State) (id : HartId) : State :=
  match (s.hart id).verdict with
  | some t => s.trapAt id t
  | none => s

/-- Take a trap at the executing instruction: the one exception entry of the machine. -/
def trap (s : State) (t : Trap) : State := s.trapAt s.cur t

/-- Take a trap of a class with nothing more to report. -/
def raise (s : State) (c : TrapClass) : State := s.trap { cls := c }

/-- Take a trap of a class at an address. -/
def raiseAt (s : State) (c : TrapClass) (a : Word) : State := s.trap { cls := c, addr := a }

end State

/-- A check: the trap is taken when it fails. -/
def check (b : Bool) (c : TrapClass) (s : State) : Res Unit := if b then .ok () s else .stop (s.raise c)

/-- A check on an address. -/
def checkAt (b : Bool) (c : TrapClass) (a : Word) (s : State) : Res Unit := if b then .ok () s else .stop (s.raiseAt c a)

/-- The scheduling registers of a core after an issue from a slot (R126). -/
def Core.issued (k : Core) (slot : Nat) : Core :=
  if slot = 3 then k
  else if slot = k.cur then { k with run := if k.run = 256 then 1 else k.run + 1 }
  else { k with cur := slot, run := 1 }

/-! ### Region abort, parking and replay (R141, R323 to R326) -/

/-- A region abort (R323): registers back to the checkpoint, the region's stores and held commands discarded, kicked
commands stopped with their remainder queued, streams to refill. What a hart has done since its last region ended is not of
a region that can abort. A barrier, a `send` or a gang that has been reached stays so. -/
def Hart.abort (h : Hart) (keep : Bool) : Hart :=
  let h := h.inRegion
  { h with regs := { h.checkpoint with streams := h.checkpoint.streams.map fun b => b.map fun x => { x with entries := [] }
                                       rep := h.checkpoint.rep.map fun r => { r with words := [] } },
           pc := h.regionpc, pend := h.checkPend, unres := [], stores := h.stores.filter fun st => !st.fresh,
           queue := (h.queue.filter fun c => match c.state with | .held _ => !c.fresh | _ => true).map
             fun c => match c.state with | .kicked => { c with state := .queued } | _ => c,
           wd := if keep then h.wd else h.checkWd, wait := none, word := none, block := h.checkBlock }

/-- A change of the hart of the record that work holds. -/
def Work.mapHart (f : Hart → Hart) : Work → Work
  | .desc d => .desc d
  | .replay h o x => .replay (f h) o x
/-- A change of the records in a core's deques and spill areas. -/
def Core.mapHarts (f : Hart → Hart) (k : Core) : Core :=
  { k with dequeN := k.dequeN.map (·.mapHart f), dequeU := k.dequeU.map (·.mapHart f)
           spillN := k.spillN.map (·.mapHart f), spillU := k.spillU.map (·.mapHart f) }
/-- A change of the records that wait in a cluster's miss queue. -/
def Cluster.mapHarts (f : Hart → Hart) (k : Cluster) : Cluster :=
  { k with misses := k.misses.map fun e => { e with records := e.records.map fun r => (f r.1, r.2) } }
def Partition.mapHarts (f : Hart → Hart) (q : Partition) : Partition := { q with ready := q.ready.map (·.mapHart f) }
def Save.mapHarts (f : Hart → Hart) (v : Save) : Save :=
  { v with partition := v.partition.mapHarts f, cores := v.cores.map (·.mapHarts f), clusters := v.clusters.map (·.mapHarts f)
           harts := v.harts.map fun e => (e.1, e.2.1, f e.2.2) }

/-- A change of every task wherever it stands: in a slot, in a record, in a save. -/
def State.mapHarts (s : State) (f : Hart → Hart) : State :=
  { s with
    harts := s.harts.update fun _ h => f h, cores := s.cores.update fun _ k => k.mapHarts f
    clusters := s.clusters.update fun _ k => k.mapHarts f, partitions := s.partitions.update fun _ q => q.mapHarts f
    saves := s.saves.map (·.mapHarts f) }

/-- The held commands that a region abort discards. -/
def Hart.discards (h : Hart) : Nat :=
  (h.inRegion.queue.filter fun c => match c.state with | .held _ => c.fresh | _ => false).length

namespace State

/-- A task keeps its slot through a park when it holds tiles or is a gang member (R279, R323). -/
def keepsSlot (s : State) (id : HartId) : Bool :=
  (s.core (hartCore id)).holds (hartSlot id) || (((s.hart id).task.getD {}).gang).isSome

/-- The region of a hart aborts (R141): drops its view entries, and its older stores drain. -/
def abortAt (s : State) (id : HartId) : State :=
  let h := s.hart id
  let keep := s.keepsSlot id
  let s := match h.task with
    | some t => s.commandOver t.desc.part t.desc.launch h.discards
    | none => s
  let s := ((s.dropViews id).unstall id).setHart id (h.abort keep)
  let k := s.core (hartCore id)
  let s := s.setCore (hartCore id) { k with claims := k.claims.filter (·.1 ≠ hartSlot id) }
  (s.leaveStores (s.hart id).stores).modHart id fun x => { x with stores := [] }

/-- A task may leave its slot: its stores of earlier regions find the die-cache banks on their way awake (R350). -/
def mayPark (s : State) (id : HartId) : Bool := (s.hart id).olderStores.all s.awakeFor

/-- The executing task parks, or waits for the banks that its stores pass through, which it wakes. -/
def parking (s : State) (k : State → State) : State :=
  if s.mayPark s.cur then k s else (s.wakeFor s.me.olderStores).stall .bank

/-- Park a task on a fault-queue entry of its cluster (R323, R326): in its slot when it keeps it, else in its record. -/
def parkOn (s : State) (id : HartId) (seq : Nat) : State :=
  let keep := s.keepsSlot id
  let s := s.abortAt id
  let k := s.cluster (hartCluster id)
  let h := s.hart id
  let add (e : MissEntry) : MissEntry :=
    if e.seq ≠ seq then e
    else if keep then { e with kept := e.kept ++ [id] } else { e with records := e.records ++ [(h, id)] }
  let s := s.setCluster (hartCluster id) { k with misses := k.misses.map add }
  if keep then s.setHart id { h with parked := some seq } else s.setHart id {}

/-- Enter a checkpoint's open views again (R228, R323): opened while the directory has room, wide after; a hold on an S
region that is there is taken again, and a view keeps its BASE whether or not it is (log entry 81). -/
def enterViews (s : State) (id : HartId) : State :=
  (List.finRange 16).foldl (fun s i =>
    let v := (s.hart id).regs.w[i]
    if v.state != .opened && v.state != .wide then s
    else
      let k := s.cluster (hartCluster id)
      let room := k.directory.length < 64
      let s := if room then s.setCluster (hartCluster id) { k with directory := k.directory ++ [(id, i.val)] } else s
      let c := s.core (hartCore id)
      let s := match v.sreg with
        | none => s
        | some (name, _) => s.setCore (hartCore id) { c with sregions := c.sregions.map fun (r : SRegion) =>
                                                             if r.name = name then { r with holders := r.holders ++ [id] } else r }
      s.modHart id (·.modRegs fun r => { r with w := r.w.set i { v with state := if room then .opened else .wide } })) s

/-- A record that is ready for replay is pushed on a core (R326); while its partition is pre-empted none is (R327). -/
def pushRecord (s : State) (h : Hart) (core : Nat) (fixed : Bool) : State :=
  let d := (h.task.getD {}).desc
  let q := s.partition d.part
  if q.preempt == .running then s.push core d.urgent (.replay h core fixed)
  else s.setPartition d.part { q with ready := q.ready ++ [.replay h core fixed] }

/-- A parked task is ready (R326): one that kept its slot goes on in it, once its partition runs (R329), a record is pushed on its
core. -/
def readyKept (s : State) (id : HartId) : State :=
  let p := ((s.hart id).task.getD {}).desc.part
  match (s.partition p).preempt with
  | .running | .stopping => (s.modHart id fun h => { h with parked := none, fault := none }).enterViews id
  | _ => s.modHart id fun h => { h with parked := some 0 }
def readyRecord (s : State) (h : Hart) (id : HartId) : State :=
  s.pushRecord h (s.liveCore (hartCore id)) false

/-- A fault-queue image (R342), its sequence number given. -/
def missImage (engine : Bool) (core slot launch : Nat) (region : Word) (seq asid kind : Nat) (va : Word) : BitVec 256 :=
  BitVec.ofNat 256 (va.toNat + region.toNat * 2 ^ 64
    + ((if engine then 1 else 0) + core % 32 * 2 ^ 8 + slot * 2 ^ 16 + kind * 2 ^ 20 + asid * 2 ^ 24 + seq * 2 ^ 32) * 2 ^ 128
    + launch * 2 ^ 192)

/-- The fault-queue image of a task, or of a command of a task (R342). -/
def faultImage (s : State) (id : HartId) (engine : Option Command) (seq asid kind : Nat) (va : Word) : BitVec 256 :=
  match engine with
  | some c => missImage true c.core c.slot c.launch 0 seq asid kind va
  | none => missImage false (hartCore id) (hartSlot id) ((s.hart id).task.getD {}).desc.launch (s.hart id).regionpc seq asid kind va

end State

/-- The number after a number of the miss queue (R343). -/
def nextNumber (n : Nat) : Nat := if n + 1 = 2 ^ 32 then 1 else n + 1

/-- The live entries of a cluster's miss queue: a restored one is not live before it waits there (R329). -/
def Cluster.live (c : Cluster) : Nat := (c.misses.filter (!·.restored)).length

/-- An entry of the miss queue under another number (R342). -/
def MissEntry.numbered (e : MissEntry) (n : Nat) : MissEntry :=
  { e with seq := n, restored := false
           image := e.image &&& ~~~(BitVec.ofNat 256 ((2 ^ 32 - 1) * 2 ^ 160)) ||| BitVec.ofNat 256 (n * 2 ^ 160) }

namespace State

/-- A restored entry waits in the queue of its cluster, behind those there and under the next number (R329, R343); the tasks that kept
their slots wait on it. -/
def giveMiss (s : State) (k seq : Nat) : State :=
  let c := s.cluster k
  match c.misses.find? fun e => e.seq == seq && e.restored with
  | none => s
  | some e =>
    let e := e.numbered c.nextSeq
    let s := s.setCluster k { c with misses := c.misses.filter (·.seq ≠ seq) ++ [e], nextSeq := nextNumber c.nextSeq }
    e.kept.foldl (fun s id => s.modHart id fun h => { h with parked := some e.seq }) s

/-- Make an entry live in a cluster's miss queue, or wait outside a full one, behind those that wait already (R222,
R223, R343). The image is given without its number. -/
def admitMiss (s : State) (k : Nat) (r : Requester) (asid page : Nat) (image : BitVec 256) : State :=
  let c := s.cluster k
  let mine (x : MissWait) : Bool := x.who == r && x.asid == asid && x.page == page
  if 256 ≤ c.live || (match c.overflow with | x :: _ => !mine x | [] => false) then
    if c.overflow.any mine then s else s.setCluster k { c with overflow := c.overflow ++ [{ who := r, asid, page, image }] }
  else
    let e : MissEntry := { seq := c.nextSeq, asid, page, image := image ||| BitVec.ofNat 256 (c.nextSeq * 2 ^ 160), stalled := [r] }
    s.setCluster k { c with misses := c.misses ++ [e], nextSeq := nextNumber c.nextSeq
                            overflow := c.overflow.filter fun x => !mine x }

/-- The entry of a key (R222). -/
def missEntry (s : State) (k asid page : Nat) : Option MissEntry :=
  (s.cluster k).misses.find? fun e => e.asid == asid && e.page == page

/-- A requester joins a live entry that stalls (R222); a restored one waits in the queue from then on. -/
def joinMiss (s : State) (k : Nat) (seq : Nat) (r : Requester) : State :=
  let c := s.cluster k
  let s := s.setCluster k { c with overflow := c.overflow.filter (·.who ≠ r), misses := c.misses.map fun e =>
                                   if e.seq = seq && !e.stalled.contains r then { e with stalled := e.stalled ++ [r] } else e }
  s.giveMiss k seq

/-- The executing task notes the fault that it waits on. -/
def markFault (s : State) (c : TrapClass) (va : Word) : State :=
  s.modMe fun h => { h with fault := some { trap := { cls := c, addr := va }, pc := h.pc, insn := h.insn } }

/-- A task's miss (R222): it stalls on a pending entry, and parks on a parked one. A miss of firmware has no queue to
wait in and is a page fault (log entry 12). -/
def taskMiss (s : State) (asid kind : Nat) (va : Word) : State :=
  let id := s.cur
  let page := bits va.toNat 16 41
  if !isSlot id then s.raiseAt .pageFault va
  else
    let s := s.markFault .pageFault va
    match s.missEntry (hartCluster id) asid page with
    | some e => if e.parked then s.parking (·.parkOn id e.seq) else (s.joinMiss (hartCluster id) e.seq (.hart id)).stall .miss
    | none => (s.admitMiss (hartCluster id) (.hart id) asid page (s.faultImage id none 0 asid kind va)).stall .miss

/-- Poison consumed in a global word (R326): the task parks on the entry of its key, made live if there is none; when the
queue is full it waits for an entry. -/
def poisonGlobal (s : State) (va : Word) : State :=
  let id := s.cur
  let page := bits va.toNat 16 41
  let asid := s.asidOf id
  if !isSlot id then s.raiseAt .poison va
  else s.parking fun s =>
    let s := s.markFault .poison va
    match s.missEntry (hartCluster id) asid page with
    | some e => s.parkOn id e.seq
    | none =>
      let seq := (s.cluster (hartCluster id)).nextSeq
      let t := s.admitMiss (hartCluster id) (.hart id) asid page (s.faultImage id none 0 asid 6 va)
      if (s.cluster (hartCluster id)).misses.length < (t.cluster (hartCluster id)).misses.length then
        let k := t.cluster (hartCluster id)
        (t.setCluster (hartCluster id) { k with misses := k.misses.map fun e =>
                                                if e.seq = seq then { e with stalled := [] } else e }).parkOn id seq
      else t.stall .miss

/-- Poison consumed in a typed buffer or cluster memory ends the task (R326, R321). -/
def poisonLocal (s : State) (space : BitVec 3) (off : Nat) : State :=
  s.trap { cls := .poison, detail := BitVec.ofNat 32 (2 ^ 30 + space.toNat), addr := BitVec.ofNat 64 (off / 8 * 8) }

end State

end Sys2Proof.Machine
end

