-- ==== Sys2Proof/Machine/Translate.lean ====
section
/-! DEFINITION. Translation (09 R215 to R222), the error log (17 R354 to R357), and the accesses to global memory,
cluster memory and typed buffers that instructions are made of. -/

namespace Sys2Proof.Machine

open Sys2Proof

/-! ### TLB entries -/

namespace TlbEntry

def asid (e : TlbEntry) : Nat := bits e.word1.toNat 53 8
def psize (e : TlbEntry) : Nat := bits e.word1.toNat 61 2
/-- Log2 of the page size (R215). -/
def pageBits (e : TlbEntry) : Nat := if e.psize = 0 then 16 else if e.psize = 1 then 21 else 30
def r (e : TlbEntry) : Bool := e.word1.toNat.testBit 52
def w (e : TlbEntry) : Bool := e.word1.toNat.testBit 51
def x (e : TlbEntry) : Bool := e.word1.toNat.testBit 50
/-- 0 SO, 1 RC, 2 UO. -/
def ord (e : TlbEntry) : Nat := bits e.word1.toNat 48 2
def vpn (e : TlbEntry) : Nat := bits e.word1.toNat 0 41
def key (e : TlbEntry) : Nat := bits e.word0.toNat 56 8
def sig (e : TlbEntry) : Bool := e.word0.toNat.testBit 55
def geom (e : TlbEntry) : Nat := bits e.word0.toNat 48 3
def elem (e : TlbEntry) : Nat := bits e.word0.toNat 43 5
def pfn (e : TlbEntry) : Nat := bits e.word0.toNat 0 36

/-- The entry translates an address of an address space. -/
def covers (e : TlbEntry) (asid va : Nat) : Bool :=
  e.asid == asid && bits va e.pageBits (57 - e.pageBits) == e.vpn / 2 ^ (e.pageBits - 16)
/-- The pages of two entries of one address space overlap (R335). -/
def overlaps (e f : TlbEntry) : Bool :=
  let k := max e.pageBits f.pageBits - 16
  e.asid == f.asid && e.vpn / 2 ^ k == f.vpn / 2 ^ k
/-- The physical address of a virtual one that the entry covers. -/
def physical (e : TlbEntry) (va : Nat) : Nat := e.pfn * 65536 / 2 ^ e.pageBits * 2 ^ e.pageBits + va % 2 ^ e.pageBits

end TlbEntry

/-- The permission an access needs (R220, R311). -/
inductive Need where
  | r | w | rw | x
deriving DecidableEq, Repr

def TlbEntry.allows (e : TlbEntry) : Need → Bool
  | .r => e.r
  | .w => e.w
  | .rw => e.r && e.w
  | .x => e.x

/-- Bits [63:57] equal bit 56 (R214). -/
def canonical (va : Word) : Bool := bits va.toNat 57 7 == (if va.toNat.testBit 56 then 127 else 0)

/-- A level of so many entries takes a new one; the oldest leaves a full level (log entry 13). -/
def insertEntry (cap : Nat) (l : List TlbEntry) (e : TlbEntry) : List TlbEntry × List TlbEntry :=
  let l := l.filter (· ≠ e) ++ [e]
  (l.drop (l.length - cap), l.take (l.length - cap))

namespace State

/-- The entries that the idle storage of a cluster's cores holds (R221): 16 bytes each, in S space of no region and in
lines of the instruction caches that hold nothing; at most 16,384. -/
def victimRoom (s : State) (k : Nat) : Nat :=
  min 16384 ((List.range 32).map fun i =>
    let c := s.core (k * 32 + i)
    (65536 - (c.sregions.map (·.size)).sum) / 16 + 8 * (512 - c.icache.length)).sum

/-- Storage of a cluster has been claimed (R221): the oldest borrowed entries leave until the rest fits (log entry 33). -/
def reclaim (s : State) (k : Nat) : State :=
  let c := s.cluster k
  s.setCluster k { c with victims := c.victims.drop (c.victims.length - s.victimRoom k) }

/-- Copy an entry into the cluster TLB; what it evicts goes to the victim storage (R220, R221). -/
def fillCluster (s : State) (k : Nat) (e : TlbEntry) : State :=
  let c := s.cluster k
  let q := insertEntry 2048 c.tlb e
  let v := (c.victims.filter (· ≠ e)) ++ q.2
  s.setCluster k { c with tlb := q.1, victims := v.drop (v.length - s.victimRoom k) }

/-- An entry enters the TLBs: the counters of armed continuations in its page lie where it says (R114, R115). -/
def anchorJoins (s : State) (e : TlbEntry) : State :=
  let anchor (j : Join) : Join :=
    if e.covers j.desc.asid j.counter.toNat then { j with pa := e.physical j.counter.toNat } else j
  { s with partitions := s.partitions.update fun _ q => { q with joins := q.joins.map anchor } }

/-- The resident system's or a system core's entry in the last-level TLB of a die (R335): overlapping entries there and
above are gone first. -/
def installDie (s : State) (d : Nat) (e : TlbEntry) : State :=
  let s := s.anchorJoins e
  let keep (l : List TlbEntry) : List TlbEntry := l.filter fun f => !e.overlaps f
  let s := { s with
    cores := s.cores.update fun i c => if i / 832 = d then { c with tlb := keep c.tlb } else c
    clusters := s.clusters.update fun i k =>
      if i / 26 = d then { k with tlb := keep k.tlb, victims := keep k.victims } else k }
  let x := s.die d
  s.setDie d { x with tlb := (insertEntry 8192 (keep x.tlb) e).1 }

/-- Copy an entry into a core's L1 TLB. -/
def fillCore (s : State) (c : Nat) (e : TlbEntry) : State :=
  s.setCore c { s.core c with tlb := (insertEntry 48 (s.core c).tlb e).1 }

/-- Look an address up level by level (R220): the first level with a covering entry answers, and the entry is copied
into the levels above it. -/
def lookup (s : State) (h : HartId) (asid va : Nat) : Option (TlbEntry × State) :=
  let hit (l : List TlbEntry) := l.find? (·.covers asid va)
  let up (s : State) (e : TlbEntry) : State := if isSlot h then s.fillCore (hartCore h) e else s
  let k := hartCluster h
  match h with
  | .sys d _ => (hit (s.die d).tlb).map fun e => (e, s)
  | _ =>
    match (if isSlot h then hit (s.core (hartCore h)).tlb else none) with
    | some e => some (e, s)
    | none =>
      match hit (s.cluster k).tlb with
      | some e => some (e, up s e)
      | none =>
        match hit (s.cluster k).victims with
        | some e => some (e, up (s.fillCluster k e) e)
        | none => (hit (s.die (hartDie h)).tlb).map fun e => (e, up (s.fillCluster k e) e)

/-- A physical address lies in the memory of another partition than the one given (R389). -/
def foreign (s : State) (p pa : Nat) : Bool := s.partitions.any fun e => e.1 ≠ p && e.2.frames.contains (pa / 65536)

/-- A physical address lies in the event ring or the histogram area of a die, as boot has mapped them (R356, R357). -/
def logAt (s : State) (pa : Nat) : Option (Bool × Nat × Nat) :=
  s.dies.findSome? fun e =>
    if e.2.ringFrame = some (pa / 65536) then some (true, e.1, pa % 65536)
    else e.2.histogramFrame.bind fun f => if f ≤ pa / 65536 && pa / 65536 < f + 2 then some (false, e.1, pa - f * 65536) else none

/-- A hart may reach a physical address: it lies below the limit (R373), an agent of a partition reaches no memory of
another (R12, log entry 37), and only the system level reaches the event rings and histograms (R356, R357). -/
def reaches (s : State) (h : HartId) (pa : Nat) : Bool :=
  pa < s.limit && ((s.logAt pa).isNone || s.level h == 2) && (match h with
    | .sys _ _ => true
    | _ => !s.foreign (s.partOf h) pa)

/-- Translate an access of the executing hart (R214, R220, R235, R373). -/
def translate (s : State) (va : Word) (need : Need) (kind : Nat) : Res (Nat × TlbEntry) :=
  (checkAt (canonical va) .protection va s).bind fun _ s =>
  match s.lookup s.cur (s.asidOf s.cur) va.toNat with
  | none => .stop (s.taskMiss (s.asidOf s.cur) kind va)
  | some (e, s) =>
    (checkAt (e.allows need) .protection va s).bind fun _ s =>
    (checkAt (s.reaches s.cur (e.physical va.toNat)) .protection va s).bind fun _ s => .ok (e.physical va.toNat, e) s

end State

/-! ### The event ring and the histograms (R356, R357) -/

/-- A record of the event ring (R356): 16 bytes. -/
def LogEvent.record (e : LogEvent) : List Byte :=
  leBytes 4 e.row.toNat ++ [BitVec.ofNat 8 e.event, BitVec.ofNat 8 e.bits, 0, 0] ++ leBytes 8 e.seq

/-- A die's event ring as the resident system reads it (R356): record n stands at place (SEQ - 1) mod 4,096, so that a new one
overwrites the oldest. -/
def Die.ringByte (d : Die) (a : Nat) : Byte :=
  match d.ring.find? fun e => (e.seq - 1) % 4096 == a / 16 with
  | some e => e.record.getD (a % 16) 0
  | none => 0

/-- The histogram record of a physical core (R357): sixteen lane counters, eight sub-array counters, zeros. -/
def Die.histogram (d : Die) (core : Nat) : List Byte :=
  ((List.range 24).map fun i => leBytes 4 (d.flash.get (core, i) 0)).flatten ++ List.replicate 32 0

namespace State

/-- A byte of a die's histogram area (R357): the record of core j of the die's physical cluster c is at (c × 32 + j) × 128. -/
def histogramByte (s : State) (die a : Nat) : Byte := ((s.die die).histogram (die * 832 + a / 128)).getD (a % 128) 0

/-- Memory as it reads at n bytes: in the event rings and the histogram areas, these (R356, R357). -/
def logsOver (s : State) (m : Mem) (pa n : Nat) : Mem :=
  match s.logAt pa with
  | none => m
  | some (ring, die, a) =>
    { cells := ((List.range n).map fun i => (pa + i, if ring then (s.die die).ringByte (a + i) else s.histogramByte die (a + i))).filter (·.2 != 0) }

/-! ### Global memory -/

/-- Memory as the executing hart reads some bytes through a page: under the page's key (R219), with its own stores over
it. -/
def under (s : State) (e : TlbEntry) (pa n : Nat) : Mem :=
  s.logsOver ((if s.keyed e.key pa n then s else s.rekey e.key pa n).globalFor s.cur) pa n

/-- An access waits while a die-cache bank that it passes through is not active, and else ends their idleness (R350). -/
def useDie (s : State) (pa n : Nat) : Res Unit := if s.dieAwake pa n then .ok () (s.touchDie pa n) else .stop ((s.wakeDie pa n).stall .bank)

/-- Read n bytes of global memory (R235): translation, permission, then poison. -/
def loadBytes (s : State) (va : Word) (n kind : Nat) : Res (List Byte) :=
  (s.translate va .r kind).bind fun t s =>
  (s.useDie t.1 n).bind fun _ s =>
  let s := s.meetErrors t.1 n
  let m := s.under t.2 t.1 n
  if m.bad t.1 n then .stop (s.poisonGlobal va) else .ok (m.bytes t.1 n) s

/-- Some of the places of an access lie in an SO page. -/
def soAny (l : List (Nat × TlbEntry)) : Bool := l.any fun t => t.2.ord == 0

/-- The key slots of the frames that an access goes to. -/
def keysOf (l : List (Nat × TlbEntry)) : Table Nat Nat := (l.map fun t => (t.1 / 65536, t.2.key)).eraseDups

/-- Store to some places in pages: on an SO page it takes its place in the total order at once (R303), and a release is
performed at once (R299); either waits for a unit being moved (R371) and for sleeping banks (R350). -/
def storeTo (s : State) (places : List (Nat × TlbEntry)) (bytes : List (Nat × Byte)) (half : List (Nat × Bool × Nat))
    (release : Bool) : Res Unit :=
  let t := s.issueStore { cluster := none, bytes, half, keys := keysOf places }
  if !soAny places && !release then .ok () t
  else (s.awaitStores t.me.stores).bind fun _ _ => .ok () (t.drainAll t.cur)

/-- Store bytes to global memory (R235). -/
def storeBytes (s : State) (va : Word) (l : List Byte) : Res Unit :=
  (s.translate va .w 1).bind fun t s => s.storeTo [t] (bytesAt t.1 l) [] false

/-! ### Atomics and continuations -/

/-- Push a continuation whose counter has come to 0 (R114). -/
def pushJoin (s : State) (j : Join) : State :=
  s.push (s.liveCore j.desc.origin) j.desc.urgent (.desc j.desc)

/-- An atomic write of physical bytes (R306): it pushes the continuations of counters it brings from a non-zero value
to 0 (R114). -/
def atomicWrite (s : State) (bytes : List (Nat × Byte)) : State :=
  let m := s.mem.store bytes
  let fired (j : Join) : Bool := s.mem.nat j.pa 8 ≠ 0 && m.nat j.pa 8 == 0
  let js := (s.partitions.map fun e => e.2.joins.filter fired).flatten
  let s := { s with mem := m, partitions := s.partitions.map fun e =>
                      (e.1, { e.2 with joins := e.2.joins.filter fun j => !fired j }) }
  js.foldl pushJoin s

/-- Add 1 to a signal word by an atomic (R261): an engine carries its poison (R255, R351). -/
def addSignal (s : State) (pa : Nat) : State :=
  let s := s.meetErrors pa 8
  let bad := s.mem.bad pa 8
  let s := s.atomicWrite (bytesAt pa (leBytes 8 (s.mem.nat pa 8 + 1)))
  if bad then { s with mem := s.mem.mark (pa / 8) } else s

/-! ### Typed buffers and cluster memory (R210, R350) -/

/-- A bank has been accessed in this cycle (R350). -/
def touch (s : State) (b : Bank) : State := { s with bankUse := s.bankUse.set b s.clock }

/-- An access to a bank (R350): an active bank serves it; any other makes it wait, and is woken. -/
def useBank (s : State) (b : Bank) : Res Unit :=
  match s.banks.find b with
  | none | some .active => .ok () (s.touch b)
  | _ => .stop ((s.wakeBank b).stall .bank)

end State

/-- The bytes of a space (R210). -/
def spaceSize (space : BitVec 3) : Nat :=
  match space.toNat with
  | 1 => 0x400000
  | 2 => 0x40000
  | 3 => 0x20000
  | 4 | 5 => 0x10000
  | _ => 2 ^ 57

/-- A core's typed buffer of a space code (R41). -/
def Core.buffer (k : Core) (space : BitVec 3) : Mem :=
  match space.toNat with
  | 2 => k.w
  | 3 => k.a
  | 4 => k.c
  | _ => k.sbuf

/-- A core with a typed buffer replaced. -/
def Core.setBuffer (k : Core) (space : BitVec 3) (m : Mem) : Core :=
  match space.toNat with
  | 2 => { k with w := m }
  | 3 => { k with a := m }
  | 4 => { k with c := m }
  | _ => { k with sbuf := m }

/-- Two byte ranges meet. -/
def rangesMeet (lo hi lo' hi' : Nat) : Bool := lo < hi' && lo' < hi

/-- The C region of a matrix job (R272). -/
def SliceJob.region (j : SliceJob) : Nat × Nat := (j.coff * 64, j.coff * 64 + 8192)

/-- A matrix instruction of a slot over these C bytes has not completed (R274). -/
def Core.sliceBusy (k : Core) (now slot lo hi : Nat) : Bool :=
  k.jobs.any (fun j => j.slot == slot && rangesMeet j.region.1 j.region.2 lo hi)
    || (k.slice.toList ++ k.mmgs).any fun r => r.slot == slot && now < r.doneAt && rangesMeet r.lo r.hi lo hi

namespace State

/-- The bank of a byte of spaces 1 to 5. -/
def bankOf (s : State) (space : BitVec 3) (off : Nat) : Bank :=
  if space = 1 then .cluster (hartCluster s.cur) (off / 65536) else .typed (hartCore s.cur) space (off / 65536)

/-- The banks that bytes at some offsets lie in, each once. -/
def banksOf (s : State) (space : BitVec 3) (offs : List Nat) : List Bank := ((offs.map (· / 65536)).eraseDups).map fun i => s.bankOf space (i * 65536)

/-- An access to the banks of some offsets (R350). -/
def useBanks (s : State) (space : BitVec 3) (offs : List Nat) : Res Unit :=
  Res.each (fun b s => s.useBank b) (s.banksOf space offs) s

/-- Read n bytes of spaces 1 to 5 (R235, R238): after the slot's own matrix work on them, from awake banks. -/
def loadLocal (s : State) (space : BitVec 3) (off n : Nat) : Res (List Byte) :=
  (s.useBanks space [off, off + n - 1]).bind fun _ s =>
  if space = 4 && s.myCore.sliceBusy s.now (hartSlot s.cur) off (off + n) then .stop (s.stall .slice)
  else
    let m := if space = 1 then s.clusterFor s.cur (hartCluster s.cur) else s.myCore.buffer space
    if m.bad off n then .stop (s.poisonLocal space off) else .ok (m.bytes off n) s

/-- One access that stores bytes and nibbles to spaces 1 to 5. -/
def storeLocal (s : State) (space : BitVec 3) (bytes : List (Nat × Byte)) (half : List (Nat × Bool × Nat)) : Res Unit :=
  let offs := bytes.map (·.1) ++ half.map (·.1)
  if offs.isEmpty then .ok () s
  else
    (s.useBanks space offs).bind fun _ s =>
    if space = 1 then .ok () (s.issueStore { cluster := some (hartCluster s.cur), bytes, half })
    else if space = 4 && offs.any fun a => s.myCore.sliceBusy s.now (hartSlot s.cur) a (a + 1) then .stop (s.stall .slice)
    else .ok () (s.setMyCore (s.myCore.setBuffer space ((s.myCore.buffer space).storeBoth bytes half)))

/-- The range lies inside an open S region of the task (R231, R235). -/
def inRegion (s : State) (off n : Nat) : Bool :=
  s.myCore.sregions.any fun r => r.holders.contains s.cur && r.offset ≤ off && off + n ≤ r.offset + r.size

/-- The bounds check of a plain typed-buffer access (R235). -/
def bufferOk (s : State) (space : BitVec 3) (ea : Word) (n : Nat) : Bool :=
  ea.toNat + n ≤ spaceSize space && (space ≠ 5 || s.inRegion ea.toNat n)

/-- The bounds check of an element of a view outside global space (R210, R211, R238); S space outside the task's open regions counts
as outside the space (log entry 82). -/
def elementOk (s : State) (space : BitVec 3) (a : Int) (n : Nat) : Bool :=
  0 ≤ a && a + n ≤ spaceSize space && (space ≠ 5 || s.inRegion a.toNat n)

end State

end Sys2Proof.Machine
end

