-- ==== Sys2Proof/Machine/Sha.lean ====
section
/-! DEFINITION. SHA-384 (03 R55, R57, R78; 19 R382): the function of FIPS 180-4, its constants computed from the primes
they are defined by. -/

namespace Sys2Proof.Machine.Sha

open Sys2Proof

/-- The first n primes from k upward. -/
def primesFrom : Nat → Nat → Nat → List Nat
  | 0, _, _ => []
  | _, 0, _ => []
  | fuel + 1, n + 1, k =>
    if (List.range k).all (fun d => d < 2 || k % d != 0) then k :: primesFrom fuel n (k + 1)
    else primesFrom fuel (n + 1) (k + 1)

/-- The greatest r with r ^ e at most n, found bit by bit from bit b down. -/
def rootFrom (e n : Nat) : Nat → Nat → Nat
  | 0, r => r
  | b + 1, r => rootFrom e n b (if (r + 2 ^ b) ^ e ≤ n then r + 2 ^ b else r)

/-- The 80 round constants: 64 fraction bits of the cube roots of the first 80 primes. -/
def roundConstants : List (BitVec 64) :=
  (primesFrom 410 80 2).map fun p => BitVec.ofNat 64 (rootFrom 3 (p * 2 ^ 192) 68 0)

/-- The initial hash: 64 fraction bits of the square roots of the ninth to sixteenth primes. -/
def initial : List (BitVec 64) :=
  ((primesFrom 60 16 2).drop 8).map fun p => BitVec.ofNat 64 (rootFrom 2 (p * 2 ^ 128) 68 0)

def bigSigma0 (x : BitVec 64) : BitVec 64 := x.rotateRight 28 ^^^ x.rotateRight 34 ^^^ x.rotateRight 39
def bigSigma1 (x : BitVec 64) : BitVec 64 := x.rotateRight 14 ^^^ x.rotateRight 18 ^^^ x.rotateRight 41
def sigma0 (x : BitVec 64) : BitVec 64 := x.rotateRight 1 ^^^ x.rotateRight 8 ^^^ (x >>> 7)
def sigma1 (x : BitVec 64) : BitVec 64 := x.rotateRight 19 ^^^ x.rotateRight 61 ^^^ (x >>> 6)

/-- A 64-bit word from big-endian bytes. -/
def wordOf (l : List Byte) : BitVec 64 := BitVec.ofNat 64 (l.foldl (fun a b => a * 256 + b.toNat) 0)

/-- The message schedule: words so far, newest first. -/
def schedule : Nat → List (BitVec 64) → List (BitVec 64)
  | 0, l => l
  | n + 1, l => schedule n ((sigma1 (l.getD 1 0) + l.getD 6 0 + sigma0 (l.getD 14 0) + l.getD 15 0) :: l)

/-- The eight working variables. -/
structure Work8 where
  a : BitVec 64
  b : BitVec 64
  c : BitVec 64
  d : BitVec 64
  e : BitVec 64
  f : BitVec 64
  g : BitVec 64
  h : BitVec 64

def round (s : Work8) (k w : BitVec 64) : Work8 :=
  let t1 := s.h + bigSigma1 s.e + ((s.e &&& s.f) ^^^ (~~~s.e &&& s.g)) + k + w
  let t2 := bigSigma0 s.a + ((s.a &&& s.b) ^^^ (s.a &&& s.c) ^^^ (s.b &&& s.c))
  { a := t1 + t2, b := s.a, c := s.b, d := s.c, e := s.d + t1, f := s.e, g := s.f, h := s.g }

/-- The hash after one block of 128 bytes. -/
def block (ks h : List (BitVec 64)) (bytes : List Byte) : List (BitVec 64) :=
  let ws := (schedule 64 (((List.range 16).map fun i => wordOf ((bytes.drop (8 * i)).take 8)).reverse)).reverse
  let s0 : Work8 := { a := h.getD 0 0, b := h.getD 1 0, c := h.getD 2 0, d := h.getD 3 0, e := h.getD 4 0,
                      f := h.getD 5 0, g := h.getD 6 0, h := h.getD 7 0 }
  let s := (ks.zip ws).foldl (fun s p => round s p.1 p.2) s0
  [h.getD 0 0 + s.a, h.getD 1 0 + s.b, h.getD 2 0 + s.c, h.getD 3 0 + s.d, h.getD 4 0 + s.e, h.getD 5 0 + s.f,
   h.getD 6 0 + s.g, h.getD 7 0 + s.h]

/-- The hash after so many blocks. -/
def blocks (ks : List (BitVec 64)) : Nat → List Byte → List (BitVec 64) → List (BitVec 64)
  | 0, _, h => h
  | n + 1, l, h => blocks ks n (l.drop 128) (block ks h (l.take 128))

/-- A value as n big-endian bytes. -/
def bigBytes (n x : Nat) : List Byte := (leBytes n x).reverse

/-- The message with its padding and length. -/
def padded (l : List Byte) : List Byte :=
  l ++ [0x80] ++ List.replicate ((239 - l.length % 128) % 128) 0 ++ bigBytes 16 (8 * l.length)

end Sys2Proof.Machine.Sha

namespace Sys2Proof.Machine

/-- The SHA-384 digest, 48 bytes. -/
def sha384 (l : List Byte) : List Byte :=
  let p := Sha.padded l
  (((Sha.blocks Sha.roundConstants (p.length / 128) p Sha.initial).map fun w => Sha.bigBytes 8 w.toNat).flatten).take 48

end Sys2Proof.Machine
end

