-- ==== Sys2Proof/Machine/Waymark.lean ====
section
/-! DEFINITION. The Waymark table of this chip (03 R64 to R69, R420 to R422; 11 R268): its records formed from the
families of R69, the partition's masked view of it, and its digest. -/

namespace Sys2Proof.Machine

open Sys2Proof

/-- A record before it is laid out: key name, type code, features it depends on, own bit, value. -/
structure WayRecord where
  key : Nat
  ty : Nat
  needs : List Nat
  bit : Nat
  value : Nat
deriving DecidableEq, Repr

/-- The key id of a name (R68). -/
def keyId (name : String) : Nat := name.toList.foldl (fun h c => (h * 31 + c.toNat) % 2 ^ 32) 0

/-- The names of the TYPE codes in keys (R421). -/
def typeNames : List String :=
  ["i8", "i16", "i32", "i64", "n8", "n16", "n32", "n64", "f64", "f32", "f16", "bf16", "f4", "i4", "b8"]
def typeName (t : Nat) : String := typeNames.getD t ""
/-- Bytes of a TYPE as a SIZE code (R40, R238). -/
def typeSize (t : Nat) : Nat := [0, 1, 2, 3, 0, 1, 2, 3, 3, 2, 1, 1, 0, 0, 0].getD t 0

/-- The features by bit (R420). -/
def featureNames : List String := ["f64", "f16", "bf16", "f4", "i4", "b8", "gang"]

/-- The features that the parts of a key name (R420). -/
def needsOf (parts : List String) : List Nat :=
  (List.range 7).filter fun i =>
    parts.contains (featureNames.getD i "") && i < 6
      || i = 0 && parts.contains "dmma"
      || i = 6 && (parts.contains "forkg" || parts.contains "mmg")

/-- The record of a key that is given by its parts. -/
def wayRecord (ty : Nat) (parts : List String) (value : Nat) : WayRecord :=
  { key := keyId (".".intercalate parts), ty, needs := needsOf parts, bit := 255, value }

/-- A choice of one suffix of a template: its spelling, empty for a default that appears in no key, and its bits. -/
abbrev Choice := List (String × Nat)

/-- TYPE as a suffix, at a bit position. -/
def types (lo : Nat) (l : List Nat) : Choice := l.map fun t => (typeName t, t * 2 ^ lo)
/-- TYPE and SIZE of a memory operation, in FN and at bit 48 (R27). -/
def memTypes (l : List Nat) : Choice := l.map fun t => (typeName t, t * 2 ^ 28 + typeSize t * 2 ^ 48)
/-- TYPE of a vector memory operation, SIZE 6. -/
def vecTypes (l : List Nat) : Choice := l.map fun t => (typeName t, t * 2 ^ 28 + 6 * 2 ^ 48)
/-- Named forms numbered from 0 in a field. -/
def forms (lo : Nat) (names : List String) : Choice := names.zipIdx.map fun p => (p.1, p.2 * 2 ^ lo)
/-- Device scope in formats M, A and E. -/
def scopeM : Choice := [("", 4 * 2 ^ 51)]
def scopeA : Choice := [("", 4 * 2 ^ 40)]
def scopeE : Choice := [("", 4 * 2 ^ 43)]

def integers : List Nat := [0, 1, 2, 3, 4, 5, 6, 7]
def signeds : List Nat := [0, 1, 2, 3]
def unsigneds : List Nat := [4, 5, 6, 7]
def plains : List Nat := integers ++ [8, 9, 10, 11]
def ieees : List Nat := [8, 9, 10, 11]
def wides : List Nat := [2, 3, 6, 7, 8, 9]
def atomics : List Nat := [2, 3, 6, 7]
def allTypes : List Nat := List.range 15
def conditions : List String := ["eq", "ne", "lt", "le", "gt", "ge", "un", "or"]

/-- Every template of an opcode: one for each combination of its choices (R421). -/
def templates (mnemonic : String) (op : Nat) (choices : List Choice) : List WayRecord :=
  let all := choices.foldl (fun (acc : List (List String × Nat)) c =>
    (acc.map fun a => c.map fun e => (if e.1 = "" then a.1 else a.1 ++ [e.1], a.2 + e.2)).flatten) [(["op", mnemonic], op)]
  all.map fun a => wayRecord 4 a.1 a.2

/-- Opcodes that carry no suffix of a key. -/
def bareOpcodes : List (String × Nat) :=
  [("csel", 0x17), ("bins", 0x1C), ("li", 0x1D), ("lih", 0x1E), ("addpc", 0x1F), ("br", 0x30), ("jmp", 0x31),
   ("jr", 0x32), ("call", 0x33), ("callr", 0x34), ("rep", 0x35), ("rgn", 0x38), ("end", 0x39), ("nop", 0x3A),
   ("brk", 0x3B), ("vand", 0x69), ("vor", 0x6A), ("vxor", 0x6B), ("vsel", 0x70), ("vmov", 0x7F), ("tclaim", 0x91),
   ("tfree", 0x92), ("tld", 0x93), ("tzero", 0x95), ("mma", 0x96), ("mmg", 0x97), ("dmma", 0x98), ("ttr", 0x9A),
   ("wbind", 0xA3), ("wunbind", 0xA4), ("weos", 0xA5), ("wsub", 0xA6), ("twany", 0xB3), ("twall", 0xB4),
   ("tfirst", 0xB5), ("tclr", 0xB6), ("fork", 0xC0), ("forkc", 0xC1), ("forkg", 0xC2), ("join", 0xC3), ("send", 0xC4),
   ("spawn", 0xC5), ("trap", 0xD0), ("ctrlr", 0xD1), ("ctrlw", 0xD2)]

/-- Format A opcodes whose one choice is TYPE (R25). -/
def typedA : List (String × Nat × List Nat) :=
  [("add", 0x01, integers), ("sub", 0x03, integers), ("mul", 0x04, integers), ("mulh", 0x05, integers),
   ("div", 0x06, integers), ("rem", 0x07, integers), ("and", 0x08, integers), ("or", 0x0A, integers),
   ("xor", 0x0C, integers), ("shl", 0x0E, integers), ("shr", 0x10, unsigneds), ("sra", 0x12, signeds),
   ("min", 0x14, integers), ("max", 0x15, integers), ("clz", 0x18, integers), ("ctz", 0x19, integers),
   ("popc", 0x1A, integers), ("vadd", 0x60, plains), ("vsub", 0x61, plains), ("vmul", 0x62, plains),
   ("vfma", 0x63, ieees), ("vfms", 0x64, ieees), ("vmin", 0x65, plains), ("vmax", 0x66, plains),
   ("vabs", 0x67, signeds ++ ieees), ("vneg", 0x68, signeds ++ ieees), ("vshl", 0x6C, integers),
   ("vshr", 0x6D, unsigneds), ("vsra", 0x6E, signeds), ("vperm", 0x74, plains), ("vbcast", 0x75, plains),
   ("vext", 0x76, plains), ("vins", 0x77, plains), ("vrcp", 0x78, [9, 10, 11]), ("vrsqrt", 0x79, [9, 10, 11]),
   ("vexp2", 0x7A, [9, 10, 11]), ("vlog2", 0x7B, [9, 10, 11]), ("vsqrt", 0x7C, ieees), ("vdiv", 0x7D, ieees),
   ("vdot", 0x7E, [0, 4, 10, 11]), ("vclass", 0x87, ieees)]

/-- Format I opcodes whose TYPE lies in B (R26). -/
def typedI : List (String × Nat × List Nat) :=
  [("addi", 0x02, integers), ("andi", 0x09, integers), ("ori", 0x0B, integers), ("xori", 0x0D, integers),
   ("shli", 0x0F, integers), ("shri", 0x11, unsigneds), ("srai", 0x13, signeds)]

/-- Every TEMPLATE record (R69, R421). `barr` has the one ORDER it accepts (R310), and `wopen` device scope in IMM9 (log
entry 60). -/
def templateRecords : List WayRecord :=
  (bareOpcodes.map fun e => templates e.1 e.2 []).flatten
  ++ (typedA.map fun e => templates e.1 e.2.1 [types 32 e.2.2]).flatten
  ++ (typedI.map fun e => templates e.1 e.2.1 [types 18 e.2.2]).flatten
  ++ (["cset", "gset"].zip [0x16, 0x36]).flatMap (fun e =>
      templates e.1 e.2 [forms 28 (conditions.take 6), types 32 integers] ++ templates e.1 e.2 [forms 28 conditions, types 32 ieees])
  ++ templates "bext" 0x1B [forms 28 ["", "s"]] ++ templates "gclr" 0x37 [forms 28 ["", "true", "inv"]]
  ++ templates "ld" 0x40 [memTypes plains, scopeM] ++ templates "st" 0x41 [memTypes plains, scopeM]
  ++ templates "wld" 0x42 [memTypes allTypes, scopeM] ++ templates "wst" 0x43 [memTypes allTypes, scopeM]
  ++ templates "pf" 0x44 [forms 28 ["", "die", "w"]] ++ templates "bld" 0x45 [memTypes plains]
  ++ templates "bst" 0x46 [memTypes plains] ++ templates "cln" 0x47 [forms 28 ["", "inv"], scopeM]
  ++ templates "amo" 0x50 [forms 23 ["add", "and", "or", "xor", "smin", "smax", "nmin", "nmax", "swap"], memTypes atomics, scopeM]
  ++ templates "cas" 0x51 [memTypes atomics, scopeM] ++ templates "cas2" (0x52 + 7 * 2 ^ 28 + 4 * 2 ^ 48) [scopeM]
  ++ templates "fence" 0x53 [scopeA] ++ templates "barr" (0x54 + 4 * 2 ^ 48 + 3 * 2 ^ 54) [scopeM]
  ++ templates "wfv" 0x55 [forms 23 (conditions.take 6), memTypes atomics, scopeM]
  ++ templates "vcmp" 0x6F [forms 28 (conditions.take 6), types 32 atomics] ++ templates "vcmp" 0x6F [forms 28 conditions, types 32 [8, 9]]
  ++ (allTypes.flatMap fun d => templates "vcvt" 0x71 [types 32 [d], types 28 (allTypes.filter (· ≠ d))])
  ++ (["vred", "vscan"].zip [0x72, 0x73]).flatMap (fun e =>
      templates e.1 e.2 [forms 28 ["sum", "min", "max"], types 32 wides]
        ++ templates e.1 e.2 [(["and", "or", "xor"].zipIdx 3).map fun p => (p.1, p.2 * 2 ^ 28), types 32 atomics])
  ++ templates "vperm2" (0x74 + 2 ^ 28) [types 32 plains]
  ++ templates "vld" 0x80 [vecTypes plains, scopeM] ++ templates "vst" 0x81 [vecTypes plains, scopeM]
  ++ templates "vgath" 0x82 [vecTypes wides, scopeM] ++ templates "vscat" 0x83 [vecTypes wides, scopeM]
  ++ templates "vbld" 0x84 [vecTypes plains] ++ templates "vbst" 0x85 [vecTypes plains]
  ++ templates "kop" 0x86 [forms 28 ["and", "or", "xor", "andn", "not", "set", "get", "cnt", "first"]]
  ++ templates "vwld" 0x88 [vecTypes allTypes, scopeM] ++ templates "vwst" 0x89 [vecTypes allTypes, scopeM]
  ++ templates "tcfg" 0x90 [forms 28 ["", "get"]]
  ++ templates "tst" 0x94 [types 45 [0, 4, 8, 10, 11, 12, 13, 14]] ++ templates "tscl" 0x99 [forms 28 ["f32", "f64"]]
  ++ templates "cread" 0x9B [[("", 0)], types 45 (allTypes.filter fun t => t ≠ 3 && t ≠ 7 && t ≠ 8)]
  ++ templates "cread" 0x9B [[("i32", 2 ^ 28)], types 45 (allTypes.filter fun t => t ≠ 3 && t ≠ 7 && t ≠ 8)]
  ++ templates "cread" 0x9B [[("f64", 2 * 2 ^ 28)], types 45 allTypes]
  ++ templates "wset" 0xA0 [types 32 allTypes] ++ templates "wset" 0xA0 [[("dim", 2 ^ 28), ("scl", 2 * 2 ^ 28)]]
  ++ templates "wset" (0xA0 + 3 * 2 ^ 28 + 5 * 2 ^ 45) [[("sreg", 0)], types 32 plains]
  ++ templates "wopen" 0xA1 [[("r", 2 ^ 48), ("w", 2 ^ 49)], [("", 4 * 2 ^ 36)]] ++ templates "wretire" 0xA2 [forms 28 ["", "free"]]
  ++ templates "wtest" 0xA7 [forms 28 ["", "state", "base"]]
  ++ templates "cpy" 0xB0 [scopeE] ++ templates "cpys" 0xB1 [forms 28 ["add", "set"], scopeE]
  ++ templates "coll" 0xB2 [forms 28 ["sum", "max", "min", "gather", "rsum", "bcast"], scopeE] ++ templates "cfill" 0xB7 [scopeE]
  ++ templates "qinfo" 0xC6 [forms 28 ["depth", "pending", "room", "clusters", "live", "gangrows", "place", "glade", "launch", "drops", "die"]]
  ++ templates "mbind" 0xD6 [forms 28 ["", "un"]]

/-- The FEATURE records (R420). -/
def featureRecords : List WayRecord :=
  featureNames.zipIdx.map fun p =>
    { key := keyId ("feat." ++ p.1), ty := 1, needs := [], bit := p.2, value := 1 }

/-- The FIELD records: position and width (R69). -/
def fieldRecords : List WayRecord :=
  ([("d", 8, 5), ("a", 13, 5), ("b", 18, 5), ("c", 23, 5), ("fn", 28, 4), ("type.a", 32, 4), ("offs16", 32, 16),
    ("offs24", 32, 24), ("imm32", 23, 32), ("gd", 56, 3), ("nf", 59, 1), ("la", 60, 4), ("km", 23, 3), ("sat.a", 39, 1),
    ("rnd.a", 36, 3), ("scope.a", 40, 3), ("order.a", 43, 2), ("size", 48, 3), ("scope.m", 51, 3), ("order.m", 54, 2),
    ("coff", 32, 10), ("type.t", 45, 4), ("sat.t", 49, 1), ("rnd.t", 50, 3), ("wrap", 53, 1), ("imm9", 36, 9),
    ("space", 45, 3), ("mode", 48, 2), ("b8", 50, 5), ("scope.e", 43, 3), ("mbx", 46, 1), ("split", 47, 3),
    ("tag", 50, 6), ("sel", 32, 12)] : List (String × Nat × Nat)).flatMap fun e =>
      [{ key := keyId ("field." ++ e.1 ++ ".lsb"), ty := 5, needs := [], bit := 255, value := e.2.1 },
       { key := keyId ("field." ++ e.1 ++ ".width"), ty := 5, needs := [], bit := 255, value := e.2.2 }]

/-- The SHAPE records (R67, R268). -/
def shapeRecords : List WayRecord :=
  (["mma", "mmg"].flatMap fun o =>
    ([("f16", 32), ("bf16", 32), ("b8", 64), ("i8", 64), ("f4", 128), ("i4", 128)] : List (String × Nat)).map fun e =>
      wayRecord 3 ["shape", o, e.1] (64 + 32 * 2 ^ 16 + (if o = "mmg" then 8 * e.2 else e.2) * 2 ^ 32))
  ++ [wayRecord 3 ["shape", "dmma", "f64"] (32 + 32 * 2 ^ 16 + 16 * 2 ^ 32)]

/-- The LIMIT and VERSION records (R69). -/
def otherRecords : List WayRecord :=
  [{ key := keyId "limit.milestone.budget", ty := 2, needs := [], bit := 255, value := 67108864 },
   { key := keyId "ver.ronid", ty := 6, needs := [], bit := 255, value := 0x10000 }]

/-- Insert a record by rising key (R422). -/
def insertRecord (l : List WayRecord) (r : WayRecord) : List WayRecord :=
  l.takeWhile (fun x => x.key < r.key) ++ r :: l.dropWhile (fun x => x.key < r.key)

/-- The records of formats that reduced service leaves out (R384, R420): those that depend on f64, f16, f4, i4, b8. -/
def WayRecord.kept (r : WayRecord) (reduced : Bool) : Bool :=
  !reduced || !(r.needs.any (fun i => [0, 1, 3, 4, 5].contains i) || (r.ty == 1 && [0, 1, 3, 4, 5].contains r.bit))

/-- Every record of the table, unordered. -/
def allRecords (reduced : Bool) : List WayRecord :=
  (featureRecords ++ templateRecords ++ fieldRecords ++ shapeRecords ++ otherRecords).filter (·.kept reduced)

/-- A record that the partition's masked view holds (R64). -/
def WayRecord.visible (r : WayRecord) (mask : BitVec 256) : Bool :=
  if r.ty = 1 then r.value ≠ 0 && mask.getLsbD r.bit else r.needs.all fun i => mask.getLsbD i

/-- `masked_view.find` (R64, R72). -/
def wayFind (reduced : Bool) (mask : BitVec 256) (key : Nat) : Option Nat :=
  ((allRecords reduced).find? fun r => r.key == key && r.visible mask).map (·.value)

/-- The bytes of a record (R66); NEXT is 24 but in the last. -/
def WayRecord.layout (r : WayRecord) (last : Bool) : List Byte :=
  leBytes 4 r.key ++ [BitVec.ofNat 8 r.ty, BitVec.ofNat 8 (r.needs.headD 255), BitVec.ofNat 8 r.bit, 0]
    ++ leBytes 8 r.value ++ leBytes 4 (if last then 0 else 24) ++ leBytes 4 0

/-- The table's bytes in ascending order of key (R422). -/
def wayTable (reduced : Bool) : List Byte :=
  let l := (allRecords reduced).foldl insertRecord []
  (l.zipIdx.map fun p => p.1.layout (p.2 + 1 == l.length)).flatten

/-- The Waymark digest (R78, R422). -/
def wayDigest (reduced : Bool) : List Byte := sha384 (wayTable reduced)

end Sys2Proof.Machine
end

