-- ==== Sys2Proof/Machine/Loader.lean ====
section
/-! DEFINITION. The loader: the format of a code object (03 R53 to R57), its checks (R58 to R61), images (R62, R63),
image choice (R64, R65), admission (R77), the Cairn cache (R78 to R80), demand-hashed pages (R82), revocation
(R83, R84) and unloading (R85). -/

namespace Sys2Proof.Machine

open Sys2Proof

/-! ### The file -/

/-- A section-table entry (R54), with the place of the entry in the file. -/
structure Section where
  index : Nat
  entry : Nat
  ty : Nat
  flags : Nat
  link : Nat
  reserved : Nat
  offset : Nat
  length : Nat
  place : Nat
deriving DecidableEq, Repr

def readSection (o : List Byte) (i : Nat) : Section :=
  let e := fileNat o 24 8 + 32 * i
  { index := i, entry := e, ty := fileNat o e 2, flags := fileNat o (e + 2) 2, link := fileNat o (e + 4) 2,
    reserved := fileNat o (e + 6) 2, offset := fileNat o (e + 8) 8, length := fileNat o (e + 16) 8,
    place := fileNat o (e + 24) 8 }

/-- The section table of a file (R53, R54). -/
def sectionsOf (o : List Byte) : List Section := (List.range (fileNat o 8 4)).map (readSection o)

namespace Section

/-- Private code, pathfinder and native image (R55). -/
def isCode (x : Section) : Bool := 1 ≤ x.ty && x.ty ≤ 3
/-- 64 KiB pages of the section. -/
def pages (x : Section) : Nat := (x.length + 65535) / 65536
/-- The bytes of the section in its file. -/
def bytes (x : Section) (o : List Byte) : List Byte := (o.drop x.offset).take x.length
/-- A type of R54. -/
def known (x : Section) : Bool := 1 ≤ x.ty && x.ty ≤ 6
/-- The length of the range it takes of the virtual region (R54). -/
def reach (x : Section) : Nat := if x.ty = 1 then max 0x400000 (x.pages * 65536) else x.length
/-- The key ids of the manifest that LINK names, none without one (R56). -/
def manifest (x : Section) (o : List Byte) : List Nat :=
  if x.link = 0xFFFF then []
  else
    let m := readSection o x.link
    (List.range (fileNat o m.offset 4)).map fun i => fileNat o (m.offset + 8 + 4 * i) 4

end Section

/-- Two byte ranges given by start and length share a byte. -/
def overlap (a n b m : Nat) : Bool := n ≠ 0 && m ≠ 0 && rangesMeet a (a + n) b (b + m)

/-- The offset of the first non-zero byte among n bytes of a file. -/
def firstNonZero (o : List Byte) (off n : Nat) : List Nat :=
  (((List.range n).map (off + ·)).filter fun i => o.getD i 0 != 0).take 1

/-- Faults of the header's own fields (R53). -/
def headerFaults (o : List Byte) : List Nat :=
  let n := fileNat o 8 4
  let table := fileNat o 24 8
  let sigoff := fileNat o 32 8
  ([(0, fileNat o 0 4 == 0x4B57434F), (4, fileNat o 4 2 == 1), (6, fileNat o 6 2 == 0), (8, 1 ≤ n && n ≤ 64),
    (16, fileNat o 16 8 == o.length), (24, table % 8 == 0 && 128 ≤ table && table + 32 * n ≤ sigoff),
    (32, sigoff % 8 == 0), (40, sigoff + fileNat o 40 4 == fileNat o 16 8)].filter fun e => !e.2).map (·.1)
    ++ firstNonZero o 44 84

/-- Faults of one entry's own fields (R54, R56); an entry of another type has that fault alone. -/
def entryFaults (o : List Byte) (all : List Section) (x : Section) : List Nat :=
  if !x.known then [x.entry]
  else
    let linked := x.ty == 2 || x.ty == 3
    let names (y : Section) : Bool := (y.ty == 2 || y.ty == 3) && y.link == x.index
    let count (t : Nat) : Nat := (all.filter fun y => y.ty == t && y.index < x.index).length
    let lone := x.ty == 1 && !(all.any (·.ty == 2)) || x.ty == 2 && !(all.any (·.ty == 1))
    let many := x.ty == 1 && 1 ≤ count 1 || x.ty == 2 && 1 ≤ count 2 || x.ty == 3 && 16 ≤ count 3 || x.ty == 5 && 1 ≤ count 5
    let hashed := ((all.filter Section.isCode).map Section.pages).sum
    let lengthOk := match x.ty with
      | 1 => x.length ≤ 2 ^ 28
      | 2 => x.length % 4 == 0 && 4 ≤ x.length && x.length ≤ 2 ^ 20
      | 3 => x.length % 8 == 0 && x.length ≤ 2 ^ 28
      | 5 => x.length == 48 * hashed
      | 6 => x.length == 8 + 4 * fileNat o x.offset 4 && x.offset + x.length ≤ o.length
      | _ => true
    let later (y : Section) : Bool := y.known && y.index < x.index
    let clash := all.any fun y => later y && overlap x.offset x.length y.offset y.length
    let placed (y : Section) : Bool := y.ty == 1 || y.ty == 3 || y.ty == 4
    let tread := placed x && all.any fun y => later y && placed y && (x.ty == 4 || y.ty == 4)
      && overlap x.place x.reach y.place y.reach
    let checks :=
      [(x.entry, !lone && !many && (x.ty != 6 || all.any names)),
       (x.entry + 2, x.flags == 0 || (x.ty == 4 && x.flags == 1)),
       (x.entry + 4, x.link == 0xFFFF || (linked && all.any fun y => y.index == x.link && y.ty == 6)),
       (x.entry + 8, (4 < x.ty || x.offset % 65536 == 0) && x.offset + x.length ≤ fileNat o 32 8 && !clash),
       (x.entry + 16, lengthOk),
       (x.entry + 24, (if placed x then x.place % 65536 == 0 else x.place == 0) && !tread)]
    (checks.filter fun e => !e.2).map (·.1) ++ firstNonZero o (x.entry + 6) 2
      ++ (if x.ty == 6 then firstNonZero o (x.offset + 4) 4 else [])

/-- Faults that the table as a whole charges to the header (R61). -/
def tableFaults (o : List Byte) (all : List Section) : List Nat :=
  (if all.any (·.ty == 5) && all.any (fun x => x.ty == 2 || x.ty == 3) then [] else [8])
    ++ (if all.any fun x => overlap x.offset x.length (fileNat o 24 8) (32 * fileNat o 8 4) then [24] else [])

/-- Faults of the signature block (R57). -/
def signatureFaults (o : List Byte) : List Nat :=
  let at0 := fileNat o 32 8
  let size := fileNat o 40 4
  let lms := fileNat o (at0 + 104) 4
  if size < 112 then (if 4 ≤ size && 63 < fileNat o at0 4 then [at0] else []) ++ firstNonZero o (at0 + 4) (min 4 (size - 4)) ++ [40]
  else (if 63 < fileNat o at0 4 then [at0] else []) ++ firstNonZero o (at0 + 4) 4
    ++ (if size ≠ (112 + lms + 7) / 8 * 8 then [at0 + 104] else []) ++ firstNonZero o (at0 + 108) 4
    ++ firstNonZero o (at0 + 112 + lms) (size - 112 - lms)

/-- The offsets of every faulty field (R58 step 1, R61): of the header, of the section table as far as it lies in the file, and of the
signature block. What is absent is judged by a table that is there as a whole. -/
def formatFaults (o : List Byte) : List Nat :=
  let n := fileNat o 8 4
  let all := if 1 ≤ n && n ≤ 64 then (sectionsOf o).filter fun x => x.entry + 32 ≤ o.length else []
  headerFaults o ++ (if all.length = n then tableFaults o all else []) ++ (all.map (entryFaults o all)).flatten ++ signatureFaults o

/-- The lowest of a list of offsets. -/
def lowest : List Nat → Option Nat
  | [] => none
  | x :: t => some (t.foldl min x)

/-- The object digest D (R57): every byte but the code sections' and the signature block's. -/
def objectDigest (o : List Byte) : List Byte :=
  let code := (sectionsOf o).filter Section.isCode
  sha384 (((o.take (fileNat o 32 8)).zipIdx.filter fun e =>
    !(code.any fun x => x.offset ≤ e.2 && e.2 < x.offset + x.length)).map (·.1))

/-- Bytes of an LMS signature by its LMS type and its LM-OTS type (RFC 8554), for the parameter sets that R59 accepts:
LMS_SHA256_M32_H10, H15 and H20, and LMOTS_SHA256_N32_W4 and W8. -/
def lmsSize (lms ots : Nat) : Option Nat :=
  match (([(6, 10), (7, 15), (8, 20)] : List (Nat × Nat)).find? (·.1 == lms)),
    (([(3, 67), (4, 34)] : List (Nat × Nat)).find? (·.1 == ots)) with
  | some h, some p => some (12 + 32 * (1 + p.2) + 32 * h.2)
  | _, _ => none

/-- A big-endian 32-bit field (RFC 8554). -/
def beWord (b : List Byte) (i : Nat) : Nat := ((b.drop i).take 4).foldl (fun n x => n * 256 + x.toNat) 0

/-- The parameter sets of an HSS key and signature are those that R59 accepts: one or two levels, each of an accepted LMS
and LM-OTS type. The key holds its levels and the top types; a signature of two levels holds the second key after the
first LMS signature. -/
def hssParameters (key signature : List Byte) : Bool :=
  match lmsSize (beWord key 4) (beWord key 8) with
  | none => false
  | some n =>
    beWord signature 0 + 1 == beWord key 0 && (beWord key 0 == 1
      || beWord key 0 == 2 && (lmsSize (beWord signature (4 + n)) (beWord signature (8 + n))).isSome)

/-- The HSS check of R59. -/
def hssPasses (key digest signature : List Byte) : Bool :=
  hssParameters key signature && Config.hssVerifies key digest signature

/-- The two signatures over the object digest verify under an entry of the key store (R59). -/
def signedBy (o : List Byte) (k : KeyEntry) : Bool :=
  let at0 := fileNat o 32 8
  match k with
  | .enabled p384 hss =>
    Config.ecdsaVerifies p384 (objectDigest o) ((o.drop (at0 + 8)).take 96)
      && hssPasses hss (objectDigest o) ((o.drop (at0 + 112)).take (fileNat o (at0 + 104) 4))
  | _ => false

/-- The stored digests of a section's pages, with the global index of its first page (R55). -/
def pageDigests (o : List Byte) (x : Section) : Nat × List (List Byte) :=
  let all := sectionsOf o
  let first := ((all.filter fun y => y.isCode && y.index < x.index).map Section.pages).sum
  let at0 := ((all.find? (·.ty == 5)).map (·.offset)).getD 0
  (first, (List.range x.pages).map fun i => (o.drop (at0 + 48 * (first + i))).take 48)

/-- The digest of a page, extended with zero bytes (R55). -/
def pageHash (b : List Byte) (i : Nat) : List Byte :=
  let p := (b.drop (65536 * i)).take 65536
  sha384 (p ++ List.replicate (65536 - p.length) 0)

/-- The first page of the private code and the pathfinder whose digest differs (R58 step 3). -/
def firstBadPage (o : List Byte) : Option Nat :=
  ((((sectionsOf o).filter fun x => x.ty == 1 || x.ty == 2).map fun x =>
    let d := pageDigests o x
    ((List.range x.pages).filter fun i => d.2.getD i [] ≠ pageHash (x.bytes o) i).map (d.1 + ·)).flatten).head?

/-! ### Levels and admission (R51, R62, R77) -/

/-- The lowest privilege level of an opcode (R51). -/
def opcodeLevel : Instr → Nat
  | .tretTake _ | .tretDefer _ | .tretTerm _ | .tretRelease _ | .tlbw _ | .tlbiPage _ | .tlbiAsid _ | .tlbiAll _
  | .cinvI _ | .cinvD _ => 1
  | .qsave _ | .qrest _ | .reprwGet _ | .reprwAdd _ | .reprwApply _ | .reprwClr _ | .reprwSum _ | .halt _ => 2
  | _ => 0

/-- The word offset of a format-B target (R28). -/
def targetOffset : Instr → Option (BitVec 24)
  | .br f | .jmp f | .call f | .fork f | .forkc f | .forkg f | .join f | .spawn f => some f.offs
  | _ => none

/-- The words that `rep` replays (R154). -/
def bodyLength : Instr → Option Nat
  | .rep f => some (bits f.imm.toNat 0 4 + 1)
  | _ => none

/-- Image words of bytes. -/
def wordsOf (b : List Byte) : List Nat := (List.range (b.length / 8)).map fun i => fileNat b (8 * i) 8

/-- The first of words 0 to N that breaks R62. -/
def badEntryWord (words : List Nat) : Option Nat :=
  let n := words.headD 0 % 256
  let export_ (w : Nat) := bits w 32 16
  if words.headD 0 / 256 ≠ 0 then some 0
  else ((List.range n).map (· + 1)).find? fun j =>
    let w := words.getD j 0
    bits w 48 16 ≠ 0 || bits w 0 32 < n + 1 || words.length ≤ bits w 0 32
      || ((List.range (j - 1)).any fun i => export_ (words.getD (i + 1) 0) == export_ w)

/-! ### Reduced service (R384) -/

/-- A TYPE that reduced service does not accept. -/
def fullType (t : BitVec 4) : Bool := t == 8#4 || t == 10#4 || t == 12#4 || t == 13#4 || t == 14#4

/-- The TYPE codes that an instruction's fields name: its operands', and the other side of `vcvt`. -/
def typesOf : Instr → List (BitVec 4)
  | .add f | .sub f | .mul f | .mulh f | .div f | .rem f | .and f | .or f | .xor f | .shl f | .shr f | .sra f | .min f
  | .max f | .cset f | .gset f | .clz f | .ctz f | .popc f | .vadd f | .vsub f | .vmul f | .vfma f | .vfms f | .vmin f
  | .vmax f | .vabs f | .vneg f | .vshl f | .vshr f | .vsra f | .vcmp f | .vclass f | .vperm f | .vperm2 f | .vbcast f
  | .vext f | .vins f | .vred f | .vscan f | .vdot f | .vrcp f | .vrsqrt f | .vexp2 f | .vlog2 f | .vsqrt f | .vdiv f => [f.ty]
  | .vcvt f => [f.ty, f.fn]
  | .ld f | .st f | .bld f | .bst f | .wld f | .wst f | .vld f | .vst f | .vgath f | .vscat f | .vbld f | .vbst f | .vwld f
  | .vwst f | .amo f | .cas f | .cas2 f | .wfv f => [f.ty]
  | .tst f | .cread f => [f.ty]
  | .wset f | .wsetSreg f => [f.ty]
  | _ => []

/-- An instruction that reduced service refuses (R384): a TYPE that it does not accept, `dmma`, and the forms of `tscl`
and `cread` that work on binary64 accumulators. -/
def fullOnly (i : Instr) : Bool :=
  (typesOf i).any fullType || (match i with
    | .dmma _ => true
    | .tscl f => f.fn == 1
    | .cread f => f.fn.toNat % 4 == 2
    | _ => false)

/-- Word j of the code part is admitted (R77 steps 3 and 4); under reduced service its formats are those of R384. -/
def admits (reduced : Bool) (words : List Nat) (j : Nat) : Bool :=
  let n := words.headD 0 % 256
  match decodeRonid (words.getD j 0) with
  | .error _ => false
  | .ok i =>
    opcodeLevel i == 0 && !(reduced && fullOnly i)
      && (match targetOffset i with
          | some o => (n : Int) + 1 ≤ j + 1 + o.toInt && j + 1 + o.toInt < words.length
          | none => true)
      && (match bodyLength i with
          | some l => j + l < words.length
          | none => true)

/-- Admission of a candidate image (R77): a load status code and its DETAIL, or none when it is admitted. -/
def admission (reduced : Bool) (words : List Nat) : Option (Nat × Nat) :=
  let n := words.headD 0 % 256
  if words.isEmpty || words.length < n + 2 then some (0x15, 0)
  else match badEntryWord words with
    | some j => some (0x14, j)
    | none => (((List.range words.length).drop (n + 1)).find? fun j => !admits reduced words j).map fun j => (0x14, j)

/-- The admission check of one page of a native image (R82). -/
def admitsPage (reduced : Bool) (words : List Nat) (page : Nat) : Bool :=
  let n := words.headD 0 % 256
  (page ≠ 0 || (n + 2 ≤ words.length && (badEntryWord words).isNone))
    && ((List.range words.length).drop (max (n + 1) (8192 * page))).all fun j => 8192 * (page + 1) ≤ j || admits reduced words j

/-- Export numbers and their word indices (R62). -/
def exportsOf (words : List Nat) : List (Nat × Nat) :=
  let n := words.headD 0 % 256
  if n = 0 then [(0, 1)]
  else (List.range n).map fun i => (bits (words.getD (i + 1) 0) 32 16, bits (words.getD (i + 1) 0) 0 32)

/-! ### Mapping -/

/-- A memory with a range zeroed and its poison gone. -/
def Mem.wipe (m : Mem) (a n : Nat) : Mem :=
  { cells := m.cells.filter fun e => e.1 < a || a + n ≤ e.1, poison := m.poison.filter fun w => w * 8 < a || a + n ≤ w * 8 }

/-- A memory with a 64 KiB page filled from bytes and zeros. -/
def Mem.fillPage (m : Mem) (pfn : Nat) (b : List Byte) : Mem := (m.wipe (pfn * 65536) 65536).storeBytes (pfn * 65536) b

/-- A TLB entry of one 64 KiB page (R215, R216): RC, with permissions. -/
def pageEntry (asid key va pfn : Nat) (r w x : Bool) (sig : Bool := false) : TlbEntry where
  word0 := BitVec.ofNat 64 (key * 2 ^ 56 + bit sig * 2 ^ 55 + pfn)
  word1 := BitVec.ofNat 64 (2 ^ 63 + asid * 2 ^ 53 + bit r * 2 ^ 52 + bit w * 2 ^ 51 + bit x * 2 ^ 50 + 2 ^ 48
    + bits va 16 41)

namespace State

/-- One more answer to the outside. -/
def answerWith (s : State) (b : List Byte) : State := { s with answers := s.answers ++ [b] }

/-- The resident system maps a page for a partition (R63): its entry goes to the last-level TLB of each die that the
partition's slice reaches (log entry 14), in place of what overlaps it there and above (R335). -/
def mapPage (s : State) (p : Nat) (e : TlbEntry) : State :=
  (((s.partition p).slice.map (· / 26)).eraseDups).foldl (fun s d =>
    s.installDie d e) s

/-- Pages that the Cairn cache of a partition takes (R79, R389). -/
def cairnPages (q : Partition) : Nat := (q.cairn.map fun e => (e.2.length * 8 + 65535) / 65536).sum

/-- Pages that a load can still draw. -/
def drawable (q : Partition) : Nat := q.framesLeft.length - cairnPages q

end State

/-- The load status record (R60). -/
def statusRecord (units route code image detail : Nat) : List Byte :=
  leBytes 8 (units % 2 ^ 32 * 2 ^ 32 + route * 2 ^ 16 + code) ++ leBytes 8 (image * 2 ^ 32 + detail % 2 ^ 32)

/-- An image to install: its words, its place, and for a native one its section. -/
structure Image where
  words : List Nat
  place : Nat
  native : Option Section := none

/-- The mappings of an image and of the data sections beside it (R58 step 6, R63): virtual page, permissions, bytes. -/
def Image.pages (g : Image) : Nat := (g.words.length * 8 + 65535) / 65536

namespace State

/-- Map consecutive pages from an address, each with its bytes. -/
def mapRange (s : State) (p : Nat) (va : Nat) (frames : List Nat) (b : List Byte) (r w x : Bool) : State :=
  let q := s.partition p
  (frames.zipIdx).foldl (fun (s : State) e =>
    ({ s with mem := s.mem.fillPage e.1 ((b.drop (65536 * e.2)).take 65536) }.freshFrame (q.keys.headD 0) e.1).mapPage p
      (pageEntry (q.asids.headD 0) (q.keys.headD 0) ((va + 65536 * e.2) % 2 ^ 64) e.1 r w x (x && Config.signaturePolicy p))) s

/-- Install an image (R58 step 6, R63) and answer the load; the answer's UNITS and ROUTE are given. Returns the pages
that were missing, 0 where it was installed. The page after the image is mapped without permissions where no entry of the
die maps it. A data section is mapped writable where its FLAGS say so (R54, log entry 106). -/
def install (s : State) (p : Nat) (file : List Byte) (base : Word) (g : Image) (units route : Nat) : State × Nat :=
  let q := s.partition p
  let datas := (sectionsOf file).filter (·.ty == 4)
  let need := g.pages + (datas.map Section.pages).sum
  let image := match g.native with | some x => x.index | none => 0xFFFF
  if drawable q < need then (s.answerWith (statusRecord units 0 6 image (need - drawable q)), need - drawable q)
  else
    let frames := q.framesLeft.take need
    let va := base + BitVec.ofNat 64 g.place
    let digests := match g.native with | some x => (pageDigests file x).2 | none => []
    let o : Object := {
      handle := BitVec.ofNat 64 q.nextObject, asid := q.asids.headD 0, base := va, words := g.words.length,
      entries := exportsOf g.words, frames, admitted := g.words, native := g.native.isSome,
      image := (match g.native with | some x => x.bytes file | none => []), digests }
    let s := s.setPartition p { q with framesLeft := q.framesLeft.drop need, nextObject := q.nextObject + 1,
                                       objects := q.objects.set o.handle o }
    let s := if g.native.isSome then s
      else s.mapRange p va.toNat (frames.take g.pages) ((g.words.map (leBytes 8)).flatten) false false true
    let t := datas.foldl (fun (acc : State × List Nat) x =>
      (acc.1.mapRange p (base + BitVec.ofNat 64 x.place).toNat (acc.2.take x.pages) (x.bytes file) true (x.flags == 1) false,
       acc.2.drop x.pages)) (s, frames.drop g.pages)
    let after := (va.toNat + 65536 * g.pages) % 2 ^ 64
    let mapped (d : Nat) : Bool := (t.1.die d).tlb.any (·.covers (q.asids.headD 0) after)
    let free := !(q.slice.any fun k => mapped (k / 26))
    let s := if free then t.1.mapPage p (pageEntry (q.asids.headD 0) (q.keys.headD 0) after 0 false false false) else t.1
    (s.answerWith (statusRecord units route 0 image g.words.length), 0)

/-- Enter an admitted image into the Cairn cache, as the most recently used (R79): the least recently used leave until
it has room (log entry 66). -/
def cairnStore (s : State) (p : Nat) (key : List Byte) (words : List Word) : State :=
  let q := s.partition p
  let fits (l : List (List Byte × List Word)) : Bool := cairnPages { q with cairn := l } ≤ q.framesLeft.length
  let l := (key, words) :: q.cairn
  let n := ((List.range (l.length + 1)).reverse.find? fun n => fits (l.take n)).getD 0
  s.setPartition p { q with cairn := l.take n }

/-- The Cairn key of a translation (R78). -/
def cairnKey (s : State) (p : Nat) (pathfinder code : List Byte) : List Byte :=
  sha384 (leBytes 8 pathfinder.length ++ pathfinder ++ leBytes 8 code.length ++ code ++ wayDigest s.reducedService
    ++ leBytes 32 (s.partition p).features.toNat)

/-- The pathfinder route of a load (R58 step 5, R80). -/
def translateLoad (s : State) (p : Nat) (file : List Byte) (base : Word) (pf pv : Section) : State :=
  let q := s.partition p
  let code := pv.bytes file
  let pathfinder := pf.bytes file
  let key := s.cairnKey p pathfinder code
  match q.cairn.find? (·.1 == key) with
  | some e =>
    let s := s.setPartition p { q with cairn := e :: q.cairn.filter (·.1 ≠ key) }
    (s.install p file base { words := e.2.map (·.toNat), place := pv.place } 0 2).1
  | none =>
    match s.clearings.find? (fun e => e.2.running && e.2.part == p && e.2.key == key) with
    | some (k, c) => { s with clearings := s.clearings.set k { c with waiting := c.waiting ++ [(file, base)] } }
    | none =>
      let k := ((List.range (s.clearings.length + 1)).find? fun k => (s.clearings.find k).isNone).getD 0
      let cap := min q.budgetCap (2 ^ 26)
      let asked := fileNat file 12 4
      { s with clearings := s.clearings.set k {
                 part := p, tsc := q.slice.head?, m := (Vector.replicate 16 0).set 1 (BitVec.ofNat 64 code.length)
                 budget := min (if asked ≠ 0 then asked else cap) cap, pathfinder, code, key, file
                 base := base + BitVec.ofNat 64 pv.place, running := true } }

/-- Key ids of a list that the partition's masked view lacks (R64). -/
def absentKeys (s : State) (p : Nat) (keys : List Nat) : List Nat :=
  keys.filter fun k => (wayFind s.reducedService (s.partition p).features k).isNone

end State

/-- The native image that R65 chooses: it matches, names the most keys, and stands first among those. -/
def chooseNative (s : State) (p : Nat) (o : List Byte) : Option Section :=
  ((sectionsOf o).filter fun x => x.ty == 3 && (s.absentKeys p (x.manifest o)).isEmpty).foldl (fun best x =>
    match best with
    | none => some x
    | some y => if (y.manifest o).length < (x.manifest o).length then some x else some y) none

/-- LOAD_REQUEST (R58). The object's region begins at the 64 KiB page of the base, so that its images begin on page boundaries (R16;
log entry 90). -/
def execLoadRequest (part : Nat) (object : List Byte) (base : Word) (s : State) : Out :=
  let base := base &&& ~~~0xFFFF
  let refuse (code detail : Nat) : Out := .next (s.answerWith (statusRecord 0 0 code 0xFFFF detail))
  if (s.partitions.find part).isNone then .next s
  else match lowest (formatFaults object) with
    | some d => refuse 1 d
    | none =>
      if !signedBy object ((s.partition part).keyStore.get (fileNat object (fileNat object 32 8) 4) .empty) then refuse 2 0
      else match firstBadPage object with
        | some i => refuse 3 i
        | none =>
          match chooseNative s part object with
          | some x => .next (s.install part object base { words := wordsOf (x.bytes object), place := x.place, native := some x } 0 1).1
          | none =>
            match (sectionsOf object).find? (·.ty == 2), (sectionsOf object).find? (·.ty == 1) with
            | some pf, some pv =>
              match s.absentKeys part (pf.manifest object) with
              | k :: _ => refuse 5 k
              | [] => .next (s.translateLoad part object base pf pv)
            | _, _ => refuse 4 0

/-- CAIRN_WAIT_RESOLVE (R80): a load that waits for a translation takes its outcome once it has ended. -/
def execCairnWaitResolve (part load : Nat) (s : State) : Out :=
  match s.clearings.find? (fun e => e.2.part == part && e.2.outcome.isSome && !e.2.waiting.isEmpty) with
  | none => .next s
  | some (k, c) =>
    match c.waiting[load]? with
    | none => .next s
    | some (file, base) =>
      let left := c.waiting.eraseIdx load
      let s := { s with clearings := if left.isEmpty then s.clearings.erase k else s.clearings.set k { c with waiting := left } }
      match c.outcome with
      | some (0, _) =>
        let place := ((sectionsOf file).find? (·.ty == 1)).map (·.place)
        .next (s.install part file base { words := c.out.reverse.map (·.toNat), place := place.getD 0 } 0 2).1
      | some (code, detail) => .next (s.answerWith (statusRecord 0 0 code 0xFFFF detail))
      | none => .next s

/-! ### Revocation and unloading -/

/-- The task is of an object of a partition. -/
def Hart.ofObject (h : Hart) (p : Nat) (obj : Word) : Bool :=
  match h.task with | some t => t.desc.object == obj && t.desc.part == p | none => false

namespace State

/-- Unbind a mailbox (R99): what it holds is gone, once a faulted one has sent its message (R100); its generation stays, so that old
handles are stale. -/
def unbindMailbox (s : State) (p i : Nat) : State :=
  let s := s.sendFault p i
  let m := s.mailbox p i
  let s := s.setMailbox p i { gen := m.gen }
  s.setPartition p { s.partition p with heldOrder := (s.partition p).heldOrder.filter (· ≠ i) }

/-- Revoke an object (R83, R84): its handle is invalid and its mailboxes are unbound; tasks of it parked in records end
with code-integrity status. A second failure changes nothing. -/
def revoke (s : State) (p : Nat) (obj : Word) : State :=
  match (s.partition p).objects.find obj with
  | none => s
  | some o =>
    if o.revoked then s
    else
      let s := s.setPartition p { s.partition p with objects := (s.partition p).objects.set obj { o with revoked := true } }
      let s := (((s.partition p).mailboxes.filter fun e => e.2.state != .unbound && e.2.object == obj).map (·.1)).foldl
        (fun s i => s.unbindMailbox p i) s
      let mine (h : Hart) : Bool := h.ofObject p obj
      let ended := (s.clusters.map fun e => (e.2.misses.map fun m => m.records.filter fun r => mine r.1).flatten).flatten
      let s := { s with clusters := s.clusters.map fun e =>
                          (e.1, { e.2 with misses := e.2.misses.map fun m => { m with records := m.records.filter fun r => !mine r.1 } }) }
      ended.foldl (fun s r => match r.1.task with
        | some t => s.endTrapped r.2 r.1 t { cls := .integrity } false
        | none => s) s

end State

/-- Matrix work of a parked task of an object has not completed (R278): the task could not end yet (R320). -/
def State.recordsWork (s : State) (p : Nat) (obj : Word) : Bool :=
  s.clusters.any fun e => e.2.misses.any fun m => m.records.any fun r => r.1.ofObject p obj && r.1.working s.now

/-- PAGE_HASH_CHECK (R82): the hash and the admission check of a native page that a fetch has touched. -/
def execPageHashCheck (part : Nat) (obj : Word) (page : Nat) (s : State) : Out :=
  match (s.partition part).objects.find obj with
  | none => .next s
  | some o =>
    if o.revoked || o.hashing ≠ some page || s.recordsWork part obj then .next s
    else if o.digests.getD page [] == pageHash o.image page && admitsPage s.reducedService (wordsOf o.image) page then
      let s := s.setPartition part { s.partition part with objects := (s.partition part).objects.set obj
                                                             { o with hashing := none, passed := insertRising o.passed page } }
      .next (s.mapRange part (o.base.toNat + 65536 * page) [o.frames.getD page 0]
        ((o.image.drop (65536 * page)).take 65536) false false true)
    else .next (s.revoke part obj)

/-- REVOCATION_NOTICE (R83): a core learns that an object is revoked. -/
def execRevocationNotice (core : Nat) (obj : Word) (s : State) : Out :=
  if s.partitions.any fun e => (e.2.objects.find obj).any (·.revoked) then
    let k := s.core core
    .next (s.setCore core { k with notices := if k.notices.contains obj then k.notices else k.notices ++ [obj] })
  else .next s

/-- IMAGE_UNLOAD (R85): the tenant unloads an object; its mailboxes are unbound, its pages unmapped and freed. -/
def execImageUnload (part : Nat) (obj : Word) (s : State) : Out :=
  match (s.partition part).objects.find obj with
  | none => .next s
  | some o =>
    let s := (((s.partition part).mailboxes.filter fun e => e.2.state != .unbound && e.2.object == obj).map (·.1)).foldl
      (fun s i => s.unbindMailbox part i) s
    let q := s.partition part
    let s := s.setPartition part { q with objects := q.objects.erase obj, framesLeft := q.framesLeft ++ o.frames }
    let after := bits (o.base.toNat + (o.words * 8 + 65535) / 65536 * 65536) 16 41
    let guard (e : TlbEntry) : Bool := e.vpn == after && !e.r && !e.w && !e.x
    let keep (l : List TlbEntry) : List TlbEntry := l.filter fun e => e.asid ≠ o.asid || !(o.frames.contains e.pfn || guard e)
    .next { s with
            dies := s.dies.map fun e => (e.1, { e.2 with tlb := keep e.2.tlb })
            clusters := s.clusters.map fun e => (e.1, { e.2 with tlb := keep e.2.tlb, victims := keep e.2.victims })
            cores := s.cores.map fun e => (e.1, { e.2 with tlb := keep e.2.tlb }) }

end Sys2Proof.Machine
end

