-- ==== Sys2Proof/Machine/Numbers.lean ====
section
/-! DEFINITION. The number formats and the arithmetic of 07 (R159 to R185): the value of every code, one rounding of an
exact result, conversions, and the single operations of R180 and R204. Exact values are dyadic numbers; a result that
is not dyadic is carried to more bits than any format holds with a sticky mark for the rest. -/

namespace Sys2Proof.Machine

/-! ### Formats and values -/

/-- How the bits of an element are read (R33, R34, R159 to R166). -/
inductive NumFmt where
  /-- an integer of width w -/
  | int (w : Nat) (signed : Bool)
  /-- a binary interchange format: width and trailing bits (R160) -/
  | ieee (w t : Nat)
  /-- FP4 E2M1 (R163) -/
  | f4
  /-- binary8 of precision p (R165, R166) -/
  | b8 (p : Nat) (unsigned extended : Bool)
deriving DecidableEq, Repr

/-- The format that a TYPE code names, with the storage code of a binary8 (R33, R34). -/
def NumFmt.ofTy (ty : BitVec 4) (b8 : BitVec 5) : NumFmt :=
  match ty.toNat with
  | 8 => .ieee 64 52
  | 9 => .ieee 32 23
  | 10 => .ieee 16 10
  | 11 => .ieee 16 7
  | 12 => .f4
  | 13 => .int 4 true
  | 14 => .b8 ((b8.toNat - 4) % 7 + 1) (14 ≤ b8.toNat - 4) (((b8.toNat - 4) / 7) % 2 == 1)
  | _ => .int (tyWidth ty) (tySigned ty)

/-- The width of an element in bits. -/
def NumFmt.width : NumFmt → Nat
  | .int w _ => w
  | .ieee w _ => w
  | .f4 => 4
  | .b8 _ _ _ => 8

/-- A floating or binary8 format, as against an integer one. -/
def NumFmt.isFloat : NumFmt → Bool
  | .int _ _ => false
  | _ => true

/-- A value: a NaN, an infinity, or (-1)^neg m 2^e. A zero keeps its sign. -/
inductive Num where
  | nan (signalling : Bool)
  | inf (neg : Bool)
  | fin (neg : Bool) (m : Nat) (e : Int)
deriving DecidableEq, Repr

/-- The trailing bits of a floating format. -/
def NumFmt.trail : NumFmt → Nat
  | .int _ _ => 0
  | .ieee _ t => t
  | .f4 => 1
  | .b8 p _ _ => p - 1

/-- The exponent bias of a floating format (R160, R163, R165, R166). -/
def NumFmt.bias : NumFmt → Int
  | .int _ _ => 0
  | .ieee w t => 2 ^ (w - t - 2) - 1
  | .f4 => 1
  | .b8 p u _ => if u then 2 ^ (8 - p) else 2 ^ (7 - p)

/-- The magnitude code of the largest finite value M (R160, R163, R167). -/
def NumFmt.maxCode : NumFmt → Nat
  | .int w _ => 2 ^ w - 1
  | .ieee w t => (2 ^ (w - 1 - t) - 1) * 2 ^ t - 1
  | .f4 => 7
  | .b8 _ u x => (if u then 0xFE else 0x7F) - (if x then 1 else 0)

/-- The value of a magnitude code as m 2^e (R161, R163, R165). -/
def NumFmt.magnitude (f : NumFmt) (code : Nat) : Nat × Int :=
  let t := f.trail
  let e := code / 2 ^ t
  let r := code % 2 ^ t
  if e = 0 then (r, 1 - f.bias - t) else (2 ^ t + r, e - f.bias - t)

/-- A two's-complement pattern of w bits as an integer. -/
def signedOf (w : Nat) (x : Nat) : Int :=
  let y := x % 2 ^ w
  if 2 * y < 2 ^ w then y else (y : Int) - 2 ^ w

/-- An integer as a value; a zero is +0. -/
def Num.ofInt (z : Int) : Num := .fin (z < 0) z.natAbs 0

/-- The value of a code (R159 to R166). -/
def NumFmt.value (f : NumFmt) (code : Nat) : Num :=
  match f with
  | .int w s => Num.ofInt (if s then signedOf w code else ((code % 2 ^ w : Nat) : Int))
  | .ieee w t =>
    let c := code % 2 ^ w
    let neg := 2 ^ (w - 1) ≤ c
    let mag := c % 2 ^ (w - 1)
    let top := (2 ^ (w - 1 - t) - 1) * 2 ^ t
    if mag = top then .inf neg
    else if top < mag then .nan (mag % 2 ^ t < 2 ^ (t - 1))
    else
      let v := (NumFmt.ieee w t).magnitude mag
      .fin neg v.1 v.2
  | .f4 =>
    let v := NumFmt.f4.magnitude (code % 8)
    .fin (8 ≤ code % 16) v.1 v.2
  | .b8 p false x =>
    let c := code % 256
    if c = 0x80 then .nan false
    else if x && c % 128 = 127 then .inf (128 ≤ c)
    else
      let v := (NumFmt.b8 p false x).magnitude (c % 128)
      .fin (128 ≤ c) v.1 v.2
  | .b8 p true x =>
    let c := code % 256
    if c = 0xFF then .nan false
    else if x && c = 0xFE then .inf false
    else
      let v := (NumFmt.b8 p true x).magnitude c
      .fin false v.1 v.2

/-- The NaN that a format delivers (R160, R162, R165, R166); +0 for FP4 (R175). -/
def NumFmt.nanCode : NumFmt → Nat
  | .int _ _ => 0
  | .ieee w t => (2 ^ (w - 1 - t) - 1) * 2 ^ t + 2 ^ (t - 1)
  | .f4 => 0
  | .b8 _ u _ => if u then 0xFF else 0x80

/-- A signed zero: binary8 has only 0x00 (R165, R173). -/
def NumFmt.zeroCode (f : NumFmt) (neg : Bool) : Nat :=
  match f with
  | .ieee w _ => if neg then 2 ^ (w - 1) else 0
  | .f4 => if neg then 8 else 0
  | _ => 0

/-- A sign and a magnitude code as a code. -/
def NumFmt.signed (f : NumFmt) (neg : Bool) (mag : Nat) : Nat :=
  match f with
  | .b8 _ true _ => mag
  | .b8 _ false _ => if mag = 0 then 0 else if neg then 128 + mag else mag
  | .f4 => if neg then 8 + mag else mag
  | .ieee w _ => if neg then 2 ^ (w - 1) + mag else mag
  | .int _ _ => mag

/-- An infinity of the format, where it has one: IEEE and extended binary8. -/
def NumFmt.infCode (f : NumFmt) (neg : Bool) : Option Nat :=
  match f with
  | .ieee w t => some (f.signed neg ((2 ^ (w - 1 - t) - 1) * 2 ^ t))
  | .b8 _ u true => if u && neg then none else some (f.signed neg (f.maxCode + 1))
  | _ => none

/-! ### Flags and modes -/

/-- The five sticky flags of a lane (R48, R178). -/
structure Flags where
  nv : Bool := false
  dz : Bool := false
  ovf : Bool := false
  uf : Bool := false
  nx : Bool := false
deriving DecidableEq, Repr

/-- The flags of two steps together. -/
def Flags.or (a b : Flags) : Flags :=
  ⟨a.nv || b.nv, a.dz || b.dz, a.ovf || b.ovf, a.uf || b.uf, a.nx || b.nx⟩

/-- NV alone. -/
def Flags.invalid : Flags := { nv := true }

/-- The flags as the five bits of a lane: NV lowest, NX highest (R48). -/
def Flags.code (f : Flags) : Nat :=
  (if f.nv then 1 else 0) + (if f.dz then 2 else 0) + (if f.ovf then 4 else 0) + (if f.uf then 8 else 0)
    + (if f.nx then 16 else 0)

/-- The rounding modes of R35, DYN resolved. -/
inductive Mode where
  | rne | rtz | rdn | rup | rmm
deriving DecidableEq, Repr

/-- The mode of an RND code with `rmode` for DYN (R35). -/
def Mode.ofCode (rnd : BitVec 3) (rmode : BitVec 3) : Mode :=
  match (if rnd = 7#3 then rmode else rnd).toNat with
  | 1 => .rtz
  | 2 => .rdn
  | 3 => .rup
  | 4 => .rmm
  | _ => .rne

/-! ### One rounding (R171 to R174) -/

/-- An exact non-zero magnitude: (m + d) 2^e with 0 <= d < 1, and d > 0 exactly when sticky. -/
structure Mag where
  m : Nat
  e : Int
  sticky : Bool
deriving DecidableEq, Repr

/-- Floor of a magnitude over 2^q, its bit below, and whether anything lies below that bit. -/
def Mag.split (x : Mag) (q : Int) : Nat × Bool × Bool :=
  if x.e ≤ q then
    let k := (q - x.e).toNat
    if k = 0 then (x.m, false, x.sticky)
    else (x.m / 2 ^ k, x.m / 2 ^ (k - 1) % 2 == 1, x.sticky || x.m % 2 ^ (k - 1) != 0)
  else (x.m * 2 ^ (x.e - q).toNat, false, x.sticky)

/-- Whether a magnitude is above, and whether it is at or above, m 2^e. -/
def Mag.compare (x : Mag) (m : Nat) (e : Int) : Ordering :=
  let lo := min x.e e
  let a := x.m * 2 ^ (x.e - lo).toNat
  let b := m * 2 ^ (e - lo).toNat
  if a < b then .lt else if a = b then (if x.sticky then .gt else .eq) else .gt

/-- Whether a mode takes the upper neighbour of the magnitude: half is the bit below, rest what lies under it, odd the
parity of the lower neighbour's code (R171). -/
def Mode.up (md : Mode) (neg half rest odd : Bool) : Bool :=
  match md with
  | .rne => half && (rest || odd)
  | .rmm => half
  | .rtz => false
  | .rdn => neg && (half || rest)
  | .rup => !neg && (half || rest)

/-- The exponent of the leading one of a magnitude. -/
def Mag.top (x : Mag) : Int := x.e + Nat.log2 x.m

/-- The lower neighbour's magnitude code and the upper bits that decide the rounding. -/
def NumFmt.lower (f : NumFmt) (x : Mag) : Nat × Bool × Bool :=
  let t : Int := f.trail
  let q := max (x.top - t) (1 - f.bias - t)
  let s := x.split q
  let code := if s.1 < 2 ^ f.trail then s.1 else ((q + t + f.bias).toNat) * 2 ^ f.trail + (s.1 - 2 ^ f.trail)
  (code, s.2.1, s.2.2)

/-- Tininess after rounding (R173): the magnitude, rounded with an unbounded exponent, lies below the smallest normal
value. Where P = 1 and no code exists there, a tie goes by the code as the exponent would continue it (log entry 71). -/
def NumFmt.tiny (f : NumFmt) (md : Mode) (neg : Bool) (x : Mag) : Bool :=
  let t : Int := f.trail
  let q := x.top - t
  if x.top < 1 - f.bias then
    let s := x.split q
    let odd := if f.trail = 0 then ((q + t + f.bias) % 2 == 1) else s.1 % 2 == 1
    let r := if md.up neg s.2.1 s.2.2 odd then s.1 + 1 else s.1
    decide ((r : Int) * 2 ^ (q - (min q (1 - f.bias))).toNat < 2 ^ (1 - f.bias - (min q (1 - f.bias))).toNat)
  else false

/-- The overflow test of R172: M + u/2 for RNE and RMM, M for the mode that rounds outward, never otherwise. -/
def NumFmt.overflows (f : NumFmt) (md : Mode) (neg : Bool) (x : Mag) : Bool :=
  let mx := f.magnitude f.maxCode
  let pv := f.magnitude (f.maxCode - 1)
  match md with
  | .rne | .rmm =>
    let lo := min mx.2 pv.2 - 1
    let mm := mx.1 * 2 ^ (mx.2 - lo).toNat
    let pp := pv.1 * 2 ^ (pv.2 - lo).toNat
    x.compare (mm + (mm - pp) / 2) lo != .lt
  | .rup => !neg && x.compare mx.1 mx.2 == .gt
  | .rdn => neg && x.compare mx.1 mx.2 == .gt
  | .rtz => false

/-- What an overflow delivers (R172). -/
def NumFmt.overflowCode (f : NumFmt) (sat neg : Bool) : Nat :=
  if sat then f.signed neg f.maxCode
  else match f, f.infCode neg with
    | .f4, _ => f.signed neg f.maxCode
    | _, some c => c
    | _, none => f.nanCode

/-- One rounding of a non-zero exact result into a floating format (R171 to R174). -/
def NumFmt.roundMag (f : NumFmt) (md : Mode) (sat neg : Bool) (x : Mag) : Nat × Flags :=
  let mx := f.magnitude f.maxCode
  if x.compare mx.1 mx.2 == .gt then
    if f.overflows md neg x then (f.overflowCode sat neg, { ovf := true, nx := true })
    else (f.signed neg f.maxCode, { nx := true })
  else
    let l := f.lower x
    let inexact := l.2.1 || l.2.2
    let code := if md.up neg l.2.1 l.2.2 (l.1 % 2 == 1) then l.1 + 1 else l.1
    (if code = 0 then f.zeroCode neg else f.signed neg code,
      { nx := inexact, uf := inexact && f.tiny md neg x })

/-! ### Exact results -/

/-- An exact result before its one rounding: a special value with its flags, or a signed magnitude. -/
inductive Exact where
  | nan (fl : Flags)
  | inf (neg : Bool) (fl : Flags)
  | zero (neg : Bool)
  | mag (neg : Bool) (x : Mag)
deriving DecidableEq, Repr

/-- A dyadic number as an exact result; zero takes the given sign. -/
def Exact.ofInt (z : Int) (e : Int) (zeroNeg : Bool) : Exact :=
  if z = 0 then .zero zeroNeg else .mag (z < 0) ⟨z.natAbs, e, false⟩

/-- The flags of NaN operands: NV for a signalling one (R162). -/
def nanFlags (l : List Num) : Flags := if l.any (· == .nan true) then Flags.invalid else {}

/-- Some operand is a NaN. -/
def anyNan (l : List Num) : Bool := l.any (fun x => match x with | .nan _ => true | _ => false)

/-- Deliver an exact result in a format: one rounding, no payload (R162, R171 to R175). A negative value into an
unsigned binary8 follows R175. -/
def NumFmt.deliver (f : NumFmt) (md : Mode) (sat : Bool) (x : Exact) : Nat × Flags :=
  match x with
  | .nan fl => (f.nanCode, match f with | .f4 => { fl with nv := true } | _ => fl)
  | .zero neg => (f.zeroCode neg, {})
  | .inf neg fl =>
    match f, f.infCode neg with
    | .b8 _ true _, c =>
      if neg then (if sat then (0, { fl with nx := true }) else (0xFF, { fl with nv := true }))
      else match c with
        | some v => (v, fl)
        | none => (if sat then f.maxCode else 0xFF, { fl with nv := true })
    | _, some v => (v, fl)
    | .f4, none => (f.signed neg f.maxCode, { fl with nv := true })
    | _, none => (if sat then f.signed neg f.maxCode else f.nanCode, { fl with nv := true })
  | .mag neg m =>
    match f with
    | .b8 _ true _ =>
      if neg then (if sat then (0, { nx := true }) else (0xFF, Flags.invalid)) else f.roundMag md sat false m
    | _ => f.roundMag md sat neg m

/-- The signed integer of a finite value over 2^lo, for lo at most its exponent. -/
def scaled (neg : Bool) (m : Nat) (e lo : Int) : Int :=
  let v : Int := (m * 2 ^ (e - lo).toNat : Nat)
  if neg then -v else v

/-- The exact sum of two values (R180): x + (-x) is +0, except under RDN, where it is -0. -/
def exactAdd (md : Mode) (a b : Num) : Exact :=
  if anyNan [a, b] then .nan (nanFlags [a, b])
  else match a, b with
    | .inf n, .inf n' => if n = n' then .inf n {} else .nan Flags.invalid
    | .inf n, _ => .inf n {}
    | _, .inf n => .inf n {}
    | .fin n m e, .fin n' m' e' =>
      if m = 0 ∧ m' = 0 then .zero (if n = n' then n else md == .rdn)
      else
        let lo := min e e'
        Exact.ofInt (scaled n m e lo + scaled n' m' e' lo) lo (md == .rdn)
    | _, _ => .nan {}

/-- The value with its sign inverted; a NaN stays a NaN. -/
def Num.neg : Num → Num
  | .nan s => .nan s
  | .inf n => .inf (!n)
  | .fin n m e => .fin (!n) m e

/-- The exact product of two values as a value (never rounded), or none for the invalid 0 x infinity. -/
def exactProduct (a b : Num) : Option Num :=
  match a, b with
  | .nan s, .nan s' => some (.nan (s || s'))
  | .nan s, _ => some (.nan s)
  | _, .nan s => some (.nan s)
  | .inf n, .inf n' => some (.inf (n != n'))
  | .inf n, .fin n' m _ => if m = 0 then none else some (.inf (n != n'))
  | .fin n m _, .inf n' => if m = 0 then none else some (.inf (n != n'))
  | .fin n m e, .fin n' m' e' => some (.fin (n != n') (m * m') (e + e'))

/-- A value as an exact result. -/
def Num.exact : Num → Exact
  | .nan s => .nan (if s then Flags.invalid else {})
  | .inf n => .inf n {}
  | .fin n m e => if m = 0 then .zero n else .mag n ⟨m, e, false⟩

/-- The exact product (R180). -/
def exactMul (a b : Num) : Exact :=
  match exactProduct a b with
  | none => .nan Flags.invalid
  | some p => if anyNan [a, b] then .nan (nanFlags [a, b]) else p.exact

/-- The exact fused a x b + c (R180): a product 0 x infinity is invalid whatever c is. -/
def exactFma (md : Mode) (a b c : Num) : Exact :=
  match exactProduct a b with
  | none => .nan Flags.invalid
  | some p => if anyNan [a, b, c] then .nan (nanFlags [a, b, c]) else exactAdd md p c

/-- Bits to which a result that is not dyadic is carried: more than twice any format's precision. -/
def carryBits : Nat := 320

/-- The exact quotient (R178, R204). -/
def exactDiv (a b : Num) : Exact :=
  if anyNan [a, b] then .nan (nanFlags [a, b])
  else match a, b with
    | .inf _, .inf _ => .nan Flags.invalid
    | .inf n, .fin n' _ _ => .inf (n != n') {}
    | .fin n _ _, .inf n' => .zero (n != n')
    | .fin n m e, .fin n' m' e' =>
      if m' = 0 then (if m = 0 then .nan Flags.invalid else .inf (n != n') { dz := true })
      else if m = 0 then .zero (n != n')
      else
        let k := carryBits + Nat.log2 m'
        .mag (n != n') ⟨m * 2 ^ k / m', e - e' - k, m * 2 ^ k % m' != 0⟩
    | _, _ => .nan {}

/-- The integer square root, bit by bit from 2^k down. -/
def isqrtFrom (n : Nat) : Nat → Nat → Nat
  | 0, r => if (r + 1) * (r + 1) ≤ n then r + 1 else r
  | k + 1, r => isqrtFrom n k (if (r + 2 ^ (k + 1)) * (r + 2 ^ (k + 1)) ≤ n then r + 2 ^ (k + 1) else r)

/-- Floor of the square root. -/
def isqrt (n : Nat) : Nat := isqrtFrom n (Nat.log2 n / 2 + 1) 0

/-- The exact square root (R204, IEEE 754-2019). -/
def exactSqrt (a : Num) : Exact :=
  match a with
  | .nan s => .nan (if s then Flags.invalid else {})
  | .inf n => if n then .nan Flags.invalid else .inf false {}
  | .fin n m e =>
    if m = 0 then .zero n
    else if n then .nan Flags.invalid
    else
      let odd : Nat := (e % 2).toNat
      let k := carryBits
      let v := m * 2 ^ (odd + 2 * k)
      let r := isqrt v
      .mag false ⟨r, (e - odd) / 2 - k, r * r != v⟩

/-- The exact reciprocal (R204). -/
def exactRcp (a : Num) : Exact := exactDiv (.fin false 1 0) a

/-- The exact reciprocal square root (R204). -/
def exactRsqrt (a : Num) : Exact :=
  match a with
  | .nan s => .nan (if s then Flags.invalid else {})
  | .inf n => if n then .nan Flags.invalid else .zero false
  | .fin n m e =>
    if m = 0 then .inf n { dz := true }
    else if n then .nan Flags.invalid
    else
      let odd : Nat := (e % 2).toNat
      let v := m * 2 ^ odd
      let k := carryBits + Nat.log2 v
      let r := isqrt (2 ^ (2 * k) / v)
      .mag false ⟨r, -((e - odd) / 2) - k, r * r * v != 2 ^ (2 * k)⟩

/-- Fixed-point sum of 1/(k 2^k) for k from 1: the natural logarithm of 2, times 2^carryBits. -/
def ln2Fixed : Nat → Nat
  | 0 => 0
  | k + 1 => 2 ^ carryBits / ((k + 1) * 2 ^ (k + 1)) + ln2Fixed k

/-- Fixed-point exponential series: the k-th term is term y / 2^carryBits / k. -/
def expSeries (y : Nat) : Nat → Nat → Nat → Nat
  | 0, _, _ => 0
  | fuel + 1, k, term => term + expSeries y fuel (k + 1) (term * y / 2 ^ carryBits / (k + 1))

/-- The exact power of two (R204). A result beyond any format's range keeps only that it is beyond. -/
def exactExp2 (a : Num) : Exact :=
  match a with
  | .nan s => .nan (if s then Flags.invalid else {})
  | .inf n => if n then .zero false else .inf false {}
  | .fin n m e =>
    if m = 0 then .mag false ⟨1, 0, false⟩
    else if 12 ≤ e + Nat.log2 m then .mag false ⟨1, if n then -4096 else 4096, true⟩
    else
      let k := carryBits
      let z : Int := if 0 ≤ e + k then scaled n m (e + k) 0 else if n then -((m / 2 ^ (-(e + k)).toNat : Nat) : Int) - 1
        else ((m / 2 ^ (-(e + k)).toNat : Nat) : Int)
      let whole := z / 2 ^ k
      let part := (z % 2 ^ k).toNat
      if 0 ≤ e + k ∧ part = 0 then .mag false ⟨1, whole, false⟩
      else .mag false ⟨expSeries (part * ln2Fixed (k + 8) / 2 ^ k) 96 0 (2 ^ k), whole - k, true⟩

/-- Fixed-point series of the inverse hyperbolic tangent: sum of z^(2i+1)/(2i+1). -/
def atanhSeries (z2 : Nat) : Nat → Nat → Nat → Nat
  | 0, _, _ => 0
  | fuel + 1, i, pw => pw / (2 * i + 1) + atanhSeries z2 fuel (i + 1) (pw * z2 / 2 ^ carryBits)

/-- The exact base-2 logarithm (R204): exact for a power of two, irrational otherwise. -/
def exactLog2 (a : Num) : Exact :=
  match a with
  | .nan s => .nan (if s then Flags.invalid else {})
  | .inf n => if n then .nan Flags.invalid else .inf false {}
  | .fin n m e =>
    if m = 0 then .inf true { dz := true }
    else if n then .nan Flags.invalid
    else
      let l := Nat.log2 m
      let whole := e + l
      if m = 2 ^ l then Exact.ofInt whole 0 false
      else
        let k := carryBits
        let z := (m - 2 ^ l) * 2 ^ k / (m + 2 ^ l)
        let ln := 2 * atanhSeries (z * z / 2 ^ k) 128 0 z
        let v : Int := whole * 2 ^ k + ((ln * 2 ^ k / ln2Fixed (k + 8) : Nat) : Int)
        if v < 0 then .mag true ⟨(-v).toNat - 1, -k, true⟩ else .mag false ⟨v.toNat, -k, true⟩

/-! ### Conversions (R175 to R177) and comparisons (R37) -/

/-- The least and the greatest value of an integer type (R159). -/
def intMin (w : Nat) (signed : Bool) : Int := if signed then -(2 ^ (w - 1)) else 0
/-- The greatest value of an integer type (R159). -/
def intMax (w : Nat) (signed : Bool) : Int := if signed then 2 ^ (w - 1) - 1 else 2 ^ w - 1

/-- A value clamped to an integer type's range. -/
def clampInt (w : Nat) (signed : Bool) (x : Int) : Int := max (intMin w signed) (min (intMax w signed) x)

/-- The w-bit pattern of an integer. -/
def wrapInt (w : Nat) (x : Int) : Nat := (x % 2 ^ w).toNat

/-- Out-of-range result of a conversion to an integer (R176): below or above the range. -/
def intOut (w : Nat) (signed sat below : Bool) : Nat :=
  if sat then wrapInt w (if below then intMin w signed else intMax w signed)
  else if signed then 2 ^ (w - 1) else 2 ^ w - 1

/-- Convert an exact floating result to an integer (R176). -/
def toInt (w : Nat) (signed : Bool) (md : Mode) (sat : Bool) (x : Exact) : Nat × Flags :=
  match x with
  | .nan _ => (0, Flags.invalid)
  | .inf neg _ => (intOut w signed sat neg, Flags.invalid)
  | .zero _ => (0, {})
  | .mag neg m =>
    let s := m.split 0
    let r : Int := if md.up neg s.2.1 s.2.2 (s.1 % 2 == 1) then s.1 + 1 else s.1
    let z := if neg then -r else r
    if z < intMin w signed then (intOut w signed sat true, Flags.invalid)
    else if intMax w signed < z then (intOut w signed sat false, Flags.invalid)
    else (wrapInt w z, { nx := s.2.1 || s.2.2 })

/-- Convert an exact result that is not an integer type's (R175, R176). -/
def NumFmt.fromExact (dst : NumFmt) (md : Mode) (sat : Bool) (x : Exact) : Nat × Flags :=
  match dst with
  | .int w s => toInt w s md sat x
  | _ => dst.deliver md sat x

/-- Convert a code from one format to another (R175 to R177, R201). -/
def convert (src dst : NumFmt) (md : Mode) (sat : Bool) (code : Nat) : Nat × Flags :=
  match src, dst with
  | .int w s, .int w' s' =>
    let x : Int := if s then signedOf w code else ((code % 2 ^ w : Nat) : Int)
    (wrapInt w' (if sat then clampInt w' s' x else x), {})
  | _, _ => dst.fromExact md sat (src.value code).exact

/-- The order of two finite or infinite values; none when either is a NaN. -/
def Num.cmp (a b : Num) : Option Ordering :=
  match a, b with
  | .nan _, _ => none
  | _, .nan _ => none
  | .inf n, .inf n' => some (if n = n' then .eq else if n then .lt else .gt)
  | .inf n, .fin _ _ _ => some (if n then .lt else .gt)
  | .fin _ _ _, .inf n => some (if n then .gt else .lt)
  | .fin n m e, .fin n' m' e' =>
    let lo := min e e'
    let x := scaled n m e lo
    let y := scaled n' m' e' lo
    some (if x < y then .lt else if x = y then .eq else .gt)

/-- A condition code on two values (R37). -/
def condHolds (cond : BitVec 4) (a b : Num) : Bool :=
  match cond.toNat, a.cmp b with
  | 0, o => o == some .eq
  | 1, o => o != some .eq
  | 2, o => o == some .lt
  | 3, o => o == some .lt || o == some .eq
  | 4, o => o == some .gt
  | 5, o => o == some .gt || o == some .eq
  | 6, o => o == none
  | 7, o => o != none
  | _, _ => false

/-- The class code of `vclass` (R197). -/
def classCode (f : NumFmt) (code : Nat) : Nat :=
  match f.value code with
  | .nan s => if s then 2 ^ 8 else 2 ^ 9
  | .inf n => if n then 2 ^ 0 else 2 ^ 7
  | .fin n m _ =>
    let mag := if n then code % 2 ^ (f.width - 1) else code % 2 ^ f.width
    if m = 0 then (if n then 2 ^ 3 else 2 ^ 4)
    else if mag < 2 ^ f.trail then (if n then 2 ^ 2 else 2 ^ 5)
    else (if n then 2 ^ 1 else 2 ^ 6)

/-! ### Summation (R181 to R185, R203) -/

/-- The exact sum of finite values. An exact zero has the sign of IEEE addition: -0 when every term is -0, and otherwise -0 only
where the mode is RDN and not every term is +0 (log entry 70). -/
def exactSum (md : Mode) (l : List Num) : Exact :=
  let lo := l.foldl (fun a x => match x with | .fin _ _ e => min a e | _ => a) 0
  let z := l.foldl (fun a x => match x with | .fin n m e => a + scaled n m e lo | _ => a) (0 : Int)
  let allNeg := l.all (fun x => match x with | .fin n m _ => n && m == 0 | _ => false)
  let allPos := l.all (fun x => match x with | .fin n m _ => !n && m == 0 | _ => false)
  Exact.ofInt z lo (if allNeg then true else if allPos then false else md == .rdn)

/-- The block rule of R181 for a set of products: none is the invalid product 0 x infinity. -/
def blockSum (md : Mode) (ps : List (Option Num)) : Exact :=
  let vals := ps.filterMap id
  let invalid := ps.any Option.isNone
  if invalid || anyNan vals then .nan { nanFlags vals with nv := invalid || (nanFlags vals).nv }
  else
    let pos := vals.contains (.inf false)
    let neg := vals.contains (.inf true)
    if pos && neg then .nan Flags.invalid
    else if pos then .inf false {}
    else if neg then .inf true {}
    else exactSum md vals

end Sys2Proof.Machine
end

