-- ==== Sys2Proof/Machine/Operands.lean ====
section
/-! DEFINITION. The operand forms: scalar operands by TYPE (06 R144, R146), effective addresses, vector elements and
masks (08 R186 to R188), and the lookahead window that a long-latency result lands after (06 R130 to R132). -/

namespace Sys2Proof.Machine

open Sys2Proof

/-! ### Scalar operands -/

/-- The low W bits of a register, read by the signedness of TYPE (R146). -/
def operand (ty : BitVec 4) (x : Word) : Int :=
  let n := x.toNat % 2 ^ tyWidth ty
  if tySigned ty then signedOf (tyWidth ty) n else n

/-- A W-bit pattern extended to 64 bits by the signedness of TYPE (R146). -/
def extend (ty : BitVec 4) (n : Nat) : Word :=
  if tySigned ty then BitVec.ofInt 64 (signedOf (tyWidth ty) (n % 2 ^ tyWidth ty)) else BitVec.ofNat 64 (n % 2 ^ tyWidth ty)

/-- The result of a scalar integer instruction: clamped under SAT, then wrapped to W and extended (R146). -/
def result (ty : BitVec 4) (sat : Bool) (x : Int) : Word :=
  let w := tyWidth ty
  extend ty (wrapInt w (if sat then clampInt w (tySigned ty) x else x))

/-- A 16-bit offset, sign-extended (R27). -/
def offset16 (o : BitVec 16) : Word := o.signExtend 64
/-- A 32-bit immediate, sign-extended (R146). -/
def imm64 (i : BitVec 32) : Word := i.signExtend 64
/-- A format-B target (R28). -/
def target24 (pc : Word) (o : BitVec 24) : Word := pc + 8 + 8 * o.signExtend 64
/-- The bytes of a SIZE code (R40). -/
def sizeBytes (sz : BitVec 3) : Nat := 2 ^ sz.toNat

namespace State

/-- The effective address of a format M access (R235). -/
def ea (s : State) (f : FmtM) : Word := s.getS f.a + offset16 f.offs

end State

/-! ### Vector elements (R186, R187) -/

/-- Element e of a vector register at width w. -/
def elem (w : Nat) (x : BitVec 512) (e : Nat) : Nat := bits x.toNat (w * e) w

/-- The elements of a vector register at width w, element 0 first. -/
def elems (w : Nat) (x : BitVec 512) : List Nat := (List.range (512 / w)).map (elem w x)

/-- A vector register from elements of width w. -/
def ofElems (w : Nat) (l : List Nat) : BitVec 512 :=
  BitVec.ofNat 512 (l.foldr (fun x acc => x % 2 ^ w + 2 ^ w * acc) 0)

/-- Element e is active under a mask (R187). -/
def active (w : Nat) (k : BitVec 16) (e : Nat) : Bool := k.getLsbD (e * w / 32)

/-- Active elements replaced, inactive ones kept (R187). -/
def merge (w : Nat) (k : BitVec 16) (old : BitVec 512) (f : Nat → Nat) : BitVec 512 :=
  ofElems w ((List.range (512 / w)).map fun e => if active w k e then f e else elem w old e)

/-! ### Flags of a vector register's lanes (R48, R179, R188) -/

/-- Flags by lane as the two `vxf` registers hold them. -/
def laneFlags (l : List (Nat × Flags)) : Word × Word :=
  l.foldl (fun acc e =>
    let c := BitVec.ofNat 64 (e.2.code * 2 ^ (5 * (e.1 % 8)))
    if e.1 < 8 then (acc.1 ||| c, acc.2) else (acc.1, acc.2 ||| c)) (0, 0)

/-! ### Long-latency results -/

/-- A tile's contents replaced; it keeps its holder. -/
def Core.putTile (k : Core) (slot n : Nat) (x : Tile) : Core :=
  { k with tiles := Vector.ofFn fun i =>
             if i.val = n && (k.tiles[i]).holder == some slot then { x with holder := some slot } else k.tiles[i] }

/-- One result reaches its register. -/
def State.put (s : State) (id : HartId) : Dest → State
  | .s n x => s.modHart id (·.modRegs (·.setS (BitVec.ofNat 5 n) x))
  | .v n x => s.modHart id (·.modRegs (·.setV (BitVec.ofNat 5 n) x))
  | .k n x => s.modHart id (·.modRegs (·.setK (BitVec.ofNat 3 n) x))
  | .t n x => s.setCore (hartCore id) ((s.core (hartCore id)).putTile (hartSlot id) n x)

/-- Two results for one register. -/
def Dest.same : Dest → Dest → Bool
  | .s n _, .s m _ => n == m
  | .v n _, .v m _ => n == m
  | .k n _, .k m _ => n == m
  | .t n _, .t m _ => n == m
  | _, _ => false

/-- The place of the first result whose window is over. -/
def Hart.closed (h : Hart) : Option Nat := h.pend.findIdx? fun p => p.left == 0

namespace State

/-- Land one result: an earlier instruction's result for the same register is no longer wanted (R132). -/
def land (s : State) (id : HartId) (i : Nat) : State :=
  match (s.hart id).pend[i]? with
  | none => s
  | some p =>
    let stale (q : Pending) : Pending := { q with dests := q.dests.filter fun d => !(p.dests.any d.same) }
    let s := s.modHart id fun h => { h with
      pend := (h.pend.take i).map stale ++ h.pend.drop (i + 1)
      vxfLo := h.vxfLo ||| p.flagsLo, vxfHi := h.vxfHi ||| p.flagsHi }
    p.dests.foldl (fun s d => s.put id d) s

/-- Land the results whose windows are over, oldest first, while their instructions have completed (R131). -/
def landClosed (id : HartId) (now : Nat) : Nat → State → State
  | 0, s => s
  | n + 1, s =>
    match (s.hart id).closed with
    | none => s
    | some i =>
      if ((s.hart id).pend[i]?.map (·.complete now)).getD false then landClosed id now n (s.land id i) else s

/-- Land every result of a hart, oldest first. -/
def landAll (s : State) (id : HartId) : State := (s.hart id).pend.foldl (fun s _ => s.land id 0) s

end State

/-- Flags of completed instructions go to `vxf`, whatever their windows (R49). -/
def Hart.settleFlags (h : Hart) : Hart :=
  { h with vxfLo := h.pend.foldl (fun a p => a ||| p.flagsLo) h.vxfLo,
           vxfHi := h.pend.foldl (fun a p => a ||| p.flagsHi) h.vxfHi,
           pend := h.pend.map fun p => { p with flagsLo := 0, flagsHi := 0 } }

namespace State

/-- Issue a long-latency instruction: its results land after its window and its cycles (R130, R131). -/
def later (s : State) (la : BitVec 4) (cycles : Nat) (dests : List Dest) (flags : Word × Word) (sets : Bool := false) : State :=
  s.modMe fun h => { h with pend := h.pend ++
    [{ dests, left := la.toNat, doneAt := some (s.now + cycles), sets, flagsLo := flags.1, flagsHi := flags.2 }] }

/-- The same for an instruction that ends its region and has performed its access (R140, R278). -/
def laterPerformed (s : State) (la : BitVec 4) (doneAt : Option Nat) (dests : List Dest) (flags : Word × Word)
    (sets : Bool := false) : State :=
  s.modMe fun h => { h with pend := h.pend ++
    [{ dests, left := la.toNat, doneAt, performed := true, sets, flagsLo := flags.1, flagsHi := flags.2 }] }

/-- OR flags into `vxf` at once (R49). -/
def addFlags (s : State) (flags : Word × Word) : State :=
  s.modMe fun h => { h with vxfLo := h.vxfLo ||| flags.1, vxfHi := h.vxfHi ||| flags.2 }

end State

/-- The register a scalar result lands in; s0 takes none (R43). -/
def destS (n : BitVec 5) (x : Word) : List Dest := if n = 0 then [] else [.s n.toNat x]

end Sys2Proof.Machine
end

