-- ==== Sys2Proof/Machine/Fetch.lean ====
section
/-! DEFINITION. Fetching a word (06 R129; 03 R82, R83), and the renaming of a repeated word (06 R153, R154). -/

namespace Sys2Proof.Machine

open Sys2Proof

namespace State

/-- The object of the executing hart's partition whose image holds an address. -/
def objectAt (s : State) (va : Word) : Option Object :=
  (s.myPart.objects.find? fun e => e.2.holds (s.asidOf s.cur) va).map (·.2)

/-- The notice of a revocation of the object whose image holds an address has reached the core (R83). -/
def noticed (s : State) (va : Word) : Bool :=
  match (if isSlot s.cur then s.objectAt va else none) with
  | none => false
  | some o => o.revoked && s.myCore.notices.contains o.handle

/-- What comes before translation for a word of an object's image (R82, R83): the code-integrity trap where the object
is revoked and the notice has come or the page never passed, a wait for the hash of a native page. -/
def codeCheck (s : State) (va addr : Word) : Res Unit :=
  match (if isSlot s.cur then s.objectAt va else none) with
  | none => .ok () s
  | some o =>
    let page := (va.toNat - o.base.toNat) / 65536
    let open_ := o.native && !o.passed.contains page
    if o.revoked && (s.myCore.notices.contains o.handle || open_) then .stop (s.raiseAt .integrity addr)
    else if !open_ then .ok () s
    else
      let p := s.partOf s.cur
      let s := match o.hashing with
        | some _ => s
        | none => s.setPartition p { s.partition p with objects := (s.partition p).objects.set o.handle { o with hashing := some page } }
      .stop (s.stall .fetch)

/-- Bring the line of an address into the instruction cache of a core (R129); its storage is claimed (R221). -/
def fillLine (s : State) (core asid : Nat) (va : Word) : State :=
  let c := s.core core
  let lines := c.icache.filter (· ≠ (asid, va.toNat / 128)) ++ [(asid, va.toNat / 128)]
  (s.setCore core { c with icache := lines.drop (lines.length - 512) }).reclaim (core / 32)

/-- A fetch that misses the L1 TLB of a slot's core waits while a lower level answers (R125, R129). -/
def fetchEntry (s : State) (va : Word) : Res Unit :=
  if !isSlot s.cur || (s.core (hartCore s.cur)).tlb.any (·.covers (s.asidOf s.cur) va.toNat) then .ok () s
  else match s.lookup s.cur (s.asidOf s.cur) va.toNat with
    | some (_, s) => .stop (s.stall .fetch)
    | none => .ok () s

/-- The word at a hart's pc as the TLBs stand, and 0 where none of them maps it (R321; log entry 91). -/
def wordAtPc (s : State) (id : HartId) : Nat :=
  let h := s.hart id
  match h.word, h.regs.rep.bind fun r => r.words[r.j]? with
  | some w, _ | none, some w => w.1
  | none, none =>
    match s.lookup id (s.asidOf id) h.pc.toNat with
    | some (e, s) => (s.mem.nat (e.physical h.pc.toNat) 8)
    | none => 0

/-- Take the watchdog trap at a hart (R143): the report names the word at pc (R321). -/
def watchdogTrap (s : State) (id : HartId) : State :=
  (s.modHart id fun h => { h with insn := BitVec.ofNat 64 (s.wordAtPc id) }).trapAt id { cls := .watchdog }

/-- Fetch the word at an address (R129, R319): code integrity, page fault, protection, poison, then the line. `addr` is
what a code-integrity report gives as ADDR. The entry tells whether block signatures are checked. -/
def fetchWord (s : State) (va addr : Word) : Res (Nat × TlbEntry) :=
  (s.codeCheck va addr).bind fun _ s =>
  (s.fetchEntry va).bind fun _ s =>
  (s.translate va .x 3).bind fun t s =>
  let s := s.meetErrors t.1 8
  if s.mem.bad (t.1 / 128 * 128) 128 then .stop (s.poisonGlobal va)
  else if isSlot s.cur && !s.myCore.icache.contains (s.asidOf s.cur, va.toNat / 128) then
    (s.useDie (t.1 / 128 * 128) 128).bind fun _ s => .stop (s.stall .fetch)
  else (if isSlot s.cur then .ok () s else s.useDie (t.1 / 128 * 128) 128).bind fun _ s => .ok ((if s.keyed t.2.key t.1 8 then s else s.rekey t.2.key t.1 8).mem.nat t.1 8, t.2) s

end State

/-- INSTRUCTION_CACHE_FILL (R129): a line that a slot waits for arrives, that of its word or the next one, which a
`rep` reads its body from. -/
def execInstructionCacheFill (h : HartId) (s : State) : Out :=
  let x := s.hart h
  let missing (va : Word) : Bool := !(s.core (hartCore h)).icache.contains (s.asidOf h, va.toNat / 128)
  if isSlot h && x.task.isSome && x.wait == some .fetch then
    match [x.pc, x.pc + 128].find? missing with
    | some va => .next (s.fillLine (hartCore h) (s.asidOf h) va)
    | none => .next s
  else .next s

/-! ### Repeated words (R153, R154) -/

/-- A vector register number renamed for a pass. -/
def shiftReg (n : Nat) (r : BitVec 5) : BitVec 5 := r + BitVec.ofNat 5 n

def renameDAB (n : Nat) (f : FmtA) : FmtA := { f with d := shiftReg n f.d, a := shiftReg n f.a, b := shiftReg n f.b }
def renameDA (n : Nat) (f : FmtA) : FmtA := { f with d := shiftReg n f.d, a := shiftReg n f.a }

/-- An instruction with every field that names a vector register renamed by n (R154). -/
def renameV (n : Nat) : Instr → Instr
  | .vadd f => .vadd (renameDAB n f)
  | .vsub f => .vsub (renameDAB n f)
  | .vmul f => .vmul (renameDAB n f)
  | .vfma f => .vfma (renameDAB n f)
  | .vfms f => .vfms (renameDAB n f)
  | .vmin f => .vmin (renameDAB n f)
  | .vmax f => .vmax (renameDAB n f)
  | .vand f => .vand (renameDAB n f)
  | .vor f => .vor (renameDAB n f)
  | .vxor f => .vxor (renameDAB n f)
  | .vshl f => .vshl (renameDAB n f)
  | .vshr f => .vshr (renameDAB n f)
  | .vsra f => .vsra (renameDAB n f)
  | .vsel f => .vsel (renameDAB n f)
  | .vperm f => .vperm (renameDAB n f)
  | .vperm2 f => .vperm2 (renameDAB n f)
  | .vdiv f => .vdiv (renameDAB n f)
  | .vdot f => .vdot (renameDAB n f)
  | .vabs f => .vabs (renameDA n f)
  | .vneg f => .vneg (renameDA n f)
  | .vmov f => .vmov (renameDA n f)
  | .vclass f => .vclass (renameDA n f)
  | .vcvt f => .vcvt (renameDA n f)
  | .vred f => .vred (renameDA n f)
  | .vscan f => .vscan (renameDA n f)
  | .vrcp f => .vrcp (renameDA n f)
  | .vrsqrt f => .vrsqrt (renameDA n f)
  | .vexp2 f => .vexp2 (renameDA n f)
  | .vlog2 f => .vlog2 (renameDA n f)
  | .vsqrt f => .vsqrt (renameDA n f)
  | .vcmp f => .vcmp { f with a := shiftReg n f.a, b := shiftReg n f.b }
  | .vbcast f => .vbcast { f with d := shiftReg n f.d }
  | .vins f => .vins { f with d := shiftReg n f.d }
  | .vext f => .vext { f with a := shiftReg n f.a }
  | .vld f => .vld { f with d := shiftReg n f.d }
  | .vbld f => .vbld { f with d := shiftReg n f.d }
  | .vwld f => .vwld { f with d := shiftReg n f.d }
  | .vst f => .vst { f with b := shiftReg n f.b }
  | .vbst f => .vbst { f with b := shiftReg n f.b }
  | .vwst f => .vwst { f with b := shiftReg n f.b }
  | .vgath f => .vgath { f with d := shiftReg n f.d, b := shiftReg n f.b }
  | .vscat f => .vscat { f with d := shiftReg n f.d, b := shiftReg n f.b }
  | .cread f => .cread { f with d := shiftReg n f.d }
  | .wbind f => .wbind { f with d := shiftReg n f.d }
  | .wunbind f => .wunbind { f with d := shiftReg n f.d }
  | .weos f => .weos { f with d := shiftReg n f.d }
  | i => i

/-- The ORDER of a memory access. -/
def orderOf : Instr → BitVec 2
  | .ld f | .st f | .wld f | .wst f | .vld f | .vst f | .vgath f | .vscat f | .vwld f | .vwst f | .bld f | .bst f
  | .vbld f | .vbst f | .pf f | .cln f => f.order
  | _ => 0

/-- A word may stand in the body of a `rep` (R153): one that passes R20, under reduced service with the formats of R384
alone, and of an opcode that R153 lets repeat. -/
def repeatable (reduced : Bool) (w : Nat) : Bool :=
  let op := w % 256
  match decodeRonid w with
  | .error _ => false
  | .ok i => !(reduced && fullOnly i) && !(0x30 ≤ op && op ≤ 0x3B) && !(0x50 ≤ op && op ≤ 0x55) && !(0xB0 ≤ op && op ≤ 0xB7)
      && !(0xC0 ≤ op && op ≤ 0xC6) && !(0xD0 ≤ op && op ≤ 0xDB) && op != 0xA2 && (orderOf i).toNat < 2

end Sys2Proof.Machine
end

