-- ==== Sys2Proof/Machine/Control.lean ====
section
/-! DEFINITION. The control instructions but `end` (06 R151 to R156, R158). -/

namespace Sys2Proof.Machine

open Sys2Proof

/-- Control goes to an address. -/
def State.jumpTo (s : State) (a : Word) : State := s.modMe fun h => { h with pc := a }

/-- `br` (R151). -/
def execBr (f : FmtB) (s : State) : Out := s.guarded f.gd fun s => .next (s.jumpTo (target24 s.me.pc f.offs))

/-- `jmp` (R151): it ends the region. -/
def execJmp (f : FmtB) (s : State) : Out := s.guarded f.gd fun s => .next (s.jumpTo (target24 s.me.pc f.offs)).endRegion

/-- A jump to an address in a register (R152): it must be a multiple of 8. -/
def jumpVia (s : State) (t : Word) (link : State → State) : Out :=
  (checkAt (t.toNat % 8 == 0) .alignment t s).run fun _ s => .next ((link s).jumpTo t)

/-- `jr` (R152). -/
def execJr (f : FmtA) (s : State) : Out := s.guarded f.gd fun s => jumpVia s (s.getS f.a) id

/-- `call` (R152). -/
def execCall (f : FmtB) (s : State) : Out :=
  s.guarded f.gd fun s => jumpVia s (target24 s.me.pc f.offs) fun s => s.setS f.d (s.me.pc + 8)

/-- `callr` (R152): the target is read before the link is written. -/
def execCallr (f : FmtA) (s : State) : Out :=
  s.guarded f.gd fun s => jumpVia s (s.getS f.a) fun s => s.setS f.d (s.me.pc + 8)

/-- `rep` (R153, R154): every body word is fetched and checked, and the repetition state is set. -/
def execRep (f : FmtI) (s : State) : Out :=
  s.guarded f.gd fun s =>
    let len := bits f.imm.toNat 0 4 + 1
    let n := (s.getS f.a).toNat
    let pc := s.me.pc
    (Res.collect (fun (j : Nat) s =>
      let a := pc + 8 + BitVec.ofNat 64 (8 * j)
      (s.fetchWord a a).bind fun w s => .ok (w.1, w.2.sig) s) (List.range len) s).run fun ws s =>
    (check (ws.all fun w => repeatable s.reducedService w.1) .illegal s).run fun _ s =>
      if n = 0 then .next (s.jumpTo (pc + 8 + BitVec.ofNat 64 (8 * len)))
      else .next ((s.modMe (·.modRegs fun r =>
        { r with rep := some { n, len, stride := bits f.imm.toNat 4 5, addr := pc, words := ws } })).jumpTo (pc + 8))

/-- `rgn` (R156): it ends the region. -/
def execRgn (f : FmtA) (s : State) : Out := s.guarded f.gd fun s => s.endRegion.finish

/-- `nop` (R156). -/
def execNop (f : FmtA) (s : State) : Out := s.guarded f.gd fun s => s.finish

/-- `brk` (R158): the software trap, with its mark and CODE. -/
def execBrk (f : FmtI) (s : State) : Out :=
  s.guarded f.gd fun s => .next (s.trap { cls := .software, detail := BitVec.ofNat 32 (2 ^ 31 + bits f.imm.toNat 0 16) })

end Sys2Proof.Machine
end

