-- ==== Sys2Proof/Machine/Milestone.lean ====
section
/-! DEFINITION. The Milestone set in a Clearing (03 R70 to R76): one meaning per instruction, on the Clearing that the
state names, and what ends a translation. -/

namespace Sys2Proof.Machine

open Sys2Proof

namespace State

/-- The Clearing of the executing Milestone instruction. -/
def here (s : State) : Clearing := s.clearings.get s.clearing {}
def setHere (s : State) (c : Clearing) : State := { s with clearings := s.clearings.set s.clearing c }

/-- A translation has ended; the Clearing stays while loads wait for its outcome (R80). -/
def translationOver (s : State) (code detail : Nat) : State :=
  let c := s.here
  if c.waiting.isEmpty then { s with clearings := s.clearings.erase s.clearing }
  else s.setHere { c with running := false, outcome := some (code, detail) }

/-- The translation ends with a load status code (R61, R72): the load is answered. DETAIL is the low 32 bits of a program counter
that has more (log entry 65). -/
def abortTranslation (s : State) (code detail : Nat) : State :=
  (s.answerWith (statusRecord s.here.units 0 code 0xFFFF detail)).translationOver code detail

/-- `HALT` (R77): the output is admitted, stored and installed, or the load ends. -/
def admitOutput (s : State) : State :=
  let c := s.here
  let words := c.out.reverse
  match admission s.reducedService (words.map (·.toNat)) with
  | some (code, detail) => s.abortTranslation code detail
  | none =>
    let s := s.cairnStore c.part c.key words
    let place := (((sectionsOf c.file).find? (·.ty == 1)).map (·.place)).getD 0
    let r := s.install c.part c.file (c.base - BitVec.ofNat 64 place) { words := words.map (·.toNat), place } c.units 3
    r.1.translationOver (if r.2 = 0 then 0 else 6) r.2

/-- The next Milestone instruction follows, with the Clearing changed. -/
def msGo (s : State) (f : Clearing → Clearing) : Out :=
  .next (s.setHere { f s.here with ip := s.here.ip + 4 })

/-- A confinement abort at the instruction (R72). -/
def msConfined (s : State) : Out := .next (s.abortTranslation 0x12 s.here.ip.toNat)

end State

def Clearing.get (c : Clearing) (n : BitVec 4) : Word := c.m[n.toNat]'n.isLt
def Clearing.put (c : Clearing) (n : BitVec 4) (x : Word) : Clearing := { c with m := c.m.set n.toNat x n.isLt }

/-- A result in M[d]. -/
def msWrite (f : FmtMs) (x : Clearing → Word) (s : State) : Out := s.msGo fun c => c.put f.d (x c)

/-- The sign-extended IMM14. -/
def simm (f : FmtMs) : Word := f.imm.signExtend 64

/-- A branch to the word that IMM14 names, or the next instruction. -/
def msBranch (f : FmtMs) (taken : Clearing → Bool) (s : State) : Out :=
  let c := s.here
  .next (s.setHere { c with ip := if taken c then c.ip + 4 + 4 * simm f else c.ip + 4 })

/-- The effective address of INB, INW, LDS and STS (R72). -/
def msAddress (f : FmtMs) (c : Clearing) : Nat := (c.get f.a + simm f).toNat

def execMsHalt (_f : FmtMs) (s : State) : Out := .next s.admitOutput
def execMsLdi (f : FmtMs) (s : State) : Out := msWrite f (fun _ => simm f) s
def execMsLdh (f : FmtMs) (s : State) : Out := msWrite f (fun c => c.get f.d * 16384 ||| f.imm.setWidth 64) s
def execMsMov (f : FmtMs) (s : State) : Out := msWrite f (fun c => c.get f.a) s
def execMsAdd (f : FmtMs) (s : State) : Out := msWrite f (fun c => c.get f.a + c.get f.b) s
def execMsAddi (f : FmtMs) (s : State) : Out := msWrite f (fun c => c.get f.a + simm f) s
def execMsSub (f : FmtMs) (s : State) : Out := msWrite f (fun c => c.get f.a - c.get f.b) s
def execMsAnd (f : FmtMs) (s : State) : Out := msWrite f (fun c => c.get f.a &&& c.get f.b) s
def execMsOr (f : FmtMs) (s : State) : Out := msWrite f (fun c => c.get f.a ||| c.get f.b) s
def execMsXor (f : FmtMs) (s : State) : Out := msWrite f (fun c => c.get f.a ^^^ c.get f.b) s
def execMsShl (f : FmtMs) (s : State) : Out := msWrite f (fun c => c.get f.a <<< ((c.get f.b).toNat % 64)) s
def execMsShr (f : FmtMs) (s : State) : Out := msWrite f (fun c => c.get f.a >>> ((c.get f.b).toNat % 64)) s

/-- INB (R72). -/
def execMsInb (f : FmtMs) (s : State) : Out :=
  if s.here.code.length ≤ msAddress f s.here then s.msConfined
  else msWrite f (fun c => BitVec.ofNat 64 (fileNat c.code (msAddress f c) 1)) s

/-- INW (R72). -/
def execMsInw (f : FmtMs) (s : State) : Out :=
  if s.here.code.length < msAddress f s.here + 4 then s.msConfined
  else msWrite f (fun c => BitVec.ofNat 64 (fileNat c.code (msAddress f c) 4)) s

/-- LDS (R72). -/
def execMsLds (f : FmtMs) (s : State) : Out :=
  if msAddress f s.here % 8 ≠ 0 || 4096 < msAddress f s.here + 8 then s.msConfined
  else msWrite f (fun c => BitVec.ofNat 64 (c.scratch.nat (msAddress f c) 8)) s

/-- STS (R72). -/
def execMsSts (f : FmtMs) (s : State) : Out :=
  if msAddress f s.here % 8 ≠ 0 || 4096 < msAddress f s.here + 8 then s.msConfined
  else s.msGo fun c => { c with scratch := c.scratch.storeNat (msAddress f c) 8 (c.get f.b).toNat }

/-- BEQ, which tests the miss flag on m0, m0 (R74). -/
def execMsBeq (f : FmtMs) (s : State) : Out :=
  msBranch f (fun c => if f.a = 0 && f.b = 0 then c.missed else c.get f.a == c.get f.b) s
def execMsBne (f : FmtMs) (s : State) : Out := msBranch f (fun c => c.get f.a != c.get f.b) s
def execMsBlt (f : FmtMs) (s : State) : Out := msBranch f (fun c => (c.get f.a).slt (c.get f.b)) s
def execMsJmp (f : FmtMs) (s : State) : Out := msBranch f (fun _ => true) s

/-- WAY (R72): the masked view of the Waymark table. -/
def execMsWay (f : FmtMs) (s : State) : Out :=
  let found := wayFind s.reducedService (s.partition s.here.part).features ((s.here.get f.a).toNat % 2 ^ 32)
  s.msGo fun c => { c.put f.d (BitVec.ofNat 64 (found.getD 0)) with missed := found.isNone }

/-- EMIT (R72): at most 4 MiB of output. -/
def execMsEmit (f : FmtMs) (s : State) : Out :=
  if 524288 ≤ s.here.out.length then .next (s.abortTranslation 0x13 s.here.ip.toNat)
  else s.msGo fun c => { c with out := c.get f.a :: c.out }

/-- BUDGET_EXHAUSTED (R72): the units of a translation are spent. -/
def execBudgetExhausted (k : Nat) (s : State) : Out :=
  match s.clearings.find k with
  | none => .next s
  | some c =>
    if c.running && c.budget ≤ c.units then .next ({ s with clearing := k }.abortTranslation 0x11 c.ip.toNat) else .next s

/-- What a turn of a Clearing comes to before its instruction runs (R72): the counted unit, and the instruction or the
code that ends the translation. -/
def fetchMilestone (c : Clearing) : Except Nat (Instr × List Byte) :=
  if c.pathfinder.length < c.ip.toNat + 4 then .error 0x12
  else match decodeMilestoneBytes (c.pathfinder.drop c.ip.toNat) with
    | .ok p => .ok p
    | .error _ => .error 0x10

end Sys2Proof.Machine
end

