-- ==== Sys2Proof/Machine/Flags.lean ====
section
/-! DEFINITION. The flag computations: comparisons to a Boolean (02 R37, 06 R147), the lanes that receive a result's
flags (07 R178, R179; 08 R188), and NF (R23). -/

namespace Sys2Proof.Machine

open Sys2Proof

/-- The value that a comparison reads from a register's low W bits (R147). -/
def comparand (ty : BitVec 4) (x : Nat) : Num :=
  if tyInt ty then Num.ofInt (if tySigned ty then signedOf (tyWidth ty) (x % 2 ^ tyWidth ty) else (x % 2 ^ tyWidth ty : Nat))
  else (NumFmt.ofTy ty 0).value (x % 2 ^ tyWidth ty)

/-- Does COND hold of two operands of TYPE (R37, R147). -/
def compareBy (cond ty : BitVec 4) (a b : Nat) : Bool := condHolds cond (comparand ty a) (comparand ty b)

/-- The lane that element e of width w reports in (R188). -/
def laneOf (w e : Nat) : Nat := e * w / 32

/-- Flags by lane, or none under NF = 1 (R23). -/
def flagsUnless (nf : Bool) (l : List (Nat × Flags)) : Word × Word := if nf then (0, 0) else laneFlags l

/-- The rounding mode of an instruction: RND, with DYN read at issue (R35). -/
def State.mode (s : State) (rnd : BitVec 3) : Mode := Mode.ofCode rnd s.me.regs.rmode

end Sys2Proof.Machine
end

