-- ==== Sys2Proof/Machine/Views.lean ====
section
/-! DEFINITION. Views (09 R224 to R231): addresses, the checks of `wopen`, the meeting test, S regions, and the accesses
that go through a view. -/

namespace Sys2Proof.Machine

open Sys2Proof

namespace View

/-- Element width in bits. -/
def width (v : View) : Nat := tyWidth v.ty
/-- A packed format: two elements in a byte (R225). -/
def packed (v : View) : Bool := v.width == 4
/-- The bytes of an element; a 4-bit element lies in one. -/
def elemBytes (v : View) : Nat := if v.packed then 1 else v.width / 8
/-- The storage code of the view (R34). -/
def storage (v : View) : Nat :=
  match v.ty.toNat with
  | 12 => 1
  | 13 => 2
  | 14 => v.b8.toNat
  | _ => 0
/-- Open or wide. -/
def live (v : View) : Bool := v.state == .opened || v.state == .wide
/-- The number of elements (R225). -/
def count (v : View) : Nat := (v.dims.toList.map fun d => d.ext.toNat).foldl (· * ·) 1
/-- The dimensions up to RANK. -/
def used (v : View) : List Dim := v.dims.toList.take v.rank
/-- The index tuple of a linear index, dimension 0 fastest (R225). -/
def index (v : View) (l : Nat) : List Int :=
  (v.dims.toList.foldl (fun (acc : List Int × Nat) d =>
    (acc.1 ++ [d.lo + ((acc.2 % max d.ext.toNat 1 : Nat) : Int)], acc.2 / max d.ext.toNat 1)) (([] : List Int), l)).1
/-- The byte address of an element (R225). -/
def address (v : View) (i : List Int) : Int :=
  let p := i.zip v.dims.toList
  if v.packed then v.base.toNat + i.headD 0 / 2 + ((p.drop 1).map fun e => e.1 * e.2.stride).sum
  else v.base.toNat + (p.map fun e => e.1 * e.2.stride).sum
/-- The nibble of a packed element (R164): true for bits [7:4]. -/
def high (v : View) (i : List Int) : Bool := v.packed && i.headD 0 % 2 == 1

/-- Lowest byte and one past the highest byte that a box of offsets reaches from a base. -/
def spanOf (base : Int) (dims : List (Int × Int × Int)) (bytes : Int) : Int × Int :=
  let lo := dims.foldl (fun a (l, n, st) => a + min (l * st) ((l + n - 1) * st)) base
  let hi := dims.foldl (fun a (l, n, st) => a + max (l * st) ((l + n - 1) * st)) base
  (lo, hi + bytes)

/-- The byte span (R225). -/
def span (v : View) : Int × Int :=
  let ds := v.dims.toList.map fun d => (d.lo, d.ext, d.stride)
  if v.packed then
    match ds with
    | (l, n, _) :: t =>
      let r := spanOf v.base.toNat t 1
      (r.1 + l / 2, r.2 + (l + n - 1) / 2)
    | [] => (v.base.toNat, v.base.toNat)
  else spanOf v.base.toNat ds v.elemBytes

/-- The bytes of one scale. -/
def scaleBytes (c : Scale) : Nat := if c.e8m0 then 1 else 4
/-- The address of the scale of a block (R226). -/
def scaleAddress (v : View) (c : Scale) (i : List Int) : Int :=
  let k := i.getD c.kdim 0
  let j := if v.rank = 2 then i.getD (1 - c.kdim) 0 else 0
  c.base.toNat + k / 32 * c.block.toInt + j * c.row.toInt
/-- The byte span of the scales. -/
def scaleSpan (v : View) (c : Scale) : Int × Int :=
  let k := v.dims.toList.getD c.kdim {}
  let j := if v.rank = 2 then v.dims.toList.getD (1 - c.kdim) {} else {}
  let b := k.lo / 32
  spanOf c.base.toNat [(b, (k.lo + k.ext - 1) / 32 - b + 1, c.block.toInt), (j.lo, j.ext, c.row.toInt)] (scaleBytes c)

/-- A span lies in its space and is canonical in global space (R214, R227). -/
def spanFits (space : BitVec 3) (r : Int × Int) : Bool :=
  if space = 0 then
    (0 ≤ r.1 && r.2 ≤ 2 ^ 56) || (2 ^ 64 - 2 ^ 56 ≤ r.1 && r.2 ≤ 2 ^ 64)
  else 0 ≤ r.1 && r.2 ≤ spaceSize space

/-- The format may carry block scales (R169, R226). -/
def scalable (ty : BitVec 4) : Bool := ty == 10#4 || ty == 11#4 || ty == 12#4 || ty == 14#4

/-- BASE, strides and scale fields keep the alignment of R227. -/
def aligned (v : View) : Bool :=
  let e : Int := v.elemBytes
  (v.base.toNat : Int) % e == 0
    && ((if v.packed then v.used.drop 1 else v.used).all fun d => d.stride % e == 0)
    && (match v.scl with
        | none => true
        | some c => (c.base.toNat : Int) % scaleBytes c == 0 && c.block.toInt % scaleBytes c == 0
            && c.row.toInt % scaleBytes c == 0)

/-- The other checks of R227. -/
def formed (v : View) : Bool :=
  1 ≤ v.rank && v.rank ≤ 4
    && v.dims.toList.all (fun d => 1 ≤ d.ext && d.ext ≤ 2 ^ 24 && -(2 ^ 47) ≤ d.stride && d.stride < 2 ^ 47)
    && v.count ≤ 2 ^ 32
    && (!v.packed || (v.dims.toList.headD {}).stride == 0)
    && spanFits v.space v.span
    && (match v.scl with
        | none => true
        | some c => v.rank ≤ 2 && scalable v.ty && spanFits v.space (v.scaleSpan c))

/-- Two intervals share a point. -/
def meetsIn (a b : Dim) : Bool := a.lo < b.lo + b.ext && b.lo < a.lo + a.ext

/-- Two views can meet (R229). A view that is not open counts as wide for a command (R230). -/
def canMeet (v w : View) : Bool :=
  if v.state == .wide || w.state == .wide then true
  else if v.space ≠ w.space || !(v.span.1 < w.span.2 && w.span.1 < v.span.2) then false
  else if v.base = w.base && v.rank = w.rank && v.ty = w.ty
      && (v.used.map (·.stride)) == (w.used.map (·.stride)) then
    (v.used.zip w.used).all fun p => meetsIn p.1 p.2
  else true

/-- A view as a command sees it: one that is not open counts as wide (R230). -/
def asCommand (v : View) : View := if v.state == .opened then v else { v with state := .wide }

/-- A rank-1 write view over bytes of the C buffer (R276). -/
def ofC (lo n : Nat) : View :=
  { state := .opened, space := 4, base := BitVec.ofNat 64 lo, rank := 1, ty := 4, mode := 2,
    dims := (Vector.replicate 4 {}).set 0 { ext := n, lo := 0, stride := 1 } }

/-- The bytes an element of the view occupies, its address first. -/
def elementAt (v : View) (l : Nat) : Int × Bool := (v.address (v.index l), v.high (v.index l))

end View

/-- R227 as `wopen` and a command make it. -/
def checkView (v : View) (s : State) : Res Unit :=
  (check v.aligned .alignment s).bind fun _ s => check v.formed .viewFormat s

/-! ### S regions (R231) -/

/-- The lowest offset of so many idle bytes of the S buffer, in units of 4 KiB. -/
def Core.idleS (k : Core) (size : Nat) : Option Nat :=
  ((List.range 16).map (· * 4096)).find? fun o =>
    o + size ≤ 65536 && k.sregions.all fun r => !rangesMeet o (o + size) r.offset (r.offset + r.size)

/-- What `wopen` finds for an S region. -/
inductive SOpen where
  | held (offset : Nat) (k : Core)
  | refused
  | mismatch

/-- Hold the S region of a name (R231). -/
def Core.openS (k : Core) (h : HartId) (name : Word) (size : Nat) : SOpen :=
  match k.sregions.find? (·.name == name) with
  | some r =>
    if r.freeing then .refused
    else if r.size ≠ size then .mismatch
    else .held r.offset { k with sregions := k.sregions.map fun q =>
                                   if q.name = name then { q with holders := q.holders ++ [h] } else q }
  | none =>
    match k.idleS size with
    | none => .refused
    | some o =>
      if 16 ≤ k.sregions.length then .refused
      else
        let zero := k.sbuf.store ((List.range size).map fun i => (o + i, 0))
        .held o { k with sregions := k.sregions ++ [{ name, offset := o, size, holders := [h] }], sbuf := zero }

/-! ### The order of a task's view operations (R230) -/

/-- The views of a command and whether it writes through them. -/
def Command.views (c : Command) : List (View × Bool) :=
  (c.dst.asCommand, true) :: (match c.op with | .cfill _ => [] | _ => [(c.src.asCommand, false)])

/-- Two operations on views must keep program order: some of their views can meet and one of them writes. -/
def ordered (a b : List (View × Bool)) : Bool :=
  a.any fun x => b.any fun y => (x.2 || y.2) && x.1.canMeet y.1

/-- The commands of a queue that have not completed: one whose completion message is still held has not (R260). -/
def Hart.outstanding (h : Hart) : List Command := h.queue

/-- The matrix work of a slot as writes through views of the C buffer (R276). -/
def Core.sliceViews (k : Core) (now slot : Nat) : List (View × Bool) :=
  (k.jobs.filter (·.slot == slot)).map (fun j => (View.ofC (j.coff * 64) 8192, true))
    ++ ((k.slice.toList ++ k.mmgs).filter fun r => r.slot == slot && now < r.doneAt).map
      fun r => (View.ofC r.lo (r.hi - r.lo), true)

namespace State

/-! ### One element through a view (R238) -/

/-- The page agrees with the view's format (R218). -/
def pageAgrees (v : View) (e : TlbEntry) : Bool :=
  v.storage == e.elem && e.geom == (match v.scl with | none => 0 | some c => if c.e8m0 then 2 else 1)

/-- Read the byte range of an element (R238): the checks of `ld`, then R218; or bounds in a local space. -/
def loadElem (s : State) (v : View) (a : Int) (n : Nat) : Res (List Byte) :=
  if v.space = 0 then
    let va := BitVec.ofInt 64 a
    (checkAt (va.toNat % n == 0) .alignment va s).bind fun _ s =>
    (s.translate va .r 0).bind fun t s =>
    (checkAt (pageAgrees v t.2) .viewFormat va s).bind fun _ s =>
    (s.useDie t.1 n).bind fun _ s =>
    let s := s.meetErrors t.1 n
    let m := s.under t.2 t.1 n
    if m.bad t.1 n then .stop (s.poisonGlobal va) else .ok (m.bytes t.1 n) s
  else
    (checkAt (s.elementOk v.space a n) .protection (BitVec.ofInt 64 a) s).bind fun _ s =>
    s.loadLocal v.space a.toNat n

/-- The check of one element's store, and where its bytes lie: in a page, or in a local space. -/
def placeElem (s : State) (v : View) (a : Int) (n : Nat) : Res (Option (Nat × TlbEntry)) :=
  if v.space = 0 then
    let va := BitVec.ofInt 64 a
    (checkAt (va.toNat % n == 0) .alignment va s).bind fun _ s =>
    (s.translate va .w 1).bind fun t s =>
    (checkAt (pageAgrees v t.2) .viewFormat va s).bind fun _ s => .ok (some t) s
  else
    (checkAt (s.elementOk v.space a n) .protection (BitVec.ofInt 64 a) s).bind fun _ s => .ok none s

/-- The code of one element read through a view (R238). -/
def readElement (s : State) (v : View) (l : Nat) : Res Nat :=
  let p := v.elementAt l
  (s.loadElem v p.1 v.elemBytes).bind fun b s =>
  .ok (if v.packed then (if p.2 then leNat b / 16 else leNat b % 16) else leNat b) s

/-- The bytes and nibbles of some element codes at their places: an element of a packed view is a nibble, which its store
reads and writes as one (R238). -/
def elementBytes (v : View) (l : List (Nat × Nat × Nat)) : List (Nat × Byte) × List (Nat × Bool × Nat) :=
  if v.packed then joinNibbles (l.map fun e => (e.2.2, (v.elementAt e.1).2, e.2.1))
  else ((l.map fun e => bytesAt e.2.2 (leBytes v.elemBytes e.2.1)).flatten, [])

/-- Write the codes of elements through a view as one access (R238): every element is checked first, in order; then
`before` is done, told whether a page is strongly ordered. -/
def writeElements (s : State) (v : View) (l : List (Nat × Nat)) (release : Bool) (before : Bool → State → Res Unit) : Res Unit :=
  (Res.collect (fun (e : Nat × Nat) s => s.placeElem v (v.elementAt e.1).1 v.elemBytes) l s).bind fun places s =>
  if v.space = 0 then
    let pages := places.filterMap id
    (before (soAny pages) s).bind fun _ s =>
    let b := elementBytes v ((l.zip places).filterMap fun e => e.2.map fun t => (e.1.1, e.1.2, t.1))
    if pages.isEmpty then .ok () s else s.storeTo pages b.1 b.2 release
  else
    (before false s).bind fun _ s =>
    let b := elementBytes v (l.map fun e => (e.1, e.2, (v.elementAt e.1).1.toNat))
    s.storeLocal v.space b.1 b.2

end State

end Sys2Proof.Machine
end

