-- ==== Sys2Proof/Machine/Streams.lean ====
section
/-! DEFINITION. Streams (09 R232, R233; 08 R190): filling and draining one entry, popping and pushing, and the reads and
writes of vector registers that go through them. -/

namespace Sys2Proof.Machine

open Sys2Proof

/-- Elements in a 64-byte entry of a view's stream (R232). -/
def View.perEntry (v : View) : Nat := 512 / max v.width 1

/-- The linear indices of entry p of a view's stream. -/
def View.entryIndices (v : View) (p : Nat) : List Nat :=
  (List.range v.perEntry).filterMap fun e => if p * v.perEntry + e < v.count then some (p * v.perEntry + e) else none

/-- A release order: 2, or 3 with acquire (R39). -/
def releases (o : BitVec 2) : Bool := o == 2 || o == 3

/-- The place of a stream register among v24 to v31, if it is one. -/
def streamIndex (r : BitVec 5) : Option (BitVec 3) := if 24 ≤ r.toNat then some (r.setWidth 3) else none

/-- The view of a stream of a hart. -/
def Hart.streamView (h : Hart) (st : Stream) : View := h.regs.w.toList.getD st.view {}

/-- The entry that an input stream fills next. -/
def Stream.nextFill (st : Stream) : Nat := match st.entries.getLast? with | some e => e.1 + 1 | none => st.pos

/-- The output streams of a hart that come before a place in program order, as writes through their views: each holds until
it is unbound or its view is retired (R230). -/
def Hart.outputs (h : Hart) (before : Nat) : List (View × Bool) :=
  ((h.regs.streams.toList.filterMap id).filter fun st =>
    st.output && !st.retired && st.seq < before).map fun st =>
      (h.streamView st, true)

/-- The input streams of a hart that come before a place in program order and have entries left to fill. -/
def Hart.inputs (h : Hart) (before : Nat) : List (View × Bool) :=
  ((h.regs.streams.toList.filterMap id).filter fun st =>
    !st.output && !st.ended && st.nextFill * (h.streamView st).perEntry < (h.streamView st).count
      && st.seq < before).map fun st => (h.streamView st, false)

/-- The commands of a hart that come before a place in program order and have not completed, as their views. -/
def Hart.commandsBefore (h : Hart) (before : Nat) : List (View × Bool) :=
  ((h.outstanding.filter (·.id < before)).map Command.views).flatten

namespace State

/-- The stream of a register of the executing hart. -/
def streamOf (s : State) (r : BitVec 5) : Option Stream := (streamIndex r).bind fun i => s.me.regs.stream i

/-- A stream's access waits for earlier commands and streams that its view can meet (R230). -/
def streamOrder (s : State) (st : Stream) (v : View) : Res Unit :=
  let h := s.me
  if ordered (h.commandsBefore st.seq ++ h.outputs st.seq ++ h.inputs st.seq) [(v, st.output)] then .stop (s.stall .views)
  else .ok () s

/-- Fill the next entry of an input stream (R232), up to 8 entries ahead, of acquires and fences too (log entry 105). -/
def fillStream (s : State) (i : BitVec 3) : Res Unit :=
  match s.me.regs.stream i with
  | none => .ok () s
  | some st =>
    let v := s.me.streamView st
    let p := st.nextFill
    if st.output || st.ended || v.count ≤ p * v.perEntry || 8 ≤ st.entries.length then .ok () s
    else
      (s.streamOrder st v).bind fun _ s =>
      (Res.collect (fun l s => s.readElement v l) (v.entryIndices p) s).bind fun codes s =>
      .ok () (s.modMe (·.modRegs (·.setStream i (some { st with entries := st.entries ++ [(p, ofElems v.width codes)] }))))

/-- Pop an entry (R190, R232): past the end, and after `weos`, a pop is zero at once. -/
def popStream (s : State) (i : BitVec 3) (st : Stream) : Res (BitVec 512) :=
  let v := s.me.streamView st
  let take (s : State) : Res (BitVec 512) :=
    match s.me.regs.stream i with
    | none => .ok 0 s
    | some st =>
      match st.entries with
      | (_, x) :: t =>
        .ok x (s.modMe (·.modRegs (·.setStream i (some { st with entries := t, pos := st.pos + 1 }))))
      | [] => .ok 0 (s.modMe (·.modRegs (·.setStream i (some { st with pos := st.pos + 1 }))))
  if st.ended || v.count ≤ st.pos * v.perEntry || !st.entries.isEmpty then take s
  else (s.fillStream i).bind fun _ s => take s

/-- Write the oldest pushed entry of an output stream to its elements (R232); `before` is done once they are checked, told whether
a page is strongly ordered. -/
def drainWith (s : State) (i : BitVec 3) (before : Bool → State → Res Unit) : Res Unit :=
  match s.me.regs.stream i with
  | none => .ok () s
  | some st =>
    match st.entries with
    | [] => .ok () s
    | (p, x) :: t =>
      if !st.output then .ok () s
      else
        let v := s.me.streamView st
        (s.streamOrder st v).bind fun _ s =>
        (s.writeElements v ((v.entryIndices p).zipIdx.map fun e => (e.1, elem v.width x e.2)) false before).bind fun _ s =>
        .ok () (s.modMe (·.modRegs (·.setStream i (some { st with entries := t }))))

/-- Write every pushed entry of a stream. -/
def flushWith (s : State) (i : BitVec 3) (before : Bool → State → Res Unit) : Res Unit :=
  match s.me.regs.stream i with
  | none => .ok () s
  | some st => if st.output then Res.each (fun _ s => s.drainWith i before) st.entries s else .ok () s

/-- The matrix work of the executing slot, or of its task wherever its slice is, has not completed (R274, R278). -/
def sliceWork (s : State) : Bool := !(s.myCore.sliceViews s.now (hartSlot s.cur)).isEmpty || s.me.working s.now

/-- What comes before an entry of a stream on an SO page (R303, R304): the entries of the other output streams, the updates of
matrix instructions, and the stores. -/
def beforeEntry (i : BitVec 3) (so : Bool) (s : State) : Res Unit :=
  if !so then .ok () s
  else
    (Res.each (fun (j : Fin 8) s => s.flushWith (BitVec.ofFin j) fun _ s => .ok () s)
      ((List.finRange 8).filter fun j => BitVec.ofFin j ≠ i) s).bind fun _ s =>
    if s.sliceWork then .stop (s.stall .slice) else s.release

/-- Write the oldest pushed entry of an output stream (R232). -/
def drainStream (s : State) (i : BitVec 3) : Res Unit := s.drainWith i (beforeEntry i)

/-- Fill an input stream as far ahead as it may run; a fault of an entry is not taken here (R232). -/
def fillAhead (i : BitVec 3) : Nat → State → Res Unit
  | 0, s => .ok () s
  | n + 1, s =>
    match s.fillStream i with
    | .ok _ t => fillAhead i n t
    | .stop t => if t.me.wait == some .miss || t.me.wait == some .bank then .stop t else .ok () s

/-- A view operation of the executing slot waits for earlier commands and streams that its views can meet (R230); an
input stream that it would write under fills first. -/
def viewOrder (s : State) (vs : List (View × Bool)) : Res Unit :=
  if ordered (s.me.commandsBefore s.nextId ++ s.me.outputs s.nextId) vs then .stop (s.stall .views)
  else if !ordered (s.me.inputs s.nextId) vs then .ok () s
  else
    (Res.each (fun (i : Fin 8) s => fillAhead (BitVec.ofFin i) 8 s) (List.finRange 8) s).bind fun _ s =>
    if ordered (s.me.inputs s.nextId) vs then .stop (s.stall .views) else .ok () s

/-- Write every pushed entry of a stream. -/
def flushStream (s : State) (i : BitVec 3) : Res Unit := s.flushWith i (beforeEntry i)

/-- Write every pushed entry of every output stream of the slot (R312, R157). -/
def flushStreams (s : State) : Res Unit := Res.each (fun (i : Fin 8) s => s.flushStream (BitVec.ofFin i)) (List.finRange 8) s

/-- A release of the executing hart (R299, R301): every earlier access is performed, those through output streams (R304), the
updates of matrix instructions (R277) and stores. -/
def publish (s : State) : Res Unit :=
  s.flushStreams.bind fun _ s => if s.sliceWork then .stop (s.stall .slice) else s.release

/-- Push an entry (R190, R232): a fault of its elements is taken now; past the end it is discarded. An entry that reaches an SO page
takes its place in the total order as it is pushed (R303, R304; log entry 83). -/
def pushStream (s : State) (i : BitVec 3) (st : Stream) (x : BitVec 512) : Res Unit :=
  let v := s.me.streamView st
  if st.ended || v.count ≤ st.pos * v.perEntry then .ok () s
  else
    let ls := v.entryIndices st.pos
    (Res.collect (fun l s => s.placeElem v (v.elementAt l).1 v.elemBytes) ls s).bind fun places s =>
    if soAny (places.filterMap id) then
      (s.streamOrder st v).bind fun _ s =>
      s.publish.bind fun _ s =>
      (s.writeElements v (ls.zipIdx.map fun e => (e.1, elem v.width x e.2)) false fun _ s => .ok () s).bind fun _ s =>
      .ok () (s.modMe (·.modRegs (·.setStream i (some { st with entries := [], pos := st.pos + 1 }))))
    else
      .ok () (s.modMe (·.modRegs (·.setStream i (some { st with entries := st.entries ++ [(st.pos, x)], pos := st.pos + 1 }))))

/-- The checks that come before an atomic performs (R311): canonical, R and W, the line's poison. Earlier stores of the
hart are performed first, so that the atomic comes after them (R133), and a release, or an atomic on an SO page (R303), comes
after every earlier access. The line is read and written under the key of its page. -/
def atomicAt (s : State) (va : Word) (o : BitVec 2) : Res Nat :=
  (s.translate va .rw 2).bind fun t s =>
  let line := t.1 / 128 * 128
  (s.useDie line 128).bind fun _ s =>
  let s := s.meetErrors line 128
  if (s.globalFor s.cur).bad line 128 then .stop (s.poisonGlobal va)
  else (if releases o || t.2.ord == 0 then s.publish else s.release).bind fun _ s =>
    .ok t.1 (if s.keyed t.2.key line 128 then s else s.rekey t.2.key line 128)

/-- The vector registers an instruction names as sources, in order, each read once (R189, R190): one bound to an input
stream pops one entry for all the fields that name it. -/
def sources (l : List (BitVec 5)) (s : State) : Res (List (BitVec 512)) :=
  let step (acc : Res (Table (BitVec 5) (BitVec 512))) (r : BitVec 5) : Res (Table (BitVec 5) (BitVec 512)) :=
    acc.bind fun t s =>
    match t.find r with
    | some _ => .ok t s
    | none =>
      match streamIndex r, s.streamOf r with
      | some i, some st =>
        if st.output then .ok (t.set r (s.me.regs.getV r)) s
        else (s.popStream i st).bind fun x s => .ok (t.set r x) s
      | _, _ => .ok (t.set r (s.me.regs.getV r)) s
  (l.foldl step (.ok [] s)).bind fun t s => .ok (l.map fun r => t.get r 0) s

/-- Write a whole vector register (R190): one bound to an output stream pushes the value. -/
def writeV (s : State) (d : BitVec 5) (x : BitVec 512) : Res Unit :=
  match streamIndex d, (s.streamOf d).filter (·.output) with
  | some i, some st => s.pushStream i st x
  | _, _ => .ok () (s.setV d x)

/-- Write a vector result under a mask (R187, R190): a register bound to an output stream pushes it, with inactive
elements zero; any other takes it, after the window of a long-latency instruction. Either way the window of such an
instruction opens, and its flags come when it completes (R49, R205). Such a result is merged with the inactive elements at issue and
lands as a whole register (log entry 103). -/
def putV (s : State) (d : BitVec 5) (w : Nat) (k : BitVec 16) (f : Nat → Nat) (long : Option (BitVec 4 × Nat))
    (flags : Word × Word) (sets : Bool := false) : Res Unit :=
  match streamIndex d, (s.streamOf d).filter (·.output) with
  | some i, some st =>
    (s.pushStream i st (merge w k 0 f)).bind fun _ s =>
      .ok () (match long with
        | none => s.addFlags flags
        | some (la, n) => s.later la n [] flags sets)
  | _, _ =>
    let x := merge w k (s.me.regs.getV d) f
    match long with
    | none => .ok () ((s.setV d x).addFlags flags)
    | some (la, n) => .ok () (s.later la n [.v d.toNat x] flags sets)

end State

end Sys2Proof.Machine
end

