-- ==== Sys2Proof/Machine/Loads.lean ====
section
/-! DEFINITION. The loads and stores (08 R206 to R208; 09 R234 to R238), prefetch and clean, and the synchronisation
instructions (13 R310 to R315). -/

namespace Sys2Proof.Machine

open Sys2Proof

namespace State

/-- Go on after a store of an order (R139, R299): a release is performed, and ends its region. -/
def afterStore (s : State) (o : BitVec 2) : Out :=
  if releases o then (s.drainAll s.cur).endRegion.finish else s.finish

/-- What comes before a store of an order to pages of which one may be strongly ordered: a release performs every earlier
access (R299), and so does a store to an SO page (R303). -/
def beforeStore (s : State) (o : BitVec 2) (so : Bool) : Res Unit := if releases o || so then s.publish else .ok () s

end State

/-- `ld` (R235). -/
def execLd (f : FmtM) (s : State) : Out :=
  s.guarded f.gd fun s =>
    let n := sizeBytes f.size
    let ea := s.ea f
    (checkAt (ea.toNat % n == 0) .alignment ea s).run fun _ s =>
    (s.loadBytes ea n 0).run fun b s =>
      (s.later f.la 5 (destS f.d (extend f.ty (leNat b))) (0, 0)).finish

/-- `st` (R235). -/
def execSt (f : FmtM) (s : State) : Out :=
  s.guarded f.gd fun s =>
    let n := sizeBytes f.size
    let ea := s.ea f
    (checkAt (ea.toNat % n == 0) .alignment ea s).run fun _ s =>
    (s.translate ea .w 1).run fun t s =>
    (s.beforeStore f.order (t.2.ord == 0)).run fun _ s =>
    (s.storeTo [t] (bytesAt t.1 (leBytes n (s.getS f.b).toNat)) [] (releases f.order)).run fun _ s => s.afterStore f.order

/-- `bld` (R235). -/
def execBld (f : FmtM) (s : State) : Out :=
  s.guarded f.gd fun s =>
    let n := sizeBytes f.size
    let ea := s.ea f
    (checkAt (ea.toNat % n == 0) .alignment ea s).run fun _ s =>
    (checkAt (s.bufferOk f.scope ea n) .protection ea s).run fun _ s =>
    (s.loadLocal f.scope ea.toNat n).run fun b s =>
      (s.later f.la 3 (destS f.d (extend f.ty (leNat b))) (0, 0)).finish

/-- `bst` (R235). -/
def execBst (f : FmtM) (s : State) : Out :=
  s.guarded f.gd fun s =>
    let n := sizeBytes f.size
    let ea := s.ea f
    (checkAt (ea.toNat % n == 0) .alignment ea s).run fun _ s =>
    (checkAt (s.bufferOk f.scope ea n) .protection ea s).run fun _ s =>
    (s.storeLocal f.scope (bytesAt ea.toNat (leBytes n (s.getS f.b).toNat)) []).run fun _ s => s.finish

/-- A cache of so many lines takes one; the oldest leaves a full cache (R1, log entry 57). -/
def insertLine (cap : Nat) (l : List Nat) (n : Nat) : List Nat :=
  let l := l.filter (· ≠ n) ++ [n]
  l.drop (l.length - cap)

/-- `pf` (R236): it fills a line where a covering entry permits it, and has no other effect. -/
def execPf (f : FmtM) (s : State) : Out :=
  s.guarded f.gd fun s =>
    let ea := s.ea f
    match (if canonical ea then s.lookup s.cur (s.asidOf s.cur) ea.toNat else none) with
    | none => s.finish
    | some (e, t) =>
      let pa := e.physical ea.toNat
      if !e.allows (if f.ty = 2 then .w else .r) || !t.reaches t.cur pa then s.finish
      else if f.ty = 1 then
        let d := hartDie t.cur
        (t.setDie d { t.die d with lines := insertLine 1048576 (t.die d).lines (pa / 128) }).finish
      else (t.setMyCore { t.myCore with lines := insertLine 512 t.myCore.lines (pa / 128) }).finish

/-- `cln` (R237): the slot's writes reach the point of coherence of the scope; `.inv` drops the core's L1 copy. -/
def execCln (f : FmtM) (s : State) : Out :=
  s.guarded f.gd fun s =>
    let ea := s.ea f
    (s.translate ea .r 0).run fun t s =>
      if f.scope.toNat ≤ 1 then s.finish
      else s.publish.run fun _ s =>
        if f.ty = 1 then
          (s.setMyCore { s.myCore with lines := s.myCore.lines.filter (· ≠ t.1 / 128) }).finish
        else s.finish

/-! ### Loads and stores through a view (R238) -/

/-- The checks on the view of a view access. -/
def viewAccess (s : State) (v : View) (ty : BitVec 4) (store : Bool) : Res Unit :=
  (check (v.live && v.ty == ty) .viewFormat s).bind fun _ s =>
  (check (!store || v.mode != 1) .protection s).bind fun _ s => s.viewOrder [(v, store)]

/-- The linear indices of the elements that take part, in order (R238). -/
def takingPart (v : View) (l0 : Int) (es : List Nat) (s : State) : Res (List (Nat × Nat)) :=
  (Res.collect (fun (e : Nat) s =>
    let l := l0 + e
    (check (0 ≤ l && (e ≠ 0 || l < v.count)) .protection s).bind fun _ s =>
      .ok (if l < v.count then some (e, l.toNat) else none) s) es s).bind fun r s => .ok (r.filterMap id) s

/-- The scalar value of an element's code (R238). -/
def extendElement (ty : BitVec 4) (x : Nat) : Word :=
  if ty = 13 then BitVec.ofInt 64 (signedOf 4 x) else if tyPlain ty then extend ty x else BitVec.ofNat 64 x

/-- Cycles of a load through a view (R205, R238). -/
def viewCycles (v : View) : Nat := if 2 ≤ v.space.toNat then 3 else 5

/-- `wld` (R238). -/
def execWld (f : FmtM) (s : State) : Out :=
  s.guarded f.gd fun s =>
    let v := s.getW f.a
    (viewAccess s v f.ty false).run fun _ s =>
    (takingPart v ((s.getS f.b).toInt + f.offs.toInt) [0] s).run fun ls s =>
    (Res.collect (fun (l : Nat × Nat) s => s.readElement v l.2) ls s).run fun xs s =>
      (s.later f.la (viewCycles v) (destS f.d (extendElement f.ty (xs.headD 0))) (0, 0)).finish

/-- `wst` (R238). -/
def execWst (f : FmtM) (s : State) : Out :=
  s.guarded f.gd fun s =>
    let v := s.getW f.a
    (viewAccess s v f.ty true).run fun _ s =>
    (takingPart v ((s.getS f.d).toInt + f.offs.toInt) [0] s).run fun ls s =>
    (s.writeElements v (ls.map fun l => (l.2, (s.getS f.b).toNat % 2 ^ v.width)) (releases f.order)
      fun so s => s.beforeStore f.order so).run fun _ s => s.afterStore f.order

/-- The active elements of a width under a mask. -/
def activeList (w : Nat) (k : BitVec 16) : List Nat := (List.range (512 / w)).filter (active w k)

/-- `vwld` (R238). -/
def execVwld (f : FmtM) (s : State) : Out :=
  s.guarded f.gd fun s =>
    let v := s.getW f.a
    (viewAccess s v f.ty false).run fun _ s =>
    let w := tyWidth f.ty
    (takingPart v ((s.getS f.b).toInt + f.offs.toInt) (activeList w (s.getK f.c)) s).run fun ls s =>
    (Res.collect (fun (l : Nat × Nat) s => s.readElement v l.2) ls s).run fun xs s =>
      let got : Table Nat Nat := (ls.map (·.1)).zip xs
      let old := s.me.regs.getV f.d
      let out := match s.streamOf f.d with | some st => st.output | none => false
      (s.putV f.d w 0xFFFF (fun e => got.get e (if out then 0 else elem w old e)) (some (f.la, viewCycles v)) (0, 0)).run
        fun _ s => s.finish

/-- `vwst` (R238). -/
def execVwst (f : FmtM) (s : State) : Out :=
  s.guarded f.gd fun s =>
    let v := s.getW f.a
    (viewAccess s v f.ty true).run fun _ s =>
    let w := tyWidth f.ty
    (takingPart v ((s.getS f.d).toInt + f.offs.toInt) (activeList w (s.getK f.c)) s).run fun ls s =>
    (s.sources [f.b]).run fun vs s =>
    (s.writeElements v (ls.map fun l => (l.2, elem w (vs.getD 0 0) l.1)) (releases f.order)
      fun so s => s.beforeStore f.order so).run fun _ s => s.afterStore f.order

/-! ### Vector memory (R206 to R208) -/

/-- Load elements from their addresses, in order. -/
def loadAt (n : Nat) (as : List Word) (s : State) : Res (List Nat) :=
  Res.collect (fun (a : Word) s =>
    (checkAt (a.toNat % n == 0) .alignment a s).bind fun _ s =>
    (s.loadBytes a n 0).bind fun b s => .ok (leNat b) s) as s

/-- Store elements to their addresses as one access (R207, R353): every element is translated first, in order, and where
two share an address the later one's value remains. -/
def storeAt (n : Nat) (l : List (Word × Nat)) (o : BitVec 2) (s : State) : Res Unit :=
  (Res.collect (fun (e : Word × Nat) s =>
    (checkAt (e.1.toNat % n == 0) .alignment e.1 s).bind fun _ s =>
    (s.translate e.1 .w 1).bind fun t s => .ok (t, e.2) s) l s).bind fun ps s =>
  let places := ps.map (·.1)
  (s.beforeStore o (State.soAny places)).bind fun _ s =>
    if ps.isEmpty then .ok () s
    else s.storeTo places (ps.map fun p => bytesAt p.1.1 (leBytes n p.2)).flatten [] (releases o)

/-- The register a vector load leaves: what was read in active elements, the old value in the others. -/
def putLoaded (f : FmtM) (w cycles : Nat) (es : List Nat) (xs : List Nat) (s : State) : Out :=
  let got : Table Nat Nat := es.zip xs
  (s.putV f.d w (s.getK f.c) (fun e => got.get e 0) (some (f.la, cycles)) (0, 0)).run fun _ s => s.finish

/-- `vld` (R206). -/
def execVld (f : FmtM) (s : State) : Out :=
  s.guarded f.gd fun s =>
    let w := tyWidth f.ty
    let ea := s.ea f
    (checkAt (ea.toNat % (w / 8) == 0) .alignment ea s).run fun _ s =>
      let es := activeList w (s.getK f.c)
      (loadAt (w / 8) (es.map fun e => ea + BitVec.ofNat 64 (e * (w / 8))) s).run fun xs s => putLoaded f w 5 es xs s

/-- `vst` (R206). -/
def execVst (f : FmtM) (s : State) : Out :=
  s.guarded f.gd fun s =>
    let w := tyWidth f.ty
    let ea := s.ea f
    (checkAt (ea.toNat % (w / 8) == 0) .alignment ea s).run fun _ s =>
    (s.sources [f.b]).run fun vs s =>
      let l := (activeList w (s.getK f.c)).map fun e => (ea + BitVec.ofNat 64 (e * (w / 8)), elem w (vs.getD 0 0) e)
      (storeAt (w / 8) l f.order s).run fun _ s => s.afterStore f.order

/-- The address of an element of a gather or scatter (R207). -/
def indexed (w : Nat) (base : Word) (v : BitVec 512) (e : Nat) : Word := base + BitVec.ofInt 64 (signedOf w (elem w v e))

/-- `vgath` (R207). -/
def execVgath (f : FmtM) (s : State) : Out :=
  s.guarded f.gd fun s =>
    let w := tyWidth f.ty
    (s.sources [f.b]).run fun vs s =>
      let es := activeList w (s.getK f.c)
      (loadAt (w / 8) (es.map (indexed w (s.ea f) (vs.getD 0 0))) s).run fun xs s => putLoaded f w 5 es xs s

/-- `vscat` (R207). -/
def execVscat (f : FmtM) (s : State) : Out :=
  s.guarded f.gd fun s =>
    let w := tyWidth f.ty
    (s.sources [f.b, f.d]).run fun vs s =>
      let l := (activeList w (s.getK f.c)).map fun e => (indexed w (s.ea f) (vs.getD 0 0) e, elem w (vs.getD 1 0) e)
      (storeAt (w / 8) l f.order s).run fun _ s => s.afterStore f.order

/-- `vbld` (R208). -/
def execVbld (f : FmtM) (s : State) : Out :=
  s.guarded f.gd fun s =>
    let w := tyWidth f.ty
    let ea := s.ea f
    (checkAt (ea.toNat % 64 == 0) .alignment ea s).run fun _ s =>
    (checkAt (s.bufferOk f.scope ea 64) .protection ea s).run fun _ s =>
      let es := activeList w (s.getK f.c)
      (Res.collect (fun (e : Nat) s => (s.loadLocal f.scope (ea.toNat + e * (w / 8)) (w / 8)).bind fun b s => .ok (leNat b) s)
        es s).run fun xs s => putLoaded f w 3 es xs s

/-- `vbst` (R208). -/
def execVbst (f : FmtM) (s : State) : Out :=
  s.guarded f.gd fun s =>
    let w := tyWidth f.ty
    let ea := s.ea f
    (checkAt (ea.toNat % 64 == 0) .alignment ea s).run fun _ s =>
    (checkAt (s.bufferOk f.scope ea 64) .protection ea s).run fun _ s =>
    (s.sources [f.b]).run fun vs s =>
      let bytes := (activeList w (s.getK f.c)).map fun e =>
        bytesAt (ea.toNat + e * (w / 8)) (leBytes (w / 8) (elem w (vs.getD 0 0) e))
      (s.storeLocal f.scope bytes.flatten []).run fun _ s => s.finish

/-! ### Atomics (R310, R311) -/

/-- The new value of an `amo` (R310). -/
def amoNew (op : Nat) (ty : BitVec 4) (old x : Nat) : Nat :=
  let w := tyWidth ty
  let below (a b : Nat) : Bool := signedOf w a < signedOf w b
  match op with
  | 0 => (old + x) % 2 ^ w
  | 1 => Nat.land old x
  | 2 => Nat.lor old x
  | 3 => Nat.xor old x
  | 4 => if below x old then x else old
  | 5 => if below old x then x else old
  | 6 => min old x
  | 7 => max old x
  | _ => x

/-- The atomics share their checks, their one access and their completion (R311): `g` gives the new bytes, or none. -/
def atomic (f : FmtM) (g : State → Nat → Option Nat) (dests : Nat → List Dest) (s : State) : Out :=
  s.guarded f.gd fun s =>
    let n := sizeBytes f.size
    let ea := s.ea f
    (checkAt (ea.toNat % n == 0) .alignment ea s).run fun _ s =>
    (s.atomicAt ea f.order).run fun pa s =>
      let old := s.mem.nat pa n
      let s := match g s old with
        | some x => s.atomicWrite (bytesAt pa (leBytes n x))
        | none => s
      (s.laterPerformed f.la (some (s.now + 8)) (dests old) (0, 0)).endRegion.finish

/-- `amo` (R311). -/
def execAmo (f : FmtM) (s : State) : Out :=
  atomic f (fun s old => some (amoNew f.c.toNat f.ty old ((s.getS f.b).toNat % 2 ^ tyWidth f.ty)))
    (fun old => destS f.d (extend f.ty old)) s

/-- `cas` (R311). -/
def execCas (f : FmtM) (s : State) : Out :=
  atomic f (fun s old => if old = (s.getS f.c).toNat % 2 ^ tyWidth f.ty then some ((s.getS f.b).toNat % 2 ^ tyWidth f.ty) else none)
    (fun old => destS f.d (extend f.ty old)) s

/-- The value of a register pair (R310). -/
def State.pair (s : State) (n : BitVec 5) : Nat := (s.getS n).toNat + 2 ^ 64 * (s.getS (n + 1)).toNat

/-- `cas2` (R311). -/
def execCas2 (f : FmtM) (s : State) : Out :=
  atomic f (fun s old => if old = s.pair f.c then some (s.pair f.b) else none)
    (fun old => if f.d = 0 then [] else
      [.s f.d.toNat (BitVec.ofNat 64 old), .s (f.d + 1).toNat (BitVec.ofNat 64 (old / 2 ^ 64))]) s

/-- `fence` (R312). -/
def execFence (f : FmtA) (s : State) : Out :=
  s.guarded f.gd fun s =>
    if releases f.order then s.publish.run fun _ s => s.endRegion.finish else s.finish

/-- `barr` (R314): the first issue makes the checks and arrives, and the slot waits until the generation has changed; an
arrival is not repeated, so a region begins at the word as it arrives. Each read of the wait is a load of its own (log entry 49). -/
def execBarr (f : FmtM) (s : State) : Out :=
  s.guarded f.gd fun s =>
    let ea := s.ea f
    let done (s : State) (x : Word) : Out := ((s.setS f.d x).modMe fun h => { h with arrival := none }).endRegion.finish
    match s.me.arrival with
    | some (gen, arr) =>
      (s.loadBytes (ea + 8) 8 0).run fun b s =>
        if leNat (b.drop 4) = gen then .next (s.stall .barrier) else done s (BitVec.ofNat 64 arr)
    | none =>
      (checkAt (ea.toNat % 16 == 0) .alignment ea s).run fun _ s =>
      (s.atomicAt ea 3).run fun pa s =>
        let cnt := s.mem.nat pa 4
        let arr := s.mem.nat (pa + 8) 4
        let gen := s.mem.nat (pa + 12) 4
        let put (s : State) (x : Nat) : State := s.atomicWrite (bytesAt (pa + 8) (leBytes 8 x))
        if s.mem.nat (pa + 4) 4 ≠ 0 || cnt = 0 || cnt ≤ arr then done s (BitVec.allOnes 64)
        else if arr + 1 = cnt then done (put s ((gen + 1) % 2 ^ 32 * 2 ^ 32)) (BitVec.ofNat 64 arr)
        else
          let s := (put s (gen * 2 ^ 32 + arr + 1)).modMe Hart.arrive
          .next ((s.modMe fun h => { h with arrival := some (gen, arr) }).stall .barrier)

/-- `wfv` (R315). -/
def execWfv (f : FmtM) (s : State) : Out :=
  s.guarded f.gd fun s =>
    let n := sizeBytes f.size
    let ea := s.ea f
    (checkAt (ea.toNat % n == 0) .alignment ea s).run fun _ s =>
    (s.loadBytes ea n 0).run fun b s =>
      if compareBy (f.c.setWidth 4) f.ty (leNat b) (s.getS f.b).toNat then
        (s.later f.la 0 (destS f.d (extend f.ty (leNat b))) (0, 0)).finish
      else .next (s.stall .value)

end Sys2Proof.Machine
end

