-- ==== Sys2Proof/Machine/Tiles.lean ====
section
/-! DEFINITION. The tile instructions (11 R267 to R292): tile formats, claims, the matrix slice, the products of 07 R181
to R183, gangs and their barrier. -/

namespace Sys2Proof.Machine

open Sys2Proof

/-! ### Tile formats (R267) -/

/-- K limit of a tile format; 0 for no tile format. -/
def kLimit (ty : BitVec 4) : Nat :=
  match ty.toNat with
  | 10 | 11 => 32
  | 0 | 4 | 14 => 64
  | 12 | 13 => 128
  | 8 => 16
  | _ => 0

/-- Outer limit of a tile format in a role. -/
def outerLimit (ty : BitVec 4) (role : Bool) : Nat := if role || ty = 8 then 32 else 64

/-- A tile format (R267), with the codes that reduced service accepts (R384). -/
def tileFormat (reduced : Bool) (ty : BitVec 4) (b8 : BitVec 5) : Bool :=
  kLimit ty ≠ 0 && (if ty = 14 then 4 ≤ b8.toNat else b8 = 0) && (!reduced || ty = 11 || ty = 0 || ty = 4)

/-- Both extents are within the limits of a role. -/
def extentsFit (ty : BitVec 4) (role : Bool) (kext oext : Nat) : Bool :=
  1 ≤ kext && kext ≤ kLimit ty && 1 ≤ oext && oext ≤ outerLimit ty role

/-- A floating tile format. -/
def floatTile (ty : BitVec 4) : Bool := View.scalable ty || ty = 8

namespace Tile

def fmt (t : Tile) : NumFmt := NumFmt.ofTy t.ty t.b8
def code (t : Tile) (r k : Nat) : Nat := Table.get t.codes (r, k) 0
/-- The scale of a block, 1.0 when the tile is not SCALED (R269). -/
def scale (t : Tile) (r b : Nat) : Nat := if t.scaled then Table.get t.scales (r, b) t.scaleFill else 0x3F800000
/-- The descriptor as `tcfg.get` reads it (R269). -/
def descriptor (t : Tile) : Word :=
  BitVec.ofNat 64 (t.kext * 2 ^ 32 + t.oext * 2 ^ 24 + t.b8.toNat * 2 ^ 19 + t.ty.toNat * 2 ^ 15 + bit t.scaled * 2 ^ 14
    + bit t.role * 2 ^ 13 + bit t.loaded * 2 + 1)
/-- The values of row r, for k below K. -/
def row (t : Tile) (r k : Nat) : List Num := (List.range k).map fun i => t.fmt.value (t.code r i)

end Tile

namespace State

def tile (s : State) (n : BitVec 5) : Tile := s.myCore.tiles.toList.getD n.toNat {}
/-- The executing slot holds a tile (R270). -/
def holds (s : State) (n : BitVec 5) : Bool := (s.tile n).holder == some (hartSlot s.cur)
def setTile (s : State) (n : BitVec 5) (x : Tile) : State := s.setMyCore (s.myCore.putTile (hartSlot s.cur) n.toNat x)

/-- A tile is to change now (R275): what an earlier instruction still owes it lands first. -/
def settleTile (s : State) (n : BitVec 5) : State :=
  let owes (d : Dest) : Bool := match d with | .t m _ => m == n.toNat | _ => false
  let s := s.me.pend.foldl (fun s p => (p.dests.filter owes).foldl (fun s d => s.put s.cur d) s) s
  s.modMe fun h => { h with pend := h.pend.map fun p => { p with dests := p.dests.filter fun d => !owes d } }

end State

/-! ### Claims (R270, R271, R284) -/

/-- Tiles of a mask. -/
def maskTiles (m : BitVec 8) : List Nat := (List.range 8).filter fun i => m.getLsbD i

/-- Grant a mask of tiles to a slot: elements, side-band and descriptor are cleared (R270). -/
def Core.grant (k : Core) (slot : Nat) (m : BitVec 8) : Core :=
  { k with tiles := Vector.ofFn fun i => if m.getLsbD i.val then { holder := some slot } else k.tiles[i],
           claims := k.claims.filter (·.1 ≠ slot) }

/-- Every tile of a mask is free, and no claim of a list wants one of them (R271). -/
def Core.grantable (k : Core) (older : List (Nat × BitVec 8)) (m : BitVec 8) : Bool :=
  (maskTiles m).all (fun i => ((k.tiles.toList.getD i {}).holder).isNone) && older.all fun c => c.2 &&& m == 0

/-- `tclaim` (R284). -/
def execTclaim (f : FmtT) (s : State) : Out :=
  s.guarded f.gd fun s =>
    let k := s.myCore
    let slot := hartSlot s.cur
    let held (i : Nat) : Bool := (k.tiles.toList.getD i {}).holder == some slot
    let m : BitVec 8 := (s.getS f.a).setWidth 8
    let need : BitVec 8 := BitVec.ofNat 8 (((maskTiles m).filter fun i => !held i).map (2 ^ ·)).sum
    let older := k.claims.takeWhile (·.1 ≠ slot)
    let gone (s : State) : State := s.setMyCore { s.myCore with claims := s.myCore.claims.filter (·.1 ≠ slot) }
    if need = 0 then ((gone s).setS f.d 0).finish
    else if k.grantable older need then ((s.setMyCore (k.grant slot need)).setS f.d 0).finish
    else if f.fn = 1 || k.holds slot then ((gone s).setS f.d 1).finish
    else if k.claims.any (·.1 == slot) then .next (s.stall .claim)
    else .next ((s.setMyCore { k with claims := k.claims ++ [(slot, need)] }).stall .claim)

/-- TILE_CLAIM_GRANT (R271): the oldest waiting claim that can be granted takes its tiles. -/
def execTileClaimGrant (core : Nat) (s : State) : Out :=
  let k := s.core core
  match (List.range k.claims.length).find? fun i => (k.claims[i]?).any fun c => k.grantable (k.claims.take i) c.2 with
  | none => .next s
  | some i =>
    match k.claims[i]? with
    | some (slot, m) => .next (s.setCore core (k.grant slot m))
    | none => .next s

/-- `tfree` (R284): it waits until the slot's matrix instructions have read their tiles, and what earlier instructions owe
the tiles comes before it (R275). -/
def execTfree (f : FmtT) (s : State) : Out :=
  s.guarded f.gd fun s =>
    let k := s.myCore
    let slot := hartSlot s.cur
    if k.jobs.any (·.slot == slot) then .next (s.stall .slice)
    else
      let m : BitVec 8 := (s.getS f.a).setWidth 8
      let s := (maskTiles m).foldl (fun s i => s.settleTile (BitVec.ofNat 5 i)) s
      let k := s.myCore
      let k := { k with tiles := Vector.ofFn fun i =>
                          if m.getLsbD i.val && (k.tiles[i]).holder == some slot then { k.tiles[i] with holder := none } else k.tiles[i] }
      (s.setMyCore k).endRegion.finish

/-! ### Descriptors, loads and stores -/

/-- `tcfg` (R285): the tile is checked before the reserved bits (log entry 85). -/
def execTcfg (f : FmtT) (s : State) : Out :=
  s.guarded f.gd fun s =>
    let x := (s.getS f.a).toNat
    let ty := BitVec.ofNat 4 (bits x 15 4)
    let b8 := BitVec.ofNat 5 (bits x 19 5)
    (check (s.holds f.d) .protection s).run fun _ s =>
    (check (bits x 40 24 == 0) .illegal s).run fun _ s =>
    (check (tileFormat s.reducedService ty b8 && (!x.testBit 14 || View.scalable ty)
        && extentsFit ty (x.testBit 13) (bits x 32 8) (bits x 24 8)) .viewFormat s).run fun _ s =>
      let s := s.settleTile f.d
      (s.setTile f.d { s.tile f.d with
                       kext := bits x 32 8, oext := bits x 24 8, b8, ty, scaled := x.testBit 14, role := x.testBit 13
                       loaded := true }).finish

/-- `tcfg.get` (R285). -/
def execTcfgGet (f : FmtT) (s : State) : Out :=
  s.guarded f.gd fun s => (s.setS f.d (if s.holds f.a then (s.tile f.a).descriptor else 0)).finish

/-- `tzero` (R285). -/
def execTzero (f : FmtT) (s : State) : Out :=
  s.guarded f.gd fun s =>
    (check (s.holds f.d) .protection s).run fun _ s =>
      let s := s.settleTile f.d
      (s.setTile f.d { s.tile f.d with codes := [], scales := [], scaleFill := 0x3F800000, bad := [] }).finish

/-- The linear index of the element at outer index r and K index k of a view. -/
def tileIndex (v : View) (kd r k : Nat) : Nat :=
  let e := (v.dims.toList.headD {}).ext.toNat
  if kd = 0 then k + e * r else r + e * k

/-- The extent of a view along a dimension. -/
def View.ext (v : View) (d : Nat) : Nat := (v.dims.toList.getD d {}).ext.toNat

/-- Outer and K indices of a matrix. -/
def cells (oext kext : Nat) : List (Nat × Nat) :=
  ((List.range oext).map fun r => (List.range kext).map fun k => (r, k)).flatten

/-- The index tuple of the scale of block b of outer index r. -/
def scaleIndex (v : View) (kd r b : Nat) : List Int :=
  let lo (d : Nat) : Int := (v.dims.toList.getD d {}).lo
  if kd = 0 then [lo 0 + 32 * b, lo 1 + r] else [lo 0 + r, lo 1 + 32 * b]

/-- A scale code widened to binary32 (R170). -/
def widenScale (c : Scale) (x : Nat) : Nat :=
  if !c.e8m0 then x else if x = 0 then 0x00400000 else if x = 255 then 0x7FC00000 else x * 2 ^ 23

/-- Read a scale through a local view. -/
def State.readScale (s : State) (v : View) (c : Scale) (i : List Int) : Res Nat :=
  (s.loadElem { v with scl := none } (v.scaleAddress c i) (View.scaleBytes c)).bind fun b s => .ok (widenScale c (leNat b)) s

/-- `tld` (R286). -/
def execTld (f : FmtT) (s : State) : Out :=
  s.guarded f.gd fun s =>
    let v := s.getW f.a
    let kd := bits f.fn.toNat 0 1
    let role := f.fn.getLsbD 1
    let kext := v.ext kd
    let oext := v.ext (1 - kd)
    (check (s.holds f.d) .protection s).run fun _ s =>
    (check (v.live && (v.space = 2 || v.space = 3) && v.rank ≤ 2 && tileFormat s.reducedService v.ty v.b8
        && extentsFit v.ty role kext oext) .viewFormat s).run fun _ s =>
    (check (match v.scl with
      | none => true
      | some c => View.scalable v.ty && c.kdim == kd && (v.dims.toList.getD kd {}).lo % 32 == 0) .viewFormat s).run fun _ s =>
    (s.viewOrder [(v, false)]).run fun _ s =>
    (Res.collect (fun (p : Nat × Nat) s => s.readElement v (tileIndex v kd p.1 p.2)) (cells oext kext) s).run fun codes s =>
    (match v.scl with
      | none => Res.ok [] s
      | some c => Res.collect (fun (p : Nat × Nat) s => s.readScale v c (scaleIndex v kd p.1 p.2))
          (cells oext ((kext + 31) / 32)) s).run fun scales s =>
      let x : Tile := {
        codes := (cells oext kext).zip codes, scales := (cells oext ((kext + 31) / 32)).zip scales, scaleFill := 0x3F800000
        kext, oext, b8 := v.b8, ty := v.ty, scaled := v.scl.isSome, role, loaded := true }
      (s.later f.la 20 [.t f.d.toNat x] (0, 0)).finish

/-- `tst` (R287): one access. -/
def execTst (f : FmtT) (s : State) : Out :=
  s.guarded f.gd fun s =>
    let v := s.getW f.d
    let t := s.tile f.a
    let kd := bits f.fn.toNat 0 1
    (check (s.holds f.a) .protection s).run fun _ s =>
    (check (f.ty == t.ty && f.c == t.b8) .illegal s).run fun _ s =>
    (check (t.loaded && v.live && 2 ≤ v.space.toNat && v.space.toNat ≤ 5 && v.ty == t.ty && v.b8 == t.b8
        && v.ext kd == t.kext && v.ext (1 - kd) == t.oext && v.count == t.kext * t.oext
        && (!t.scaled || (match v.scl with
            | none => false
            | some c => !c.e8m0 && c.kdim == kd && (v.dims.toList.getD kd {}).lo % 32 == 0))) .viewFormat s).run fun _ s =>
    (check (v.mode != 1) .protection s).run fun _ s =>
    (s.viewOrder [(v, true)]).run fun _ s =>
    let place (p : Nat × Nat) : Int := (v.elementAt (tileIndex v kd p.1 p.2)).1
    let blocks (c : Scale) : List Int := (cells t.oext ((t.kext + 31) / 32)).map fun p => v.scaleAddress c (scaleIndex v kd p.1 p.2)
    let scaleOk : Bool := match v.scl with
      | some c => !t.scaled || (blocks c).all fun a => s.elementOk v.space a 4
      | none => true
    (check (((cells t.oext t.kext).all fun p => s.elementOk v.space (place p) v.elemBytes) && scaleOk) .protection s).run fun _ s =>
      let elems := State.elementBytes v ((cells t.oext t.kext).map fun p =>
        (tileIndex v kd p.1 p.2, t.code p.1 p.2, (place p).toNat))
      let scales := match v.scl with
        | some c => if t.scaled then
            ((cells t.oext ((t.kext + 31) / 32)).map fun p =>
              bytesAt (v.scaleAddress c (scaleIndex v kd p.1 p.2)).toNat (leBytes 4 (t.scale p.1 p.2))).flatten
          else []
        | none => []
      (s.storeLocal v.space (elems.1 ++ scales) elems.2).run fun _ s =>
        let bad := (t.bad.filter fun p => p.1 < t.oext && p.2 < t.kext).map fun p => (place p).toNat / 8
        (s.setMyCore (s.myCore.setBuffer v.space (bad.foldl Mem.mark (s.myCore.buffer v.space)))).finish

/-- `ttr` (R288). -/
def execTtr (f : FmtT) (s : State) : Out :=
  s.guarded f.gd fun s =>
    let t := s.tile f.a
    let swap := f.fn.getLsbD 0
    let role := t.role != f.fn.getLsbD 1
    let kext := if swap then t.oext else t.kext
    let oext := if swap then t.kext else t.oext
    (check (s.holds f.a && s.holds f.d) .protection s).run fun _ s =>
    (check (t.loaded && !(swap && t.scaled) && extentsFit t.ty role kext oext) .viewFormat s).run fun _ s =>
      let turn (p : Nat × Nat) : Nat × Nat := if swap then (p.2, p.1) else p
      let inside (p : Nat × Nat) : Bool := p.1 < oext && p.2 < kext
      let x : Tile := { t with
        codes := (t.codes.map fun e => (turn e.1, e.2)).filter fun e => inside e.1
        bad := (t.bad.map turn).filter inside, kext, oext, role }
      (s.later f.la 16 [.t f.d.toNat x] (0, 0)).finish

/-! ### Products (07 R181 to R183) -/

/-- A block scale is valid (R168). -/
def validScale : Num → Bool
  | .fin neg m _ => !neg && m ≠ 0
  | _ => false

/-- NV of an invalid block scale; a NaN scale raises nothing (R180). -/
def scaleFlags (x : Num) : Flags :=
  match x with
  | .nan _ => {}
  | x => if validScale x then {} else Flags.invalid

/-- A magnitude times a positive finite value. -/
def Mag.times (x : Mag) : Num → Mag
  | .fin _ m e => ⟨x.m * m, x.e + e, x.sticky⟩
  | _ => x

/-- The contribution of one block (R181): pairs of element values and the two scales. -/
def contribution (ps : List (Num × Num)) (sa sb : Num) : Num × Flags :=
  if !(validScale sa && validScale sb) then (.nan false, (scaleFlags sa).or (scaleFlags sb))
  else match blockSum .rne (ps.map fun p => exactProduct p.1 p.2) with
    | .nan fl => (.nan false, fl)
    | .inf neg fl => (.inf neg, fl)
    | .zero _ => (.fin false 0 0, {})
    | .mag neg x =>
      let r := (NumFmt.ofTy 9 0).deliver .rne false (.mag neg ((Mag.times (Mag.times x sa)) sb))
      ((NumFmt.ofTy 9 0).value r.1, r.2)

/-- Element values of block b of two rows, paired. -/
def blockPairs (a b : List Num) (n : Nat) : List (Num × Num) := ((a.drop (32 * n)).take 32).zip ((b.drop (32 * n)).take 32)

/-- The floating blocks of element (i, j) of two tiles, each a contribution (R181). -/
def floatBlocks (a b : Tile) (i j : Nat) : List (Num × Flags) :=
  let x := a.row i a.kext
  let y := b.row j a.kext
  let v (c : Nat) : Num := (NumFmt.ofTy 9 0).value c
  (List.range ((a.kext + 31) / 32)).map fun n => contribution (blockPairs x y n) (v (a.scale i n)) (v (b.scale j n))

/-- The integer block sums of element (i, j) of two tiles (R182). -/
def intBlocks (a b : Tile) (i j : Nat) : List Int :=
  let v (t : Tile) (r k : Nat) : Int := operand4 t (t.code r k)
  (List.range ((a.kext + 31) / 32)).map fun n =>
    (((List.range (min 32 (a.kext - 32 * n))).map fun k => v a i (32 * n + k) * v b j (32 * n + k))).sum
where
  /-- The value of an integer element code. -/
  operand4 (t : Tile) (x : Nat) : Int :=
    if t.ty = 13 then signedOf 4 x else if t.ty = 0 then signedOf 8 x else (x % 256 : Nat)

/-- Accumulate floating contributions into a binary32 element (R181). -/
def addFloat (c : Nat) (l : List (Num × Flags)) : Nat × Flags :=
  l.foldl (fun acc x =>
    let r := (NumFmt.ofTy 9 0).deliver .rne false (exactAdd .rne ((NumFmt.ofTy 9 0).value acc.1) x.1)
    (r.1, (acc.2.or x.2).or r.2)) (c, {})

/-- Accumulate integer block sums into an INT32 element (R182). -/
def addInt (wrap : Bool) (c : Nat) (l : List Int) : Nat :=
  l.foldl (fun acc x => wrapInt 32 (if wrap then signedOf 32 acc + x else clampInt 32 true (signedOf 32 acc + x))) c

/-- A binary64 element after the steps of R183. -/
def addDouble (a b : Tile) (i j c : Nat) : Nat × Flags :=
  let f := NumFmt.ofTy 8 0
  ((a.row i a.kext).zip (b.row j a.kext)).foldl (fun acc p =>
    let r := f.deliver .rne false (exactFma .rne p.1 p.2 (f.value acc.1))
    (r.1, acc.2.or r.2)) (c, {})

/-- A poisoned element of a tile row below K. -/
def Tile.badRow (t : Tile) (r k : Nat) : Bool := t.bad.any fun p => p.1 == r && p.2 < k

/-- Bytes of a C element and of a C row of a job. -/
def SliceJob.elemBytes (j : SliceJob) : Nat := if j.kind = 1 || j.kind = 3 then 8 else 4
def SliceJob.rowBytes (j : SliceJob) : Nat := if j.kind = 1 || j.kind = 3 then 256 else 128

/-- The elements a job updates (R289, R291). -/
def SliceJob.elements (j : SliceJob) : List (Nat × Nat) :=
  match j.kind with
  | 2 => JobCells 64
  | 3 => JobCells 32
  | _ => cells j.a.oext j.b.oext
where
  JobCells (rows : Nat) : List (Nat × Nat) := cells rows 32

/-- The new code of element (i, k) of a job (R289, R291), with its flags. -/
def SliceJob.compute (j : SliceJob) (i k c : Nat) : Nat × Flags :=
  let scaledBy (f : NumFmt) : Nat × Flags :=
    f.deliver (Mode.ofCode j.rnd 0) false (exactMul (f.value c) ((NumFmt.ofTy 9 0).value j.scale))
  match j.kind with
  | 1 => addDouble j.a j.b i k (if j.z then 0 else c)
  | 2 => scaledBy (NumFmt.ofTy 9 0)
  | 3 => scaledBy (NumFmt.ofTy 8 0)
  | _ =>
    let c := if j.z then 0 else c
    if floatTile j.a.ty then addFloat c (floatBlocks j.a j.b i k) else (addInt j.wrap c (intBlocks j.a j.b i k), {})

/-- Perform a job on the C buffer: its elements written as one access, the poison they carry, and the flags by lane. -/
def SliceJob.perform (j : SliceJob) (m : Mem) : Mem × List (Nat × Flags) :=
  let place (p : Nat × Nat) : Nat := j.coff * 64 + j.rowBytes * p.1 + j.elemBytes * p.2
  let rs := j.elements.map fun p => (p, j.compute p.1 p.2 (m.nat (place p) j.elemBytes))
  let bad := (j.elements.filter fun p =>
    (!j.z && m.bad (place p) j.elemBytes) || (j.kind < 2 && (j.a.badRow p.1 j.a.kext || j.b.badRow p.2 j.a.kext))).map
      fun p => place p / 8
  let m := m.store ((rs.map fun r => bytesAt (place r.1) (leBytes j.elemBytes r.2.1)).flatten)
  (bad.foldl Mem.mark m, rs.map fun r => (r.1.2 % 16, r.2.2))

/-- Cycles of a job once started (R267, R273). -/
def SliceJob.cycles (j : SliceJob) : Nat :=
  match j.kind with
  | 0 => if j.a.ty = 13 then 64 else 32
  | 1 => 1024
  | _ => 16

/-- MATRIX_SLICE_START (R273): a free slice starts the oldest waiting instruction of slot 3, else the oldest. It completes for its
task wherever that stands (R278). -/
def execMatrixSliceStart (core : Nat) (s : State) : Out :=
  let k := s.core core
  let free : Bool := match k.slice with | some r => r.doneAt ≤ s.now | none => true
  match (if free then ((k.jobs.find? (·.slot == 3)).orElse fun _ => k.jobs.head?) else none) with
  | none => .next s
  | some j =>
    let r := j.perform k.c
    let doneAt := s.now + j.cycles
    let run : SliceRun := { slot := j.slot, lo := j.region.1, hi := j.region.2, doneAt }
    let s := s.setCore core { k with c := r.1, jobs := k.jobs.filter (·.id ≠ j.id), slice := some run }
    let fl := flagsUnless j.nf r.2
    let set (p : Pending) : Pending := if p.job = j.id then { p with doneAt := some doneAt, flagsLo := fl.1, flagsHi := fl.2 } else p
    .next (s.mapHarts fun h => { h with pend := h.pend.map set, checkPend := h.checkPend.map set })

/-! ### `mma`, `dmma`, `tscl` and `cread` -/

/-- The checks of R289; `dmma` wants f64 and the others anything else. -/
def productChecks (f : FmtT) (double : Bool) (s : State) : Res Unit :=
  let a := s.tile f.a
  let b := s.tile f.b
  let narrow (t : BitVec 4) : Bool := t = 0 || t = 4
  let pair := a.ty == b.ty || (narrow a.ty && narrow b.ty)
  (check (s.holds f.a && s.holds f.b) .protection s).bind fun _ s =>
  (check (a.loaded && b.loaded && !a.role && b.role && a.kext == b.kext) .viewFormat s).bind fun _ s =>
  (check ((a.ty == 8) == double && pair) .viewFormat s).bind fun _ s =>
  check (!(f.wrap && floatTile a.ty)) .illegal s

/-- A matrix instruction waits for its C region: for commands and streams that meet it, and for an awake bank (R276). -/
def State.regionReady (s : State) (lo n : Nat) (write : Bool) : Res Unit :=
  (s.viewOrder [(View.ofC lo n, write)]).bind fun _ s => s.useBank (.typed (hartCore s.cur) 4 0)

/-- Enter the slice's queue (R273, R278). -/
def State.enqueue (s : State) (la : BitVec 4) (j : SliceJob) : State :=
  let j := { j with id := s.nextId, slot := hartSlot s.cur }
  let s := { s with nextId := s.nextId + 1 }
  let s := s.setMyCore { s.myCore with jobs := s.myCore.jobs ++ [j] }
  s.modMe fun h => { h with pend := h.pend ++
    [{ dests := [], left := la.toNat, doneAt := none, performed := true, job := j.id, sets := !j.nf }] }

/-- `mma`, `dmma` (R289). -/
def product (f : FmtT) (kind : Nat) (s : State) : Out :=
  s.guarded f.gd fun s =>
    (productChecks f (kind == 1) s).run fun _ s =>
    (s.regionReady (f.coff.toNat * 64) 8192 true).run fun _ s =>
      (s.enqueue f.la { id := 0, slot := 0, kind, coff := f.coff.toNat, a := s.tile f.a, b := s.tile f.b, z := f.fn.getLsbD 0
                        wrap := f.wrap, nf := f.nf }).endRegion.finish

def execMma (f : FmtT) (s : State) : Out := product f 0 s
def execDmma (f : FmtT) (s : State) : Out := product f 1 s

/-- `tscl` (R291). -/
def execTscl (f : FmtT) (s : State) : Out :=
  s.guarded f.gd fun s =>
    (s.regionReady (f.coff.toNat * 64) 8192 true).run fun _ s =>
      let rnd := if f.rnd = 7 then s.me.regs.rmode else f.rnd
      (s.enqueue f.la { id := 0, slot := 0, kind := if f.fn.getLsbD 0 then 3 else 2, coff := f.coff.toNat, nf := f.nf, rnd
                        scale := (s.getS f.a).toNat % 2 ^ 32 }).endRegion.finish

/-- The value of `cread`'s element and its conversion (R292). -/
def creadElem (f : FmtT) (md : Mode) (scale : Nat) (c : Nat) : Nat × Flags :=
  let src := match f.fn.toNat % 4 with
    | 0 => NumFmt.ofTy 9 0
    | 1 => NumFmt.ofTy 2 0
    | _ => NumFmt.ofTy 8 0
  let dst := NumFmt.ofTy f.ty f.c
  if f.fn.getLsbD 2 then dst.fromExact md f.sat (exactMul (src.value c) ((NumFmt.ofTy 9 0).value scale))
  else convert src dst md f.sat c

/-- `cread` (R292). -/
def execCread (f : FmtT) (s : State) : Out :=
  s.guarded f.gd fun s =>
    let lo := f.coff.toNat * 64
    let w := if f.fn.toNat % 4 = 2 then 8 else 4
    (s.regionReady lo 64 false).run fun _ s =>
    (s.loadLocal 4 lo 64).run fun b s =>
      let r (e : Nat) : Nat × Flags := creadElem f (s.mode f.rnd) ((s.getS f.a).toNat % 2 ^ 32) (fileNat b (w * e) w)
      let fl := (List.range (64 / w)).map fun e => (e * w / 4, (r e).2)
      (s.putV f.d (tyWidth f.ty) 0xFFFF (fun e => if e < 64 / w then (r e).1 else 0) (some (f.la, 4)) (flagsUnless f.nf fl) (!f.nf)).run
        fun _ s => s.finish

/-! ### Gangs (R280, R290) -/

/-- What the members of an episode must agree on (R280). -/
def Arrival.terms (a : Arrival) : List Nat :=
  [a.a.ty.toNat, a.a.b8.toNat, a.b.ty.toNat, a.b.b8.toNat, a.a.kext, a.a.oext, a.b.oext, bit a.z, bit a.wrap]

/-- The sum that member m keeps, over all members in rising order (R290): its C buffer and its flags. -/
def gangSum (l : List Arrival) (m : Arrival) (c : Mem) : Mem × List (Nat × Flags) :=
  let rows := (cells m.a.oext m.b.oext).filter fun p => p.1 / 8 == m.member
  let place (p : Nat × Nat) : Nat := m.coff * 64 + 128 * (p.1 - 8 * m.member) + 4 * p.2
  let new (p : Nat × Nat) : Nat × Flags :=
    let c0 := if m.z then 0 else c.nat (place p) 4
    if floatTile m.a.ty then addFloat c0 ((l.map fun q => floatBlocks q.a q.b p.1 p.2).flatten)
    else (addInt m.wrap c0 ((l.map fun q => intBlocks q.a q.b p.1 p.2).flatten), {})
  let rs := rows.map fun p => (p, new p)
  let bad := (rows.filter fun p => (!m.z && c.bad (place p) 4)
    || l.any fun q => q.a.badRow p.1 q.a.kext || q.b.badRow p.2 q.a.kext).map fun p => place p / 8
  let c := c.store ((rs.map fun r => bytesAt (place r.1) (leBytes 4 r.2.1)).flatten)
  (bad.foldl Mem.mark c, rs.map fun r => (r.1.2 % 16, r.2.2))

/-- The arrivals in rising order of member. -/
def inOrder (l : List Arrival) : List Arrival := ((List.range 8).map fun m => l.filter (·.member == m)).flatten

namespace State

/-- All eight members of a gang have arrived (R280): the episode resolves, with the sums when they agree. -/
def resolveGang (s : State) (i : Nat) (g : Gang) : State :=
  let l := inOrder g.arrived
  let agree := match l with | [] => true | a :: t => t.all fun b => a.terms == b.terms
  if !agree then { s with gangs := s.gangs.set i (g.resolve 4) }
  else
    let s := { s with gangs := s.gangs.set i { g with arrived := [], episode := g.episode + 1 } }
    l.foldl (fun s m =>
      let core := (g.slots.getD m.member (0, 0)).1
      let r := gangSum l m (s.core core).c
      let fl := flagsUnless m.nf r.2
      let run : SliceRun := { slot := (g.slots.getD m.member (0, 0)).2, lo := m.coff * 64, hi := m.coff * 64 + 1024, doneAt := s.now + 128 }
      let k := s.core core
      let s := s.setCore core { k with c := r.1, mmgs := k.mmgs.filter (fun q => decide (s.now < q.doneAt)) ++ [run] }
      let g := s.gangs.get i g
      let x : GangResult := { member := m.member, status := 0, doneAt := s.now + 128, flagsLo := fl.1, flagsHi := fl.2 }
      { s with gangs := s.gangs.set i { g with results := g.results ++ [x] } }) s

/-- A `mmg` is over with a status (R280): the episode counts, S[D] takes the status after the window and at the cycle at which
the instruction completes (R273). -/
def mmgOver (s : State) (f : FmtT) (status doneAt : Nat) (flags : Word × Word) : Out :=
  let s := s.modMe fun h => { h with task := h.task.map fun t => { t with episode := t.episode + 1 } }
  (s.laterPerformed f.la (some doneAt) (destS f.d (BitVec.ofNat 64 status)) flags (!f.nf)).endRegion.finish

end State

/-- `mmg` (R280, R290): an arrival is not repeated, so a region begins at the word as the member arrives. -/
def execMmg (f : FmtT) (s : State) : Out :=
  s.guarded f.gd fun s =>
    let t := s.me.task.getD {}
    let m := t.desc.lo
    match t.gang.bind fun i => (s.gangs.find i).map fun g => (i, g) with
    | none => (productChecks f false s).run fun _ s => s.mmgOver f 3 s.now (0, 0)
    | some (i, g) =>
      match g.results.find? (·.member == m) with
      | some r =>
        let s := { s with gangs := s.gangs.set i { g with results := g.results.filter (·.member ≠ m) } }
        s.mmgOver f r.status r.doneAt (r.flagsLo, r.flagsHi)
      | none =>
        if g.arrived.any (·.member == m) then .next (s.stall .gang)
        else
          (productChecks f false s).run fun _ s =>
          if g.timedOut == some t.episode then .next (s.raise .gang)
          else if g.broken then s.mmgOver f 2 s.now (0, 0)
          else
            (s.regionReady (f.coff.toNat * 64) 1024 true).run fun _ s =>
            if s.myCore.sliceBusy s.now (hartSlot s.cur) (f.coff.toNat * 64) (f.coff.toNat * 64 + 1024) then .next (s.stall .slice)
            else
              let a : Arrival := { member := m, a := s.tile f.a, b := s.tile f.b, coff := f.coff.toNat, z := f.fn.getLsbD 0
                                   wrap := f.wrap, nf := f.nf }
              let g := if g.arrived.isEmpty then { g with since := s.now } else g
              let g := { g with arrived := g.arrived ++ [a] }
              let s := { s with gangs := s.gangs.set i g }.modMe Hart.arrive
              .next ((if g.arrived.length = 8 then s.resolveGang i g else s).stall .gang)

/-- GANGWAIT_EXPIRE (R280): the open episode fails by timeout. -/
def execGangwaitExpire (gang : Nat) (s : State) : Out :=
  match s.gangs.find gang with
  | none => .next s
  | some g =>
    if g.arrived.isEmpty || s.now < g.since + g.limit then .next s
    else .next { s with gangs := s.gangs.set gang { g.resolve 1 with broken := true, timedOut := some g.episode } }

end Sys2Proof.Machine
end

