-- ==== Sys2Proof/Machine/Vector.lean ====
section
/-! DEFINITION. The vector instructions that stay in registers (08 R192 to R205). -/

namespace Sys2Proof.Machine

open Sys2Proof

/-- One instruction over the elements of up to three source registers (R187 to R193): the element operation gives a
code and its flags. -/
def lanewise (f : FmtA) (w : Nat) (srcs : List (BitVec 5)) (long : Option Nat)
    (g : State → Nat → List Nat → Nat × Flags) (s : State) : Out :=
  s.guarded f.gd fun s =>
    (s.sources srcs).run fun vs s =>
      let k := s.getK f.c
      let r (e : Nat) : Nat × Flags := g s e (vs.map fun v => elem w v e)
      let fl := ((List.range (512 / w)).filter (active w k)).map fun e => (laneOf w e, (r e).2)
      (s.putV f.d w k (fun e => (r e).1) (long.map fun n => (f.la, n)) (flagsUnless f.nf fl) (!f.nf)).run fun _ s => s.finish

/-- Element arithmetic by TYPE (R193): exact integers clamped or wrapped, or one rounding of a floating result. -/
def arith (f : FmtA) (i : Int → Int → Int) (x : Mode → Num → Num → Num → Exact) (s : State) (l : List Nat) : Nat × Flags :=
  let w := tyWidth f.ty
  if tyInt f.ty then
    let v (n : Nat) : Int := operand f.ty (BitVec.ofNat 64 n)
    let y := i (v (l.getD 0 0)) (v (l.getD 1 0))
    (wrapInt w (if f.sat then clampInt w (tySigned f.ty) y else y), {})
  else
    let t := NumFmt.ofTy f.ty 0
    t.deliver (s.mode f.rnd) f.sat
      (x (s.mode f.rnd) (t.value (l.getD 0 0)) (t.value (l.getD 1 0)) (t.value (l.getD 2 0)))

/-- `vmin`, `vmax` (R194): `less` says which of the two is taken when they differ. -/
def minMax (f : FmtA) (max : Bool) (l : List Nat) : Nat × Flags :=
  let a := l.getD 0 0
  let b := l.getD 1 0
  let x := comparand f.ty a
  let y := comparand f.ty b
  if anyNan [x, y] then ((NumFmt.ofTy f.ty 0).nanCode, nanFlags [x, y])
  else if Num.cmp x y == some (if max then .lt else .gt) then (b, {}) else (a, {})

/-- A shift of an element (R193). -/
def shiftElem (f : FmtA) (left : Bool) (l : List Nat) : Nat × Flags :=
  let w := tyWidth f.ty
  let a := operand f.ty (BitVec.ofNat 64 (l.getD 0 0))
  let n := l.getD 1 0 % w
  (wrapInt w (if left then a * 2 ^ n else a / 2 ^ n), {})

/-- `vabs`, `vneg` (R193). -/
def signElem (f : FmtA) (neg : Bool) (l : List Nat) : Nat × Flags :=
  let w := tyWidth f.ty
  let n := l.getD 0 0
  if tyInt f.ty then
    let a := operand f.ty (BitVec.ofNat 64 n)
    (wrapInt w (if neg then -a else a.natAbs), {})
  else if anyNan [comparand f.ty n] then ((NumFmt.ofTy f.ty 0).nanCode, {})
  else (if neg then Nat.xor n (2 ^ (w - 1)) else n % 2 ^ (w - 1), {})

def execVadd (f : FmtA) (s : State) : Out :=
  lanewise f (tyWidth f.ty) [f.a, f.b] none (fun s _ => arith f (· + ·) (fun md a b _ => exactAdd md a b) s) s
def execVsub (f : FmtA) (s : State) : Out :=
  lanewise f (tyWidth f.ty) [f.a, f.b] none (fun s _ => arith f (· - ·) (fun md a b _ => exactAdd md a b.neg) s) s
def execVmul (f : FmtA) (s : State) : Out :=
  lanewise f (tyWidth f.ty) [f.a, f.b] none (fun s _ => arith f (· * ·) (fun _ a b _ => exactMul a b) s) s
def execVfma (f : FmtA) (s : State) : Out :=
  lanewise f (tyWidth f.ty) [f.a, f.b, f.d] none (fun s _ => arith f (· + ·) exactFma s) s
def execVfms (f : FmtA) (s : State) : Out :=
  lanewise f (tyWidth f.ty) [f.a, f.b, f.d] none (fun s _ => arith f (· + ·) (fun md a b c => exactFma md a b c.neg) s) s
def execVmin (f : FmtA) (s : State) : Out := lanewise f (tyWidth f.ty) [f.a, f.b] none (fun _ _ => minMax f false) s
def execVmax (f : FmtA) (s : State) : Out := lanewise f (tyWidth f.ty) [f.a, f.b] none (fun _ _ => minMax f true) s
def execVabs (f : FmtA) (s : State) : Out := lanewise f (tyWidth f.ty) [f.a] none (fun _ _ => signElem f false) s
def execVneg (f : FmtA) (s : State) : Out := lanewise f (tyWidth f.ty) [f.a] none (fun _ _ => signElem f true) s
def execVand (f : FmtA) (s : State) : Out :=
  lanewise f 32 [f.a, f.b] none (fun _ _ l => (Nat.land (l.getD 0 0) (l.getD 1 0), {})) s
def execVor (f : FmtA) (s : State) : Out :=
  lanewise f 32 [f.a, f.b] none (fun _ _ l => (Nat.lor (l.getD 0 0) (l.getD 1 0), {})) s
def execVxor (f : FmtA) (s : State) : Out :=
  lanewise f 32 [f.a, f.b] none (fun _ _ l => (Nat.xor (l.getD 0 0) (l.getD 1 0), {})) s
def execVshl (f : FmtA) (s : State) : Out := lanewise f (tyWidth f.ty) [f.a, f.b] none (fun _ _ => shiftElem f true) s
def execVshr (f : FmtA) (s : State) : Out := lanewise f (tyWidth f.ty) [f.a, f.b] none (fun _ _ => shiftElem f false) s
def execVsra (f : FmtA) (s : State) : Out := lanewise f (tyWidth f.ty) [f.a, f.b] none (fun _ _ => shiftElem f false) s

/-- The flags of a comparison (R195). -/
def compareFlags (cond ty : BitVec 4) (a b : Num) : Flags :=
  if tyInt ty then {}
  else if 2 ≤ cond.toNat && cond.toNat ≤ 5 then (if anyNan [a, b] then Flags.invalid else {})
  else nanFlags [a, b]

/-- `vcmp` (R195). -/
def execVcmp (f : FmtA) (s : State) : Out :=
  s.guarded f.gd fun s =>
    (s.sources [f.a, f.b]).run fun vs s =>
      let w := tyWidth f.ty
      let k := s.getK f.c
      let a (e : Nat) := comparand f.ty (elem w (vs.getD 0 0) e)
      let b (e : Nat) := comparand f.ty (elem w (vs.getD 1 0) e)
      let on := (List.range (512 / w)).filter (active w k)
      let bit (i : Nat) : Bool :=
        let e := i * 32 / w
        if active w k e then condHolds f.fn (a e) (b e) else (s.getK f.d).getLsbD i
      let x : BitVec 16 := BitVec.ofNat 16 (((List.range 16).map fun i => if bit i then 2 ^ i else 0).sum)
      let fl := on.map fun e => (laneOf w e, compareFlags f.fn f.ty (a e) (b e))
      ((s.setK f.d x).addFlags (flagsUnless f.nf fl)).finish

/-- `vsel` (R196). -/
def execVsel (f : FmtA) (s : State) : Out :=
  s.guarded f.gd fun s =>
    (s.sources [f.a, f.b]).run fun vs s =>
      let k := s.getK f.c
      (s.putV f.d 32 0xFFFF (fun e => if k.getLsbD e then elem 32 (vs.getD 0 0) e else elem 32 (vs.getD 1 0) e) none (0, 0)).run
        fun _ s => s.finish

/-- `vmov` (R196). -/
def execVmov (f : FmtA) (s : State) : Out := lanewise f 32 [f.a] none (fun _ _ l => (l.getD 0 0, {})) s

/-- `vclass` (R197). -/
def execVclass (f : FmtA) (s : State) : Out :=
  lanewise f (tyWidth f.ty) [f.a] none (fun _ _ l => (classCode (NumFmt.ofTy f.ty 0) (l.getD 0 0), {})) s

/-- `vperm` (R198). -/
def execVperm (f : FmtA) (s : State) : Out :=
  s.guarded f.gd fun s =>
    (s.sources [f.a, f.b]).run fun vs s =>
      let w := tyWidth f.ty
      (s.putV f.d w (s.getK f.c) (fun e => elem w (vs.getD 0 0) (elem w (vs.getD 1 0) e % (512 / w))) none (0, 0)).run
        fun _ s => s.finish

/-- `vperm2` (R198). -/
def execVperm2 (f : FmtA) (s : State) : Out :=
  s.guarded f.gd fun s =>
    (s.sources [f.a, f.b, f.d]).run fun vs s =>
      let w := tyWidth f.ty
      let n := 512 / w
      let pick (e : Nat) : Nat :=
        let t := elem w (vs.getD 1 0) e % (2 * n)
        if t < n then elem w (vs.getD 0 0) t else elem w (vs.getD 2 0) (t - n)
      (s.putV f.d w (s.getK f.c) pick none (0, 0)).run fun _ s => s.finish

/-- `vbcast` (R198). -/
def execVbcast (f : FmtA) (s : State) : Out :=
  s.guarded f.gd fun s =>
    (s.putV f.d (tyWidth f.ty) (s.getK f.c) (fun _ => (s.getS f.a).toNat) none (0, 0)).run fun _ s => s.finish

/-- `vext` (R198). -/
def execVext (f : FmtA) (s : State) : Out :=
  s.guarded f.gd fun s =>
    (s.sources [f.a]).run fun vs s =>
      let w := tyWidth f.ty
      (s.setS f.d (extend f.ty (elem w (vs.getD 0 0) ((s.getS f.b).toNat % (512 / w))))).finish

/-- `vins` (R198). With D bound to an output stream there is no V[D] of which the other elements could stay: the push has 0 there
(log entry 96). -/
def execVins (f : FmtA) (s : State) : Out :=
  s.guarded f.gd fun s =>
    let w := tyWidth f.ty
    let j := (s.getS f.b).toNat % (512 / w)
    let old := s.me.regs.getV f.d
    let out := match s.streamOf f.d with | some st => st.output | none => false
    (s.putV f.d w 0xFFFF (fun e => if e = j then (s.getS f.a).toNat else if out then 0 else elem w old e) none (0, 0)).run
      fun _ s => s.finish

/-- `kop` (R199). -/
def execKop (f : FmtA) (s : State) : Out :=
  s.guarded f.gd fun s =>
    let a := s.getK f.a
    let b := s.getK f.b
    (match f.fn.toNat with
     | 0 => s.setK f.d (a &&& b)
     | 1 => s.setK f.d (a ||| b)
     | 2 => s.setK f.d (a ^^^ b)
     | 3 => s.setK f.d (a &&& ~~~b)
     | 4 => s.setK f.d (~~~a)
     | 5 => s.setK f.d ((s.getS f.a).setWidth 16)
     | 6 => s.setS f.d (a.setWidth 64)
     | 7 => s.setS f.d (BitVec.ofNat 64 ((List.range 16).filter fun i => a.getLsbD i).length)
     | _ => s.setS f.d (BitVec.ofNat 64 (((List.range 16).find? fun i => a.getLsbD i).getD 16))).finish

/-- `vcvt` (R200, R201): elements above the narrower result are zero. -/
def execVcvt (f : FmtA) (s : State) : Out :=
  s.guarded f.gd fun s =>
    (s.sources [f.a]).run fun vs s =>
      let ws := tyWidth f.fn
      let wd := tyWidth f.ty
      let n := 512 / max ws wd
      let src := NumFmt.ofTy f.fn f.b
      let dst := NumFmt.ofTy f.ty f.b
      let k := s.getK f.c
      let r (e : Nat) := convert src dst (s.mode f.rnd) f.sat (elem ws (vs.getD 0 0) e)
      let on := (List.range n).filter fun e => ws ≠ wd || active wd k e
      let fl := on.map fun e => (laneOf (max ws wd) e, (r e).2)
      let k := if ws = wd then k else 0xFFFF
      (s.putV f.d wd k (fun e => if e < n then (r e).1 else 0) none (flagsUnless f.nf fl)).run fun _ s => s.finish

/-! ### Reductions and scans (R185, R202) -/

/-- Two codes combined by an operator of R202: sum, min, max, and, or, xor. -/
def combine (f : FmtA) (md : Mode) (a b : Nat) : Nat × Flags :=
  let w := tyWidth f.ty
  let t := NumFmt.ofTy f.ty 0
  let x := comparand f.ty a
  let y := comparand f.ty b
  let below : Bool := match Num.cmp x y with
    | some .lt => true
    | some .eq => !tyInt f.ty && a.testBit (w - 1)
    | _ => false
  match f.fn.toNat with
  | 0 => if tyInt f.ty then ((a + b) % 2 ^ w, {}) else t.deliver md false (exactAdd md x y)
  | 1 => if anyNan [x, y] then (t.nanCode, nanFlags [x, y]) else (if below then a else b, {})
  | 2 => if anyNan [x, y] then (t.nanCode, nanFlags [x, y]) else (if below then b else a, {})
  | 3 => (Nat.land a b, {})
  | 4 => (Nat.lor a b, {})
  | _ => (Nat.xor a b, {})

/-- What an inactive element enters as (R202); for min and max, the value that changes nothing. -/
def identity (f : FmtA) : Nat :=
  let w := tyWidth f.ty
  let t := NumFmt.ofTy f.ty 0
  match f.fn.toNat with
  | 0 => if tyInt f.ty then 0 else t.zeroCode true
  | 1 => if tyInt f.ty then wrapInt w (intMax w (tySigned f.ty)) else (t.infCode false).getD 0
  | 2 => if tyInt f.ty then wrapInt w (intMin w (tySigned f.ty)) else (t.infCode true).getD 0
  | 3 => 2 ^ w - 1
  | _ => 0

/-- One step of the tree of R185: adjacent results combined. -/
def pairUp (c : Nat → Nat → Nat × Flags) : List Nat → List (Nat × Flags)
  | a :: b :: t => c a b :: pairUp c t
  | [a] => [(a, {})]
  | [] => []

/-- The tree of R185 over so many steps. -/
def tree (c : Nat → Nat → Nat × Flags) : Nat → List Nat → Nat × Flags
  | 0, l => (l.headD 0, {})
  | n + 1, l =>
    let p := pairUp c l
    let r := tree c n (p.map (·.1))
    (r.1, (p.map (·.2)).foldl Flags.or r.2)

/-- A single NaN that no step has met becomes canonical in a minimum or maximum (R185). -/
def settleNan (f : FmtA) (a : Nat) : Nat × Flags :=
  let x := comparand f.ty a
  if !tyInt f.ty && (f.fn = 1 || f.fn = 2) && anyNan [x] then ((NumFmt.ofTy f.ty 0).nanCode, nanFlags [x]) else (a, {})

/-- `vred` (R202). With D bound to an output stream there is no V[D] of which elements 1 to n - 1 could stay: the push has 0 there
(log entry 96). -/
def execVred (f : FmtA) (s : State) : Out :=
  s.guarded f.gd fun s =>
    (s.sources [f.a]).run fun vs s =>
      let w := tyWidth f.ty
      let k := s.getK f.c
      let md := s.mode f.rnd
      let l := (List.range (512 / w)).map fun e => if active w k e then elem w (vs.getD 0 0) e else identity f
      let r := tree (combine f md) (if w = 32 then 4 else 3) l
      let old := s.me.regs.getV f.d
      let out := match s.streamOf f.d with | some st => st.output | none => false
      (s.putV f.d w 0xFFFF (fun e => if e = 0 then r.1 else if out then 0 else elem w old e) (some (f.la, 6))
        (flagsUnless f.nf [(0, r.2)]) (!f.nf)).run fun _ s => s.finish

/-- The prefixes of a scan and their flags (R185, R202): the first element is taken as it stands, a NaN in a sum too, which the next
step meets (log entry 102). -/
def prefixes (f : FmtA) (md : Mode) : List Nat → List (Nat × Flags)
  | [] => []
  | a :: t =>
    let first := settleNan f a
    first :: (t.foldl (fun (acc : List (Nat × Flags) × Nat) x =>
      let r := combine f md acc.2 x
      (acc.1 ++ [r], r.1)) ([], first.1)).1

/-- `vscan` (R202). -/
def execVscan (f : FmtA) (s : State) : Out :=
  s.guarded f.gd fun s =>
    (s.sources [f.a]).run fun vs s =>
      let w := tyWidth f.ty
      let k := s.getK f.c
      let l := (List.range (512 / w)).map fun e => if active w k e then elem w (vs.getD 0 0) e else identity f
      let ps := prefixes f (s.mode f.rnd) l
      let fl := ((List.range (512 / w)).filter (active w k)).map fun e => (laneOf w e, (ps.getD e (0, {})).2)
      (s.putV f.d w k (fun e => (ps.getD e (0, {})).1) (some (f.la, 8)) (flagsUnless f.nf fl) (!f.nf)).run fun _ s => s.finish

/-- One lane of `vdot` (R203): the products of the packed elements and the accumulator, summed exactly. -/
def dotLane (f : FmtA) (md : Mode) (a b acc : Nat) : Nat × Flags :=
  if tyInt f.ty then
    let v (x i : Nat) : Int := operand f.ty (BitVec.ofNat 64 (bits x (8 * i) 8))
    let y : Int := signedOf 32 acc + ((List.range 4).map fun i => v a i * v b i).sum
    (wrapInt 32 (if f.sat then clampInt 32 true y else y), {})
  else
    let t := NumFmt.ofTy f.ty 0
    let out := NumFmt.ofTy 9 0
    let v (x i : Nat) : Num := t.value (bits x (16 * i) 16)
    let ps := (List.range 2).map fun i => (v a i, v b i)
    let zeroInf := ps.any fun p => (exactProduct p.1 p.2).isNone && !anyNan [p.1, p.2]
    let operands := out.value acc :: (ps.map fun p => [p.1, p.2]).flatten
    if anyNan operands || zeroInf then
      (out.nanCode, Flags.or (nanFlags operands) (if zeroInf then Flags.invalid else {}))
    else out.deliver md f.sat (blockSum md (some (out.value acc) :: ps.map fun p => exactProduct p.1 p.2))

/-- `vdot` (R203). -/
def execVdot (f : FmtA) (s : State) : Out :=
  lanewise f 32 [f.a, f.b, f.d] (some 4) (fun s _ l => dotLane f (s.mode f.rnd) (l.getD 0 0) (l.getD 1 0) (l.getD 2 0)) s

/-- A function of one or two floating elements, rounded once (R204). -/
def function (f : FmtA) (x : Num → Num → Exact) (s : State) (l : List Nat) : Nat × Flags :=
  let t := NumFmt.ofTy f.ty 0
  t.deliver (s.mode f.rnd) false (x (t.value (l.getD 0 0)) (t.value (l.getD 1 0)))

def execVrcp (f : FmtA) (s : State) : Out :=
  lanewise f (tyWidth f.ty) [f.a] (some 8) (fun s _ => function f (fun a _ => exactRcp a) s) s
def execVrsqrt (f : FmtA) (s : State) : Out :=
  lanewise f (tyWidth f.ty) [f.a] (some 8) (fun s _ => function f (fun a _ => exactRsqrt a) s) s
def execVexp2 (f : FmtA) (s : State) : Out :=
  lanewise f (tyWidth f.ty) [f.a] (some 10) (fun s _ => function f (fun a _ => exactExp2 a) s) s
def execVlog2 (f : FmtA) (s : State) : Out :=
  lanewise f (tyWidth f.ty) [f.a] (some 10) (fun s _ => function f (fun a _ => exactLog2 a) s) s
def execVsqrt (f : FmtA) (s : State) : Out :=
  lanewise f (tyWidth f.ty) [f.a] (some (if f.ty = 8 then 24 else 12)) (fun s _ => function f (fun a _ => exactSqrt a) s) s
def execVdiv (f : FmtA) (s : State) : Out :=
  lanewise f (tyWidth f.ty) [f.a, f.b] (some (if f.ty = 8 then 28 else 14)) (fun s _ => function f exactDiv s) s

end Sys2Proof.Machine
end

