-- ==== Sys2Proof/Machine/Engines.lean ====
section
/-! DEFINITION. The Causeway and Crossing engines (10 R245 to R266): commands as they issue, the kick, granules,
completion, collectives, and the tag waits. -/

namespace Sys2Proof.Machine

open Sys2Proof

/-! ### Issue (R246, R250, R251, R136) -/

namespace Command

def scaleAgrees (dst src : View) : Bool :=
  match dst.scl, src.scl with
  | none, none => true
  | some d, some c => dst.ext d.kdim == src.ext c.kdim && !(d.e8m0 && !c.e8m0)
  | _, _ => false

/-- The TYPE codes of a collective that computes (R264). -/
def collType (ty : BitVec 4) : Bool :=
  ty == 2 || ty == 3 || ty == 6 || ty == 7 || ty == 8 || ty == 9 || ty == 10 || ty == 11

/-- One count is n times the other for a number of members that a group may have (R263, R264). -/
def times (a b : Nat) : Bool := a % max b 1 == 0 && 2 ≤ a / max b 1 && a / max b 1 ≤ 4096

/-- The view agreement that the command's own rule asks for (R259, R264). -/
def agrees (c : Command) : Bool :=
  match c.op with
  | .cfill _ => true
  | .cpy | .cpys _ => c.dst.count == c.src.count && c.dst.width == c.src.width && scaleAgrees c.dst c.src
  | .coll op =>
    c.dst.width == c.src.width
      && (op == 3 || op == 5 || (collType c.dst.ty && collType c.src.ty))
      && (if op = 3 then times c.dst.count c.src.count
          else if op = 4 then times c.src.count c.dst.count
          else c.dst.count == c.src.count)

/-- The views a command names. -/
def named (c : Command) : List View := match c.op with | .cfill _ => [c.dst] | _ => [c.dst, c.src]

end Command

/-- The checks of R251, in order. -/
def commandChecks (c : Command) (s : State) : Res Unit :=
  (check (c.named.all fun v => v.state != .empty) .viewFormat s).bind fun _ s =>
  (Res.each (fun v s => if v.live then .ok () s else checkView v s) c.named s).bind fun _ s =>
  (check (!(c.dst.live && c.dst.mode == 1)) .protection s).bind fun _ s =>
  (check c.agrees .viewFormat s).bind fun _ s =>
  checkAt (match c.op with | .cpys _ | .coll _ => c.aux.toNat % 8 == 0 | _ => true) .alignment c.aux s

namespace State

/-- The command that a word makes, with its views and scalars as they stand at issue (R250). -/
def command (s : State) (f : FmtE) (op : CommandOp) (src : View) (aux : Word) : Command :=
  { id := s.nextId, word := s.me.insn, op, state := if s.guardOpen f.gd then .held f.gd.toNat else .queued,
    dst := s.getW f.d, src, dstReg := f.d.toNat, aux, tag := f.tag.toNat, mbx := if f.mbx then some (s.getS f.c) else none,
    split := f.split.toNat, scope := f.scope, core := hartCore s.cur, slot := hartSlot s.cur,
    launch := (s.me.task.getD {}).desc.launch, asid := s.asidOf s.cur, part := s.partOf s.cur }

/-- A command takes an entry of its slot's queue (R246) and is work of its launch (R348). -/
def enterQueue (s : State) (c : Command) : State :=
  let s := s.modLaunch c.part c.launch fun x => { x with commands := x.commands + 1 }
  ({ s with nextId := s.nextId + 1 }).modMe fun h => { h with queue := h.queue ++ [c] }

end State

/-- Issue a command (R246, R251, R136): a false guard makes it a no-op, an open one holds it without checks. -/
def issueCommand (f : FmtE) (op : CommandOp) (src : View) (aux : Word) (s : State) : Out :=
  if !s.guardOpen f.gd && !s.me.regs.guard f.gd then s.finish
  else if 16 ≤ s.me.queue.length then .next (s.stall .queue)
  else
    let c := s.command f op src aux
    if s.guardOpen f.gd then (s.enterQueue c).finish
    else (commandChecks c s).run fun _ s => (s.enterQueue c).endRegion.finish

/-- `cpy` (R259). -/
def execCpy (f : FmtE) (s : State) : Out := issueCommand f .cpy (s.getW f.a) 0 s
/-- `cpys` (R261). -/
def execCpys (f : FmtE) (s : State) : Out := issueCommand f (.cpys (f.fn == 1)) (s.getW f.a) (s.getS f.b) s
/-- `coll` (R263). -/
def execColl (f : FmtE) (s : State) : Out := issueCommand f (.coll f.fn.toNat) (s.getW f.a) (s.getS f.b) s
/-- `cfill` (R259). -/
def execCfill (f : FmtE) (s : State) : Out := issueCommand f (.cfill (s.getS f.a)) {} 0 s

/-! ### Where commands stand -/

namespace State

/-- The commands of a site, in program order. -/
def commandsAt (s : State) : Site → List Command
  | .hart h => (s.hart h).queue
  | .die d => (s.die d).orphans

/-- The commands of a site replaced. -/
def setCommands (s : State) (site : Site) (l : List Command) : State :=
  match site with
  | .hart h => s.modHart h fun x => { x with queue := l }
  | .die d => s.setDie d { s.die d with orphans := l }

/-- One command of a site changed. -/
def modCommand (s : State) (site : Site) (id : Nat) (f : Command → Command) : State :=
  s.setCommands site ((s.commandsAt site).map fun c => if c.id = id then f c else c)

end State

/-- The commands of the records that work holds. -/
def commandsIn (l : List Work) : List Command := (l.map fun w => match w with | .desc _ => [] | .replay h _ _ => h.queue).flatten
/-- The commands of the records in a core's deques and spill areas. -/
def Core.commands (k : Core) : List Command :=
  commandsIn k.dequeN ++ commandsIn k.dequeU ++ commandsIn k.spillN ++ commandsIn k.spillU
/-- The commands of the records that wait in a cluster's miss queue. -/
def Cluster.commands (k : Cluster) : List Command := (k.misses.map fun e => (e.records.map fun r => r.1.queue).flatten).flatten

/-- A change of a hart's commands. -/
def Hart.mapQueue (f : List Command → List Command) (h : Hart) : Hart := { h with queue := f h.queue }

namespace State

/-- A save stands for its partition (R338): that is saved, and this is its last save. -/
def current (s : State) (v : Save) : Bool :=
  (s.partition v.partition.id).preempt == .saved
    && s.saves.all fun u => u.partition.id ≠ v.partition.id || u.number ≤ v.number

/-- Every command that exists: of slots, of dies, of task records and of saved tenants. -/
def allCommands (s : State) : List Command :=
  (s.harts.map fun e => e.2.queue).flatten ++ (s.dies.map fun e => e.2.orphans).flatten ++ (s.cores.map (·.2.commands)).flatten
    ++ (s.clusters.map (·.2.commands)).flatten ++ (s.partitions.map fun e => commandsIn e.2.ready).flatten
    ++ ((s.saves.filter s.current).map fun v => (v.harts.map fun e => e.2.2.queue).flatten ++ v.orphans ++ commandsIn v.partition.ready
        ++ (v.cores.map (·.commands)).flatten ++ (v.clusters.map (·.commands)).flatten).flatten

/-- A change of the commands of every site, record and save. -/
def mapQueues (s : State) (f : List Command → List Command) : State :=
  let s := s.mapHarts (·.mapQueue f)
  { s with dies := s.dies.update fun _ d => { d with orphans := f d.orphans }
           saves := s.saves.map fun v => { v with orphans := f v.orphans } }

/-- A task of a partition runs in some slot: it is not parked (R327). -/
def tasksRun (s : State) (p : Nat) : Bool :=
  s.harts.any fun e => match e.2.task with | some t => t.desc.part == p && e.2.parked.isNone | none => false

/-- Engines run the commands of a partition until it is being pre-empted and its tasks have ended; then a kicked command of one
granule runs on (R327). A saved partition's do not run (R254). -/
def mayRun (s : State) (c : Command) : Bool :=
  c.part == 0 || (match (s.partition c.part).preempt with
    | .running | .restoring => true
    | .stopping => s.tasksRun c.part || (c.split == 0 && c.state == .kicked)
    | .saved => false)

/-- A partition is saved (R338): what it holds waits for its restore. -/
def isSaved (s : State) (p : Nat) : Bool := (s.partition p).preempt == .saved

/-- The commands of a task that keeps its slot while it is parked wait for its replay (R253, R323), and those of a task that owes a trap
go no further (R320). -/
def siteParked (s : State) : Site → Bool
  | .hart h => (s.hart h).parked.isSome || (s.hart h).verdict.isSome
  | .die _ => false

end State

/-! ### Completion (R255, R256, R260) -/

/-- The completion message without its stamp (R260). -/
def Command.message (c : Command) (status : Nat) : List Byte :=
  leBytes 8 c.word.toNat ++ [BitVec.ofNat 8 status, 0, 0, 0] ++ leBytes 4 c.launch ++ leBytes 8 c.bytes ++ List.replicate 32 0

/-- A completion sets a tag (R256): a tag that is set stays as it is. -/
def Hart.setTag (h : Hart) (tag status : Nat) : Hart :=
  if h.tagdone.getLsbD tag then h
  else { h with tagdone := h.tagdone ||| BitVec.ofNat 64 (2 ^ tag),
                tagfail := if status = 0 then h.tagfail else h.tagfail.set tag status }

namespace State

/-- A command leaves its queue and is no longer work of its launch (R246, R348); a use without commands is gone. -/
def leaveQueue (s : State) (site : Site) (c : Command) : State :=
  let s := s.setCommands site ((s.commandsAt site).filter (·.id ≠ c.id))
  let live := s.allCommands.map (·.id)
  let s := { s with uses := s.uses.filter fun u => u.members.any fun m => live.contains m.command }
  s.commandOver c.part c.launch 1

/-- Complete a command with a status (R255, R256, R260): by its tag, or by its message, which is held while the ring is
full or on its way to another package. -/
def completeCommand (s : State) (site : Site) (c : Command) (status : Nat) : State :=
  match c.mbx with
  | none =>
    let s := match site with
      | .hart h => s.modHart h fun x => x.setTag c.tag status
      | .die _ => s
    s.leaveQueue site c
  | some h =>
    match s.deliver c.part h (c.message status) with
    | (s, 0) => s.leaveQueue site c
    | (s, 1) => s.modCommand site c.id fun _ => { c with status := some status, away := false }
    | (s, 5) => s.modCommand site c.id fun _ => { c with status := some status, away := true }
    | (s, _) => (s.drop c.part).leaveQueue site c

end State

/-! ### Engine accesses (R255) -/

/-- What an engine's operation comes to: a value, a wait, or a failure with a status. -/
inductive Eng (α : Type) where
  | ok (x : α) (s : State)
  | wait (s : State)
  | fail (status : Nat) (s : State)

def Eng.bind {α β : Type} (r : Eng α) (k : α → State → Eng β) : Eng β :=
  match r with
  | .ok x s => k x s
  | .wait s => .wait s
  | .fail n s => .fail n s

/-- The results of an operation on each element of a list in order. -/
def Eng.collect {α β : Type} (f : α → State → Eng β) : List α → State → Eng (List β)
  | [], s => .ok [] s
  | x :: t, s => (f x s).bind fun y s => (Eng.collect f t s).bind fun ys s => .ok (y :: ys) s

namespace State

/-- A command's miss enters the miss queue of the issuing cluster (R255, R222). -/
def commandMiss (s : State) (site : Site) (c : Command) (kind : Nat) (va : Word) : State :=
  let k := c.core / 32
  let page := bits va.toNat 16 41
  match s.missEntry k c.asid page with
  | some e => s.joinMiss k e.seq (.command site c.id)
  | none => s.admitMiss k (.command site c.id) c.asid page (s.faultImage (.slot c.core c.slot) (some c) 0 c.asid kind va)

/-- Translate an engine's access (R255). -/
def engineAt (s : State) (site : Site) (c : Command) (va : Word) (need : Need) (kind : Nat) : Eng (Nat × TlbEntry) :=
  if !canonical va then .fail 1 s
  else match s.lookup (.tsc (c.core / 32)) c.asid va.toNat with
    | none => .wait (s.commandMiss site c kind va)
    | some (e, s) =>
      if !e.allows need then .fail 1 s
      else if s.limit ≤ e.physical va.toNat then .fail 5 s
      else if c.part ≠ 0 && s.foreign c.part (e.physical va.toNat) then .fail 1 s
      else .ok (e.physical va.toNat, e) s

/-- An engine's access to a bank (R350): a bank that sleeps is woken, and the command waits. -/
def engineBank (s : State) (b : Bank) : Eng Unit :=
  match s.banks.find b with
  | none | some .active => .ok () (s.touch b)
  | _ => .wait (s.wakeBank b)

/-- An engine's access to global memory waits for the die-cache banks that it passes through (R350). -/
def engineDie (s : State) (pa n : Nat) : Eng Unit := if s.dieAwake pa n then .ok () (s.touchDie pa n) else .wait (s.wakeDie pa n)

/-- Where a physical address lies on another package: its NODE, and the address there (R262, log entry 77). -/
def remoteAt (s : State) (pa : Nat) : Option (Nat × Nat) :=
  (s.remote.find (pa / 65536)).bind fun e =>
    if e.1 ≠ s.node && s.present.contains e.1 then some (e.1, e.2 * 65536 + pa % 65536) else none

/-- An engine's access to S space lies inside an open S region of its task, or, once that has ended, of any (R210, R211). -/
def engineRegion (s : State) (c : Command) (off n : Nat) : Bool :=
  (s.core c.core).sregions.any fun r =>
    (c.orphan || r.holders.contains (.slot c.core c.slot)) && r.offset ≤ off && off + n ≤ r.offset + r.size

/-- The state with some bytes under the key of their page, if they lie in one (R219). -/
def underKey (s : State) (key : Option Nat) (pa n : Nat) : State :=
  match key with
  | some k => if s.keyed k pa n then s else s.rekey k pa n
  | none => s

/-- The memory of a view's space for a command, without global memory's translation. -/
def spaceMem (s : State) (c : Command) (space : BitVec 3) : Mem :=
  if space = 0 then s.mem else if space = 1 then (s.cluster (c.core / 32)).mem else (s.core c.core).buffer space

/-- A space's memory replaced. -/
def setSpaceMem (s : State) (c : Command) (space : BitVec 3) (m : Mem) : State :=
  if space = 0 then { s with mem := m }
  else if space = 1 then s.setCluster (c.core / 32) { s.cluster (c.core / 32) with mem := m }
  else s.setCore c.core ((s.core c.core).setBuffer space m)

/-- Where the bytes of a view's element lie for an engine (R255), with the key of their page: the page agrees with the format,
or the address lies in its space. A write to another package asks for SCOPE 5 (R262). -/
def enginePlace (s : State) (site : Site) (c : Command) (v : View) (a : Int) (n : Nat) (write : Bool) : Eng (Nat × Option Nat) :=
  if v.space = 0 then
    (s.engineAt site c (BitVec.ofInt 64 a) (if write then .w else .r) (if write then 5 else 4)).bind fun t s =>
    if !pageAgrees v t.2 then .fail 3 s
    else if write && (s.remoteAt t.1).isSome then (if c.scope = 5 then .ok (t.1, some t.2.key) s else .fail 1 s)
    else if write && s.movingUnit t.1 then .wait s
    else (s.engineDie t.1 n).bind fun _ s => .ok (t.1, some t.2.key) (if write then s else s.meetErrors t.1 n)
  else if a < 0 || spaceSize v.space < a + n || (v.space = 5 && !s.engineRegion c a.toNat n) then .fail 1 s
  else
    (s.engineBank (if v.space = 1 then .cluster (c.core / 32) (a.toNat / 65536)
      else .typed c.core v.space (a.toNat / 65536))).bind fun _ s => .ok (a.toNat, none) s

/-- The code of element l that lies at a place, with its poison. -/
def elementIn (m : Mem) (v : View) (l a : Nat) : Nat × Bool :=
  let x := m.nat a v.elemBytes
  (if v.packed then (if (v.elementAt l).2 then x / 16 else x % 16) else x, m.bad a v.elemBytes)

/-- The code of an element for an engine, with its poison. -/
def engineRead (s : State) (site : Site) (c : Command) (v : View) (l : Nat) : Eng (Nat × Bool) :=
  (s.enginePlace site c v (v.elementAt l).1 v.elemBytes false).bind fun a s =>
  .ok (elementIn ((s.underKey a.2 a.1 v.elemBytes).spaceMem c v.space) v l a.1) s

end State

/-- Bytes at rising addresses as flits: what stands together in 64 bytes goes together (R262). -/
def flitsOf : List (Nat × Byte) → List (Nat × List Byte)
  | [] => []
  | (a, x) :: t =>
    match flitsOf t with
    | (b, l) :: r => if b = a + 1 ∧ b % 64 ≠ 0 then (a, x :: l) :: r else (a, [x]) :: (b, l) :: r
    | [] => [(a, [x])]

namespace State

/-- The packets that bring bytes and nibbles to other packages (R262), with the mark of those in bad words (R351). -/
def packetsFor (s : State) (bytes : List (Nat × Byte)) (half : List (Nat × Bool × Nat)) (bad : List Nat) : List (Nat × Packet) :=
  ((flitsOf (bytes.filter fun e => !bad.contains (e.1 / 8))).filterMap fun e => (s.remoteAt e.1).map fun r => (r.1, .flit r.2 e.2))
    ++ ((flitsOf (bytes.filter fun e => bad.contains (e.1 / 8))).filterMap fun e =>
      (s.remoteAt e.1).map fun r => (r.1, .poisoned r.2 e.2))
    ++ half.filterMap fun e => (s.remoteAt e.1).map fun r => (r.1, .nibbles [(r.2, e.2)])

/-- Packets of a command go out; it waits for as many acknowledgements (R262). -/
def sendFor (s : State) (site : Site) (c : Command) (l : List (Nat × Packet)) : State :=
  if l.isEmpty then s
  else ({ s with sent := s.sent ++ l }).modCommand site c.id fun x => { x with flits := x.flits + l.length }

/-- One access of an engine that stores bytes and nibbles in a space, and the words of it that are poisoned (R255): what lies on
another package goes there as flits (R262). -/
def engineStore (s : State) (site : Site) (c : Command) (space : BitVec 3) (bytes : List (Nat × Byte))
    (half : List (Nat × Bool × Nat)) (bad : List Nat) : State :=
  if space = 0 then
    let here (a : Nat) : Bool := (s.remoteAt a).isNone
    let s := s.sendFor site c (s.packetsFor bytes half bad)
    let b := bytes.filter fun e => here e.1
    let n := half.filter fun e => here e.1
    let s := s.meetStore b n
    { s with mem := (bad.filter fun w => here (w * 8)).foldl Mem.mark (s.mem.storeBoth b n) }
  else s.setSpaceMem c space (bad.foldl Mem.mark ((s.spaceMem c space).storeBoth bytes half))

/-- Write elements as one access of the engine: code and poison by linear index. -/
def engineWrite (s : State) (site : Site) (c : Command) (v : View) (l : List (Nat × Nat × Bool)) : Eng Unit :=
  (Eng.collect (fun (e : Nat × Nat × Bool) s => s.enginePlace site c v (v.elementAt e.1).1 v.elemBytes true) l s).bind
    fun places s =>
      let b := elementBytes v ((l.zip places).map fun e => (e.1.1, e.1.2.1, e.2.1))
      let s := places.foldl (fun s p => s.underKey p.2 p.1 v.elemBytes) s
      let bad := ((l.zip places).filter fun e => e.1.2.2).map fun e => e.2.1 / 8
      .ok () (s.engineStore site c v.space b.1 b.2 bad)

end State

/-! ### Granules (R252, R259) -/

/-- Elements of a granule (R252). -/
def Command.granuleElements (c : Command) : Nat :=
  if c.split = 0 then c.dst.count else 4096 * 4 ^ (c.split - 1) * 8 / max c.dst.width 1

/-- The number of granules. -/
def Command.granules (c : Command) : Nat :=
  (c.dst.count + c.granuleElements - 1) / max c.granuleElements 1

/-- Linear indices of granule g. -/
def Command.granule (c : Command) (g : Nat) : List Nat :=
  (List.range (min c.granuleElements (c.dst.count - g * c.granuleElements))).map (g * c.granuleElements + ·)

/-- The block (its place among the view's blocks along KDIM, and the other index) that begins at an element, if one
does. -/
def View.blockAt (v : View) (c : Scale) (l : Nat) : Option (Int × Int) :=
  let i := v.index l
  let k := i.getD c.kdim 0
  let lo := (v.dims.toList.getD c.kdim {}).lo
  let other := if v.rank = 2 then i.getD (1 - c.kdim) 0 - (v.dims.toList.getD (1 - c.kdim) {}).lo else 0
  if k = lo || k % 32 = 0 then some (k / 32 - lo / 32, other) else none

/-- The address of the scale of a block given by its place from LO on (R226): so the blocks of two views are paired (log entry 86). -/
def View.blockScale (v : View) (c : Scale) (b : Int × Int) : Int :=
  let lo := (v.dims.toList.getD c.kdim {}).lo
  let lo' := if v.rank = 2 then (v.dims.toList.getD (1 - c.kdim) {}).lo else 0
  c.base.toNat + (lo / 32 + b.1) * c.block.toInt + (lo' + b.2) * c.row.toInt

namespace State

/-- The scale of one block as a copy reads it (R259), and where it goes: the place, the bytes, and whether they are poisoned. -/
def takeScale (s : State) (site : Site) (c : Command) (d e : Scale) (b : Int × Int) :
    Eng ((Nat × Option Nat) × List (Nat × Byte) × Bool) :=
  let plain (v : View) : View := { v with ty := 4, scl := none }
  (s.enginePlace site c (plain c.src) (c.src.blockScale e b) (View.scaleBytes e) false).bind fun a s =>
  let m := (s.underKey a.2 a.1 (View.scaleBytes e)).spaceMem c c.src.space
  let x := m.nat a.1 (View.scaleBytes e)
  let poisoned := m.bad a.1 (View.scaleBytes e)
  (s.enginePlace site c (plain c.dst) (c.dst.blockScale d b) (View.scaleBytes d) true).bind fun p s =>
  let x := if d.e8m0 then x else widenScale e x
  .ok (p, bytesAt p.1 (leBytes (View.scaleBytes d) x), poisoned) s

/-- Write the scale of a block. -/
def writeScale (site : Site) (c : Command) (s : State) (w : (Nat × Option Nat) × List (Nat × Byte) × Bool) : State :=
  (s.underKey w.1.2 w.1.1 w.2.1.length).engineStore site c c.dst.space w.2.1 [] (if w.2.2 then [w.1.1 / 8] else [])

/-- Where an engine finds element l of a view, if it finds it. -/
def engineElement (s : State) (site : Site) (c : Command) (v : View) (write : Bool) (l : Nat) : Option (Nat × Option Nat) :=
  match s.enginePlace site c v (v.elementAt l).1 v.elemBytes write with
  | .ok a _ => some a
  | _ => none

/-- The destination elements of a copy whose bytes meet those of source element l (R259); a 4-bit element is a nibble. -/
def copyMeets (s : State) (site : Site) (c : Command) (l : Nat) : List Nat :=
  if c.src.space = c.dst.space then
    match s.engineElement site c c.src false l with
    | none => []
    | some a => (List.range c.dst.count).filter fun j =>
      match s.engineElement site c c.dst true j with
      | none => false
      | some b =>
        if c.dst.packed then a.1 == b.1 && (c.src.elementAt l).2 == (c.dst.elementAt j).2
        else decide (a.1 < b.1 + c.dst.elemBytes) && decide (b.1 < a.1 + c.src.elemBytes)
  else []

/-- The element whose value from before the command an overlapped element receives (R259): its own, or the one that a
destination element in its source's place receives. -/
def copySource (s : State) (site : Site) (c : Command) : Nat → Nat → Nat
  | 0, l => l
  | fuel + 1, l =>
    let pick := Config.copyPick c.id l fuel
    match (s.copyMeets site c l)[(pick - 1) % max (s.copyMeets site c l).length 1]? with
    | none => l
    | some j => if pick = 0 then l else copySource s site c fuel j

/-- The space of a copy inside one space as it was before the command (R259). -/
def copyBefore (s : State) (c : Command) : Mem := if c.done = 0 then s.spaceMem c c.src.space else c.before

/-- A copy inside one space of which more granules follow keeps that space as it was. -/
def keepBefore (s : State) (site : Site) (c : Command) : State :=
  if c.src.space = c.dst.space ∧ c.done + 1 < c.granules then
    s.modCommand site c.id fun x => { x with before := s.copyBefore c }
  else s

/-- Source element l of a copy: as it stands, or as R259 leaves it where the destination overlaps it. -/
def copyRead (s : State) (site : Site) (c : Command) (l : Nat) : Eng (Nat × Bool) :=
  (s.engineRead site c c.src l).bind fun x s =>
  if (s.copyMeets site c l).isEmpty then .ok x s
  else
    let k := s.copySource site c c.dst.count l
    match s.engineElement site c c.src false k with
    | none => .ok x s
    | some a =>
      let old := (s.setSpaceMem c c.src.space (s.copyBefore c)).underKey a.2 a.1 c.src.elemBytes
      .ok (elementIn (old.spaceMem c c.src.space) c.src k a.1) s

/-- The scales that go with some elements of a copy between scaled views (R259). -/
def takeScales (s : State) (site : Site) (c : Command) (ls : List Nat) :
    Eng (List ((Nat × Option Nat) × List (Nat × Byte) × Bool)) :=
  match c.op, c.dst.scl, c.src.scl with
  | .cfill _, _, _ => .ok [] s
  | _, some d, some e => Eng.collect (fun b s => s.takeScale site c d e b) (ls.filterMap (c.dst.blockAt d ·)) s
  | _, _, _ => .ok [] s

/-- Move one granule of `cpy`, `cpys` or `cfill`: all its sources are read, then it is written, its scales with it (R259); once it
begins to be written, nothing stops it (R252). -/
def moveGranule (s : State) (site : Site) (c : Command) : Eng Unit :=
  let ls := c.granule c.done
  (match c.op with
    | .cfill x => Eng.ok (ls.map fun _ => (x.toNat % 2 ^ c.dst.width, false)) s
    | _ => (Eng.collect (fun l s => s.copyRead site c l) ls s).bind fun codes s => .ok codes (s.keepBefore site c)).bind
    fun codes s =>
  (s.takeScales site c ls).bind fun scales s =>
  (s.engineWrite site c c.dst (ls.zip codes)).bind fun _ s => .ok () (scales.foldl (writeScale site c) s)

/-- Before the first granule of `cpys`: a signal word on another package asks for SCOPE 5, and else nothing is sent (R262). A word that
is refused otherwise fails the command when it is signalled (R255). -/
def signalFirst (s : State) (site : Site) (c : Command) : Eng Unit :=
  match c.op, c.done with
  | .cpys set, 0 =>
    match s.engineAt site c c.aux (if set then .w else .rw) 5 with
    | .ok t s => if c.scope ≠ 5 && (s.remoteAt t.1).isSome then .fail 1 s else .ok () s
    | .wait s => .wait s
    | .fail _ _ => .ok () s
  | _, _ => .ok () s

/-- The signal of `cpys` (R261): true once it is performed, false where it has gone to another package (R262). -/
def signal (s : State) (site : Site) (c : Command) (set : Bool) : Eng Bool :=
  (s.engineAt site c c.aux (if set then .w else .rw) 5).bind fun t s =>
  match s.remoteAt t.1 with
  | some r =>
    if c.scope ≠ 5 then .fail 1 s
    else .ok false ((s.sendFor site c [(r.1, .signal r.2 (!set))]).modCommand site c.id fun x => { x with done := x.done + 1 })
  | none =>
    (s.engineDie t.1 8).bind fun _ s =>
    if set && s.movingUnit t.1 then .wait s
    else if set then .ok true (s.perform { cluster := none, bytes := bytesAt t.1 (leBytes 8 1), keys := [(t.1 / 65536, t.2.key)] })
    else .ok true ((s.underKey (some t.2.key) t.1 8).addSignal t.1)

end State

/-! ### Collectives (R263 to R266) -/

/-- The record of a member's group (R263). -/
structure GroupRecord where
  group : Word
  count : Nat
  rank : Nat
  epoch : Word
  roster : Word
deriving DecidableEq, Repr

/-- One addition of a sum (R264). -/
def collAdd (ty : BitVec 4) (a b : Nat) : Nat :=
  if tyInt ty then wrapInt (tyWidth ty) ((a : Int) + b)
  else
    let f := NumFmt.ofTy ty 0
    (f.deliver .rne false (exactAdd .rne (f.value a) (f.value b))).1

/-- One maximum or minimum (R264, R194), taken by rising rank (log entry 87). -/
def collPick (ty : BitVec 4) (max : Bool) (a b : Nat) : Nat :=
  let x := comparand ty a
  let y := comparand ty b
  if anyNan [x, y] then (NumFmt.ofTy ty 0).nanCode
  else if Num.cmp x y == some (if max then .lt else .gt) then b else a

/-- Add codes in an order that the engines choose (R264): at each position, which of the rest comes next. -/
def sumBy (ty : BitVec 4) (pick : Nat → Nat) : Nat → Nat → Option Nat → List Nat → Nat
  | 0, _, acc, _ => acc.getD 0
  | _ + 1, _, acc, [] => acc.getD 0
  | fuel + 1, pos, acc, x :: l =>
    let i := pick pos % (x :: l).length
    let y := (x :: l).getD i x
    let acc := match acc with | none => y | some a => collAdd ty a y
    sumBy ty pick fuel (pos + 1) (some acc) ((x :: l).eraseIdx i)

/-- The roster of a member names a member's place for its rank (R266). -/
def Member.matches (a b : Member) : Bool := a.roster.getD b.rank 0 == b.place

/-- A group record from the words that a kick read (R263). -/
def groupRecord (l : List Nat) : GroupRecord :=
  { group := BitVec.ofNat 64 (l.getD 0 0), count := l.getD 1 0 % 2 ^ 32, rank := l.getD 1 0 / 2 ^ 32
    epoch := BitVec.ofNat 64 (l.getD 2 0), roster := BitVec.ofNat 64 (l.getD 3 0) }

namespace Use

/-- The codes that the members bring for source element e, by rank. -/
def column (u : Use) (e : Nat) : List (Nat × Bool) :=
  (List.range u.count).map fun r =>
    ((u.members.find? (·.rank == r)).bind fun m => m.codes[e]?).getD (0, false)

/-- The value of destination element l of the member of a rank (R264). -/
def value (u : Use) (ty : BitVec 4) (rank l : Nat) : Nat × Bool :=
  let whole (e : Nat) : Nat × Bool :=
    let col := u.column e
    let codes := col.map (·.1)
    let key := u.group.toNat * 2 ^ 64 + u.epoch.toNat
    let x := match u.op with
      | 1 => codes.tail.foldl (collPick ty true) (codes.headD 0)
      | 2 => codes.tail.foldl (collPick ty false) (codes.headD 0)
      | _ => sumBy ty (Config.sumPick key e) codes.length 0 none codes
    (x, col.any (·.2))
  match u.op with
  | 3 => (u.column (l % max u.elements 1)).getD (l / max u.elements 1) (0, false)
  | 4 => whole (rank * (u.elements / max u.count 1) + l)
  | 5 => (u.column l).headD (0, false)
  | _ => whole l

/-- A member agrees with a use (R266), the rosters of all with one another. -/
def admits (u : Use) (me : Member) (g : GroupRecord) (op : Nat) (c : Command) : Bool :=
  u.count == g.count && u.op == op && u.width == c.src.width && u.elements == c.src.count && me.matches me
    && u.members.all fun m => m.rank ≠ me.rank && m.matches me && me.matches m

end Use

/-- The destination count that R264 asks for with the record's COUNT. -/
def collCounts (c : Command) (op n : Nat) : Bool :=
  if op = 3 then c.dst.count == n * c.src.count
  else if op = 4 then c.src.count % n == 0 && c.dst.count == c.src.count / n
  else c.dst.count == c.src.count

namespace State

/-- Read a little-endian value of global memory as an engine does. -/
def engineNat (s : State) (site : Site) (c : Command) (va : Word) (n : Nat) : Eng Nat :=
  (s.engineAt site c va .r 4).bind fun t s =>
  (s.engineDie t.1 n).bind fun _ s =>
  let s := s.meetErrors t.1 n
  .ok ((s.underKey (some t.2.key) t.1 n).mem.nat t.1 n) s

/-- Read the four words of a member's group record (R263). -/
def readRecord (s : State) (site : Site) (c : Command) : Eng (List Nat) :=
  Eng.collect (fun (i : Nat) s => s.engineNat site c (c.aux + BitVec.ofNat 64 (8 * i)) 8) (List.range 4) s

/-- Find a command by its id, with its site. -/
def findCommand (s : State) (id : Nat) : Option (Site × Command) :=
  let sites := s.harts.map (fun e => Site.hart e.1) ++ s.dies.map (fun e => Site.die e.1)
  (sites.filterMap fun x => ((s.commandsAt x).find? (·.id == id)).map fun c => (x, c)).head?

/-- A command fails with a status wherever it stands: at a site that runs it completes, once what it has sent is performed (R248); in a
parked task or a saved partition it does so once that is back (R253, R254, R266, R334; log entry 88). -/
def failCommand (s : State) (id status : Nat) : State :=
  let mark (s : State) : State :=
    s.mapQueues fun l => l.map fun c => if c.id = id then { c with status := some status } else c
  match s.findCommand id with
  | some (site, c) => if s.siteParked site || s.isSaved c.part || c.flits ≠ 0 then mark s else s.completeCommand site c status
  | none => mark s

/-- The command that acts fails with a status (R255): what it has sent is performed first (R248, R262). -/
def failHere (s : State) (site : Site) (id status : Nat) : State :=
  match (s.commandsAt site).find? (·.id == id) with
  | some c =>
    if c.flits = 0 then s.completeCommand site c status else s.modCommand site id fun c => { c with status := some status }
  | none => s

/-- The answer to a completion message that went to another package has come (R260): accepted, held while the ring is full, or
dropped (R101). -/
def commandAnswered (s : State) (id answer : Nat) : State :=
  match s.allCommands.find? fun c => c.id == id && c.away with
  | none => s
  | some c =>
    if answer = 1 then s.mapQueues fun l => l.map fun x => if x.id = id then { x with away := false } else x
    else
      let s := if answer = 0 then s else s.drop c.part
      (s.mapQueues fun l => l.filter (·.id ≠ id)).commandOver c.part c.launch 1

/-- Another package has acknowledged a flit or the signal of a command (R262), or refused it with a status, with which the command
fails (R373). -/
def flitAnswered (s : State) (id status : Nat) : State :=
  s.mapQueues fun l => l.map fun c =>
    if c.id = id then { c with flits := c.flits - 1, status := if status = 0 then c.status else c.status.or (some status) } else c

/-- Fail the joined members of a use with status 4 (R266). -/
def failUse (s : State) (u : Use) : State :=
  u.members.foldl (fun s m => s.failCommand m.command 4) { s with uses := s.uses.filter (· ≠ u) }

/-- The use that a member's record names, in its partition's collective domain (R265). -/
def useOf (s : State) (c : Command) (g : GroupRecord) : Option Use :=
  s.uses.find? fun u => u.group == g.group && u.epoch == g.epoch && u.domain == (s.partition c.part).collDomain

/-- A member that disagrees fails, and with it the members that have joined (R266). -/
def failJoin (s : State) (c : Command) (g : GroupRecord) : Eng Unit :=
  .fail 4 (match s.useOf c g with | some u => s.failUse u | none => s)

/-- A member whose group record has been read joins its use (R265, R266). -/
def joinUse (s : State) (site : Site) (c : Command) (op : Nat) (g : GroupRecord) : Eng Unit :=
  let p := s.partition c.part
  let here := s.node * 2 ^ 48 + p.slice.findIdx (· == c.core / 32)
  if g.group = 0 || g.count < 2 || 4096 < g.count || g.count ≤ g.rank || p.collDomain = 0 || !collCounts c op g.count then
    s.failJoin c g
  else
    (Eng.collect (fun (i : Nat) s => s.engineNat site c (g.roster + BitVec.ofNat 64 (8 * i)) 8) (List.range g.count) s).bind
      fun roster s =>
    (Eng.collect (fun l s => s.engineRead site c c.src l) (List.range c.src.count) s).bind fun codes s =>
    let me : Member := { rank := g.rank, command := c.id, place := here, roster, codes }
    match s.useOf c g with
    | none =>
      if !me.matches me then s.failJoin c g
      else
        let u : Use := { group := g.group, epoch := g.epoch, count := g.count, op, width := c.src.width, domain := p.collDomain
                         elements := c.src.count, members := [me] }
        .ok () { s with uses := s.uses ++ [u] }
    | some u =>
      let live := s.allCommands.map (·.id)
      let u' := if u.members.length = u.count then u else { u with members := u.members.filter fun m => live.contains m.command }
      if u'.members.length < u'.count && u'.admits me g op c then
        .ok () { s with uses := s.uses.map fun x => if x = u then { u' with members := u'.members ++ [me] } else x }
      else s.failJoin c g

/-- A member may go past its granule: no member that is stopped stands at or before it (R266). -/
def useClear (s : State) (u : Use) (c : Command) : Bool :=
  s.allCommands.all fun x =>
    !(u.members.any fun m => m.command == x.id) || x.id == c.id || (x.state == .kicked && s.mayRun x) || c.done < x.done

/-- One activity of a collective's member: it joins, or it writes its next granule, whose elements are those of its own source
view's TYPE (log entry 89). -/
def collGranule (s : State) (site : Site) (c : Command) (op : Nat) : Eng Bool :=
  match s.uses.find? fun u => u.members.any fun m => m.command == c.id with
  | none => (s.joinUse site c op (groupRecord (c.record.getD []))).bind fun _ s => .ok false s
  | some u =>
    if u.members.length < u.count || !s.useClear u c then .wait s
    else
      let rank := ((u.members.find? fun m => m.command == c.id).map (·.rank)).getD 0
      (s.engineWrite site c c.dst ((c.granule c.done).map fun l => (l, u.value c.src.ty rank l))).bind fun _ s => .ok true s

/-! ### Kick (R246, R248) -/

end State

/-- The oldest command that has not been kicked; one that is held keeps the later ones back (R136), one that has failed does
not. -/
def nextKick : List Command → Option Command
  | [] => none
  | c :: t =>
    match c.state, c.status with
    | .queued, none | .stopped, none => some c
    | .held _, none => none
    | _, _ => nextKick t

namespace State

/-- The kick's release (R248): what its task did before the command is performed, through streams, in the matrix slice and as
stores. None while that must wait. -/
def kickRelease (s : State) (h : HartId) (c : Command) : Option State :=
  let t := { s with cur := h }
  let k := t.myCore
  let before (i : Fin 8) : Bool := match t.me.regs.streams[i] with | some st => st.seq < c.id | none => false
  if !(Core.sliceViews { k with jobs := k.jobs.filter (·.id < c.id) } t.now (hartSlot h)).isEmpty then none
  else match (Res.each (fun (i : Fin 8) s => s.flushStream (BitVec.ofFin i)) ((List.finRange 8).filter before) t).bind
      fun _ t => t.release with
    | .ok _ t => some { t with cur := s.cur }
    | .stop _ => none

/-- The Crossing engine reads the group record of a kicked member (R263); a miss of it waits (R255). -/
def takeRecord (s : State) (site : Site) (c : Command) : State :=
  match s.readRecord site c with
  | .ok l s => s.modCommand site c.id fun x => { x with record := some l }
  | .wait s => s
  | .fail n s => s.completeCommand site c n

/-- A command goes to its engine; a collective that has not joined its use reads its record. -/
def kick (s : State) (site : Site) (c : Command) : State :=
  let joined := s.uses.any fun u => u.members.any fun m => m.command == c.id
  match c.op, joined with
  | .coll _, false =>
    let c := { c with state := .kicked, record := none }
    (s.modCommand site c.id fun _ => c).takeRecord site c
  | _, _ => s.modCommand site c.id fun c => { c with state := .kicked }

end State

/-- COMMAND_KICK (R246): the oldest unkicked command of a site whose partition runs goes to its engine; the kick is a release (R248), and
wakes the banks that its stores wait for (R350). -/
def execCommandKick (site : Site) (s : State) : Out :=
  match nextKick ((s.commandsAt site).filter s.mayRun) with
  | none => .next s
  | some c =>
    if s.siteParked site then .next s
    else match site with
      | .die _ => .next (s.kick site c)
      | .hart h =>
        match s.kickRelease h c with
        | some s => .next (s.kick site c)
        | none => .next (s.wakeFor (s.hart h).stores)

namespace State

/-! ### One granule -/

/-- A kicked command waits inside its engine for earlier work of its task that its views can meet (R230, R276). -/
def engineOrder (s : State) (site : Site) (c : Command) : Bool :=
  let earlier := (((s.commandsAt site).filter fun x => x.id < c.id && x.launch = c.launch && x.core = c.core && x.slot = c.slot).map
    Command.views).flatten
  let more := match site with
    | .hart h => (s.hart h).outputs c.id ++ (s.hart h).inputs c.id
    | .die _ => []
  let k := s.core c.core
  let slice := Core.sliceViews { k with jobs := k.jobs.filter (·.id < c.id) } s.now c.slot
  !ordered (earlier ++ more ++ slice) c.views

/-- The bytes that a granule of so many elements writes. -/
def granuleBytes (v : View) (n : Nat) : Nat := (n * v.width + 7) / 8

/-- One granule more is complete. -/
def granuleDone (s : State) (site : Site) (c : Command) : State :=
  s.modCommand site c.id fun x =>
    { x with done := x.done + 1, bytes := x.bytes + granuleBytes c.dst (c.granule c.done).length }

end State

/-- A collective whose group record has not been read yet (R263). -/
def Command.wantsRecord (c : Command) : Bool := match c.op with | .coll _ => c.record.isNone | _ => false

/-- GRANULE_COMPLETE (R252): command i of a site moves its next granule; after the last one, and the acknowledgement of what went
to another package (R262), its signal and its completion follow. -/
def execGranuleComplete (site : Site) (i : Nat) (s : State) : Out :=
  match (s.commandsAt site)[i]? with
  | none => .next s
  | some c =>
    if c.state != .kicked || c.status.isSome || !s.mayRun c || s.siteParked site then .next s
    else if c.wantsRecord then .next (s.takeRecord site c)
    else if !s.engineOrder site c then .next s
    else
      let act : Eng Bool :=
        if c.done < c.granules then
          match c.op with
          | .coll op => s.collGranule site c op
          | _ => (s.signalFirst site c).bind fun _ s => (s.moveGranule site c).bind fun _ s => .ok true s
        else if c.flits ≠ 0 then .wait s
        else match c.op, c.done == c.granules with
          | .cpys set, true => s.signal site c set
          | _, _ => .ok true s
      match act with
      | .wait s => .next s
      | .fail n s => .next (s.failHere site c.id n)
      | .ok false s => .next s
      | .ok true s =>
        if c.done < c.granules then
          let s := s.granuleDone site c
          let more := match c.op with | .cpys _ => true | _ => false
          match (s.commandsAt site).find? (·.id == c.id) with
          | some x => .next (if c.done + 1 < c.granules || more || x.flits ≠ 0 then s else s.completeCommand site x 0)
          | none => .next s
        else .next (s.completeCommand site c 0)

/-- COMPLETION_MESSAGE_RETRY (R260): a held completion message is offered again; so completes what failed while its task was
parked (R253), and what had sent flits, once they are acknowledged (R262). -/
def execCompletionMessageRetry (site : Site) (i : Nat) (s : State) : Out :=
  match (s.commandsAt site)[i]? with
  | none => .next s
  | some c =>
    match c.status with
    | none => .next s
    | some n => .next (if c.away || c.flits ≠ 0 || s.siteParked site || s.isSaved c.part then s else s.completeCommand site c n)

/-! ### Held commands (R136) -/

namespace State

/-- A held command is discarded (R136, R348). -/
def discardCommand (s : State) (id : HartId) (c : Command) : State := s.leaveQueue (.hart id) c

/-- Decide one held command by the guard's value, at the end of its issue cycle (R136, R251): the checks are made, and
the region ends, only when it is true. A trap is taken at the command. -/
def decideHeld (s : State) (id : HartId) (c : Command) : State :=
  match c.state with
  | .held g =>
    if !(s.hart id).regs.guard (BitVec.ofNat 3 g) then s.discardCommand id c
    else
      let back (s : State) : State := s.modHart id fun h => { h with pc := h.pc - 8, insn := c.word }
      match commandChecks c { back s with cur := id } with
      | .stop t => { t with cur := s.cur }
      | .ok _ _ =>
        (s.modCommand (.hart id) c.id fun c => { c with state := .queued }).modHart id fun h => { h with boundary := true }
  | _ => s

/-- Resolve the guards of a hart whose writers issued before this cycle (R134), and decide its held commands; not of a task that owes a
trap. -/
def resolveGuards (s : State) (id : HartId) (cycle : Nat) : State :=
  let h := s.hart id
  let due := h.unres.filter fun u => u.issued < cycle
  if due.isEmpty || h.verdict.isSome then s
  else
    let regs := due.foldl (fun r u => Regs.setG r (BitVec.ofNat 3 u.guard) u.value) h.regs
    let s := s.setHart id { h with regs, unres := h.unres.filter fun u => !(u.issued < cycle) }
    h.queue.foldl (fun s c => s.decideHeld id c) s

end State

/-- GUARD_RESOLVE (R134): the guard writes of a hart that are due complete. -/
def execGuardResolve (h : HartId) (s : State) : Out :=
  .next (s.resolveGuards h s.now)

/-! ### Tag waits (R256 to R258) -/

/-- The mask of a tag instruction (R257). -/
def State.tagMask (s : State) (f : FmtI) : Word :=
  s.getS f.a ||| BitVec.ofNat 64 (f.imm.toNat * 2 ^ (32 * (f.b.toNat % 2)))

/-- The lowest tag of a mask. -/
def lowestTag (m : Word) : Option Nat := (List.range 64).find? fun i => m.getLsbD i

/-- The trap that a wait raises for a failed status (R255): DETAIL is the status. -/
def tagTrap (status : Nat) : Trap :=
  { cls := if status = 2 then .pageFault else if status = 3 || status = 4 then .viewFormat else .protection,
    detail := BitVec.ofNat 32 status }

/-- After a wait: the trap of the lowest failed tag of a mask, if one is marked (R258). -/
def failedTag (x : Word) (s : State) : Res Unit :=
  match (List.range 64).find? fun i => x.getLsbD i && (s.me.tagfail.find i).isSome with
  | some i => .stop (s.trap (tagTrap (s.me.tagfail.get i 0)))
  | none => .ok () s

/-- `twall` (R258). -/
def execTwall (f : FmtI) (s : State) : Out :=
  s.guarded f.gd fun s =>
    let m := s.tagMask f
    if s.me.tagdone &&& m ≠ m then .next (s.stall .tags)
    else (failedTag m s).run fun _ s => s.finish

/-- `twany` (R258). -/
def execTwany (f : FmtI) (s : State) : Out :=
  s.guarded f.gd fun s =>
    let m := s.tagMask f
    let x := s.me.tagdone &&& m
    if m = 0 then (s.setS f.d 0).finish
    else if x = 0 then .next (s.stall .tags)
    else (failedTag x s).run fun _ s => (s.setS f.d x).finish

/-- `tfirst` (R258): it does not wait. -/
def execTfirst (f : FmtI) (s : State) : Out :=
  s.guarded f.gd fun s =>
    match lowestTag (s.me.tagdone &&& s.tagMask f) with
    | none => (s.setS f.d 64).finish
    | some t => (s.setS f.d (BitVec.ofNat 64 (t + (if (s.me.tagfail.find t).isSome then 2 ^ 63 else 0)))).finish

/-- `tclr` (R258). -/
def execTclr (f : FmtI) (s : State) : Out :=
  s.guarded f.gd fun s =>
    let m := s.tagMask f
    (s.modMe fun h => { h with tagdone := h.tagdone &&& ~~~m
                               tagfail := h.tagfail.filter fun e => !m.getLsbD e.1 }).finish

end Sys2Proof.Machine
end

