-- ==== Sys2Proof/Machine/Tasks.lean ====
section
/-! DEFINITION. Tasks: creating work (05 R110 to R117), `end` (06 R157), `send` and `qinfo` (R120, R121), and the
scheduler's events: starts, replays, gang placement, counter decrements, launch completions (R104 to R119, R122). -/

namespace Sys2Proof.Machine

open Sys2Proof

/-! ### Rows and gangs (R116, R122) -/

namespace State

/-- The eight cores of row r of a cluster. -/
def rowCores (k r : Nat) : List Nat := (List.range 8).map (k * 32 + 8 * r + ·)
/-- All eight cores of a row are live and none is quarantined. -/
def rowLive (s : State) (k r : Nat) : Bool := (rowCores k r).all fun c => !(s.core c).quarantined
/-- Rows of a cluster that can ever take a gang. -/
def gangRows (s : State) (k : Nat) : List Nat := (List.range 4).filter (s.rowLive k)
/-- The free normal slots of a core. -/
def freeSlots (s : State) (c : Nat) : List Nat := (List.range 3).filter fun n => (s.hart (.slot c n)).task.isNone
/-- The free normal slots of a row. -/
def freeInRow (s : State) (k r : Nat) : Nat := ((rowCores k r).map fun c => (s.freeSlots c).length).sum
/-- The row of a list with the most free normal slots, the lowest on a tie. -/
def bestRow (s : State) (k : Nat) (rows : List Nat) : Option Nat :=
  rows.foldl (fun best r => match best with
    | none => some r
    | some b => if s.freeInRow k b < s.freeInRow k r then some r else some b) none
/-- A waiting gang keeps a row of a cluster from starting other normal tasks (R116): the row that the rule names in this state
(log entry 67). -/
def reserved (s : State) (c : Nat) : Bool :=
  let k := c / 32
  !(s.cluster k).gangs.isEmpty && s.bestRow k (s.gangRows k) == some (c % 32 / 8)

/-- The executing task, or an empty one. -/
def myTask (s : State) : Task := s.me.task.getD {}

/-- The payload of a new task: s1 to s8 (R110). -/
def payload (s : State) : Vector Word 8 := Vector.ofFn fun i => s.me.regs.s.toList.getD (i.val + 1) 0

end State

/-! ### fork, forkc, forkg, join, spawn (R110 to R114) -/

/-- The glade of a new task (R111): G clamped to the task's own. -/
def gladeOf (f : FmtB) (own : Nat) : Nat := if f.fn.toNat % 8 = 0 then own else min (f.fn.toNat % 8) own

namespace State

/-- The descriptor that a task-creating instruction pushes (R105, R110). -/
def child (s : State) (f : FmtB) (kind : Nat) (counter : Word) : Descriptor :=
  let d := s.myTask.desc
  { payload := s.payload, entry := target24 s.me.pc f.offs, counter, launch := d.launch, kind, glade := gladeOf f d.glade
    urgent := f.fn.getLsbD 3, origin := hartCore s.cur, object := d.object, asid := s.asidOf s.cur, part := s.partOf s.cur }

/-- The checks on a counter address (R111). -/
def checkCounter (s : State) (c : Word) (always : Bool) : Res Unit :=
  if !always && c = 0 then .ok () s
  else
    (checkAt (c.toNat % 8 == 0) .alignment c s).bind fun _ s => (s.translate c .w 1).bind fun _ s => .ok () s

/-- Add to a counter (R111); `always` for `forkc`, whose counter may be at address 0. -/
def addCounter (s : State) (c : Word) (n : Nat) (always : Bool) : Res Unit :=
  if !always && c = 0 then .ok () s
  else (s.atomicAt c 0).bind fun pa s => .ok () (s.atomicWrite (bytesAt pa (leBytes 8 (s.mem.nat pa 8 + n))))

/-- Run a child inline (R113): with 16 entries on the inline stack, the task ends with inline overflow. A range's first
index goes to s8, over the status if D is s8. The block that the word stands in is left unchecked (log entry 95). -/
def inlineRun (s : State) (f : FmtB) (e : Frame) (range : Bool) : Out :=
  if 16 ≤ s.me.regs.inline.length then .next (s.raise .inlineOverflow)
  else
    let t := target24 s.me.pc f.offs
    let s := s.modMe (·.modRegs fun r => { r with inline := r.inline ++ [e] })
    let s := s.setS f.d 1
    .next ((if range then s.setS 8 0 else s).endRegion.modMe fun h => { h with pc := t, block := none })

/-- A push is refused (R104, R111). -/
def overQuota (s : State) (n : Nat) : Bool := s.myPart.quota < s.pending (s.partOf s.cur) + n

/-- A task-creating instruction has pushed (R112): its status is written and its region ends. -/
def created (s : State) (f : FmtB) (status : Word) : Out := (s.setS f.d status).endRegion.finish

/-- `fork` and `forkc` (R111). -/
def forkOne (f : FmtB) (counted : Bool) (s : State) : Out :=
  s.guarded f.gd fun s =>
    let c := if counted then s.getS f.a else 0
    (s.checkCounter c counted).run fun _ s =>
      if s.overQuota 1 then s.inlineRun f { ret := s.me.pc + 8 } false
      else
        s.publish.run fun _ s =>
        (if counted then s.addCounter c 1 true else .ok () s).run fun _ s =>
          let d := s.child f 0 c
          ((s.birth d.part d.launch 1).push d.origin d.urgent (.desc d)).created f 0

end State

/-- `fork` (R111). -/
def execFork (f : FmtB) (s : State) : Out := s.forkOne f false
/-- `forkc` (R111). -/
def execForkc (f : FmtB) (s : State) : Out := s.forkOne f true

/-- `spawn` (R111, R117). -/
def execSpawn (f : FmtB) (s : State) : Out :=
  s.guarded f.gd fun s =>
    let c := s.getS f.b
    (s.checkCounter c false).run fun _ s =>
      let n := (s.getS f.a).toNat
      if n = 0 then s.created f 0
      else if 2 ^ 32 < n then s.created f 3
      else if s.overQuota 1 then
        let e : Frame := { ret := s.me.pc + 8, target := target24 s.me.pc f.offs, index := 1, left := n - 1 }
        s.inlineRun f e true
      else
        s.publish.run fun _ s =>
        (s.addCounter c n false).run fun _ s =>
          let d := { s.child f 1 c with hi := n }
          ((s.birth d.part d.launch n).push d.origin d.urgent (.desc d)).created f 0

/-- `forkg` (R111, R116). -/
def execForkg (f : FmtB) (s : State) : Out :=
  s.guarded f.gd fun s =>
    let c := s.getS f.a
    (s.checkCounter c false).run fun _ s =>
      let k := hartCluster s.cur
      if (s.gangRows k).isEmpty then s.created f 2
      else if s.overQuota 8 || 16 ≤ (s.cluster k).gangs.length then s.created f 1
      else
        s.publish.run fun _ s =>
        (s.addCounter c 8 false).run fun _ s =>
          let member (m : Nat) : Descriptor :=
            let d := s.child f 2 c
            { d with payload := d.payload.set 7 (BitVec.ofNat 64 m), lo := m, urgent := false }
          let s := s.setCluster k { s.cluster k with gangs := (s.cluster k).gangs ++ [{ members := (List.range 8).map member }] }
          (s.birth (s.partOf s.cur) s.myTask.desc.launch 8).created f 0

/-- `join` (R114). -/
def execJoin (f : FmtB) (s : State) : Out :=
  s.guarded f.gd fun s =>
    let c := s.getS f.a
    (s.checkCounter c true).run fun _ s =>
    (s.translate c .w 1).run fun t s =>
      let p := s.partOf s.cur
      let q := s.partition p
      if q.quota / 4 ≤ q.joins.length then s.created f 1
      else if q.joins.any (·.pa == t.1) then s.created f 2
      else
      (s.useDie t.1 8).run fun _ s =>
      let s := s.meetErrors t.1 8
      if (s.under t.2 t.1 8).bad t.1 8 then .next (s.poisonGlobal c)
      else
        s.publish.run fun _ s =>
          let d := s.child f 3 0
          let s := s.birth p d.launch 1
          let j : Join := { counter := c, pa := t.1, desc := d }
          if (s.under t.2 t.1 8).nat t.1 8 = 0 then (s.pushJoin j).created f 0
          else (s.setPartition p { s.partition p with joins := (s.partition p).joins ++ [j] }).created f 0

/-! ### end (R157, R113) -/

/-- `end` (R157): every instruction completes first; the results of an inline child land after their windows, in what follows it (R131).
On a TSC or a system core, which holds no task, the outermost `end` stops issue (log entry 69). -/
def execTaskEnd (f : FmtA) (s : State) : Out :=
  s.guarded f.gd fun s =>
    if !(s.me.pend.all (·.complete s.now)) then .next (s.stall .drain)
    else if !s.me.unres.isEmpty then .next (s.stall .guard)
    else
      match s.me.regs.inline.getLast? with
      | some e =>
        let rest := s.me.regs.inline.dropLast
        if e.left ≠ 0 then
          let e' := { e with index := e.index + 1, left := e.left - 1 }
          let s := s.modMe (·.modRegs fun r => { (r.setS 8 (BitVec.ofNat 64 e.index)) with inline := rest ++ [e'] })
          .next (s.endRegion.modMe fun h => { h with pc := e.target })
        else
          let s := s.modMe (·.modRegs fun r => { r with inline := rest })
          .next (s.endRegion.modMe fun h => { h with pc := e.ret })
      | none =>
        (s.landAll s.cur).publish.run fun _ s =>
          let h := s.me
          match h.task with
          | none => .next (s.modMe fun h => { h with running := false })
          | some t =>
            let id := s.cur
            let core := hartCore id
            let s := s.dropViews id
            let s := s.setCore core ((s.core core).freeTiles (hartSlot id))
            let s := s.leaveGang t
            let d := hartDie id
            let s := s.setDie d { s.die d with orphans := (s.die d).orphans ++ h.queue.map fun c => { c with orphan := true } }
            .next ((s.taskOver t.desc .normal core (hartSlot id) 0 false h.regionpc h.pc h.insn).setHart id {})

/-! ### send and qinfo (R120, R121) -/

/-- `send` (R120): what has gone to another package is not sent again, so a region begins at the word as it goes; its entry of
an input stream is popped as it issues, with the answer (R190). -/
def execSend (f : FmtA) (s : State) : Out :=
  s.guarded f.gd fun s =>
    let answered (s : State) (x : Nat) : Out :=
      ((s.setS f.d (BitVec.ofNat 64 x)).modMe fun h => { h with answer := none, sent := false }).endRegion.finish
    match s.me.answer, s.me.sent with
    | some x, _ => (s.sources [f.b]).run fun _ s => answered s x
    | none, true => .next (s.stall .send)
    | none, false =>
      let h := s.getS f.a
      let p := s.partOf s.cur
      let node := bits h.toNat 48 10
      let away := node ≠ s.node && s.present.contains node && bits h.toNat 58 6 = 0 && bits h.toNat 12 20 = 0
        && bits h.toNat 32 16 ≠ 0
      s.publish.run fun _ s =>
      (State.sources [f.b] (if away then s.modMe Hart.arrive else s)).run fun vs s =>
        let body := leBytes 56 ((vs.headD 0).toNat % 2 ^ 448)
        let r := s.deliver p h body
        if away then .next ((r.1.modMe fun h => { h with sent := true }).stall .send)
        else match r.2 with
          | 2 => answered (r.1.drop p) 2
          | 3 => answered (r.1.drop p) 3
          | 4 => answered r.1 2
          | n => answered r.1 n

/-- The value of `qinfo` (R121). -/
def qinfoValue (s : State) (n : Nat) : Nat :=
  let c := hartCore s.cur
  let k := s.core c
  let p := s.partOf s.cur
  let q := s.partition p
  let descs (l : List Work) : Nat := (l.filter fun w => match w with | .desc _ => true | .replay _ _ _ => false).length
  match n with
  | 0 => descs k.dequeN + descs k.spillN
  | 1 => s.pending p
  | 2 => q.quota - s.pending p
  | 3 => q.slice.length
  | 4 => ((List.range 32).map fun i => if (s.core (c / 32 * 32 + i)).quarantined then 0 else 2 ^ i).sum
  | 5 => ((s.gangRows (c / 32)).map (2 ^ ·)).sum
  | 6 => c % 32 / 8 * 16 + c % 8
  | 7 => s.myTask.desc.glade
  | 8 => s.myTask.desc.launch
  | 9 => q.drops
  | _ =>
    let die (j : Nat) : Nat := j / 26
    let mine := die (c / 32)
    let dies := (q.slice.map die).eraseDups
    dies.findIdx (· == mine) + q.slice.findIdx (fun j => die j == mine) * 2 ^ 8
      + (q.slice.filter fun j => die j == mine).length * 2 ^ 16

/-- `qinfo` (R121). -/
def execQinfo (f : FmtA) (s : State) : Out :=
  s.guarded f.gd fun s => (s.setS f.d (BitVec.ofNat 64 (qinfoValue s f.fn.toNat))).finish

/-! ### Taking work (R106 to R108) -/

/-- A core's deque and spill area of a class. -/
def Core.work (k : Core) (urgent : Bool) : List Work × List Work :=
  if urgent then (k.dequeU, k.spillU) else (k.dequeN, k.spillN)
def Core.setWork (k : Core) (urgent : Bool) (w : List Work × List Work) : Core :=
  if urgent then { k with dequeU := w.1, spillU := w.2 } else { k with dequeN := w.1, spillN := w.2 }

/-- An emptied deque takes the 16 newest spilled descriptors back (R107). -/
def refill (w : List Work × List Work) : List Work × List Work :=
  if w.1.isEmpty then (w.2.drop (w.2.length - 16), w.2.take (w.2.length - 16)) else w

/-- The owner's pop (R107, R108): the newest. -/
def popOwn (w : List Work × List Work) : Option (Work × (List Work × List Work)) :=
  let w := refill w
  w.1.getLast?.map fun x => (x, refill (w.1.dropLast, w.2))

namespace State

/-- A thief lies in the glade of work, counted from its origin (R106), and in its slice. -/
def inGlade (s : State) (w : Work) (thief : Nat) : Bool :=
  let glade (d : Descriptor) (origin : Nat) : Bool :=
    (s.partition d.part).slice.contains (thief / 32) && (s.partition d.part).slice.contains (origin / 32)
      && (match d.glade with
          | 1 => origin / 8 == thief / 8
          | 2 => origin / 32 == thief / 32
          | 3 => origin / 832 == thief / 832
          | _ => true)
  match w with
  | .desc d => glade d d.origin
  | .replay h origin fixed => !fixed && glade ((h.task.getD {}).desc) origin

/-- The other live cores of a slice by level (R108): row, cluster, die, device; each by rising logical number. -/
def victims (s : State) (p thief : Nat) : List (List Nat) :=
  let all := ((s.partition p).slice.map fun k => (List.range 32).map (k * 32 + ·)).flatten.filter fun c =>
    c ≠ thief && !(s.core c).quarantined
  let level (c : Nat) : Nat :=
    if c / 8 = thief / 8 then 0 else if c / 32 = thief / 32 then 1 else if c / 832 = thief / 832 then 2 else 3
  (List.range 4).map fun n => all.filter fun c => level c == n

/-- A level's victims from where the rotating pointer stands. -/
def rotated (s : State) (p thief : Nat) (l : List Nat) (pointer : Option Nat) : List Nat :=
  let at_ (c : Nat) : Nat := s.logicalCore p c
  let i := match pointer with
    | some v => l.findIdx fun c => at_ v ≤ at_ c
    | none => l.findIdx fun c => at_ thief < at_ c
  l.drop i ++ l.take i

/-- What a thief takes of one piece of work (R108): all of it, or the upper part of a range. -/
def splitWork (s : State) (w : Work) : Work × Option Work :=
  match w with
  | .desc d =>
    if d.kind = 1 && 2 ≤ d.hi - d.lo then
      let mid := if (s.partition d.part).quota ≤ s.pending d.part then d.hi - 1 else d.lo + (d.hi - d.lo) / 2
      (.desc { d with lo := mid }, some (.desc { d with hi := mid }))
    else (w, none)
  | w => (w, none)

/-- Take the oldest fitting work of a list. -/
def takeOldest (s : State) (thief : Nat) (l : List Work) : Option (Work × List Work) :=
  (l.findIdx? fun w => s.inGlade w thief).bind fun i =>
    l[i]?.map fun w =>
      let r := s.splitWork w
      (r.1, l.take i ++ r.2.toList ++ l.drop (i + 1))

/-- Steal from one victim (R108): its spill area first, then its deque. -/
def stealFrom (s : State) (thief victim : Nat) (urgent : Bool) : Option (Work × State) :=
  let w := (s.core victim).work urgent
  match s.takeOldest thief w.2 with
  | some (x, rest) => some (x, s.setCore victim ((s.core victim).setWork urgent (w.1, rest)))
  | none =>
    (s.takeOldest thief w.1).map fun r => (r.1, s.setCore victim ((s.core victim).setWork urgent (refill (r.2, w.2))))

/-- Steal level by level (R108). A level whose victims all yield nothing leaves its pointer where it was. -/
def steal (s : State) (p thief : Nat) (urgent : Bool) : Option (Work × State) :=
  let tries := (s.victims p thief).zipIdx.map fun e =>
    let l := s.rotated p thief e.1 ((s.core thief).pointers.toList.getD e.2 none)
    (l.zip (l.drop 1 ++ l.take 1)).map fun v => (e.2, v.1, v.2)
  (tries.flatten.filterMap fun t =>
    (s.stealFrom thief t.2.1 urgent).map fun r =>
      let k := r.2.core thief
      (r.1, r.2.setCore thief { k with pointers := Vector.ofFn fun i => if i.val = t.1 then some t.2.2 else k.pointers[i] })).head?

/-- Work for a free slot (R108): its own newest, else a steal. -/
def takeWork (s : State) (core : Nat) (urgent : Bool) : Option (Work × State) :=
  match popOwn ((s.core core).work urgent) with
  | some (w, rest) => some (w, s.setCore core ((s.core core).setWork urgent rest))
  | none => s.steal (s.cluster (core / 32)).owner core urgent

/-- A slot may take work: it is free, its core is live, no gang has its row, and the partition runs. -/
def mayStart (s : State) (core slot : Nat) : Bool :=
  let p := (s.cluster (core / 32)).owner
  slot < 4 && (s.hart (.slot core slot)).task.isNone && !(s.core core).quarantined && p ≠ 0
    && (s.partition p).preempt == .running && (slot == 3 || !s.reserved core)

/-- An object may start tasks (R83). -/
def startable (s : State) (d : Descriptor) : Bool :=
  match (s.partition d.part).objects.find d.object with
  | some o => !o.revoked
  | none => false

/-- A slot as a descriptor finds it (R42, R123). -/
def prepared (s : State) (d : Descriptor) (gang : Option Nat) : Hart :=
  { pc := d.entry, regionpc := d.entry, boundary := true
    task := some { desc := d, wdlimit := (s.partition d.part).wdlimit, gang }
    regs := { s := Vector.ofFn fun i => if 1 ≤ i.val && i.val ≤ 8 then d.payload.toList.getD (i.val - 1) 0 else 0 } }

/-- Start a descriptor in a slot (R117, R123); one whose object is revoked is discarded instead (R84), a range one index
at a time, the rest of it pushed here, so that this is its ORIGIN (R105). What is discarded has run nowhere: it ended where it was pushed,
as its report says (R115; log entry 98). -/
def startIn (s : State) (core slot : Nat) (d : Descriptor) : State :=
  let rest := d.kind = 1 && d.lo + 1 < d.hi
  let s := if rest then s.push core d.urgent (.desc { d with lo := d.lo + 1, origin := core }) else s
  let d := if d.kind = 1 then { d with payload := d.payload.set 7 (BitVec.ofNat 64 d.lo), hi := d.lo + 1 } else d
  if s.startable d then s.setHart (.slot core slot) (s.prepared d none)
  else s.taskOver d .discarded d.origin 0 0 true d.entry d.entry 0

end State

/-- TASK_START (R108, R123): a free slot takes the descriptor that is next for it. -/
def execTaskStart (core slot : Nat) (s : State) : Out :=
  if !s.mayStart core slot then .next s
  else match s.takeWork core (slot == 3) with
    | some (.desc d, t) => .next (t.startIn core slot d)
    | _ => .next s

/-- TASK_REPLAY (R323, R326): a free slot takes the ready record that is next for it; its commands are queued again, and
name this core. A record of a revoked object ends (R84), once its matrix work has completed (R320). -/
def execTaskReplay (core slot : Nat) (s : State) : Out :=
  if !s.mayStart core slot then .next s
  else match s.takeWork core (slot == 3) with
    | some (.replay h _ _, t) =>
      let id := HartId.slot core slot
      let h := { h with
        queue := h.queue.map fun (c : Command) => { c with core, slot }, parked := none, fault := none }
      match h.task with
      | none => .next t
      | some task =>
        if t.startable task.desc then .next ((t.setHart id h).enterViews id)
        else .next (if h.working s.now then s else t.endTrapped id h task { cls := .integrity } false)
    | _ => .next s

/-- GANG_PLACE (R116): the head gang of a cluster takes a row. -/
def execGangPlace (cluster : Nat) (s : State) : Out :=
  let k := s.cluster cluster
  match k.gangs with
  | [] => .next s
  | g :: rest =>
    let room := (s.gangRows cluster).filter fun r => (State.rowCores cluster r).all fun c => !(s.freeSlots c).isEmpty
    match s.bestRow cluster room with
    | none => .next s
    | some r =>
      if (s.partition k.owner).preempt != .running then .next s
      else
        let places := (State.rowCores cluster r).map fun c => (c, (s.freeSlots c).headD 0)
        let s := s.setCluster cluster { k with gangs := rest }
        let pairs := g.members.zip places
        if pairs.all fun e => s.startable e.1 then
          let id := s.nextId
          let gang : Gang := { cluster, row := r, slots := places, limit := (s.partition k.owner).gangwait }
          let s := { s with nextId := id + 1, gangs := s.gangs.set id gang }
          .next (pairs.foldl (fun s e => s.setHart (.slot e.2.1 e.2.2) (s.prepared e.1 (some id))) s)
        else .next (pairs.foldl (fun s e => s.taskOver e.1 .discarded e.1.origin 0 0 true e.1.entry e.1.entry 0) s)

/-! ### Counters and completions (R115, R118) -/

namespace State

/-- A decrement is over: the end it belongs to is counted (R347). -/
def decrementOver (s : State) (p : Nat) (d : Decrement) : State :=
  let s := s.setPartition p { s.partition p with decrements := (s.partition p).decrements.filter (·.id ≠ d.id) }
  s.countEnd p d.desc.launch d.kind d.first d.integrity

/-- A decrement fails (R115): a normal end becomes a trapped one with a report, a discarded descriptor is reported, and a
trapped end keeps its own report. -/
def failDecrement (s : State) (p : Nat) (d : Decrement) (c : TrapClass) (status : Nat) : State :=
  let t : Trap := { cls := c, detail := BitVec.ofNat 32 status, addr := d.desc.counter }
  match d.kind with
  | .trapped => s.decrementOver p d
  | .normal =>
    let s := s.deliverOrDrop p (s.faultMbx d.desc) (s.report d.desc d.core d.slot d.pc d.insn t)
    s.decrementOver p { d with kind := .trapped, first := s.firstTrap d.desc d.pc t }
  | .discarded =>
    let s := s.deliverOrDrop p (s.faultMbx d.desc) (s.report d.desc d.desc.origin 0 d.desc.entry 0 t)
    s.decrementOver p d

/-- The fault-queue image of a decrement's miss: an atomic of the ended task (log entry 15). -/
def decrementImage (d : Decrement) : BitVec 256 :=
  missImage false d.core d.slot d.desc.launch d.regionpc 0 d.desc.asid 2 d.desc.counter

/-- Perform one decrement as far as it goes (R115): the atomic, a failure, or the wait for a miss or for a sleeping bank (R350). -/
def tryDecrement (s : State) (p : Nat) (d : Decrement) : State :=
  let va := d.desc.counter
  let k := d.cluster
  let page := bits va.toNat 16 41
  match s.lookup (.tsc k) d.desc.asid va.toNat with
  | none =>
    match s.missEntry k d.desc.asid page with
    | some e => s.joinMiss k e.seq (.decrement p d.id)
    | none => s.admitMiss k (.decrement p d.id) d.desc.asid page (decrementImage d)
  | some (e, s) =>
    let pa := e.physical va.toNat
    if !canonical va || !e.allows .rw || !s.reaches (.tsc k) pa then s.failDecrement p d .protection 0
    else
      if !s.dieAwake (pa / 128 * 128) 128 then s.wakeDie (pa / 128 * 128) 128
      else
        let s := s.accessNow (pa / 128 * 128) 128
        let s := s.underKey (some e.key) (pa / 128 * 128) 128
        if s.mem.bad (pa / 128 * 128) 128 then s.failDecrement p d .poison 0
        else (s.atomicWrite (bytesAt pa (leBytes 8 (s.mem.nat pa 8 + (2 ^ 64 - 1))))).decrementOver p d

end State

/-- COUNTER_DECREMENT_PERFORM (R115): the first decrement of a partition that can go on. -/
def execCounterDecrementPerform (part : Nat) (s : State) : Out :=
  .next ((((s.partition part).decrements.map fun d => s.tryDecrement part d).find? fun t => t ≠ s).getD s)

/-- LAUNCH_COMPLETION_RETRY (R118): a completion message that is held is offered again. -/
def execLaunchCompletionRetry (part launch : Nat) (s : State) : Out := .next (s.completeLaunch part launch)

end Sys2Proof.Machine
end

