-- ==== Sys2Proof/Machine/Detour.lean ====
section
/-! DEFINITION. Detour (17 R364 to R374): the Detour registers, the phases of a retirement, the sweep, and the replay of
misrouted requests; with the drain of stores (13 R297). -/

namespace Sys2Proof.Machine

open Sys2Proof

/-! ### The Detour registers (R365 to R368) -/

namespace Detour

/-- The live stack count S. -/
def count (d : Detour) : Nat := ((List.range 16).filter fun i => d.live.toNat.testBit i).length
def odd (d : Detour) : Bool := d.phase.toNat % 2 == 1
/-- `LIVESTACKS` as it reads (R366). -/
def liveStacks (d : Detour) : Word :=
  BitVec.ofNat 64 (d.live.toNat + d.count * 2 ^ 32 + bit d.pend * 2 ^ 40 + d.retire.toNat * 2 ^ 44)
/-- `SWEEP` as it reads (R368). -/
def sweep (d : Detour) : Word :=
  BitVec.ofNat 64 (d.pointer / 65536 % 2 ^ 36 * 65536 + bit d.pause * 2 ^ 62 + bit d.done * 2 ^ 63)

/-- A write of `LIVESTACKS` (R366): none where the map refuses it. -/
def writeLive (d : Detour) (x : Nat) : Option Detour :=
  let retire := BitVec.ofNat 4 (bits x 44 4)
  let pend := x.testBit 40
  if bits x 48 16 ≠ 0 || bits x 41 3 ≠ 0 || bits x 37 3 ≠ 0 || bits x 16 16 ≠ 0 then none
  else if pend == d.pend && retire == d.retire then some d
  else if !d.odd && !d.pend then
    if pend && 2 ≤ d.count && d.live.toNat.testBit retire.toNat then some { d with pend := true, retire } else none
  else if !d.odd && !pend then some { d with pend := false, retire }
  else none

/-- The new capacity of a retirement (R369). -/
def smaller (d : Detour) : Nat := d.capacity - 0x0C00000000

/-- A write of `PHASE` (R367, R369). -/
def writePhase (d : Detour) (x : Nat) : Option Detour :=
  if x ≠ (d.phase + 1).toNat then none
  else if !d.odd && d.pend then
    some { d with phase := d.phase + 1, pointer := d.smaller, done := false, moving := false, copied := 0 }
  else if d.odd && d.done then
    some { d with phase := d.phase + 1, live := d.live &&& ~~~BitVec.ofNat 16 (2 ^ d.retire.toNat), capacity := d.smaller,
                  pend := false, done := false }
  else none

/-- A write of `SWEEP` (R368). -/
def writeSweep (d : Detour) (x : Nat) : Option Detour :=
  if bits x 52 10 ≠ 0 then none else some { d with pause := x.testBit 62 }

end Detour

namespace State

/-- The Detour registers change, where the map allows the write. -/
def detourIf (s : State) (d : Option Detour) : State := match d with | some d => { s with detour := d } | none => s

end State

/-- RETIREMENT_REQUEST (R369): PEND is written 1 for a stack. -/
def execRetirementRequest (stack : BitVec 4) (s : State) : Out :=
  .next (s.detourIf (s.detour.writeLive (2 ^ 40 + stack.toNat * 2 ^ 44)))

/-- RETIREMENT_CANCEL (R369): PEND is written 0 in the pending state. -/
def execRetirementCancel (stack : BitVec 4) (s : State) : Out :=
  if !s.detour.odd && s.detour.pend then .next (s.detourIf (s.detour.writeLive (stack.toNat * 2 ^ 44))) else .next s

/-- SWEEP_START (R369): `PHASE` + 1 in the pending state. -/
def execSweepStart (s : State) : Out :=
  if s.detour.odd then .next s else .next (s.detourIf (s.detour.writePhase (s.detour.phase + 1).toNat))

/-- RETIREMENT_COMMIT (R369): `PHASE` + 1 in the swept state. -/
def execRetirementCommit (s : State) : Out :=
  if !s.detour.odd then .next s else .next (s.detourIf (s.detour.writePhase (s.detour.phase + 1).toNat))

/-- SWEEP_PAUSE (R368). -/
def execSweepPause (s : State) : Out := .next (s.detourIf (s.detour.writeSweep (2 ^ 62)))

/-- SWEEP_RESUME (R368). -/
def execSweepResume (s : State) : Out := .next (s.detourIf (s.detour.writeSweep 0))

/-! ### The sweep (R370) -/

/-- A new line of the cache of die 0 for each line of the unit at address 0, which is staged there (R370). -/
def stagedLines (l : List Nat) : List Nat := (List.range 512).foldl (fun l i => insertLine 1048576 l i) l

/-- SWEEP_LINE_COPY (R370): the moving unit's next line, from the top, is copied, unless the sweep is paused between units. Every
store has been written back as it was performed, and cached lines are clean. The unit at address 0 is read whole into the
cache of die 0 before its first line is written. -/
def execSweepLineCopy (s : State) : Out :=
  let d := s.detour
  if !d.odd || d.done || d.pointer < 65536 || (d.moving && 512 ≤ d.copied) || (!d.moving && d.pause) then .next s
  else
    let n := if d.moving then d.copied else 0
    let s := if n = 0 && d.pointer = 65536 then
        (s.meetErrors 0 65536).setDie 0 { (s.meetErrors 0 65536).die 0 with lines := stagedLines (s.die 0).lines }
      else s.meetErrors (d.pointer - 128 * (n + 1)) 128
    .next { s with detour := { d with moving := true, copied := n + 1 } }

/-- SWEEP_UNIT_COMPLETE (R370): the moving unit, once its lines have been copied, completes. -/
def execSweepUnitComplete (s : State) : Out :=
  if !s.detour.moving || s.detour.copied < 512 then .next s else .next s.completeUnit

/-! ### Stores (R297, R372) -/

/-- How a store is routed as the sweep stands (R372): the low bit of `PHASE`, and the stacks of its bytes. -/
def State.route (s : State) (st : Store) : Bool × List Nat :=
  (s.detour.odd, match st.cluster with
    | some _ => []
    | none => (st.addrs.map s.stackOf).eraseDups)

/-- STORE_DRAIN (R297, R372): the oldest store of a hart is routed as the sweep stands; once routed so, it is performed, unless
its unit is being moved (R371) or it waits for a bank that it wakes (R350). -/
def execStoreDrain (h : HartId) (s : State) : Out :=
  match (s.hart h).stores with
  | [] => .next s
  | st :: rest =>
    match st.routed with
    | none => .next (s.modHart h fun x => { x with stores := { st with routed := some (s.route st) } :: rest })
    | some r =>
      if r != s.route st || s.blocked st then .next s
      else if !s.awakeFor st then .next (s.wakeFor [st])
      else .next ((s.perform st).modHart h fun x => { x with stores := rest })

/-- REQUEST_REPLAY (R372): a request that carries the other phase, or is aimed at a home that its line has left, is returned and
routed again. -/
def execRequestReplay (s : State) : Out :=
  let stale (st : Store) : Bool := match st.routed with | some r => r != s.route st | none => false
  match s.harts.find? fun e => (e.2.stores.head?).any stale with
  | none => .next s
  | some (h, x) =>
    match x.stores with
    | [] => .next s
    | st :: rest => .next (s.setHart h { x with stores := { st with routed := none } :: rest })

end Sys2Proof.Machine
end

