-- ==== Sys2Proof/Machine/Reliability.lean ====
section
/-! DEFINITION. Reliability (17 R349 to R360): signature mismatches and quarantine, bank retention, and the mismatch
histograms. -/

namespace Sys2Proof.Machine

open Sys2Proof

/-! ### Row identifiers (R354) -/

/-- The row identifier of a row of an array, by kind, cluster, core and row. The numbers of clusters and cores are those of the model,
which takes each for its physical one (R5; log entry 100). -/
def rowId (kind cluster core row : Nat) : BitVec 32 :=
  BitVec.ofNat 32 (kind * 2 ^ 29 + cluster % 32 * 2 ^ 24 + core % 32 * 2 ^ 19 + row % 2 ^ 19)

/-- The row of an instruction cache, TLB or victim storage (R354), with the numbers of cluster and core among those enabled (log
entry 100). -/
def lookupRow (c row : Nat) : BitVec 32 := rowId 5 (c / 32 % 26) (c % 32) row

/-- The KIND 4 row of a core (R354): the fuses that enable 26 of 28 clusters are not given, and the numbers among the enabled ones
are taken as the physical ones (R5, log entry 100). -/
def coreRow (c : Nat) : BitVec 32 := rowId 4 (c / 32 % 26) (c % 32) 0

/-! ### Block signatures and quarantine (R358 to R360) -/

namespace State

/-- A mismatch counts in every counter of the core and logs EVENT 4 (R357, R359). -/
def logMismatch (s : State) (c : Nat) : State :=
  let d := c / 832
  s.setDie d (((List.range 24).foldl (fun (x : Die) i => x.count c i) (s.die d)).log (coreRow c) 4 0)

/-- Park a task on no fault-queue entry (R349, R359), by a trap of a class: its record is ready at once for a core, which alone may
take it when it is `fixed` there (R326). A task that keeps its slot replays in it. -/
def parkReady (s : State) (id : HartId) (core : Nat) (cls : TrapClass) (fixed : Bool) : State :=
  let h := s.hart id
  let s := s.setHart id { h with fault := some { trap := { cls }, pc := h.pc, insn := h.insn } }
  if s.keepsSlot id then (s.abortAt id).enterViews id
  else
    let s := s.abortAt id
    (s.setHart id {}).pushRecord (s.hart id) core fixed

/-- A live core of the cluster of a core other than itself. -/
def otherCore (s : State) (c : Nat) : Option Nat :=
  ((List.range 32).map (c / 32 * 32 + ·)).find? fun j => j ≠ c && !(s.core j).quarantined

/-- Move the task of a slot off a core that is out of service (R360): it ends when it holds tiles or is a gang member, or
when no core is left; else its region aborts and it is parked for another core. A trap that it owes comes first (R334). -/
def evict (s : State) (id : HartId) : State :=
  if (s.hart id).task.isNone then s
  else if (s.hart id).verdict.isSome then s.takeVerdict id
  else match s.otherCore (hartCore id) with
    | some c => if s.keepsSlot id then s.trapAt id { cls := .signature } else s.parkReady id c .signature true
    | none => s.trapAt id { cls := .signature }

/-- Quarantine a core (R360, R122): its deques move, its other tasks leave, and the repair table keeps it. -/
def quarantine (s : State) (c : Nat) : State :=
  let k := s.core c
  let s := s.setCore c { k with quarantined := true, claims := [], dequeN := [], dequeU := [], spillN := [], spillU := [] }
  let heir := s.liveCore c
  let s := (k.spillN ++ k.dequeN).foldl (fun s w => s.push heir false w) s
  let s := (k.spillU ++ k.dequeU).foldl (fun s w => s.push heir true w) s
  let s := ((List.range 4).map (HartId.slot c ·)).foldl evict s
  let d := c / 832
  let x := ((s.die d).addRepair (coreRow c) 2).1
  s.setDie d (({ x with summary := (x.summary ||| 8) &&& ~~~1 }).log (coreRow c) 5 0)

/-- The signature-mismatch trap at the end of a block (R358, R359). SIGMIS names the logical core (R324). -/
def mismatch (s : State) (id : HartId) (block : Word) : State :=
  let c := hartCore id
  let here := s.logicalCore (s.partOf id) c
  let s := s.logMismatch c
  let mark (n : Nat) (s : State) : State :=
    s.modHart id fun h => { h with task := h.task.map fun t => { t with sigmis := some (block, here, n) } }
  match ((s.hart id).task.getD {}).sigmis with
  | some (b, core, n) =>
    if b ≠ block then (mark 1 s).parkReady id c .signature true
    else if core ≠ here then
      if n = 2 then s.trapAt id { cls := .signature } else (mark 1 s).parkReady id c .signature true
    else
      let s := mark 2 s
      match s.otherCore c with
      | some j => ((if s.keepsSlot id then s.trapAt id { cls := .signature } else s.parkReady id j .signature true)).quarantine c
      | none => (s.trapAt id { cls := .signature }).quarantine c
  | none => (mark 1 s).parkReady id c .signature true

end State

/-! ### Retention (R350) -/

/-- The clock at the last access to a bank; to one of a die cache through any of its lines (log entry 78). -/
def State.lastUse (s : State) (b : Bank) : Nat :=
  (s.lineUse.filter fun e => (s.dieBanks (e.1 * 128) 1).contains b).foldl (fun t e => max t e.2) (s.bankUse.get b 0)

/-- RETENTION_ENTER (R350): a bank that has been idle for 65,536 cycles begins its re-encoding. -/
def execRetentionEnter (b : Bank) (s : State) : Out :=
  match s.banks.find b with
  | none | some .active =>
    .next (if s.clock < s.lastUse b + 65536 then s else { s with banks := s.banks.set b (.entering false) })
  | _ => .next s

/-- RETENTION_ENTRY_DONE (R350): the bank is in retention, or leaves it at once for an access that waits. -/
def execRetentionEntryDone (b : Bank) (s : State) : Out :=
  match s.banks.find b with
  | some (.entering wanted) => .next { s with banks := s.banks.set b (if wanted then .exiting else .retention) }
  | _ => .next s

/-- The first row of a typed buffer among those of its core: W, A, C, S (log entry 19). -/
def bufferRow (space : BitVec 3) : Nat :=
  match space.toNat with
  | 2 => 0
  | 3 => 32768
  | 4 => 49152
  | _ => 57344

/-- The row of a word of a bank, by the word's place in its array; a die cache's rows hold 32 words each (log entry 19). -/
def bankRow (b : Bank) (w : Nat) : BitVec 32 :=
  match b with
  | .typed c sp i => rowId 3 (c / 32 % 26) (c % 32) (bufferRow sp + i * 8192 + w % 8192)
  | .cluster k i => rowId 2 (k % 26) 31 (i * 8192 + w % 8192)
  | .dieCache _ i => rowId 1 31 31 (i * 256 + w % 8192 / 32)

/-- The die of a bank. -/
def bankDie : Bank → Nat
  | .typed c _ _ => c / 832
  | .cluster k _ => k / 26
  | .dieCache d _ => d

/-- A word of a bank is poisoned; a die cache's is a physical word that it caches. -/
def State.markBank (s : State) (b : Bank) (w : Nat) : State :=
  match b with
  | .typed c sp i =>
    let k := s.core c
    s.setCore c (k.setBuffer sp ((k.buffer sp).mark (i * 8192 + w % 8192)))
  | .cluster k i => s.setCluster k { s.cluster k with mem := (s.cluster k).mem.mark (i * 8192 + w % 8192) }
  | .dieCache _ _ => { s with mem := s.mem.mark w }

/-- RETENTION_EXIT_DONE (R350): the bank is active again. What was corrected, by word, bad bits and what the retest finds, is
logged (R355); words with three bad bits are poisoned. -/
def execRetentionExitDone (b : Bank) (corrected : List (Nat × Nat × Bool)) (bad : List Nat) (s : State) : Out :=
  match s.banks.find b with
  | some .exiting =>
    let d := bankDie b
    let s := { s with banks := s.banks.erase b }.touch b
    let s := corrected.foldl (fun s w => s.setDie d ((s.die d).corrected (bankRow b w.1) (min w.2.1 2) w.2.2)) s
    .next (bad.foldl (fun s w => (s.setDie d ((s.die d).log (bankRow b w) 3 0)).markBank b w) s)
  | _ => .next s

/-! ### Errors of the arrays on the chip (R349, R354, R355, R357) -/

/-- An array is used at a compute core, by it or by what stands for its cluster or its die there (log entry 64). -/
def bankAt (c : Nat) : Bank → Bool
  | .typed core _ _ => core == c
  | .cluster k _ => k == c / 32
  | .dieCache d _ => d == c / 832

def TlbLevel.at (c : Nat) : TlbLevel → Bool
  | .core i => i == c
  | .cluster k | .victims k => k == c / 32
  | .die d => d == c / 832

/-- The die of a level of TLB entries, and their row (R354, log entry 19). -/
def TlbLevel.row : TlbLevel → Nat × BitVec 32
  | .core c => (c / 832, lookupRow c 1)
  | .cluster k => (k / 26, rowId 5 (k % 26) 31 1)
  | .victims k => (k / 26, rowId 5 (k % 26) 31 2)
  | .die d => (d, rowId 5 31 31 1)

/-- The error lies in an array that is used at a compute core. -/
def Upset.at (c : Nat) : Upset → Bool
  | .array core _ _ _ _ | .tile core _ _ _ | .scale core _ _ _ | .line core _ _ => core == c
  | .bank b _ => bankAt c b
  | .entry l _ => l.at c
  | _ => false

/-- The die and the row of an error of an array on the chip (R354). -/
def Upset.row : Upset → Option (Nat × BitVec 32)
  | .array core row _ _ _ => some (core / 832, row)
  | .tile core n _ _ | .scale core n _ _ => some (core / 832, rowId 4 (core / 32 % 26) (core % 32) (n + 1))
  | .bank b w => some (bankDie b, bankRow b w)
  | .line core _ _ => some (core / 832, lookupRow core 0)
  | .entry l _ => some l.row
  | _ => none

namespace State

/-- An uncorrectable error of an array on the chip is logged (R356). -/
def logBad (s : State) (at_ : Nat × BitVec 32) : State := s.setDie at_.1 ((s.die at_.1).log at_.2 3 0)

/-- The counter of the histogram record that a corrected error adds to (R357): a lane, or the sub-array of the slice row that holds
the word. -/
def errorCounter (s : State) (core : Nat) : ErrorPlace → Option Nat
  | .vector word bit => some (2 * (word % 8) + bit / 32 % 2)
  | .tile n r k =>
    let t := (s.core core).tiles.toList.getD n {}
    some (16 + (if t.role then k % 64 else r) / 8)
  | .matrix double coff byte =>
    let row := (byte - coff * 64) / (if double then 256 else 128)
    if coff * 64 ≤ byte && byte < coff * 64 + 8192 then some (16 + row / 8) else none
  | .gang member coff byte => if coff * 64 ≤ byte && byte < coff * 64 + 1024 then some (16 + member % 8) else none
  | .other => none

/-- The elements of the 64-bit word of a tile that holds one of them: in the A role consecutive ones of its outer index, in the B role
of its K index (R357; log entry 19). -/
def tileWord (t : Tile) (r k : Nat) : List (Nat × Nat) :=
  let n := max 1 (64 / t.fmt.width)
  (List.range n).map fun i => if t.role then (r / n * n + i, k) else (r, k / n * n + i)

/-- The elements that the scales of a 64-bit word of the side band scale: two blocks of 32 of an outer index (R44, log entry 19). -/
def scaleWord (r block : Nat) : List (Nat × Nat) := (List.range 64).map fun i => (r, block / 2 * 64 + i)

/-- Elements of a tile register of a core are poisoned. -/
def markTile (s : State) (core n : Nat) (l : Tile → List (Nat × Nat)) : State :=
  let x := s.core core
  s.setCore core { x with tiles := Vector.ofFn fun i =>
    if i.val = n then { x.tiles[i] with bad := x.tiles[i].bad ++ l x.tiles[i] } else x.tiles[i] }

/-- Entries of a level of the TLBs that are kept. -/
def filterLevel (s : State) (l : TlbLevel) (keep : TlbEntry → Bool) : State :=
  match l with
  | .core c => s.setCore c { s.core c with tlb := (s.core c).tlb.filter keep }
  | .cluster k => s.setCluster k { s.cluster k with tlb := (s.cluster k).tlb.filter keep }
  | .victims k => s.setCluster k { s.cluster k with victims := (s.cluster k).victims.filter keep }
  | .die d => s.setDie d { s.die d with tlb := (s.die d).tlb.filter keep }

/-- What an error of an array on the chip does: a corrected one is logged and counted, a bad word is poisoned, and a bad line or entry
is dropped where it stands, so that it is fetched or looked up again. -/
def meetArray (s : State) (u : Upset) : State :=
  let s := { s with upsets := s.upsets.erase u }
  let bad := (u.row.map s.logBad).getD s
  match u with
  | .array core row bits lasting place =>
    let d := (s.die (core / 832)).corrected row bits lasting
    s.setDie (core / 832) (match s.errorCounter core place with | some i => d.count core i | none => d)
  | .tile core n r k => bad.markTile core n fun t => tileWord t r k
  | .scale core n r block => bad.markTile core n fun _ => scaleWord r block
  | .bank b w => bad.markBank b w
  | .line core asid line => bad.setCore core { bad.core core with icache := (bad.core core).icache.filter (· ≠ (asid, line)) }
  | .entry l e => bad.filterLevel l (· ≠ e)
  | _ => s

/-- The errors of the arrays that are used at a compute core. -/
def arrayErrors (s : State) (c : Nat) : State :=
  if s.upsets.isEmpty then s else s.upsets.foldl (fun s u => if u.at c then s.meetArray u else s) s

end State

/-! ### Histograms (R357) -/

/-- The counters of a die reach flash. -/
def Die.flush (d : Die) (now : Nat) : Die := { d with flash := d.counters, flushedAt := now }

/-- HISTOGRAM_FLUSH (R357): at most once every 2^30 cycles. -/
def execHistogramFlush (die : Nat) (s : State) : Out :=
  let d := s.die die
  if s.clock < d.flushedAt + 2 ^ 30 then .next s else .next (s.setDie die (d.flush s.clock))

/-- ORDERLY_SHUTDOWN (R357): the counters of every die reach flash. -/
def execOrderlyShutdown (s : State) : Out := .next { s with dies := s.dies.update fun _ d => d.flush s.clock }

end Sys2Proof.Machine
end

