-- ==== Sys2Proof/Machine/Host.lean ====
section
/-! DEFINITION. What arrives from outside the cores: the tenant's host through Ultra Ethernet (05 R95 to R102), service
messages (15 R340), and Turnpike (10 R260, R262; 05 R120). -/

namespace Sys2Proof.Machine

open Sys2Proof

/-! ### Device-memory windows (R102) -/

namespace State

/-- A completion at the endpoint: 0 and the data, or 1 for an error (log entry 20). -/
def complete (s : State) (data : List Byte) : State := s.answerWith (0 :: data)
def refuseHost (s : State) : State := s.answerWith [1]

/-- The ASID of a queue pair that may carry window traffic (R102). -/
def windowAsid (s : State) (p qp : Nat) : Option Nat :=
  if qp = 0 then none else ((s.partition p).qps.find qp).map (·.asid)

/-- The physical addresses of a window access, each with the key of its page (R102, R219, R373): under the pair's ASID through
the last-level TLB of the endpoint's die, page by page; none where it is refused. -/
def windowAt (s : State) (p qp : Nat) (va : Word) (n : Nat) (need : Need) : Option (List (Nat × Nat)) :=
  match s.windowAsid p qp, (s.partition p).slice.head? with
  | some asid, some k =>
    let l := (List.range n).map fun i =>
      let a := va + BitVec.ofNat 64 i
      ((s.die (k / 26)).tlb.find? fun e => canonical a && e.covers asid a.toNat && e.allows need
        && e.physical a.toNat < s.limit && !s.foreign p (e.physical a.toNat)).map fun e => (e.physical a.toNat, e.key)
    if l.all (·.isSome) then some (l.filterMap id) else none
  | _, _ => none

end State

/-- The queue pair that a host's request comes on, with its partition. -/
def hostPair : Instr → Option (Nat × Nat)
  | .hostWindowRead p qp _ _ | .hostWindowWrite p qp _ _ | .mailboxSlotWrite p qp _ _ _ | .mailboxSlotRead p qp _ _ _
  | .doorbellWrite p qp _ _ _ => some (p, qp)
  | _ => none

namespace State

/-- In reliable ordered delivery a request comes after those that the same pair delivered and that wait (R103). -/
def behind (s : State) (p qp : Nat) : Bool :=
  (((s.partition p).qps.find qp).map (·.ordered)).getD true && s.waiting.any fun i => hostPair i == some (p, qp)

/-- A host's request takes its turn on its pair (R103). -/
def inTurn (s : State) (p qp : Nat) (i : Instr) (k : State → Out) : Out := if s.behind p qp then .next (s.await i) else k s

/-- The bytes at some addresses as they read under the keys of their pages. -/
def keyedBytes (s : State) (l : List (Nat × Nat)) : List Byte := l.map fun a => (s.underKey (some a.2) a.1 1).mem.byte a.1

end State

/-- HOST_WINDOW_READ (R102): a poisoned word anywhere in the read refuses it; it waits for sleeping banks (R350). -/
def execHostWindowRead (part qp : Nat) (va : Word) (len : Nat) (s : State) : Out :=
  s.inTurn part qp (.hostWindowRead part qp va len) fun s =>
    match s.windowAt part qp va len .r with
    | none => .next s.refuseHost
    | some l =>
      if l.any fun a => !s.dieAwake a.1 1 then
        .next ((l.foldl (fun s a => s.wakeDie a.1 1) s).await (.hostWindowRead part qp va len))
      else
        let s := l.foldl (fun s a => s.accessNow a.1 1) s
        if l.any fun a => s.mem.poisoned a.1 then .next s.refuseHost else .next (s.complete (s.keyedBytes l))

/-- HOST_WINDOW_WRITE (R102): it waits for a unit being moved (R371), and for sleeping banks (R350). -/
def execHostWindowWrite (part qp : Nat) (va : Word) (bytes : List Byte) (s : State) : Out :=
  s.inTurn part qp (.hostWindowWrite part qp va bytes) fun s =>
    match s.windowAt part qp va bytes.length .w with
    | none => .next s.refuseHost
    | some l =>
      if l.any fun a => s.movingUnit a.1 || !s.dieAwake a.1 1 then
        .next ((l.foldl (fun s a => s.wakeDie a.1 1) s).await (.hostWindowWrite part qp va bytes))
      else
        let b := (l.map (·.1)).zip bytes
        let s := l.foldl (fun s a => s.underKey (some a.2) a.1 1) (s.storeNow b [])
        .next ({ s with mem := s.mem.store b }.complete [])

/-! ### Mailbox windows (R95 to R99) -/

namespace Mailbox

def stateCode (m : Mailbox) : Nat := match m.state with | .unbound => 0 | .armed => 1 | .held => 2 | .faulted => 3
/-- The status word (R98). -/
def status (m : Mailbox) : Nat := m.expect + m.fails * 2 ^ 32 + m.slot * 2 ^ 40 + m.stateCode * 2 ^ 48
/-- The byte of the window at an offset (R97). -/
def windowByte (m : Mailbox) (off : Nat) : Byte :=
  if off < 64 * m.depth then m.bytes.byte off
  else if off < 64 * m.depth + 8 then BitVec.ofNat 8 (m.status / 2 ^ (8 * (off - 64 * m.depth)))
  else 0
/-- A slot is marked announced (R97). -/
def announce (m : Mailbox) (slot : Nat) : Mailbox :=
  { m with announced := if m.announced.contains slot then m.announced else m.announced ++ [slot] }

end Mailbox

namespace State

/-- Ring the doorbell with a value (R97). -/
def doorbell (s : State) (p i q : Nat) : State :=
  let m := s.mailbox p i
  if 2 ^ 32 ≤ q then s
  else if q = m.expect then
    if m.state != .armed then s
    else if m.valid then validate p i 256 s
    else
      let s := validate p i 256 s
      let m := s.mailbox p i
      if m.state == .armed then s.setMailbox p i (m.announce m.slot) else s
  else if q ≠ 0 && m.ahead q < m.depth then s.setMailbox p i (m.announce ((m.slot + m.ahead q) % m.depth))
  else s

/-- A write into the window of a mailbox (R95, R97, R99): the bytes of slots are stored, but not those of a held slot;
then the slot of E is validated where the write calls for it, and the doorbell rings where the write covers it. -/
def windowWrite (s : State) (p i off : Nat) (bytes : List Byte) : State :=
  let m := s.mailbox p i
  if m.state == .unbound || m.state == .faulted || m.messageFed then s
  else
    let inSlot (a n : Nat) : Bool := n / 64 == a
    let l := (bytesAt off bytes).filter fun e => e.1 < 64 * m.depth && !(m.state == .held && inSlot m.slot e.1)
    let touches (lo hi : Nat) : Bool := l.any fun e => lo ≤ e.1 && e.1 < hi
    let s := s.setMailbox p i { m with bytes := m.bytes.store l }
    let stamp := touches (64 * m.slot + 56) (64 * m.slot + 64)
    let announced := m.announced.contains m.slot && touches (64 * m.slot) (64 * m.slot + 64)
    let s := if stamp || announced then validate p i 256 s else s
    let bell := 64 * m.depth + 8
    if off ≤ bell && bell + 8 ≤ off + bytes.length then s.doorbell p i (fileNat bytes (bell - off) 8) else s

/-- A mailbox access on a queue pair is refused on queue pair 0, and where there is no such pair or mailbox (R102). -/
def mailboxOpen (s : State) (p qp mbx : Nat) : Bool :=
  qp ≠ 0 && mbx < 4096 && ((s.partition p).qps.find qp).isSome && !(s.partition p).slice.isEmpty

/-- The access lies in the window (R97). -/
def inWindow (s : State) (p mbx off len : Nat) : Bool := off + len ≤ 64 * (s.mailbox p mbx).depth + 64

end State

/-- MAILBOX_SLOT_WRITE (R95). -/
def execMailboxSlotWrite (part qp mbx off : Nat) (bytes : List Byte) (s : State) : Out :=
  s.inTurn part qp (.mailboxSlotWrite part qp mbx off bytes) fun s =>
    if s.mailboxOpen part qp mbx && s.inWindow part mbx off bytes.length then
      .next ((s.windowWrite part mbx off bytes).complete [])
    else .next s.refuseHost

/-- MAILBOX_SLOT_READ (R97): slots as they stand, the status word, zeros elsewhere. -/
def execMailboxSlotRead (part qp mbx off len : Nat) (s : State) : Out :=
  s.inTurn part qp (.mailboxSlotRead part qp mbx off len) fun s =>
    if s.mailboxOpen part qp mbx && s.inWindow part mbx off len then
      .next (s.complete ((List.range len).map fun j => (s.mailbox part mbx).windowByte (off + j)))
    else .next s.refuseHost

/-- DOORBELL_WRITE (R97): only a write that covers the whole word rings. -/
def execDoorbellWrite (part qp mbx off : Nat) (bytes : List Byte) (s : State) : Out :=
  s.inTurn part qp (.doorbellWrite part qp mbx off bytes) fun s =>
    if s.mailboxOpen part qp mbx && s.inWindow part mbx off bytes.length then
      .next ((s.windowWrite part mbx off bytes).complete [])
    else .next s.refuseHost

/-- MAILBOX_FAULT (R100): the faulted mailbox sends its message. -/
def execMailboxFault (part mbx : Nat) (s : State) : Out := .next (s.sendFault part mbx)

namespace State

/-- Commands of a partition are still to be kicked again after a restore (R254, R329); those of tasks that are parked wait for
their tasks. -/
def remaindersLeft (s : State) (p : Nat) : Bool :=
  let waits (c : Command) : Bool := c.part == p && c.status.isNone && (c.state == .queued || c.state == .stopped)
  (s.harts.any fun e => e.2.parked.isNone && e.2.queue.any waits) || s.dies.any fun e => e.2.orphans.any waits

/-- The saved entries of a partition's clusters wait in their queues, in the order of the old numbers (R329, R343). -/
def giveMisses (s : State) (q : Partition) : State :=
  q.slice.foldl (fun s k => ((s.cluster k).misses.filter (·.restored)).foldl (fun s e => s.giveMiss k e.seq) s) s

/-- The saved entries of a partition fit into the queues of its clusters beside what waits there (R223). -/
def missesFit (s : State) (q : Partition) : Bool := q.slice.all fun k => (s.cluster k).misses.length ≤ 256

/-- A restored partition does not run yet: remainders are left, or a queue has no room for its saved entries (R329). -/
def restoreWaits (s : State) (p : Nat) : Bool := s.remaindersLeft p || !s.missesFit (s.partition p)

/-- The tasks of a partition that kept their slots and are ready go on (R326). -/
def readyAll (s : State) (p : Nat) : State :=
  (s.harts.filter fun e => e.2.parked == some 0 && ((e.2.task.getD {}).desc.part == p)).foldl (fun s e => s.readyKept e.1) s

/-- A restored partition runs (R329): its saved entries wait for their TSCs, the tasks that have become ready go on and their records
are pushed, and its mailboxes validate. -/
def resume (s : State) (p : Nat) : State :=
  let q := s.partition p
  let s := (s.setPartition p { q with preempt := .running, ready := [] }).giveMisses q
  let s := s.readyAll p
  let s := q.ready.foldl (fun s w => match w with
    | .replay h c fixed => s.pushRecord h c fixed
    | .desc _ => s) s
  q.mailboxes.foldl (fun s e => if e.2.state == .armed && e.2.valid then validate p e.1 256 s else s) s

/-- Push the slot that was held first. -/
def pushHeld (s : State) (p i : Nat) (rest : List Nat) : State :=
  let m := s.mailbox p i
  let s := s.setPartition p { s.partition p with heldOrder := rest }
  validate p i 256 (s.trigger p i { m with state := .armed, latched := none } (m.latched.getD []))

end State

/-- HELD_SLOT_PUSH (R96, R99): the pending count is below `quota`, and the slot that was held first is pushed. After a restore
the remainders come first, then the held slots, then the rest (R329). -/
def execHeldSlotPush (part : Nat) (s : State) : Out :=
  let q := s.partition part
  let full := decide (q.quota ≤ s.pending part)
  match q.preempt, q.heldOrder with
  | .running, i :: rest => .next (if full then s else s.pushHeld part i rest)
  | .running, [] => .next s
  | .restoring, i :: rest =>
    .next (if s.restoreWaits part then s else if full then s.resume part else s.pushHeld part i rest)
  | .restoring, [] => .next (if s.restoreWaits part then s else s.resume part)
  | _, _ => .next s

/-! ### Service messages and Turnpike -/

/-- SERVICE_MESSAGE_ARRIVAL (R340, R400): a message joins the service queue of a system core; while the queue is full its
sender waits. -/
def execServiceMessageArrival (die core : Nat) (msg : List Byte) (s : State) : Out := .next (s.serve die core msg)

/-- What another package writes here: it keeps its order (R262, R374). -/
def packetWrites : Packet → Bool
  | .flit _ _ | .poisoned _ _ | .nibbles _ | .signal _ _ | .message _ _ _ => true
  | _ => false

/-- A write of another package waits behind those that wait (R374). -/
def State.turnpikeBusy (s : State) : Bool := s.waiting.any fun i => match i with | .turnpikeArrival p => packetWrites p | _ => false

/-- TURNPIKE_ARRIVAL (R260, R262, R120): a payload, which may be poisoned (R351) or of half bytes (R259), a signal, a message, or the
answer to what this package sent. A write to a unit being moved, or through a sleeping bank, waits, and what follows it waits with it
(R350, R371, R374). A payload and a signal are acknowledged once they are performed (R262); at or above the limit they are answered
with 5 (R373). -/
def execTurnpikeArrival (packet : Packet) (s : State) : Out :=
  let wait (addrs : List Nat) : Out :=
    .next ((addrs.foldl (fun s a => s.wakeDie a 1) s).await (.turnpikeArrival packet))
  let above : Out := .next (s.answerWith [5])
  let write (bytes : List (Nat × Byte)) (half : List (Nat × Bool × Nat)) (bad : Bool) : Out :=
    let addrs := bytes.map (·.1) ++ half.map (·.1)
    if addrs.any (s.limit ≤ ·) then above
    else if addrs.any fun a => s.movingUnit a || !s.dieAwake a 1 then wait addrs
    else
      let s := s.storeNow bytes half
      let m := s.mem.storeBoth bytes half
      .next ({ s with mem := if bad then (addrs.map (· / 8)).foldl Mem.mark m else m }.answerWith [0])
  if packetWrites packet && s.turnpikeBusy then wait []
  else match packet with
  | .flit pa bytes => write (bytesAt pa bytes) [] false
  | .poisoned pa bytes => write (bytesAt pa bytes) [] true
  | .nibbles half => write [] half false
  | .signal pa add =>
    if s.limit < pa + 8 then above
    else if !add then write (bytesAt pa (leBytes 8 1)) [] false
    else if !s.dieAwake pa 8 then wait [pa]
    else .next (((s.touchDie pa 8).addSignal pa).answerWith [0])
  | .message part handle body =>
    let r := s.deliver part handle body
    .next (r.1.answerWith [BitVec.ofNat 8 r.2])
  | .answer h status =>
    if !(s.hart h).sent then .next s
    else
      let p := s.partOf h
      let s := if status = 2 || status = 3 then s.drop p else s
      .next (s.modHart h fun x => { x with answer := some (if status = 4 then 2 else status), sent := false })
  | .acknowledged command status => .next (s.flitAnswered command status)
  | .commandAnswer command status => .next (s.commandAnswered command status)
  | .launchAnswer part launch status => .next (s.launchAnswered part launch status)
  | .dropAnswer part status => .next (if status = 0 then s else s.drop part)

end Sys2Proof.Machine
end

