-- ==== Sys2Proof/Machine/System.lean ====
section
/-! DEFINITION. The system instructions (15 R330 to R341; 02 R45 to R49; 17 R361 to R363), but `qsave` and `qrest`. -/

namespace Sys2Proof.Machine

open Sys2Proof

namespace State

/-- An instruction of a privilege level (R51, R20): below it the privilege trap, whatever the guard. -/
def atLevel (s : State) (n : Nat) (gd : BitVec 3) (k : State → Out) : Out :=
  if s.level s.cur < n then .next (s.raise .privilege) else s.guarded gd k

/-- A system instruction that writes S[D] is over; it ends its region (R330). -/
def sysDone (s : State) (d : BitVec 5) (x : Word) : Out := (s.setS d x).endRegion.finish

end State

/-! ### trap, ctrlr, ctrlw (R331, R332) -/

/-- `trap` (R331). -/
def execTrap (f : FmtS) (s : State) : Out :=
  s.guarded f.gd fun s => .next (s.trap { cls := .software, detail := f.sel.setWidth 32, value := s.getS f.a })

/-- The value of a control register (R46); the flags registers are read by `VXF_ACCESS`. A TSC and a system core have no slot or
place in a slice: what they read there is the model's choice (log entry 61). -/
def ctrlValue (s : State) (sel : BitVec 12) : Word :=
  let h := s.cur
  let q := s.myPart
  match sel.toNat with
  | 0x000 => match h with | .slot _ n => BitVec.ofNat 64 n | _ => 0
  | 0x001 => match h with | .sys _ n => BitVec.ofNat 64 n | _ => BitVec.ofNat 64 (hartCore h % 32)
  | 0x002 => match h with
    | .sys _ _ => 0
    | _ => BitVec.ofNat 64 (s.logicalCore (s.partOf h) (hartCore h) / 32)
  | 0x003 => s.cycleOf h
  | 0x004 => s.me.tagdone
  | 0x005 => s.me.vxfLo
  | 0x006 => s.me.vxfHi
  | 0x007 => s.me.regs.rmode.setWidth 64
  | 0x008 => s.me.regionpc
  | 0x009 => BitVec.ofNat 64 q.quota
  | 0x00A => BitVec.ofNat 64 q.wdlimit
  | 0x00B => BitVec.ofNat 64 q.gangwait
  | 0x100 => BitVec.ofNat 64 s.detour.capacity
  | 0x101 => s.detour.phase.setWidth 64
  | 0x102 => s.detour.sweep
  | _ => s.detour.liveStacks

/-- A package register, which no task may access (R46). -/
def packageReg (sel : BitVec 12) : Bool := 0x100 ≤ sel.toNat

/-- `ctrlr` (R332). -/
def execCtrlr (f : FmtS) (s : State) : Out :=
  s.atLevel (if packageReg f.sel then 1 else 0) f.gd fun s => (s.setS f.d (ctrlValue s f.sel)).finish

/-- A write that a register's map checks: the illegal-instruction trap where it is refused (R332). -/
def writeChecked (ok : Bool) (s t : State) : Out := if ok then t.endRegion.finish else .next (s.raise .illegal)

/-- A register of the issuer's partition changes; where there is no partition, nothing does. -/
def State.modMyPart (s : State) (f : Partition → Partition) : State :=
  match s.partitions.find (s.partOf s.cur) with
  | some q => s.setPartition (s.partOf s.cur) (f q)
  | none => s

/-- `ctrlw` of a register but `vxf` and `quota` (R332, R47, R142, R282, R365 to R368). -/
def execCtrlw (f : FmtS) (s : State) : Out :=
  s.atLevel (if packageReg f.sel then 1 else 0) f.gd fun s =>
    let x := s.getS f.a
    let n := x.toNat
    let system := s.level s.cur = 2
    let detour (d : Option Detour) : Out := writeChecked d.isSome s (s.detourIf d)
    if f.sel = 0x007 then
      writeChecked (n ≤ 4) s (s.modMe (·.modRegs fun r => { r with rmode := x.setWidth 3 }))
    else if !system then s.endRegion.finish
    else match f.sel.toNat with
      | 0x00A => writeChecked (65536 ≤ n && n < 2 ^ 32) s (s.modMyPart fun q => { q with wdlimit := n })
      | 0x00B => writeChecked (1024 ≤ n && n < 2 ^ 32) s (s.modMyPart fun q => { q with gangwait := n })
      | 0x101 => detour (s.detour.writePhase n)
      | 0x102 => detour (s.detour.writeSweep n)
      | 0x103 => detour (s.detour.writeLive n)
      | _ => s.endRegion.finish

/-- QUOTA_WRITE, `ctrlw quota` (R104): no effect at task level. -/
def execQuotaWrite (f : FmtS) (s : State) : Out :=
  s.guarded f.gd fun s =>
    let n := (s.getS f.a).toNat
    if s.level s.cur = 0 then s.endRegion.finish
    else writeChecked (64 ≤ n && n < 2 ^ 24) s (s.modMyPart fun q => { q with quota := n })

/-- VXF_ACCESS, `ctrlr` and `ctrlw` of `vxf.lo` and `vxf.hi` (R48, R49): it waits for earlier flag-setting
instructions. -/
def execVxfAccess (write : Bool) (f : FmtS) (s : State) : Out :=
  s.guarded f.gd fun s =>
    if s.me.pend.any fun p => p.sets && !p.complete s.now then .next (s.stall .flags)
    else
      let s := s.modMe Hart.settleFlags
      if !write then (s.setS f.d (ctrlValue s f.sel)).finish
      else
        let x := s.getS f.a
        writeChecked (x.toNat < 2 ^ 40) s
          (s.modMe fun h => if f.sel = 0x005 then { h with vxfLo := x } else { h with vxfHi := x })

/-! ### tret (R333, R334) -/

namespace State

/-- A live entry becomes free with its parked tasks ready (R222, R326). -/
def freeMiss (s : State) (k : Nat) (e : MissEntry) : State :=
  let c := s.cluster k
  let s := s.setCluster k { c with misses := c.misses.filter (·.seq ≠ e.seq) }
  let s := e.kept.foldl readyKept s
  e.records.foldl (fun s r => s.readyRecord r.1 r.2) s

/-- End one stalled requester of a terminated entry (R334, R255, R115). A task's instruction takes the trap when it is its turn to
issue (R126). -/
def endRequester (s : State) (status : Word) : Requester → State
  | .hart id => s.modHart id fun h => { atFault h with verdict := some (endTrap h status) }
  | .command _ c => s.failCommand c 2
  | .decrement p d =>
    match (s.partition p).decrements.find? (·.id == d) with
    | some x => s.failDecrement p x .pageFault status.toNat
    | none => s

/-- Terminate an entry (R334). -/
def termMiss (s : State) (k : Nat) (e : MissEntry) (status : Word) : State :=
  let c := s.cluster k
  let s := s.setCluster k { c with misses := c.misses.filter (·.seq ≠ e.seq) }
  let s := e.stalled.foldl (fun s r => s.endRequester status r) s
  let s := e.kept.foldl (fun s id => (s.modHart id fun h => { atFault h with parked := none }).trapAt id (endTrap (s.hart id) status)) s
  e.records.foldl (fun s r => match r.1.task with
    | some t => s.endTrapped r.2 (atFault r.1) t (endTrap r.1 status) false
    | none => s) s

/-- Defer an entry (R334, R222): it parks. A task that stalls on it takes the trap, and parks on it, when it is its instruction's turn
to issue and look the page up again (R126). -/
def deferMiss (s : State) (k : Nat) (e : MissEntry) : State :=
  let c := s.cluster k
  s.setCluster k { c with misses := c.misses.map fun x => if x.seq = e.seq then { x with parked := true } else x }

/-- The entry of the issuing TSC's queue that S[A] names. -/
def namedMiss (s : State) (a : BitVec 5) : Option MissEntry :=
  s.myCluster.misses.find? fun e => e.seq == (s.getS a).toNat % 2 ^ 32

/-- `tret` is valid on a TSC only (R333). -/
def onTsc (s : State) (gd : BitVec 3) (k : Nat → State → Out) : Out :=
  match s.cur with
  | .tsc j => s.guarded gd (k j)
  | _ => .next (s.raise .privilege)

end State

/-- `tret.take` (R333): it waits for an entry given to this TSC, whose image it writes as any vector result is written (R190). -/
def execTretTake (f : FmtS) (s : State) : Out :=
  s.onTsc f.gd fun k s =>
    match (s.cluster k).misses.find? fun e => !e.taken && !e.restored with
    | none => .next (s.stall .take)
    | some e =>
      (s.writeV f.d (e.image.setWidth 512)).run fun _ s =>
      let c := s.cluster k
      (s.setCluster k { c with misses := c.misses.map fun x => if x.seq = e.seq then { x with taken := true } else x }).endRegion.finish

/-- `tret.defer` (R334). -/
def execTretDefer (f : FmtS) (s : State) : Out :=
  s.onTsc f.gd fun k s =>
    match s.namedMiss f.a with
    | some e => (if e.parked then s else s.deferMiss k e).endRegion.finish
    | none => s.endRegion.finish

/-- `tret.term` (R334): a task that has parked ends once its matrix work has completed (R278, R320). -/
def execTretTerm (f : FmtS) (s : State) : Out :=
  s.onTsc f.gd fun k s =>
    match s.namedMiss f.a with
    | some e =>
      if e.records.any fun r => r.1.working s.now then .next (s.stall .slice)
      else (s.termMiss k e (s.getS f.b)).endRegion.finish
    | none => s.endRegion.finish

/-- `tret.release` (R334). -/
def execTretRelease (f : FmtS) (s : State) : Out :=
  s.onTsc f.gd fun k s =>
    match s.namedMiss f.a with
    | some e => (s.freeMiss k e).endRegion.finish
    | none => s.endRegion.finish

/-! ### tlbw and tlbi (R217, R335, R336) -/

namespace State

/-- An ASID or a key slot that the issuer may name (R217, R336, R389). -/
def mayName (s : State) (x : Nat) (own : List Nat) : Bool :=
  match s.cur with
  | .sys _ _ => true
  | _ => x ≠ 0 && own.contains x

/-- An entry is well formed for the issuer (R217). -/
def entryOk (s : State) (e : TlbEntry) : Bool :=
  let w1 := e.word1.toNat
  let w0 := e.word0.toNat
  let low := e.pageBits - 16
  let cap := if s.detour.pend then s.newCapacity else s.detour.capacity
  w1.testBit 63 && e.psize ≠ 3 && e.ord ≠ 3 && bits w1 41 7 == 0
    && bits w0 52 3 < 3 && e.geom < 3 && bits w0 36 7 == 0
    && e.vpn % 2 ^ low == 0 && e.pfn % 2 ^ low == 0
    && e.elem ≠ 3 && (e.geom == 0 || e.elem ≠ 2)
    && !(bits w0 52 3 == 0 && w0.testBit 51)
    && (!e.x || s.level s.cur == 2)
    && (!e.x || (!e.r && !e.w && e.elem == 0 && e.geom == 0 && bits w0 52 3 == 0))
    && (!e.sig || e.x)
    && s.mayName e.asid s.myPart.asids && s.mayName e.key s.myPart.keys
    && e.pfn * 65536 + 2 ^ e.pageBits ≤ cap

/-- Remove the entries of a kind from every level (R336). -/
def purge (s : State) (gone : TlbEntry → Bool) : State :=
  let keep (l : List TlbEntry) : List TlbEntry := l.filter fun e => !gone e
  { s with
    cores := s.cores.update fun _ c => { c with tlb := keep c.tlb }
    clusters := s.clusters.update fun _ k => { k with tlb := keep k.tlb, victims := keep k.victims }
    dies := s.dies.update fun _ d => { d with tlb := keep d.tlb } }

/-- Free every entry of a cluster's miss queue that a TLB entry covers (R222). -/
def answerMisses (s : State) (k : Nat) (e : TlbEntry) : State :=
  ((s.cluster k).misses.filter fun m => e.covers m.asid (m.page * 65536)).foldl (fun s m => s.freeMiss k m) s

/-- Write an entry to the cluster TLB of a TSC (R335): overlapping entries there and above are gone first. -/
def writeCluster (s : State) (k : Nat) (e : TlbEntry) : State :=
  let keep (l : List TlbEntry) : List TlbEntry := l.filter fun f => !e.overlaps f
  let s := s.anchorJoins e
  let s := { s with cores := s.cores.update fun i c => if i / 32 = k then { c with tlb := keep c.tlb } else c }
  let s := s.setCluster k { s.cluster k with tlb := keep (s.cluster k).tlb }
  (s.fillCluster k e).answerMisses k e

/-- Write an entry to the last-level TLB of a die (R335). -/
def writeDie (s : State) (d : Nat) (e : TlbEntry) : State :=
  let s := s.installDie d e
  ((List.range 26).map (d * 26 + ·)).foldl (fun s k => s.answerMisses k e) s

/-- Every store of every hart is performed, so that no access through a removed entry is left (R336). -/
def drainEvery (s : State) : Res Unit :=
  (s.awaitStores (s.harts.flatMap (·.2.stores))).bind fun _ s => .ok () ((s.harts.map (·.1)).foldl drainAll s)

end State

/-- `tlbw` (R335): a release at device scope. -/
def execTlbw (f : FmtS) (s : State) : Out :=
  s.atLevel 1 f.gd fun s =>
    s.publish.run fun _ s =>
      let e : TlbEntry := { word0 := s.getS f.a, word1 := s.getS f.b }
      if !s.entryOk e then s.sysDone f.d 1
      else match s.cur with
        | .sys d _ => (s.writeDie d e).sysDone f.d 0
        | h => (s.writeCluster (hartCluster h) e).sysDone f.d 0

/-- The forms of `tlbi` (R336) share the removal and the wait. -/
def tlbi (gone : State → TlbEntry → Bool) (s : State) : Out := s.drainEvery.run fun _ s => (s.purge (gone s)).endRegion.finish

/-- The ASID operand of `tlbi` and `cinv.i`. -/
def State.asidOperand (s : State) (b : BitVec 5) : Nat := (s.getS b).toNat % 256

/-- `tlbi.page` (R336). -/
def execTlbiPage (f : FmtS) (s : State) : Out :=
  s.atLevel 1 f.gd fun s =>
    let a := s.asidOperand f.b
    let va := (s.getS f.a).toNat
    (check (s.mayName a s.myPart.asids) .protection s).run fun _ s => tlbi (fun _ e => e.covers a va) s

/-- `tlbi.asid` (R336). -/
def execTlbiAsid (f : FmtS) (s : State) : Out :=
  s.atLevel 1 f.gd fun s =>
    let a := s.asidOperand f.b
    (check (s.mayName a s.myPart.asids) .protection s).run fun _ s => tlbi (fun _ e => e.asid == a) s

/-- `tlbi.all` (R336): the ASIDs of the issuer's partition; those of no partition when the issuer has none (log entry
16). -/
def execTlbiAll (f : FmtS) (s : State) : Out :=
  s.atLevel 1 f.gd fun s =>
    let p := s.partOf s.cur
    tlbi (fun s e => if p = 0 then !(s.partitions.any fun q => q.2.asids.contains e.asid)
      else (s.partition p).asids.contains e.asid) s

/-! ### mbind (R337, R92, R99) -/

/-- The failure value of `mbind` (R337). -/
def mbindFail (code : Nat) : Word := BitVec.ofNat 64 (0xFC * 2 ^ 56 + code)

/-- The fields of a binding record are in their ranges (R92). -/
def bindingOk (b : List Byte) : Bool :=
  fileNat b 10 1 ≤ 1 && 1 ≤ fileNat b 11 1 && fileNat b 11 1 ≤ 4 && fileNat b 14 1 ≤ 31 && fileNat b 15 1 ≤ 8
    && fileNat b 16 1 ≤ 1 && fileNat b 17 7 == 0 && fileNat b 40 8 == 0

namespace State

/-- Bind a mailbox under a record (R99): E, P, the slots and the generation start anew. -/
def bind (s : State) (p i : Nat) (b : List Byte) (o : Object) (entry : Nat) : State × Word :=
  let q := s.partition p
  let gen := (s.mailbox p i).gen % 65535 + 1
  let depth := 2 ^ fileNat b 15 1
  let m : Mailbox := {
    state := .armed, gen, object := o.handle, entry := o.base + BitVec.ofNat 64 (8 * entry), asid := o.asid
    urgent := fileNat b 10 1 == 1, glade := fileNat b 11 1
    home := q.slice.getD (fileNat b 12 2) 0 * 32 + fileNat b 14 1, logDepth := fileNat b 15 1
    messageFed := fileNat b 16 1 == 1, doneMbx := BitVec.ofNat 64 (fileNat b 24 8)
    faultMbx := BitVec.ofNat 64 (fileNat b 32 8), slot := 1 % depth }
  ((s.unbindMailbox p i).setMailbox p i m, handleOf s.node gen i)

end State

/-- `mbind` (R337). -/
def execMbind (f : FmtS) (s : State) : Out :=
  s.guarded f.gd fun s =>
    let i := (s.getS f.a).toNat
    let a := s.getS f.b
    if 4096 ≤ i then s.sysDone f.d (mbindFail 5)
    else
      (checkAt (a.toNat % 8 == 0) .alignment a s).run fun _ s =>
      (Res.collect (fun (j : Nat) s => s.loadBytes (a + BitVec.ofNat 64 (8 * j)) 8 0) (List.range 6) s).run fun l s =>
        let b := l.flatten
        let p := s.partOf s.cur
        let q := s.partition p
        if !bindingOk b then s.sysDone f.d (mbindFail 1)
        else match q.objects.find (BitVec.ofNat 64 (fileNat b 0 8)) with
          | none => s.sysDone f.d (mbindFail 2)
          | some o =>
            if o.revoked then s.sysDone f.d (mbindFail 2)
            else match o.entries.find? (·.1 == fileNat b 8 2) with
              | none => s.sysDone f.d (mbindFail 3)
              | some e =>
                match q.slice[fileNat b 12 2]? with
                | none => s.sysDone f.d (mbindFail 4)
                | some k =>
                  if (s.core (k * 32 + fileNat b 14 1)).quarantined then s.sysDone f.d (mbindFail 4)
                  else
                    let r := s.bind p i b o e.2
                    r.1.sysDone f.d r.2

/-- `mbind.un` (R337, R99). -/
def execMbindUn (f : FmtS) (s : State) : Out :=
  s.guarded f.gd fun s =>
    let h := s.getS f.a
    let i := bits h.toNat 0 12
    let p := s.partOf s.cur
    let m := s.mailbox p i
    if m.state != .unbound && h == handleOf s.node m.gen i then (s.unbindMailbox p i).sysDone f.d 0
    else s.sysDone f.d (mbindFail 4)

/-! ### reprw (R361 to R363) -/

/-- State, spare and row of a repair entry (R362). -/
def repairState (x : Word) : Nat := bits x.toNat 61 2
def repairRow (x : Word) : BitVec 32 := x.setWidth 32

/-- `reprw.get` (R363). -/
def execReprwGet (f : FmtS) (s : State) : Out :=
  s.atLevel 2 f.gd fun s =>
    let i := (s.getS f.a).toNat
    s.sysDone f.d (if 1024 ≤ i then 0 else (s.die (hartDie s.cur)).repair.getD i 0)

/-- `reprw.add` (R363). -/
def execReprwAdd (f : FmtS) (s : State) : Out :=
  s.atLevel 2 f.gd fun s =>
    let d := hartDie s.cur
    let r := (s.die d).addRepair ((s.getS f.a).setWidth 32) 0
    (s.setDie d r.1).sysDone f.d (match r.2 with | some i => BitVec.ofNat 64 i | none => BitVec.allOnes 64)

/-- The summary of a die after a row took a spare, or found none (R361). -/
def Die.repaired (d : Die) (spare : Bool) : Die :=
  let low := d.summary.toNat
  let kept := bits low 32 32 * 2 ^ 32 + d.sparesUsed % 2 ^ 16 * 2 ^ 16
  { d with summary := BitVec.ofNat 64 (kept + (if spare then low % 16 else low % 16 / 2 * 2 % 8 + 8)) }

/-- A row of a die is copied into its spare: what can be corrected in it is, and what cannot is poisoned (R363). The words of a row
are those of the errors that wait in it. -/
def State.copyRow (s : State) (d : Nat) (row : BitVec 32) : State :=
  s.upsets.foldl (fun s u => if u.row = some (d, row) then s.meetArray u else match u with
    | .corrected w r _ _ | .uncorrected w r =>
      if s.homeDie (w * 8) = d && s.hbmRow (w * 8) r = row then s.meetErrors (w * 8) 8 else s
    | _ => s) s

/-- `reprw.apply` (R363). -/
def execReprwApply (f : FmtS) (s : State) : Out :=
  s.atLevel 2 f.gd fun s =>
    let d := hartDie s.cur
    let x := s.die d
    let i := (s.getS f.a).toNat % 1024
    match x.repair[i]? with
    | none => s.sysDone f.d 2
    | some e =>
      if repairState e ≠ 0 then s.sysDone f.d 2
      else
        let spare := decide (x.sparesUsed < Config.spareRows d)
        let row := (repairRow e).toNat
        let e' := if spare then 2 ^ 63 + 2 ^ 61 + x.sparesUsed % 256 * 2 ^ 48 + row else 2 ^ 63 + 2 ^ 62 + row
        let s := if spare then s.copyRow d (repairRow e) else s
        let x := s.die d
        let x := { x with repair := x.repair.set i (BitVec.ofNat 64 e'), sparesUsed := x.sparesUsed + (if spare then 1 else 0) }
        (s.setDie d (x.repaired spare)).sysDone f.d (if spare then 0 else 1)

/-- `reprw.clr` (R363). -/
def execReprwClr (f : FmtS) (s : State) : Out :=
  s.atLevel 2 f.gd fun s => (s.setDie (hartDie s.cur) { s.die (hartDie s.cur) with bloom := [] }).endRegion.finish

/-- `reprw.sum` (R363). -/
def execReprwSum (f : FmtS) (s : State) : Out :=
  s.atLevel 2 f.gd fun s => s.sysDone f.d (s.die (hartDie s.cur)).summary

/-! ### The firmware of system cores (R344, R379, R399) -/

/-- The first instruction, as an offset in the body (R380, log entry 22). -/
def imageEntry (b : List Byte) : Word := BitVec.ofNat 64 (fileNat b 24 8)

/-- The body of a firmware image (R380). -/
def imageBody (b : List Byte) : List Byte := (b.drop 64).take (fileNat b 16 8)

namespace State

/-- An entry of the resident system for the translations of a TSC or a system core. -/
def mapFor (s : State) (h : HartId) (e : TlbEntry) : State :=
  match h with
  | .sys d _ => s.writeDie d e
  | _ => s.writeCluster (hartCluster h) e

/-- The pages of a firmware image stand in their frames, and are mapped for a core (R344, R375, R414): the text execute-only, the
data section after it RC with R and W. -/
def placeFirmware (s : State) (h : HartId) (i : FirmwareImage) : State :=
  i.frames.zipIdx.foldl (fun s e =>
    let page := ((imageBody i.file).drop (65536 * e.2)).take 65536
    let text := decide (e.2 < i.text)
    ({ s with mem := s.mem.fillPage e.1 page }.freshFrame 0 e.1).mapFor h
      (pageEntry (s.hart h).asid 0 ((i.base.toNat + 65536 * e.2) % 2 ^ 64) e.1 (!text) (!text) text)) s

/-- A firmware image starts on a core (R344): every register 0, the pc at its entry. -/
def startFirmware (s : State) (h : HartId) (entry : Word) (system : Bool) : State :=
  s.modHart h fun x => { pc := entry, regionpc := entry, running := true, boundary := true, asid := x.asid
                         inbox := x.inbox, raised := system, since := s.clock }

/-- The cores that a stage runs on (R379). -/
def stageCores (stage : Nat) : List HartId :=
  match stage with
  | 1 => [.sys 0 0]
  | 2 | 4 => (List.range 4).map (.sys · 0)
  | 3 => (List.range 4).flatMap fun d => [.sys d 1, .sys d 2, .sys d 3]
  | _ => (List.range 104).map .tsc

/-- Where the image of a boot stage stands: at an address of its own (log entry 22). -/
def stageImage (stage : Nat) (file : List Byte) : FirmwareImage :=
  let pages := ((imageBody file).length + 65535) / 65536
  { file, base := BitVec.ofNat 64 (stage * 2 ^ 40), entry := BitVec.ofNat 64 (stage * 2 ^ 40) + imageEntry file
    frames := (List.range pages).map (Config.firmwareFrame stage + ·), text := (Config.firmwareText file + 65535) / 65536 }

/-- An image starts on every core of its stage. -/
def startStage (s : State) (stage : Nat) (image : List Byte) : State :=
  (stageCores stage).foldl (fun s h =>
    (s.placeFirmware h (stageImage stage image)).startFirmware h (stageImage stage image).entry false) s

/-- The committed scheduler firmware, and the other slot (R399). -/
def committed (s : State) : FirmwareSlot := if s.committedB then s.slotB else s.slotA
def spareSlot (s : State) : FirmwareSlot := if s.committedB then s.slotA else s.slotB
def setSpare (s : State) (x : FirmwareSlot) : State := if s.committedB then { s with slotA := x } else { s with slotB := x }

/-- The sequence number of the first service message that the scheduler firmware has not taken (R401). -/
def nextMessage (s : State) : Nat :=
  s.messages - (s.harts.map fun e => match e.1 with | .sys _ n => if n = 0 then 0 else e.2.inbox.length | _ => 0).sum

end State

/-- The handover structure that an old image writes (R401): its header and its body (log entry 72). -/
def handoverOf (slotB : Bool) (next : Nat) (image : List Byte) : List Byte :=
  let body := Config.handoverBody image
  leBytes 4 0x4B57484F ++ leBytes 2 (Config.handoverVersion image) ++ leBytes 1 (bit slotB) ++ leBytes 1 0
    ++ leBytes 8 (128 + body.length) ++ leBytes 8 next ++ sha384 body ++ List.replicate 56 0 ++ body

/-- A new image takes a handover structure (R399, R401): the version is in its HVER, and the digest is that of the body. -/
def takesHandover (image handover : List Byte) : Bool :=
  let v := fileNat handover 4 2
  fileNat image 12 2 ≤ v && v ≤ fileNat image 14 2 && (handover.drop 24).take 48 == sha384 (handover.drop 128)

namespace State

/-- The old image has written the handover structure and halted for an update, and the new one starts (R399). -/
def startUpdate (s : State) : State :=
  { s with update := .starting s.clock, handover := handoverOf s.committedB s.nextMessage s.committed.image }.startStage 3
    s.spareSlot.image

/-- The update is rolled back (R399): the new slot is marked failed, and the old image restarts. -/
def rollBack (s : State) : State :=
  { s.setSpare { s.spareSlot with failed := true } with update := .running }.startStage 3 s.committed.image

end State

/-! ### halt and cinv (R340, R341) -/

/-- The executing core runs the scheduler firmware (R379). -/
def State.firmwareCore (s : State) : Bool :=
  match s.cur with
  | .sys _ _ => s.level s.cur == 1
  | _ => false

/-- `halt` (R340): it takes a waiting message, or stops issue until one comes. At service level it takes the privilege trap,
which stops the core (R51, R341): the scheduler firmware halts so, and in an update that is the step of R399 (log entry 21). -/
def execHalt (f : FmtS) (s : State) : Out :=
  if s.firmwareCore && s.update != .running then
    let t := s.raise .privilege
    .next (if s.update == .quiescing then t.startUpdate else t.rollBack)
  else s.atLevel 2 f.gd fun s =>
    match s.me.inbox with
    | [] => .next ((s.modMe fun h => { h with halted := true }).stall .message)
    | _ :: rest => (s.modMe fun h => { h with inbox := rest, halted := false }).endRegion.finish

/-- `cinv.i` (R341). -/
def execCinvI (f : FmtS) (s : State) : Out :=
  s.atLevel 1 f.gd fun s =>
    let a := s.asidOperand f.b
    let page := (s.getS f.a).toNat / 65536
    let k := hartCluster s.cur
    let drop (c : Core) : Core := { c with icache := c.icache.filter fun e => !(e.1 == a && e.2 / 512 == page) }
    let s := { s with cores := s.cores.update fun i c => if i / 32 = k then drop c else c }
    s.endRegion.finish

/-- `cinv.d` (R341): every cached copy of a 64 KiB unit is written back and dropped. -/
def execCinvD (f : FmtS) (s : State) : Out :=
  s.atLevel 1 f.gd fun s =>
    let unit := bits (s.getS f.a).toNat 16 36
    let ok : Bool := match s.cur with
      | .sys _ _ => unit * 65536 < s.detour.capacity
      | _ => s.myPart.frames.contains unit
    (checkAt ok .protection (s.getS f.a) s).run fun _ s =>
    s.drainEvery.run fun _ s =>
      let keep (l : List Nat) : List Nat := l.filter fun n => n / 512 ≠ unit
      let s := { s with
        cores := s.cores.update fun _ c => { c with lines := keep c.lines }
        dies := s.dies.update fun _ d => { d with lines := keep d.lines } }
      s.endRegion.finish

end Sys2Proof.Machine
end

