-- ==== Sys2Proof/Machine/Save.lean ====
section
/-! DEFINITION. Pre-emption of a partition, `qsave` and `qrest` (15 R327 to R329, R338, R339). The internal sections of a
save area are the package's own; what they stand for is kept beside the area's bytes. -/

namespace Sys2Proof.Machine

open Sys2Proof

/-! ### Quiescence (R327) -/

namespace State

/-- The slots of a partition's cores. -/
def slotsOf (s : State) (p : Nat) : List HartId :=
  (s.harts.filter fun e => match e.1 with
    | .slot c _ => e.2.task.isSome && (s.partition p).slice.contains (c / 32)
    | _ => false).map (·.1)

/-- The matrix slice of a core has nothing to do. -/
def sliceIdle (s : State) (c : Nat) : Bool :=
  let k := s.core c
  k.jobs.isEmpty && (k.slice.toList ++ k.mmgs).all fun r => r.doneAt ≤ s.now

/-- Steps 1 to 3 of R327 are done: no task of the partition runs, the matrix slices have completed, and no command of one granule is
under way. -/
def quiescent (s : State) (p : Nat) : Bool :=
  ((s.partition p).preempt == .stopping || (s.partition p).preempt == .saved)
    && (s.partition p).slice.all (fun k => (List.range 32).all fun i => s.sliceIdle (k * 32 + i))
    && (s.slotsOf p).all (fun h => (s.hart h).parked.isSome)
    && (s.harts.map (·.2.queue)).flatten.all (fun c => !(c.part == p && c.state == .kicked && c.split == 0))
    && (s.dies.map (·.2.orphans)).flatten.all (fun c => !(c.part == p && c.state == .kicked && c.split == 0))

/-- `qinfo.live` of a cluster (R121). -/
def liveMask (s : State) (k : Nat) : Nat := ((List.range 32).map fun i => if (s.core (k * 32 + i)).quarantined then 0 else 2 ^ i).sum

/-- Store bytes from an address upward, in pieces of 4 KiB. -/
def storeRange (va : Word) : List (List Byte) → State → Res Unit
  | [], s => .ok () s
  | b :: t, s => (s.storeBytes va b).bind fun _ s => storeRange (va + 4096) t s

/-- Load n bytes from an address that is a multiple of 4 KiB. -/
def loadRange (s : State) (va : Word) (n : Nat) : Res (List Byte) :=
  (Res.collect (fun (i : Nat) s => s.loadBytes (va + BitVec.ofNat 64 (4096 * i)) (min 4096 (n - 4096 * i)) 0)
    (List.range ((n + 4095) / 4096)) s).bind fun l s => .ok l.flatten s

end State

/-- A list cut into pieces of 4 KiB. -/
def pieces (b : List Byte) : List (List Byte) :=
  (List.range ((b.length + 4095) / 4096)).map fun i => (b.drop (4096 * i)).take 4096

/-! ### qsave (R338, R339) -/

/-- The header of a save area, with its SIZE (R339). -/
def saveHeader (s : State) (q : Partition) (size : Nat) : List Byte :=
  leBytes 4 0x4B575356 ++ leBytes 2 1 ++ leBytes 2 0 ++ leBytes 8 size ++ wayDigest s.reducedService
    ++ leBytes 32 q.features.toNat ++ leBytes 4 q.slice.length ++ leBytes 4 0
    ++ (q.slice.map fun k => leBytes 4 (s.liveMask k)).flatten

/-- Bytes of a save area (R339). -/
def saveSize (q : Partition) (n : Nat) : Nat := 104 + 4 * q.slice.length + Config.saveLength n + 48

/-- The bytes of the n-th save area (R339): header, internal sections, digest. -/
def saveArea (s : State) (q : Partition) (n : Nat) : List Byte :=
  let b := saveHeader s q (saveSize q n) ++ (List.range (Config.saveLength n)).map (Config.saveByte n)
  b ++ sha384 b

namespace State

/-- The on-chip state of a partition (R328). -/
def snapshot (s : State) (q : Partition) (n : Nat) (area : List Byte) : Save where
  number := n
  area := area
  partition := q
  clusters := q.slice.map s.cluster
  cores := (q.slice.map fun k => (List.range 32).map fun i => s.core (k * 32 + i)).flatten
  harts := (s.slotsOf q.id).map fun h => (s.logicalCore q.id (hartCore h), hartSlot h, s.hart h)
  gangs := s.gangs.filter fun g => q.slice.contains g.2.cluster
  orphans := (s.dies.map (·.2.orphans)).flatten.filter (·.part == q.id)

end State

/-- A status with a byte count (R338). -/
def saveStatus (status bytes : Nat) : Word := BitVec.ofNat 64 (bytes * 256 + status)

/-- `qsave` (R338): it waits during an update of the scheduler firmware (R399). -/
def execQsave (f : FmtS) (s : State) : Out :=
  s.atLevel 2 f.gd fun s =>
    let p := (s.getS f.a).toNat
    let va := s.getS f.b
    if s.update != .running then .next (s.stall .update)
    else (checkAt (va.toNat % 4096 == 0) .alignment va s).run fun _ s =>
    match s.partitions.find p with
    | none => s.sysDone f.d (saveStatus 2 0)
    | some q =>
      let n := s.saves.length
      if !s.quiescent p then s.sysDone f.d (saveStatus 2 0)
      else if (s.getS f.c).toNat < saveSize q n then s.sysDone f.d (saveStatus 4 (saveSize q n))
      else
        let area := saveArea s q n
        let v := s.snapshot q n area
        (State.storeRange va (pieces area) s).run fun _ s =>
          let s := { s with saves := s.saves ++ [v] }
          (s.setPartition p { q with preempt := .saved }).sysDone f.d (saveStatus 0 (saveSize q n))

/-! ### qrest (R329): what a save names by number, moved to new cores and to the partition that takes it -/

/-- A change of cores and of the partition's number. -/
structure Move where
  core : Nat → Nat
  part : Nat

namespace Move

def desc (m : Move) (d : Descriptor) : Descriptor := { d with origin := m.core d.origin, part := m.part }
def hartId (m : Move) : HartId → HartId
  | .slot c n => .slot (m.core c) n
  | h => h
def command (m : Move) (c : Command) : Command := { c with core := m.core c.core, part := m.part, state := .queued }
def hart (m : Move) (h : Hart) : Hart :=
  { h with queue := h.queue.map m.command, task := h.task.map fun t => { t with desc := m.desc t.desc } }
def work (m : Move) : Work → Work
  | .desc d => .desc (m.desc d)
  | .replay h c fixed => .replay (m.hart h) (m.core c) fixed
def join (m : Move) (j : Join) : Join := { j with desc := m.desc j.desc }
def decrement (m : Move) (d : Decrement) : Decrement :=
  { d with desc := m.desc d.desc, core := m.core d.core, cluster := m.core d.core / 32 }
def mailbox (m : Move) (b : Mailbox) : Mailbox := { b with home := m.core b.home }

/-- A parked entry waits in the new queue as pending, under a number of that queue, once the remainders have run (R329, R343). -/
def miss (m : Move) (e : MissEntry) (i : Nat) : MissEntry :=
  { e with seq := 2 ^ 32 + i, parked := false, taken := false, restored := true, stalled := [], records := e.records.map fun r => (m.hart r.1, m.hartId r.2)
           kept := e.kept.map m.hartId }

def cluster (m : Move) (k : Cluster) : Cluster :=
  let live := (k.misses.filter fun e => !(e.records.isEmpty && e.kept.isEmpty)).zipIdx.map fun e => m.miss e.1 e.2
  { owner := m.part, misses := live, mem := k.mem
    gangs := k.gangs.map fun g => { g with members := g.members.map m.desc } }

/-- A core's saved state on the core that takes it; cores outside the saved live mask stay out of service. -/
def intoCore (m : Move) (old new : Core) : Core :=
  { new with
    tiles := old.tiles, sbuf := old.sbuf, quarantined := new.quarantined || old.quarantined
    sregions := old.sregions.map fun r => { r with holders := r.holders.map m.hartId }
    dequeN := old.dequeN.map m.work, dequeU := old.dequeU.map m.work, spillN := old.spillN.map m.work
    spillU := old.spillU.map m.work }

def partition (m : Move) (q : Partition) (slice : List Nat) : Partition :=
  { q with id := m.part, slice, preempt := .restoring, ready := q.ready.map m.work, joins := q.joins.map m.join
           decrements := q.decrements.map m.decrement, mailboxes := q.mailboxes.update fun _ b => m.mailbox b }

end Move

/-- A cluster in other hands keeps its TSC, whose firmware runs on under the mappings of ASID 0 (R344), and its health. -/
def Cluster.handedTo (old new : Cluster) : Cluster :=
  { new with firmware := old.firmware, disabled := old.disabled, tlb := old.tlb.filter (·.asid == 0)
             victims := old.victims.filter (·.asid == 0) }

namespace State

/-- The cores of a physical cluster host a saved live mask, and with it the rows of its gangs (R329). -/
def hosts (s : State) (mask k : Nat) : Bool := (List.range 32).all fun i => !mask.testBit i || !(s.core (k * 32 + i)).quarantined

/-- Physical clusters for the logical clusters of a save (R329), if some choice of them hosts every saved live mask. -/
def placeClusters (s : State) : List Nat → List Nat → Option (List Nat)
  | [], _ => some []
  | mask :: t, free => (free.filter (s.hosts mask)).findSome? fun k => (s.placeClusters t (free.erase k)).map (k :: ·)

/-- The live masks of a save, by logical cluster. -/
def saveMasks (v : Save) : List Nat := (List.range v.clusters.length).map fun i =>
  ((List.range 32).map fun j => if (v.cores.getD (i * 32 + j) {}).quarantined then 0 else 2 ^ j).sum

/-- What R329 asks of the device besides clusters; with the bounds on the package's queue pairs (R4) and shares (R397). -/
def fits (s : State) (p : Nat) (v : Save) : Bool :=
  let others := (s.partitions.filter fun e => e.1 ≠ p).map (·.2)
  (v.area.drop 16).take 48 == wayDigest s.reducedService
    && (!s.reducedService || v.partition.reduced)
    && v.partition.asids.all (fun a => others.all fun q => !q.asids.contains a)
    && v.partition.keys.all (fun k => s.keySlots.find k != some .scrubbing && others.all fun q => !q.keys.contains k)
    && (List.range 3).all (fun i => v.partition.shares.getD i 0 + (others.map fun q => q.shares.getD i 0).sum ≤ 248)
    && v.partition.nqp + (others.map (·.nqp)).sum ≤ 4096
    && v.partition.frames.all (fun n => (n + 1) * 65536 ≤ s.detour.capacity && others.all fun q => !q.frames.contains n)

/-- A cluster is held by a partition that has been saved (R391). -/
def savedCluster (s : State) (k : Nat) : Bool :=
  (s.cluster k).owner ≠ 0 && (s.partition (s.cluster k).owner).preempt == .saved

/-- A partition may be given a cluster: no partition holds it, or one that has been saved (R338, R391). -/
def mayTake (s : State) (k : Nat) : Bool := k < 104 && ((s.cluster k).owner == 0 || s.savedCluster k) && !(s.cluster k).disabled

/-- A cluster is cleared for another owner (R212); its cores start anew (R126, log entry 24). -/
def clearCluster (s : State) (k owner : Nat) : State :=
  let s := s.setCluster k ((s.cluster k).handedTo { owner })
  let cores := (List.range 32).map (k * 32 + ·)
  let s := cores.foldl (fun s c => s.setCore c { quarantined := (s.core c).quarantined, since := s.clock }) s
  { s with harts := s.harts.filter fun e => match e.1 with | .slot c _ => c / 32 ≠ k | _ => true }

/-- The translations of a partition's loads go on on the TSC of its first cluster, or wait while it has none (R76, log entry 1). -/
def moveClearings (s : State) (p : Nat) (tsc : Option Nat) : State :=
  { s with clearings := s.clearings.update fun _ c => if c.part = p then { c with tsc } else c }

/-- Saved partitions that hold some of these clusters lose theirs, which are cleared (R338, R391); what is left of them is in their saves. -/
def freeSaved (s : State) (clusters : List Nat) : State :=
  let loses (p : Nat) : Bool := (s.partition p).preempt == .saved && (s.partition p).slice.any clusters.contains
  ((s.partitions.map (·.1)).filter loses).foldl (fun u p =>
    let q := s.partition p
    let u := q.slice.foldl (fun u k => u.clearCluster k 0) u
    let u := { u with gangs := u.gangs.filter fun g => !q.slice.contains g.2.cluster
                      dies := u.dies.update fun _ d => { d with orphans := d.orphans.filter (·.part ≠ p) } }
    (u.setPartition p { q with slice := [] }).moveClearings p none) s

/-- Restore a save into a partition on the clusters that take it (R329): its remainders run first, then its held slots are
pushed, and then it runs. Its key store and its requester's session are no part of a save (R328): they stay as they are (R393, R396). -/
def restore (s : State) (p : Nat) (v : Save) (slice : List Nat) : State :=
  let at_ (c : Nat) : Nat := v.partition.slice.findIdx (· == c / 32) * 32 + c % 32
  let new (l : Nat) : Nat := slice.getD (l / 32) 0 * 32 + l % 32
  let m : Move := { core := fun c => new (at_ c), part := p }
  let live := s.partition p
  let s := (s.setPartition p { m.partition v.partition slice with keyStore := live.keyStore, spdm := live.spdm }).moveClearings p slice.head?
  let s := { s with keySlots := v.partition.keys.foldl (fun t k => t.set k (.assigned p)) s.keySlots }
  let s := (slice.zip v.clusters).foldl (fun s e => s.setCluster e.1 ((s.cluster e.1).handedTo (m.cluster e.2))) s
  let s := v.cores.zipIdx.foldl (fun s e => s.setCore (new e.2) (m.intoCore e.1 (s.core (new e.2)))) s
  let s := v.harts.foldl (fun (s : State) e =>
    let id := HartId.slot (new e.1) e.2.1
    let entry := (s.cluster (hartCluster id)).misses.find? fun x => x.kept.contains id
    s.setHart id { m.hart e.2.2 with parked := some ((entry.map (·.seq)).getD 0) }) s
  let s := v.gangs.foldl (fun (s : State) e =>
    { s with gangs := s.gangs.set e.1 { e.2 with cluster := m.core (e.2.cluster * 32) / 32
                                                 slots := e.2.slots.map fun x => (m.core x.1, x.2) } }) s
  v.orphans.foldl (fun (s : State) c =>
    let c := m.command c
    s.setDie (c.core / 832) { s.die (c.core / 832) with orphans := (s.die (c.core / 832)).orphans ++ [c] }) s

end State

/-- `qrest` (R338, R329): it waits during an update of the scheduler firmware (R399). An area of a device with another Waymark
digest is not for this one (R81); one of this digest that this package did not save is malformed to it (log entry 18). -/
def execQrest (f : FmtS) (s : State) : Out :=
  s.atLevel 2 f.gd fun s =>
    let p := (s.getS f.a).toNat
    let va := s.getS f.b
    let n := (s.getS f.c).toNat
    if s.update != .running then .next (s.stall .update)
    else (checkAt (va.toNat % 4096 == 0) .alignment va s).run fun _ s =>
    if n < 152 then s.sysDone f.d (saveStatus 2 0)
    else
      (s.loadBytes va 16 0).run fun b s =>
      let size := fileNat b 8 8
      if fileNat b 0 4 ≠ 0x4B575356 || fileNat b 4 2 ≠ 1 || n < size then s.sysDone f.d (saveStatus 2 0)
      else
        (s.loadRange va size).run fun area s =>
        if size < 152 || sha384 (area.take (size - 48)) ≠ area.drop (size - 48) then s.sysDone f.d (saveStatus 2 0)
        else if (area.drop 16).take 48 ≠ wayDigest s.reducedService then s.sysDone f.d (saveStatus 1 0)
        else match s.saves.find? fun v => v.area == area with
        | none => s.sysDone f.d (saveStatus 2 0)
        | some v =>
          if !((s.partition p).slice.isEmpty) then s.sysDone f.d (saveStatus 3 0)
          else
            let free := (List.range 104).filter s.mayTake
            match (if s.fits p v && p ≠ 0 then s.placeClusters (State.saveMasks v) free else none) with
            | none => s.sysDone f.d (saveStatus 1 0)
            | some slice => ((s.freeSaved slice).restore p v slice).sysDone f.d (saveStatus 0 size)

end Sys2Proof.Machine
end

