-- ==== Sys2Proof/Machine/Schedule.lean ====
section
/-! DEFINITION. The events of a core's own machinery (06 R130, R143; 09 R223, R232; 15 R327), and the fixed order in which
the units around a core look for something to do (log entry 1). -/

namespace Sys2Proof.Machine

open Sys2Proof

/-! ### Events -/

/-- Flags of the completed instructions go to `vxf` (R49). -/
def Hart.settleDone (h : Hart) (now : Nat) : Hart :=
  let due := h.pend.filter (·.complete now)
  { h with vxfLo := due.foldl (fun a p => a ||| p.flagsLo) h.vxfLo, vxfHi := due.foldl (fun a p => a ||| p.flagsHi) h.vxfHi
           pend := h.pend.map fun p => if p.complete now then { p with flagsLo := 0, flagsHi := 0 } else p }

/-- LONG_LATENCY_COMPLETE (R130): what has completed adds its flags, and the results whose windows are over land. -/
def execLongLatencyComplete (h : HartId) (s : State) : Out :=
  let now := s.now
  .next ((s.modHart h fun x => x.settleDone now).landClosed h now (s.hart h).pend.length)

/-- WATCHDOG_EXPIRE (R143): a task whose count has reached its limit takes the watchdog trap; a wait is broken, and a trap that is
already raised is not displaced (R319). -/
def execWatchdogExpire (core slot : Nat) (s : State) : Out :=
  let id := HartId.slot core slot
  if (s.hart id).watchdogDue && (s.hart id).verdict.all (·.cls == .watchdog) then .next (s.watchdogTrap id) else .next s

/-- MISS_QUEUE_ADMIT (R223): the oldest waiting miss takes a freed entry, joins the live entry of its key, or is over when
its page has come. -/
def execMissQueueAdmit (cluster : Nat) (s : State) : Out :=
  let k := s.cluster cluster
  match k.overflow with
  | [] => .next s
  | x :: rest =>
    let gone := s.setCluster cluster { k with overflow := rest }
    if (s.lookup (.tsc cluster) x.asid (x.page * 65536)).isSome then .next gone
    else match s.missEntry cluster x.asid x.page with
      | some e => .next (gone.joinMiss cluster e.seq x.who)
      | none => .next (s.admitMiss cluster x.who x.asid x.page x.image)

namespace State

/-- A stream's unit acts for a hart; where it would wait or fault, nothing happens yet (R232) but that a sleeping bank is woken
(R350). -/
def forStream (s : State) (h : HartId) (f : State → Res Unit) : State :=
  match f { s with cur := h } with
  | .ok _ t => { t with cur := s.cur }
  | .stop t => if (t.hart h).wait == some .bank then { s with banks := t.banks } else s

end State

/-- STREAM_FILL (R232): the next entry of an input stream. -/
def execStreamFill (h : HartId) (r : Nat) (s : State) : Out := .next (s.forStream h fun s => s.fillStream (BitVec.ofNat 3 r))

/-- STREAM_DRAIN (R232): the oldest entry of an output stream. -/
def execStreamDrain (h : HartId) (r : Nat) (s : State) : Out := .next (s.forStream h fun s => s.drainStream (BitVec.ofNat 3 r))

/-- TIME_SLICE_END (R327): a running partition starts no more tasks; during an update of the scheduler firmware it waits
(R399). -/
def execTimeSliceEnd (part : Nat) (s : State) : Out :=
  match s.partitions.find part with
  | none => .next s
  | some q =>
    if s.update != .running then .next (s.await (.timeSliceEnd part))
    else if q.preempt == .running then .next (s.setPartition part { q with preempt := .stopping })
    else .next s

/-! ### What the units around a core may do, in the order they are tried -/

/-- The activities of the commands at a site. -/
def siteEvents (s : State) (site : Site) : List Instr :=
  .commandKick site
    :: ((s.commandsAt site).zipIdx.map fun e =>
        if e.1.status.isSome then Instr.completionMessageRetry site e.2 else .granuleComplete site e.2)

/-- The activities for one hart's stores, commands and streams; the commands and streams of a parked task wait for its replay
(R253, R323). -/
def hartEvents (s : State) (h : HartId) : List Instr :=
  let x := s.hart h
  let drain : List Instr := if x.stores.isEmpty then [] else [.storeDrain h]
  let streams : List Instr := ((List.range 8).map fun i =>
    match x.regs.stream (BitVec.ofNat 3 i) with
    | some st => if st.output then [Instr.streamDrain h i] else [.streamFill h i]
    | none => []).flatten
  if x.parked.isSome then drain else drain ++ (if x.queue.isEmpty then [] else siteEvents s (.hart h)) ++ streams

/-- A core has work of a class. -/
def Core.hasWork (k : Core) (urgent : Bool) : Bool := let w := k.work urgent; !(w.1.isEmpty && w.2.isEmpty)

/-- Some core has work of a class and a slot that may take it: no other core steals before it has. -/
def ownerFirst (s : State) (urgent : Bool) : Bool :=
  s.cores.any fun e => e.2.hasWork urgent && (if urgent then [3] else [0, 1, 2]).any fun n => s.mayStart e.1 n

/-- The activities for one slot. -/
def slotEvents (s : State) (c n : Nat) : List Instr :=
  let h := HartId.slot c n
  let start : List Instr :=
    if (s.hart h).task.isNone && ((s.core c).hasWork (n == 3) || !ownerFirst s (n == 3)) then [.taskReplay c n, .taskStart c n]
    else []
  start ++ [.watchdogExpire c n, .instructionCacheFill h] ++ hartEvents s h

/-- The activities around a core: its slots and slice; with the first core of a cluster, the cluster's; with the first
of a die, the die's; with core 0, the package's. -/
def unitEvents (s : State) (c : Nat) : List Instr :=
  let k := c / 32
  let p := (s.cluster k).owner
  let core : List Instr :=
    [3, 0, 1, 2].flatMap (slotEvents s c) ++ [.tileClaimGrant c, .matrixSliceStart c]
      ++ ((s.partition p).objects.filter fun e => e.2.revoked && !(s.core c).notices.contains e.1).map
        fun e => Instr.revocationNotice c e.1
  let cluster : List Instr := if c % 32 ≠ 0 then [] else
    [.missQueueAdmit k, .gangPlace k] ++ hartEvents s (.tsc k)
  let die : List Instr := if c % 832 ≠ 0 then [] else
    siteEvents s (.die (c / 832)) ++ (List.range 4).flatMap fun n => hartEvents s (.sys (c / 832) n)
  let package : List Instr := if c ≠ 0 then [] else
    (s.partitions.flatMap fun e =>
      [Instr.counterDecrementPerform e.1, .heldSlotPush e.1]
        ++ (e.2.launches.map fun l => Instr.launchCompletionRetry e.1 l.1)
        ++ ((e.2.mailboxes.filter (·.2.owes)).map fun m => Instr.mailboxFault e.1 m.1)
        ++ (e.2.objects.filterMap fun o => o.2.hashing.map fun n => Instr.pageHashCheck e.1 o.1 n)
        ++ (if s.clearings.any fun x => x.2.part == e.1 && x.2.outcome.isSome then [Instr.cairnWaitResolve e.1 0] else []))
      ++ (s.gangs.map fun g => Instr.gangwaitExpire g.1)
      ++ (s.banks.flatMap fun b => [Instr.retentionEntryDone b.1, .retentionExitDone b.1 [] []])
      ++ [.requestReplay, .sweepLineCopy, .sweepUnitComplete]
      ++ (match s.update with | .starting _ => [Instr.heartbeatTimeout] | _ => [])
  core ++ cluster ++ die ++ package

namespace State

/-- What has arrived and waits is tried again, in the order of arrival (R371, R399, R400). -/
def retryWaiting (ex : Instr → State → Out) (s : State) : State :=
  s.waiting.foldl (fun s i => match ex i s with | .next t => t | _ => s) { s with waiting := [] }

/-- A turn of the units around a core: each of their activities is tried once, so that none is kept from its turn by another
(R247). -/
def unitTurn (ex : Instr → State → Out) (s : State) (c : Nat) : State :=
  let s := if c = 0 then s.retryWaiting ex else s
  (unitEvents s c).foldl (fun s i => match ex i s with | .next t => t | _ => s) s

end State

end Sys2Proof.Machine
end

