-- ==== Sys2Proof/Machine/Platform.lean ====
section
/-! DEFINITION. The platform (19 R378 to R405): reset and boot, the march test, clock steps, partitions, key slots, the
update of the scheduler firmware, and port ring queues. -/

namespace Sys2Proof.Machine

open Sys2Proof

/-! ### Measurement registers and the boot status word (R382, R383) -/

/-- A measurement register from 48 bytes, byte 0 lowest. -/
def mrOf (b : List Byte) : BitVec 384 := BitVec.ofNat 384 (leNat b)
def mrBytes (x : BitVec 384) : List Byte := leBytes 48 x.toNat

namespace State

def setMr (s : State) (n : Nat) (b : List Byte) : State :=
  { s with mr := Vector.ofFn fun i => if i.val = n then mrOf b else s.mr[i] }
/-- Extend a measurement register (R382). -/
def extendMr (s : State) (n : Nat) (d : List Byte) : State := s.setMr n (sha384 (mrBytes (s.mr.toList.getD n 0) ++ d))

/-- Fields of the boot status word (R383). -/
def bootStage (s : State) : Nat := bits s.boot.toNat 8 3
def bootDies (s : State) : Nat := bits s.boot.toNat 12 4
def bootFail (s : State) : Nat := bits s.boot.toNat 16 8
/-- The word with its fields given; SERVING where the resident system runs and every die serves (R379, R384). -/
def setBoot (s : State) (fail dies stage : Nat) (full : Bool) : State :=
  { s with boot := BitVec.ofNat 64 (fail * 2 ^ 16 + dies * 2 ^ 12 + stage * 2 ^ 8 + bit full * 2
                                    + bit (fail == 0 && 4 ≤ stage && dies == 15)) }

/-! ### Package reset (R379) -/

/-- A package reset: what flash, fuses and the world outside hold stays; cores that the repair table keeps out of service
stay quarantined (R360, R362). -/
def reboot (s : State) : State :=
  let kept (d : Die) : Die := { repair := d.repair, sparesUsed := d.sparesUsed, flash := d.flash, counters := d.flash }
  let lost := s.dies.flatMap fun e =>
    (e.2.repair.filter fun x => repairState x == 2 && bits x.toNat 29 3 == 4).map fun x =>
      (e.1 * 26 + bits x.toNat 24 5) * 32 + bits x.toNat 19 5
  { reset with
    freeCount := s.freeCount, upsets := s.upsets, node := s.node, present := s.present
    dies := s.dies.update fun _ d => kept d, cores := lost.map fun c => (c, { quarantined := true })
    svnMin := s.svnMin, images := s.images, slotA := s.slotA, slotB := s.slotB, committedB := s.committedB
    signatures := s.signatures, answers := s.answers, sent := s.sent, saves := s.saves, nextId := s.nextId }

end State

/-- PACKAGE_RESET (R379). -/
def execPackageReset (s : State) : Out := .next s.reboot

/-! ### Firmware images (R380, R381) -/

/-- The header and body of a firmware image, what is measured. -/
def imageCore (b : List Byte) : List Byte := b.take (64 + fileNat b 16 8)
def imageSvn (b : List Byte) : Nat := fileNat b 8 4
/-- The header and the signature block are well formed (R380, R57): ENTRY names an instruction word (R18, log entry 62). -/
def imageHeaderOk (stage : Nat) (b : List Byte) : Bool :=
  let n := fileNat b 16 8
  let sig := b.drop (64 + n)
  fileNat b 0 4 == 0x4B574657 && fileNat b 4 2 == 1 && fileNat b 6 1 == stage && fileNat b 7 1 == 0
    && (stage == 3 || fileNat b 12 4 == 0) && n % 8 == 0 && fileNat b 24 8 < n && fileNat b 24 8 % 8 == 0 && fileNat b 32 32 == 0
    && 64 + n + 112 ≤ b.length && sig.length == (112 + fileNat sig 104 4 + 7) / 8 * 8
    && fileNat sig 4 4 == 0 && fileNat sig 108 4 == 0 && (sig.drop (112 + fileNat sig 104 4)).all (· == 0)

/-- Both signatures verify under the root keys that KEYINDEX selects (R381). -/
def imageSigned (b : List Byte) : Bool :=
  let sig := b.drop (64 + fileNat b 16 8)
  let k := Config.rootKeys (fileNat sig 0 4)
  let d := sha384 (imageCore b)
  fileNat sig 0 4 ≤ 3 && Config.ecdsaVerifies k.1 d ((sig.drop 8).take 96)
    && hssPasses k.2 d ((sig.drop 112).take (fileNat sig 104 4))

/-- Why an image of a stage is refused, as FAILCODE (R383); 0 where it is accepted (R381). -/
def imageFault (s : State) (stage : Nat) (b : Option (List Byte)) : Nat :=
  match b with
  | none => 4
  | some b =>
    if !imageHeaderOk stage b then 1
    else if !imageSigned b then 2
    else if imageSvn b < s.svnMin.get stage 0 then 3
    else 0

namespace State

/-- Boot fixes the read-only mappings of a die's event ring and histogram area, for the resident system on the die (R356, R357, log
entry 92). -/
def mapLogs (s : State) (d : Nat) : State :=
  let ring := Config.ringFrame d % 2 ^ 36
  let area := Config.histogramFrame d % 2 ^ 36
  let s := s.setDie d { s.die d with ringFrame := some ring, histogramFrame := some area }
  [(0, ring), (1, area), (2, area + 1)].foldl (fun s e =>
    s.mapFor (.sys d 0) (pageEntry (s.hart (.sys d 0)).asid 0 (2 ^ 44 + 65536 * e.1) (e.2 % 2 ^ 36) true false false)) s

/-- An accepted image of a stage is measured and starts (R379, R382). -/
def handOff (s : State) (stage : Nat) (b : List Byte) : State :=
  let d := sha384 (imageCore b)
  let s := if stage = 1 then s.setMr 0 (sha384 Config.identityRecord) else s
  let s := s.extendMr stage d
  let s := match stage with
    | 3 => (if s.committed.image.isEmpty then { s with slotA := { image := b }, committedB := false } else s).setMr 7 d
    | 4 => ((List.range 4).foldl mapLogs s).setMr 6 (wayDigest true)
    | 5 => { s with clusters := (List.range 104).map fun k => (k, { s.cluster k with firmware := b }) }
    | _ => s
  let s := { s with images := s.images.set stage b }
  let s := s.startStage stage b
  s.setBoot 0 s.bootDies stage false

end State

/-- BOOT_STAGE_HANDOFF (R379, R383): the primary flash copy of the next image is tried, then the secondary; the scheduler
firmware comes from its committed slot where that holds one. -/
def execBootStageHandoff (primary secondary : Option (List Byte)) (s : State) : Out :=
  let stage := s.bootStage + 1
  if s.bootFail ≠ 0 || 5 < stage then .next s
  else
    let first := if stage = 3 && !s.committed.image.isEmpty then some s.committed.image else primary
    match first, imageFault s stage first with
    | some b, 0 => .next (s.handOff stage b)
    | _, _ =>
      match secondary, imageFault s stage secondary with
      | some b, 0 => .next (s.handOff stage b)
      | _, n => .next (s.setBoot n s.bootDies s.bootStage false)

/-- TSC_FIRMWARE_START (R344, R341, R375): the image is placed and mapped, and starts; a TSC's is measured for its partition
(R395). No word is at an address that is no multiple of 8 (R18), so that nothing starts there (log entry 62). -/
def execTscFirmwareStart (h : HartId) (entry : FirmwareImage) (system : Bool) (s : State) : Out :=
  if isSlot h || entry.entry.toNat % 8 ≠ 0 then .next s
  else
    let s := s.placeFirmware h entry
    let s := match h with
      | .tsc k => if entry.file.isEmpty then s else s.setCluster k { s.cluster k with firmware := entry.file }
      | _ => s
    .next (s.startFirmware h entry.entry system)

/-! ### The march test (R361, R362) -/

/-- An applied repair entry for a row (R362). -/
def appliedEntry (spare : Nat) (row : BitVec 32) : Word := BitVec.ofNat 64 (2 ^ 63 + 2 ^ 61 + spare % 256 * 2 ^ 48 + row.toNat)

/-- One failing row is recorded as pending, where no entry names it yet, and takes a spare while one is free (R361). -/
def Die.failRow (d : Die) (die : Nat) (row : BitVec 32) : Die × Bool :=
  let spare := decide (d.sparesUsed < Config.spareRows die)
  let entry (n : Nat) : Option Nat := d.repair.findIdx? fun x => repairRow x == row && repairState x == n
  let place (d : Die) (i : Nat) : Die × Bool :=
    if spare then ({ d with repair := d.repair.set i (appliedEntry d.sparesUsed row), sparesUsed := d.sparesUsed + 1 }, true)
    else (d, false)
  match entry 1, entry 0, entry 2 with
  | some _, _, _ => (d, true)
  | none, some i, _ => place d i
  | none, none, some _ => (d, false)
  | none, none, none =>
    match d.addRepair row 0 with
    | (d, some i) => place d i
    | (d, none) => (d, false)

/-- MARCH_TEST_COMPLETE (R361, R383): the failing rows are recorded and repaired, the clusters that cannot be are disabled,
and the die serves. -/
def execMarchTestComplete (die : Nat) (rows : List (BitVec 32)) (unusable : List Nat) (s : State) : Out :=
  let r := rows.foldl (fun (acc : Die × Bool) x =>
    let y := acc.1.failRow die x
    (y.1, acc.2 && y.2)) (s.die die, true)
  let d := r.1
  let unrep := d.repair.any fun x => repairState x == 2
  let sum := rows.length % 2 ^ 16 * 2 ^ 32 + d.sparesUsed % 2 ^ 16 * 2 ^ 16 + bit unrep * 8
    + bit (d.repair.length == 1024) * 4 + 2 + bit r.2
  let s := s.setDie die { d with summary := BitVec.ofNat 64 sum }
  let mine := (List.range 26).map (die * 26 + ·)
  let s := (mine.filter unusable.contains).foldl (fun s k => s.setCluster k { s.cluster k with disabled := true }) s
  if mine.all unusable.contains then .next (s.setBoot 5 s.bootDies s.bootStage false)
  else .next (s.setBoot s.bootFail (Nat.lor s.bootDies (2 ^ (die % 4))) s.bootStage (s.boot.toNat.testBit 1))

/-- FULL_SERVICE_SWITCH (R387): bring-up is complete, which every stage and every die is part of (R383), and no REDUCED
partition remains. -/
def execFullServiceSwitch (s : State) : Out :=
  if !s.reducedService || s.bootStage ≠ 5 || s.bootDies ≠ 15 || s.bootFail ≠ 0 || s.partitions.any (·.2.reduced) then .next s
  else
    let s := { s with clockStep := 0 }.extendMr 6 (wayDigest false)
    .next (s.setBoot 0 s.bootDies 5 true)

/-! ### The clock (R378) -/

/-- CLOCK_STEP_DOWN (R378): package power above 3,600 W or coolant above 40 °C; the readings are the telemetry of R405. -/
def execClockStepDown (milliwatts deciCelsius : Nat) (s : State) : Out :=
  let s := { s with power := milliwatts, coolant := deciCelsius }
  if 3600000 < milliwatts || 400 < deciCelsius then .next { s with clockStep := min 3 (s.clockStep + 1) } else .next s

/-- CLOCK_STEP_UP (R378): 100 ms with both conditions clear. -/
def execClockStepUp (clearMicroseconds : Nat) (s : State) : Out :=
  if 100000 ≤ clearMicroseconds then .next { s with clockStep := s.clockStep - 1 } else .next s

/-! ### Partitions (R388 to R391, R397) -/

/-- The fields of a creation record are in their ranges (R388). -/
def recordOk (r : List Byte) : Bool :=
  let f (o n : Nat) : Nat := fileNat r o n
  r.length == 128 && f 0 8 ≠ 0 && 1 ≤ f 8 2 && f 8 2 ≤ 104 && 1 ≤ f 10 2 && f 10 2 ≤ 255 && 1 ≤ f 12 2 && f 12 2 ≤ 255
    && f 14 2 ≤ 1 && f 55 1 < 128 && 64 ≤ f 16 4 && f 16 4 < 2 ^ 24 && 1 ≤ f 20 4 && f 20 4 ≤ 2 ^ 26 && f 64 8 % 65536 == 0
    && 2 ≤ f 72 4 && f 72 4 ≤ 4096 && 1 ≤ f 76 4 && f 76 4 ≤ 4096 && (f 80 4 == 0 || 65536 ≤ f 80 4)
    && (f 84 4 == 0 || 1024 ≤ f 84 4) && f 88 40 == 0

/-- Clusters of one die stand together in a slice (R122). -/
def grouped (l : List Nat) : Bool :=
  let dies := l.map (· / 26)
  (List.range dies.length).all fun i => (List.range dies.length).all fun j =>
    !(i < j && dies.getD i 0 == dies.getD j 0) || (List.range dies.length).all fun k =>
      !(i < k && k < j) || dies.getD k 0 == dies.getD i 0

namespace State

/-- Numbers 1 to 255 that no partition has among those a field gives. -/
def freeNumbers (s : State) (f : Partition → List Nat) : List Nat :=
  ((List.range 256).drop 1).filter fun a => s.partitions.all fun e => !(f e.2).contains a

/-- Key slots that may be assigned (R390). -/
def freeKeys (s : State) : List Nat :=
  (s.freeNumbers (·.keys)).filter fun k => match s.keySlots.find k with | none | some .free => true | _ => false

/-- The lowest frames below `CAPACITY` that no partition holds, those of firmware images among them (log entry 107). -/
def drawFrames (s : State) (n : Nat) : List Nat :=
  let held := s.partitions.flatMap (·.2.frames)
  let top := min (s.detour.capacity / 65536) (n + held.length)
  ((List.range top).filter fun x => !held.contains x).take n

/-- What creation needs of the package (R386, R388, R389, R397). The 104 spatial partitions of R4 are those that hold clusters: a
saved one that has lost its clusters does not count (log entry 93). -/
def creatable (s : State) (r : List Byte) (clusters : List Nat) : Bool :=
  let f (o n : Nat) : Nat := fileNat r o n
  let share (i : Nat) : Nat := (s.partitions.map fun e => e.2.shares.getD i 0).sum
  recordOk r && s.boot.toNat.testBit 0 && (s.partitions.find (f 0 8)).isNone
    && (!s.reducedService || f 14 2 == 1)
    && clusters.length == f 8 2 && clusters.eraseDups.length == clusters.length && grouped clusters
    && clusters.all s.mayTake
    && f 10 2 ≤ (s.freeNumbers (·.asids)).length && f 12 2 ≤ s.freeKeys.length
    && (List.range 3).all (fun i => share i + f (56 + 2 * i) 2 ≤ 248)
    && (s.partitions.map (·.2.nqp)).sum + f 72 4 ≤ 4096
    && (s.drawFrames (f 64 8 / 65536)).length == f 64 8 / 65536
    && !s.detour.pend && !s.detour.odd

/-- The queue pairs of a new partition (R102): pair 0 for attestation, and each other bound to one of its ASIDs, by place, in
reliable ordered or unordered delivery as the resident system chooses; the first ASID, in order, where it names none. -/
def pairsOf (asids : List Nat) (n : Nat) (pairs : List (Nat × Bool)) : Table Nat QueuePair :=
  (List.range n).map fun i =>
    let x := pairs.getD (i - 1) (0, true)
    (i, if i = 0 then { asid := 0 } else { asid := asids.getD x.1 (asids.headD 0), ordered := x.2 })

/-- The partition that a record makes. -/
def made (s : State) (r : List Byte) (clusters : List Nat) (pairs : List (Nat × Bool)) : Partition :=
  let f (o n : Nat) : Nat := fileNat r o n
  let asids := (s.freeNumbers (·.asids)).take (f 10 2)
  let frames := s.drawFrames (f 64 8 / 65536)
  { id := f 0 8, reduced := f 14 2 == 1, features := BitVec.ofNat 256 (f 24 32), budgetCap := f 20 4
    shares := [f 56 2, f 58 2, f 60 2], collDomain := f 62 2, nqp := f 72 4, nmbx := f 76 4, nasid := f 10 2, nkey := f 12 2
    slice := clusters, quota := f 16 4, wdlimit := if f 80 4 = 0 then 0x01000000 else f 80 4
    gangwait := if f 84 4 = 0 then 0x00010000 else f 84 4, asids, keys := s.freeKeys.take (f 12 2), frames, framesLeft := frames
    record := r, qps := pairsOf asids (f 72 4) pairs }

end State

/-- PARTITION_CREATE (R388): whole, or refused; it waits during an update of the scheduler firmware (R399). Its key slots get
new keys, and its frames are zeroed under the first of them (R390). -/
def execPartitionCreate (record : List Byte) (clusters : PartitionPlan) (s : State) : Out :=
  if s.update != .running then .next (s.await (.partitionCreate record clusters))
  else if !s.creatable record clusters.clusters then .next (s.answerWith [1])
  else
    let q := s.made record clusters.clusters clusters.pairs
    let s := s.freeSaved clusters.clusters
    let s := clusters.clusters.foldl (fun s k => s.clearCluster k q.id) s
    let s := { s with mem := q.frames.foldl (fun m n => m.wipe (n * 65536) 65536) s.mem
                      keySlots := q.keys.foldl (fun t k => t.set k (.assigned q.id)) s.keySlots
                      keyCount := q.keys.foldl (fun t k => t.set k (t.get k 0 + 1)) s.keyCount }
    let s := q.frames.foldl (fun s n => s.freshFrame (q.keys.headD 0) n) s
    .next ((s.setPartition q.id q).answerWith [0])

namespace State

/-- Kicked commands of one granule that a partition's end waits for (R327, R391); a collective does not complete without its
partition's members, and fails instead. -/
def wholeLeft (s : State) (p : Nat) : Bool :=
  s.allCommands.any fun c => c.part == p && c.state == .kicked && c.split == 0 && c.status.isNone
    && (match c.op with | .coll _ => false | _ => true)

/-- The uses with a member among some commands fail with status 4 (R391, R266). -/
def failUses (s : State) (gone : List Nat) : State :=
  (s.uses.filter fun u => u.members.any fun m => gone.contains m.command).foldl failUse s

/-- The tasks of a partition stop at once (R391); what its engines have begun as one granule goes on, and a use that loses a member
fails. -/
def stopTasks (s : State) (p : Nat) : State :=
  let mine (h : HartId) (x : Hart) : Bool := isSlot h && (match x.task with | some t => t.desc.part == p | none => false)
  let whole (c : Command) : Bool := c.state == .kicked && c.split == 0
  let s := s.setPartition p { s.partition p with preempt := .stopping }
  let queues := s.harts.flatMap fun e => if mine e.1 e.2 then e.2.queue.map fun c => (hartDie e.1, c) else []
  let s := (queues.filter fun e => whole e.2).foldl (fun s e =>
    s.setDie e.1 { s.die e.1 with orphans := (s.die e.1).orphans ++ [{ e.2 with orphan := true }] }) s
  let s := { s with harts := s.harts.filter fun e => !mine e.1 e.2 }
  s.failUses ((queues.filter fun e => !whole e.2).map (·.2.id))

/-- What a partition holds is discarded and freed (R391, R212), and the keys of its slots are destroyed (R390). -/
def destroy (s : State) (p : Nat) (q : Partition) : State :=
  let gone := (s.allCommands.filter (·.part == p)).map (·.id)
  let s := q.slice.foldl (fun s k => s.clearCluster k 0) s
  let s := { s with dies := s.dies.update fun _ d => { d with orphans := d.orphans.filter (·.part ≠ p) }
                    gangs := s.gangs.filter fun g => !q.slice.contains g.2.cluster
                    clearings := s.clearings.filter (·.2.part ≠ p)
                    partitions := s.partitions.erase p
                    keySlots := q.keys.foldl (fun t k => t.set k .scrubbing) s.keySlots
                    keyCount := q.keys.foldl (fun t k => t.set k (t.get k 0 + 1)) s.keyCount }
  (s.purge fun e => q.asids.contains e.asid).failUses gone

end State

/-- PARTITION_DESTROY (R391): its tasks stop at once, and once the commands of one granule that its engines have begun are over,
what it holds is discarded and freed. It waits during an update of the scheduler firmware (R399). -/
def execPartitionDestroy (part : Nat) (s : State) : Out :=
  if s.update != .running then .next (s.await (.partitionDestroy part))
  else match s.partitions.find part with
  | none => .next (s.answerWith [1])
  | some q =>
    if s.wholeLeft part then .next ((s.stopTasks part).await (.partitionDestroy part))
    else .next ((s.destroy part q).answerWith [0])

/-- KEY_SLOT_FREE (R390): every cached line under a scrubbing slot is dropped, and the slot is free. -/
def execKeySlotFree (slot : Nat) (s : State) : Out :=
  match s.keySlots.find slot with
  | some .scrubbing =>
    let keep (l : List Nat) : List Nat := l.filter fun n => (s.keyAt n).map (·.1) ≠ some slot
    .next { s with keySlots := s.keySlots.set slot .free
                   cores := s.cores.update fun _ c => { c with lines := keep c.lines }
                   dies := s.dies.update fun _ d => { d with lines := keep d.lines } }
  | _ => .next s

/-! ### The scheduler firmware's update (R381, R399, R400) -/

/-- FIRMWARE_STAGE (R399): an image is checked and written into the slot that is not committed. During an update a request of the
management function waits (R405). -/
def execFirmwareStage (image : List Byte) (s : State) : Out :=
  if s.update != .running then .next (s.await (.firmwareStage image))
  else if imageFault s 3 (some image) ≠ 0 then .next (s.answerWith [BitVec.ofNat 8 (imageFault s 3 (some image))])
  else .next ((s.setSpare { image }).answerWith [0])

/-- SVN_RAISE (R381): a fused minimum only rises, and not to a value below the committed image's SVN; it waits during an update
(R405). -/
def execSvnRaise (stage value : Nat) (s : State) : Out :=
  if s.update != .running then .next (s.await (.svnRaise stage value))
  else
  let committed := if stage = 3 then s.committed.image else s.images.get stage []
  if value ≤ s.svnMin.get stage 0 || value < imageSvn committed then .next (s.answerWith [1])
  else .next ({ s with svnMin := s.svnMin.set stage value }.answerWith [0])

/-- UPDATE_REQUEST (R399): the old image quiesces, where the other slot holds an image that has not failed; it waits during an
update (R405). -/
def execUpdateRequest (s : State) : Out :=
  if s.update != .running then .next (s.await .updateRequest)
  else if s.spareSlot.image.isEmpty || s.spareSlot.failed then .next s
  else .next { s with update := .quiescing }

/-- HEARTBEAT (R399): within 2^25 cycles the new image's slot is committed. An image that does not take the handover structure
halts instead (R399, R401). -/
def execHeartbeat (s : State) : Out :=
  match s.update with
  | .starting since =>
    if since + 2 ^ 25 ≤ s.clock then .next s
    else if !takesHandover s.spareSlot.image s.handover then .next s.rollBack
    else
      let d := sha384 (imageCore s.spareSlot.image)
      .next ({ s with committedB := !s.committedB, update := .running }.setMr 7 d)
  | _ => .next s

/-- HEARTBEAT_TIMEOUT (R399): 2^25 cycles without HEARTBEAT. -/
def execHeartbeatTimeout (s : State) : Out :=
  match s.update with
  | .starting since => if since + 2 ^ 25 ≤ s.clock then .next s.rollBack else .next s
  | _ => .next s

/-! ### Port ring queues (R402 to R404) -/

/-- The control block of a queue, as an engine reads it (R402). -/
structure PortQueue where
  dbase : Nat
  cbase : Nat
  logn : Nat
  prod : Nat
  cons : Nat
  cprod : Nat
  ccons : Nat

def portQueue (m : Mem) (a : Nat) : PortQueue where
  dbase := m.nat a 8
  cbase := m.nat (a + 8) 8
  logn := m.nat (a + 16) 1
  prod := m.nat (a + 24) 4
  cons := m.nat (a + 28) 4
  cprod := m.nat (a + 32) 4
  ccons := m.nat (a + 36) 4

/-- A completion (R403, R404). -/
def portCompletion (q : PortQueue) (tag status done : Nat) : List Byte :=
  leBytes 4 tag ++ [BitVec.ofNat 8 status, BitVec.ofNat 8 (1 - q.cprod / 2 ^ q.logn % 2), 0, 0] ++ leBytes 4 done ++ leBytes 4 0

/-- A port engine consumes one descriptor of a queue (R402 to R404), under key slot 0: it moves data in or out of the buffer,
writes the completion, and only then advances CONS and CPROD; FLAGS[0] asks for an interrupt. `input` is for what the
medium brings; `i` is the event, which waits for a unit being moved (R371) and for sleeping banks (R350). A descriptor of another operation, or of another
block than the medium serves, waits for its own step; one that is malformed moves nothing and completes with status 2. -/
def portStep (op : Nat) (input output : Bool) (i : Instr) (queue : Nat) (out : PortOutcome) (s : State) : Out :=
  let z (s : State) (a n : Nat) : State := s.underKey (some 0) a n
  let wait (l : List (Nat × Nat)) : Out := .next ((l.foldl (fun s e => s.wakeDie e.1 e.2) s).await i)
  let asleep (l : List (Nat × Nat)) : Bool := l.any fun e => !s.dieAwake e.1 e.2
  if asleep [(queue, 64)] then wait [(queue, 64)]
  else
    let s := s.accessNow queue 64
    let q := portQueue (z s queue 64).mem queue
    let n := 2 ^ q.logn
    let d := q.dbase + 32 * (q.cons % n)
    let off := queue % 64 ≠ 0 || q.logn < 4 || 16 < q.logn || q.prod == q.cons || n ≤ (q.cprod + 2 ^ 32 - q.ccons) % 2 ^ 32
    if off then .next s
    else if asleep [(d, 32)] then wait [(d, 32)]
    else
      let b := z ((z s queue 64).accessNow d 32) d 32
      let opc := b.mem.nat d 1
      let len := b.mem.nat (d + 4) 4
      let addr := b.mem.nat (d + 8) 8
      let arg := b.mem.nat (d + 16) 8
      let tag := b.mem.nat (d + 24) 4
      let known := 1 ≤ opc && opc ≤ 5
      let block := op = 3 || op = 4
      if known && (opc ≠ op || (block && arg ≠ out.block)) then .next s
      else
        let bad := !known || 1 < b.mem.nat (d + 1) 1 || b.mem.nat (d + 2) 2 ≠ 0 || b.mem.nat (d + 28) 4 ≠ 0
        let moves := !bad && !out.failed && addr + len ≤ s.limit
        let data := (out.bytes.take len)
        let done := if !moves then 0 else if input then data.length else len
        let status := if bad then 2 else if moves then 0 else 1
        let c := q.cbase + 16 * (q.cprod % n)
        let fill := if moves && input then bytesAt addr data else []
        let places := (if moves then [(addr, len)] else []) ++ [(c, 16), (queue, 64)]
        if asleep places || (fill ++ [(c, 0), (c + 15, 0), (queue, 0)]).any fun e => s.movingUnit e.1 then wait places
        else
          let t := z (if moves then z (if output then b.accessNow addr len else b) addr len else b) c 16
          let counts := bytesAt (queue + 28) (leBytes 4 (q.cons + 1)) ++ bytesAt (queue + 32) (leBytes 4 (q.cprod + 1))
          let t := t.storeNow (fill ++ bytesAt c (portCompletion q tag status done) ++ counts) []
          let t := if moves && output then t.answerWith ((if op = 4 then leBytes 8 arg else []) ++ t.mem.bytes addr len) else t
          let m := if moves && input then t.mem.storeBytes addr data else t.mem
          let m := m.storeBytes c (portCompletion q tag status done)
          let m := m.storeNat (queue + 28) 4 ((q.cons + 1) % 2 ^ 32)
          .next { t with mem := m.storeNat (queue + 32) 4 ((q.cprod + 1) % 2 ^ 32)
                         interrupts := if b.mem.nat (d + 1) 1 = 1 then t.interrupts ++ [(queue, tag)] else t.interrupts }

/-- PORT_TRANSMIT (R403). -/
def execPortTransmit (queue : Nat) (out : PortOutcome) (s : State) : Out := portStep 1 false true (.portTransmit queue out) queue out s
/-- PORT_RECEIVE (R403). -/
def execPortReceive (queue : Nat) (out : PortOutcome) (s : State) : Out := portStep 2 true false (.portReceive queue out) queue out s
/-- PORT_READ_BLOCK (R403). -/
def execPortReadBlock (queue : Nat) (out : PortOutcome) (s : State) : Out := portStep 3 true false (.portReadBlock queue out) queue out s
/-- PORT_WRITE_BLOCK (R403). -/
def execPortWriteBlock (queue : Nat) (out : PortOutcome) (s : State) : Out := portStep 4 false true (.portWriteBlock queue out) queue out s
/-- PORT_FLUSH (R403): it moves no data. -/
def execPortFlush (queue : Nat) (out : PortOutcome) (s : State) : Out := portStep 5 false false (.portFlush queue out) queue out s

end Sys2Proof.Machine
end

