-- ==== Sys2Proof/Machine/Spdm.lean ====
section
/-! DEFINITION. Attestation and the sealed key store (19 R393 to R396): SPDM requests at an endpoint. Endpoint 0 is the
resident system's, another number the partition's own. What an answer holds follows the rules; its layout, the codes of
algorithms and requests and the order of the messages are those of SPDM 1.3 as the model takes them (log entry 23). -/

namespace Sys2Proof.Machine

open Sys2Proof

namespace State

/-- The connection at an endpoint; none where no partition has that number. -/
def endpoint (s : State) (ep : Nat) : Option Spdm := if ep = 0 then some s.spdm else (s.partitions.find ep).map (·.spdm)
def setEndpoint (s : State) (ep : Nat) (x : Spdm) : State :=
  if ep = 0 then { s with spdm := x } else s.setPartition ep { s.partition ep with spdm := x }

/-- The request is refused. -/
def spdmError (s : State) : State := s.answerWith [0x7F]

/-- A request that needs a stage: where there is no such endpoint nothing happens, and before that stage it is refused. -/
def atStage (s : State) (ep : Nat) (ok : SpdmStage → Bool) (k : Spdm → State) : Out :=
  match s.endpoint ep with
  | none => .next s
  | some x => if ok x.stage then .next (k x) else .next s.spdmError

/-- An answer signed by the device identity key (R395). -/
def answerSigned (s : State) (body nonce : List Byte) : State :=
  { s with signatures := s.signatures + 1 }.answerWith (body ++ Config.deviceSignature s.signatures (body ++ nonce))

end State

/-- Only a negotiated connection serves the request. -/
def negotiated (x : SpdmStage) : Bool := x == .algorithms

/-- The requests that the device supports (R394). -/
def spdmRequests : List Byte := [0x84, 0xE1, 0xE3, 0x81, 0x82, 0x83, 0xE0, 0xE4, 0xE5, 0xEC, 0xFE]

/-- The choice that the device accepts (R394): ECDSA P-384, SHA-384, ECDH on P-384, AES-256-GCM. -/
def spdmChoice : SpdmAlgorithms := { signature := 0x80, hash := 0x02, exchange := 0x10, cipher := 0x02 }

/-- GET_VERSION (R394): 1.3 only; the connection starts anew. -/
def execGetVersion (ep : Nat) (s : State) : Out :=
  s.atStage ep (fun _ => true) fun _ => (s.setEndpoint ep { stage := .version }).answerWith [0x13]

/-- GET_CAPABILITIES (R394). -/
def execGetCapabilities (ep : Nat) (s : State) : Out :=
  s.atStage ep (· == .version) fun x => (s.setEndpoint ep { x with stage := .capabilities }).answerWith spdmRequests

/-- NEGOTIATE_ALGORITHMS (R394): any other choice is refused. -/
def execNegotiateAlgorithms (ep : Nat) (choice : SpdmAlgorithms) (s : State) : Out :=
  s.atStage ep (· == .capabilities) fun x =>
    if choice = spdmChoice then (s.setEndpoint ep { x with stage := .algorithms }).answerWith [0x80, 0x02, 0x10, 0x02]
    else s.spdmError

/-- GET_DIGESTS (R394): the digest of the one slot's chain. -/
def execGetDigests (ep : Nat) (s : State) : Out :=
  s.atStage ep negotiated fun _ => s.answerWith (sha384 Config.certificateChain)

/-- GET_CERTIFICATE (R394). -/
def execGetCertificate (ep : Nat) (s : State) : Out :=
  s.atStage ep negotiated fun _ => s.answerWith Config.certificateChain

/-- CHALLENGE (R394). -/
def execChallenge (ep : Nat) (nonce : List Byte) (s : State) : Out :=
  s.atStage ep negotiated fun _ => s.answerSigned (sha384 Config.certificateChain) nonce

/-- A measurement block as the requester at an endpoint may see it (R395). Where the TSCs of a partition run several images, block 18
is taken over each of them once, in logical order; none serves a partition without clusters (log entry 94). -/
def measurement (s : State) (ep index : Nat) : Option (List Byte) :=
  let q := s.partition ep
  if 1 ≤ index && index ≤ 7 then some (mrBytes (s.mr.toList.getD index 0))
  else if ep = 0 then none
  else match index with
    | 16 => some (sha384 q.record)
    | 17 => some (leBytes 32 q.features.toNat)
    | 18 => some (sha384 ((q.slice.map fun k => imageCore (s.cluster k).firmware).eraseDups).flatten)
    | _ => none

/-- Indexes of the blocks. -/
def measurementIndexes : List Nat := [1, 2, 3, 4, 5, 6, 7, 16, 17, 18]

/-- GET_MEASUREMENTS (R395, R396): one block, or with index 255 every block the requester may see. -/
def execGetMeasurements (ep index : Nat) (nonce : List Byte) (s : State) : Out :=
  s.atStage ep negotiated fun _ =>
    let wanted := if index = 255 then measurementIndexes else [index]
    let l := wanted.filterMap fun i => (measurement s ep i).map fun b => BitVec.ofNat 8 i :: b
    if l.isEmpty then s.spdmError else s.answerSigned l.flatten nonce

/-- KEY_EXCHANGE (R394). -/
def execKeyExchange (ep : Nat) (exchange : List Byte) (s : State) : Out :=
  s.atStage ep negotiated fun x =>
    (s.setEndpoint ep { x with exchange := some (s.signatures, exchange), secured := false }).answerSigned
      (Config.exchangeReply s.signatures exchange) exchange

/-- FINISH (R396): the session is secured where the verify data is that of the open exchange. -/
def execFinish (ep : Nat) (mac : List Byte) (s : State) : Out :=
  s.atStage ep negotiated fun x =>
    match x.exchange with
    | none => s.spdmError
    | some (n, e) =>
      if mac = Config.finishCode n e then (s.setEndpoint ep { x with exchange := none, secured := true }).answerWith [0]
      else s.spdmError

/-- END_SESSION (R394). -/
def execEndSession (ep : Nat) (s : State) : Out :=
  s.atStage ep negotiated fun x =>
    if x.secured then (s.setEndpoint ep { x with secured := false }).answerWith [0] else s.spdmError

/-! ### The sealed key store (R393, R396) -/

/-- A vendor-defined request: inside a secured session with a partition, or refused (R396). -/
def State.keyStore (s : State) (ep : Nat) (k : Partition → State) : Out :=
  s.atStage ep negotiated fun x => if x.secured && ep ≠ 0 then k (s.partition ep) else s.spdmError

/-- KEY_STORE_SET (R393). -/
def execKeyStoreSet (ep index : Nat) (p384 hss : List Byte) (s : State) : Out :=
  s.keyStore ep fun q =>
    let ok : Bool := index < 64 && q.keyStore.get index .empty == .empty && p384.length == 97 && hss.length == 60
      && Config.p384WellFormed p384 && Config.hssWellFormed hss
    if ok then (s.setPartition ep { q with keyStore := q.keyStore.set index (.enabled p384 hss) }).answerWith [0]
    else s.spdmError

/-- An entry that is disabled for ever. -/
def KeyEntry.disable : KeyEntry → KeyEntry
  | .empty => .disabled [] []
  | .enabled p h => .disabled p h
  | .disabled p h => .disabled p h

/-- KEY_STORE_DISABLE (R393). -/
def execKeyStoreDisable (ep index : Nat) (s : State) : Out :=
  s.keyStore ep fun q =>
    if index < 64 then
      (s.setPartition ep { q with keyStore := q.keyStore.set index (q.keyStore.get index .empty).disable }).answerWith [0]
    else s.spdmError

/-- The state of an entry in two bits. -/
def KeyEntry.code : KeyEntry → Nat
  | .empty => 0
  | .enabled _ _ => 1
  | .disabled _ _ => 2

/-- KEY_STORE_STATUS (R393). -/
def execKeyStoreStatus (ep : Nat) (s : State) : Out :=
  s.keyStore ep fun q =>
    s.answerWith (0 :: leBytes 16 ((List.range 64).map fun i => (q.keyStore.get i .empty).code * 4 ^ i).sum)

end Sys2Proof.Machine
end

