-- ==== Sys2Proof/Machine/Issue.lean ====
section
/-! DEFINITION. What a turn does around an instruction: the attempt to issue at one hart (06 R125 to R143), the slot that a
core issues from (R126), a turn of a Clearing (03 R72), and whose turn is next (log entry 1). `ex` is what an instruction
does. -/

namespace Sys2Proof.Machine

open Sys2Proof

/-! ### Before the word is fetched -/

/-- The hart has something to issue: a task that is not parked, or firmware. -/
def Hart.ready (h : Hart) (id : HartId) : Bool := if isSlot id then h.task.isSome && h.parked.isNone else h.running

namespace State

/-- The results whose windows are over land, as far as their instructions have completed (R130, R131). -/
def settle (s : State) : State :=
  let s := s.modMe fun h => h.settleDone s.now
  landClosed s.cur s.now s.me.pend.length s

/-- A region begins where an earlier one ended, once every earlier instruction has completed but the one that ended it
(R137, R140). -/
def beginRegion (s : State) : Res Unit :=
  if !s.me.boundary then .ok () s
  else if s.me.pend.any fun p => !p.performed && !p.complete s.now then .stop (s.stall .boundary)
  else .ok () (s.modMe Hart.enterRegion)

/-- The first instruction after a window waits for its instruction (R131). -/
def windowOver (s : State) : Res Unit := if s.me.closed.isSome then .stop (s.stall .window) else .ok () s

/-! ### The word -/

/-- The repetition renames the word's vector registers, and the word must still be one (R154). -/
def renamed (s : State) (i : Instr) : Option Instr :=
  match s.me.regs.rep with
  | none => some i
  | some r => let j := renameV (r.stride * r.pass) i; if j.wf then some j else none

/-- The instruction of a word as it issues (R20 checks 1 and 2, R154, R384). -/
def toIssue (s : State) (w : Nat) : Option Instr :=
  match decodeRonid w with
  | .error _ => none
  | .ok i => if s.reducedService && fullOnly i then none else s.renamed i

/-- Poison of a register that the executing hart's next instruction reads (R349): it is logged (R356), and the region aborts and
is replayed, or the task ends where its checkpoint is bad. Firmware stops. -/
def registerPoison (s : State) (checkpoint : Bool) : State :=
  let s := { s with upsets := s.upsets.erase (.register s.cur checkpoint) }
  let s := if isSlot s.cur then s.logBad (hartDie s.cur, coreRow (hartCore s.cur)) else s
  if checkpoint || !isSlot s.cur then s.raise .poison else s.parkReady s.cur (hartCore s.cur) .poison false

/-- The registers of the executing hart read without an uncorrectable error (R349); the task parks once it may (R350). -/
def checkRegisters (s : State) (word : Nat × Bool) : Res Unit :=
  if s.upsets.isEmpty then .ok () s
  else if s.upsets.contains (.register s.cur true) then .stop (s.registerPoison true)
  else if s.upsets.contains (.register s.cur false) then
    .stop ((s.modMe fun h => { h with word := some word }).parking fun t => t.modMe (fun h => { h with word := none }) |>.registerPoison false)
  else .ok () s

/-- The word is of format I, which has no field C, and whose field B names no register (R26). -/
def immediateFormat (w : Nat) : Bool :=
  match decodeRonid w with
  | .ok (.addi _) | .ok (.andi _) | .ok (.ori _) | .ok (.xori _) | .ok (.shli _) | .ok (.shri _) | .ok (.srai _) | .ok (.li _)
  | .ok (.lih _) | .ok (.addpc _) | .ok (.rep _) | .ok (.brk _) | .ok (.twany _) | .ok (.twall _) | .ok (.tfirst _)
  | .ok (.tclr _) => true
  | _ => false

/-- What a block's signature says of a word (R358): the OP and register fields, which are A and D in format I and A to D in the others,
and where a branch of format B that ends a block goes (log entry 95). -/
def signedPart (w : Nat) : Nat × Nat :=
  (w % (if immediateFormat w then 2 ^ 18 else 2 ^ 28), if w % 256 = 0x30 ∨ w % 256 = 0x31 ∨ w % 256 = 0x33 then bits w 32 24 else 0)

/-- The word at the executing hart's pc differs, as a signature sees it, from the word that was admitted there. -/
def wordDiffers (s : State) (w : Nat) : Bool :=
  match s.objectAt s.me.pc with
  | none => false
  | some o =>
    match o.admitted[(s.me.pc - o.base).toNat / 8]? with
    | none => false
    | some a => signedPart a != signedPart w

/-- The block that the signature checker follows, with the word at pc in it, and whether it ends there (R358). -/
def nextBlock (s : State) (w : Nat) : Block × Bool :=
  let b := s.me.block.getD { first := s.me.pc, count := 0 }
  let b := { b with count := b.count + 1, differs := b.differs || s.wordDiffers w }
  (b, (0x30 ≤ w % 256 && w % 256 ≤ 0x3B) || b.count == 16)

/-- The checker's verdict on the word: the block goes on, or at its end a difference of its words from those admitted, or a wrong hash,
raises the signature-mismatch trap (R358); it comes before the checks of the word (log entry 99), and waits for the banks that the
stores of the core's tasks pass through (R350). -/
def checkBlock (s : State) (signed : Bool) (w : Nat) : Res Unit :=
  if !signed || !isSlot s.cur then .ok () s
  else
    let b := s.nextBlock w
    let c := hartCore s.cur
    if b.2 && (b.1.differs || s.upsets.contains (.signature c)) then
      let slots := (List.range 4).map (HartId.slot c ·)
      if !slots.all s.mayPark then .stop ((s.wakeFor (slots.flatMap fun h => (s.hart h).olderStores)).stall .bank)
      else .stop ({ s with upsets := s.upsets.erase (.signature c) }.mismatch s.cur b.1.first)
    else .ok () (s.modMe fun h => { h with block := if b.2 then none else some b.1 })

/-- The privilege check refuses an instruction here (R20 check 3, R46, R51, R333): it takes the privilege trap and reads nothing. -/
def refuses (s : State) (i : Instr) : Bool :=
  decide (s.level s.cur < opcodeLevel i) || (match i with
    | .ctrlr f | .ctrlw f => packageReg f.sel && s.level s.cur == 0
    | .tretTake _ | .tretDefer _ | .tretTerm _ | .tretRelease _ => (match s.cur with | .tsc _ => false | _ => true)
    | _ => false)

end State

/-- The windows of a hart count the instruction that issues (R131). -/
def Hart.countWindows (h : Hart) : Hart := { h with pend := h.pend.map fun p => { p with left := p.left - 1 } }

/-- An instruction that waits has not issued: windows are as they were, what it popped from input streams is there again
(R190), and its word stays fetched. -/
def Hart.uncount (h : Hart) (old : Regs) (word : Nat × Bool) : Hart :=
  let back (i : Fin 8) : Option Stream :=
    match old.streams[i] with
    | some st => if st.output then h.regs.streams[i] else some st
    | none => h.regs.streams[i]
  { h with word := some word, pend := h.pend.map fun p => { p with left := p.left + 1 }
           regs := { h.regs with streams := Vector.ofFn back } }

/-- The hart waits. -/
def State.waits (s : State) (id : HartId) : Bool := (s.hart id).wait.isSome

/-- Run an instruction at the executing hart: it issues, or waits and leaves the windows and the streams as they were. -/
def runInstr (ex : Instr → State → Out) (i : Instr) (word : Nat × Bool) (s : State) : Out :=
  match ex i (s.modMe Hart.countWindows) with
  | .next t => .next (if t.waits s.cur then t.modHart s.cur (·.uncount s.me.regs word) else t)
  | r => r

/-- Issue a fetched word (R20, R319). -/
def issueWord (ex : Instr → State → Out) (word : Nat × Bool) (s : State) : Out :=
  match s.toIssue word.1 with
  | none => .next (s.raise .illegal)
  | some i => (if s.refuses i then .ok () s else s.checkRegisters word).run fun _ s => runInstr ex i word s

/-- The word at pc in the repetition buffer (R153, R154). -/
def Hart.buffered (h : Hart) : Option (Nat × Bool) := h.regs.rep.bind fun r => r.words[r.j]?

/-- Fetch the word at pc and run it (R129, R319). The word of an instruction that has waited is there already, and in the
block that the checker follows; a word of a repeated body is in the repetition buffer. Neither issues once the notice of a revocation
has come (R83). A fault of the fetch reports INSN 0 (log entry 91). -/
def fetchAndRun (ex : Instr → State → Out) (s : State) : Out :=
  let note (w : Nat) (s : State) : State := s.modMe fun h => { h with insn := BitVec.ofNat 64 w }
  let first (w : Nat × Bool) (s : State) : Out := ((note w.1 s).checkBlock w.2 w.1).run fun _ s => issueWord ex w s
  let held := s.me.word.isSome || s.me.buffered.isSome
  if held && s.noticed s.me.pc then .next (s.raiseAt .integrity s.me.pc)
  else match s.me.word, s.me.buffered with
  | some w, _ => issueWord ex w ((note w.1 s).modMe fun h => { h with word := none })
  | none, some w => first w s
  | none, none => ((note 0 s).fetchWord s.me.pc s.me.pc).run fun w s => first (w.1, w.2.sig) s

/-- Attempt to issue at a hart: it issues one instruction, takes a trap, or waits. Where the miss that it waited on has been
terminated, its instruction takes the trap (R126, R334). -/
def attempt (ex : Instr → State → Out) (id : HartId) (s : State) : Out :=
  let s := ({ s with cur := id }).modMe fun h => { h with wait := none }
  if s.me.verdict.isSome then .next (s.takeVerdict id)
  else s.settle.beginRegion.run fun _ s => s.windowOver.run fun _ s => fetchAndRun ex s

/-! ### A core's cycle -/

/-- The order in which a core looks for a ready slot (R126): slot 3, then the normal slots, the current one first while it
has turns left. -/
def slotOrder (cur run : Nat) : List Nat :=
  let others := [(cur + 1) % 3, (cur + 2) % 3]
  if run < 256 then 3 :: cur :: others else 3 :: others ++ [cur]

/-- Try the slots in order; the first that does not wait has issued. A watchdog trap is no instruction: it takes no cycle
(R126, R143). -/
def trySlots (ex : Instr → State → Out) (c : Nat) : List Nat → State → Out
  | [], s => .next s
  | n :: t, s =>
    let id := HartId.slot c n
    if !(s.hart id).ready id then trySlots ex c t s
    else if (s.hart id).watchdogDue && (s.hart id).verdict.all (·.cls == .watchdog) then trySlots ex c t (s.watchdogTrap id)
    else match attempt ex id s with
      | .next u => if u.waits id then trySlots ex c t u else .next (u.setCore c ((u.core c).issued n))
      | r => r

/-- The end of a cycle at a slot: guards that are due resolve (R134), and the watchdog counts (R143). -/
def State.endCycle (s : State) (id : HartId) : State :=
  if (s.hart id).task.isNone then s
  else
    let s := s.resolveGuards id s.now
    if (s.hart id).task.isNone then s else s.modHart id fun h => { h with wd := h.wd + 1 }

/-- A cycle of a core. -/
def coreTurn (ex : Instr → State → Out) (c : Nat) (s : State) : Out :=
  match trySlots ex c (slotOrder (s.core c).cur (s.core c).run) s with
  | .next t => .next (((List.range 4).map (HartId.slot c ·)).foldl State.endCycle t)
  | r => r

/-- A cycle of a TSC or a system core. -/
def firmwareTurn (ex : Instr → State → Out) (id : HartId) (s : State) : Out :=
  if !(s.hart id).ready id then .next s
  else match attempt ex id s with
    | .next t => .next (t.resolveGuards id t.now)
    | r => r

/-- The TSC that a translation runs on has a miss to serve first, or there is none (R76). -/
def Clearing.yields (c : Clearing) (s : State) : Bool :=
  match c.tsc with
  | none => true
  | some k => (s.hart (.tsc k)).running && (s.cluster k).misses.any fun e => !e.parked && !e.restored

/-- One unit of a translation (R72); it yields to the miss service of the TSC that it runs on (R76). -/
def clearingTurn (ex : Instr → State → Out) (k : Nat) (s : State) : Out :=
  match s.clearings.find k with
  | none => .next s
  | some c =>
    let s := { s with clearing := k }
    if !c.running || c.yields s then .next s
    else if c.budget ≤ c.units then execBudgetExhausted k s
    else
      let s := s.setHere { c with units := c.units + 1 }
      match fetchMilestone c with
      | .ok p => ex p.1 s
      | .error code => .next (s.abortTranslation code c.ip.toNat)

/-! ### Whose turn it is (log entry 1) -/

/-- The place of an agent in the round: compute cores, the units around them, TSCs, system cores, Clearings. -/
def Agent.rank : Agent → Nat
  | .core n => n
  | .units n => 3328 + n
  | .tsc k => 6656 + k
  | .sys d n => 6760 + 4 * d + n
  | .clearing k => 6776 + k

/-- The compute core at which an agent uses the arrays of a core, of a cluster and of a die (R349). -/
def Agent.site : Agent → Nat
  | .core n | .units n => n
  | .tsc k => hartCore (.tsc k)
  | .sys d n => hartCore (.sys d n)
  | .clearing _ => 0

/-- The agent exists in the package. -/
def Agent.ok : Agent → Bool
  | .core n | .units n => n < 3328
  | .tsc k => k < 104
  | .sys d n => d < 4 && n < 4
  | .clearing _ => true

namespace State

/-- The compute cores where some slot holds a task. -/
def busyCores (s : State) : List Nat :=
  s.harts.filterMap fun e => match e.1 with | .slot c _ => if e.2.task.isSome then some c else none | _ => none

/-- The cores that may take work: all of the slices, while some core has work. -/
def takers (s : State) : List Nat :=
  if s.cores.any fun e => e.2.hasWork false || e.2.hasWork true then
    (s.partitions.flatMap (·.2.slice)).flatMap fun k => (List.range 32).map (k * 32 + ·)
  else []

/-- The places of units that may have something to do; those of core 0 stand for the package's. -/
def unitSites (s : State) : List Nat :=
  (0 :: (s.cores.map (·.1) ++ s.harts.map fun e => hartCore e.1).flatMap fun c => [c, c / 32 * 32, c / 832 * 832])
    ++ s.clusters.map (·.1 * 32) ++ s.dies.map (·.1 * 832) ++ s.takers

/-- The agents that take turns. -/
def agents (s : State) : List Agent :=
  s.busyCores.map .core ++ s.unitSites.map .units
    ++ (s.harts.filterMap fun e => match e.1 with
        | .slot _ _ => none
        | .tsc k => if e.2.running then some (.tsc k) else none
        | .sys d n => if e.2.running then some (.sys d n) else none)
    ++ s.clearings.filterMap fun e => if e.2.running then some (.clearing e.1) else none

/-- The lower of two agents. -/
def lower (a : Option Agent) (b : Agent) : Option Agent :=
  match a with
  | none => some b
  | some a => if b.rank < a.rank then some b else some a

/-- The turn passes to the next agent in the round; a new round is a new cycle of the clock. -/
def passTurn (s : State) : State :=
  match (s.agents.filter fun a => s.turn.rank < a.rank).foldl lower none with
  | some a => { s with turn := a }
  | none => { s with turn := (s.agents.foldl lower none).getD (.units 0), clock := s.clock + 1 }

end State

/-- The turn of the agent that the state names: it meets the errors of the arrays that it uses (R349), and acts. -/
def takeTurn (ex : Instr → State → Out) (s : State) : Out :=
  let s := s.arrayErrors s.turn.site
  match s.turn with
  | .core n => coreTurn ex n s
  | .units n => .next (s.unitTurn ex n)
  | .tsc k => firmwareTurn ex (.tsc k) s
  | .sys d n => firmwareTurn ex (.sys d n) s
  | .clearing k => clearingTurn ex k s

/-- A turn, after which it is the next agent's. -/
def runTurn (ex : Instr → State → Out) (s : State) : Out :=
  if !s.turn.ok then .fault .noAgent
  else match takeTurn ex s with
    | .next t => .next t.passTurn
    | r => r

/-- The first event of the agenda, or a turn. -/
def runNext (ex : Instr → State → Out) (s : State) : Out :=
  match s.agenda with
  | [] => runTurn ex s
  | i :: rest => if i.isEvent then ex i { s with agenda := rest } else .refused .notAnEvent

end Sys2Proof.Machine
end

