-- ==== Sys2Proof/Machine/Scalar.lean ====
section
/-! DEFINITION. The scalar integer instructions (06 R144 to R150). -/

namespace Sys2Proof.Machine

open Sys2Proof

/-- The register forms of R146 that complete as they issue. -/
def scalarOp (f : FmtA) (x : Int → Int → Int) (s : State) : Out :=
  s.guarded f.gd fun s =>
    (s.setS f.d (result f.ty f.sat (x (operand f.ty (s.getS f.a)) (operand f.ty (s.getS f.b))))).finish

/-- The long-latency register forms of R146, with their cycles (R130). -/
def scalarLate (f : FmtA) (cycles : Nat) (x : Int → Int → Int) (s : State) : Out :=
  s.guarded f.gd fun s =>
    let y := result f.ty f.sat (x (operand f.ty (s.getS f.a)) (operand f.ty (s.getS f.b)))
    (s.later f.la cycles (destS f.d y) (0, 0)).finish

/-- The typed immediate forms of R146. -/
def scalarImm (f : FmtI) (x : Int → Int → Int) (s : State) : Out :=
  s.guarded f.gd fun s =>
    (s.setS f.d (result f.ty false (x (operand f.ty (s.getS f.a)) f.imm.toInt))).finish

/-- A bitwise operation of W-bit patterns (R146). -/
def pattern (ty : BitVec 4) (op : Nat → Nat → Nat) (a b : Int) : Int :=
  op (wrapInt (tyWidth ty) a) (wrapInt (tyWidth ty) b)

/-- The shift amount of a register form: S[B] mod W (R146). -/
def shiftOf (ty : BitVec 4) (b : Int) : Nat := wrapInt (tyWidth ty) b % tyWidth ty

/-- The quotient of R146; a divisor of 0 gives -1, or 2^W - 1. -/
def quotient (ty : BitVec 4) (a b : Int) : Int :=
  if b = 0 then (if tySigned ty then -1 else 2 ^ tyWidth ty - 1) else a.tdiv b
/-- The remainder of R146; a divisor of 0 gives a. -/
def remainder (a b : Int) : Int := if b = 0 then a else a - b * a.tdiv b
/-- Cycles of a division (R130). -/
def divCycles (ty : BitVec 4) : Nat := if tyWidth ty ≤ 16 then 12 else if tyWidth ty = 32 then 20 else 36

/-- The place of the highest one bit plus one; 0 for 0. -/
def bitLength (n : Nat) : Nat := if n = 0 then 0 else Nat.log2 n + 1
/-- Zero bits below the lowest one bit of a w-bit pattern; w for 0 (R146). -/
def trailingZeros (w n : Nat) : Nat := ((List.range w).find? fun i => n.testBit i).getD w
/-- One bits of a w-bit pattern. -/
def oneBits (w n : Nat) : Nat := ((List.range w).filter fun i => n.testBit i).length

def execAdd (f : FmtA) (s : State) : Out := scalarOp f (fun a b => a + b) s
def execAddi (f : FmtI) (s : State) : Out := scalarImm f (fun a b => a + b) s
def execSub (f : FmtA) (s : State) : Out := scalarOp f (fun a b => a - b) s
def execMul (f : FmtA) (s : State) : Out := scalarLate f 4 (fun a b => a * b) s
def execMulh (f : FmtA) (s : State) : Out := scalarLate f 4 (fun a b => (a * b) / 2 ^ tyWidth f.ty) s
def execDiv (f : FmtA) (s : State) : Out := scalarLate f (divCycles f.ty) (quotient f.ty) s
def execRem (f : FmtA) (s : State) : Out := scalarLate f (divCycles f.ty) remainder s
def execAnd (f : FmtA) (s : State) : Out := scalarOp f (pattern f.ty Nat.land) s
def execAndi (f : FmtI) (s : State) : Out := scalarImm f (pattern f.ty Nat.land) s
def execOr (f : FmtA) (s : State) : Out := scalarOp f (pattern f.ty Nat.lor) s
def execOri (f : FmtI) (s : State) : Out := scalarImm f (pattern f.ty Nat.lor) s
def execXor (f : FmtA) (s : State) : Out := scalarOp f (pattern f.ty Nat.xor) s
def execXori (f : FmtI) (s : State) : Out := scalarImm f (pattern f.ty Nat.xor) s
def execShl (f : FmtA) (s : State) : Out := scalarOp f (fun a b => a * 2 ^ shiftOf f.ty b) s
def execShli (f : FmtI) (s : State) : Out := scalarImm f (fun a b => a * 2 ^ b.toNat) s
def execShr (f : FmtA) (s : State) : Out := scalarOp f (fun a b => a / 2 ^ shiftOf f.ty b) s
def execShri (f : FmtI) (s : State) : Out := scalarImm f (fun a b => a / 2 ^ b.toNat) s
def execSra (f : FmtA) (s : State) : Out := scalarOp f (fun a b => a / 2 ^ shiftOf f.ty b) s
def execSrai (f : FmtI) (s : State) : Out := scalarImm f (fun a b => a / 2 ^ b.toNat) s
def execMin (f : FmtA) (s : State) : Out := scalarOp f (fun a b => min a b) s
def execMax (f : FmtA) (s : State) : Out := scalarOp f (fun a b => max a b) s
def execClz (f : FmtA) (s : State) : Out :=
  scalarOp f (fun a _ => (tyWidth f.ty - bitLength (wrapInt (tyWidth f.ty) a) : Nat)) s
def execCtz (f : FmtA) (s : State) : Out :=
  scalarOp f (fun a _ => (trailingZeros (tyWidth f.ty) (wrapInt (tyWidth f.ty) a) : Nat)) s
def execPopc (f : FmtA) (s : State) : Out :=
  scalarOp f (fun a _ => (oneBits (tyWidth f.ty) (wrapInt (tyWidth f.ty) a) : Nat)) s

/-- `cset` (R147). -/
def execCset (f : FmtA) (s : State) : Out :=
  s.guarded f.gd fun s =>
    (s.setS f.d (if compareBy f.fn f.ty (s.getS f.a).toNat (s.getS f.b).toNat then 1 else 0)).finish

/-- Write a guard, which resolves at the end of the next cycle (R134). -/
def State.writeGuard (s : State) (d : BitVec 5) (x : Bool) : State :=
  s.modMe fun h => { h with unres := h.unres ++ [{ guard := d.toNat, value := x, issued := s.now }] }

/-- `gset` (R147). -/
def execGset (f : FmtA) (s : State) : Out :=
  s.guarded f.gd fun s =>
    (s.writeGuard f.d (compareBy f.fn f.ty (s.getS f.a).toNat (s.getS f.b).toNat)).finish

/-- The value of a guard by the last writer in program order. -/
def State.lastGuard (s : State) (d : BitVec 5) : Bool :=
  match (s.me.unres.filter (·.guard == d.toNat)).getLast? with
  | some u => u.value
  | none => s.me.regs.guard (d.setWidth 3)

/-- `gclr` (R155). -/
def execGclr (f : FmtA) (s : State) : Out :=
  s.guarded f.gd fun s =>
    (s.writeGuard f.d (if f.fn = 0 then false else if f.fn = 1 then true else !s.lastGuard f.d)).finish

/-- `csel` (R148). -/
def execCsel (f : FmtA) (s : State) : Out :=
  s.guarded f.gd fun s => (s.setS f.d (if s.getS f.c ≠ 0 then s.getS f.a else s.getS f.b)).finish

/-- `bext` (R149). -/
def execBext (f : FmtA) (s : State) : Out :=
  s.guarded f.gd fun s =>
    let lsb := bits (s.getS f.b).toNat 0 6
    let w := bits (s.getS f.b).toNat 8 6 + 1
    let x := (s.getS f.a).toNat / 2 ^ lsb % 2 ^ w
    (s.setS f.d (if f.fn = 1 then BitVec.ofInt 64 (signedOf w x) else BitVec.ofNat 64 x)).finish

/-- `bins` (R149). -/
def execBins (f : FmtA) (s : State) : Out :=
  s.guarded f.gd fun s =>
    let lsb := bits (s.getS f.b).toNat 0 6
    let w := bits (s.getS f.b).toNat 8 6 + 1
    let m := BitVec.ofNat 64 ((2 ^ w - 1) * 2 ^ lsb)
    (s.setS f.d ((s.getS f.d &&& ~~~m) ||| ((s.getS f.a <<< lsb) &&& m))).finish

/-- `li` (R150). -/
def execLi (f : FmtI) (s : State) : Out := s.guarded f.gd fun s => (s.setS f.d (imm64 f.imm)).finish

/-- `lih` (R150). -/
def execLih (f : FmtI) (s : State) : Out :=
  s.guarded f.gd fun s => (s.setS f.d (f.imm ++ (s.getS f.d).setWidth 32)).finish

/-- `addpc` (R150). -/
def execAddpc (f : FmtI) (s : State) : Out :=
  s.guarded f.gd fun s => (s.setS f.d (s.me.pc + imm64 f.imm)).finish

end Sys2Proof.Machine
end

