-- ==== Sys2Proof/Machine/ViewInstr.lean ====
section
/-! DEFINITION. The view instructions (09 R239 to R244). -/

namespace Sys2Proof.Machine

open Sys2Proof

/-- One dimension of a view replaced. -/
def View.setDim (v : View) (d : Nat) (x : Dim) : View :=
  { v with dims := Vector.ofFn fun i => if i.val = d then x else v.dims[i] }

/-- The dense description of `wset` FN 0 and FN 3. -/
def denseView (f : FmtW) (space : BitVec 3) (base : Word) (ext : Int) : View :=
  let v : View := { state := .set, space, base, ty := f.ty, b8 := f.b8 }
  v.setDim 0 { ext, lo := 0, stride := if v.packed then 0 else v.elemBytes }

/-- `wset` FN 0 (R239). -/
def execWset (f : FmtW) (s : State) : Out :=
  s.guarded f.gd fun s =>
    (check (!(s.getW f.d).live) .viewFormat s).run fun _ s =>
      (s.setW f.d (denseView f f.space (s.getS f.a) (s.getS f.b + f.imm.setWidth 64).toInt)).finish

/-- `wset.dim` (R239). -/
def execWsetDim (f : FmtW) (s : State) : Out :=
  s.guarded f.gd fun s =>
    let v := s.getW f.d
    (check (!v.live && v.state != .empty) .viewFormat s).run fun _ s =>
      let d := f.imm.toNat
      (s.setW f.d { v.setDim d { ext := (s.getS f.a).toInt, lo := 0, stride := (s.getS f.b).toInt } with
                    rank := max v.rank (d + 1) }).finish

/-- `wset.scl` (R239). -/
def execWsetScl (f : FmtW) (s : State) : Out :=
  s.guarded f.gd fun s =>
    let v := s.getW f.d
    (check (!v.live && v.state != .empty) .viewFormat s).run fun _ s =>
      let c : Scale := {
        base := s.getS f.a, block := s.getS f.b, row := s.getS f.c, kdim := f.imm.toNat % 2, e8m0 := f.imm.getLsbD 1 }
      (s.setW f.d { v with scl := some c }).finish

/-- `wset.sreg` (R239): BASE is a free value until `wopen` (log entry 2). -/
def execWsetSreg (f : FmtW) (s : State) : Out :=
  s.guarded f.gd fun s =>
    (check (!(s.getW f.d).live) .viewFormat s).run fun _ s =>
      let base := s.free
      let s := base.2
      let v := denseView f 5 base.1 0
      let n := (s.getS f.b).toNat / v.elemBytes
      (s.setW f.d { v.setDim 0 { ext := n, lo := 0, stride := v.elemBytes } with
                    sreg := some (s.getS f.a, s.getS f.b) }).finish

namespace State

/-- Enter a view into the directory (R228, R240): open while it has room, wide otherwise. -/
def enterView (s : State) (d : BitVec 5) (v : View) (mode : BitVec 2) (scope : BitVec 3) : State :=
  let k := s.myCluster
  let room := k.directory.length < 64
  let s := if room then s.setCluster (hartCluster s.cur) { k with directory := k.directory ++ [(s.cur, d.toNat)] } else s
  s.setW d { v with state := if room then .opened else .wide, mode, scope }

end State

/-- `wopen` (R240). The BASE of an S-region view is its region's offset, so R227 is checked with BASE 0 (log entry 84). -/
def execWopen (f : FmtW) (s : State) : Out :=
  s.guarded f.gd fun s =>
    let v := s.getW f.d
    (check (v.state == .set) .viewFormat s).run fun _ s =>
    match v.sreg with
    | none => (checkView v s).run fun _ s => (s.enterView f.d v f.mode (f.imm.setWidth 3)).finish
    | some (name, size) =>
      (checkView { v with base := 0 } s).run fun _ s =>
      (check (name ≠ 0 && size.toNat % 4096 == 0 && 4096 ≤ size.toNat && size.toNat ≤ 65536) .viewFormat s).run fun _ s =>
      (s.useBank (.typed (hartCore s.cur) 5 0)).run fun _ s =>
      match s.myCore.openS s.cur name size.toNat with
      | .refused => s.finish
      | .mismatch => .next (s.raise .viewFormat)
      | .held offset k =>
        let grown := k.sregions.length ≠ s.myCore.sregions.length
        let s := s.setMyCore k
        let s := if grown then s.reclaim (hartCluster s.cur) else s
        (s.enterView f.d { v with base := BitVec.ofNat 64 offset } f.mode (f.imm.setWidth 3)).finish

namespace State

/-- The place of the stream bound to a view (R242): a new description of the view register has none, though the stream
register stays bound to its ended stream until `wunbind` (R241). -/
def streamOn (s : State) (w : Nat) : Option (BitVec 3) :=
  ((s.me.regs.w.toList.getD w {}).stream).map (BitVec.ofNat 3 ·)

/-- End a stream's traffic (R232, R242): an input stream loses its filled entries. -/
def endStream (s : State) (i : BitVec 3) : State :=
  match s.me.regs.stream i with
  | none => s
  | some st => s.modMe (·.modRegs (·.setStream i (some { st with ended := true, entries := if st.output then st.entries else [] })))

/-- The stream bound to a view, if one is, no longer holds other view operations back (R230). -/
def retireStream (s : State) (w : Nat) : State :=
  match s.streamOn w with
  | none => s
  | some i => s.modMe (·.modRegs fun r => r.setStream i ((r.stream i).map fun st => { st with retired := true }))

/-- A view leaves the directory and is set (R228); the wait for its stream is over (R230). -/
def dropView (s : State) (d : BitVec 5) : State :=
  let n := (d.setWidth 4).toNat
  let s := s.retireStream n
  let k := s.myCluster
  let s := s.setCluster (hartCluster s.cur) { k with directory := k.directory.filter fun e => !(e.1 == s.cur && e.2 == n) }
  s.setW d { s.getW d with state := .set, mode := 0, scope := 0 }

/-- A hold on an S region ends (R231); `free` marks the region for freeing. -/
def leaveRegion (s : State) (name : Word) (free : Bool) : State :=
  let k := s.myCore
  let rs := k.sregions.map fun r =>
    if r.name = name then { r with holders := r.holders.erase s.cur, freeing := r.freeing || free } else r
  s.setMyCore { k with sregions := rs.filter fun r => !(r.freeing && r.holders.isEmpty) }

end State

/-- `wretire` (R241). -/
def execWretire (f : FmtW) (s : State) : Out :=
  s.guarded f.gd fun s =>
    let v := s.getW f.d
    if !v.live then s.endRegion.finish
    else
      (check (f.fn = 0 || v.sreg.isSome) .viewFormat s).run fun _ s =>
      if s.me.outstanding.any fun c => c.dstReg == f.d.toNat then .next (s.stall .views)
      else
        (match s.streamOn f.d.toNat with
          | none => Res.ok () s
          | some i => (s.flushStream i).bind fun _ s => .ok () (s.endStream i)).run fun _ s =>
        s.publish.run fun _ s =>
          let s := match v.sreg with
            | some (name, _) => s.leaveRegion name (f.fn = 1)
            | none => s
          (s.dropView f.d).endRegion.finish

/-- `wbind` (R242). -/
def execWbind (f : FmtW) (s : State) : Out :=
  s.guarded f.gd fun s =>
    let v := s.getW f.a
    (check (v.live && (s.streamOf f.d).isNone && (s.streamOn f.a.toNat).isNone) .viewFormat s).run fun _ s =>
      let st : Stream := { view := f.a.toNat, output := v.mode == 2, seq := s.nextId }
      let s := { s with nextId := s.nextId + 1 }
      let s := s.setW f.a { v with stream := some f.d.toNat }
      (s.modMe (·.modRegs (·.setStream (f.d.setWidth 3) (some st)))).finish

/-- `weos` (R242). -/
def execWeos (f : FmtW) (s : State) : Out := s.guarded f.gd fun s => (s.endStream (f.d.setWidth 3)).finish

/-- `wunbind` (R242): an output stream is written first. -/
def execWunbind (f : FmtW) (s : State) : Out :=
  s.guarded f.gd fun s =>
    let i := f.d.setWidth 3
    match s.me.regs.stream i with
    | none => s.finish
    | some st =>
      (s.flushStream i).run fun _ s =>
        let d := BitVec.ofNat 5 st.view
        let s := if (s.getW d).stream = some f.d.toNat then s.setW d { s.getW d with stream := none } else s
        (s.modMe (·.modRegs (·.setStream i none))).finish

/-- `wsub` (R243). -/
def execWsub (f : FmtW) (s : State) : Out :=
  s.guarded f.gd fun s =>
    let v := s.getW f.a
    let d := f.imm.toNat
    let lo := (s.getS f.b).toInt
    let n := (s.getS f.c).toInt
    let x := v.dims.toList.getD d {}
    (check (v.state != .empty && !(s.getW f.d).live && d < v.rank && 0 ≤ lo && 1 ≤ n && lo + n ≤ x.ext) .viewFormat s).run
      fun _ s =>
        (s.setW f.d { v.setDim d { x with lo := x.lo + lo, ext := n } with
                      state := .set, mode := 0, scope := 0, stream := none }).finish

/-- The state word of `wtest.state` (R244). -/
def View.stateWord (v : View) : Nat :=
  (match v.state with | .empty => 0 | .set => 1 | .opened => 2 | .wide => 3)
    + (if v.live then v.mode.toNat * 4 + v.scope.toNat * 256 else 0) + (if v.stream.isSome then 16 else 0)
    + (if v.state == .empty then 0 else v.space.toNat * 32)

/-- `wtest` (R244). The base of an S-region view is given while it is open or wide (log entry 104). -/
def execWtest (f : FmtW) (s : State) : Out :=
  s.guarded f.gd fun s =>
    let v := s.getW f.a
    let w := s.getW f.b
    let x : Word :=
      if f.fn = 0 then (if v.state != .empty && w.state != .empty && v.canMeet w then 1 else 0)
      else if f.fn = 1 then BitVec.ofNat 64 v.stateWord
      else if v.state == .empty || (v.sreg.isSome && !v.live) then 0 else v.base
    (s.setS f.d x).finish

end Sys2Proof.Machine
end

