-- ==== Sys2Proof/Machine/Dispatch.lean ====
section
/-! DEFINITION. One arm per row of the opcode table, each a direct call of its meaning. -/

namespace Sys2Proof.Machine

open Sys2Proof

/-- What an instruction does at the executing hart, or what an event does. -/
def exec (i : Instr) (s : State) : Host.Outcome State Fault Refusal :=
  match i with
  | .add f => Sys2Proof.Machine.execAdd f s
  | .addi f => Sys2Proof.Machine.execAddi f s
  | .sub f => Sys2Proof.Machine.execSub f s
  | .mul f => Sys2Proof.Machine.execMul f s
  | .mulh f => Sys2Proof.Machine.execMulh f s
  | .div f => Sys2Proof.Machine.execDiv f s
  | .rem f => Sys2Proof.Machine.execRem f s
  | .and f => Sys2Proof.Machine.execAnd f s
  | .andi f => Sys2Proof.Machine.execAndi f s
  | .or f => Sys2Proof.Machine.execOr f s
  | .ori f => Sys2Proof.Machine.execOri f s
  | .xor f => Sys2Proof.Machine.execXor f s
  | .xori f => Sys2Proof.Machine.execXori f s
  | .shl f => Sys2Proof.Machine.execShl f s
  | .shli f => Sys2Proof.Machine.execShli f s
  | .shr f => Sys2Proof.Machine.execShr f s
  | .shri f => Sys2Proof.Machine.execShri f s
  | .sra f => Sys2Proof.Machine.execSra f s
  | .srai f => Sys2Proof.Machine.execSrai f s
  | .min f => Sys2Proof.Machine.execMin f s
  | .max f => Sys2Proof.Machine.execMax f s
  | .cset f => Sys2Proof.Machine.execCset f s
  | .csel f => Sys2Proof.Machine.execCsel f s
  | .clz f => Sys2Proof.Machine.execClz f s
  | .ctz f => Sys2Proof.Machine.execCtz f s
  | .popc f => Sys2Proof.Machine.execPopc f s
  | .bext f => Sys2Proof.Machine.execBext f s
  | .bins f => Sys2Proof.Machine.execBins f s
  | .li f => Sys2Proof.Machine.execLi f s
  | .lih f => Sys2Proof.Machine.execLih f s
  | .addpc f => Sys2Proof.Machine.execAddpc f s
  | .br f => Sys2Proof.Machine.execBr f s
  | .jmp f => Sys2Proof.Machine.execJmp f s
  | .jr f => Sys2Proof.Machine.execJr f s
  | .call f => Sys2Proof.Machine.execCall f s
  | .callr f => Sys2Proof.Machine.execCallr f s
  | .rep f => Sys2Proof.Machine.execRep f s
  | .gset f => Sys2Proof.Machine.execGset f s
  | .gclr f => Sys2Proof.Machine.execGclr f s
  | .rgn f => Sys2Proof.Machine.execRgn f s
  | .taskEnd f => Sys2Proof.Machine.execTaskEnd f s
  | .nop f => Sys2Proof.Machine.execNop f s
  | .brk f => Sys2Proof.Machine.execBrk f s
  | .ld f => Sys2Proof.Machine.execLd f s
  | .st f => Sys2Proof.Machine.execSt f s
  | .wld f => Sys2Proof.Machine.execWld f s
  | .wst f => Sys2Proof.Machine.execWst f s
  | .pf f => Sys2Proof.Machine.execPf f s
  | .bld f => Sys2Proof.Machine.execBld f s
  | .bst f => Sys2Proof.Machine.execBst f s
  | .cln f => Sys2Proof.Machine.execCln f s
  | .amo f => Sys2Proof.Machine.execAmo f s
  | .cas f => Sys2Proof.Machine.execCas f s
  | .cas2 f => Sys2Proof.Machine.execCas2 f s
  | .fence f => Sys2Proof.Machine.execFence f s
  | .barr f => Sys2Proof.Machine.execBarr f s
  | .wfv f => Sys2Proof.Machine.execWfv f s
  | .vadd f => Sys2Proof.Machine.execVadd f s
  | .vsub f => Sys2Proof.Machine.execVsub f s
  | .vmul f => Sys2Proof.Machine.execVmul f s
  | .vfma f => Sys2Proof.Machine.execVfma f s
  | .vfms f => Sys2Proof.Machine.execVfms f s
  | .vmin f => Sys2Proof.Machine.execVmin f s
  | .vmax f => Sys2Proof.Machine.execVmax f s
  | .vabs f => Sys2Proof.Machine.execVabs f s
  | .vneg f => Sys2Proof.Machine.execVneg f s
  | .vand f => Sys2Proof.Machine.execVand f s
  | .vor f => Sys2Proof.Machine.execVor f s
  | .vxor f => Sys2Proof.Machine.execVxor f s
  | .vshl f => Sys2Proof.Machine.execVshl f s
  | .vshr f => Sys2Proof.Machine.execVshr f s
  | .vsra f => Sys2Proof.Machine.execVsra f s
  | .vcmp f => Sys2Proof.Machine.execVcmp f s
  | .vsel f => Sys2Proof.Machine.execVsel f s
  | .vcvt f => Sys2Proof.Machine.execVcvt f s
  | .vred f => Sys2Proof.Machine.execVred f s
  | .vscan f => Sys2Proof.Machine.execVscan f s
  | .vperm f => Sys2Proof.Machine.execVperm f s
  | .vperm2 f => Sys2Proof.Machine.execVperm2 f s
  | .vbcast f => Sys2Proof.Machine.execVbcast f s
  | .vext f => Sys2Proof.Machine.execVext f s
  | .vins f => Sys2Proof.Machine.execVins f s
  | .vrcp f => Sys2Proof.Machine.execVrcp f s
  | .vrsqrt f => Sys2Proof.Machine.execVrsqrt f s
  | .vexp2 f => Sys2Proof.Machine.execVexp2 f s
  | .vlog2 f => Sys2Proof.Machine.execVlog2 f s
  | .vsqrt f => Sys2Proof.Machine.execVsqrt f s
  | .vdiv f => Sys2Proof.Machine.execVdiv f s
  | .vdot f => Sys2Proof.Machine.execVdot f s
  | .vmov f => Sys2Proof.Machine.execVmov f s
  | .vld f => Sys2Proof.Machine.execVld f s
  | .vst f => Sys2Proof.Machine.execVst f s
  | .vgath f => Sys2Proof.Machine.execVgath f s
  | .vscat f => Sys2Proof.Machine.execVscat f s
  | .vbld f => Sys2Proof.Machine.execVbld f s
  | .vbst f => Sys2Proof.Machine.execVbst f s
  | .kop f => Sys2Proof.Machine.execKop f s
  | .vclass f => Sys2Proof.Machine.execVclass f s
  | .vwld f => Sys2Proof.Machine.execVwld f s
  | .vwst f => Sys2Proof.Machine.execVwst f s
  | .tcfg f => Sys2Proof.Machine.execTcfg f s
  | .tcfgGet f => Sys2Proof.Machine.execTcfgGet f s
  | .tclaim f => Sys2Proof.Machine.execTclaim f s
  | .tfree f => Sys2Proof.Machine.execTfree f s
  | .tld f => Sys2Proof.Machine.execTld f s
  | .tst f => Sys2Proof.Machine.execTst f s
  | .tzero f => Sys2Proof.Machine.execTzero f s
  | .mma f => Sys2Proof.Machine.execMma f s
  | .mmg f => Sys2Proof.Machine.execMmg f s
  | .dmma f => Sys2Proof.Machine.execDmma f s
  | .tscl f => Sys2Proof.Machine.execTscl f s
  | .ttr f => Sys2Proof.Machine.execTtr f s
  | .cread f => Sys2Proof.Machine.execCread f s
  | .wset f => Sys2Proof.Machine.execWset f s
  | .wsetDim f => Sys2Proof.Machine.execWsetDim f s
  | .wsetScl f => Sys2Proof.Machine.execWsetScl f s
  | .wsetSreg f => Sys2Proof.Machine.execWsetSreg f s
  | .wopen f => Sys2Proof.Machine.execWopen f s
  | .wretire f => Sys2Proof.Machine.execWretire f s
  | .wbind f => Sys2Proof.Machine.execWbind f s
  | .wunbind f => Sys2Proof.Machine.execWunbind f s
  | .weos f => Sys2Proof.Machine.execWeos f s
  | .wsub f => Sys2Proof.Machine.execWsub f s
  | .wtest f => Sys2Proof.Machine.execWtest f s
  | .cpy f => Sys2Proof.Machine.execCpy f s
  | .cpys f => Sys2Proof.Machine.execCpys f s
  | .coll f => Sys2Proof.Machine.execColl f s
  | .twany f => Sys2Proof.Machine.execTwany f s
  | .twall f => Sys2Proof.Machine.execTwall f s
  | .tfirst f => Sys2Proof.Machine.execTfirst f s
  | .tclr f => Sys2Proof.Machine.execTclr f s
  | .cfill f => Sys2Proof.Machine.execCfill f s
  | .fork f => Sys2Proof.Machine.execFork f s
  | .forkc f => Sys2Proof.Machine.execForkc f s
  | .forkg f => Sys2Proof.Machine.execForkg f s
  | .join f => Sys2Proof.Machine.execJoin f s
  | .send f => Sys2Proof.Machine.execSend f s
  | .spawn f => Sys2Proof.Machine.execSpawn f s
  | .qinfo f => Sys2Proof.Machine.execQinfo f s
  | .trap f => Sys2Proof.Machine.execTrap f s
  | .ctrlr f => Sys2Proof.Machine.execCtrlr f s
  | .ctrlw f => Sys2Proof.Machine.execCtrlw f s
  | .vxfAccess write f => Sys2Proof.Machine.execVxfAccess write f s
  | .quotaWrite f => Sys2Proof.Machine.execQuotaWrite f s
  | .tretTake f => Sys2Proof.Machine.execTretTake f s
  | .tretDefer f => Sys2Proof.Machine.execTretDefer f s
  | .tretTerm f => Sys2Proof.Machine.execTretTerm f s
  | .tretRelease f => Sys2Proof.Machine.execTretRelease f s
  | .tlbw f => Sys2Proof.Machine.execTlbw f s
  | .tlbiPage f => Sys2Proof.Machine.execTlbiPage f s
  | .tlbiAsid f => Sys2Proof.Machine.execTlbiAsid f s
  | .tlbiAll f => Sys2Proof.Machine.execTlbiAll f s
  | .mbind f => Sys2Proof.Machine.execMbind f s
  | .mbindUn f => Sys2Proof.Machine.execMbindUn f s
  | .qsave f => Sys2Proof.Machine.execQsave f s
  | .qrest f => Sys2Proof.Machine.execQrest f s
  | .reprwGet f => Sys2Proof.Machine.execReprwGet f s
  | .reprwAdd f => Sys2Proof.Machine.execReprwAdd f s
  | .reprwApply f => Sys2Proof.Machine.execReprwApply f s
  | .reprwClr f => Sys2Proof.Machine.execReprwClr f s
  | .reprwSum f => Sys2Proof.Machine.execReprwSum f s
  | .halt f => Sys2Proof.Machine.execHalt f s
  | .cinvI f => Sys2Proof.Machine.execCinvI f s
  | .cinvD f => Sys2Proof.Machine.execCinvD f s
  | .msHalt f => Sys2Proof.Machine.execMsHalt f s
  | .msLdi f => Sys2Proof.Machine.execMsLdi f s
  | .msLdh f => Sys2Proof.Machine.execMsLdh f s
  | .msMov f => Sys2Proof.Machine.execMsMov f s
  | .msAdd f => Sys2Proof.Machine.execMsAdd f s
  | .msAddi f => Sys2Proof.Machine.execMsAddi f s
  | .msSub f => Sys2Proof.Machine.execMsSub f s
  | .msAnd f => Sys2Proof.Machine.execMsAnd f s
  | .msOr f => Sys2Proof.Machine.execMsOr f s
  | .msXor f => Sys2Proof.Machine.execMsXor f s
  | .msShl f => Sys2Proof.Machine.execMsShl f s
  | .msShr f => Sys2Proof.Machine.execMsShr f s
  | .msInb f => Sys2Proof.Machine.execMsInb f s
  | .msInw f => Sys2Proof.Machine.execMsInw f s
  | .msLds f => Sys2Proof.Machine.execMsLds f s
  | .msSts f => Sys2Proof.Machine.execMsSts f s
  | .msBeq f => Sys2Proof.Machine.execMsBeq f s
  | .msBne f => Sys2Proof.Machine.execMsBne f s
  | .msBlt f => Sys2Proof.Machine.execMsBlt f s
  | .msJmp f => Sys2Proof.Machine.execMsJmp f s
  | .msWay f => Sys2Proof.Machine.execMsWay f s
  | .msEmit f => Sys2Proof.Machine.execMsEmit f s
  | .budgetExhausted k => Sys2Proof.Machine.execBudgetExhausted k s
  | .loadRequest part object base => Sys2Proof.Machine.execLoadRequest part object base s
  | .cairnWaitResolve part load => Sys2Proof.Machine.execCairnWaitResolve part load s
  | .pageHashCheck part obj page => Sys2Proof.Machine.execPageHashCheck part obj page s
  | .revocationNotice core obj => Sys2Proof.Machine.execRevocationNotice core obj s
  | .hostWindowRead part qp va len => Sys2Proof.Machine.execHostWindowRead part qp va len s
  | .hostWindowWrite part qp va bytes => Sys2Proof.Machine.execHostWindowWrite part qp va bytes s
  | .mailboxSlotWrite part qp mbx off bytes => Sys2Proof.Machine.execMailboxSlotWrite part qp mbx off bytes s
  | .mailboxSlotRead part qp mbx off len => Sys2Proof.Machine.execMailboxSlotRead part qp mbx off len s
  | .doorbellWrite part qp mbx off bytes => Sys2Proof.Machine.execDoorbellWrite part qp mbx off bytes s
  | .mailboxFault part mbx => Sys2Proof.Machine.execMailboxFault part mbx s
  | .heldSlotPush part => Sys2Proof.Machine.execHeldSlotPush part s
  | .taskStart core slot => Sys2Proof.Machine.execTaskStart core slot s
  | .gangPlace cluster => Sys2Proof.Machine.execGangPlace cluster s
  | .taskReplay core slot => Sys2Proof.Machine.execTaskReplay core slot s
  | .instructionCacheFill h => Sys2Proof.Machine.execInstructionCacheFill h s
  | .longLatencyComplete h => Sys2Proof.Machine.execLongLatencyComplete h s
  | .guardResolve h => Sys2Proof.Machine.execGuardResolve h s
  | .storeDrain h => Sys2Proof.Machine.execStoreDrain h s
  | .watchdogExpire core slot => Sys2Proof.Machine.execWatchdogExpire core slot s
  | .missQueueAdmit cluster => Sys2Proof.Machine.execMissQueueAdmit cluster s
  | .counterDecrementPerform part => Sys2Proof.Machine.execCounterDecrementPerform part s
  | .launchCompletionRetry part launch => Sys2Proof.Machine.execLaunchCompletionRetry part launch s
  | .matrixSliceStart core => Sys2Proof.Machine.execMatrixSliceStart core s
  | .tileClaimGrant core => Sys2Proof.Machine.execTileClaimGrant core s
  | .gangwaitExpire gang => Sys2Proof.Machine.execGangwaitExpire gang s
  | .commandKick site => Sys2Proof.Machine.execCommandKick site s
  | .granuleComplete site n => Sys2Proof.Machine.execGranuleComplete site n s
  | .completionMessageRetry site n => Sys2Proof.Machine.execCompletionMessageRetry site n s
  | .streamFill h r => Sys2Proof.Machine.execStreamFill h r s
  | .streamDrain h r => Sys2Proof.Machine.execStreamDrain h r s
  | .retentionEnter bank => Sys2Proof.Machine.execRetentionEnter bank s
  | .retentionEntryDone bank => Sys2Proof.Machine.execRetentionEntryDone bank s
  | .retentionExitDone bank corrected bad => Sys2Proof.Machine.execRetentionExitDone bank corrected bad s
  | .histogramFlush die => Sys2Proof.Machine.execHistogramFlush die s
  | .timeSliceEnd part => Sys2Proof.Machine.execTimeSliceEnd part s
  | .serviceMessageArrival die core msg => Sys2Proof.Machine.execServiceMessageArrival die core msg s
  | .retirementRequest stack => Sys2Proof.Machine.execRetirementRequest stack s
  | .retirementCancel stack => Sys2Proof.Machine.execRetirementCancel stack s
  | .sweepStart => Sys2Proof.Machine.execSweepStart s
  | .retirementCommit => Sys2Proof.Machine.execRetirementCommit s
  | .sweepPause => Sys2Proof.Machine.execSweepPause s
  | .sweepResume => Sys2Proof.Machine.execSweepResume s
  | .sweepLineCopy => Sys2Proof.Machine.execSweepLineCopy s
  | .sweepUnitComplete => Sys2Proof.Machine.execSweepUnitComplete s
  | .requestReplay => Sys2Proof.Machine.execRequestReplay s
  | .packageReset => Sys2Proof.Machine.execPackageReset s
  | .bootStageHandoff primary secondary => Sys2Proof.Machine.execBootStageHandoff primary secondary s
  | .marchTestComplete die rows unusable => Sys2Proof.Machine.execMarchTestComplete die rows unusable s
  | .fullServiceSwitch => Sys2Proof.Machine.execFullServiceSwitch s
  | .clockStepDown milliwatts deciCelsius => Sys2Proof.Machine.execClockStepDown milliwatts deciCelsius s
  | .clockStepUp clearMicroseconds => Sys2Proof.Machine.execClockStepUp clearMicroseconds s
  | .partitionCreate record clusters => Sys2Proof.Machine.execPartitionCreate record clusters s
  | .partitionDestroy part => Sys2Proof.Machine.execPartitionDestroy part s
  | .keySlotFree slot => Sys2Proof.Machine.execKeySlotFree slot s
  | .firmwareStage image => Sys2Proof.Machine.execFirmwareStage image s
  | .svnRaise stage value => Sys2Proof.Machine.execSvnRaise stage value s
  | .updateRequest => Sys2Proof.Machine.execUpdateRequest s
  | .heartbeat => Sys2Proof.Machine.execHeartbeat s
  | .heartbeatTimeout => Sys2Proof.Machine.execHeartbeatTimeout s
  | .getVersion ep => Sys2Proof.Machine.execGetVersion ep s
  | .getCapabilities ep => Sys2Proof.Machine.execGetCapabilities ep s
  | .negotiateAlgorithms ep choice => Sys2Proof.Machine.execNegotiateAlgorithms ep choice s
  | .getDigests ep => Sys2Proof.Machine.execGetDigests ep s
  | .getCertificate ep => Sys2Proof.Machine.execGetCertificate ep s
  | .challenge ep nonce => Sys2Proof.Machine.execChallenge ep nonce s
  | .getMeasurements ep index nonce => Sys2Proof.Machine.execGetMeasurements ep index nonce s
  | .keyExchange ep exchange => Sys2Proof.Machine.execKeyExchange ep exchange s
  | .finish ep mac => Sys2Proof.Machine.execFinish ep mac s
  | .endSession ep => Sys2Proof.Machine.execEndSession ep s
  | .keyStoreSet ep index p384 hss => Sys2Proof.Machine.execKeyStoreSet ep index p384 hss s
  | .keyStoreDisable ep index => Sys2Proof.Machine.execKeyStoreDisable ep index s
  | .keyStoreStatus ep => Sys2Proof.Machine.execKeyStoreStatus ep s
  | .portTransmit queue out => Sys2Proof.Machine.execPortTransmit queue out s
  | .portReceive queue out => Sys2Proof.Machine.execPortReceive queue out s
  | .portReadBlock queue out => Sys2Proof.Machine.execPortReadBlock queue out s
  | .portWriteBlock queue out => Sys2Proof.Machine.execPortWriteBlock queue out s
  | .portFlush queue out => Sys2Proof.Machine.execPortFlush queue out s
  | .turnpikeArrival packet => Sys2Proof.Machine.execTurnpikeArrival packet s
  | .tscFirmwareStart h entry system => Sys2Proof.Machine.execTscFirmwareStart h entry system s
  | .imageUnload part obj => Sys2Proof.Machine.execImageUnload part obj s
  | .orderlyShutdown => Sys2Proof.Machine.execOrderlyShutdown s

end Sys2Proof.Machine
end

