-- ==== Sys2Proof/Machine/Place.lean ====
section
/-! DEFINITION. An instruction placed where the next step fetches it: a Ronid word at the pc of slot 3 of core 0, which
comes first in a core's cycle (06 R126), with a task in the slot, its page mapped for X and its line in the instruction
cache; a Milestone word at byte 0 of a pathfinder that Clearing 0 runs (log entry 25). -/

namespace Sys2Proof.Machine

open Sys2Proof

/-- The slot that takes a placed word. -/
def placeSlot : HartId := .slot 0 3

/-- The hart that is to fetch at its pc: it holds a task, at the start of nothing and waiting for nothing. -/
def Hart.toFetch (h : Hart) : Hart :=
  { h with task := some (h.task.getD { desc := { asid := 1 } }), regs := { h.regs with rep := none }, pend := [], wd := 0
           boundary := false, wait := none, parked := none, verdict := none, block := none, word := none }

/-- A page for code in physical page 0. -/
def codePage (asid : Nat) (va : Word) : TlbEntry := pageEntry asid 0 va.toNat 0 false false true

namespace State

/-- A Ronid word at the pc of the slot. -/
def placeRonid (s : State) (w : Nat) : State :=
  let h := (s.hart placeSlot).toFetch
  let asid := (h.task.getD {}).desc.asid
  let c := s.core 0
  let s := s.setHart placeSlot h
  let s := s.setCore 0 { c with tlb := codePage asid h.pc :: c.tlb, icache := c.icache ++ [(asid, h.pc.toNat / 128)] }
  { s with turn := .core 0, agenda := [], mem := s.mem.storeNat (h.pc.toNat % 65536) 8 w }

/-- A Milestone word as a pathfinder of one instruction. -/
def placeMilestone (s : State) (w : Nat) : State :=
  { s with turn := .clearing 0, agenda := []
           clearings := s.clearings.set 0 { tsc := some 0, pathfinder := leBytes 4 w, running := true, budget := 2 ^ 26 } }

end State

/-- The word of a table row, of so many bits, placed. -/
def placeWord (s : State) (nbits w : Nat) : State :=
  if nbits ≤ 32 then s.placeMilestone (w % 2 ^ nbits) else s.placeRonid (w % 2 ^ nbits)

end Sys2Proof.Machine
end

