-- ==== Sys2Proof/Machine/Layouts.lean ====
section
/-! DEFINITION. The layouts of what the package keeps where no task can reach it: descriptors (05 R105), task records and
their extensions (15 R324, R325). State holds the same things as
plain data; where they stand is not given (log entry 63). -/

namespace Sys2Proof.Machine

open Sys2Proof

namespace State

/-! ### Descriptors (R105) -/

/-- CLASS: the glade, and whether the task is urgent (R105). -/
def classByte (d : Descriptor) : Byte := BitVec.ofNat 8 (d.glade + bit d.urgent * 8)

/-- A task descriptor (R105): 128 bytes. -/
def descriptorBytes (s : State) (d : Descriptor) : List Byte :=
  (d.payload.toList.map fun (x : Word) => leBytes 8 x.toNat).flatten ++ leBytes 8 d.entry.toNat ++ leBytes 8 d.counter.toNat
    ++ leBytes 4 d.launch ++ [BitVec.ofNat 8 d.kind, classByte d] ++ leBytes 2 (s.logicalCore d.part d.origin)
    ++ leBytes 8 d.lo ++ leBytes 8 d.hi ++ leBytes 8 d.object.toNat ++ List.replicate 16 0

/-- The descriptors in a spill area of a core, oldest first (R105, R107). -/
def spillBytes (s : State) (c : Nat) (urgent : Bool) : List Byte :=
  ((if urgent then (s.core c).spillU else (s.core c).spillN).map fun w => match w with
    | .desc d => s.descriptorBytes d
    | .replay _ _ _ => []).flatten

/-! ### Task records (R324, R325) -/

/-- Tiles of a core that a slot holds, as a mask. -/
def tileMask (k : Core) (slot : Nat) : Nat :=
  (k.tiles.toList.zipIdx.map fun t => if t.1.holder == some slot then 2 ^ t.2 else 0).sum

/-- The class that parked a task: that of the trap it has noted (R324, R326). -/
def parkClass (h : Hart) : Nat := match h.fault with | some m => m.trap.cls.code | none => 0

/-- MISC of a record (R324). -/
def miscWord (k : Core) (slot : Nat) (h : Hart) : Nat :=
  ((List.range 7).map fun i => bit (h.regs.guard (BitVec.ofNat 3 (i + 1))) * 2 ^ i).sum + h.regs.rmode.toNat * 2 ^ 8
    + h.regs.inline.length * 2 ^ 11 + tileMask k slot * 2 ^ 16 + parkClass h * 2 ^ 24

/-- An entry of INLINE (R324). -/
def frameBytes (f : Frame) : List Byte := leBytes 8 f.ret.toNat ++ leBytes 8 (f.index % 2 ^ 32 + f.left * 2 ^ 32)

/-- An entry of STREAMS (R324). -/
def streamWord (b : Option Stream) : Nat :=
  match b with | none => 0 | some st => st.view + 2 ^ 4 + bit st.output * 2 ^ 5 + st.pos * 2 ^ 8

/-- REP of a record (R324, R154). -/
def repBytes (r : Option Rep) : List Byte :=
  match r with
  | none => List.replicate 32 0
  | some r => leBytes 8 r.n ++ leBytes 8 r.pass ++ leBytes 8 (r.len - 1 + r.stride * 2 ^ 4 + r.j * 2 ^ 9 + 2 ^ 13) ++ leBytes 8 r.addr.toNat

/-- SIGMIS of a record (R324, R359). -/
def sigmisBytes (m : Option (Word × Nat × Nat)) : List Byte :=
  match m with
  | none => List.replicate 16 0
  | some (block, core, n) => leBytes 8 block.toNat ++ leBytes 2 core ++ [BitVec.ofNat 8 n] ++ List.replicate 5 0

/-- The record of a task that parks at a hart (R324): 3,072 bytes, with the number of its fault-queue entry and the address of
its extension. The hart's registers are those of the checkpoint (R323). -/
def taskRecord (s : State) (id : HartId) (h : Hart) (seq : Nat) (ext : Word) : List Byte :=
  let t := h.task.getD {}
  let d := t.desc
  let core := hartCore id
  ((List.range 32).map fun n => leBytes 8 (h.regs.getS (BitVec.ofNat 5 n)).toNat).flatten
    ++ ((List.range 32).map fun n => leBytes 64 (h.regs.getV (BitVec.ofNat 5 n)).toNat).flatten
    ++ ((List.range 8).map fun n => leBytes 2 (h.regs.getK (BitVec.ofNat 3 n)).toNat).flatten
    ++ leBytes 8 h.regionpc.toNat ++ leBytes 8 (miscWord (s.core core) (hartSlot id) h)
    ++ leBytes 8 h.vxfLo.toNat ++ leBytes 8 h.vxfHi.toNat
    ++ leBytes 8 h.tagdone.toNat ++ leBytes 8 ((h.tagfail.map fun e => 2 ^ e.1).sum)
    ++ leBytes 8 h.wd ++ leBytes 8 t.wdlimit
    ++ ((List.range 16).map fun i => match h.regs.inline[i]? with | some f => frameBytes f | none => List.replicate 16 0).flatten
    ++ leBytes 8 d.counter.toNat ++ leBytes 8 d.object.toNat ++ leBytes 8 d.entry.toNat ++ leBytes 4 d.launch
    ++ [classByte d, 0, 0, 0]
    ++ leBytes 8 (s.logicalCore d.part core + (if t.gang.isSome then d.lo + 1 else 0) * 2 ^ 16 + t.episode * 2 ^ 24)
    ++ ((List.range 8).map fun i => leBytes 8 (streamWord (h.regs.stream (BitVec.ofNat 3 i)))).flatten
    ++ leBytes 8 ext.toNat ++ leBytes 8 seq ++ sigmisBytes t.sigmis ++ repBytes h.regs.rep ++ List.replicate 264 0

/-- The extension of a record (R325): sixteen view images of 48 bytes, and sixteen entries of the command word and its progress.
What the images and the progress words are is the chip's own: n names the record. -/
def recordExtension (n : Nat) (h : Hart) : List Byte :=
  (List.range 768).map (Config.extensionByte n)
    ++ ((List.range 16).map fun i => match h.queue[i]? with
        | some c => leBytes 8 c.word.toNat ++ (List.range 8).map fun j => Config.extensionByte n (768 + 16 * i + 8 + j)
        | none => List.replicate 16 0).flatten

end State

end Sys2Proof.Machine
end

