-- ==== Sys2Proof/Safety.lean ====
section
/-! DEFINITION. What counts as a safe run, and the conditions under which an instruction goes through, in the terms that
claims use. -/

namespace Sys2Proof.Machine

open Sys2Proof

/-! ### The canonical form of every memory -/

/-- The typed buffers of a core are in canonical form. -/
def Core.memoryOk (k : Core) : Bool := k.w.wf && k.a.wf && k.c.wf && k.sbuf.wf
/-- The mailbox slots of a partition are in canonical form. -/
def Partition.memoryOk (q : Partition) : Bool := q.mailboxes.all fun e => e.2.bytes.wf
/-- The memories that a save holds are in canonical form. -/
def Save.memoryOk (v : Save) : Bool :=
  v.partition.memoryOk && v.clusters.all (·.mem.wf) && v.cores.all Core.memoryOk

/-- Every memory of the package is in its canonical form: HBM, clusters' memories, typed buffers, mailboxes' slots,
Clearings' scratch, and what a save holds of them. -/
def State.memoryOk (s : State) : Bool :=
  s.mem.wf && s.clusters.all (fun e => e.2.mem.wf) && s.cores.all (fun e => e.2.memoryOk)
    && s.partitions.all (fun e => e.2.memoryOk) && s.clearings.all (fun e => e.2.scratch.wf) && s.saves.all Save.memoryOk

/-- The guard field of a Ronid instruction (R22). -/
def guardField : Instr → Option (BitVec 3)
  | .add f | .sub f | .mul f | .mulh f | .div f | .rem f | .and f | .or f | .xor f | .shl f | .shr f | .sra f
    | .min f | .max f | .cset f | .csel f | .clz f | .ctz f | .popc f | .bext f | .bins f | .jr f | .callr f
    | .gset f | .gclr f | .rgn f | .taskEnd f | .nop f | .fence f | .vadd f | .vsub f | .vmul f | .vfma f | .vfms f
    | .vmin f | .vmax f | .vabs f | .vneg f | .vand f | .vor f | .vxor f | .vshl f | .vshr f | .vsra f | .vcmp f
    | .vsel f | .vcvt f | .vred f | .vscan f | .vperm f | .vperm2 f | .vbcast f | .vext f | .vins f | .vrcp f
    | .vrsqrt f | .vexp2 f | .vlog2 f | .vsqrt f | .vdiv f | .vdot f | .vmov f | .kop f | .vclass f | .send f
    | .qinfo f => some f.gd
  | .addi f | .andi f | .ori f | .xori f | .shli f | .shri f | .srai f | .li f | .lih f | .addpc f | .rep f | .brk f
    | .twany f | .twall f | .tfirst f | .tclr f => some f.gd
  | .ld f | .st f | .wld f | .wst f | .pf f | .bld f | .bst f | .cln f | .amo f | .cas f | .cas2 f | .barr f
    | .wfv f | .vld f | .vst f | .vgath f | .vscat f | .vbld f | .vbst f | .vwld f | .vwst f => some f.gd
  | .br f | .jmp f | .call f | .fork f | .forkc f | .forkg f | .join f | .spawn f => some f.gd
  | .tcfg f | .tcfgGet f | .tclaim f | .tfree f | .tld f | .tst f | .tzero f | .mma f | .mmg f | .dmma f | .tscl f
    | .ttr f | .cread f => some f.gd
  | .wset f | .wsetDim f | .wsetScl f | .wsetSreg f | .wopen f | .wretire f | .wbind f | .wunbind f | .weos f
    | .wsub f | .wtest f => some f.gd
  | .cpy f | .cpys f | .coll f | .cfill f => some f.gd
  | .trap f | .ctrlr f | .ctrlw f | .vxfAccess _ f | .quotaWrite f | .tretTake f | .tretDefer f | .tretTerm f
    | .tretRelease f | .tlbw f | .tlbiPage f | .tlbiAsid f | .tlbiAll f | .mbind f | .mbindUn f | .qsave f
    | .qrest f | .reprwGet f | .reprwAdd f | .reprwApply f | .reprwClr f | .reprwSum f | .halt f | .cinvI f
    | .cinvD f => some f.gd
  | _ => none

/-- A register of the kinds that an instruction may name as its destination (R42). -/
inductive RegName where
  | s (n : BitVec 5)
  | v (n : BitVec 5)
  | k (n : BitVec 3)
  | g (n : BitVec 5)
deriving DecidableEq, Repr

/-- The destination of an instruction that reads registers and writes one, and does nothing else (06 R145 to R150, R155;
08 R193 to R204). -/
def regDest : Instr → Option RegName
  | .add f | .sub f | .mul f | .mulh f | .div f | .rem f | .and f | .or f | .xor f | .shl f | .shr f | .sra f
    | .min f | .max f | .cset f | .csel f | .clz f | .ctz f | .popc f | .bext f | .bins f | .vext f => some (.s f.d)
  | .addi f | .andi f | .ori f | .xori f | .shli f | .shri f | .srai f | .li f | .lih f | .addpc f => some (.s f.d)
  | .gset f | .gclr f => some (.g f.d)
  | .vadd f | .vsub f | .vmul f | .vfma f | .vfms f | .vmin f | .vmax f | .vabs f | .vneg f | .vand f | .vor f | .vxor f
    | .vshl f | .vshr f | .vsra f | .vsel f | .vcvt f | .vred f | .vscan f | .vperm f | .vperm2 f | .vbcast f | .vins f
    | .vrcp f | .vrsqrt f | .vexp2 f | .vlog2 f | .vsqrt f | .vdiv f | .vdot f | .vmov f | .vclass f => some (.v f.d)
  | .vcmp f => some (.k (f.d.setWidth 3))
  | .kop f => some (if f.fn.toNat < 6 then .k (f.d.setWidth 3) else .s f.d)
  | _ => none

/-- An engine command (R250). -/
def isCommand : Instr → Bool
  | .cpy _ | .cpys _ | .coll _ | .cfill _ => true
  | _ => false

namespace State

/-! ### An instruction goes through -/

/-- The executing hart may run an instruction by its privilege (R45, R46, R51, R333, R340). -/
def privileged (s : State) : Instr → Bool
  | .tlbw _ | .tlbiPage _ | .tlbiAsid _ | .tlbiAll _ | .cinvI _ | .cinvD _ => 1 ≤ s.level s.cur
  | .ctrlr f | .ctrlw f => f.sel.toNat < 0x100 || 1 ≤ s.level s.cur
  | .qsave _ | .qrest _ | .reprwGet _ | .reprwAdd _ | .reprwApply _ | .reprwClr _ | .reprwSum _ | .halt _ => s.level s.cur == 2
  | .tretTake _ | .tretDefer _ | .tretTerm _ | .tretRelease _ => match s.cur with | .tsc _ => true | _ => false
  | _ => true

/-- The guard of an instruction is resolved and true (R22, R134, R135). -/
def runs (s : State) (gd : BitVec 3) : Bool := !s.guardOpen gd && s.me.regs.guard gd

/-- The executing hart's stores wait for no unit being moved and for no sleeping bank, so that a release goes on (R299, R350,
R371). -/
def mayRelease (s : State) : Bool := !s.me.stores.any s.blocked && s.me.stores.all s.awakeFor

/-- The executing hart's earlier accesses are over but for its stores, and these wait for nothing, so that a
release of every access goes on (R299, R301). -/
def mayPublish (s : State) : Bool :=
  s.me.regs.streams.all (fun b => match b with | some st => !st.output || st.entries.isEmpty | none => true)
    && !s.sliceWork && s.mayRelease

/-- The TLB that an access of the executing hart looks in first: a slot's core L1, a TSC's cluster TLB, a system core's die
TLB (R220). -/
def firstTlb (s : State) : List TlbEntry :=
  match s.cur with
  | .slot c _ => (s.core c).tlb
  | .tsc k => (s.cluster k).tlb
  | .sys d _ => (s.die d).tlb

/-- The first TLB of the executing hart translates a canonical address by an entry, to a place that the hart may reach
(R12, R214, R220, R373). -/
def maps (s : State) (va : Word) (e : TlbEntry) : Bool :=
  canonical va && s.firstTlb.find? (·.covers (s.asidOf s.cur) va.toNat) == some e && s.reaches s.cur (e.physical va.toNat)

/-- The hart can read n bytes of memory at an address of a page: R, no error to meet, no poison (R235), under the key that they were
written under (R219), through banks that are active (R350), and not in the event rings and histograms (R356, R357). -/
def readable (s : State) (va : Word) (n : Nat) (e : TlbEntry) : Bool :=
  s.maps va e && e.r && s.upsets.isEmpty && !(s.globalFor s.cur).bad (e.physical va.toNat) n
    && s.keyed e.key (e.physical va.toNat) n && s.dieAwake (e.physical va.toNat) n && (s.logAt (e.physical va.toNat)).isNone

/-- The hart can write at an address of a page that is not strongly ordered (R235, R303). -/
def writable (s : State) (va : Word) (e : TlbEntry) : Bool := s.maps va e && e.w && e.ord ≠ 0

/-- An atomic of an order at an address of a page performs (R311): a release, and one on an SO page (R303), once every
earlier access is over. -/
def atomicable (s : State) (va : Word) (o : BitVec 2) (e : TlbEntry) : Bool :=
  let line := e.physical va.toNat / 128 * 128
  s.maps va e && e.r && e.w && s.upsets.isEmpty && !(s.globalFor s.cur).bad line 128
    && ((s.touchDie line 128).drainAll s.cur).keyed e.key line 128
    && s.dieAwake line 128 && (if releases o || e.ord == 0 then s.mayPublish else s.mayRelease)

/-- A vector register is bound to no stream (R190). -/
def unbound (s : State) (r : BitVec 5) : Bool := (s.streamOf r).isNone

/-- No vector register is bound to a stream. -/
def streamless (s : State) : Bool := s.me.regs.streams.all (·.isNone)

/-- A bank serves accesses (R350). -/
def awake (s : State) (b : Bank) : Bool :=
  match s.banks.find b with | none | some .active => true | _ => false

/-- A plain access to n bytes of a typed buffer or of cluster memory goes through (R235, R274, R350). -/
def localReady (s : State) (space : BitVec 3) (off n : Nat) : Bool :=
  (s.banksOf space [off, off + n - 1]).all s.awake
    && !(space == 4 && s.myCore.sliceBusy s.now (hartSlot s.cur) off (off + n))

/-- Some places of global memory have been accessed in this cycle (R350). -/
def touchedAt (s : State) (places : List Nat) (n : Nat) : State := places.foldl (fun s a => s.touchDie a n) s

/-- The banks of some offsets have been accessed in this cycle (R350). -/
def touched (s : State) (space : BitVec 3) (offs : List Nat) : State := (s.banksOf space offs).foldl touch s

/-- The memory that the hart reads in a space of codes 1 to 5 (R41, R210). -/
def localMem (s : State) (space : BitVec 3) : Mem :=
  if space = 1 then s.clusterFor s.cur (hartCluster s.cur) else s.myCore.buffer space

/-- No command or stream of the task and no matrix work of its slot holds a view operation back (R230, R276). -/
def orderFree (s : State) : Bool := s.me.queue.isEmpty && s.streamless

end State

/-! ### Elements of a view -/

/-- The code of a view's element that lies at a place of a memory (R164, R238). -/
def View.codeIn (v : View) (m : Mem) (a : Nat) (high : Bool) : Nat :=
  if v.packed then (if high then (m.byte a).toNat / 16 else (m.byte a).toNat % 16) else m.nat a v.elemBytes

/-- A memory in which a code has been written at a place (R164, R238). -/
def View.putIn (v : View) (m : Mem) (a : Nat) (high : Bool) (x : Nat) : Mem :=
  if v.packed then m.store [(a, State.nibbleInto (m.byte a) high x)] else m.store (bytesAt a (leBytes v.elemBytes x))

namespace State

/-- The memory that the hart sees in a space. -/
def seen (s : State) (space : BitVec 3) : Mem := if space = 0 then s.globalFor s.cur else s.localMem space

/-- Where an element lies in its space's memory, by the entry that maps its page in global space. -/
def elementPlace (v : View) (l : Nat) (e : TlbEntry) : Nat :=
  if v.space = 0 then e.physical (BitVec.ofInt 64 (v.elementAt l).1).toNat else (v.elementAt l).1.toNat

/-- The hart can read, or store, an element through a view (R218, R238). -/
def elementReady (s : State) (v : View) (l : Nat) (e : TlbEntry) (store : Bool) : Bool :=
  let a := (v.elementAt l).1
  let n := v.elemBytes
  if v.space = 0 then
    let va := BitVec.ofInt 64 a
    va.toNat % n == 0 && pageAgrees v e && (if store then s.writable va e else s.readable va n e)
  else s.elementOk v.space a n && s.localReady v.space a.toNat n && (store || !(s.localMem v.space).bad a.toNat n)

/-- Elements have been read through a view in order, in global space by the entries that map their pages (R350). -/
def touchedBy (s : State) (v : View) (page : Nat → TlbEntry) (ls : List Nat) : State :=
  if v.space = 0 then s.touchedAt (ls.map fun l => elementPlace v l (page l)) v.elemBytes
  else ls.foldl (fun s l =>
    let a := (v.elementAt l).1.toNat
    s.touched v.space [a, a + v.elemBytes - 1]) s

/-- The view lets the hart access it by a TYPE (R238): open or wide, of that TYPE, and not read-only for a store. -/
def viewReady (s : State) (v : View) (ty : BitVec 4) (store : Bool) : Bool :=
  v.live && v.ty == ty && (!store || v.mode != 1) && s.orderFree

/-- Nothing but the executing hart has changed. -/
def onlySelf (s t : State) : Prop := { t with harts := s.harts } = s ∧ ∀ j, j ≠ s.cur → t.hart j = s.hart j

/-- Code integrity lets the executing hart fetch at an address: it lies in no object's image, or its page has passed where
the image is native and no revocation of it has reached the core (R82, R83). -/
def codeClear (s : State) (va : Word) : Bool :=
  match (if isSlot s.cur then s.objectAt va else none) with
  | none => true
  | some o => !(o.native && !o.passed.contains ((va.toNat - o.base.toNat) / 65536))
      && !(o.revoked && s.myCore.notices.contains o.handle)

/-- The executing hart fetches a word at an address: its page is executable and covers it, its line is without poison, its
bytes are under the page's key (R219), and the line is in the instruction cache of a slot's core (R129), or comes through banks that
are active (R350). -/
def fetches (s : State) (va : Word) (e : TlbEntry) (w : Nat) : Bool :=
  s.codeClear va && s.maps va e && e.x && s.upsets.isEmpty && !s.mem.bad (e.physical va.toNat / 128 * 128) 128
    && (if isSlot s.cur then s.myCore.icache.contains (s.asidOf s.cur, va.toNat / 128)
        else s.dieAwake (e.physical va.toNat / 128 * 128) 128)
    && s.keyed e.key (e.physical va.toNat) 8 && s.mem.nat (e.physical va.toNat) 8 == w

/-- A vector instruction has written its register (R130, R187, R188): g gives each element's code and flags, of which the
active elements take theirs; a long-latency one leaves them to land. -/
def vectorResult (s : State) (f : FmtA) (w : Nat) (long : Option Nat) (g : Nat → Nat × Flags) : State :=
  let k := s.getK f.c
  let x := merge w k (s.me.regs.getV f.d) fun e => (g e).1
  let fl := flagsUnless f.nf (((List.range (512 / w)).filter (active w k)).map fun e => (laneOf w e, (g e).2))
  (match long with
    | none => (s.setV f.d x).addFlags fl
    | some n => s.later f.la n [.v f.d.toNat x] fl (!f.nf)).advance

/-! ### What a step adds around an instruction -/

/-- The state in which a hart is the executing one. -/
def on (s : State) (id : HartId) : State := { s with cur := id }

/-- Where an earlier region of a hart has ended, the next begins at its pc (R137, R140). -/
def begun (s : State) (id : HartId) : State := s.modHart id Hart.inRegion

/-- A hart has fetched the word at its pc by an entry: firmware, which has no instruction cache, passes through the die cache
(R129, R350). -/
def fetched (s : State) (id : HartId) (e : TlbEntry) : State :=
  if isSlot id then s else s.touchDie (e.physical (s.hart id).pc.toNat / 128 * 128) 128

/-- Before an instruction issues at a hart: the hart executes, waits for nothing, and notes the word (R321). -/
def issuing (s : State) (id : HartId) (w : Nat) : State :=
  (s.on id).modMe fun h => { h with wait := none, insn := BitVec.ofNat 64 w }

/-- The same with the word in the block that the signature checker follows at a slot, where its page has block signatures
(R358). -/
def issuingIn (s : State) (id : HartId) (w : Nat) (signed : Bool) : State :=
  let b := (s.on id).nextBlock w
  if signed && isSlot id then (s.issuing id w).modMe fun h => { h with block := if b.2 then none else some b.1 } else s.issuing id w

/-- After an instruction issued from a slot: the core's scheduling registers count it (R126), the cycle ends at its four
slots (R134, R143), and the turn passes on (log entry 1). -/
def cycleEnd (s : State) (c n : Nat) : State :=
  (((List.range 4).map (HartId.slot c ·)).foldl State.endCycle (s.setCore c ((s.core c).issued n))).passTurn

end State

/-- A hart that has something to issue, with no result outstanding, no word that waits, no repetition, no trap that it owes, and its
watchdog below the limit (R125, R126, R131, R143, R154). -/
def Hart.atRest (h : Hart) (id : HartId) : Bool :=
  h.ready id && h.pend.isEmpty && h.word.isNone && h.regs.rep.isNone && h.verdict.isNone && !h.watchdogDue

end Sys2Proof.Machine
end

