-- ==== Sys2Proof/Certificates/Slice0/Obligations.lean ====
section
/-! DEFINITION. The statements: what the rules of the manual say of words, steps, instructions, events and the machine. -/

open Sys2Proof Sys2Proof.Machine

/-! ### Words (02, 03) -/

/-- Words that the manual works out by hand decode to the instructions they stand for (01, 02, 06, 08, 09, 10, 03). -/
def Obligations.WorkedWordsDecode : Prop :=
  decodeRonid 0x000000001900041D = .ok (.li
    { la := 0, nf := false, gd := 0, imm := 50, b := 0, a := 0, d := 4 }) ∧
  decodeRonid 0x007FFFFFFF8C2102 = .ok (.addi
    { la := 0, nf := false, gd := 0, imm := 0xFFFFFFFF, b := 3, a := 1, d := 1 }) ∧
  decodeRonid 0x2000000300148604 = .ok (.mul
    { la := 2, nf := false, gd := 0, order := 0, scope := 0, sat := false, rnd := 0, ty := 3, fn := 0, c := 0,
      b := 5, a := 4, d := 6 }) ∧
  decodeRonid 0x0000000310002136 = .ok (.gset
    { la := 0, nf := false, gd := 0, order := 0, scope := 0, sat := false, rnd := 0, ty := 3, fn := 1, c := 0,
      b := 0, a := 1, d := 1 }) ∧
  decodeRonid 0x2023000030004440 = .ok (.ld
    { la := 2, nf := false, gd := 0, order := 0, scope := 4, size := 3, offs := 0, ty := 3, c := 0, b := 0,
      a := 2, d := 4 }) ∧
  decodeRonid 0x0022000C20144041 = .ok (.st
    { la := 0, nf := false, gd := 0, order := 0, scope := 4, size := 2, offs := 12, ty := 2, c := 0, b := 5,
      a := 2, d := 0 }) ∧
  decodeRonid 0x000000092008216F = .ok (.vcmp
    { la := 0, nf := false, gd := 0, order := 0, scope := 0, sat := false, rnd := 0, ty := 9, fn := 2, c := 0,
      b := 2, a := 1, d := 1 }) ∧
  decodeRonid 0x00010040000001A1 = .ok (.wopen
    { la := 0, nf := false, gd := 0, b8 := 0, mode := 1, space := 0, imm := 4, ty := 0, fn := 0, c := 0,
      b := 0, a := 0, d := 1 }) ∧
  decodeRonid 0x0015A000000022B0 = .ok (.cpy
    { la := 0, nf := false, gd := 0, tag := 5, split := 3, mbx := false, scope := 4, fn := 0, c := 0, b := 0,
      a := 1, d := 2 }) ∧
  decodeMilestone 0xFFFC0CC5 = .ok (.msAddi { imm := 0x3FFF, b := 0, a := 3, d := 3 }) ∧
  decodeMilestone 0x00001954 = .ok (.msWay { imm := 0, b := 0, a := 6, d := 5 }) ∧
  decodeRonid 0 = .error .unassignedOpcode

/-- R18, R20, R25 to R32, R50, R71: a well-formed instruction, of every row of both sets and with every value of its fields,
is what its bytes decode to, whatever bytes follow. -/
def Obligations.BytesOfAnInstructionDecodeToIt : Prop :=
  ∀ (i : Instr) (w : Nat) (rest : List Byte), i.wf = true →
    (encodeRonid i = some w → decode (leBytes 8 w ++ rest) = .ok (i, rest)) ∧
    (encodeMilestone i = some w → decodeMilestoneBytes (leBytes 4 w ++ rest) = .ok (i, rest))

/-- R20 check 2, R25 to R32, R71: a word that decodes is the word of the instruction it decodes to, so that every bit of it
is a field's or is reserved and zero; and every field of the instruction holds a value that it accepts. -/
def Obligations.EveryBitOfAWordCounts : Prop :=
  (∀ (w : Nat) (i : Instr), w < 2 ^ 64 → decodeRonid w = .ok i → i.wf = true ∧ encodeRonid i = some w) ∧
  (∀ (w : Nat) (i : Instr), w < 2 ^ 32 → decodeMilestone w = .ok i → i.wf = true ∧ encodeMilestone i = some w)

/-- R50: the map assigns 146 opcodes, and a word of any of the other 110 is refused as unassigned; a word of an assigned
one is not. -/
def Obligations.TheMapAssigns146Opcodes : Prop :=
  let assigned (op : Nat) : Bool :=
    (0x01 ≤ op && op ≤ 0x1F) || (0x30 ≤ op && op ≤ 0x3B) || (0x40 ≤ op && op ≤ 0x47) || (0x50 ≤ op && op ≤ 0x55)
      || (0x60 ≤ op && op ≤ 0x89) || (0x90 ≤ op && op ≤ 0x9B) || (0xA0 ≤ op && op ≤ 0xA7) || (0xB0 ≤ op && op ≤ 0xB7)
      || (0xC0 ≤ op && op ≤ 0xC6) || (0xD0 ≤ op && op ≤ 0xDB)
  ((List.range 256).filter assigned).length = 146 ∧
  ∀ w : Nat, decodeRonid w = .error .unassignedOpcode ↔ assigned (w % 256) = false

/-! ### A step (06) -/

/-- A step at a compute core issues the word at the pc of the first ready slot in the core's order (R126, R129): what the
instruction does there when it does not wait, and after it the end of the core's cycle. A word that is no instruction is the
illegal-instruction trap instead (R20). The same at a TSC and at a system core, whose unresolved guards then resolve as they
come due (R129, R134, R294). R137 to R140: where an earlier region has ended, the next begins as its first word issues, once every
earlier instruction but the one that ended it has completed: `regionpc` is noted, the registers, the count and the block are the
checkpoint, and earlier stores and commands are no longer of the current region; a word in the midst of a region begins none. R358: a
word that ends a block of which some word differs, as a signature sees it, from the one that was admitted takes the signature-mismatch
trap instead. R72, R76: a step at a running Clearing, unless its TSC has a miss to serve first, counts a unit and runs the instruction
at its ip. Model's choice: log entry 1 (an event of the agenda comes before any turn) and log entries 38, 95 and 99. -/
def Obligations.StepRunsTheWordAtThePc : Prop :=
  (∀ (s : State) (c n w : Nat) (e : TlbEntry) (first rest : List Nat),
     s.agenda = [] → s.turn = .core c → c < 3328 →
     slotOrder (s.core c).cur (s.core c).run = first ++ n :: rest →
     (∀ m ∈ first, (s.hart (.slot c m)).ready (.slot c m) = false) →
     (s.hart (.slot c n)).atRest (.slot c n) = true →
     let u := s.begun (.slot c n)
     (u.on (.slot c n)).fetches (s.hart (.slot c n)).pc e w = true →
     let b := (u.on (.slot c n)).nextBlock w
     ((e.sig && b.2 && b.1.differs) = false →
       (∀ i t, decodeRonid w = .ok i → (s.reducedService && fullOnly i) = false →
         exec i (u.issuingIn (.slot c n) w e.sig) = .next t → t.waits (.slot c n) = false → step s = .next (t.cycleEnd c n)) ∧
       (∀ r, decodeRonid w = .error r →
         (((u.issuingIn (.slot c n) w e.sig).raise .illegal).waits (.slot c n) = false →
           step s = .next (((u.issuingIn (.slot c n) w e.sig).raise .illegal).cycleEnd c n)))) ∧
     ((e.sig && b.2 && b.1.differs) = true → (∀ m < 4, (u.issuing (.slot c n) w).mayPark (.slot c m) = true) →
       ((u.issuing (.slot c n) w).mismatch (.slot c n) b.1.first).waits (.slot c n) = false →
       step s = .next (((u.issuing (.slot c n) w).mismatch (.slot c n) b.1.first).cycleEnd c n))) ∧
  (∀ (s : State) (id : HartId) (w : Nat) (e : TlbEntry), s.agenda = [] → isSlot id = false → id.ok = true →
     s.turn = (match id with | .tsc k => .tsc k | .sys d n => .sys d n | .slot c _ => .core c) →
     (s.hart id).atRest id = true → (s.hart id).task = none →
     ((s.begun id).on id).fetches (s.hart id).pc e w = true →
     let u := (s.begun id).fetched id e
     (∀ i t, decodeRonid w = .ok i → (s.reducedService && fullOnly i) = false →
       exec i (u.issuing id w) = .next t → t.waits id = false → step s = .next (t.resolveGuards id t.now).passTurn) ∧
     (∀ r, decodeRonid w = .error r →
       step s = .next (((u.issuing id w).raise .illegal).resolveGuards id s.now).passTurn)) ∧
  (∀ (s : State) (id : HartId),
     let h := s.hart id
     let h' := (s.begun id).hart id
     (h.boundary = false → h' = h) ∧
     (h.boundary = true →
       h'.boundary = false ∧ h'.pc = h.pc ∧ h'.regs = h.regs ∧ h'.wd = h.wd ∧
       h'.regionpc = h.pc ∧ h'.checkpoint = h.regs ∧ h'.checkWd = h.wd ∧ h'.checkBlock = h.block ∧ h'.checkPend = h'.pend ∧
       h'.stores = h.stores.map (fun st => { st with fresh := false }) ∧
       h'.queue = h.queue.map (fun c => { c with fresh := false }) ∧
       h'.pend = h.pend.map (fun p => { p with performed := false })) ∧
     (∀ j ≠ id, (s.begun id).hart j = s.hart j)) ∧
  (∀ (s : State) (id : HartId), (s.hart id).verdict = none → (s.hart id).boundary = true →
     (∀ p ∈ (s.hart id).pend, p.complete s.now = false) → (∃ p ∈ (s.hart id).pend, p.performed = false) →
     attempt exec id s = .next ((s.on id).modMe fun h => { h with wait := some .boundary })) ∧
  (∀ (s t : State) (k : Nat) (c : Clearing) (i : Instr), s.agenda = [] → s.upsets = [] → s.turn = .clearing k → s.clearings.find k = some c →
    c.running = true → c.yields s = false → c.units < c.budget → c.ip.toNat + 4 ≤ c.pathfinder.length →
    decodeMilestone (leNat ((c.pathfinder.drop c.ip.toNat).take 4)) = .ok i →
    exec i { s with clearing := k, clearings := s.clearings.set k { c with units := c.units + 1 } } = .next t →
    step s = .next t.passTurn) ∧
  (∀ (s : State) (i : Instr) (rest : List Instr), s.agenda = i :: rest → i.isEvent = true →
    step s = exec i { s with agenda := rest })

/-! ### Scalar instructions and guards (06) -/

/-- R144, R145, R146, R130: each scalar integer instruction of an integer TYPE gives the result of R146's table, exact, then
clamped where SAT says so, then reduced to the width and extended by the signedness; the long-latency ones after their
cycles. -/
def Obligations.ScalarArithmeticFollowsR146 : Prop :=
  ∀ (f : FmtA) (s : State), s.runs f.gd = true → tyInt f.ty = true →
    let w := tyWidth f.ty
    let sg := tySigned f.ty
    let low (r : BitVec 5) : BitVec w := (s.getS r).setWidth w
    let value (x : BitVec w) : Int := if sg then x.toInt else x.toNat
    let a := value (low f.a)
    let b := value (low f.b)
    let sh := (low f.b).toNat % w
    let clamped (x : Int) : Int :=
      if f.sat then (if sg then max (-(2 ^ (w - 1))) (min x (2 ^ (w - 1) - 1)) else max 0 (min x (2 ^ w - 1))) else x
    let fit (x : Int) : Word := if sg then (BitVec.ofInt w x).signExtend 64 else (BitVec.ofInt w x).setWidth 64
    let raw (x : BitVec w) : Word := if sg then x.signExtend 64 else x.setWidth 64
    let now (x : Word) : Out := .next (s.setS f.d x).advance
    let late (n : Nat) (x : Word) : Out := .next (s.later f.la n (if f.d = 0 then [] else [.s f.d.toNat x]) (0, 0)).advance
    let n := if w ≤ 16 then 12 else if w = 32 then 20 else 36
    exec (.add f) s = now (fit (clamped (a + b))) ∧ exec (.sub f) s = now (fit (clamped (a - b))) ∧
    exec (.mul f) s = late 4 (fit (clamped (a * b))) ∧
    (f.sat = false →
      exec (.mulh f) s = late 4 (fit ((a * b) / 2 ^ w)) ∧
      exec (.div f) s = late n (fit (if b = 0 then (if sg then -1 else 2 ^ w - 1) else a.tdiv b)) ∧
      exec (.rem f) s = late n (fit (if b = 0 then a else a.tmod b)) ∧
      exec (.and f) s = now (raw (low f.a &&& low f.b)) ∧ exec (.or f) s = now (raw (low f.a ||| low f.b)) ∧
      exec (.xor f) s = now (raw (low f.a ^^^ low f.b)) ∧ exec (.shl f) s = now (raw (low f.a <<< sh)) ∧
      (sg = false → exec (.shr f) s = now (raw (low f.a >>> sh))) ∧
      (sg = true → exec (.sra f) s = now (raw ((low f.a).sshiftRight sh))) ∧
      exec (.min f) s = now (fit (min a b)) ∧ exec (.max f) s = now (fit (max a b)) ∧
      (∃ k : Nat, exec (.clz f) s = now (fit k) ∧ k ≤ w ∧ (low f.a).toNat < 2 ^ (w - k) ∧
        (k < w → 2 ^ (w - k - 1) ≤ (low f.a).toNat)) ∧
      (∃ k : Nat, exec (.ctz f) s = now (fit k) ∧ k ≤ w ∧ (∀ j < k, (low f.a).getLsbD j = false) ∧
        (k < w → (low f.a).getLsbD k = true)) ∧
      exec (.popc f) s = now (fit ((List.range w).countP fun j => (low f.a).getLsbD j)))

/-- R144, R145, R146: the typed immediate forms, whose right operand is the sign-extended IMM32, a shift's the amount.
R37, R147 to R150: comparison by each of the conditions, selection, bit fields and constants. -/
def Obligations.ScalarImmediatesAndFields : Prop :=
  (∀ (f : FmtI) (s : State), s.runs f.gd = true → tyInt f.ty = true →
     let w := tyWidth f.ty
     let sg := tySigned f.ty
     let a : BitVec w := (s.getS f.a).setWidth w
     let imm : BitVec w := (f.imm.signExtend 64).setWidth w
     let raw (x : BitVec w) : Word := if sg then x.signExtend 64 else x.setWidth 64
     let now (x : BitVec w) : Out := .next (s.setS f.d (raw x)).advance
     exec (.addi f) s = now (a + imm) ∧ exec (.andi f) s = now (a &&& imm) ∧ exec (.ori f) s = now (a ||| imm) ∧
     exec (.xori f) s = now (a ^^^ imm) ∧
     (f.imm.toNat < w → exec (.shli f) s = now (a <<< f.imm.toNat) ∧
       (sg = false → exec (.shri f) s = now (a >>> f.imm.toNat)) ∧
       (sg = true → exec (.srai f) s = now (a.sshiftRight f.imm.toNat)))) ∧
  (∀ (f : FmtA) (s : State), s.runs f.gd = true →
    let now (x : Word) : Out := .next (s.setS f.d x).advance
    let holds (less greater unordered : Bool) : Bool := match f.fn.toNat with
      | 0 => !(less || greater || unordered) | 1 => less || greater || unordered | 2 => less | 3 => !greater && !unordered
      | 4 => greater | 5 => !less && !unordered | 6 => unordered | 7 => !unordered | _ => false
    (tyInt f.ty = true →
      let value (x : Word) : Int := if tySigned f.ty then (x.setWidth (tyWidth f.ty)).toInt else (x.setWidth (tyWidth f.ty)).toNat
      let a := value (s.getS f.a)
      let b := value (s.getS f.b)
      exec (.cset f) s = now (if holds (a < b) (b < a) false then 1 else 0)) ∧
    (tyIeee f.ty = true →
      let value (x : Word) := (NumFmt.ofTy f.ty 0).value (x.toNat % 2 ^ tyWidth f.ty)
      let less (x y : Machine.Num) : Bool := match x, y with
        | .fin n m e, .fin n' m' e' => scaled n m e (min e e') < scaled n' m' e' (min e e')
        | .inf n, .inf n' => n && !n'
        | .inf n, .fin _ _ _ => n
        | .fin _ _ _, .inf n => !n
        | _, _ => false
      let a := value (s.getS f.a)
      let b := value (s.getS f.b)
      exec (.cset f) s = now (if holds (less a b) (less b a) (anyNan [a, b]) then 1 else 0)) ∧
    exec (.csel f) s = now (if s.getS f.c = 0 then s.getS f.b else s.getS f.a) ∧
    (let lsb := ((s.getS f.b).extractLsb' 0 6).toNat
     let w := ((s.getS f.b).extractLsb' 8 6).toNat + 1
     let m : Word := BitVec.ofNat 64 ((2 ^ w - 1) <<< lsb)
     let x : BitVec w := (s.getS f.a >>> lsb).setWidth w
     exec (.bext f) s = now (if f.fn = 1 then x.signExtend 64 else x.setWidth 64) ∧
     exec (.bins f) s = now ((s.getS f.d &&& ~~~m) ||| (s.getS f.a <<< lsb &&& m)))) ∧
  (∀ (f : FmtI) (s : State), s.runs f.gd = true →
    let now (x : Word) : Out := .next (s.setS f.d x).advance
    exec (.li f) s = now (f.imm.signExtend 64) ∧
    exec (.lih f) s = now (f.imm ++ (s.getS f.d).extractLsb' 0 32) ∧
    exec (.addpc f) s = now (s.me.pc + f.imm.signExtend 64))


/-- R42, R43: the scalar, mask and guard registers that are fixed discard writes and read as they are fixed; any other
register reads what was written to it, and a write changes no other. -/
def Obligations.FixedRegistersDiscardWrites : Prop :=
  ∀ (s : State),
    (∀ x, s.getS 0 = 0 ∧ s.setS 0 x = s.modMe fun h => h) ∧ (∀ x, s.getK 0 = 0xFFFF ∧ s.setK 0 x = s.modMe fun h => h) ∧
    (∀ d x n, (s.setS d x).getS n = if n = d ∧ d ≠ 0 then x else s.getS n) ∧
    (∀ (d n : BitVec 3) x, (s.me.regs.setK d x).getK n = if n = d ∧ d ≠ 0 then x else s.me.regs.getK n) ∧
    s.me.regs.guard 0 = true ∧ (∀ x, s.me.regs.setG 0 x = s.me.regs) ∧
    (∀ (d n : BitVec 3) x, (s.me.regs.setG d x).guard n = if n = d ∧ d ≠ 0 then x else s.me.regs.guard n)

/-- R134, R147, R155: `gset` and `gclr` complete: each leaves its guard as it is and unresolved with the value to come; it
resolves at the end of the next cycle, and of several writes that are due the last one's value stays (that an instruction under
an unresolved guard waits is a statement of its own). -/
def Obligations.GuardWritesResolveNextCycle : Prop :=
  (∀ (f : FmtA) (s : State), s.runs f.gd = true →
    let wrote (x : Bool) : State :=
      (s.modMe fun h => { h with unres := h.unres ++ [{ guard := f.d.toNat, value := x, issued := s.now }] }).advance
    let newest : Bool := ((s.me.unres.reverse.find? (·.guard == f.d.toNat)).map (·.value)).getD (s.me.regs.guard (f.d.setWidth 3))
    exec (.gset f) s = .next (wrote (compareBy f.fn f.ty (s.getS f.a).toNat (s.getS f.b).toNat)) ∧
    exec (.gclr f) s = .next (wrote (if f.fn = 0 then false else if f.fn = 1 then true else !newest))) ∧
  (∀ (s : State) (h : HartId) (d : BitVec 3) (x : Bool) (t : Nat), d ≠ 0 → (s.hart h).queue = [] →
    (s.hart h).unres = [{ guard := d.toNat, value := x, issued := t }] →
    (t < s.now → ∃ u, exec (.guardResolve h) s = .next u ∧ (u.hart h).unres = [] ∧ (u.hart h).regs = (s.hart h).regs.setG d x) ∧
    (s.now ≤ t → ∃ u, exec (.guardResolve h) s = .next u ∧ (u.hart h).unres = (s.hart h).unres ∧
      (u.hart h).regs = (s.hart h).regs)) ∧
  (∀ (s : State) (h : HartId), (s.hart h).queue = [] → ∃ u, exec (.guardResolve h) s = .next u ∧
    (∀ x, x ∈ (u.hart h).unres ↔ x ∈ (s.hart h).unres ∧ s.now ≤ x.issued) ∧
    ∀ d : BitVec 3, d ≠ 0 → (∀ x ∈ (s.hart h).unres, x.guard < 8) →
      (u.hart h).regs.guard d = ((((s.hart h).unres.filter fun x => x.guard == d.toNat && x.issued < s.now).getLast?.map
        (·.value)).getD ((s.hart h).regs.guard d)))

/-! ### Control (06) -/

/-- R27, R28, R151, R152, R156: the control transfers, whose target is the address + 8 + 8 x OFFS24 or a register; a target
that is no multiple of 8 is the alignment trap; `jmp` and `rgn` end the region; `nop` has no effect. -/
def Obligations.ControlTransfers : Prop :=
  (∀ (f : FmtB) (s : State), s.runs f.gd = true →
    let t := s.me.pc + 8 + 8 * f.offs.signExtend 64
    exec (.br f) s = .next (s.modMe fun h => { h with pc := t }) ∧
    exec (.jmp f) s = .next (s.modMe fun h => { h with pc := t, boundary := true }) ∧
    (t.toNat % 8 = 0 → exec (.call f) s = .next ((s.setS f.d (s.me.pc + 8)).modMe fun h => { h with pc := t })) ∧
    (t.toNat % 8 ≠ 0 → exec (.call f) s = .next (s.trap { cls := .alignment, addr := t }))) ∧
  (∀ (f : FmtA) (s : State), s.runs f.gd = true →
    let t := s.getS f.a
    (t.toNat % 8 = 0 →
      exec (.jr f) s = .next (s.modMe fun h => { h with pc := t }) ∧
      exec (.callr f) s = .next ((s.setS f.d (s.me.pc + 8)).modMe fun h => { h with pc := t })) ∧
    (t.toNat % 8 ≠ 0 →
      exec (.jr f) s = .next (s.trap { cls := .alignment, addr := t }) ∧
      exec (.callr f) s = .next (s.trap { cls := .alignment, addr := t })) ∧
    exec (.nop f) s = .next s.advance ∧
    exec (.rgn f) s = .next (s.modMe fun h => { h with boundary := true }).advance)

/-- R153, R154: a `rep` whose body words are fetched and may be repeated enters its body with the repetition state, or skips
it for a count of 0; with a word that may not be repeated it is the illegal-instruction trap. In the body the next word
follows, then the first of the next pass, then the word after the body. Each body word issues with every field that names a vector
register moved by pass × STRIDE, and no other field; where that is no instruction (a stream bound below v24) it is the
illegal-instruction trap. -/
def Obligations.RepetitionRunsItsPasses : Prop :=
  (∀ (f : FmtI) (s : State) (words : List Nat) (pages : List TlbEntry), s.runs f.gd = true → f.imm.toNat < 2 ^ 9 →
    let len := f.imm.toNat % 16 + 1
    let pc := s.me.pc
    words.length = len → pages.length = len →
    (∀ e ∈ (words.zip pages).zipIdx, s.fetches (pc + 8 + BitVec.ofNat 64 (8 * e.2)) e.1.2 e.1.1 = true) →
    (words.all (repeatable s.reducedService) = true → (s.getS f.a).toNat = 0 →
      exec (.rep f) s = .next (s.modMe fun h => { h with pc := pc + 8 + BitVec.ofNat 64 (8 * len) })) ∧
    (words.all (repeatable s.reducedService) = true → (s.getS f.a).toNat ≠ 0 →
      exec (.rep f) s = .next (s.modMe fun h =>
        { h with pc := pc + 8, regs := { h.regs with rep := some { n := (s.getS f.a).toNat, len, stride := f.imm.toNat / 16, addr := pc,
                                                                        words := words.zip (pages.map (·.sig)) } } })) ∧
    (words.all (repeatable s.reducedService) = false → exec (.rep f) s = .next (s.raise .illegal))) ∧
  (∀ (h : Hart) (r : Rep), h.regs.rep = some r →
    (r.j + 1 < r.len → h.advance.pc = h.pc + 8 ∧ h.advance.regs.rep = some { r with j := r.j + 1 }) ∧
    (r.len ≤ r.j + 1 → r.pass + 1 < r.n →
      h.advance.pc = r.addr + 8 ∧ h.advance.regs.rep = some { r with j := 0, pass := r.pass + 1 }) ∧
    (r.len ≤ r.j + 1 → r.n ≤ r.pass + 1 →
      h.advance.pc = r.addr + 8 + BitVec.ofNat 64 (8 * r.len) ∧ h.advance.regs.rep = none)) ∧
  (∀ (s : State) (r : Rep) (w : Nat) (i : Instr), s.me.regs.rep = some r → r.words[r.j]? = some (w, false) → s.me.word = none →
    s.noticed s.me.pc = false → s.upsets = [] → s.me.pend = [] → decodeRonid w = .ok i → (s.reducedService && fullOnly i) = false →
    let u := s.modMe fun h => { h with insn := BitVec.ofNat 64 w }
    let j := renameV (r.stride * r.pass) i
    (j.wf = true → ∀ t, exec j u = .next t → t.waits s.cur = false → fetchAndRun exec s = .next t) ∧
    (j.wf = false → fetchAndRun exec s = .next (u.raise .illegal))) ∧
  (∀ (n : Nat) (f : FmtA),
    let v (r : BitVec 5) : BitVec 5 := r + BitVec.ofNat 5 n
    let dab := { f with d := v f.d, a := v f.a, b := v f.b }
    let da := { f with d := v f.d, a := v f.a }
    (∀ g ∈ [Instr.vadd, .vsub, .vmul, .vfma, .vfms, .vmin, .vmax, .vand, .vor, .vxor, .vshl, .vshr, .vsra, .vsel, .vperm, .vperm2,
       .vdiv, .vdot], renameV n (g f) = g dab) ∧
    (∀ g ∈ [Instr.vabs, .vneg, .vmov, .vclass, .vcvt, .vred, .vscan, .vrcp, .vrsqrt, .vexp2, .vlog2, .vsqrt],
       renameV n (g f) = g da) ∧
    renameV n (.vcmp f) = .vcmp { f with a := v f.a, b := v f.b } ∧ renameV n (.vext f) = .vext { f with a := v f.a } ∧
    (∀ g ∈ [Instr.vbcast, .vins], renameV n (g f) = g { f with d := v f.d }) ∧
    ∀ g ∈ [Instr.add, .sub, .mul, .div, .rem, .cset, .csel, .gset, .gclr, .kop, .fence, .nop], renameV n (g f) = g f) ∧
  (∀ (n : Nat) (f : FmtM),
    let v (r : BitVec 5) : BitVec 5 := r + BitVec.ofNat 5 n
    (∀ g ∈ [Instr.vld, .vbld, .vwld], renameV n (g f) = g { f with d := v f.d }) ∧
    (∀ g ∈ [Instr.vst, .vbst, .vwst], renameV n (g f) = g { f with b := v f.b }) ∧
    (∀ g ∈ [Instr.vgath, .vscat], renameV n (g f) = g { f with d := v f.d, b := v f.b }) ∧
    ∀ g ∈ [Instr.ld, .st, .bld, .bst, .wld, .wst, .pf, .cln], renameV n (g f) = g f) ∧
  (∀ (n : Nat) (f : FmtT) (g : FmtW),
    renameV n (.cread f) = .cread { f with d := f.d + BitVec.ofNat 5 n } ∧
    (∀ i ∈ [Instr.wbind, .wunbind, .weos], renameV n (i g) = i { g with d := g.d + BitVec.ofNat 5 n }) ∧
    (∀ i ∈ [Instr.tld, .tst, .tzero, .mma, .mmg, .dmma, .tscl, .ttr], renameV n (i f) = i f) ∧
    ∀ i ∈ [Instr.wset, .wsetDim, .wsetScl, .wretire, .wtest], renameV n (i g) = i g)

/-- R113, R157: an inline `end` waits until every earlier instruction has completed, goes on with the next index of its range, with s8
set, or where the inline run returns, and ends the region; it counts nothing, and a result whose window is not over lands after it
(R131). R157, R118, R347: the outermost `end` of a task performs its stores and frees its
slot; without a counter its end is counted as normal at once, and with one once the decrement, which it leaves to be
performed, is over. Model's choice: log entry 69. -/
def Obligations.TheEndOfATask : Prop :=
  (∀ (f : FmtA) (s : State), s.runs f.gd = true → (∃ p ∈ s.me.pend, p.complete s.now = false) →
     exec (.taskEnd f) s = .next (s.stall .drain)) ∧
  (∀ (f : FmtA) (s : State) (e : Frame) (rest : List Frame), s.runs f.gd = true → (∀ p ∈ s.me.pend, p.complete s.now = true) →
     s.me.unres = [] → s.me.regs.inline = rest ++ [e] →
     (e.left = 0 → exec (.taskEnd f) s =
       .next (s.modMe fun h => { h with pc := e.ret, boundary := true, regs := { h.regs with inline := rest } })) ∧
     (e.left ≠ 0 → exec (.taskEnd f) s =
       .next (s.modMe fun h => { h with pc := e.target, boundary := true,
                                        regs := { (h.regs.setS 8 (BitVec.ofNat 64 e.index)) with
                                                  inline := rest ++ [{ e with index := e.index + 1, left := e.left - 1 }] } }))) ∧
  (∀ (f : FmtA) (s : State) (task : Task) (x : Launch), s.runs f.gd = true → s.me.pend = [] → s.me.unres = [] →
     s.me.regs.inline = [] → s.mayPublish = true → isSlot s.cur = true → s.me.task = some task →
     s.launch task.desc.part task.desc.launch = some x → x.normal + x.trapped + x.discarded + 1 < x.born →
     ∃ t, exec (.taskEnd f) s = .next t ∧ t.hart s.cur = {} ∧ t.mem = (s.drainAll s.cur).mem ∧
       (task.desc.counter = 0 → t.launch task.desc.part task.desc.launch = some { x with normal := x.normal + 1 }) ∧
       (task.desc.counter ≠ 0 → t.launch task.desc.part task.desc.launch = some x ∧
         ∃ d, (t.partition task.desc.part).decrements = (s.partition task.desc.part).decrements ++ [d] ∧
           d.desc = task.desc ∧ d.kind = .normal) ∧
       ((t.core (hartCore s.cur)).holds (hartSlot s.cur)) = false)


/-- R130 to R132: a long-latency result leaves its register as it was while instructions of its window are still to issue,
and the first instruction after the window waits for it; once its window is over and its cycles have passed it lands. A
later instruction's result for the register is the one that remains. -/
def Obligations.ResultsLandAfterTheirWindows : Prop :=
  (∀ (s : State) (p : Pending), s.me.pend = [p] →
    (0 < p.left → s.settle.me.regs = s.me.regs ∧ s.windowOver = .ok () s) ∧
    (p.left = 0 → p.complete s.now = false →
      s.settle.me.regs = s.me.regs ∧ s.windowOver = .stop (s.stall .window)) ∧
    (∀ n x, p.left = 0 → p.complete s.now = true → p.dests = [.s n x] →
      s.settle.me.pend = [] ∧ s.settle.me.regs = s.me.regs.setS (BitVec.ofNat 5 n) x)) ∧
  (∀ (s : State) (p q : Pending) (n : Nat) (x y : Word), s.me.pend = [p, q] → n ≠ 0 → n < 32 → p.dests = [.s n x] →
    q.dests = [.s n y] →
    (∀ first second, (first = 0 ∧ second = 0) ∨ (first = 1 ∧ second = 0) →
      ((s.land s.cur first).land s.cur second).getS (BitVec.ofNat 5 n) = y)) ∧
  (∀ (s : State) (h : HartId) (n : Nat) (x : Word) (p : Pending), (s.hart h).pend = [p] → p.left = 0 → p.dests = [.s n x] →
    p.complete s.now = true →
    ∃ t, exec (.longLatencyComplete h) s = .next t ∧ (t.hart h).pend = [] ∧
      (t.hart h).regs = (s.hart h).regs.setS (BitVec.ofNat 5 n) x)

/-! ### Vector instructions in registers and the arithmetic under them (07, 08) -/

/-- R186, R187, R193, R194: the vector instructions of an integer TYPE work element by element, exactly, then clamped under
SAT, then reduced; an inactive element keeps its value, and nothing else changes but the pc. -/
def Obligations.VectorIntegersWorkByElement : Prop :=
  ∀ (f : FmtA) (s : State), s.runs f.gd = true → s.unbound f.a = true → s.unbound f.b = true → s.unbound f.d = true →
    tyInt f.ty = true →
    let w := tyWidth f.ty
    let sg := tySigned f.ty
    let lane (r : BitVec 5) (e : Nat) : BitVec w := (s.me.regs.getV r).extractLsb' (w * e) w
    let a := lane f.a
    let b := lane f.b
    let value (x : BitVec w) : Int := if sg then x.toInt else x.toNat
    let clamped (x : Int) : BitVec w := .ofInt w
      (if f.sat then (if sg then max (-(2 ^ (w - 1))) (min x (2 ^ (w - 1) - 1)) else max 0 (min x (2 ^ w - 1))) else x)
    let writes (o : Out) (g : Nat → BitVec w) : Prop := ∃ x : BitVec 512, o = .next (s.setV f.d x).advance ∧
      ∀ e < 512 / w, x.extractLsb' (w * e) w = if (s.getK f.c).getLsbD (e * w / 32) then g e else lane f.d e
    writes (exec (.vadd f) s) (fun e => clamped (value (a e) + value (b e))) ∧
    writes (exec (.vsub f) s) (fun e => clamped (value (a e) - value (b e))) ∧
    writes (exec (.vmul f) s) (fun e => clamped (value (a e) * value (b e))) ∧
    writes (exec (.vmin f) s) (fun e => if value (b e) < value (a e) then b e else a e) ∧
    writes (exec (.vmax f) s) (fun e => if value (a e) < value (b e) then b e else a e) ∧
    writes (exec (.vshl f) s) (fun e => a e <<< ((b e).toNat % w)) ∧
    (sg = false → writes (exec (.vshr f) s) fun e => a e >>> ((b e).toNat % w)) ∧
    (sg = true → writes (exec (.vsra f) s) (fun e => (a e).sshiftRight ((b e).toNat % w)) ∧
      writes (exec (.vabs f) s) (fun e => if (a e).msb then -(a e) else a e) ∧ writes (exec (.vneg f) s) fun e => -(a e))

/-- R193, R196, R198: the bitwise forms and the moves and permutations of elements, whatever the elements mean. R199: the
mask operations by FN. -/
def Obligations.VectorsAndMasksMove : Prop :=
  (∀ (f : FmtA) (s : State), s.runs f.gd = true → s.unbound f.a = true → s.unbound f.b = true → s.unbound f.d = true →
     let lane (w : Nat) (r : BitVec 5) (e : Nat) : BitVec w := (s.me.regs.getV r).extractLsb' (w * e) w
     let writes (w : Nat) (o : Out) (g : Nat → BitVec w) : Prop := ∃ x : BitVec 512, o = .next (s.setV f.d x).advance ∧
       ∀ e < 512 / w, x.extractLsb' (w * e) w = if (s.getK f.c).getLsbD (e * w / 32) then g e else lane w f.d e
     let w := tyWidth f.ty
     writes 32 (exec (.vand f) s) (fun e => lane 32 f.a e &&& lane 32 f.b e) ∧
     writes 32 (exec (.vor f) s) (fun e => lane 32 f.a e ||| lane 32 f.b e) ∧
     writes 32 (exec (.vxor f) s) (fun e => lane 32 f.a e ^^^ lane 32 f.b e) ∧
     writes 32 (exec (.vmov f) s) (fun e => lane 32 f.a e) ∧
     (∃ x : BitVec 512, exec (.vsel f) s = .next (s.setV f.d x).advance ∧
       ∀ e < 16, x.extractLsb' (32 * e) 32 = if (s.getK f.c).getLsbD e then lane 32 f.a e else lane 32 f.b e) ∧
     (tyPlain f.ty = true →
       writes w (exec (.vperm f) s) (fun e => lane w f.a ((lane w f.b e).toNat % (512 / w))) ∧
       writes w (exec (.vperm2 f) s) (fun e =>
         let t := (lane w f.b e).toNat % (2 * (512 / w))
         if t < 512 / w then lane w f.a t else lane w f.d (t - 512 / w)) ∧
       writes w (exec (.vbcast f) s) (fun _ => (s.getS f.a).setWidth w) ∧
       (let x := lane w f.a ((s.getS f.b).toNat % (512 / w))
        exec (.vext f) s = .next (s.setS f.d (if tySigned f.ty then x.signExtend 64 else x.setWidth 64)).advance) ∧
       ∃ x : BitVec 512, exec (.vins f) s = .next (s.setV f.d x).advance ∧
         ∀ e < 512 / w, x.extractLsb' (w * e) w =
           if e = (s.getS f.b).toNat % (512 / w) then (s.getS f.a).setWidth w else lane w f.d e)) ∧
  (∀ (f : FmtA) (s : State), s.runs f.gd = true →
     let a := s.getK f.a
     let b := s.getK f.b
     let now (t : State) : Prop := exec (.kop f) s = .next t.advance
     (f.fn = 0 → now (s.setK f.d (a &&& b))) ∧ (f.fn = 1 → now (s.setK f.d (a ||| b))) ∧
     (f.fn = 2 → now (s.setK f.d (a ^^^ b))) ∧ (f.fn = 3 → now (s.setK f.d (a &&& ~~~b))) ∧
     (f.fn = 4 → now (s.setK f.d (~~~a))) ∧ (f.fn = 5 → now (s.setK f.d ((s.getS f.a).extractLsb' 0 16))) ∧
     (f.fn = 6 → now (s.setS f.d (a.setWidth 64))) ∧
     (f.fn = 7 → ∃ n, now (s.setS f.d n) ∧ n.toNat = (List.range 16).countP a.getLsbD) ∧
     (f.fn = 8 → ∃ n, now (s.setS f.d n) ∧ n.toNat ≤ 16 ∧ (∀ j < n.toNat, a.getLsbD j = false) ∧
       (n.toNat < 16 → a.getLsbD n.toNat = true)))


/-- R178 to R180, R188, R193, R194, R197, R203, R204: the vector instructions of a floating TYPE deliver one rounding of
an exact result in each active element, with that result's flags in the element's lane; the functions land after their
cycles. R180: the exact sum, product and fused sum of finite values are the integers' over a common power of two, an
exact sum of zero +0 but under RDN. R174, R178, R204: infinities, NaNs and invalid operations of sums, products, quotients and
functions give the table's values and flags; a quotient, a square root and a reciprocal one are carried to more bits than any
format has, with a mark for what is left over; a power of two and a logarithm are exact where they can be, lie above their floors
else, and take four known codes. R197: a class is the bit of its table. What one rounding is, another statement says. Model's choice: log entry 71. -/
def Obligations.VectorFloatsRoundOnce : Prop :=
  (∀ (f : FmtA) (s : State), s.runs f.gd = true → s.unbound f.a = true → s.unbound f.b = true → s.unbound f.d = true →
    tyIeee f.ty = true →
    let t := NumFmt.ofTy f.ty 0
    let md := s.mode f.rnd
    let w := tyWidth f.ty
    let code (r : BitVec 5) (e : Nat) : Nat := ((s.me.regs.getV r).extractLsb' (w * e) w).toNat
    let a (e : Nat) := t.value (code f.a e)
    let b (e : Nat) := t.value (code f.b e)
    let d (e : Nat) := t.value (code f.d e)
    let now (g : Nat → Nat × Flags) : Out := .next (s.vectorResult f w none g)
    let late (n : Nat) (g : Nat → Nat × Flags) : Out := .next (s.vectorResult f w (some n) g)
    exec (.vadd f) s = now (fun e => t.deliver md f.sat (exactAdd md (a e) (b e))) ∧
    exec (.vsub f) s = now (fun e => t.deliver md f.sat (exactAdd md (a e) (b e).neg)) ∧
    exec (.vmul f) s = now (fun e => t.deliver md f.sat (exactMul (a e) (b e))) ∧
    exec (.vfma f) s = now (fun e => t.deliver md f.sat (exactFma md (a e) (b e) (d e))) ∧
    exec (.vfms f) s = now (fun e => t.deliver md f.sat (exactFma md (a e) (b e) (d e).neg)) ∧
    exec (.vmin f) s = now (fun e => if anyNan [a e, b e] then (t.nanCode, nanFlags [a e, b e])
      else (if condHolds 4 (a e) (b e) then code f.b e else code f.a e, {})) ∧
    exec (.vmax f) s = now (fun e => if anyNan [a e, b e] then (t.nanCode, nanFlags [a e, b e])
      else (if condHolds 2 (a e) (b e) then code f.b e else code f.a e, {})) ∧
    exec (.vabs f) s = now (fun e => (if anyNan [a e] then t.nanCode else code f.a e % 2 ^ (w - 1), {})) ∧
    exec (.vneg f) s = now (fun e => (if anyNan [a e] then t.nanCode
      else (code f.a e + 2 ^ (w - 1)) % 2 ^ w, {})) ∧
    exec (.vclass f) s = now (fun e => (classCode t (code f.a e), {})) ∧
    exec (.vrcp f) s = late 8 (fun e => t.deliver md false (exactRcp (a e))) ∧
    exec (.vrsqrt f) s = late 8 (fun e => t.deliver md false (exactRsqrt (a e))) ∧
    exec (.vexp2 f) s = late 10 (fun e => t.deliver md false (exactExp2 (a e))) ∧
    exec (.vlog2 f) s = late 10 (fun e => t.deliver md false (exactLog2 (a e))) ∧
    exec (.vsqrt f) s = late (if f.ty = 8 then 24 else 12) (fun e => t.deliver md false (exactSqrt (a e))) ∧
    exec (.vdiv f) s = late (if f.ty = 8 then 28 else 14) (fun e => t.deliver md false (exactDiv (a e) (b e)))) ∧
  (∀ (md : Mode) (n n' n'' : Bool) (m m' m'' : Nat) (e e' e'' lo : Int), lo ≤ e → lo ≤ e' →
    let is (x : Exact) (z : Int) (zero : Bool) : Prop := if z = 0 then x = .zero zero
      else ∃ k c, x = .mag (z < 0) ⟨k, c, false⟩ ∧ lo ≤ c ∧ scaled (z < 0) k c lo = z
    is (exactAdd md (.fin n m e) (.fin n' m' e')) (scaled n m e lo + scaled n' m' e' lo)
      (if m = 0 ∧ m' = 0 ∧ n = n' then n else md == .rdn) ∧
    exactMul (.fin n m e) (.fin n' m' e') =
      (if m * m' = 0 then .zero (n != n') else .mag (n != n') ⟨m * m', e + e', false⟩) ∧
    (lo ≤ e + e' → lo ≤ e'' →
      is (exactFma md (.fin n m e) (.fin n' m' e') (.fin n'' m'' e'')) (scaled (n != n') (m * m') (e + e') lo + scaled n'' m'' e'' lo)
        (if m * m' = 0 ∧ m'' = 0 ∧ (n != n') = n'' then n'' else md == .rdn))) ∧
  (∀ (md : Mode) (x y z : Machine.Num) (n n' n'' q : Bool) (m m' : Nat) (e e' : Int),
    let bad : Exact := .nan { nv := true }
    let told (l : List Machine.Num) : Exact := .nan { nv := l.contains (.nan true) }
    (anyNan [x, y] = true → exactAdd md x y = told [x, y] ∧ exactMul x y = told [x, y] ∧ exactDiv x y = told [x, y]) ∧
    (exactAdd md (.inf n) (.inf n') = if n = n' then .inf n {} else bad) ∧
    (exactAdd md (.inf n) (.fin n' m' e') = .inf n {} ∧ exactAdd md (.fin n' m' e') (.inf n) = .inf n {}) ∧
    (exactMul (.inf n) (.inf n') = .inf (n != n') {}) ∧
    (let p : Exact := if m' = 0 then bad else .inf (n != n') {}
     exactMul (.inf n) (.fin n' m' e') = p ∧ exactMul (.fin n' m' e') (.inf n) = p) ∧
    (exactFma md (.inf n) (.fin n' 0 e') z = bad ∧ exactFma md (.fin n' 0 e') (.inf n) z = bad) ∧
    (anyNan [x, y, z] = true → (∀ s k c, x = .inf s → y ≠ .fin k 0 c) →
      (∀ s k c, y = .inf s → x ≠ .fin k 0 c) → exactFma md x y z = told [x, y, z]) ∧
    (m' ≠ 0 → anyNan [z] = false →
      let p : Exact := if z = .inf (n == n') then bad else .inf (n != n') {}
      exactFma md (.inf n) (.fin n' m' e') z = p ∧ exactFma md (.fin n' m' e') (.inf n) z = p ∧ exactFma md (.inf n) (.inf n') z = p) ∧
    exactFma md (.fin n m e) (.fin n' m' e') (.inf n'') = .inf n'' {} ∧
    exactDiv (.inf n) (.inf n') = bad ∧ exactDiv (.inf n) (.fin n' m' e') = .inf (n != n') {} ∧
    exactDiv (.fin n m e) (.inf n') = .zero (n != n') ∧
    exactDiv (.fin n m e) (.fin n' 0 e') = (if m = 0 then bad else .inf (n != n') { dz := true }) ∧
    (m' ≠ 0 → exactDiv (.fin n 0 e) (.fin n' m' e') = .zero (n != n')) ∧
    (m ≠ 0 → m' ≠ 0 → ∃ k u st, exactDiv (.fin n m e) (.fin n' m' e') = .mag (n != n') ⟨u, e - e' - (k : Nat), st⟩ ∧ 2 ^ 128 ≤ u ∧
      u * m' ≤ m * 2 ^ k ∧ m * 2 ^ k < (u + 1) * m' ∧ (st = true ↔ u * m' ≠ m * 2 ^ k)) ∧
    exactRcp x = exactDiv (.fin false 1 0) x ∧
    (let nan : Exact := .nan { nv := q }
     exactSqrt (.nan q) = nan ∧ exactRsqrt (.nan q) = nan ∧ exactExp2 (.nan q) = nan ∧ exactLog2 (.nan q) = nan) ∧
    exactSqrt (.inf n) = (if n then bad else .inf false {}) ∧ exactSqrt (.fin n 0 e) = .zero n ∧
    exactRsqrt (.inf n) = (if n then bad else .zero false) ∧ exactRsqrt (.fin n 0 e) = .inf n { dz := true } ∧
    exactExp2 (.inf n) = (if n then .zero false else .inf false {}) ∧
    exactLog2 (.inf n) = (if n then bad else .inf false {}) ∧ exactLog2 (.fin n 0 e) = .inf true { dz := true } ∧
    (m ≠ 0 → exactSqrt (.fin true m e) = bad ∧ exactRsqrt (.fin true m e) = bad ∧ exactLog2 (.fin true m e) = bad) ∧
    (m ≠ 0 → ∃ u c st, exactSqrt (.fin false m e) = .mag false ⟨u, c, st⟩ ∧ 2 ^ 128 ≤ u ∧ ∃ j : Nat, (j : Int) = e - 2 * c ∧
      u * u ≤ m * 2 ^ j ∧ m * 2 ^ j < (u + 1) * (u + 1) ∧ (st = true ↔ u * u ≠ m * 2 ^ j)) ∧
    (m ≠ 0 → ∃ u c st, exactRsqrt (.fin false m e) = .mag false ⟨u, c, st⟩ ∧ 2 ^ 128 ≤ u ∧ ∃ j : Nat, (j : Int) = -(2 * c) - e ∧
      u * u * m ≤ 2 ^ j ∧ 2 ^ j < (u + 1) * (u + 1) * m ∧ (st = true ↔ u * u * m ≠ 2 ^ j)) ∧
    (∀ lo (i : Int), lo ≤ e → lo ≤ 0 → -320 ≤ e → i.natAbs < 4095 →
      let a := scaled n m e lo
      let one : Int := 2 ^ (-lo).toNat
      (a = i * one → exactExp2 (.fin n m e) = .mag false ⟨1, i, false⟩) ∧
      (i * one < a → a < (i + 1) * one → ∃ u, exactExp2 (.fin n m e) = .mag false ⟨u, i - 320, true⟩ ∧ 2 ^ 320 ≤ u)) ∧
    (∀ j : Nat, exactLog2 (.fin false (2 ^ j) e) =
      if e + j = 0 then .zero false else .mag (e + j < 0) ⟨(e + j).natAbs, 0, false⟩) ∧
    (∀ j : Nat, 2 ^ j < m → m < 2 ^ (j + 1) → ∃ s u, exactLog2 (.fin false m e) = .mag s ⟨u, -320, true⟩ ∧
      (e + j) * 2 ^ 320 ≤ if s then -((u : Int) + 1) else u)) ∧
  (let f32 := NumFmt.ofTy 9 0
   let gives (x : Exact) (code : Nat) : Prop := f32.deliver .rne false x = (code, { nx := true })
   gives (exactExp2 (.fin false 1 (-1))) 0x3FB504F3 ∧ gives (exactExp2 (.fin true 1 (-1))) 0x3F3504F3 ∧
   gives (exactLog2 (.fin false 3 0)) 0x3FCAE00D ∧ gives (exactLog2 (.fin false 5 1)) 0x40549A78) ∧
  (∀ (ty : BitVec 4) (code : Nat), tyIeee ty = true →
    let f := NumFmt.ofTy ty 0
    let bias : Int := match ty.toNat with | 8 => 1023 | 9 => 127 | 10 => 15 | _ => 127
    classCode f code = match f.value code with
      | .inf true => 0x001 | .inf false => 0x080 | .nan true => 0x100 | .nan false => 0x200
      | .fin n m e =>
        let lo := min e (1 - bias)
        if m = 0 then (if n then 0x008 else 0x010)
        else if scaled false m e lo < scaled false 1 (1 - bias) lo then (if n then 0x004 else 0x020)
        else if n then 0x002 else 0x040)

/-- R35, R160, R162, R165, R171 to R174: one rounding of an exact value. Within a format's finite range the nearest modes leave no
representable value nearer, and of two as near RNE takes the even code and RMM the greater magnitude; the directed modes leave none
between, on their side; NX says whether the value changed, and UF that it did where the value, rounded with the precision of the
format and any exponent, lies below the smallest normal value. Beyond the largest value M the threshold of the mode, with u from M
down to the value below it, decides between M and the format's overflow result, or M under SAT; both raise NX, an overflow OVF. In a
binary interchange format a NaN is the quiet one, an infinity and a zero keep their sign under every mode and SAT, with the flags that
they came with. Model's choice: log entry 71 (with one bit of precision, UF half way below the smallest normal value). -/
def Obligations.RoundingIsNearestOrDirected : Prop :=
  ∀ (ty : BitVec 4) (b8 : BitVec 5) (md : Mode) (sat neg : Bool) (m : Nat) (e : Int),
    let f := NumFmt.ofTy ty b8
    let r := f.deliver md sat (.mag neg ⟨m, e, false⟩)
    let t : Nat := match ty.toNat with | 8 => 52 | 9 => 23 | 10 => 10 | 11 => 7 | 12 => 1 | _ => (b8.toNat - 4) % 7
    let bias : Int := match ty.toNat with
      | 8 => 1023 | 9 => 127 | 10 => 15 | 11 => 127 | 12 => 1 | _ => if b8.toNat < 18 then 2 ^ (6 - t) else 2 ^ (7 - t)
    f.isFloat = true → (ty = 14 → 4 ≤ b8.toNat ∧ (neg = true → b8.toNat < 18)) →
    (m ≠ 0 → Mag.compare ⟨m, e, false⟩ (f.magnitude f.maxCode).1 (f.magnitude f.maxCode).2 ≠ .gt →
      ∃ n' m' e', f.value r.1 = .fin n' m' e' ∧ (m' = 0 → n' = (neg && ty != 14)) ∧ r.2.nv = false ∧ r.2.dz = false ∧ r.2.ovf = false ∧
        ∀ lo, lo ≤ e → lo ≤ e' →
          let x := scaled neg m e lo
          let y := scaled n' m' e' lo
          (r.2.nx = true ↔ y ≠ x) ∧ (md = .rtz → y.natAbs ≤ x.natAbs) ∧ (md = .rdn → y ≤ x) ∧ (md = .rup → x ≤ y) ∧
          (∀ code n2 m2 e2, f.value code = .fin n2 m2 e2 → lo ≤ e2 →
            let z := scaled n2 m2 e2 lo
            (md = .rne ∨ md = .rmm → (y - x).natAbs ≤ (z - x).natAbs) ∧
            (z ≠ y → (y - x).natAbs = (z - x).natAbs → (md = .rne → r.1 % 2 = 0) ∧ (md = .rmm → x.natAbs < y.natAbs)) ∧
            (md = .rtz → z.natAbs ≤ x.natAbs → z * x ≥ 0 → z.natAbs ≤ y.natAbs) ∧
            (md = .rdn → z ≤ x → z ≤ y) ∧ (md = .rup → x ≤ z → y ≤ z)) ∧
          (lo ≤ -bias - t →
            let normal := scaled false 1 (1 - bias) lo
            let u := scaled false 1 (-bias - t) lo
            let reaches : Prop := match md with
              | .rne => 2 * normal - u < 2 * (x.natAbs : Int) ∨ (t ≠ 0 ∧ 2 * normal - u = 2 * (x.natAbs : Int))
              | .rmm => 2 * normal - u ≤ 2 * (x.natAbs : Int)
              | .rdn => neg = true ∧ normal - u < (x.natAbs : Int)
              | .rup => neg = false ∧ normal - u < (x.natAbs : Int)
              | .rtz => False
            (r.2.uf = true ↔ y ≠ x ∧ (x.natAbs : Int) < normal ∧ ¬ reaches))) ∧
    (∀ c c' cm cm' ce ce' lo, f.value c = .fin false cm ce → f.value c' = .fin false cm' ce' → lo ≤ e → lo ≤ ce → lo ≤ ce' →
      let top := scaled false cm ce lo
      let next := scaled false cm' ce' lo
      let x := scaled false m e lo
      next < top → top < x →
      (∀ code n2 m2 e2, f.value code = .fin n2 m2 e2 → lo ≤ e2 →
        let z := scaled n2 m2 e2 lo
        z ≤ top ∧ (z < top → z ≤ next)) →
      let overflows : Bool := match md with
        | .rne | .rmm => 2 * top + (top - next) ≤ 2 * x
        | .rup => !neg | .rdn => neg | .rtz => false
      r.2 = { ovf := overflows, nx := true } ∧
      f.value r.1 = if overflows = false ∨ sat = true ∨ ty = 12 then .fin neg cm ce
        else if ty = 14 ∧ (b8.toNat - 4) / 7 % 2 = 0 then .nan false else .inf neg) ∧
    (tyIeee ty = true → ∀ fl, f.deliver md sat (.nan fl) = (f.nanCode, fl) ∧ f.value f.nanCode = .nan false ∧
      (∃ c, f.deliver md sat (.inf neg fl) = (c, fl) ∧ f.value c = .inf neg) ∧
      ∃ c e', f.deliver md sat (.zero neg) = (c, {}) ∧ f.value c = .fin neg 0 e')

/-- R37, R195, R188: `vcmp` writes each active element's bit, by the order of its values, and keeps the others; a comparison by
size with a NaN, or of a signalling NaN, is invalid. R175 to R177, R188, R200, R201: a conversion converts each element of the wider
of the two widths' count; with unlike widths every element takes part and those above are zero. An element of an integer type is
extended, copied or cut, or clamped under SAT. A floating one goes to an integer by one rounding, a NaN as 0, and what lies outside
the range as R176's table has it. A finite value goes to a floating type by one rounding, beyond the largest value as R172's table
has it, and below zero into an unsigned one, a NaN and an infinity as R175's. -/
def Obligations.ComparisonsAndConversions : Prop :=
  (∀ (f : FmtA) (s : State), s.runs f.gd = true → s.unbound f.a = true → s.unbound f.b = true → tyWide f.ty = true →
     let w := tyWidth f.ty
     let value (r : BitVec 5) (e : Nat) : Machine.Num :=
       let c : BitVec w := (s.me.regs.getV r).extractLsb' (w * e) w
       if tyInt f.ty then (let z : Int := if tySigned f.ty then c.toInt else c.toNat; .fin (z < 0) z.natAbs 0)
       else (NumFmt.ofTy f.ty 0).value c.toNat
     let x := value f.a
     let y := value f.b
     let less (x y : Machine.Num) : Bool := match x, y with
       | .fin n m e, .fin n' m' e' => scaled n m e (min e e') < scaled n' m' e' (min e e')
       | .inf n, .inf n' => n && !n'
       | .inf n, .fin _ _ _ => n
       | .fin _ _ _, .inf n => !n
       | _, _ => false
     let holds (x y : Machine.Num) : Bool := match f.fn.toNat with
       | 0 => !(less x y || less y x || anyNan [x, y]) | 1 => less x y || less y x || anyNan [x, y] | 2 => less x y
       | 3 => !less y x && !anyNan [x, y] | 4 => less y x | 5 => !less x y && !anyNan [x, y] | 6 => anyNan [x, y]
       | 7 => !anyNan [x, y] | _ => false
     let on (e : Nat) : Bool := (s.getK f.c).getLsbD (e * w / 32)
     let invalid (e : Nat) : Bool := !tyInt f.ty &&
       (if 2 ≤ f.fn.toNat && f.fn.toNat ≤ 5 then anyNan [x e, y e] else x e == .nan true || y e == .nan true)
     ∃ k fl, exec (.vcmp f) s = .next ((s.setK f.d k).addFlags fl).advance ∧
       (∀ i < 16, k.getLsbD i = if on (i * 32 / w) then holds (x (i * 32 / w)) (y (i * 32 / w)) else (s.getK f.d).getLsbD i) ∧
       ∀ e < 512 / w, ∀ b < 5, ((if laneOf w e < 8 then fl.1 else fl.2).getLsbD (5 * (laneOf w e % 8) + b)
         = (!f.nf && on e && invalid e && b == 0))) ∧
  (∀ (f : FmtA) (s : State), s.runs f.gd = true → s.unbound f.a = true → s.unbound f.d = true → f.cvt = true →
     let ws := tyWidth f.fn
     let wd := tyWidth f.ty
     let n := 512 / max ws wd
     let r (e : Nat) := convert (NumFmt.ofTy f.fn f.b) (NumFmt.ofTy f.ty f.b) (s.mode f.rnd) f.sat
       ((s.me.regs.getV f.a).extractLsb' (ws * e) ws).toNat
     let on (e : Nat) : Bool := ws ≠ wd || (s.getK f.c).getLsbD (e * wd / 32)
     ∃ x, exec (.vcvt f) s = .next ((s.setV f.d x).addFlags (flagsUnless f.nf
           (((List.range n).filter on).map fun e => (laneOf (max ws wd) e, (r e).2)))).advance ∧
       ∀ e < 512 / wd, (x.extractLsb' (wd * e) wd).toNat =
         if n ≤ e then 0 else if on e then (r e).1 % 2 ^ wd else ((s.me.regs.getV f.d).extractLsb' (wd * e) wd).toNat) ∧
  (∀ (src dst : BitVec 4) (b8 : BitVec 5) (md : Mode) (sat : Bool) (code : Nat), src.toNat ≤ 14 → dst.toNat ≤ 14 →
    (src = 14 ∨ dst = 14 → 4 ≤ b8.toNat) →
    let a := NumFmt.ofTy src b8
    let t := NumFmt.ofTy dst b8
    let w := t.width
    let signed : Bool := dst == 13 || tySigned dst
    let least : Int := if signed then -(2 ^ (w - 1)) else 0
    let most : Int := if signed then 2 ^ (w - 1) - 1 else 2 ^ w - 1
    let pattern (z : Int) : Nat := (BitVec.ofInt w z).toNat
    let r := convert a t md sat code
    let unsigned8 : Bool := dst == 14 && 18 ≤ b8.toNat
    (a.isFloat = false → t.isFloat = false →
      let c : BitVec a.width := .ofNat a.width code
      let z : Int := if src = 13 ∨ tySigned src = true then c.toInt else c.toNat
      r = (pattern (if sat then max least (min z most) else z), {})) ∧
    (a.isFloat = true → t.isFloat = false →
      let out (below : Bool) : Nat := if sat then pattern (if below then least else most) else if signed then 2 ^ (w - 1) else 2 ^ w - 1
      (∀ q, a.value code = .nan q → r = (0, { nv := true })) ∧ (∀ n, a.value code = .inf n → r = (out n, { nv := true })) ∧
      (∀ n m e lo, a.value code = .fin n m e → lo ≤ e → lo ≤ -1 →
        let x := scaled n m e lo
        let one : Int := 2 ^ (-lo).toNat
        ∃ z : Int, (z * one - x).natAbs < one ∧
          (md = .rtz → (z * one).natAbs ≤ x.natAbs) ∧ (md = .rdn → z * one ≤ x) ∧ (md = .rup → x ≤ z * one) ∧
          (md = .rne ∨ md = .rmm → 2 * (z * one - x).natAbs ≤ one) ∧
          (2 * ((z * one - x).natAbs : Int) = one → (md = .rne → z % 2 = 0) ∧ (md = .rmm → x.natAbs < (z * one).natAbs)) ∧
          r = (if z < least then (out true, { nv := true }) else if most < z then (out false, { nv := true })
            else (pattern z, { nx := z * one ≠ x })))) ∧
    (t.isFloat = true →
      (∀ q, a.value code = .nan q → r.2 = { nv := q || dst == 12 } ∧ (if dst = 12 then r.1 = 0 else t.value r.1 = .nan false)) ∧
      (∀ n, a.value code = .inf n →
        if unsigned8 && n then r = (if sat then (0, { nx := true }) else (0xFF, { nv := true }))
        else if dst = 12 then t.value r.1 = .fin n 3 1 ∧ r.2 = { nv := true }
        else if dst = 14 ∧ (b8.toNat - 4) / 7 % 2 = 0 then
          r = (if sat then t.signed n t.maxCode else if 18 ≤ b8.toNat then 0xFF else 0x80, { nv := true })
        else t.value r.1 = .inf n ∧ r.2 = {}) ∧
      (∀ n m e, a.value code = .fin n m e →
        let beyond : Bool := Mag.compare ⟨m, e, false⟩ (t.magnitude t.maxCode).1 (t.magnitude t.maxCode).2 == .gt
        if m = 0 then r = (if n = true ∧ dst ≠ 14 then 2 ^ (w - 1) else 0, {})
        else if unsigned8 && n then r = (if sat then (0, { nx := true }) else (0xFF, { nv := true }))
        else if !beyond then r = t.deliver md sat (.mag n ⟨m, e, false⟩)
        else ∀ lo, lo ≤ e → lo ≤ (t.magnitude t.maxCode).2 → lo ≤ (t.magnitude (t.maxCode - 1)).2 →
          let top := scaled false (t.magnitude t.maxCode).1 (t.magnitude t.maxCode).2 lo
          let next := scaled false (t.magnitude (t.maxCode - 1)).1 (t.magnitude (t.maxCode - 1)).2 lo
          let tooFar : Bool := match md with
            | .rne | .rmm => 2 * top + (top - next) ≤ 2 * scaled false m e lo
            | .rup => !n | .rdn => n | .rtz => false
          if tooFar then r.2 = { ovf := true, nx := true } ∧
            (if sat then r.1 = t.signed n t.maxCode else if dst = 12 then t.value r.1 = .fin n 3 1
             else if dst = 14 ∧ (b8.toNat - 4) / 7 % 2 = 0 then t.value r.1 = .nan false else t.value r.1 = .inf n)
          else r = (t.signed n t.maxCode, { nx := true }))))


/-- R185, R202: over integers, a reduction leaves in element 0 the sum, minimum, maximum, and, or, xor of the active
elements and keeps the others, and a scan leaves each prefix; both land after their cycles. R185, R202: over floating
types the reduction adds adjacent results, log2 n steps of one rounding each, and the scan goes from element 0 up; a minimum
or maximum is the least or the greatest of the active elements, -0 below +0, a NaN among them gives the canonical one, and where
there are none it is the infinity that changes nothing. R179: a reduction's flags are those of all its steps, in lane 0, a scan's those of
each step in the lane that it writes. -/
def Obligations.ReductionsAndScans : Prop :=
  (∀ (f : FmtA) (s : State), s.runs f.gd = true → s.unbound f.a = true → s.unbound f.d = true → tyAtomic f.ty = true →
     f.fn.toNat ≤ 5 →
     let w := tyWidth f.ty
     let sg := tySigned f.ty
     let lane (r : BitVec 5) (e : Nat) : BitVec w := (s.me.regs.getV r).extractLsb' (w * e) w
     let on (e : Nat) : Bool := (s.getK f.c).getLsbD (e * w / 32)
     let below (x y : BitVec w) : Bool := if sg then x.slt y else x.ult y
     let op (x y : BitVec w) : BitVec w :=
       if f.fn = 0 then x + y else if f.fn = 1 then (if below y x then y else x) else if f.fn = 2 then (if below x y then y else x)
       else if f.fn = 3 then x &&& y else if f.fn = 4 then x ||| y else x ^^^ y
     let unit : BitVec w :=
       if f.fn = 1 then (if sg then .intMax w else .allOnes w) else if f.fn = 2 then (if sg then .intMin w else 0)
       else if f.fn = 3 then .allOnes w else 0
     let upTo (n : Nat) : BitVec w := ((List.range n).filter on).foldl (fun x e => op x (lane f.a e)) unit
     (∃ x : BitVec 512, exec (.vred f) s = .next (s.later f.la 6 [.v f.d.toNat x] (0, 0) (!f.nf)).advance ∧
       ∀ e < 512 / w, x.extractLsb' (w * e) w = if e = 0 then upTo (512 / w) else lane f.d e) ∧
     (∃ x : BitVec 512, exec (.vscan f) s = .next (s.later f.la 8 [.v f.d.toNat x] (0, 0) (!f.nf)).advance ∧
       ∀ e < 512 / w, x.extractLsb' (w * e) w = if on e then upTo (e + 1) else lane f.d e)) ∧
  (∀ (f : FmtA) (s : State), s.runs f.gd = true → s.unbound f.a = true → s.unbound f.d = true → f.ty = 8 ∨ f.ty = 9 →
     let t := NumFmt.ofTy f.ty 0
     let md := s.mode f.rnd
     let w := tyWidth f.ty
     let n := 512 / w
     let at' (r : BitVec 5) (e : Nat) : Nat := ((s.me.regs.getV r).extractLsb' (w * e) w).toNat
     let on (e : Nat) : Bool := (s.getK f.c).getLsbD (e * w / 32)
     let lit (fl : Word × Word) (lane b : Nat) : Bool := (if lane < 8 then fl.1 else fl.2).getLsbD (5 * (lane % 8) + b)
     let reduces (r : Nat → Prop) (flag : Nat → Prop) : Prop := ∃ (x : BitVec 512) (fl : Word × Word),
       exec (.vred f) s = .next (s.later f.la 6 [.v f.d.toNat x] fl (!f.nf)).advance ∧
       r (x.extractLsb' 0 w).toNat ∧ (∀ e < n, e ≠ 0 → (x.extractLsb' (w * e) w).toNat = at' f.d e) ∧
       ∀ lane < 16, ∀ b < 5, lit fl lane b = true ↔ f.nf = false ∧ lane = 0 ∧ flag b
     let scans (r : Nat → Nat → Prop) (flag : Nat → Nat → Prop) : Prop := ∃ (x : BitVec 512) (fl : Word × Word),
       exec (.vscan f) s = .next (s.later f.la 8 [.v f.d.toNat x] fl (!f.nf)).advance ∧
       (∀ e < n, (on e = true → r e (x.extractLsb' (w * e) w).toNat) ∧
         (on e = false → (x.extractLsb' (w * e) w).toNat = at' f.d e)) ∧
       ∀ e < n, ∀ b < 5, lit fl (e * w / 32) b = true ↔ f.nf = false ∧ on e = true ∧ flag e b
     (f.fn = 0 →
       let enters (e : Nat) : Nat := if on e then at' f.a e else 2 ^ (w - 1)
       let step (x y : Nat) : Nat × Flags := t.deliver md false (exactAdd md (t.value x) (t.value y))
       let bit (x : Flags) (b : Nat) : Prop := [x.nv, x.dz, x.ovf, x.uf, x.nx].getD b false = true
       ∃ (level : Nat → Nat → Nat) (sofar : Nat → Nat), (∀ e < n, level 0 e = enters e) ∧
         (∀ i e, (2 * e + 1) * 2 ^ i < n → level (i + 1) e = (step (level i (2 * e)) (level i (2 * e + 1))).1) ∧
         sofar 0 = enters 0 ∧ (∀ e, e + 1 < n → sofar (e + 1) = (step (sofar e) (enters (e + 1))).1) ∧
         reduces (· = level (Nat.log2 n) 0)
           (fun b => ∃ i e, (2 * e + 1) * 2 ^ i < n ∧ bit (step (level i (2 * e)) (level i (2 * e + 1))).2 b) ∧
         scans (fun e r => r = sofar e) fun e b => e ≠ 0 ∧ bit (step (sofar (e - 1)) (enters e)).2 b) ∧
     (f.fn = 1 ∨ f.fn = 2 →
       let v (e : Nat) := t.value (at' f.a e)
       let less (x y : Machine.Num) : Bool := match x, y with
         | .fin n m e, .fin n' m' e' => scaled n m e (min e e') < scaled n' m' e' (min e e')
         | .inf n, .inf n' => n && !n'
         | .inf n, .fin _ _ _ => n
         | .fin _ _ _, .inf n => !n
         | _, _ => false
       let minus (e : Nat) : Bool := (at' f.a e).testBit (w - 1)
       let below (c e : Nat) : Bool := less (v c) (v e) || (!less (v e) (v c) && (minus c || !minus e))
       let isBest (up r : Nat) : Prop :=
         ((∃ e < up, on e = true ∧ anyNan [v e] = true) → r = if f.ty = 8 then 0x7FF8000000000000 else 0x7FC00000) ∧
         ((∀ e < up, on e = false) → r = (if f.ty = 8 then 0x7FF0000000000000 else 0x7F800000) + if f.fn = 2 then 2 ^ (w - 1) else 0) ∧
         ((∃ e < up, on e = true) → (∀ e < up, on e = true → anyNan [v e] = false) →
           ∃ c < up, on c = true ∧ r = at' f.a c ∧ ∀ e < up, on e = true → (if f.fn = 1 then below c e else below e c) = true)
       reduces (isBest n) (fun b => b = 0 ∧ ∃ e < n, on e = true ∧ v e = .nan true) ∧
       scans (fun e => isBest (e + 1)) fun e b => b = 0 ∧ v e = .nan true))


/-- R182, R203: `vdot` adds to each 32-bit lane the products of the packed elements: for bytes the exact sum, clamped or
reduced; for halves one rounding to f32 of the exact sum. It lands after 4 cycles. Model's choice: log entry 70. -/
def Obligations.DotProductsAccumulate : Prop :=
  ∀ (f : FmtA) (s : State), s.runs f.gd = true → s.unbound f.a = true → s.unbound f.b = true → s.unbound f.d = true →
    let byte (r : BitVec 5) (e : Nat) : BitVec 8 := (s.me.regs.getV r).extractLsb' (8 * e) 8
    let half (r : BitVec 5) (e : Nat) : Machine.Num := (NumFmt.ofTy f.ty 0).value ((s.me.regs.getV r).extractLsb' (16 * e) 16).toNat
    let lane (r : BitVec 5) (e : Nat) : BitVec 32 := (s.me.regs.getV r).extractLsb' (32 * e) 32
    (f.ty = 0 ∨ f.ty = 4 →
      let v (x : BitVec 8) : Int := if f.ty = 0 then x.toInt else x.toNat
      let sum (e : Nat) : Int := (lane f.d e).toInt + ((List.range 4).map fun i => v (byte f.a (4 * e + i)) * v (byte f.b (4 * e + i))).sum
      ∃ x : BitVec 512, exec (.vdot f) s = .next (s.later f.la 4 [.v f.d.toNat x] (0, 0) (!f.nf)).advance ∧
        ∀ e < 16, x.extractLsb' (32 * e) 32 = if (s.getK f.c).getLsbD e
          then .ofInt 32 (if f.sat then max (-(2 ^ 31)) (min (sum e) (2 ^ 31 - 1)) else sum e) else lane f.d e) ∧
    (f.ty = 10 ∨ f.ty = 11 → ∃ fl, ∃ x : BitVec 512, exec (.vdot f) s = .next (s.later f.la 4 [.v f.d.toNat x] fl (!f.nf)).advance ∧
      ∀ e < 16,
        let acc := (NumFmt.ofTy 9 0).value (lane f.d e).toNat
        let ps := [(half f.a (2 * e), half f.b (2 * e)), (half f.a (2 * e + 1), half f.b (2 * e + 1))]
        ((s.getK f.c).getLsbD e = false → x.extractLsb' (32 * e) 32 = lane f.d e) ∧
        ((s.getK f.c).getLsbD e = true → ∀ lo n m c,
          (acc = .fin n m c ∧ lo ≤ c) → (∀ p ∈ ps, ∃ n1 m1 e1 n2 m2 e2, p = (.fin n1 m1 e1, .fin n2 m2 e2) ∧ lo ≤ e1 + e2) →
          let part (p : Machine.Num × Machine.Num) : Int := match p with
            | (.fin n1 m1 e1, .fin n2 m2 e2) => scaled (n1 != n2) (m1 * m2) (e1 + e2) lo
            | _ => 0
          let z := scaled n m c lo + (ps.map part).sum
          z ≠ 0 → ((x.extractLsb' (32 * e) 32).toNat
            = ((NumFmt.ofTy 9 0).deliver (s.mode f.rnd) f.sat (.mag (z < 0) ⟨z.natAbs, lo, false⟩)).1)))

/-! ### Loads, stores and atomics (08, 09, 13) -/

/-- R40, R206, R207, R235, R238, R315: `ld`, `vld`, `vgath`, and `wfv` with a condition that holds, read little-endian what
the hart sees of the bytes at their addresses and leave it, extended by TYPE or in the active elements, to land; `wfv`
waits while its condition fails. Besides, only the times at which the die caches' lines were last used change (R350). Model's choice: log entry 37, and log entries 9 and 54: the value is fixed as the load issues, and
lands exactly so many cycles later. -/
def Obligations.LoadsReadTheirBytes : Prop :=
  ∀ (f : FmtM) (s : State) (page : Nat → TlbEntry), s.runs f.gd = true →
    let m := s.globalFor s.cur
    let w := tyWidth f.ty
    let n := w / 8
    let ea := s.getS f.a + f.offs.signExtend 64
    let holds (a : Nat) (x : BitVec w) : Prop := ∀ i < n, x.extractLsb' (8 * i) 8 = m.byte (a + i)
    let wide (x : BitVec w) : Word := if tySigned f.ty then x.signExtend 64 else x.setWidth 64
    (tyPlain f.ty = true → f.size = tySize f.ty → ea.toNat % n = 0 → s.readable ea n (page 0) = true →
      let u := s.touchDie ((page 0).physical ea.toNat) n
      ∃ x : BitVec w, holds ((page 0).physical ea.toNat) x ∧
        exec (.ld f) s = .next (u.later f.la 5 (if f.d = 0 then [] else [.s f.d.toNat (wide x)]) (0, 0)).advance ∧
        (tyAtomic f.ty = true →
          exec (.wfv f) s = .next (if compareBy (f.c.setWidth 4) f.ty x.toNat (s.getS f.b).toNat
            then (u.later f.la 0 (if f.d = 0 then [] else [.s f.d.toNat (wide x)]) (0, 0)).advance
            else u.stall .value))) ∧
    (s.unbound f.d = true →
      let on (e : Nat) : Bool := (s.getK f.c).getLsbD (e * w / 32)
      let loads (o : Out) (va : Nat → Word) : Prop :=
        (∀ e < 512 / w, on e = true → (va e).toNat % n = 0 ∧ s.readable (va e) n (page e) = true) →
        let u := s.touchedAt (((List.range (512 / w)).filter on).map fun e => (page e).physical (va e).toNat) n
        ∃ x : BitVec 512, o = .next (u.later f.la 5 [.v f.d.toNat x] (0, 0)).advance ∧
          ∀ e < 512 / w, if on e then holds ((page e).physical (va e).toNat) (x.extractLsb' (w * e) w)
            else x.extractLsb' (w * e) w = (s.me.regs.getV f.d).extractLsb' (w * e) w
      (tyPlain f.ty = true → ea.toNat % n = 0 → loads (exec (.vld f) s) fun e => ea + BitVec.ofNat 64 (e * n)) ∧
      (tyWide f.ty = true → s.unbound f.b = true →
        loads (exec (.vgath f) s) fun e => ea + ((s.me.regs.getV f.b).extractLsb' (w * e) w).signExtend 64))

/-- R133, R206, R207, R235, R297, R299, R303, R353: `st`, `vst` and `vscat` store the low bytes of their values at their
addresses, all of them as one store, the later element's byte where two meet; the hart sees them at once and every other
byte as before, and nothing outside the hart changes. A release performs the hart's earlier stores first and this one
with it, and ends the region, and a store of which an element lies in a strongly ordered page does the same without ending it: every
other byte of memory is as it was, where the lines are under the keys of their pages. With no active element nothing is stored, and a
release is one of the earlier stores. Model's choice: log entries 37 and 53, and log entry 34: a release performs all the hart's stores
whatever its scope. -/
def Obligations.StoresWriteTheirBytes : Prop :=
  ∀ (f : FmtM) (s : State) (page : Nat → TlbEntry), s.memoryOk = true → s.runs f.gd = true → f.order = 0 ∨ f.order = 2 →
    (f.order = 2 → s.mayPublish = true) →
    let w := tyWidth f.ty
    let n := w / 8
    let ea := s.getS f.a + f.offs.signExtend 64
    let stores (o : Out) (places : List (Nat × TlbEntry)) (bytes : List (Nat × Byte)) : Prop :=
      let atOnce : Bool := f.order = 2 || places.any (·.2.ord == 0)
      let before := if atOnce then s.drainAll s.cur else s
      (atOnce = true → s.mayPublish = true ∧ (∀ x ∈ bytes, s.movingUnit x.1 = false ∧ s.dieAwake x.1 1 = true) ∧
        ∀ p ∈ places, ∀ q ∈ places, before.keyed p.2.key q.1 n = true) →
      let st : Store := { cluster := none, bytes, keys := State.keysOf places }
      let u := if atOnce then (before.issueStore st).drainAll s.cur else before.issueStore st
      ∃ t, o = .next t ∧ t = (if f.order = 2 then u.endRegion else u).advance ∧
      (atOnce = false → s.onlySelf t ∧ t.me = { s.me.advance with stores := s.me.stores ++ [st] } ∧
        ∀ a, (t.globalFor s.cur).byte a = ((bytes.filter (·.1 == a)).getLast?.map (·.2)).getD ((s.globalFor s.cur).byte a)) ∧
      (atOnce = true → (f.order = 2 → t.me.boundary = true) ∧ t.me.stores = [] ∧
        ∀ a, t.mem.byte a = if a < s.limit then ((bytes.filter (·.1 == a)).getLast?.map (·.2)).getD (before.mem.byte a)
          else before.mem.byte a)
    (tyPlain f.ty = true → f.size = tySize f.ty → ea.toNat % n = 0 → s.maps ea (page 0) = true → (page 0).w = true →
      stores (exec (.st f) s) [((page 0).physical ea.toNat, page 0)] (bytesAt ((page 0).physical ea.toNat) (leBytes n (s.getS f.b).toNat))) ∧
    (let on := (List.range (512 / w)).filter fun e => (s.getK f.c).getLsbD (e * w / 32)
     let vector (o : Out) (r : BitVec 5) (va : Nat → Word) : Prop :=
       (on = [] → o = .next (if f.order = 2 then ((s.drainAll s.cur).drainAll s.cur).endRegion else s).advance) ∧
       (on ≠ [] → (∀ e ∈ on, (va e).toNat % n = 0 ∧ s.maps (va e) (page e) = true ∧ (page e).w = true) →
       stores o (on.map fun e => ((page e).physical (va e).toNat, page e)) (on.map fun e => bytesAt ((page e).physical (va e).toNat)
         (leBytes n ((s.me.regs.getV r).extractLsb' (w * e) w).toNat)).flatten)
     (tyPlain f.ty = true → ea.toNat % n = 0 → s.unbound f.b = true →
       vector (exec (.vst f) s) f.b fun e => ea + BitVec.ofNat 64 (e * n)) ∧
     (tyWide f.ty = true → s.unbound f.b = true → s.unbound f.d = true →
       vector (exec (.vscat f) s) f.d fun e => ea + ((s.me.regs.getV f.b).extractLsb' (w * e) w).signExtend 64))

/-- R208, R210, R235: `bld`, `bst`, `vbld` and `vbst` access the core's typed buffer of their space at once: the loads leave
what they read to land after 3 cycles, the stores change exactly their bytes of that buffer and nothing else but the time of
the bank's last access. -/
def Obligations.BufferAccesses : Prop :=
  ∀ (f : FmtM) (s : State), s.memoryOk = true → s.runs f.gd = true → 2 ≤ f.scope.toNat → f.scope.toNat ≤ 5 →
    let w := tyWidth f.ty
    let n := w / 8
    let ea := s.getS f.a + f.offs.signExtend 64
    let m := s.myCore.buffer f.scope
    let holds (a : Nat) (x : BitVec w) : Prop := ∀ i < n, x.extractLsb' (8 * i) 8 = m.byte (a + i)
    let on (e : Nat) : Bool := (s.getK f.c).getLsbD (e * w / 32)
    let els := (List.range (512 / w)).filter on
    let u := s.touched f.scope [ea.toNat]
    let put (o : Out) (bytes : List (Nat × Byte)) : Prop := ∃ t, o = .next t ∧
      t.me = s.me.advance ∧ s.onlySelf { t with cores := s.cores, bankUse := s.bankUse } ∧
      t.bankUse = (if bytes = [] then s else u).bankUse ∧ (∀ c, c ≠ hartCore s.cur → t.core c = s.core c) ∧
      t.myCore = s.myCore.setBuffer f.scope (t.myCore.buffer f.scope) ∧
      ∀ a, (t.myCore.buffer f.scope).byte a = ((bytes.filter (·.1 == a)).getLast?.map (·.2)).getD (m.byte a)
    (tyPlain f.ty = true → f.size = tySize f.ty → ea.toNat % n = 0 → s.bufferOk f.scope ea n = true →
      s.localReady f.scope ea.toNat n = true →
      (m.bad ea.toNat n = false → ∃ x : BitVec w, holds ea.toNat x ∧ exec (.bld f) s = .next (u.later f.la 3
        (if f.d = 0 then [] else [.s f.d.toNat (if tySigned f.ty then x.signExtend 64 else x.setWidth 64)]) (0, 0)).advance) ∧
      put (exec (.bst f) s) (bytesAt ea.toNat (leBytes n (s.getS f.b).toNat))) ∧
    (tyPlain f.ty = true → ea.toNat % 64 = 0 → s.bufferOk f.scope ea 64 = true →
      (∀ e ∈ els, s.localReady f.scope (ea.toNat + e * n) n = true) →
      ((∀ e ∈ els, m.bad (ea.toNat + e * n) n = false) → s.unbound f.d = true →
        ∃ x : BitVec 512, exec (.vbld f) s = .next ((if els = [] then s else u).later f.la 3 [.v f.d.toNat x] (0, 0)).advance ∧
          ∀ e < 512 / w, if on e then holds (ea.toNat + e * n) (x.extractLsb' (w * e) w)
            else x.extractLsb' (w * e) w = (s.me.regs.getV f.d).extractLsb' (w * e) w) ∧
      (s.unbound f.b = true →
        put (exec (.vbst f) s) (els.map fun e =>
          bytesAt (ea.toNat + e * n) (leBytes n ((s.me.regs.getV f.b).extractLsb' (w * e) w).toNat)).flatten))

/-- R164, R225, R238: a load through a view reads the elements whose linear indices start at S[B] + OFFS, one for `wld`, the
active elements inside the view for `vwld`, extended by TYPE or beside the old values, to land after the space's cycles. Model's
choice: log entry 54, that these are exactly 5 for a global or a cluster window. -/
def Obligations.ViewLoadsReadElements : Prop :=
  ∀ (f : FmtM) (s : State) (page : Nat → TlbEntry), s.runs f.gd = true → s.viewReady (s.getW f.a) f.ty false = true →
    let v := s.getW f.a
    let w := tyWidth f.ty
    let first : Int := (s.getS f.b).toInt + f.offs.toInt
    let cycles := if 2 ≤ v.space.toNat then 3 else 5
    let code (l : Nat) : Nat := v.codeIn (s.seen v.space) (State.elementPlace v l (page l)) (v.elementAt l).2
    0 ≤ first →
    (first < v.count → s.elementReady v first.toNat (page first.toNat) false = true → w ≠ 0 →
      ∃ x : BitVec w, x.toNat = code first.toNat ∧ exec (.wld f) s = .next ((s.touchedBy v page [first.toNat]).later f.la cycles
        (if f.d = 0 then [] else [.s f.d.toNat (if tySigned f.ty || f.ty == 13 then x.signExtend 64 else x.setWidth 64)])
        (0, 0)).advance) ∧
    (f.ty ≠ 15 → s.unbound f.d = true →
      let on (e : Nat) : Bool := (s.getK f.c).getLsbD (e * w / 32)
      (on 0 = true → first < v.count) →
      (∀ e < 512 / w, on e = true → first.toNat + e < v.count →
        s.elementReady v (first.toNat + e) (page (first.toNat + e)) false = true) →
      let read := ((List.range (512 / w)).filter fun e => on e && first.toNat + e < v.count).map (first.toNat + ·)
      ∃ x : BitVec 512, exec (.vwld f) s = .next ((s.touchedBy v page read).later f.la cycles [.v f.d.toNat x] (0, 0)).advance ∧
        ∀ e < 512 / w, (x.extractLsb' (w * e) w).toNat =
          if on e && first.toNat + e < v.count then code (first.toNat + e) else ((s.me.regs.getV f.d).extractLsb' (w * e) w).toNat)

/-- R164, R225, R238: a store through a view writes the codes of its elements, one for `wst`, the active elements inside the
view for `vwst`, in order, and no other byte or nibble of any memory; nothing else changes but the pc and the times of the
accessed banks. R299, R303: a release performs the earlier stores, then these, and ends the region; a store of which an element lies
in a strongly ordered page does the same without ending it. Model's choice: log entry 34, that all the hart's stores are performed
whatever the scope. -/
def Obligations.ViewStoresWriteElements : Prop :=
  ∀ (f : FmtM) (s : State) (page : Nat → TlbEntry), s.memoryOk = true → s.runs f.gd = true →
    s.viewReady (s.getW f.a) f.ty true = true → (s.getW f.a).space.toNat ≤ 5 → f.order = 0 ∨ f.order = 2 → f.ty ≠ 15 →
    let v := s.getW f.a
    let w := tyWidth f.ty
    let ready (l : Nat) : Bool := if v.space = 0 then
        (let va := BitVec.ofInt 64 (v.elementAt l).1
         va.toNat % v.elemBytes == 0 && State.pageAgrees v (page l) && s.maps va (page l) && (page l).w)
      else s.elementReady v l (page l) true
    let puts (o : Out) (ls : List (Nat × Nat)) : Prop := ∃ t, o = .next t ∧
      (∀ a, (t.seen v.space).byte a = (ls.foldl (fun m e =>
        v.putIn m (State.elementPlace v e.1 (page e.1)) (v.elementAt e.1).2 e.2) (s.seen v.space)).byte a) ∧
      (∀ space : BitVec 3, space.toNat ≤ 5 → space ≠ v.space → ∀ a, (t.seen space).byte a = (s.seen space).byte a) ∧
      s.onlySelf { t with cores := s.cores, bankUse := s.bankUse } ∧ (∀ c, c ≠ hartCore s.cur → t.core c = s.core c) ∧
      (∀ b, (v.space ≠ 0 → ∀ e ∈ ls, let a := (v.elementAt e.1).1.toNat
        b ∉ s.banksOf v.space [a, a + v.elemBytes - 1]) → t.bankUse.find b = s.bankUse.find b) ∧
      { t.me with stores := s.me.stores } = s.me.advance
    let performs (o : Out) (ls : List (Nat × Nat)) : Prop :=
      let before := s.drainAll s.cur
      let place (e : Nat × Nat) := State.elementPlace v e.1 (page e.1)
      s.mayPublish = true →
      (v.space = 0 → ∀ e ∈ ls, (∀ i < v.elemBytes, s.movingUnit (place e + i) = false ∧ s.dieAwake (place e + i) 1 = true) ∧
        ∀ e' ∈ ls, before.keyed (page e.1).key (place e') v.elemBytes = true) →
      ∃ t, o = .next t ∧
        (∀ a, (t.seen v.space).byte a = if v.space = 0 ∧ s.limit ≤ a then (before.seen v.space).byte a
          else (ls.foldl (fun m e => v.putIn m (place e) (v.elementAt e.1).2 e.2) (before.seen v.space)).byte a) ∧
        (∀ space : BitVec 3, space.toNat ≤ 5 → space ≠ v.space → ∀ a, (t.seen space).byte a = (before.seen space).byte a) ∧
        t.me = { s.me.advance with stores := [], boundary := s.me.boundary || f.order == 2 } ∧ (∀ j, j ≠ s.cur → t.hart j = s.hart j)
    let stores (o : Out) (ls : List (Nat × Nat)) : Prop :=
      let atOnce : Bool := f.order = 2 || (v.space == 0 && ls.any fun e => (page e.1).ord == 0)
      (atOnce = false → puts o ls) ∧ (atOnce = true → performs o ls)
    (let first : Int := (s.getS f.d).toInt + f.offs.toInt
     0 ≤ first → first < v.count → ready first.toNat = true →
     stores (exec (.wst f) s) [(first.toNat, (s.getS f.b).toNat % 2 ^ w)]) ∧
    (let first : Int := (s.getS f.d).toInt + f.offs.toInt
     let on := (List.range (512 / w)).filter fun e => (s.getK f.c).getLsbD (e * w / 32)
     let part := on.filter fun e => first.toNat + e < v.count
     0 ≤ first → (0 ∈ on → first < v.count) → s.unbound f.b = true →
     (∀ e ∈ part, ready (first.toNat + e) = true) →
     stores (exec (.vwst f) s) (part.map fun e => (first.toNat + e, ((s.me.regs.getV f.b).extractLsb' (w * e) w).toNat)))

/-- R302, R306, R310, R311: an atomic performs the hart's earlier stores and then its one access: it returns the old value,
which lands in its register after its window, and writes the new value at once, or leaves memory as it is where a
comparison fails; the bytes outside are as the earlier stores left them; and it ends its region. Model's choice: log entries 9 and
34, that every atomic performs the hart's earlier stores whatever its order and scope, and log entry 54, that it completes exactly 8
cycles later. -/
def Obligations.AtomicsExchangeAtOnce : Prop :=
  ∀ (f : FmtM) (s : State) (e : TlbEntry), s.memoryOk = true → s.runs f.gd = true →
    let ea := s.getS f.a + f.offs.signExtend 64
    let pa := e.physical ea.toNat
    let u := (s.touchDie (pa / 128 * 128) 128).drainAll s.cur
    let w := tyWidth f.ty
    let does (o : Out) (n : Nat) (new : Nat → Option Nat) (dests : Nat → List Dest) : Prop :=
      let old := u.mem.nat pa n
      ∃ t, o = .next t ∧ t.me.pend = s.me.pend ++ [{ dests := dests old, left := f.la.toNat, doneAt := some (s.now + 8), performed := true }] ∧
        t.me.boundary = true ∧ t.me.stores = [] ∧ t.me.pc = s.me.advance.pc ∧ t.me.regs = s.me.advance.regs ∧
        (∀ a, (a < pa ∨ pa + n ≤ a) → t.mem.byte a = u.mem.byte a) ∧
        t.mem.nat pa n = (new old).getD old ∧ (∀ j, j ≠ s.cur → t.hart j = s.hart j)
    let one (x : Nat) : List Dest := if f.d = 0 then [] else
      [.s f.d.toNat (if tySigned f.ty then (BitVec.ofNat w x).signExtend 64 else (BitVec.ofNat w x).setWidth 64)]
    let reg (r : BitVec 5) : BitVec w := (s.getS r).setWidth w
    s.atomicable ea f.order e = true →
    (tyAtomic f.ty = true → f.size = tySize f.ty → ea.toNat % (w / 8) = 0 →
      (f.c.toNat ≤ 8 → does (exec (.amo f) s) (w / 8) (fun old =>
        let o : BitVec w := .ofNat w old
        let x := reg f.b
        some (match f.c.toNat with
          | 0 => o + x | 1 => o &&& x | 2 => o ||| x | 3 => o ^^^ x
          | 4 => if x.slt o then x else o | 5 => if o.slt x then x else o
          | 6 => if x.ult o then x else o | 7 => if o.ult x then x else o | _ => x).toNat) one) ∧
      does (exec (.cas f) s) (w / 8) (fun old => if old = (reg f.c).toNat then some (reg f.b).toNat else none) one) ∧
    (f.ty = 7 → f.size = 4 → ea.toNat % 16 = 0 →
      does (exec (.cas2 f) s) 16
        (fun old => if old = (s.getS (f.c + 1) ++ s.getS f.c).toNat then some (s.getS (f.b + 1) ++ s.getS f.b).toNat else none)
        (fun old => if f.d = 0 then [] else
          [.s f.d.toNat (BitVec.ofNat 64 old), .s (f.d + 1).toNat (BitVec.ofNat 64 (old / 2 ^ 64))]))

/-- R314: an arrival at a barrier object in memory: an object that is not well formed answers all ones; the last arrival
answers its number, clears the count and raises the generation; an earlier one counts itself and waits, and goes on with its
number once the generation has changed; the wait reads the object anew each time, and poison that it reads is consumed. R236, R237, R299, R312, R139: a prefetch fills
one line of a cache and changes nothing a program reads; a clean and a release fence perform the hart's stores, once the
slot's matrix work is over (R277), and wait for a unit being moved and for sleeping die-cache banks, which they wake (R350, R371); a
release fence ends the region, an acquire fence does not. Model's choice: log entry 34 (a
release performs all the hart's stores whatever its scope), log entry 49 (each read of the wait is a load), log entry 53 (stores to
a unit being moved wait) and log entry 57 (which line leaves a cache that is full). -/
def Obligations.BarriersFencesAndHints : Prop :=
  (∀ (f : FmtM) (s : State) (e : TlbEntry), s.memoryOk = true → s.runs f.gd = true →
     let ea := s.getS f.a + f.offs.signExtend 64
     let pa := e.physical ea.toNat
     let u := (s.touchDie (pa / 128 * 128) 128).drainAll s.cur
     let word (i : Nat) : Nat := u.mem.nat (pa + 4 * i) 4
     let goes (o : Out) (x : Word) : Prop := ∃ t, o = .next t ∧ t.getS f.d = (if f.d = 0 then 0 else x) ∧
       t.me.pc = s.me.advance.pc ∧ t.me.boundary = true ∧ t.me.arrival = none
     (s.me.arrival = none → ea.toNat % 16 = 0 → s.atomicable ea 3 e = true →
       ((word 1 ≠ 0 ∨ word 0 = 0 ∨ word 0 ≤ word 2) → goes (exec (.barr f) s) (BitVec.allOnes 64)) ∧
       (word 1 = 0 → word 2 + 1 = word 0 → goes (exec (.barr f) s) (BitVec.ofNat 64 (word 2)) ∧
         ∃ t, exec (.barr f) s = .next t ∧ t.mem.nat (pa + 8) 4 = 0 ∧ t.mem.nat (pa + 12) 4 = (word 3 + 1) % 2 ^ 32 ∧
           ∀ a, a < pa + 8 ∨ pa + 16 ≤ a → t.mem.byte a = u.mem.byte a) ∧
       (word 1 = 0 → word 2 + 1 < word 0 →
         ∃ t, exec (.barr f) s = .next t ∧ t.mem.nat (pa + 8) 4 = word 2 + 1 ∧ t.mem.nat (pa + 12) 4 = word 3 ∧
           t.me.pc = s.me.pc ∧ t.me.wait = some .barrier ∧ t.me.arrival = some (word 3, word 2))) ∧
     (∀ gen arr, s.me.arrival = some (gen, arr) →
       let qa := e.physical (ea + 8).toNat
       (s.readable (ea + 8) 8 e = true →
         ((s.globalFor s.cur).nat (qa + 4) 4 = gen → exec (.barr f) s = .next ((s.touchDie qa 8).stall .barrier)) ∧
         ((s.globalFor s.cur).nat (qa + 4) 4 ≠ gen → goes (exec (.barr f) s) (BitVec.ofNat 64 arr))) ∧
       (s.maps (ea + 8) e = true → e.r = true → s.upsets = [] → s.dieAwake qa 8 = true → s.keyed e.key qa 8 = true →
         s.logAt qa = none → (s.globalFor s.cur).bad qa 8 = true → exec (.barr f) s = .next ((s.touchDie qa 8).poisonGlobal (ea + 8))))) ∧
  (∀ (f : FmtM) (s : State), s.runs f.gd = true →
    let kept (cap : Nat) (l : List Nat) (n : Nat) : List Nat := let m := l.filter (· ≠ n) ++ [n]; m.drop (m.length - cap)
    (∀ e, let pa := e.physical (s.getS f.a + f.offs.signExtend 64).toNat
      s.maps (s.getS f.a + f.offs.signExtend 64) e = true →
      ((if f.ty = 2 then e.w else e.r) = false → exec (.pf f) s = .next s.advance) ∧
      ((if f.ty = 2 then e.w else e.r) = true → f.ty = 1 → exec (.pf f) s = .next (s.setDie (hartDie s.cur)
        { s.die (hartDie s.cur) with lines := kept 1048576 (s.die (hartDie s.cur)).lines (pa / 128) }).advance) ∧
      ((if f.ty = 2 then e.w else e.r) = true → f.ty ≠ 1 → exec (.pf f) s = .next (s.setMyCore
        { s.myCore with lines := kept 512 s.myCore.lines (pa / 128) }).advance) ∧
      (e.r = true → f.scope.toNat ≤ 1 → exec (.cln f) s = .next s.advance) ∧
      (e.r = true → 1 < f.scope.toNat → s.mayPublish = true →
        (f.ty = 0 → exec (.cln f) s = .next (s.drainAll s.cur).advance) ∧
        (f.ty = 1 → exec (.cln f) s = .next ((s.drainAll s.cur).setMyCore { (s.drainAll s.cur).myCore with
          lines := (s.drainAll s.cur).myCore.lines.filter (· ≠ pa / 128) }).advance))) ∧
    (canonical (s.getS f.a + f.offs.signExtend 64) = false →
      exec (.pf f) s = .next s.advance ∧
      exec (.cln f) s = .next (s.trap { cls := .protection, addr := s.getS f.a + f.offs.signExtend 64 }))) ∧
  (∀ (f : FmtA) (s : State), s.runs f.gd = true →
    (f.order = 1 → exec (.fence f) s = .next s.advance) ∧
    (f.order = 2 ∨ f.order = 3 →
      (s.mayPublish = true → exec (.fence f) s = .next (s.drainAll s.cur).endRegion.advance) ∧
      (s.streamless = true → s.sliceWork = true → exec (.fence f) s = .next (s.stall .slice)) ∧
      (s.streamless = true → s.sliceWork = false → s.me.stores.any s.blocked = true → exec (.fence f) s = .next (s.stall .sweep)) ∧
      (s.streamless = true → s.sliceWork = false → s.me.stores.any s.blocked = false → s.me.stores.all s.awakeFor = false →
        exec (.fence f) s = .next ((s.wakeFor s.me.stores).stall .bank))))


/-- R214, R220, R235, R311, R318: the checks of an access in their order, each with the address as the report's operand: an
address that is no multiple of the size is the alignment trap; then one that is not canonical, or whose page forbids the
access or lies where the hart may not reach (R12, R373), is the protection trap; an address that no level translates makes the
task wait on a miss: the queue of its cluster notes its key and its kind, with the address and `regionpc` (R342), and on an entry that
is parked already, or at poison, the task parks (R222, R326). R137 to R141, R323: an abort takes the registers with the views and the
pc back to the checkpoint; the stores of the region are gone, and those of earlier ones are performed; a command under an unresolved
guard is gone, and one that was kicked waits in its queue again. Model's choice: log entry 37. -/
def Obligations.AccessesTrapInOrder : Prop :=
  ∀ (f : FmtM) (s : State), s.runs f.gd = true → f.size.toNat ≤ 4 →
    let ea := s.getS f.a + f.offs.signExtend 64
    let bad := ea.toNat % 2 ^ f.size.toNat ≠ 0
    let each (p : Out → Prop) : Prop := p (exec (.ld f) s) ∧ p (exec (.st f) s) ∧ p (exec (.amo f) s) ∧ p (exec (.cas f) s) ∧
      p (exec (.cas2 f) s) ∧ p (exec (.wfv f) s)
    (bad → each (· = .next (s.trap { cls := .alignment, addr := ea })) ∧
      exec (.bld f) s = .next (s.trap { cls := .alignment, addr := ea }) ∧
      exec (.bst f) s = .next (s.trap { cls := .alignment, addr := ea })) ∧
    (¬ bad → canonical ea = false → each (· = .next (s.trap { cls := .protection, addr := ea }))) ∧
    (¬ bad → ∀ e, s.maps ea e = true →
      (e.r = false → exec (.ld f) s = .next (s.trap { cls := .protection, addr := ea }) ∧
        exec (.wfv f) s = .next (s.trap { cls := .protection, addr := ea })) ∧
      (e.w = false → exec (.st f) s = .next (s.trap { cls := .protection, addr := ea })) ∧
      (e.r = false ∨ e.w = false → exec (.amo f) s = .next (s.trap { cls := .protection, addr := ea }) ∧
        exec (.cas f) s = .next (s.trap { cls := .protection, addr := ea }) ∧
        exec (.cas2 f) s = .next (s.trap { cls := .protection, addr := ea }))) ∧
    (¬ bad → canonical ea = true → ∀ e, s.firstTlb.find? (·.covers (s.asidOf s.cur) ea.toNat) = some e →
      s.reaches s.cur (e.physical ea.toNat) = false → each (· = .next (s.trap { cls := .protection, addr := ea }))) ∧
    (¬ bad → canonical ea = true → s.lookup s.cur (s.asidOf s.cur) ea.toNat = none →
      exec (.ld f) s = .next (s.taskMiss (s.asidOf s.cur) 0 ea) ∧ exec (.wfv f) s = .next (s.taskMiss (s.asidOf s.cur) 0 ea) ∧
      exec (.st f) s = .next (s.taskMiss (s.asidOf s.cur) 1 ea) ∧ exec (.amo f) s = .next (s.taskMiss (s.asidOf s.cur) 2 ea) ∧
      exec (.cas f) s = .next (s.taskMiss (s.asidOf s.cur) 2 ea) ∧ exec (.cas2 f) s = .next (s.taskMiss (s.asidOf s.cur) 2 ea)) ∧
    (∀ (asid kind : Nat) (va : Word), isSlot s.cur = true → asid < 2 ^ 8 → kind < 2 ^ 4 → hartSlot s.cur < 4 →
      let id := s.cur
      let k := s.cluster (hartCluster id)
      let page := bits va.toNat 16 41
      let noted (c : TrapClass) : State := s.markFault c va
      let entered (e : MissEntry) (asid kind : Nat) : Prop := e.seq = k.nextSeq ∧ e.asid = asid ∧ e.page = page ∧ e.parked = false ∧
        e.image.extractLsb' 0 64 = va ∧ e.image.extractLsb' 64 64 = s.me.regionpc ∧ (e.image.extractLsb' 144 2).toNat = hartSlot id ∧
        (e.image.extractLsb' 148 4).toNat = kind ∧ (e.image.extractLsb' 152 8).toNat = asid ∧
        (e.image.extractLsb' 160 32).toNat = k.nextSeq
      (s.missEntry (hartCluster id) asid page = none → k.live < 256 → k.overflow = [] → k.nextSeq < 2 ^ 32 →
        let t := s.taskMiss asid kind va
        t.me = { s.me with wait := some .miss, fault := some { trap := { cls := .pageFault, addr := va }, pc := s.me.pc, insn := s.me.insn } } ∧
        ∃ e, (t.cluster (hartCluster id)).misses = k.misses ++ [e] ∧ entered e asid kind ∧ e.stalled = [.hart id]) ∧
      (∀ e, s.missEntry (hartCluster id) asid page = some e → e.parked = true → s.mayPark id = true →
        let a := (noted .pageFault).abortAt id
        let t := s.taskMiss asid kind va
        let left (f : MissEntry → MissEntry) : List MissEntry :=
          (a.cluster (hartCluster id)).misses.map fun x => if x.seq = e.seq then f x else x
        (s.keepsSlot id = false → t.hart id = {} ∧
          (t.cluster (hartCluster id)).misses = left fun x => { x with records := x.records ++ [(a.hart id, id)] }) ∧
        (s.keepsSlot id = true → t.hart id = { a.hart id with parked := some e.seq } ∧
          (t.cluster (hartCluster id)).misses = left fun x => { x with kept := x.kept ++ [id] })) ∧
      (s.missEntry (hartCluster id) (s.asidOf id) page = none → k.live < 256 → k.overflow = [] → k.nextSeq < 2 ^ 32 →
        s.asidOf id < 2 ^ 8 → s.mayPark id = true → s.keepsSlot id = false →
        let t := s.poisonGlobal va
        t.hart id = {} ∧ ∃ e h, (t.cluster (hartCluster id)).misses.getLast? = some e ∧ entered e (s.asidOf id) 6 ∧ e.stalled = [] ∧
          e.records = [(h, id)] ∧ h.regs.s = ((s.hart id).inRegion).checkpoint.s ∧ h.pc = ((s.hart id).inRegion).regionpc) ∧
      (s.mayPark id = false → (s.poisonGlobal va).me = { s.me with wait := some .bank })) ∧
    (∀ id : HartId,
      let h := (s.hart id).inRegion
      let t := s.abortAt id
      let h' := t.hart id
      h'.regs = { h.checkpoint with streams := h.checkpoint.streams.map fun b => b.map fun x => { x with entries := [] }
                                    rep := h.checkpoint.rep.map fun r => { r with words := [] } } ∧
      h'.pc = h.regionpc ∧ h'.stores = [] ∧ h'.unres = [] ∧ h'.pend = h.checkPend ∧ h'.wait = none ∧ h'.word = none ∧
      h'.vxfLo = h.vxfLo ∧ h'.vxfHi = h.vxfHi ∧ h'.tagdone = h.tagdone ∧ h'.tagfail = h.tagfail ∧
      h'.wd = (if s.keepsSlot id then h.wd else h.checkWd) ∧
      (∀ c ∈ h'.queue, c.state ≠ .kicked) ∧
      (∀ c ∈ h.queue, (∀ n, c.state ≠ .held n) → ({ c with state := if c.state = .kicked then .queued else c.state } : Command) ∈ h'.queue) ∧
      (∀ c ∈ h'.queue, (∃ n, c.state = .held n) → c.fresh = false) ∧
      ∃ u : State, u.mem = s.mem ∧ u.detour = s.detour ∧ u.upsets = s.upsets ∧ u.lineKeys = s.lineKeys ∧
        t.mem = (u.leaveStores (h.stores.filter fun st => !st.fresh)).mem)

/-! ### Tiles and matrix instructions (11) -/

/-- R270, R271, R284: `tclaim` takes all the tiles of its mask that its slot lacks, cleared, or none: at once where they
are free and no older claim waits for one; the trying form, and a slot that holds tiles already, answers 1 instead of
waiting; otherwise the claim waits in its core's order, and the first that can be granted is: one whose tiles are all free and of
which no claim before it waits for any. `tfree` gives tiles back, once
the slot's matrix instructions have read theirs (R275).
R267, R269, R285: `tcfg` writes the descriptor of a tile that the slot holds, from the fields of S[A], leaving its
elements; `tcfg.get` reads it back, and 0 of a tile that the slot does not hold; `tzero` clears the elements and sets the
scales to 1.0. A tile that the slot does not hold is the protection trap. Model's choice: log entry 64, and log entry 85: that trap
comes before the illegal-instruction trap of the reserved bits. -/
def Obligations.TilesAreClaimedAndDescribed : Prop :=
  (∀ (f : FmtT) (s : State), s.runs f.gd = true →
    let slot := hartSlot s.cur
    let holder (i : Nat) : Option Nat := (s.myCore.tiles.toList.getD i {}).holder
    let need (i : Nat) : Bool := (s.getS f.a).getLsbD i && holder i != some slot
    let older := s.myCore.claims.takeWhile (·.1 ≠ slot)
    let free : Bool := (List.range 8).all fun i => !need i || (holder i == none && older.all fun c => !c.2.getLsbD i)
    let holds : Bool := (List.range 8).any fun i => holder i == some slot
    let mine (t : State) : Prop := s.onlySelf { t with cores := s.cores } ∧ ∀ c, c ≠ hartCore s.cur → t.core c = s.core c
    (free = true → ∃ t, exec (.tclaim f) s = .next t ∧ mine t ∧ t.me = (s.setS f.d 0).advance.me ∧
      t.myCore.claims = s.myCore.claims.filter (·.1 ≠ slot) ∧
      ∀ i : Fin 8, t.myCore.tiles[i] = if need i then { holder := some slot } else s.myCore.tiles[i]) ∧
    (free = false → (f.fn = 1 ∨ holds = true) → ∃ t, exec (.tclaim f) s = .next t ∧ mine t ∧
      t.me = (s.setS f.d 1).advance.me ∧ t.myCore = { s.myCore with claims := s.myCore.claims.filter (·.1 ≠ slot) }) ∧
    (free = false → f.fn ≠ 1 → holds = false → ∃ t, exec (.tclaim f) s = .next t ∧ mine t ∧
      t.me = { s.me with wait := some .claim } ∧ ∃ m : BitVec 8, (∀ i < 8, m.getLsbD i = need i) ∧
        t.myCore = if s.myCore.claims.any (·.1 == slot) then s.myCore
          else { s.myCore with claims := s.myCore.claims ++ [(slot, m)] }) ∧
    (s.myCore.jobs.any (·.slot == slot) = false →
      (∀ p ∈ s.me.pend, ∀ n x, Dest.t n x ∈ p.dests → (s.getS f.a).getLsbD n = false) → ∃ t, exec (.tfree f) s = .next t ∧ mine t ∧
      t.me = s.endRegion.advance.me ∧ ∀ i : Fin 8, t.myCore.tiles[i] =
        if (s.getS f.a).getLsbD i && holder i == some slot then { s.myCore.tiles[i] with holder := none } else s.myCore.tiles[i])) ∧
  (∀ (s : State) (core slot : Nat) (m : BitVec 8) (rest : List (Nat × BitVec 8)), (s.core core).claims = (slot, m) :: rest →
    (∀ i : Fin 8, m.getLsbD i = true → ((s.core core).tiles[i]).holder = none) →
    ∃ t, exec (.tileClaimGrant core) s = .next t ∧ t = s.setCore core (t.core core) ∧
      (t.core core).claims = rest.filter (·.1 ≠ slot) ∧
      ∀ i : Fin 8, (t.core core).tiles[i] = if m.getLsbD i then { holder := some slot } else (s.core core).tiles[i]) ∧
  (∀ (s : State) (core : Nat), let claims := (s.core core).claims
    let may (n : Nat) (c : Nat × BitVec 8) : Prop := (∀ i : Fin 8, c.2.getLsbD i = true → ((s.core core).tiles[i]).holder = none) ∧
      ∀ older ∈ claims.take n, ∀ i < 8, older.2.getLsbD i = true → c.2.getLsbD i = false
    (∀ n c, claims[n]? = some c → may n c → (∀ j d, j < n → claims[j]? = some d → ¬ may j d) →
      ∃ t, exec (.tileClaimGrant core) s = .next t ∧ t = s.setCore core (t.core core) ∧
        (t.core core).claims = claims.filter (·.1 ≠ c.1) ∧
        ∀ i : Fin 8, (t.core core).tiles[i] = if c.2.getLsbD i then { holder := some c.1 } else (s.core core).tiles[i]) ∧
    ((∀ j d, claims[j]? = some d → ¬ may j d) → exec (.tileClaimGrant core) s = .next s)) ∧
  (∀ (f : FmtT) (s : State), s.runs f.gd = true → s.me.pend = [] → f.d.toNat < 8 → f.a.toNat < 8 →
     let x := s.getS f.a
     let ty : BitVec 4 := x.extractLsb' 15 4
     let b8 : BitVec 5 := x.extractLsb' 19 5
     let kext := (x.extractLsb' 32 8).toNat
     let oext := (x.extractLsb' 24 8).toNat
     let role := x.getLsbD 13
     let scaled := x.getLsbD 14
     (s.holds f.d = true → x.extractLsb' 40 24 = 0 →
       (tileFormat s.reducedService ty b8 = true → (scaled = true → ty = 10 ∨ ty = 11 ∨ ty = 12 ∨ ty = 14) →
         1 ≤ kext → kext ≤ kLimit ty → 1 ≤ oext → oext ≤ (if role || ty == 8 then 32 else 64) →
         ∃ t, exec (.tcfg f) s = .next t ∧ t.me = s.advance.me ∧
           t.tile f.d = { s.tile f.d with kext, oext, b8, ty, scaled, role, loaded := true } ∧
           ∀ n : BitVec 5, n ≠ f.d → t.tile n = s.tile n) ∧
       (tileFormat s.reducedService ty b8 = false → exec (.tcfg f) s = .next (s.raise .viewFormat))) ∧
     (s.holds f.d = true → x.extractLsb' 40 24 ≠ 0 → exec (.tcfg f) s = .next (s.raise .illegal)) ∧
     (s.holds f.d = true → ∃ t, exec (.tzero f) s = .next t ∧ t.me = s.advance.me ∧
       t.tile f.d = { s.tile f.d with codes := [], scales := [], scaleFill := 0x3F800000, bad := [] } ∧
       ∀ n : BitVec 5, n ≠ f.d → t.tile n = s.tile n) ∧
     (s.holds f.d = false → exec (.tcfg f) s = .next (s.raise .protection) ∧ exec (.tzero f) s = .next (s.raise .protection)) ∧
     (let t := s.tile f.a
      let b (p : Bool) : BitVec 1 := if p then 1 else 0
      t.kext < 256 → t.oext < 256 → exec (.tcfgGet f) s = .next (s.setS f.d (if s.holds f.a
        then (BitVec.ofNat 32 t.kext ++ BitVec.ofNat 8 t.oext ++ t.b8 ++ t.ty ++ b t.scaled ++ b t.role ++ (0 : BitVec 11) ++
          b t.loaded ++ (1 : BitVec 1)) else 0)).advance))


/-- R286, R287, R288: `tld` reads a tile from an open view of the W or A buffer, element (r, k) from linear index k + E0 r, or
r + E0 k with the view's K dimension 1, and its scales; `tst` writes one back, and only there; `ttr` turns one over. The
times of the accessed banks are left out. -/
def Obligations.TilesMoveThroughViews : Prop :=
  ∀ (f : FmtT) (s : State), s.memoryOk = true → s.runs f.gd = true → s.orderFree = true →
    let kd := f.fn.toNat % 2
    let ext (v : View) (d : Nat) : Nat := (v.dims.toList.getD d {}).ext.toNat
    let lo (v : View) (d : Nat) : Int := (v.dims.toList.getD d {}).lo
    let linear (v : View) (r k : Nat) : Nat := if kd = 0 then k + ext v 0 * r else r + ext v 0 * k
    let tuple (v : View) (r b : Nat) : List Int := if kd = 0 then [lo v 0 + 32 * b, lo v 1 + r] else [lo v 0 + r, lo v 1 + 32 * b]
    let any : TlbEntry := ⟨0, 0⟩
    (let v := s.getW f.a
     let role := f.fn.getLsbD 1
     let kext := ext v kd
     let oext := ext v (1 - kd)
     let m := s.localMem v.space
     s.holds f.d = true → v.live = true → v.space = 2 ∨ v.space = 3 → v.rank ≤ 2 → tileFormat s.reducedService v.ty v.b8 = true →
     extentsFit v.ty role kext oext = true →
     (∀ r < oext, ∀ k < kext, s.elementReady v (linear v r k) any false = true) →
     (∀ c, v.scl = some c → View.scalable v.ty = true ∧ c.kdim = kd ∧ lo v kd % 32 = 0 ∧ ∀ r < oext, ∀ b < (kext + 31) / 32,
       let a := v.scaleAddress c (tuple v r b)
       s.elementOk v.space a (View.scaleBytes c) = true ∧ s.localReady v.space a.toNat (View.scaleBytes c) = true ∧
         m.bad a.toNat (View.scaleBytes c) = false) →
     ∃ (x : Tile) (use : Table Bank Nat), exec (.tld f) s = .next (State.later { s with bankUse := use } f.la 20 [.t f.d.toNat x] (0, 0)).advance ∧
       (x.kext, x.oext, x.ty, x.b8, x.role, x.scaled, x.loaded) = (kext, oext, v.ty, v.b8, role, v.scl.isSome, true) ∧
       (∀ r < oext, ∀ k < kext, x.code r k =
         v.codeIn m (State.elementPlace v (linear v r k) any) (v.elementAt (linear v r k)).2) ∧
       ∀ c, v.scl = some c → ∀ r < oext, ∀ b < (kext + 31) / 32,
         let n := m.nat (v.scaleAddress c (tuple v r b)).toNat (View.scaleBytes c)
         x.scale r b = if !c.e8m0 then n else if n = 0 then 2 ^ 22 else if n = 255 then 0x7FC00000 else n * 2 ^ 23) ∧
    (let v := s.getW f.d
     let x := s.tile f.a
     let places := (List.range x.oext).flatMap fun r => (List.range x.kext).map fun k => (r, k)
     let blocks := (List.range x.oext).flatMap fun r => (List.range ((x.kext + 31) / 32)).map fun b => (r, b)
     s.holds f.a = true → f.ty = x.ty → f.c = x.b8 → x.loaded = true → v.live = true → 2 ≤ v.space.toNat → v.space.toNat ≤ 5 →
     v.ty = x.ty → v.b8 = x.b8 → ext v kd = x.kext → ext v (1 - kd) = x.oext → v.count = x.kext * x.oext → v.mode ≠ 1 →
     (x.scaled = true → ∃ c, v.scl = some c ∧ c.e8m0 = false ∧ c.kdim = kd ∧ lo v kd % 32 = 0) → x.kext * x.oext ≠ 0 →
     (∀ off, s.awake (s.bankOf v.space off) = true) → s.myCore.sliceBusy s.now (hartSlot s.cur) 0 65536 = false →
     (∀ p ∈ places, s.elementOk v.space (v.elementAt (linear v p.1 p.2)).1 v.elemBytes = true) →
     (∀ c, v.scl = some c → x.scaled = true → ∀ p ∈ blocks, let sa := v.scaleAddress c (tuple v p.1 p.2)
       s.elementOk v.space sa 4 = true ∧ (v.packed = true → ∀ q ∈ places, let a := (v.elementAt (linear v q.1 q.2)).1
         a + 1 ≤ sa ∨ sa + 4 ≤ a)) →
     let m := places.foldl (fun m p => v.putIn m (State.elementPlace v (linear v p.1 p.2) any)
       (v.elementAt (linear v p.1 p.2)).2 (x.code p.1 p.2)) (s.myCore.buffer v.space)
     let m := match v.scl with
       | some c => if x.scaled then blocks.foldl (fun (m : Mem) (p : Nat × Nat) =>
           m.storeNat (v.scaleAddress c (tuple v p.1 p.2)).toNat 4 (x.scale p.1 p.2)) m else m
       | none => m
     ∃ t, exec (.tst f) s = .next t ∧ t.me = s.advance.me ∧ s.onlySelf { t with cores := s.cores, bankUse := s.bankUse } ∧
       (∀ c, c ≠ hartCore s.cur → t.core c = s.core c) ∧ t.myCore = s.myCore.setBuffer v.space (t.myCore.buffer v.space) ∧
       ∀ a, (t.myCore.buffer v.space).byte a = m.byte a) ∧
    (let x := s.tile f.a
     let swap := f.fn.getLsbD 0
     let kext := if swap then x.oext else x.kext
     let oext := if swap then x.kext else x.oext
     let role := x.role != f.fn.getLsbD 1
     s.holds f.a = true → s.holds f.d = true → x.loaded = true → (swap && x.scaled) = false →
     extentsFit x.ty role kext oext = true →
     ∃ y : Tile, exec (.ttr f) s = .next (s.later f.la 16 [.t f.d.toNat y] (0, 0)).advance ∧
       (y.kext, y.oext, y.ty, y.b8, y.role, y.scaled, y.loaded) = (kext, oext, x.ty, x.b8, role, x.scaled, true) ∧
       ∀ r < oext, ∀ k < kext, y.code r k = if swap then x.code k r else x.code r k)

/-- R273, R278, R289, R291: a matrix instruction whose tiles agree enters its core's slice queue with its tiles as they
stand, ends its region, and has no other effect at once; the checks before it trap in their order. R292: `cread` reads 64
bytes of the C buffer as f32, i32 or f64 elements, scaled where FN[2] says so, converts each to TYPE, and leaves them from
element 0 up, zeros above, to land after 4 cycles; what the exact product of two finite values is, what one rounding of it is and
what a conversion gives, the statements of the vector instructions say. Model's choice: log entry 27. -/
def Obligations.MatrixInstructionsAndElementReads : Prop :=
  (∀ (f : FmtT) (s : State), s.runs f.gd = true →
     let a := s.tile f.a
     let b := s.tile f.b
     let narrow (t : BitVec 4) : Bool := t == 0 || t == 4
     let float (t : BitVec 4) : Bool := t == 8 || t == 10 || t == 11 || t == 12 || t == 14
     let ready := s.orderFree && s.awake (.typed (hartCore s.cur) 4 0)
     let queues (o : Out) (j : SliceJob) : Prop := ∃ t, o = .next t ∧ t.nextId = s.nextId + 1 ∧
       t.myCore = { s.myCore with jobs := s.myCore.jobs ++ [{ j with id := s.nextId, slot := hartSlot s.cur }] } ∧
       t.me = (Hart.advance { s.me with
         pend := s.me.pend ++ [{ dests := [], left := f.la.toNat, doneAt := none, performed := true, job := s.nextId, sets := !f.nf }]
         boundary := true }) ∧ t.bankUse = (s.touch (.typed (hartCore s.cur) 4 0)).bankUse ∧
       (∀ c, c ≠ hartCore s.cur → t.core c = s.core c) ∧
       s.onlySelf { t with cores := s.cores, nextId := s.nextId, bankUse := s.bankUse }
     let job (kind : Nat) : SliceJob := { id := 0, slot := 0, kind, coff := f.coff.toNat, a, b, z := f.fn.getLsbD 0, wrap := f.wrap, nf := f.nf }
     let traps (c : TrapClass) : Prop := exec (.mma f) s = .next (s.raise c) ∧ exec (.dmma f) s = .next (s.raise c)
     (s.holds f.a = false ∨ s.holds f.b = false → traps .protection) ∧
     (s.holds f.a = true → s.holds f.b = true →
       let shaped := a.loaded && b.loaded && !a.role && b.role && a.kext == b.kext
       (shaped = false → traps .viewFormat) ∧
       (shaped = true → (a.ty = b.ty ∨ (narrow a.ty && narrow b.ty) = true) → ready = true →
         (a.ty ≠ 8 → (f.wrap && float a.ty) = false → queues (exec (.mma f) s) (job 0)) ∧
         (a.ty ≠ 8 → (f.wrap && float a.ty) = true → exec (.mma f) s = .next (s.raise .illegal)) ∧
         (a.ty ≠ 8 → exec (.dmma f) s = .next (s.raise .viewFormat)) ∧
         (a.ty = 8 → exec (.mma f) s = .next (s.raise .viewFormat) ∧ (f.wrap = false → queues (exec (.dmma f) s) (job 1)))) ∧
       (shaped = true → a.ty ≠ b.ty → (narrow a.ty && narrow b.ty) = false → traps .viewFormat)) ∧
     (ready = true → queues (exec (.tscl f) s) { id := 0, slot := 0, kind := if f.fn.getLsbD 0 then 3 else 2, coff := f.coff.toNat, nf := f.nf
                                                 rnd := if f.rnd = 7 then s.me.regs.rmode else f.rnd
                                                 scale := (s.getS f.a).toNat % 2 ^ 32 })) ∧
  (∀ (f : FmtT) (s : State), s.runs f.gd = true → s.orderFree = true → s.unbound f.d = true → f.fn.toNat < 8 →
     f.fn.toNat % 4 ≠ 3 → s.localReady 4 (f.coff.toNat * 64) 64 = true → s.awake (.typed (hartCore s.cur) 4 0) = true →
     f.ty ≠ 15 →
     let m := s.myCore.c
     m.bad (f.coff.toNat * 64) 64 = false →
     let n := if f.fn.toNat % 4 = 2 then 8 else 4
     let w := tyWidth f.ty
     let md := s.mode f.rnd
     let src := NumFmt.ofTy (if f.fn.toNat % 4 = 0 then 9 else if f.fn.toNat % 4 = 1 then 2 else 8) 0
     let dst := NumFmt.ofTy f.ty f.c
     let code (e : Nat) : Nat := m.nat (f.coff.toNat * 64 + n * e) n
     let r (e : Nat) : Nat × Flags :=
       if f.fn.toNat < 4 then convert src dst md f.sat (code e)
       else dst.fromExact md f.sat (exactMul (src.value (code e)) ((NumFmt.ofTy 9 0).value ((s.getS f.a).toNat % 2 ^ 32)))
     ∃ x : BitVec 512, exec (.cread f) s = .next ((s.touch (.typed (hartCore s.cur) 4 0)).later f.la 4 [.v f.d.toNat x]
         (flagsUnless f.nf ((List.range (64 / n)).map fun e => (n * e / 4, (r e).2))) (!f.nf)).advance ∧
       ∀ e < 512 / w, (x.extractLsb' (w * e) w).toNat = if e < 64 / n then (r e).1 % 2 ^ w else 0)

/-- R182, R183, R273, R278, R289, R291: a free slice starts the oldest instruction of slot 3, else the oldest, and updates exactly its
elements of C: those of its tiles' rows and columns for `mma` and `dmma`, and the whole region for `tscl`; its flags go to the task that
issued it. For integer tiles element (i, k) takes the sum of the products of row i and row k, reduced to 32 bits under WRAP, and
otherwise clamped after each block of 32. R168, R180, R181: for floating tiles it takes, block by block in rising order and rounded to
nearest each time, the exact sum of the block's products times its two scales, rounded once; a scale that is not positive and finite, a
NaN, 0 times an infinity and infinities of both signs make the block a NaN. R183: for binary64 tiles it takes one fused step for
each k, without blocks and scales. R291: `tscl` makes each element its product with the scale, rounded once. Log entry 27: it is updated
when it starts, and its slot's accesses wait until it is complete. R290: the sum that a gang's member keeps adds every member's
blocks, in rising order of member, to its eight rows of C as those rules give, clamped or reduced or rounded block by block, and changes
no other byte. Model's choice: log entry 27, and log entry 70 (the sign of an exact sum of zero). -/
def Obligations.TheSliceAndGangsSum : Prop :=
  let f32 := NumFmt.ofTy 9 0
  let f64 := NumFmt.ofTy 8 0
  let whole (x : Tile) (r n : Nat) : Int :=
    if x.ty = 13 then (BitVec.ofNat 4 (x.code r n)).toInt else if x.ty = 0 then (BitVec.ofNat 8 (x.code r n)).toInt
    else (BitVec.ofNat 8 (x.code r n)).toNat
  let sum (a b : Tile) (i k lo hi : Nat) : Int :=
    ((List.range (min hi a.kext - lo)).map fun n => whole a i (lo + n) * whole b k (lo + n)).sum
  let clamped (x : Int) : Int := max (-(2 ^ 31)) (min x (2 ^ 31 - 1))
  let el (t : Tile) (r n : Nat) : Machine.Num := (NumFmt.ofTy t.ty t.b8).value (t.code r n)
  let ok (v : Machine.Num) : Bool := match v with | .fin neg m _ => !neg && m != 0 | _ => false
  let blockIs (a b : Tile) (i k n : Nat) (x : Machine.Num × Flags) : Prop :=
    let sa := f32.value (if a.scaled then a.scale i n else 0x3F800000)
    let sb := f32.value (if b.scaled then b.scale k n else 0x3F800000)
    let inside (q : Nat) : Prop := 32 * n ≤ q ∧ q < 32 * n + 32 ∧ q < a.kext
    let product (q : Nat) : Exact := exactMul (el a i q) (el b k q)
    let infinite (neg : Bool) : Prop := ∃ q, inside q ∧ product q = .inf neg {}
    let nan : Prop := ∃ q fl, inside q ∧ product q = .nan fl
    (ok sa = false ∨ ok sb = false → x = (.nan false, { nv := (!ok sa && !anyNan [sa]) || (!ok sb && !anyNan [sb]) })) ∧
    (ok sa = true → ok sb = true →
      (nan → x.1 = .nan false ∧ x.2 = { nv := x.2.nv } ∧ (x.2.nv = true ↔ ∃ q, inside q ∧ product q = .nan { nv := true })) ∧
      (¬ nan → (infinite true → infinite false → x = (.nan false, { nv := true })) ∧
        (∀ neg, infinite neg → ¬ infinite (!neg) → x = (.inf neg, {})) ∧
        (¬ infinite true → ¬ infinite false → ∃ lo : Int, ∃ ma ea mb eb, sa = .fin false ma ea ∧ sb = .fin false mb eb ∧
          (∀ q, inside q → ∃ n1 m1 e1 n2 m2 e2, el a i q = .fin n1 m1 e1 ∧ el b k q = .fin n2 m2 e2 ∧ lo ≤ e1 + e2) ∧
          (let part (q : Nat) : Int := match el a i q, el b k q with
             | .fin n1 m1 e1, .fin n2 m2 e2 => scaled (n1 != n2) (m1 * m2) (e1 + e2) lo
             | _, _ => 0
           let z : Int := ((List.range (min (32 * n + 32) a.kext - 32 * n)).map fun q => part (32 * n + q)).sum
           let r := f32.deliver .rne false (.mag (z < 0) ⟨z.natAbs * ma * mb, lo + ea + eb, false⟩)
           x = if z = 0 then (.fin false 0 0, {}) else (f32.value r.1, r.2)))))
  let add (c : Nat × Flags) (x : Machine.Num × Flags) : Nat × Flags :=
    let r := f32.deliver .rne false (exactAdd .rne (f32.value c.1) x.1)
    (r.1, (c.2.or x.2).or r.2)
  let blocks (l : List (Tile × Tile)) : List ((Tile × Tile) × Nat) :=
    l.flatMap fun q => (List.range ((q.1.kext + 31) / 32)).map fun n => (q, n)
  let floats (l : List (Tile × Tile)) (i k c : Nat) (r : Nat × Flags) : Prop :=
    ∃ xs, List.Forall₂ (fun q x => blockIs q.1.1 q.1.2 i k q.2 x) (blocks l) xs ∧ r = xs.foldl add (c, {})
  (∀ (s : State) (core : Nat) (j : SliceJob) (before after : List SliceJob), s.memoryOk = true →
     (s.core core).jobs = before ++ j :: after → (∀ q ∈ before ++ after, q.id ≠ j.id) →
     ((∀ q ∈ before, q.slot ≠ 3) ∧ j.slot = 3 ∨ (∀ q ∈ before ++ j :: after, q.slot ≠ 3) ∧ before = []) →
     (match (s.core core).slice with | some r => decide (r.doneAt ≤ s.now) | none => true) = true →
     j.kind ≤ 3 →
     let double : Bool := j.kind == 1 || j.kind == 3
     let bytes := if double then 8 else 4
     let rows := if j.kind = 2 then 64 else if j.kind = 3 then 32 else j.a.oext
     let columns := if j.kind = 2 ∨ j.kind = 3 then 32 else j.b.oext
     rows ≤ 64 → columns ≤ 32 →
     let place (i k : Nat) : Nat := j.coff * 64 + 32 * bytes * i + bytes * k
     let c := (s.core core).c
     let result (i k : Nat) : Nat × Flags := j.compute i k (c.nat (place i k) bytes)
     let doneAt := s.now + if j.kind = 1 then 1024 else if j.kind = 2 ∨ j.kind = 3 then 16 else if j.a.ty = 13 then 64 else 32
     let fl := flagsUnless j.nf (((List.range rows).flatMap fun i => (List.range columns).map fun k => (i, k)).map fun p =>
       (p.2 % 16, (result p.1 p.2).2))
     ∃ t, exec (.matrixSliceStart core) s = .next t ∧ (t.core core).jobs = before ++ after ∧
       (t.core core).slice = some { slot := j.slot, lo := j.coff * 64, hi := j.coff * 64 + 8192, doneAt } ∧
       (∀ i < rows, ∀ k < columns, (t.core core).c.nat (place i k) bytes = (result i k).1 % 2 ^ (8 * bytes)) ∧
       (∀ a, (∀ i < rows, ∀ k < columns, a < place i k ∨ place i k + bytes ≤ a) → (t.core core).c.byte a = c.byte a) ∧
       (∀ h, (t.hart h).pend = (s.hart h).pend.map fun p =>
         if p.job = j.id then { p with doneAt := some doneAt, flagsLo := fl.1, flagsHi := fl.2 } else p)) ∧
  (∀ (j : SliceJob) (i k c : Nat),
     let was := if j.z then 0 else c
     (j.kind = 0 → j.a.ty = 0 ∨ j.a.ty = 4 ∨ j.a.ty = 13 →
       let new : BitVec 32 := .ofNat 32 (j.compute i k c).1
       let old : BitVec 32 := .ofNat 32 was
       (j.compute i k c).2 = {} ∧
       (j.wrap = true → new = .ofInt 32 (old.toInt + sum j.a j.b i k 0 j.a.kext)) ∧
       (j.wrap = false → new.toInt = (List.range ((j.a.kext + 31) / 32)).foldl
         (fun x n => clamped (x + sum j.a j.b i k (32 * n) (32 * n + 32))) old.toInt)) ∧
     (j.kind = 0 → j.a.ty = 10 ∨ j.a.ty = 11 ∨ j.a.ty = 12 ∨ j.a.ty = 14 → floats [(j.a, j.b)] i k was (j.compute i k c)) ∧
     (j.kind = 1 → j.compute i k c = (List.range j.a.kext).foldl (fun (x : Nat × Flags) n =>
       let r := f64.deliver .rne false (exactFma .rne (el j.a i n) (el j.b k n) (f64.value x.1))
       (r.1, x.2.or r.2)) (was, {})) ∧
     (j.kind = 2 → j.compute i k c = f32.deliver (Mode.ofCode j.rnd 0) false (exactMul (f32.value c) (f32.value j.scale))) ∧
     (j.kind = 3 → j.compute i k c = f64.deliver (Mode.ofCode j.rnd 0) false (exactMul (f64.value c) (f32.value j.scale)))) ∧
  (∀ (l : List Arrival) (m : Arrival) (c : Mem), c.wf = true → m.b.oext ≤ 32 →
     let place (i k : Nat) : Nat := m.coff * 64 + 128 * (i - 8 * m.member) + 4 * k
     let mine (i k : Nat) : Prop := i < m.a.oext ∧ k < m.b.oext ∧ 8 * m.member ≤ i ∧ i < 8 * m.member + 8
     let was (i k : Nat) : Nat := if m.z then 0 else c.nat (place i k) 4
     let new := (gangSum l m c).1
     (m.a.ty = 0 ∨ m.a.ty = 4 ∨ m.a.ty = 13 → ∀ i k, mine i k →
       (m.wrap = true → BitVec.ofNat 32 (new.nat (place i k) 4) = BitVec.ofInt 32
         (was i k + (l.map fun q => sum q.a q.b i k 0 q.a.kext).sum)) ∧
       (m.wrap = false → (BitVec.ofNat 32 (new.nat (place i k) 4)).toInt = (blocks (l.map fun q => (q.a, q.b))).foldl
         (fun x q => clamped (x + sum q.1.1 q.1.2 i k (32 * q.2) (32 * q.2 + 32))) (BitVec.ofNat 32 (was i k)).toInt)) ∧
     (m.a.ty = 10 ∨ m.a.ty = 11 ∨ m.a.ty = 12 ∨ m.a.ty = 14 → ∀ i k, mine i k →
       ∃ r, floats (l.map fun q => (q.a, q.b)) i k (was i k) r ∧ new.nat (place i k) 4 = r.1 % 2 ^ 32 ∧
         (k % 16, r.2) ∈ (gangSum l m c).2) ∧
     (∀ a, (∀ i k, mine i k → a < place i k ∨ place i k + 4 ≤ a) → new.byte a = c.byte a))


/-- R280, R290: `mmg` outside a gang answers 3, in a broken gang 2, and traps in the episode that has timed out; a member's
arrival is noted and the member waits, in a region of its own, and the eighth resolves the episode, each member keeping its
eight rows of the sum over all members when their tiles agree (status 0, 128 cycles after it) and status 4 when they do not; a
resolved episode's status is delivered when the member next issues. R280: the wait of a gang's open episode ends after its
limit: its members get status 1, the gang is broken, and the episode counts as timed out. -/
def Obligations.GangsMultiplyTogether : Prop :=
  (∀ (f : FmtT) (s : State) (task : Task), s.runs f.gd = true → s.me.task = some task → s.holds f.a = true → s.holds f.b = true →
     let a := s.tile f.a
     let b := s.tile f.b
     let m := task.desc.lo
     let arrival : Arrival := { member := m, a, b, coff := f.coff.toNat, z := f.fn.getLsbD 0, wrap := f.wrap, nf := f.nf }
     let answers (o : Out) (status doneAt : Nat) (fl : Word × Word) : Prop := ∃ t, o = .next t ∧
       t.me = Hart.advance { s.me with
         task := some { task with episode := task.episode + 1 }, boundary := true
         pend := s.me.pend ++ [{ dests := if f.d = 0 then [] else [.s f.d.toNat (BitVec.ofNat 64 status)], left := f.la.toNat
                                 doneAt := some doneAt, performed := true, sets := !f.nf, flagsLo := fl.1, flagsHi := fl.2 }] } ∧
       (t.mem, t.cores, t.clusters) = (s.mem, s.cores, s.clusters)
     (a.loaded && b.loaded && !a.role && b.role && a.kext == b.kext && a.ty != 8 && (a.ty == b.ty) && !f.wrap) = true →
     (task.gang = none → answers (exec (.mmg f) s) 3 s.now (0, 0)) ∧
     (∀ i g, task.gang = some i → s.gangs.find i = some g →
       (∀ r, g.results.find? (·.member == m) = some r →
         answers (exec (.mmg f) s) r.status r.doneAt (r.flagsLo, r.flagsHi)) ∧
       (g.results.find? (·.member == m) = none →
         (g.arrived.any (·.member == m) = true → exec (.mmg f) s = .next (s.stall .gang)) ∧
         (g.arrived.any (·.member == m) = false →
           (g.timedOut = some task.episode → exec (.mmg f) s = .next (s.raise .gang)) ∧
           (g.timedOut ≠ some task.episode → g.broken = true → answers (exec (.mmg f) s) 2 s.now (0, 0)) ∧
           (g.timedOut ≠ some task.episode → g.broken = false → s.orderFree = true → s.awake (.typed (hartCore s.cur) 4 0) = true →
             s.myCore.sliceBusy s.now (hartSlot s.cur) (f.coff.toNat * 64) (f.coff.toNat * 64 + 1024) = false →
             (g.arrived.length < 7 → ∃ t, exec (.mmg f) s = .next t ∧ t.me = { s.me.arrive with wait := some .gang } ∧
               (t.mem, t.cores) = (s.mem, s.cores) ∧ t.gangs.find i = some { g with
                 since := if g.arrived = [] then s.now else g.since, arrived := g.arrived ++ [arrival] }) ∧
             (g.arrived.length = 7 → (∀ n < 8, ∃ x ∈ g.arrived ++ [arrival], x.member = n) → ∃ t g', exec (.mmg f) s = .next t ∧
               t.gangs.find i = some g' ∧ g'.arrived = [] ∧ g'.episode = g.episode + 1 ∧
               ((∃ x ∈ g.arrived, x.terms ≠ arrival.terms) → t.cores = s.cores ∧
                 ∀ x ∈ g.arrived ++ [arrival], { member := x.member, status := 4 } ∈ g'.results) ∧
               ((∀ x ∈ g.arrived, x.terms = arrival.terms) → ∀ x ∈ g.arrived ++ [arrival],
                 (∃ r ∈ g'.results, r.member = x.member ∧ r.status = 0 ∧ r.doneAt = s.now + 128) ∧
                 ((∀ y ∈ g.arrived ++ [arrival], y.member ≠ x.member →
                     (g.slots.getD y.member (0, 0)).1 ≠ (g.slots.getD x.member (0, 0)).1) →
                   (t.core (g.slots.getD x.member (0, 0)).1).c
                     = (gangSum (inOrder (g.arrived ++ [arrival])) x (s.core (g.slots.getD x.member (0, 0)).1).c).1)))))))) ∧
  (∀ (s : State) (i : Nat) (g : Gang), s.gangs.find i = some g →
     (g.arrived = [] ∨ s.now < g.since + g.limit → exec (.gangwaitExpire i) s = .next s) ∧
     (g.arrived ≠ [] → g.since + g.limit ≤ s.now → ∃ t g', exec (.gangwaitExpire i) s = .next t ∧ t.gangs.find i = some g' ∧
       t = { s with gangs := t.gangs } ∧ g'.broken = true ∧ g'.timedOut = some g.episode ∧ g'.arrived = [] ∧
       g'.episode = g.episode + 1 ∧ g'.results = g.results ++ g.arrived.map fun a => { member := a.member, status := 1 }))

/-! ### Views and streams (09) -/

/-- R224, R226, R239, R243: `wset` and its forms describe a view register that is neither open nor wide, leaving it set
and nothing else changed; `wsub` describes a part of a view in another register, its origin and extent moved in one
dimension. An open or wide destination, or a part that does not lie inside, is the view-format trap. The base of an S
region's view is open until `wopen`: it is some value (log entry 2). Model's choice, log entry 48: the mode, scope and stream that the
new description has. R229, R244: `wtest` answers whether two described
views can meet, a view's state word, or its base. -/
def Obligations.ViewsAreDescribedAndTested : Prop :=
  (∀ (f : FmtW) (s : State), s.runs f.gd = true →
     let v := s.getW f.d
     let bytes : Nat := if tyWidth f.ty = 4 then 1 else tyWidth f.ty / 8
     let dense (ext : Int) : Vector Dim 4 := #v[{ ext, stride := if tyWidth f.ty = 4 then 0 else bytes }, {}, {}, {}]
     let puts (o : Out) (x : View) : Prop := o = .next (s.setW f.d x).advance
     let d := f.imm.toNat
     let at' (w : View) (x : Dim) : Vector Dim 4 := .ofFn fun i => if i.val = d then x else w.dims[i]
     let all (p : Out → Prop) : Prop := p (exec (.wset f) s) ∧ p (exec (.wsetDim f) s) ∧ p (exec (.wsetScl f) s) ∧ p (exec (.wsetSreg f) s)
     (v.live = true → all (· = .next (s.raise .viewFormat)) ∧ exec (.wsub f) s = .next (s.raise .viewFormat)) ∧
     (v.live = false →
       puts (exec (.wset f) s) { state := .set, space := f.space, base := s.getS f.a, ty := f.ty, b8 := f.b8
                                 dims := dense (s.getS f.b + f.imm.setWidth 64).toInt } ∧
       (∃ base, exec (.wsetSreg f) s = .next ((State.setW { s with freeCount := s.freeCount + 1 } f.d
         { state := .set, space := 5, base, ty := f.ty, b8 := f.b8, sreg := some (s.getS f.a, s.getS f.b)
           dims := #v[{ ext := ((s.getS f.b).toNat / bytes : Nat), stride := bytes }, {}, {}, {}] }).advance))) ∧
     (v.live = false → v.state = .empty →
       exec (.wsetDim f) s = .next (s.raise .viewFormat) ∧ exec (.wsetScl f) s = .next (s.raise .viewFormat)) ∧
     (v.state = .set →
       puts (exec (.wsetDim f) s) { v with rank := max v.rank (d + 1)
                                           dims := at' v { ext := (s.getS f.a).toInt, stride := (s.getS f.b).toInt } } ∧
       puts (exec (.wsetScl f) s) { v with scl := some { base := s.getS f.a, block := s.getS f.b, row := s.getS f.c
                                                         kdim := d % 2, e8m0 := f.imm.getLsbD 1 } }) ∧
     (v.live = false → ∀ w, s.getW f.a = w → ∀ x : Dim, d < 4 → x = w.dims.toList.getD d {} →
       let lo := (s.getS f.b).toInt
       let n := (s.getS f.c).toInt
       ((w.state ≠ .empty ∧ d < w.rank ∧ 0 ≤ lo ∧ 1 ≤ n ∧ lo + n ≤ x.ext) →
         puts (exec (.wsub f) s) { w with state := .set, mode := 0, scope := 0, stream := none
                                          dims := at' w { x with lo := x.lo + lo, ext := n } }) ∧
       (¬ (w.state ≠ .empty ∧ d < w.rank ∧ 0 ≤ lo ∧ 1 ≤ n ∧ lo + n ≤ x.ext) →
         exec (.wsub f) s = .next (s.raise .viewFormat)))) ∧
  (∀ (f : FmtW) (s : State), s.runs f.gd = true →
     let v := s.getW f.a
     let w := s.getW f.b
     let answers (x : Word) : Prop := exec (.wtest f) s = .next (s.setS f.d x).advance
     let meets : Prop := v.state = .wide ∨ w.state = .wide ∨ (v.space = w.space ∧ v.span.1 < w.span.2 ∧ w.span.1 < v.span.2 ∧
       ((v.base = w.base ∧ v.rank = w.rank ∧ v.ty = w.ty ∧ v.used.map (·.stride) = w.used.map (·.stride)) →
         ∀ p ∈ v.used.zip w.used, p.1.lo < p.2.lo + p.2.ext ∧ p.2.lo < p.1.lo + p.1.ext))
     (f.fn = 0 → (v.state ≠ .empty → w.state ≠ .empty → (meets → answers 1) ∧ (¬ meets → answers 0)) ∧
       (v.state = .empty ∨ w.state = .empty → answers 0)) ∧
     (f.fn = 1 → ∃ x : Word, answers x ∧
       x.extractLsb' 0 2 = (match v.state with | .empty => 0 | .set => 1 | .opened => 2 | .wide => 3) ∧
       x.extractLsb' 2 2 = (if v.live then v.mode else 0) ∧ x.getLsbD 4 = v.stream.isSome ∧
       x.extractLsb' 5 3 = (if v.state = .empty then 0 else v.space) ∧ x.extractLsb' 8 3 = (if v.live then v.scope else 0) ∧
       x.toNat < 2 ^ 11) ∧
     (1 < f.fn.toNat → (v.state = .empty → answers 0) ∧ (v.state ≠ .empty → v.sreg = none ∨ v.live = true → answers v.base)))

/-- R225: an element's linear index goes to its index tuple, dimension 0 fastest, one to one; and the bytes of every element
lie inside the view's span. -/
def Obligations.EveryElementLiesInTheSpan : Prop :=
  ∀ (v : View), (∀ d : Fin 4, 1 ≤ (v.dims[d]).ext) →
    (∀ l, l < v.count → v.span.1 ≤ (v.elementAt l).1 ∧ (v.elementAt l).1 + v.elemBytes ≤ v.span.2) ∧
    (∀ l m, l < v.count → m < v.count → v.index l = v.index m → l = m) ∧
    (∀ l, l < v.count → ∀ d : Fin 4, (v.dims[d]).lo ≤ (v.index l).getD d.val 0 ∧
      (v.index l).getD d.val 0 < (v.dims[d]).lo + (v.dims[d]).ext)

/-- R227, R228, R231, R240: `wopen` opens a view that is set and passes its checks, wide where the directory is full; a
view of an S region opens at the region's offset, in a new region of zeros where none has its name; with no room for it
the view stays set. What fails a check traps: not set, not formed, and a size that does not match, by the view-format
trap, an address by the alignment trap. R228, R241, R299: `wretire` of an open or wide view performs the hart's stores,
leaves the view set and its directory entry gone, and ends the region; `.free` needs an S region, which is gone once it
has no holder; of a view that is not open it only ends the region; and it waits for a command that still writes through
the view. Model's choice: log entry 97 (a new region stands at the lowest offset where it fits), log entry 84 (an S region's view is
checked with BASE 0) and log entry 34 (a release performs all the hart's stores whatever its scope). -/
def Obligations.ViewsOpenAndRetire : Prop :=
  (∀ (f : FmtW) (s : State), s.runs f.gd = true →
     let v := s.getW f.d
     let room := decide (s.myCluster.directory.length < 64)
     let opens (base : Word) (t : State) : Prop :=
       t.getW f.d = { v with base, state := if room then .opened else .wide, mode := f.mode, scope := f.imm.setWidth 3 } ∧
       (∀ n : BitVec 5, n.setWidth 4 ≠ f.d.setWidth 4 → t.getW n = s.getW n) ∧ t.me.pc = s.me.advance.pc ∧
       t.mem = s.mem ∧ (∀ j, j ≠ s.cur → t.hart j = s.hart j) ∧
       t.myCluster.directory = s.myCluster.directory ++ if room then [(s.cur, f.d.toNat)] else []
     (v.state ≠ .set → exec (.wopen f) s = .next (s.raise .viewFormat)) ∧
     (v.state = .set → v.sreg = none →
       (v.aligned = false → exec (.wopen f) s = .next (s.raise .alignment)) ∧
       (v.aligned = true → v.formed = false → exec (.wopen f) s = .next (s.raise .viewFormat)) ∧
       (v.aligned = true → v.formed = true → ∃ t, exec (.wopen f) s = .next t ∧ opens v.base t ∧ t.cores = s.cores)) ∧
     (∀ name size, v.state = .set → v.sreg = some (name, size) → ({ v with base := 0 } : View).aligned = true →
       ({ v with base := 0 } : View).formed = true →
       let n := size.toNat
       let u := s.touch (.typed (hartCore s.cur) 5 0)
       let regions := s.myCore.sregions
       (name = 0 ∨ n % 4096 ≠ 0 ∨ n < 4096 ∨ 65536 < n → exec (.wopen f) s = .next (s.raise .viewFormat)) ∧
       (name ≠ 0 → n % 4096 = 0 → 4096 ≤ n → n ≤ 65536 → s.awake (.typed (hartCore s.cur) 5 0) = true →
         (∀ r, regions.find? (·.name == name) = some r →
           (r.freeing = true → exec (.wopen f) s = .next u.advance) ∧
           (r.freeing = false → r.size ≠ n → exec (.wopen f) s = .next (u.raise .viewFormat)) ∧
           (r.freeing = false → r.size = n → ∃ t, exec (.wopen f) s = .next t ∧ opens (BitVec.ofNat 64 r.offset) t ∧
             t.myCore = { s.myCore with sregions := regions.map fun q =>
                                          if q.name = name then { q with holders := q.holders ++ [s.cur] } else q })) ∧
         (regions.find? (·.name == name) = none →
           let fits (i : Nat) : Prop := 4096 * i + n ≤ 65536 ∧ ∀ r ∈ regions, 4096 * i + n ≤ r.offset ∨ r.offset + r.size ≤ 4096 * i
           ((∀ i, ¬ fits i) ∨ 16 ≤ regions.length → exec (.wopen f) s = .next u.advance) ∧
           (∀ i, fits i → (∀ j < i, ¬ fits j) → regions.length < 16 → s.memoryOk = true →
             ∃ t, exec (.wopen f) s = .next t ∧ opens (BitVec.ofNat 64 (4096 * i)) t ∧
               t.myCore.sregions = regions ++ [{ name, offset := 4096 * i, size := n, holders := [s.cur] }] ∧
               ∀ a, t.myCore.sbuf.byte a = if 4096 * i ≤ a ∧ a < 4096 * i + n then 0 else s.myCore.sbuf.byte a))))) ∧
  (∀ (f : FmtW) (s : State), s.runs f.gd = true →
     let v := s.getW f.d
     (v.live = false → exec (.wretire f) s = .next s.endRegion.advance) ∧
     (v.live = true → f.fn ≠ 0 → v.sreg = none → exec (.wretire f) s = .next (s.raise .viewFormat)) ∧
     (v.live = true → (f.fn = 0 ∨ v.sreg.isSome = true) →
       ((∃ c ∈ s.me.queue, c.dstReg = f.d.toNat) → exec (.wretire f) s = .next (s.stall .views)) ∧
       ((∀ c ∈ s.me.queue, c.dstReg ≠ f.d.toNat) → v.stream = none → f.d.toNat < 16 → s.mayPublish = true →
         ∃ t, exec (.wretire f) s = .next t ∧ t.getW f.d = { v with state := .set, mode := 0, scope := 0 } ∧
           (∀ n : BitVec 5, n.setWidth 4 ≠ f.d.setWidth 4 → t.getW n = s.getW n) ∧
           t.mem = (s.drainAll s.cur).mem ∧ t.me.stores = [] ∧ t.me.boundary = true ∧ t.me.pc = s.me.advance.pc ∧
           t.myCluster.directory = s.myCluster.directory.filter (· ≠ (s.cur, f.d.toNat)) ∧
           (∀ name size, v.sreg = some (name, size) → t.myCore.sregions = (s.myCore.sregions.map fun q =>
             if q.name = name then { q with holders := q.holders.erase s.cur, freeing := q.freeing || f.fn == 1 } else q).filter
               fun q => !(q.freeing && q.holders.isEmpty)) ∧
           (v.sreg = none → t.myCore = s.myCore))))


/-- R190, R232, R233, R242: `wbind` binds one of v24 to v31 to an open view, as an output where the view is a write view;
`weos` ends the stream's traffic; `wunbind` writes what is left in an output stream and unbinds it: each of the three
completes. Binding what is bound, or a view that is not open, is the view-format trap. R189, R190, R232: an instruction that
reads a register bound to an input stream takes the stream's next entry, once for all the fields that name it, and zero past
the end, and does with it what it does with a register that holds that entry, which keeps its own value; one that writes a register
bound to an output stream pushes the result that it would leave in a register of zeros, inactive elements zero, without a change to
the register, and past the end discards it; its flags come as ever. Model's choice: log entry 96 (what a reduction pushes above
element 0), log entry 83. -/
def Obligations.StreamsBindPopAndPush : Prop :=
  (∀ (f : FmtW) (s : State), s.runs f.gd = true → 24 ≤ f.d.toNat → f.a.toNat < 16 →
     let v := s.getW f.a
     let i : BitVec 3 := f.d.setWidth 3
     let me (r : Regs) : Hart := Hart.advance { s.me with regs := r }
     (v.live = true → s.unbound f.d = true → v.stream = none →
       ∃ t, exec (.wbind f) s = .next t ∧ s.onlySelf { t with nextId := s.nextId } ∧ t.nextId = s.nextId + 1 ∧
         t.me = me ((s.me.regs.setW (f.a.setWidth 4) { v with stream := some f.d.toNat }).setStream i
           (some { view := f.a.toNat, output := v.mode == 2, seq := s.nextId }))) ∧
     (v.live = false ∨ s.unbound f.d = false ∨ v.stream ≠ none → exec (.wbind f) s = .next (s.raise .viewFormat)) ∧
     (s.unbound f.d = true → exec (.weos f) s = .next s.advance ∧ exec (.wunbind f) s = .next s.advance) ∧
     (∀ st, s.me.regs.stream i = some st →
       (∀ (p : Nat) (x : BitVec 512) (page : Nat → TlbEntry), st.output = true → st.entries = [(p, x)] → s.memoryOk = true →
         s.me.queue = [] → (∀ j, j ≠ i → s.me.regs.stream j = none) →
         let w := s.me.streamView st
         let n := 512 / max w.width 1
         w.space.toNat ≤ 5 → w.width ≠ 0 → (∀ l ∈ w.entryIndices p, s.elementReady w l (page l) true = true) →
         ∃ t, exec (.wunbind f) s = .next t ∧ t.me.regs.stream i = none ∧ t.me.pc = s.me.advance.pc ∧
           ∀ a, (t.seen w.space).byte a = ((w.entryIndices p).foldl (fun (m : Mem) l =>
             w.putIn m (State.elementPlace w l (page l)) (w.elementAt l).2 (x.extractLsb' (w.width * (l - p * n)) w.width).toNat)
               (s.seen w.space)).byte a) ∧
       (let ended : Stream := { st with ended := true, entries := if st.output then st.entries else [] }
        exec (.weos f) s = .next (s.setMe { s.me with regs := s.me.regs.setStream i (some ended) }).advance) ∧
       (st.output = false ∨ st.entries = [] → st.view < 16 →
         ∃ t, exec (.wunbind f) s = .next t ∧ s.onlySelf t ∧ t.me.regs.stream i = none ∧ t.me.pc = s.me.advance.pc ∧
           (∀ j, j ≠ i → t.me.regs.stream j = s.me.regs.stream j) ∧ t.me.regs.v = s.me.regs.v ∧ t.me.regs.s = s.me.regs.s ∧
           (t.getW (BitVec.ofNat 5 st.view)).stream =
             if (s.getW (BitVec.ofNat 5 st.view)).stream = some f.d.toNat then none else (s.getW (BitVec.ofNat 5 st.view)).stream))) ∧
  (∀ (f : FmtA) (s : State) (st : Stream), s.runs f.gd = true → s.streamOf f.a = some st → st.output = false →
    f.b = f.a → s.unbound f.d = true → f.c = 0 →
    let v := s.me.streamView st
    let i : BitVec 3 := f.a.setWidth 3
    let takes (x : BitVec 512) (u : Stream) : Prop := exec (.vand f) s =
      .next ((s.setMe { s.me with regs := (s.me.regs.setStream i (some u)) }).setV f.d x).advance
    (∀ p x rest, st.entries = (p, x) :: rest → takes x { st with entries := rest, pos := st.pos + 1 }) ∧
    (st.entries = [] → st.ended = true ∨ v.count ≤ st.pos * v.perEntry → takes 0 { st with pos := st.pos + 1 })) ∧
  (∀ (f : FmtA) (s : State) (st : Stream) (page : Nat → TlbEntry), s.runs f.gd = true → s.streamOf f.d = some st → st.output = true →
    s.unbound f.a = true →
    let v := s.me.streamView st
    let i : BitVec 3 := f.d.setWidth 3
    let a := s.me.regs.getV f.a
    (st.ended = true ∨ v.count ≤ st.pos * v.perEntry → exec (.vmov f) s = .next s.advance) ∧
    (st.ended = false → st.pos * v.perEntry < v.count →
      (∀ l ∈ v.entryIndices st.pos, s.elementReady v l (page l) true = true) →
      let pushed (x : BitVec 512) : Stream := { st with entries := st.entries ++ [(st.pos, x)], pos := st.pos + 1 }
      ∃ x : BitVec 512, exec (.vmov f) s = .next (s.setMe { s.me with regs := s.me.regs.setStream i (some (pushed x)) }).advance ∧
        ∀ e < 16, x.extractLsb' (32 * e) 32 = if (s.getK f.c).getLsbD e then a.extractLsb' (32 * e) 32 else 0)) ∧
  (∀ (s : State) (r : BitVec 5) (st : Stream) (x : BitVec 512), s.streamOf r = some st → st.output = false →
    (∃ p rest, st.entries = (p, x) :: rest) ∨
      (st.entries = [] ∧ x = 0 ∧ (st.ended = true ∨ (s.me.streamView st).count ≤ st.pos * (s.me.streamView st).perEntry)) →
    let i : BitVec 3 := r.setWidth 3
    let rest : Stream := { st with entries := st.entries.tail, pos := st.pos + 1 }
    let popped (t : State) : State := t.modMe fun h => { h with regs := (h.regs.setV r (s.me.regs.getV r)).setStream i (some rest) }
    let q := (s.modMe fun h => { h with regs := h.regs.setStream i none }).setV r x
    (∀ f : FmtA, s.runs f.gd = true → s.unbound f.d = true → f.d ≠ r →
      (f.a = r → f.b = r ∨ s.unbound f.b = true → ∀ g ∈ [Instr.vadd, .vsub, .vmul, .vfma, .vfms, .vmin, .vmax, .vabs, .vneg, .vand,
          .vor, .vxor, .vshl, .vshr, .vsra, .vcmp, .vsel, .vcvt, .vred, .vscan, .vperm, .vperm2, .vext, .vrcp, .vrsqrt, .vexp2, .vlog2,
          .vsqrt, .vdiv, .vdot, .vmov, .vclass], ∀ t, exec (g f) q = .next t → exec (g f) s = .next (popped t)) ∧
      (f.b = r → f.a = r ∨ s.unbound f.a = true → ∀ g ∈ [Instr.vadd, .vsub, .vmul, .vfma, .vfms, .vmin, .vmax, .vand, .vor, .vxor,
          .vshl, .vshr, .vsra, .vcmp, .vsel, .vperm, .vperm2, .vdiv, .vdot],
        ∀ t, exec (g f) q = .next t → exec (g f) s = .next (popped t))) ∧
    (∀ f : FmtM, s.runs f.gd = true → f.b = r →
      (∀ g ∈ [Instr.vst, .vscat, .vwst], (g f = .vscat f → s.unbound f.d = true) →
        (g f = .vwst f → s.viewOrder [(s.getW f.a, true)] = .ok () s) →
        ∀ w, exec (g f) q = .next (q.issueStore w).advance → exec (g f) s = .next ((popped q).issueStore w).advance) ∧
      (∀ k busy, exec (.vbst f) q = .next (State.setMyCore { q with bankUse := busy } k).advance →
        exec (.vbst f) s = .next (State.setMyCore { popped q with bankUse := busy } k).advance) ∧
      (s.unbound f.d = true → ∀ used y, exec (.vgath f) q = .next (State.later { q with lineUse := used } f.la 5 [.v f.d.toNat y] (0, 0)).advance →
        exec (.vgath f) s = .next (State.later { popped q with lineUse := used } f.la 5 [.v f.d.toNat y] (0, 0)).advance))) ∧
  (∀ (s : State) (r : BitVec 5) (st : Stream) (page : Nat → TlbEntry), s.streamOf r = some st → st.output = true →
    let v := s.me.streamView st
    let i : BitVec 3 := r.setWidth 3
    let past := st.ended = true ∨ v.count ≤ st.pos * v.perEntry
    past ∨ (∀ l ∈ v.entryIndices st.pos, s.elementReady v l (page l) true = true) →
    let u (x : BitVec 512) (st' : Stream) : Prop := (past → st' = st) ∧
      (¬ past → st' = { st with entries := st.entries ++ [(st.pos, x)], pos := st.pos + 1 })
    let pushed (st' : Stream) : State := s.modMe fun h => { h with regs := h.regs.setStream i (some st') }
    let q0 := s.modMe fun h => { h with regs := h.regs.setStream i none }
    let q := q0.setV r 0
    (∀ f : FmtA, s.runs f.gd = true → f.d = r → s.unbound f.a = true → s.unbound f.b = true →
      let short (g : FmtA → Instr) (q : State) : Prop := ∀ x fl st', exec (g f) q = .next ((q.setV r x).addFlags fl).advance → u x st' →
        exec (g f) s = .next ((pushed st').addFlags fl).advance
      let long (g : FmtA → Instr) (q : State) : Prop := ∀ n x fl st', exec (g f) q =
          .next (q.later f.la n [.v r.toNat x] fl (!f.nf)).advance → u x st' →
        exec (g f) s = .next ((pushed st').later f.la n [] fl (!f.nf)).advance
      (∀ g ∈ [Instr.vadd, .vsub, .vmul, .vmin, .vmax, .vabs, .vneg, .vand, .vor, .vxor, .vshl, .vshr, .vsra, .vsel, .vmov, .vclass, .vperm,
        .vbcast, .vins, .vcvt], short g q) ∧
      (∀ g ∈ [Instr.vrcp, .vrsqrt, .vexp2, .vlog2, .vsqrt, .vdiv, .vred, .vscan], long g q) ∧
      (f.c = 0 → (∀ g ∈ [Instr.vfma, .vfms, .vperm2], short g q0) ∧ long .vdot q0)) ∧
    (∀ f : FmtM, s.runs f.gd = true → f.d = r → ∀ g ∈ [Instr.vld, .vgath, .vbld, .vwld], (g f = .vgath f → s.unbound f.b = true) →
      (g f = .vwld f → s.viewOrder [(s.getW f.a, false)] = .ok () s) →
      ∀ busy used n x st', exec (g f) q =
          .next (State.later { q with bankUse := busy, lineUse := used } f.la n [.v r.toNat x] (0, 0)).advance → u x st' →
        exec (g f) s = .next (State.later { pushed st' with bankUse := busy, lineUse := used } f.la n [] (0, 0)).advance))


/-- R225, R232: the unit of an input stream fills its next entry with the codes of the entry's elements, and that of an output
stream writes the oldest pushed entry to its elements; an activity that would wait, or fault, is not done, but wakes a bank that
sleeps (R350). -/
def Obligations.StreamUnitsFillAndDrain : Prop :=
  ∀ (s : State) (h : HartId) (r : BitVec 3) (st : Stream) (page : Nat → TlbEntry), s.memoryOk = true →
    (s.hart h).regs.stream r = some st → (s.hart h).queue = [] →
    (∀ j, j ≠ r → (s.hart h).regs.stream j = none) →
    let v := (s.hart h).streamView st
    let n := 512 / max v.width 1
    let u := s.on h
    let indices (p : Nat) : List Nat := (List.range n).filterMap fun e => if p * n + e < v.count then some (p * n + e) else none
    let stuck (l : Nat) : Prop :=
      let a := (v.elementAt l).1
      if v.space = 0 then (BitVec.ofInt 64 a).toNat % v.elemBytes ≠ 0 ∨ canonical (BitVec.ofInt 64 a) = false ∨
        u.lookup h (u.asidOf h) (BitVec.ofInt 64 a).toNat = none
      else u.elementOk v.space a v.elemBytes = false
    let sleeps (l : Nat) : Prop := 0 < v.space.toNat ∧ v.space.toNat ≤ 5 ∧
      u.elementOk v.space (v.elementAt l).1 v.elemBytes = true ∧ u.awake (u.bankOf v.space (v.elementAt l).1.toNat) = false
    (st.output = false → st.ended = false → st.entries.length < 8 → ∀ l,
      (indices (match st.entries.getLast? with | some e => e.1 + 1 | none => st.pos)).head? = some l → stuck l →
      exec (.streamFill h r.toNat) s = .next s) ∧
    (st.output = false → st.ended = false → st.entries.length < 8 → ∀ l,
      (indices (match st.entries.getLast? with | some e => e.1 + 1 | none => st.pos)).head? = some l → sleeps l →
      exec (.streamFill h r.toNat) s = .next { s with banks := (u.wakeBank (u.bankOf v.space (v.elementAt l).1.toNat)).banks }) ∧
    (∀ p x rest l, st.output = true → st.entries = (p, x) :: rest → (indices p).head? = some l → stuck l →
      exec (.streamDrain h r.toNat) s = .next s) ∧
    (∀ p x rest l, st.output = true → st.entries = (p, x) :: rest → (indices p).head? = some l → sleeps l →
      ∃ b, exec (.streamDrain h r.toNat) s = .next { s with banks := b }) ∧
    (st.output = false → st.ended = false → st.entries.length < 8 → v.width ≠ 0 →
      let p := match st.entries.getLast? with | some e => e.1 + 1 | none => st.pos
      p * n < v.count → (∀ l ∈ indices p, u.elementReady v l (page l) false = true) →
      ∃ t x, exec (.streamFill h r.toNat) s = .next t ∧ (∀ j, j ≠ h → t.hart j = s.hart j) ∧ t.mem = s.mem ∧
        t.hart h = { s.hart h with regs := (s.hart h).regs.setStream r (some { st with entries := st.entries ++ [(p, x)] }) } ∧
        ∀ e < n, (x.extractLsb' (v.width * e) v.width).toNat = if p * n + e < v.count
          then v.codeIn (u.seen v.space) (State.elementPlace v (p * n + e) (page (p * n + e))) (v.elementAt (p * n + e)).2 else 0) ∧
    (∀ p x rest, st.output = true → st.entries = (p, x) :: rest → v.space.toNat ≤ 5 → v.width ≠ 0 →
      (∀ l ∈ indices p, u.elementReady v l (page l) true = true) →
      ∃ t, exec (.streamDrain h r.toNat) s = .next t ∧ t.cur = s.cur ∧ (∀ j, j ≠ h → t.hart j = s.hart j) ∧
        (t.hart h).regs = (s.hart h).regs.setStream r (some { st with entries := rest }) ∧ (t.hart h).pc = (s.hart h).pc ∧
        ∀ a, ((t.on h).seen v.space).byte a = ((indices p).foldl (fun (m : Mem) l =>
          v.putIn m (State.elementPlace v l (page l)) (v.elementAt l).2 (x.extractLsb' (v.width * (l - p * n)) v.width).toNat)
            (u.seen v.space)).byte a)

/-! ### Guards and privilege (02, 06, 15) -/

/-- R22, R134, R135, R136: an instruction of the core set whose guard is unresolved waits, and under a false guard it does
nothing but move on, whatever its operands; an engine command under an unresolved guard issues and is held. -/
def Obligations.GuardedInstructionsWaitOrPass : Prop :=
  ∀ (i : Instr) (gd : BitVec 3) (s : State), guardField i = some gd → s.privileged i = true →
    s.me.regs.guard 0 = true ∧ s.guardOpen 0 = false ∧
    (s.guardOpen gd = true → isCommand i = false → exec i s = .next (s.stall .guard)) ∧
    (s.guardOpen gd = false → s.me.regs.guard gd = false → exec i s = .next s.advance) ∧
    (s.guardOpen gd = true → isCommand i = true → s.me.queue.length < 16 → ∃ t c, exec i s = .next t ∧
      t.me.queue = s.me.queue ++ [c] ∧ c.state = .held gd.toNat ∧ t.me.pc = s.me.advance.pc ∧ t.me.boundary = s.me.boundary)

/-- R20, R45, R46, R51, R319, R333, R340: below its privilege an instruction is the privilege trap, whatever its guard and
operands, and has no other effect; a task is at level 0, where exactly the system instructions that touch the machine trap.
R399: the `halt` of the scheduler firmware in an update is a step of the update as well, and stands elsewhere. -/
def Obligations.PrivilegeComesFirst : Prop :=
  (∀ (i : Instr) (s : State), s.privileged i = false →
    ((∃ f, i = .halt f) → s.firmwareCore = false ∨ s.update = .running) → exec i s = .next (s.trap { cls := .privilege })) ∧
  (∀ (s : State) (c n : Nat), s.cur = .slot c n → s.level s.cur = 0 ∧
    ∀ i, s.privileged i = false ↔ (match i with
      | .tlbw _ | .tlbiPage _ | .tlbiAsid _ | .tlbiAll _ | .cinvI _ | .cinvD _ | .qsave _ | .qrest _ | .reprwGet _ | .reprwAdd _
        | .reprwApply _ | .reprwClr _ | .reprwSum _ | .halt _ | .tretTake _ | .tretDefer _ | .tretTerm _ | .tretRelease _ => True
      | .ctrlr f | .ctrlw f => 0x100 ≤ f.sel.toNat
      | _ => False))

/-! ### Engine commands (10) -/

/-- R136, R246, R250, R251, R348: a command whose guard is true and whose checks pass takes an entry of its slot's queue with
its views and scalars as they stand, is work of its launch, and ends its region; with sixteen commands outstanding it waits;
a check that fails traps. One that was held is decided by its guard when it resolves: queued after its checks, or gone. -/
def Obligations.CommandsEnterTheirQueue : Prop :=
  (∀ (f : FmtE) (s : State), s.runs f.gd = true →
    let src := s.getW f.a
    let dst := s.getW f.d
    let make (op : CommandOp) (src : View) (aux : Word) : Command :=
      { id := s.nextId, word := s.me.insn, op, state := .queued, dst, src, dstReg := f.d.toNat, aux, tag := f.tag.toNat
        mbx := if f.mbx then some (s.getS f.c) else none, split := f.split.toNat, scope := f.scope, core := hartCore s.cur
        slot := hartSlot s.cur, launch := (s.me.task.getD {}).desc.launch, asid := s.asidOf s.cur, part := s.partOf s.cur }
    let issues (o : Out) (c : Command) (views : List View) (aligned : Bool) : Prop :=
      (16 ≤ s.me.queue.length → o = .next (s.stall .queue)) ∧
      (s.me.queue.length < 16 →
        ((∃ v ∈ views, v.state = .empty) → o = .next (s.raise .viewFormat)) ∧
        ((∀ v ∈ views, v.state ≠ .empty ∧ (v.live = true ∨ (v.aligned = true ∧ v.formed = true))) →
          (dst.live = true → dst.mode = 1 → o = .next (s.raise .protection)) ∧
          ((dst.live = false ∨ dst.mode ≠ 1) →
            (c.agrees = false → o = .next (s.raise .viewFormat)) ∧
            (c.agrees = true → aligned = false → o = .next (s.raiseAt .alignment c.aux)) ∧
            (c.agrees = true → aligned = true → ∃ t, o = .next t ∧ t.nextId = s.nextId + 1 ∧
              t.me = Hart.advance { s.me with queue := s.me.queue ++ [c], boundary := true } ∧
              (∀ j, j ≠ s.cur → t.hart j = s.hart j) ∧ (t.mem, t.cores, t.clusters) = (s.mem, s.cores, s.clusters) ∧
              ∀ x, s.launch c.part c.launch = some x → t.launch c.part c.launch = some { x with commands := x.commands + 1 }))))
    issues (exec (.cpy f) s) (make .cpy src 0) [dst, src] true ∧
    issues (exec (.cpys f) s) (make (.cpys (f.fn == 1)) src (s.getS f.b)) [dst, src] ((s.getS f.b).toNat % 8 == 0) ∧
    issues (exec (.coll f) s) (make (.coll f.fn.toNat) src (s.getS f.b)) [dst, src] ((s.getS f.b).toNat % 8 == 0) ∧
    issues (exec (.cfill f) s) (make (.cfill (s.getS f.a)) {} 0) [dst] true) ∧
  (∀ (s : State) (h : HartId) (d : BitVec 3) (x : Bool) (t : Nat) (c : Command), d ≠ 0 → t < s.now →
    (s.hart h).unres = [{ guard := d.toNat, value := x, issued := t }] → (s.hart h).queue = [c] → c.state = .held d.toNat →
    (∀ v ∈ c.named, v.live = true) → c.dst.mode ≠ 1 → c.agrees = true →
    (match c.op with | .cpys _ | .coll _ => c.aux.toNat % 8 == 0 | _ => true) = true →
    ∃ u, exec (.guardResolve h) s = .next u ∧ (u.hart h).regs = (s.hart h).regs.setG d x ∧
      (x = true → (u.hart h).queue = [{ c with state := .queued }] ∧ (u.hart h).boundary = true) ∧
      (x = false → (u.hart h).queue = []))

/-- R246, R248, R252, R255, R256, R259, R260: the oldest unkicked command of a queue is kicked, after its slot's stores are
performed, its streams' entries are written and its matrix work is over; a fill or a copy then moves its next granule, its
sources' codes and their poison, and no other byte (where a copy overlaps itself, each element gets the value from before the
command of a source element of the copy), and after the last one it leaves its queue and sets its tag; a held completion
message is offered again. R256, R257, R258: the tag waits go on once all, or any, of their tags are done, and the lowest
failed one among those waited for traps with its status; `tfirst` names the lowest done tag, with bit 63 for a failed one, and
does not wait; `tclr` clears its tags and their failures. R262: of a fill whose bytes all lie on other packages, nothing changes here:
the bytes go out as flits, and the command does not complete before they are acknowledged. R261, R262: after the last granule and its
acknowledgements `cpys` stores 1 to its signal word, or adds 1 to it by an atomic, and completes; a word on another package is signalled
there, or, below SCOPE 5, the command fails with nothing sent. R263 to R266: a kick of `coll` reads the group record; the member
then joins the use of its GROUP and EPOCH with its source's codes, and once COUNT members have joined each writes its granules: the sum in
some order of the members, the greatest or the least, the sources by rank, a block of the sum, or rank 0's source; it waits for
missing members and at a boundary where one is stopped; one that disagrees fails with status 4, and with it those that have joined.
Model's choice: log entries 36, 44, 55, 77, 87, 88 and 89, and log entry 34: a kick performs all the hart's stores whatever its
command's scope. -/
def Obligations.EnginesCompleteAndTagsWait : Prop :=
  (∀ (s : State) (h : HartId) (before rest : List Command) (c : Command), (s.hart h).queue = before ++ c :: rest →
    (∀ q ∈ before, q.state = .kicked ∧ q.id ≠ c.id) → (∀ q ∈ rest, q.id ≠ c.id) → c.state = .queued ∨ c.state = .stopped →
    c.status = none → s.mayRun c = true → (s.hart h).parked = none → (s.hart h).verdict = none → (∀ n, c.op ≠ .coll n) →
    (s.on h).mayPublish = true →
    ∃ t, exec (.commandKick (.hart h)) s = .next t ∧ (t.hart h).queue = before ++ { c with state := .kicked } :: rest ∧
      (t.hart h).stores = [] ∧ t.mem = (s.drainAll h).mem) ∧
  (∀ (s : State) (h : HartId) (i : Nat) (c : Command) (at' from' : Nat → Nat × Option Nat), s.memoryOk = true →
    (s.hart h).parked = none → (s.hart h).verdict = none →
    (s.hart h).queue[i]? = some c → (∀ j q, j ≠ i → (s.hart h).queue[j]? = some q → q.id ≠ c.id) → c.state = .kicked →
    c.status = none → s.mayRun c = true → s.engineOrder (.hart h) c = true → c.done < c.granules → c.dst.scl = none →
    c.src.scl = none → c.dst.space.toNat ≤ 5 → c.dst.ty ≠ 15 →
    let v := c.dst
    let ls := (List.range (min c.granuleElements (v.count - c.done * c.granuleElements))).map (c.done * c.granuleElements + ·)
    let near : Bool := c.op == .cpy && c.src.space == v.space
    let placed := if near then List.range v.count else ls
    let found (w : View) (l : Nat) (write : Bool) (place : Nat × Option Nat) : Prop := ∀ busy used, ∃ busy' used',
      State.enginePlace { s with bankUse := busy, lineUse := used } (.hart h) c w (w.elementAt l).1 w.elemBytes write =
        .ok place { s with bankUse := busy', lineUse := used' }
    (∀ l ∈ placed, found v l true (at' l) ∧ (v.space = 0 → ∀ i < v.elemBytes, s.remoteAt ((at' l).1 + i) = none)) →
    (c.op = .cpy → ∀ l ∈ placed, found c.src l false (from' l)) →
    (∀ l ∈ placed, (∀ k, (at' l).2 = some k → s.keyed k (at' l).1 v.elemBytes = true) ∧
      ∀ k, c.op = .cpy → (from' l).2 = some k → s.keyed k (from' l).1 c.src.elemBytes = true) →
    (c.op = .cpy ∨ ∃ x, c.op = .cfill x) → c.dst.width = c.src.width ∨ c.op ≠ .cpy →
    let meets (l j : Nat) : Prop := near = true ∧ j < v.count ∧
      if v.packed then (from' l).1 = (at' j).1 ∧ (c.src.elementAt l).2 = (v.elementAt j).2
      else (from' l).1 < (at' j).1 + v.elemBytes ∧ (at' j).1 < (from' l).1 + c.src.elemBytes
    let now := s.spaceMem c c.src.space
    let before := if c.done = 0 then now else c.before
    ∃ (source : Nat → Nat) (seen : Nat → Mem) (t : State),
      (∀ l ∈ ls, ((∀ j, ¬ meets l j) → source l = l ∧ seen l = now) ∧
        ((∃ j, meets l j) → seen l = before ∧ source l < v.count)) ∧
      let code (l : Nat) : Nat := match c.op with
        | .cfill x => x.toNat % 2 ^ v.width
        | _ => c.src.codeIn (seen l) (from' (source l)).1 (c.src.elementAt (source l)).2
      exec (.granuleComplete (.hart h) i) s = .next t ∧
      (∀ a, (t.spaceMem c v.space).byte a = (ls.foldl (fun (m : Mem) l => v.putIn m (at' l).1 (v.elementAt l).2 (code l))
        (s.spaceMem c v.space)).byte a) ∧
      (c.op = .cpy → ∀ l ∈ ls, (seen l).bad (from' (source l)).1 c.src.elemBytes = true →
        (t.spaceMem c v.space).poisoned (at' l).1 = true) ∧
      (c.done + 1 < c.granules → ∃ d, (t.hart h).queue[i]? = some d ∧ d.done = c.done + 1 ∧
        d.bytes = c.bytes + (ls.length * v.width + 7) / 8) ∧
      (c.done + 1 = c.granules → c.flits = 0 → c.mbx = none → (∀ q ∈ (t.hart h).queue, q.id ≠ c.id) ∧
        (c.tag < 64 → (t.hart h).tagdone = (s.hart h).tagdone ||| BitVec.ofNat 64 (2 ^ c.tag)) ∧
        (t.hart h).tagfail = (s.hart h).tagfail)) ∧
  (∀ (s : State) (h : HartId) (i : Nat) (c : Command) (x : Word) (at' : Nat → Nat × Option Nat), (s.hart h).parked = none → (s.hart h).verdict = none →
    (s.hart h).queue[i]? = some c → (∀ j q, j ≠ i → (s.hart h).queue[j]? = some q → q.id ≠ c.id) → c.state = .kicked →
    c.status = none → s.mayRun c = true → s.engineOrder (.hart h) c = true → c.done < c.granules → c.op = .cfill x →
    c.dst.space = 0 → c.dst.packed = false → s.upsets = [] →
    let ls := (List.range (min c.granuleElements (c.dst.count - c.done * c.granuleElements))).map (c.done * c.granuleElements + ·)
    let bytes := (ls.map fun l => bytesAt (at' l).1 (leBytes c.dst.elemBytes (x.toNat % 2 ^ c.dst.width))).flatten
    bytes ≠ [] → (∀ l ∈ ls, s.enginePlace (.hart h) c c.dst (c.dst.elementAt l).1 c.dst.elemBytes true = .ok (at' l) s ∧
      ∀ k, (at' l).2 = some k → s.keyed k (at' l).1 c.dst.elemBytes = true) → (∀ e ∈ bytes, (s.remoteAt e.1).isSome = true) →
    ∃ t, exec (.granuleComplete (.hart h) i) s = .next t ∧ (∀ a, t.mem.byte a = s.mem.byte a) ∧
      t.sent = s.sent ++ s.packetsFor bytes [] [] ∧
      ∃ d, (t.hart h).queue[i]? = some d ∧ d.done = c.done + 1 ∧ d.flits = c.flits + (s.packetsFor bytes [] []).length ∧
        (c.done + 1 = c.granules → d.status = none)) ∧
  (∀ (s u : State) (h : HartId) (i n : Nat) (c : Command) (x : Word), (s.hart h).queue[i]? = some c → c.status = some n →
    c.mbx = some x → c.away = false → c.flits = 0 → (s.hart h).parked = none → (s.hart h).verdict = none → s.isSaved c.part = false →
    let body := leBytes 8 c.word.toNat ++ [BitVec.ofNat 8 n, 0, 0, 0] ++ leBytes 4 c.launch ++ leBytes 8 c.bytes ++ List.replicate 32 0
    (s.deliver c.part x body = (u, 0) → (u.hart h).queue = (s.hart h).queue →
      ∃ t, exec (.completionMessageRetry (.hart h) i) s = .next t ∧ ∀ q ∈ (t.hart h).queue, q.id ≠ c.id) ∧
    (s.deliver c.part x body = (u, 1) → (u.hart h).queue = (s.hart h).queue →
      ∃ t, exec (.completionMessageRetry (.hart h) i) s = .next t ∧ ∃ q ∈ (t.hart h).queue, q.id = c.id ∧ q.status = some n)) ∧
  (∀ (s : State) (h : HartId) (i : Nat) (c : Command) (set : Bool), (s.hart h).parked = none → (s.hart h).verdict = none →
    (s.hart h).queue[i]? = some c → (∀ j q, j ≠ i → (s.hart h).queue[j]? = some q → q.id ≠ c.id) → c.state = .kicked →
    c.status = none → s.mayRun c = true → s.engineOrder (.hart h) c = true → c.op = .cpys set → c.mbx = none → c.tag < 64 →
    (s.hart h).tagdone.getLsbD c.tag = false → s.upsets = [] → s.memoryOk = true →
    let ended (t : State) (status : Nat) : Prop := (∀ q ∈ (t.hart h).queue, q.id ≠ c.id) ∧ (t.hart h).tagdone.getLsbD c.tag = true ∧
      ((t.hart h).tagfail.find c.tag).isSome = decide (status ≠ 0) ∧ (status ≠ 0 → (t.hart h).tagfail.find c.tag = some status)
    (s.hart h).tagfail.find c.tag = none →
    (c.granules ≤ c.done → c.flits ≠ 0 → exec (.granuleComplete (.hart h) i) s = .next s) ∧
    (∀ pa e, s.engineAt (.hart h) c c.aux (if set then .w else .rw) 5 = .ok (pa, e) s →
      (c.done = c.granules → c.flits = 0 → s.remoteAt pa = none → pa % 8 = 0 → pa + 8 ≤ s.limit → s.dieAwake pa 8 = true →
        s.keyed e.key pa 8 = true → s.movingUnit pa = false →
        let old := s.mem.nat pa 8
        ∃ t, exec (.granuleComplete (.hart h) i) s = .next t ∧ ended t 0 ∧
          t.mem.nat pa 8 = (if set then 1 else (old + 1) % 2 ^ 64) ∧ (∀ a, a < pa ∨ pa + 8 ≤ a → t.mem.byte a = s.mem.byte a) ∧
          (set = true ∨ old ≠ 2 ^ 64 - 1 → ∀ p, (t.partition p).joins = (s.partition p).joins) ∧
          (set = false → old = 2 ^ 64 - 1 → ∀ p, (t.partition p).joins = (s.partition p).joins.filter fun j => j.pa ≠ pa ∧
            ¬ (s.mem.nat j.pa 8 ≠ 0 ∧ t.mem.nat j.pa 8 = 0))) ∧
      (∀ node ra, s.remoteAt pa = some (node, ra) →
        (c.done = c.granules → c.flits = 0 → c.scope = 5 → ∃ t, exec (.granuleComplete (.hart h) i) s = .next t ∧ t.mem = s.mem ∧
          t.sent = s.sent ++ [(node, .signal ra (!set))] ∧
          (t.hart h).queue[i]? = some { c with done := c.done + 1, flits := 1 }) ∧
        (c.done = 0 → c.done < c.granules → c.flits = 0 → c.scope ≠ 5 → ∃ t, exec (.granuleComplete (.hart h) i) s = .next t ∧
          ended t 1 ∧ t.mem = s.mem)))) ∧
  (∀ (s : State) (h : HartId) (before rest : List Command) (c : Command) (n : Nat) (word : Nat → Nat),
    (s.hart h).queue = before ++ c :: rest → (∀ q ∈ before, q.state = .kicked ∧ q.id ≠ c.id) → (∀ q ∈ rest, q.id ≠ c.id) →
    c.state = .queued ∨ c.state = .stopped → c.status = none → s.mayRun c = true → (s.hart h).parked = none →
    (s.hart h).verdict = none → c.op = .coll n → (∀ u ∈ s.uses, ∀ m ∈ u.members, m.command ≠ c.id) → (s.on h).mayPublish = true →
    let d : Command := { c with state := .kicked, record := none }
    let v := (s.drainAll h).modCommand (.hart h) c.id fun _ => d
    (∀ j < 4, ∃ pa e, (∀ used, State.engineAt { v with lineUse := used } (.hart h) d (c.aux + BitVec.ofNat 64 (8 * j)) .r 4 =
        .ok (pa, e) { v with lineUse := used }) ∧ v.dieAwake pa 8 = true ∧ v.keyed e.key pa 8 = true ∧ v.upsets = [] ∧
      v.mem.nat pa 8 = word j) →
    ∃ t, exec (.commandKick (.hart h)) s = .next t ∧ (t.hart h).stores = [] ∧ t.mem = (s.drainAll h).mem ∧
      (t.hart h).queue = before ++ { d with record := some [word 0, word 1, word 2, word 3] } :: rest) ∧
  (∀ (s : State) (h : HartId) (i : Nat) (c : Command) (op : Nat) (group epoch roster : Word) (count rank : Nat) (entry : Nat → Nat)
     (from' : Nat → Nat × Option Nat), (s.hart h).parked = none → (s.hart h).verdict = none →
    (s.hart h).queue[i]? = some c → (∀ j q, j ≠ i → (s.hart h).queue[j]? = some q → q.id ≠ c.id) → c.state = .kicked →
    c.status = none → s.mayRun c = true → s.engineOrder (.hart h) c = true → c.done < c.granules → c.op = .coll op → op ≤ 5 →
    c.record = some [group.toNat, count + 2 ^ 32 * rank, epoch.toNat, roster.toNat] → count < 2 ^ 32 →
    (∀ u ∈ s.uses, ∀ m ∈ u.members, m.command ≠ c.id) →
    let domain := (s.partition c.part).collDomain
    let here := s.node * 2 ^ 48 + (s.partition c.part).slice.findIdx (· == c.core / 32)
    let counts : Bool := if op = 3 then c.dst.count == count * c.src.count
      else if op = 4 then c.src.count % count == 0 && c.dst.count == c.src.count / count else c.dst.count == c.src.count
    let sound : Bool := group ≠ 0 && decide (2 ≤ count) && decide (count ≤ 4096) && decide (rank < count) && domain ≠ 0 && counts
    let alike (u : Use) : Bool := u.group == group && u.epoch == epoch && u.domain == domain
    let failed (t : State) (h' : HartId) (d : Command) : Prop := d.tag < 64 → d.mbx = none → (s.hart h').tagdone.getLsbD d.tag = false →
      (s.hart h').tagfail.find d.tag = none →
      (∀ q ∈ (t.hart h').queue, q.id ≠ d.id) ∧ (t.hart h').tagdone.getLsbD d.tag = true ∧ (t.hart h').tagfail.find d.tag = some 4
    let read : Prop := (∀ j < count, ∃ pa e, (∀ busy used, State.engineAt { s with bankUse := busy, lineUse := used } (.hart h) c
          (roster + BitVec.ofNat 64 (8 * j)) .r 4 = .ok (pa, e) { s with bankUse := busy, lineUse := used }) ∧
        s.dieAwake pa 8 = true ∧ s.keyed e.key pa 8 = true ∧ s.upsets = [] ∧ s.mem.nat pa 8 = entry j) ∧
      (∀ l < c.src.count, (∀ busy used, ∃ busy' used', State.enginePlace { s with bankUse := busy, lineUse := used } (.hart h) c c.src
          (c.src.elementAt l).1 c.src.elemBytes false = .ok (from' l) { s with bankUse := busy', lineUse := used' }) ∧
        ∀ k, (from' l).2 = some k → s.keyed k (from' l).1 c.src.elemBytes = true)
    let m := s.spaceMem c c.src.space
    let me : Member := { rank, command := c.id, place := here, roster := (List.range count).map entry
                         codes := (List.range c.src.count).map fun l =>
                           (c.src.codeIn m (from' l).1 (c.src.elementAt l).2, m.bad (from' l).1 c.src.elemBytes) }
    (sound = false → c.flits = 0 → s.uses.find? alike = none → ∃ t, exec (.granuleComplete (.hart h) i) s = .next t ∧ failed t h c) ∧
    (sound = true → read →
      (s.uses.find? alike = none →
        (entry rank = here → ∃ t, exec (.granuleComplete (.hart h) i) s = .next t ∧ (t.hart h).queue = (s.hart h).queue ∧
          t.uses = s.uses ++ [{ group, epoch, count, op, width := c.src.width, domain, elements := c.src.count, members := [me] }]) ∧
        (entry rank ≠ here → c.flits = 0 → ∃ t, exec (.granuleComplete (.hart h) i) s = .next t ∧ failed t h c)) ∧
      (∀ u, s.uses.find? alike = some u → (∀ x ∈ u.members, ∃ q ∈ s.allCommands, q.id = x.command) →
        let agree : Prop := u.members.length < u.count ∧ u.count = count ∧ u.op = op ∧ u.width = c.src.width ∧
          u.elements = c.src.count ∧ entry rank = here ∧ ∀ x ∈ u.members, x.rank ≠ rank ∧ x.roster.getD rank 0 = here ∧
            me.roster.getD x.rank 0 = x.place
        (agree → ∃ t, exec (.granuleComplete (.hart h) i) s = .next t ∧ (t.hart h).queue = (s.hart h).queue ∧
          t.uses = s.uses.map fun x => if x = u then { u with members := u.members ++ [me] } else x) ∧
        (¬ agree → c.flits = 0 → ∃ t, exec (.granuleComplete (.hart h) i) s = .next t ∧ u ∉ t.uses ∧ failed t h c)))) ∧
  (∀ (s : State) (h : HartId) (i : Nat) (c : Command) (op : Nat) (u : Use) (x : Member) (at' : Nat → Nat × Option Nat),
    s.memoryOk = true → (s.hart h).parked = none → (s.hart h).verdict = none →
    (s.hart h).queue[i]? = some c → (∀ j q, j ≠ i → (s.hart h).queue[j]? = some q → q.id ≠ c.id) → c.state = .kicked →
    c.status = none → s.mayRun c = true → s.engineOrder (.hart h) c = true → c.done < c.granules → c.op = .coll op →
    c.record.isSome = true → s.uses.find? (fun u => u.members.any (·.command == c.id)) = some u →
    u.members.find? (·.command == c.id) = some x → u.op = op → op ≤ 5 → 0 < u.count → 0 < u.elements →
    let stops (q : Command) : Prop := (∃ y ∈ u.members, y.command = q.id) ∧ q.id ≠ c.id ∧
      ¬ (q.state = .kicked ∧ s.mayRun q = true) ∧ q.done ≤ c.done
    (u.members.length < u.count ∨ (∃ q ∈ s.allCommands, stops q) → exec (.granuleComplete (.hart h) i) s = .next s) ∧
    (u.members.length = u.count → (∀ q ∈ s.allCommands, ¬ stops q) → c.dst.space.toNat ≤ 5 → c.dst.ty ≠ 15 →
      (∀ y ∈ u.members, y.codes.length = u.elements) → (∀ r < u.count, ∃ y ∈ u.members, y.rank = r) →
      (∀ y ∈ u.members, ∀ z ∈ u.members, y.rank = z.rank → y = z) →
      let v := c.dst
      let w := tyWidth c.src.ty
      let ls := (List.range (min c.granuleElements (v.count - c.done * c.granuleElements))).map (c.done * c.granuleElements + ·)
      (∀ l ∈ ls, (∀ busy used, ∃ busy' used', State.enginePlace { s with bankUse := busy, lineUse := used } (.hart h) c v
          (v.elementAt l).1 v.elemBytes true = .ok (at' l) { s with bankUse := busy', lineUse := used' }) ∧
        (∀ k, (at' l).2 = some k → s.keyed k (at' l).1 v.elemBytes = true) ∧
        (v.space = 0 → ∀ j < v.elemBytes, s.remoteAt ((at' l).1 + j) = none)) →
      (op = 3 → ∀ l ∈ ls, l / u.elements < u.count) → (op ≤ 2 ∨ op = 5 → ∀ l ∈ ls, l < u.elements) →
      (op = 4 → ∀ l ∈ ls, x.rank * (u.elements / u.count) + l < u.elements) →
      let code (r e : Nat) (y : Nat) : Prop := ∃ z ∈ u.members, z.rank = r ∧ (z.codes.map (·.1))[e]? = some y
      let add (p q : Nat) : Nat := if tyInt c.src.ty then (p + q) % 2 ^ w
        else ((NumFmt.ofTy c.src.ty 0).deliver .rne false
          (exactAdd .rne ((NumFmt.ofTy c.src.ty 0).value p) ((NumFmt.ofTy c.src.ty 0).value q))).1
      let number (y : Nat) : Machine.Num := if tyInt c.src.ty
        then (let z : Int := if tySigned c.src.ty then (BitVec.ofNat w y).toInt else (BitVec.ofNat w y).toNat; .fin (z < 0) z.natAbs 0)
        else (NumFmt.ofTy c.src.ty 0).value (y % 2 ^ w)
      let less (p q : Machine.Num) : Bool := match p, q with
        | .fin n m e, .fin n' m' e' => scaled n m e (min e e') < scaled n' m' e' (min e e')
        | .inf n, .inf n' => n && !n'
        | .inf n, .fin _ _ _ => n
        | .fin _ _ _, .inf n => !n
        | _, _ => false
      let sum (e : Nat) (y : Nat) : Prop := ∃ (order : List Nat) (codes : List Nat), order.Perm (List.range u.count) ∧
        List.Forall₂ (fun r p => code r e p) order codes ∧ y = codes.tail.foldl add (codes.headD 0)
      let best (max : Bool) (e : Nat) (y : Nat) : Prop :=
        ((∃ r < u.count, ∃ p, code r e p ∧ anyNan [number p] = true) → y = (NumFmt.ofTy c.src.ty 0).nanCode) ∧
        ((∀ r < u.count, ∀ p, code r e p → anyNan [number p] = false) → (∃ r < u.count, code r e y) ∧
          ∀ r < u.count, ∀ p, code r e p → (if max then less (number y) (number p) else less (number p) (number y)) = false)
      let value (l : Nat) (y : Nat) : Prop :=
        (op = 0 → sum l y) ∧ (op = 1 → best true l y) ∧ (op = 2 → best false l y) ∧
        (op = 3 → code (l / u.elements) (l % u.elements) y) ∧ (op = 4 → sum (x.rank * (u.elements / u.count) + l) y) ∧
        (op = 5 → code 0 l y)
      ∃ (y : Nat → Nat) (t : State), (∀ l ∈ ls, value l (y l)) ∧ exec (.granuleComplete (.hart h) i) s = .next t ∧
        (∀ a, (t.spaceMem c v.space).byte a = (ls.foldl (fun (m : Mem) l => v.putIn m (at' l).1 (v.elementAt l).2 (y l))
          (s.spaceMem c v.space)).byte a) ∧
        (c.done + 1 < c.granules → ∃ d, (t.hart h).queue[i]? = some d ∧ d.done = c.done + 1) ∧
        (c.done + 1 = c.granules → c.flits = 0 → c.mbx = none → (∀ q ∈ (t.hart h).queue, q.id ≠ c.id) ∧
          (c.tag < 64 → (t.hart h).tagdone = (s.hart h).tagdone ||| BitVec.ofNat 64 (2 ^ c.tag)) ∧
          (t.hart h).tagfail = (s.hart h).tagfail))) ∧
  (∀ (f : FmtI) (s : State), s.runs f.gd = true → f.b.toNat < 2 →
     let m := s.getS f.a ||| (f.imm.setWidth 64 <<< (32 * f.b.toNat))
     let done := s.me.tagdone &&& m
     let failed (t : Nat) : Bool := (s.me.tagfail.find t).isSome
     let lowest (x : Word) (t : Nat) : Prop := t < 64 ∧ x.getLsbD t = true ∧ ∀ j < t, x.getLsbD j = false
     let clean (x : Word) : Prop := ∀ t < 64, x.getLsbD t = true → failed t = false
     (done ≠ m → exec (.twall f) s = .next (s.stall .tags)) ∧ (done = m → clean m → exec (.twall f) s = .next s.advance) ∧
     (m = 0 → exec (.twany f) s = .next (s.setS f.d 0).advance) ∧
     (m ≠ 0 → done = 0 → exec (.twany f) s = .next (s.stall .tags)) ∧
     (done ≠ 0 → clean done → exec (.twany f) s = .next (s.setS f.d done).advance) ∧
     (∀ t n, t < 64 → done.getLsbD t = true → s.me.tagfail.find t = some n → (∀ j < t, done.getLsbD j = true → failed j = false) →
       let taken := s.trap { cls := if n = 2 then .pageFault else if n = 3 ∨ n = 4 then .viewFormat else .protection, detail := BitVec.ofNat 32 n }
       exec (.twany f) s = .next taken ∧ (done = m → exec (.twall f) s = .next taken)) ∧
     (done = 0 → exec (.tfirst f) s = .next (s.setS f.d 64).advance) ∧
     (∀ t, lowest done t → exec (.tfirst f) s = .next (s.setS f.d (BitVec.ofNat 64 t ||| if failed t then 2 ^ 63 else 0)).advance) ∧
     ∃ t, exec (.tclr f) s = .next t ∧ s.onlySelf t ∧ t.me.pc = s.me.advance.pc ∧ t.me.tagdone = s.me.tagdone &&& ~~~m ∧
       ∀ n < 64, t.me.tagfail.find n = if m.getLsbD n then none else s.me.tagfail.find n)

/-! ### Tasks (05) -/

/-- R105, R107, R110 to R113, R116 to R118: `fork`, `forkc`, `spawn` and `forkg` count their children in their counter and
their launch (`forkc` its counter even at address 0), perform the parent's stores, push a descriptor with the parent's s1 to
s8, launch, object and clamped glade on its core's deque, a gang on its cluster's queue, answer 0 and end the region. Over the
partition's quota a child runs inline with answer 1, or is inline overflow sixteen deep, and a gang is refused with 1; a range
of 0 does nothing, one over 2^32 answers 3, and a cluster without a live row answers a gang 2. R107: a push goes to the newest
end of its core's deque of its class; a full deque first spills its sixteen oldest. R105: a descriptor is laid out in 128
bytes. Model's choice: log entries 26 (armed joins count as pending), 34 and 46 (with D = 8 the index stands over the status). -/
def Obligations.TasksAreCreatedAndPushed : Prop :=
  (∀ (f : FmtB) (s : State) (e : TlbEntry), s.runs f.gd = true → s.mayPublish = true →
     let own := (s.me.task.getD {}).desc
     let p := s.partOf s.cur
     let core := hartCore s.cur
     let target := s.me.pc + 8 + 8 * f.offs.signExtend 64
     let child (kind : Nat) (counter : Word) : Descriptor :=
       { payload := .ofFn fun i => s.getS (BitVec.ofNat 5 (i.val + 1)), entry := target, counter, launch := own.launch, kind
         glade := if f.fn.toNat % 8 = 0 then own.glade else min (f.fn.toNat % 8) own.glade, urgent := f.fn.getLsbD 3
         origin := core, object := own.object, asid := s.asidOf s.cur, part := p }
     let u := s.drainAll s.cur
     let added (c : Word) (n : Nat) : State :=
       let pa := e.physical c.toNat
       let v := (u.touchDie (pa / 128 * 128) 128).drainAll s.cur
       v.atomicWrite (bytesAt pa (leBytes 8 (v.mem.nat pa 8 + n)))
     let counted (c : Word) (n : Nat) : State := if c = 0 then u else added c n
     let pushed (u : State) (d : Descriptor) (n : Nat) : State :=
       (((u.birth p own.launch n).push core d.urgent (.desc d)).setS f.d 0).endRegion.advance
     let usable (c : Word) : Prop := c.toNat % 8 = 0 ∧ s.maps c e = true ∧ u.atomicable c 0 e = true
     let may (c : Word) : Prop := c = 0 ∨ usable c
     let room (n : Nat) : Prop := s.pending p + n ≤ s.myPart.quota
     let inline (o : Out) (fr : Frame) (range : Bool) : Prop :=
       (s.me.regs.inline.length < 16 → ∃ t, o = .next t ∧ t.me.pc = target ∧ t.me.boundary = true ∧
         t.me.regs.inline = s.me.regs.inline ++ [fr] ∧
         (∀ n, t.getS n = if n = 8 ∧ range = true then 0 else if n = f.d ∧ f.d ≠ 0 then 1 else s.getS n) ∧
         (t.cores, t.partitions, t.mem) = (s.cores, s.partitions, s.mem)) ∧
       (16 ≤ s.me.regs.inline.length → o = .next (s.raise .inlineOverflow))
     (room 1 → exec (.fork f) s = .next (pushed u (child 0 0) 1)) ∧
     (¬ room 1 → inline (exec (.fork f) s) { ret := s.me.pc + 8 } false) ∧
     (let c := s.getS f.a
      usable c →
       (room 1 → exec (.forkc f) s = .next (pushed (added c 1) (child 0 c) 1)) ∧
       (¬ room 1 → inline (exec (.forkc f) s) { ret := s.me.pc + 8 } false)) ∧
     (let c := s.getS f.b
      let n := (s.getS f.a).toNat
      may c →
       (n = 0 → exec (.spawn f) s = .next (s.setS f.d 0).endRegion.advance) ∧
       (2 ^ 32 < n → exec (.spawn f) s = .next (s.setS f.d 3).endRegion.advance) ∧
       (1 ≤ n → n ≤ 2 ^ 32 → room 1 → exec (.spawn f) s = .next (pushed (counted c n) { child 1 c with hi := n } n)) ∧
       (1 ≤ n → n ≤ 2 ^ 32 → ¬ room 1 → inline (exec (.spawn f) s) { ret := s.me.pc + 8, target, index := 1, left := n - 1 } true)) ∧
     (let c := s.getS f.a
      let k := hartCluster s.cur
      let live : Prop := ∃ r < 4, ∀ i < 8, (s.core (k * 32 + 8 * r + i)).quarantined = false
      may c →
       (¬ live → exec (.forkg f) s = .next (s.setS f.d 2).endRegion.advance) ∧
       (live → (¬ room 8 ∨ 16 ≤ s.myCluster.gangs.length) → exec (.forkg f) s = .next (s.setS f.d 1).endRegion.advance) ∧
       (live → room 8 → s.myCluster.gangs.length < 16 →
         let u := counted c 8
         let member (m : Nat) : Descriptor :=
           { child 2 c with payload := (child 2 c).payload.set 7 (BitVec.ofNat 64 m), lo := m, urgent := false }
         exec (.forkg f) s = .next (((u.setCluster k { u.cluster k with gangs :=
           (u.cluster k).gangs ++ [{ members := (List.range 8).map member }] }).birth p own.launch 8).setS f.d 0).endRegion.advance))) ∧
  (∀ (s : State) (c : Nat) (urgent : Bool) (w : Work),
     let k := s.core c
     let k' := (s.push c urgent w).core c
     (∀ d, d ≠ c → (s.push c urgent w).core d = s.core d) ∧
     (urgent = false → k' = { k with
       dequeN := (if k.dequeN.length < 64 then k.dequeN else k.dequeN.drop 16) ++ [w]
       spillN := if k.dequeN.length < 64 then k.spillN else k.spillN ++ k.dequeN.take 16 }) ∧
     (urgent = true → k' = { k with
       dequeU := (if k.dequeU.length < 64 then k.dequeU else k.dequeU.drop 16) ++ [w]
       spillU := if k.dequeU.length < 64 then k.spillU else k.spillU ++ k.dequeU.take 16 })) ∧
  (∀ (s : State) (d : Descriptor), d.launch < 2 ^ 32 → d.kind < 256 → d.glade ≤ 4 → d.lo < 2 ^ 64 → d.hi < 2 ^ 64 →
     let r := s.descriptorBytes d
     let field (off n : Nat) : Nat := leNat ((r.drop off).take n)
     r.length = 128 ∧ (∀ i : Fin 8, field (8 * i.val) 8 = d.payload[i].toNat) ∧ field 64 8 = d.entry.toNat ∧
     field 72 8 = d.counter.toNat ∧ field 80 4 = d.launch ∧ field 84 1 = d.kind ∧
     field 85 1 = d.glade + (if d.urgent then 8 else 0) ∧ field 86 2 = s.logicalCore d.part d.origin % 2 ^ 16 ∧
     field 88 8 = d.lo ∧ field 96 8 = d.hi ∧ field 104 8 = d.object.toNat ∧ field 112 16 = 0)


/-- R114, R120, R121: `join` arms a continuation on a counter, or pushes it at once where the counter is 0; a counter that
has one, and a partition at a quarter of its quota, are refused. `send` performs the task's stores and delivers 56 bytes to
a mailbox of this package, with the mailbox's answer. `qinfo` reads a value of its table. Model's choice: log entries 10 (the
ORIGIN of a continuation), 26, 34 and 44. -/
def Obligations.JoinSendAndQinfo : Prop :=
  (∀ (f : FmtB) (s : State) (e : TlbEntry), s.runs f.gd = true → s.mayPublish = true →
    let c := s.getS f.a
    let own := (s.me.task.getD {}).desc
    let p := s.partOf s.cur
    let q := s.partition p
    let pa := e.physical c.toNat
    let d : Descriptor :=
      { payload := .ofFn fun i => s.getS (BitVec.ofNat 5 (i.val + 1)), entry := s.me.pc + 8 + 8 * f.offs.signExtend 64
        launch := own.launch, kind := 3, glade := if f.fn.toNat % 8 = 0 then own.glade else min (f.fn.toNat % 8) own.glade
        urgent := f.fn.getLsbD 3, origin := hartCore s.cur, object := own.object, asid := s.asidOf s.cur, part := p }
    let v := (s.touchDie pa 8).drainAll s.cur
    let u := v.birth p own.launch 1
    c.toNat % 8 = 0 → s.maps c e = true → e.w = true → s.upsets = [] → (s.globalFor s.cur).bad pa 8 = false →
    s.keyed e.key pa 8 = true → v.keyed e.key pa 8 = true → s.dieAwake pa 8 = true →
    (q.quota / 4 ≤ q.joins.length → exec (.join f) s = .next (s.setS f.d 1).endRegion.advance) ∧
    (q.joins.length < q.quota / 4 →
      ((∃ j ∈ q.joins, j.pa = pa) → exec (.join f) s = .next (s.setS f.d 2).endRegion.advance) ∧
      ((∀ j ∈ q.joins, j.pa ≠ pa) →
        (u.mem.nat pa 8 ≠ 0 → exec (.join f) s = .next ((u.setPartition p { u.partition p with
          joins := q.joins ++ [{ counter := c, pa, desc := d }] }).setS f.d 0).endRegion.advance) ∧
        (u.mem.nat pa 8 = 0 → exec (.join f) s =
          .next ((u.push (u.liveCore (hartCore s.cur)) d.urgent (.desc d)).setS f.d 0).endRegion.advance)))) ∧
  (∀ (f : FmtA) (s : State), s.runs f.gd = true → s.mayPublish = true → s.unbound f.b = true → s.me.answer = none → s.me.sent = false →
    let h := s.getS f.a
    let p := s.partOf s.cur
    let r := (s.drainAll s.cur).deliver p h (leBytes 56 ((s.me.regs.getV f.b).extractLsb' 0 448).toNat)
    let answers (t : State) (x : Word) : Prop := exec (.send f) s = .next (t.setS f.d x).endRegion.advance
    (h.extractLsb' 48 10).toNat = s.node →
    (r.2 = 0 → answers r.1 0) ∧ (r.2 = 1 → answers r.1 1) ∧ (r.2 = 2 → answers (r.1.drop p) 2) ∧
      (r.2 = 3 → answers (r.1.drop p) 3) ∧ (r.2 = 4 → answers r.1 2)) ∧
  (∀ (f : FmtA) (s : State), s.runs f.gd = true →
    let c := hartCore s.cur
    let p := s.partOf s.cur
    let own := (s.me.task.getD {}).desc
    let reads (n : BitVec 4) (x : Nat) : Prop := f.fn = n → exec (.qinfo f) s = .next (s.setS f.d (BitVec.ofNat 64 x)).advance
    (∃ x, exec (.qinfo f) s = .next (s.setS f.d x).advance) ∧ reads 1 (s.pending p) ∧
      reads 2 ((s.partition p).quota - s.pending p) ∧ reads 3 (s.partition p).slice.length ∧
      reads 4 ((List.range 32).map fun i => if (s.core (c / 32 * 32 + i)).quarantined then 0 else 2 ^ i).sum ∧
      reads 6 (c % 32 / 8 * 16 + c % 8) ∧ reads 7 own.glade ∧ reads 8 own.launch ∧ reads 9 (s.partition p).drops)

/-- R42, R106, R108, R117, R123: a free slot of a running partition takes its own core's newest work of its class first: a
descriptor starts with s1 to s8 its payload and its whole other register file zero, at its entry; a range starts its first
index, in s8, and pushes the rest on its own core. A core without work of its own takes the oldest descriptor of another core of the slice whose
glade has it, and of a range the upper part. R83, R84: a descriptor or a record of a revoked object starts nothing: it counts as
discarded, or ends by a trap. R326: a ready record is taken whole, with its registers. Model's choice: log entries 67, 68
and 74. -/
def Obligations.SlotsTakeTheNewestWork : Prop :=
  ∀ (s : State) (c n : Nat), n < 4 → c < 3328 → (s.hart (.slot c n)).task = none → (s.core c).quarantined = false →
    (n < 3 → s.reserved c = false) → (s.cluster (c / 32)).owner ≠ 0 →
    (s.partition (s.cluster (c / 32)).owner).preempt = .running →
    let work (s : State) (j : Nat) : List Work × List Work :=
      if n = 3 then ((s.core j).dequeU, (s.core j).spillU) else ((s.core j).dequeN, (s.core j).spillN)
    let starts (t : State) (d : Descriptor) (first : Nat) : Prop :=
      let x := t.hart (.slot c n)
      (∃ y, x = { pc := d.entry, regionpc := d.entry, boundary := true, task := some y, regs := { s := x.regs.s } } ∧
        y.desc.launch = d.launch ∧ y.desc.object = d.object ∧ y.desc.counter = d.counter ∧ y.desc.asid = d.asid ∧
        y.gang = none ∧ y.wdlimit = (s.partition d.part).wdlimit) ∧
      (∀ i : BitVec 5, x.regs.getS i = if 1 ≤ i.toNat ∧ i.toNat ≤ 8 then
        (if d.kind = 1 ∧ i = 8 then BitVec.ofNat 64 first else d.payload.toList.getD (i.toNat - 1) 0) else 0) ∧
      (∀ j, j ≠ .slot c n → t.hart j = s.hart j)
    (∀ (d : Descriptor) (o : Object) (rest : List Work), work s c = (rest ++ [.desc d], (work s c).2) →
      (rest ≠ [] ∨ (work s c).2 = []) → (s.partition d.part).objects.find d.object = some o →
      (o.revoked = false → d.kind ≠ 1 ∨ (d.lo < d.hi ∧ d.urgent = (n == 3) ∧ rest.length < 64) →
        ∃ t, exec (.taskStart c n) s = .next t ∧ starts t d d.lo ∧
          (work t c).1 = rest ++ (if d.kind = 1 ∧ d.lo + 1 < d.hi then [.desc { d with lo := d.lo + 1, origin := c }] else []) ∧
          exec (.taskReplay c n) s = .next s) ∧
      (∀ x, o.revoked = true → d.kind ≠ 1 → d.counter = 0 → s.launch d.part d.launch = some x →
        x.normal + x.trapped + x.discarded + 1 < x.born →
        ∃ t, exec (.taskStart c n) s = .next t ∧ (∀ j, t.hart j = s.hart j) ∧ (work t c).1 = rest ∧
          t.launch d.part d.launch = some { x with discarded := x.discarded + 1, integrity := true })) ∧
    (∀ (h : Hart) (origin : Nat) (fixed : Bool) (task : Task) (o : Object) (rest : List Work),
      work s c = (rest ++ [.replay h origin fixed], (work s c).2) → (rest ≠ [] ∨ (work s c).2 = []) → h.task = some task →
      (s.partition task.desc.part).objects.find task.desc.object = some o →
      (o.revoked = false →
        ∃ t, exec (.taskReplay c n) s = .next t ∧ (work t c).1 = rest ∧ exec (.taskStart c n) s = .next s ∧
          (let x := t.hart (.slot c n)
           (x.pc, x.regs.s, x.regs.v, x.regs.k, x.regs.g, x.task, x.stores, x.tagdone) =
             (h.pc, h.regs.s, h.regs.v, h.regs.k, h.regs.g, h.task, h.stores, h.tagdone))) ∧
      (o.revoked = true → ∃ t, exec (.taskReplay c n) s = .next t ∧ (t.hart (.slot c n)).task = none ∧
        (h.working s.now = true → t = s))) ∧
    (∀ (v : Nat) (d : Descriptor) (o : Object) (rest : List Work),
      let q := s.partition d.part
      let split : Prop := d.kind = 1 ∧ d.lo + 2 ≤ d.hi
      let mid := if q.quota ≤ s.pending d.part then d.hi - 1 else d.lo + (d.hi - d.lo) / 2
      work s c = ([], []) → v ≠ c → v / 32 ∈ q.slice → c / 32 ∈ q.slice → d.origin / 32 ∈ q.slice → q.slice.Nodup →
      (s.core v).quarantined = false → d.part = (s.cluster (c / 32)).owner → work s v = (.desc d :: rest, []) →
      (∀ j, j ≠ v → work s j = ([], [])) →
      (match d.glade with
        | 1 => d.origin / 8 = c / 8 | 2 => d.origin / 32 = c / 32 | 3 => d.origin / 832 = c / 832 | _ => True) →
      q.objects.find d.object = some o → o.revoked = false → d.kind ≠ 1 ∨ (d.lo < d.hi ∧ d.urgent = (n == 3)) →
      (¬ split → ∃ t, exec (.taskStart c n) s = .next t ∧ starts t d d.lo ∧ (work t v).1 = rest) ∧
      (split → ∃ t, exec (.taskStart c n) s = .next t ∧ starts t { d with lo := mid } mid ∧
        (work t v).1 = .desc { d with hi := mid } :: rest ∧
        (work t c).1 = if mid + 1 < d.hi then [.desc { d with lo := mid + 1, origin := c }] else []))

/-! ### System instructions (02, 15, 17) -/

/-- R46 to R49, R104, R142, R282, R332: `ctrlr` reads the control register of its number; `ctrlw` writes the rounding mode at
any level, the partition's limits at system level within their ranges, and is the illegal-instruction trap outside them; a
task's write of a limit or of the quota has no effect; `vxf` is read and written once the flags of earlier instructions are
in, its bits [63:40] zero. The system level writes the Detour registers by their maps (R366 to R369): PEND is set in the stable
state for a live stack of two or more and cleared in the pending state, and PHASE moves by one from the pending state and from a
done sweep; any other write of them is the illegal-instruction trap and writes nothing. Every write ends its region. Model's
choice: log entries 24 and 61. -/
def Obligations.ControlRegisters : Prop :=
  (∀ (f : FmtS) (s : State) (c n : Nat), s.cur = .slot c n → s.runs f.gd = true →
    let p := s.partOf s.cur
    let q := s.partition p
    let reads (sel : BitVec 12) (x : Word) : Prop := f.sel = sel → exec (.ctrlr f) s = .next (s.setS f.d x).advance
    reads 0 (BitVec.ofNat 64 n) ∧ reads 1 (BitVec.ofNat 64 (c % 32)) ∧ reads 2 (BitVec.ofNat 64 (s.logicalCore p c / 32)) ∧
    reads 3 (s.cycleOf s.cur) ∧ reads 4 s.me.tagdone ∧ reads 7 (s.me.regs.rmode.setWidth 64) ∧ reads 8 s.me.regionpc ∧
    reads 9 (BitVec.ofNat 64 q.quota) ∧ reads 10 (BitVec.ofNat 64 q.wdlimit) ∧ reads 11 (BitVec.ofNat 64 q.gangwait) ∧
    (0x100 ≤ f.sel.toNat → exec (.ctrlr f) s = .next (s.raise .privilege)) ∧
    (f.sel ≠ 7 → f.sel.toNat < 0x100 → exec (.ctrlw f) s = .next s.endRegion.advance) ∧
    exec (.quotaWrite f) s = .next s.endRegion.advance) ∧
  (∀ (f : FmtS) (s : State), s.runs f.gd = true →
    let x := s.getS f.a
    (f.sel = 7 → (x.toNat ≤ 4 → exec (.ctrlw f) s =
        .next (s.setMe { s.me with regs := { s.me.regs with rmode := x.setWidth 3 } }).endRegion.advance) ∧
      (4 < x.toNat → exec (.ctrlw f) s = .next (s.raise .illegal))) ∧
    (∀ q, s.partitions.find (s.partOf s.cur) = some q →
      let puts (o : Out) (r : Partition) (lo hi : Nat) : Prop :=
        (lo ≤ x.toNat → x.toNat < hi → o = .next (s.setPartition (s.partOf s.cur) r).endRegion.advance) ∧
        (x.toNat < lo ∨ hi ≤ x.toNat → o = .next (s.raise .illegal))
      (1 ≤ s.level s.cur → puts (exec (.quotaWrite f) s) { q with quota := x.toNat } 64 (2 ^ 24)) ∧
      (s.level s.cur = 2 → (f.sel = 10 → puts (exec (.ctrlw f) s) { q with wdlimit := x.toNat } 65536 (2 ^ 32)) ∧
        (f.sel = 11 → puts (exec (.ctrlw f) s) { q with gangwait := x.toNat } 1024 (2 ^ 32)))) ∧
    (1 ≤ s.level s.cur →
      (f.sel = 0x100 → exec (.ctrlr f) s = .next (s.setS f.d (BitVec.ofNat 64 s.detour.capacity)).advance) ∧
      (f.sel = 0x101 → exec (.ctrlr f) s = .next (s.setS f.d (s.detour.phase.setWidth 64)).advance) ∧
      (f.sel = 0x102 → exec (.ctrlr f) s = .next (s.setS f.d (BitVec.ofNat 64 ((if s.detour.done then 2 ^ 63 else 0)
        + (if s.detour.pause then 2 ^ 62 else 0) + s.detour.pointer / 65536 % 2 ^ 36 * 65536))).advance) ∧
      (f.sel = 0x103 → exec (.ctrlr f) s = .next (s.setS f.d (BitVec.ofNat 64 (s.detour.retire.toNat * 2 ^ 44
        + (if s.detour.pend then 2 ^ 40 else 0) + ((List.range 16).filter fun i => s.detour.live.getLsbD i).length * 2 ^ 32
        + s.detour.live.toNat))).advance)) ∧
    (s.level s.cur = 2 →
      let d := s.detour
      let n := ((List.range 16).filter fun i => d.live.getLsbD i).length
      let less := d.capacity - 48 * 2 ^ 30
      let odd : Prop := d.phase.getLsbD 0 = true
      let becomes (y : Detour) : Prop := exec (.ctrlw f) s = .next (State.advance (State.endRegion { s with detour := y }))
      let refused : Prop := exec (.ctrlw f) s = .next (s.raise .illegal)
      (f.sel = 0x101 →
        (x = (d.phase + 1).setWidth 64 → ¬ odd → d.pend = true →
          becomes { d with phase := d.phase + 1, pointer := less, done := false, moving := false, copied := 0 }) ∧
        (x = (d.phase + 1).setWidth 64 → odd → d.done = true → becomes { d with
          phase := d.phase + 1, live := d.live &&& ~~~BitVec.ofNat 16 (2 ^ d.retire.toNat), capacity := less, pend := false, done := false }) ∧
        (x ≠ (d.phase + 1).setWidth 64 ∨ (¬ odd ∧ d.pend = false) ∨ (odd ∧ d.done = false) → refused)) ∧
      (f.sel = 0x102 → (x.extractLsb' 52 10 = 0 → becomes { d with pause := x.getLsbD 62 }) ∧
        (x.extractLsb' 52 10 ≠ 0 → refused)) ∧
      (f.sel = 0x103 →
        let retire := x.extractLsb' 44 4
        let pend := x.getLsbD 40
        let clear : Prop := x.extractLsb' 48 16 = 0 ∧ x.extractLsb' 41 3 = 0 ∧ x.extractLsb' 37 3 = 0 ∧ x.extractLsb' 16 16 = 0
        (¬ clear → refused) ∧
        (clear → (pend = d.pend → retire = d.retire → becomes d) ∧
          (pend ≠ d.pend ∨ retire ≠ d.retire →
            (¬ odd → d.pend = false → pend = true → 2 ≤ n → d.live.getLsbD retire.toNat = true →
              becomes { d with pend := true, retire }) ∧
            (¬ odd → d.pend = true → pend = false → becomes { d with pend := false, retire }) ∧
            (odd ∨ (d.pend = true ∧ pend = true) ∨
              (d.pend = false ∧ (pend = false ∨ n < 2 ∨ d.live.getLsbD retire.toNat = false)) → refused))))) ∧
    ((∃ p ∈ s.me.pend, p.sets = true ∧ p.complete s.now = false) → ∀ w, exec (.vxfAccess w f) s = .next (s.stall .flags)) ∧
    (s.me.pend = [] → f.sel = 5 ∨ f.sel = 6 →
      exec (.vxfAccess false f) s = .next (s.setS f.d (if f.sel = 5 then s.me.vxfLo else s.me.vxfHi)).advance ∧
      (x.toNat < 2 ^ 40 → exec (.vxfAccess true f) s = .next (s.setMe { s.me with
        vxfLo := if f.sel = 5 then x else s.me.vxfLo, vxfHi := if f.sel = 5 then s.me.vxfHi else x }).endRegion.advance) ∧
      (2 ^ 40 ≤ x.toNat → exec (.vxfAccess true f) s = .next ((s.modMe Hart.settleFlags).raise .illegal))))

/-- R126, R222, R326, R333, R334, R342: on a TSC, `tret.take` gives the oldest entry of its cluster's miss queue that has not been
given, as 256 bits, and waits for one; `tret.defer` parks an entry, on which its stalled tasks park as they issue, and does nothing
to a parked one; `tret.release` and `tret.term` free it: its kept tasks go on, and its records are ready on their cores, or its
waiting tasks end, a stalled one as it would issue, with its own class and address and the answered status (`tret.term` waits while a
record's matrix work goes on: log entry 27). Each ends its region, and does nothing more where no live entry has the
number. -/
def Obligations.MissesAreAnswered : Prop :=
  (∀ (f : FmtS) (s : State) (k : Nat), s.cur = .tsc k → s.runs f.gd = true → s.me.task = none →
    let q := (s.cluster k).misses
    let given (e : MissEntry) : Bool := e.taken || e.restored
    let none' : Out := .next s.endRegion.advance
    ((∀ e ∈ q, given e = true) → exec (.tretTake f) s = .next (s.stall .take)) ∧
    (∀ before after e, q = before ++ e :: after → (∀ x ∈ before, given x = true) → given e = false →
      (∀ x ∈ before ++ after, x.seq ≠ e.seq) → s.unbound f.d = true → ∃ t, exec (.tretTake f) s = .next t ∧
        t.me = ((s.setV f.d (e.image.setWidth 512)).endRegion.advance).me ∧ t.mem = s.mem ∧
        (t.cluster k).misses = before ++ { e with taken := true } :: after) ∧
    ((∀ e ∈ q, e.seq ≠ (s.getS f.a).toNat % 2 ^ 32) →
      exec (.tretDefer f) s = none' ∧ exec (.tretTerm f) s = none' ∧ exec (.tretRelease f) s = none') ∧
    (∀ before after e, q = before ++ e :: after → (∀ x ∈ before ++ after, x.seq ≠ e.seq) → e.seq = (s.getS f.a).toNat % 2 ^ 32 →
      (∃ t, exec (.tretDefer f) s = .next t ∧ t.me = s.endRegion.advance.me ∧ (∀ j, j ≠ s.cur → t.hart j = s.hart j) ∧
        (t.cluster k).misses = before ++ { e with parked := true } :: after) ∧
      (∃ t, exec (.tretRelease f) s = .next t ∧ t.me.pc = s.me.advance.pc ∧ t.me.boundary = true ∧
        (t.cluster k).misses = before ++ after ∧ (∀ j, j ≠ s.cur → j ∉ e.kept → t.hart j = s.hart j) ∧
        (∀ id ∈ e.kept, isSlot id = true → (s.partition ((s.hart id).task.getD {}).desc.part).preempt = .running →
          (t.hart id).parked = none) ∧
        (∀ h c n task, e.kept = [] → e.records = [(h, .slot c n)] → h.task = some task → (s.core c).quarantined = false →
          (s.partition task.desc.part).preempt = .running →
          let w := Work.replay h c false
          (task.desc.urgent = false → (t.core c).dequeN.getLast? = some w) ∧ (task.desc.urgent = true →
              (t.core c).dequeU.getLast? = some w))) ∧
      ((e.records.any fun r => r.1.working s.now) = false → ∃ t, exec (.tretTerm f) s = .next t ∧ t.me.pc = s.me.advance.pc ∧ t.me.boundary = true ∧
        (t.cluster k).misses.all (fun x => x.seq != e.seq) = true ∧
        ∀ c n, .hart (.slot c n) ∈ e.stalled → e.kept = [] → e.records = [] → (∀ r ∈ e.stalled, ∃ id, r = .hart id ∧ isSlot id = true) →
          t.hart (.slot c n) = { State.atFault (s.hart (.slot c n)) with
            verdict := some (State.endTrap (s.hart (.slot c n)) (s.getS f.b)) }) ∧
      ((e.records.any fun r => r.1.working s.now) = true → exec (.tretTerm f) s = .next (s.stall .slice)))) ∧
  (∀ (s : State) (c n : Nat) (first rest : List Nat) (x : Trap), s.agenda = [] → s.upsets = [] → s.turn = .core c → c < 3328 →
    slotOrder (s.core c).cur (s.core c).run = first ++ n :: rest →
    (∀ m ∈ first, (s.hart (.slot c m)).ready (.slot c m) = false) → (s.hart (.slot c n)).ready (.slot c n) = true →
    (s.hart (.slot c n)).verdict = some x → s.mayLeave (.slot c n) = true → ∃ t, step s = .next t ∧ t.hart (.slot c n) = {})

/-- R215 to R217, R335, R336, R341: `tlbw` is a release; an entry that is well formed for its issuer replaces what overlaps it in the
cluster's TLB, or a system core's die's, with answer 0, and any other is refused with 1. `tlbi` performs every hart's stores
and leaves no entry of its kind at any level, and every other; `cinv` drops the cached copies of a page or a unit. R222: a `tlbw`
answers every live miss that its entry covers: none is left, and a lookup of the page there finds the entry. Model's choice: log
entries 9, 16 (the ASIDs of nobody), 34 and 37. -/
def Obligations.TranslationsChange : Prop :=
  (∀ (f : FmtS) (s : State), 1 ≤ s.level s.cur → s.runs f.gd = true → s.mayPublish = true →
    let e : TlbEntry := ⟨s.getS f.a, s.getS f.b⟩
    let u := s.drainAll s.cur
    let w0 (lo n : Nat) : Nat := ((s.getS f.a).extractLsb' lo n).toNat
    let w1 (lo n : Nat) : Nat := ((s.getS f.b).extractLsb' lo n).toNat
    let low := if w1 61 2 = 0 then 0 else if w1 61 2 = 1 then 5 else 14
    let may (x : Nat) (own : List Nat) : Prop := match s.cur with | .sys _ _ => True | _ => x ≠ 0 ∧ x ∈ own
    let formed : Prop := w1 63 1 = 1 ∧ w1 61 2 ≠ 3 ∧ w1 48 2 ≠ 3 ∧ w1 41 7 = 0 ∧ w0 52 3 < 3 ∧ w0 48 3 < 3 ∧ w0 36 7 = 0 ∧
      w1 0 41 % 2 ^ low = 0 ∧ w0 0 36 % 2 ^ low = 0 ∧ w0 43 5 ≠ 3 ∧ (w0 48 3 ≠ 0 → w0 43 5 ≠ 2) ∧ (w0 52 3 = 0 → w0 51 1 = 0) ∧
      (w1 50 1 = 1 → s.level s.cur = 2 ∧ w1 52 1 = 0 ∧ w1 51 1 = 0 ∧ w0 43 5 = 0 ∧ w0 48 3 = 0 ∧ w0 52 3 = 0) ∧
      (w0 55 1 = 1 → w1 50 1 = 1) ∧ may (w1 53 8) s.myPart.asids ∧ may (w0 56 8) s.myPart.keys ∧
      w0 0 36 * 65536 + 65536 * 2 ^ low ≤ (if s.detour.pend then s.detour.capacity - 48 * 2 ^ 30 else s.detour.capacity)
    let near (k : Nat) : Prop := match s.cur with | .sys d _ => k / 26 = d | _ => k = hartCluster s.cur
    (¬ formed → exec (.tlbw f) s = .next (u.setS f.d 1).endRegion.advance) ∧
    (formed → ∃ t, exec (.tlbw f) s = .next t ∧ t.me.pc = s.me.advance.pc ∧ t.me.boundary = true ∧
      t.getS f.d = 0 ∧ t.mem = u.mem ∧
      (∀ k, near k → (∀ m ∈ (t.cluster k).misses, e.covers m.asid (m.page * 65536) = false) ∧
        ∀ c n va, c / 32 = k → e.covers e.asid va = true → ∃ v, t.lookup (.slot c n) e.asid va = some (e, v)) ∧
      (∀ j, j ≠ s.cur → (∀ k, near k → ∀ m ∈ (s.cluster k).misses, j ∉ m.kept) → t.hart j = s.hart j) ∧
      (∀ k, s.cur = .tsc k → e ∈ (t.cluster (hartCluster s.cur)).tlb ∧
        (∀ g ∈ (t.cluster (hartCluster s.cur)).tlb, e.overlaps g = true → g = e) ∧
        ∀ c, c / 32 = hartCluster s.cur → ∀ g ∈ (t.core c).tlb, e.overlaps g = false) ∧
      (∀ d n, s.cur = .sys d n → e ∈ (t.die d).tlb ∧ (∀ g ∈ (t.die d).tlb, e.overlaps g = true → g = e) ∧
        (∀ c, c / 832 = d → ∀ g ∈ (t.core c).tlb, e.overlaps g = false) ∧
        ∀ k, k / 26 = d → ∀ g ∈ (t.cluster k).tlb ++ (t.cluster k).victims, e.overlaps g = false))) ∧
  (∀ (f : FmtS) (s : State), 1 ≤ s.level s.cur → s.runs f.gd = true →
    (s.harts.any fun e => e.2.stores.any s.blocked) = false →
    let asid := (s.getS f.b).toNat % 256
    let va := (s.getS f.a).toNat
    let p := s.partOf s.cur
    let purges (o : Out) (gone : TlbEntry → Bool) : Prop := ∃ t, o = .next t ∧ t.me.pc = s.me.advance.pc ∧ t.me.boundary = true ∧
      (∀ j, (t.hart j).stores = []) ∧ (∀ c, (t.core c).tlb = (s.core c).tlb.filter fun e => !gone e) ∧
      (∀ k, (t.cluster k).tlb = (s.cluster k).tlb.filter (fun e => !gone e) ∧
        (t.cluster k).victims = (s.cluster k).victims.filter fun e => !gone e) ∧
      ∀ d, (t.die d).tlb = (s.die d).tlb.filter fun e => !gone e
    (s.mayName asid s.myPart.asids = false →
      exec (.tlbiPage f) s = .next (s.raise .protection) ∧ exec (.tlbiAsid f) s = .next (s.raise .protection)) ∧
    (s.mayName asid s.myPart.asids = true →
      purges (exec (.tlbiPage f) s) (fun e => e.covers asid va) ∧ purges (exec (.tlbiAsid f) s) fun e => e.asid == asid) ∧
    purges (exec (.tlbiAll f) s) (fun e => if p = 0 then !(s.partitions.any fun q => q.2.asids.contains e.asid)
      else (s.partition p).asids.contains e.asid) ∧
    (∃ t, exec (.cinvI f) s = .next t ∧ t.me = s.endRegion.advance.me ∧ t.mem = s.mem ∧ ∀ c, (t.core c).icache =
      if c / 32 = hartCluster s.cur then (s.core c).icache.filter fun e => !(e.1 == asid && e.2 / 512 == va / 65536)
      else (s.core c).icache) ∧
    (let unit := (s.getS f.a).extractLsb' 16 36
     let may : Bool := match s.cur with
       | .sys _ _ => unit.toNat * 65536 < s.detour.capacity
       | _ => s.myPart.frames.contains unit.toNat
     (may = false → exec (.cinvD f) s = .next (s.raiseAt .protection (s.getS f.a))) ∧
     (may = true → ∃ t, exec (.cinvD f) s = .next t ∧ t.me.pc = s.me.advance.pc ∧ t.me.boundary = true ∧ (∀ j, (t.hart j).stores = []) ∧
       (∀ c, (t.core c).lines = (s.core c).lines.filter fun n => n / 512 ≠ unit.toNat) ∧
       ∀ d, (t.die d).lines = (s.die d).lines.filter fun n => n / 512 ≠ unit.toNat)))

/-- R92, R99, R337: `mbind` binds a mailbox of the issuer's partition under a record of 48 bytes in memory, with E = 1, its slots
empty and its generation raised, and gives its handle; what is wrong with the record comes back by its code. `mbind.un`
unbinds the mailbox of a current handle. Model's choice: log entries 11 (the next generation) and 45 (4,096 mailboxes). -/
def Obligations.MailboxesAreBound : Prop :=
  ∀ (f : FmtS) (s : State) (page : Nat → TlbEntry), s.runs f.gd = true →
    let i := (s.getS f.a).toNat
    let a := s.getS f.b
    let p := s.partOf s.cur
    let q := s.partition p
    let m := s.globalFor s.cur
    let word (j : Nat) : Nat := m.nat ((page j).physical (a + BitVec.ofNat 64 (8 * j)).toNat) 8
    let field (off n : Nat) : Nat := word (off / 8) / 2 ^ (8 * (off % 8)) % 2 ^ (8 * n)
    let answers (x : Word) : Prop := exec (.mbind f) s = .next (s.setS f.d x).endRegion.advance
    let fails (code : Nat) : Prop := answers (BitVec.ofNat 64 (0xFC * 2 ^ 56 + code))
    let read : State := s.touchedAt ((List.range 6).map fun j => (page j).physical (a + BitVec.ofNat 64 (8 * j)).toNat) 8
    let rejects (code : Nat) : Prop :=
      exec (.mbind f) s = .next (read.setS f.d (BitVec.ofNat 64 (0xFC * 2 ^ 56 + code))).endRegion.advance
    (4096 ≤ i → fails 5) ∧ (i < 4096 → a.toNat % 8 ≠ 0 → exec (.mbind f) s = .next (s.raiseAt .alignment a)) ∧
    (i < 4096 → a.toNat % 8 = 0 → (∀ j < 6, s.readable (a + BitVec.ofNat 64 (8 * j)) 8 (page j) = true) →
      let good : Prop := field 10 1 ≤ 1 ∧ 1 ≤ field 11 1 ∧ field 11 1 ≤ 4 ∧ field 14 1 ≤ 31 ∧ field 15 1 ≤ 8 ∧ field 16 1 ≤ 1 ∧
        field 17 7 = 0 ∧ field 40 8 = 0
      (¬ good → rejects 1) ∧
      (good → (q.objects.find (BitVec.ofNat 64 (word 0)) = none → rejects 2) ∧
        ∀ o, q.objects.find (BitVec.ofNat 64 (word 0)) = some o →
          (o.revoked = true → rejects 2) ∧
          (o.revoked = false → (∀ e ∈ o.entries, e.1 ≠ field 8 2) → rejects 3) ∧
          (o.revoked = false → ∀ e, o.entries.find? (·.1 == field 8 2) = some e →
            (q.slice.length ≤ field 12 2 → rejects 4) ∧
            (∀ k, q.slice[field 12 2]? = some k →
              ((s.core (k * 32 + field 14 1)).quarantined = true → rejects 4) ∧
              ((s.core (k * 32 + field 14 1)).quarantined = false → ∃ t,
                let gen := (s.mailbox p i).gen % 65535 + 1
                let b := t.mailbox p i
                exec (.mbind f) s = .next t ∧ t.me = (s.setS f.d (BitVec.ofNat 64 (s.node * 2 ^ 48 + gen * 2 ^ 32 + i))).endRegion.advance.me ∧
                t.mem = s.mem ∧ (∀ j, j ≠ i → t.mailbox p j = s.mailbox p j) ∧
                b.state = .armed ∧ b.gen = gen ∧ b.expect = 1 ∧ b.slot = 1 % 2 ^ field 15 1 ∧ b.object = o.handle ∧ b.asid = o.asid ∧
                b.entry = o.base + BitVec.ofNat 64 (8 * e.2) ∧ b.home = k * 32 + field 14 1 ∧ b.logDepth = field 15 1 ∧
                b.urgent = (field 10 1 == 1) ∧ b.glade = field 11 1 ∧ b.messageFed = (field 16 1 == 1) ∧
                b.doneMbx = BitVec.ofNat 64 (word 3) ∧ b.faultMbx = BitVec.ofNat 64 (word 4) ∧ b.bytes = {}))))) ∧
    (let h := s.getS f.a
     let n := (h.extractLsb' 0 12).toNat
     let b := s.mailbox p n
     let current : Prop := b.state ≠ .unbound ∧ h = BitVec.ofNat 64 (s.node * 2 ^ 48 + b.gen * 2 ^ 32 + n)
     (¬ current → exec (.mbindUn f) s = .next (s.setS f.d (BitVec.ofNat 64 (0xFC * 2 ^ 56 + 4))).endRegion.advance) ∧
     (current → ∃ t, exec (.mbindUn f) s = .next t ∧ t.me = (s.setS f.d 0).endRegion.advance.me ∧
       t.mailbox p n = { gen := b.gen } ∧ ∀ j, j ≠ n → t.mailbox p j = s.mailbox p j))

/-- R338 to R341, R361 to R363, R399: the repair table's instructions, `halt`, and the saves of a partition, at system
level. `reprw.get`, `.add`, `.apply`, `.clr` and `.sum`, `halt`, `qsave` and `qrest` complete: each gives the next state
written here, for every state in which it may run. `halt` takes the oldest message of its core or waits for one. `qsave` and
`qrest` wait while the scheduler firmware is updated (R399); else they answer with their status, and a save that can be made
stores its area and is kept, and an area of this package goes back to a partition without clusters. That an area of this
device's digest which the package did not save is answered as malformed is the model's choice (log entry 18). Model's choice:
log entries 6, 18, 19, 21, 72 and 73. -/
def Obligations.RepairHaltAndSaves : Prop :=
  ∀ (f : FmtS) (s : State), s.level s.cur = 2 → s.runs f.gd = true →
    let d := hartDie s.cur
    let x := s.die d
    let i := (s.getS f.a).toNat
    let done (u : State) (y : Word) : State := (u.setS f.d y).endRegion.advance
    let row : BitVec 32 := (s.getS f.a).setWidth 32
    exec (.reprwGet f) s = .next (done s (if i < 1024 then x.repair.getD i 0 else 0)) ∧
    (x.repair.length < 1024 → exec (.reprwAdd f) s = .next (done (s.setDie d { x with
      repair := x.repair ++ [BitVec.ofNat 64 (2 ^ 63 + row.toNat)]
      summary := if x.repair.length = 1023 then x.summary ||| 4 else x.summary }) (BitVec.ofNat 64 x.repair.length))) ∧
    (1024 ≤ x.repair.length →
      exec (.reprwAdd f) s = .next (done (s.setDie d { x with summary := x.summary ||| 4 }) (BitVec.allOnes 64))) ∧
    (x.repair[i % 1024]? = none → exec (.reprwApply f) s = .next (done s 2)) ∧
    (∀ e, x.repair[i % 1024]? = some e →
      (e.extractLsb' 61 2 ≠ 0 → exec (.reprwApply f) s = .next (done s 2)) ∧
      (e.extractLsb' 61 2 = 0 → s.upsets = [] →
        (x.sparesUsed < Config.spareRows d → ∃ y, exec (.reprwApply f) s = .next (done (s.setDie d y) 0) ∧
          y.sparesUsed = x.sparesUsed + 1 ∧
          y.repair = x.repair.set (i % 1024) (BitVec.ofNat 64 (2 ^ 63 + 2 ^ 61 + x.sparesUsed % 256 * 2 ^ 48 + (e.setWidth 32).toNat))) ∧
        (Config.spareRows d ≤ x.sparesUsed → ∃ y, exec (.reprwApply f) s = .next (done (s.setDie d y) 1) ∧
          y.sparesUsed = x.sparesUsed ∧
          y.repair = x.repair.set (i % 1024) (BitVec.ofNat 64 (2 ^ 63 + 2 ^ 62 + (e.setWidth 32).toNat))))) ∧
    exec (.reprwClr f) s = .next (s.setDie d { x with bloom := [] }).endRegion.advance ∧
    exec (.reprwSum f) s = .next (done s x.summary) ∧
    (s.me.inbox = [] → exec (.halt f) s = .next (s.setMe { s.me with halted := true, wait := some .message })) ∧
    (∀ b rest, s.me.inbox = b :: rest →
      exec (.halt f) s = .next (s.setMe { s.me with inbox := rest, halted := false }).endRegion.advance) ∧
    (s.update ≠ .running → exec (.qsave f) s = .next (s.stall .update) ∧ exec (.qrest f) s = .next (s.stall .update)) ∧
    (s.update = .running →
      let va := s.getS f.b
      let at' (j : Nat) : Word := va + BitVec.ofNat 64 (4096 * j)
      (va.toNat % 4096 ≠ 0 → exec (.qsave f) s = .next (s.raiseAt .alignment va) ∧ exec (.qrest f) s = .next (s.raiseAt .alignment va)) ∧
      (va.toNat % 4096 = 0 →
        (s.partitions.find i = none → exec (.qsave f) s = .next (done s 2)) ∧
        (∀ q, s.partitions.find i = some q →
          let n := s.saves.length
          let size := 104 + 4 * q.slice.length + Config.saveLength n + 48
          let area := saveArea s q n
          (s.quiescent i = false → exec (.qsave f) s = .next (done s 2)) ∧
          (s.quiescent i = true → (s.getS f.c).toNat < size → exec (.qsave f) s = .next (done s (BitVec.ofNat 64 (size * 256 + 4)))) ∧
          (∀ page : Nat → TlbEntry, s.quiescent i = true → size ≤ (s.getS f.c).toNat →
            (∀ j, 4096 * j < size → s.writable (at' j) (page j) = true) →
            let u := (pieces area).zipIdx.foldl (fun u p =>
              let pa := (page p.2).physical (at' p.2).toNat
              u.issueStore { cluster := none, bytes := bytesAt pa p.1, keys := [(pa / 65536, (page p.2).key)] }) s
            exec (.qsave f) s = .next (done (State.setPartition { u with saves := u.saves ++ [s.snapshot q n area] }
              i { q with preempt := .saved }) (BitVec.ofNat 64 (size * 256))))) ∧
        ((s.getS f.c).toNat < 152 → exec (.qrest f) s = .next (done s 2)) ∧
        (∀ page : Nat → TlbEntry, 152 ≤ (s.getS f.c).toNat → s.readable va 16 (page 0) = true →
          let m := s.globalFor s.cur
          let head := m.bytes ((page 0).physical va.toNat) 16
          let v := s.touchDie ((page 0).physical va.toNat) 16
          let size := fileNat head 8 8
          let formed : Prop := fileNat head 0 4 = 0x4B575356 ∧ fileNat head 4 2 = 1 ∧ size ≤ (s.getS f.c).toNat
          (¬ formed → exec (.qrest f) s = .next (done v 2)) ∧
          (formed → (∀ j, 4096 * j < size → s.readable (at' j) (min 4096 (size - 4096 * j)) (page j) = true) →
            let area := (List.range ((size + 4095) / 4096)).flatMap fun j =>
              m.bytes ((page j).physical (at' j).toNat) (min 4096 (size - 4096 * j))
            let v := (List.range ((size + 4095) / 4096)).foldl (fun v j =>
              v.touchDie ((page j).physical (at' j).toNat) (min 4096 (size - 4096 * j))) v
            let whole : Prop := 152 ≤ size ∧ sha384 (area.take (size - 48)) = area.drop (size - 48)
            let known : Prop := (area.drop 16).take 48 = wayDigest s.reducedService
            (¬ whole → exec (.qrest f) s = .next (done v 2)) ∧
            (whole → ¬ known → exec (.qrest f) s = .next (done v 1)) ∧
            (whole → known → (∀ y ∈ s.saves, y.area ≠ area) → exec (.qrest f) s = .next (done v 2)) ∧
            (∀ y, whole → known → s.saves.find? (fun z => z.area == area) = some y →
              let placed := s.placeClusters (State.saveMasks y) ((List.range 104).filter s.mayTake)
              ((s.partition i).slice ≠ [] → exec (.qrest f) s = .next (done v 3)) ∧
              ((s.partition i).slice = [] → (s.fits i y = false ∨ i = 0 ∨ placed = none) → exec (.qrest f) s = .next (done v 1)) ∧
              (∀ slice, (s.partition i).slice = [] → s.fits i y = true → i ≠ 0 → placed = some slice →
                exec (.qrest f) s = .next (done ((v.freeSaved slice).restore i y slice) (BitVec.ofNat 64 (size * 256)))))))))

/-! ### Traps (15) -/

/-- R158, R318, R320, R321, R322, R331, R143: `trap` and `brk` take the software trap with their detail and value. Taking a
trap ends the task: its slot is free, the stores of its current region are gone and its earlier ones performed (where one waits for a
unit being moved, the unit completes first: log entry 53); it does so once its matrix work is over and the banks that its stores
pass through serve, and owes the trap until then (log entry 27); at the end of a region none of its stores is of a current one (R140).
Its tiles, claims and views are freed, its slot's tasks elsewhere untouched; its end is counted, after its counter's decrement
where it has a counter. The report gives class, slot, core, the object whose image holds the faulting word and the word's index
there, detail, address and value. A task at its watchdog limit takes the watchdog trap, at the word of its pc, unless it owes a
trap already. R341, R400:
firmware that traps stops, and its report goes to system core 0 of its die, or waits for room in its queue. R324, R325: the record
of a task that parks is laid out in 3,072 bytes, and its extension in 1,024. Model's choice: log entries 30 (firmware's
report), 53, 63 (records), 80 and 91. -/
def Obligations.TrapsEndTasks : Prop :=
  (∀ (f : FmtS) (g : FmtI) (s : State),
    (s.runs f.gd = true → exec (.trap f) s = .next (s.trap { cls := .software, detail := f.sel.setWidth 32, value := s.getS f.a })) ∧
    (s.runs g.gd = true → exec (.brk g) s = .next (s.trap { cls := .software, detail := BitVec.ofNat 32 (2 ^ 31 + g.imm.toNat % 2 ^ 16) }))) ∧
  (∀ (s : State) (c n : Nat) (task : Task) (x : Trap), s.cur = .slot c n → s.me.task = some task →
    (s.mayLeave s.cur = false → (s.trap x).me.verdict = some x ∧ (s.trap x).me.task = some task ∧ (s.trap x).mem = s.mem ∧
      (s.trap x).me.stores = s.me.stores.filter (fun st => s.me.boundary || !st.fresh) ∧
      (∀ j, j ≠ s.cur → (s.trap x).hart j = s.hart j) ∧ (s.trap x).partitions = s.partitions) ∧
    (s.mayLeave s.cur = true →
    let d := task.desc
    let k := c / 32
    let u := s.trap x
    let kept := s.me.stores.filter fun st => s.me.boundary || !st.fresh
    let performed := kept.foldl State.perform (if kept.any s.blocked then s.completeUnit else s)
    u.hart s.cur = {} ∧ (∀ j, j ≠ s.cur → u.hart j = s.hart j) ∧
    (∀ a, u.mem.byte a = performed.mem.byte a) ∧ (∀ j a, (u.cluster j).mem.byte a = (performed.cluster j).mem.byte a) ∧
    (∀ i : Fin 8, ((u.core c).tiles[i]).holder = if ((s.core c).tiles[i]).holder = some n then none else ((s.core c).tiles[i]).holder) ∧
    (u.core c).claims = (s.core c).claims.filter (fun q => q.1 ≠ n) ∧
    (∀ j, (u.cluster j).directory = if j = k then (s.cluster j).directory.filter (fun q => q.1 ≠ s.cur) else (s.cluster j).directory) ∧
    (∀ j, j ≠ c → (u.core j).tiles = (s.core j).tiles ∧ (u.core j).claims = (s.core j).claims) ∧
    (∀ q l, d.counter ≠ 0 → s.faultMbx d = 0 → s.partitions.find d.part = some q → s.launch d.part d.launch = some l →
      ∃ y, (u.partition d.part).decrements = q.decrements ++ [y] ∧ y.desc = d ∧ y.kind = .trapped ∧ y.core = c ∧ y.slot = n ∧
        y.first = s.firstTrap d s.me.pc x ∧
        u.launch d.part d.launch = some { l with commands := l.commands - s.me.queue.length }) ∧
    (∀ l, d.counter = 0 → s.faultMbx d = 0 → s.launch d.part d.launch = some l →
      l.normal + (l.trapped + 1) + l.discarded < l.born →
      u.launch d.part d.launch = some { l with
        commands := l.commands - s.me.queue.length, trapped := l.trapped + 1
        first := if l.first = 0 then s.firstTrap d s.me.pc x else l.first, integrity := l.integrity || x.cls == .integrity }))) ∧
  (∀ (s : State) (d : Descriptor) (core slot : Nat) (pc insn : Word) (x : Trap), d.launch < 2 ^ 32 →
    let r := s.report d core slot pc insn x
    let field (off m : Nat) : Nat := leNat ((r.drop off).take m)
    let objects := (s.partition d.part).objects
    let holds (o : Object) : Bool := o.asid == d.asid && o.base.toNat ≤ pc.toNat
      && pc.toNat < o.base.toNat + (o.words * 8 + 65535) / 65536 * 65536
    let names (h : Word) : Prop := field 8 8 = h.toNat ∧ field 16 4 = match objects.find h with
      | some o => (pc - o.base).toNat / 8 % 2 ^ 32
      | none => 0
    r.length = 48 ∧ field 0 4 = d.launch ∧ field 4 1 = x.cls.code ∧ field 5 1 = slot % 256 ∧
    field 6 2 = s.logicalCore d.part core % 2 ^ 16 ∧ (∀ e, objects.find? (fun e => holds e.2) = some e → names e.1) ∧
    ((∀ e ∈ objects, holds e.2 = false) → names d.object) ∧
    field 20 4 = x.detail.toNat ∧ field 24 8 = x.addr.toNat ∧ field 32 8 = x.value.toNat ∧
    field 40 8 = (if x.cls = .integrity then 0 else insn.toNat)) ∧
  (∀ (s : State) (c n : Nat) (task : Task), (s.hart (.slot c n)).task = some task →
    let id := HartId.slot c n
    let h := s.hart id
    let expires (w : Nat) : Prop :=
      let u := s.setHart id { h with insn := BitVec.ofNat 64 w }
      exec (.watchdogExpire c n) s = .next (u.trapAt id { cls := .watchdog }) ∧
        (s.mayLeave id = true → (u.trapAt id { cls := .watchdog }).hart id = {})
    (∀ y, h.verdict = some y → y.cls ≠ .watchdog → exec (.watchdogExpire c n) s = .next s) ∧
    (h.verdict = none → task.wdlimit ≤ h.wd → (∀ w, h.word = some w → expires w.1) ∧
      (h.word = none → h.regs.rep = none →
        (∀ e v, s.lookup id task.desc.asid h.pc.toNat = some (e, v) → expires (s.mem.nat (e.physical h.pc.toNat) 8)) ∧
        (s.lookup id task.desc.asid h.pc.toNat = none → expires 0))) ∧
    (h.wd < task.wdlimit → exec (.watchdogExpire c n) s = .next s)) ∧
  (∀ (s : State) (id : HartId) (h : Hart) (seq n : Nat) (ext : Word),
    let r := s.taskRecord id h seq ext
    let field (off m : Nat) : Nat := leNat ((r.drop off).take m)
    r.length = 3072 ∧ (∀ i : BitVec 5, field (8 * i.toNat) 8 = (h.regs.getS i).toNat ∧
      field (256 + 64 * i.toNat) 64 = (h.regs.getV i).toNat) ∧ (∀ i : BitVec 3, field (2304 + 2 * i.toNat) 2 = (h.regs.getK i).toNat) ∧
    field 2320 8 = h.regionpc.toNat ∧ field 2336 8 = h.vxfLo.toNat ∧ field 2344 8 = h.vxfHi.toNat ∧ field 2352 8 = h.tagdone.toNat ∧
    field 2368 8 = h.wd % 2 ^ 64 ∧ field 2744 8 = ext.toNat ∧ field 2752 8 = seq % 2 ^ 64 ∧ field 2808 264 = 0 ∧
    (State.recordExtension n h).length = 1024) ∧
  (∀ (s : State) (x : Trap), isSlot s.cur = false → s.me.task = none →
    let u := s.trap x
    let q := (s.hart (.sys (hartDie s.cur) 0)).inbox
    let msg := s.report {} (hartCore s.cur) (hartSlot s.cur) s.me.pc s.me.insn x
    u.me.running = false ∧ u.mem = s.mem ∧
    (q.length < 4096 → (u.hart (.sys (hartDie s.cur) 0)).inbox = q ++ [msg]) ∧
    (4096 ≤ q.length → (u.hart (.sys (hartDie s.cur) 0)).inbox = q ∧
      u.waiting = s.waiting ++ [.serviceMessageArrival (hartDie s.cur) 0 msg]))

/-! ### Milestone (03) -/

/-- R70 to R76: each Milestone instruction gives its Clearing the result its rule states and the next ip, on 64-bit words;
a read of the code outside its bytes, or of the scratch outside its 4 KiB or off a multiple of 8, and a word too many of
output, end the translation with their code and the instruction's ip. R70: it changes nothing outside its own Clearing.
Model's choice: log entry 65. -/
def Obligations.MilestoneRunsInItsClearing : Prop :=
  ∀ (f : FmtMs) (s : State) (c : Clearing), s.clearings.find s.clearing = some c →
    let a := c.get f.a
    let b := c.get f.b
    let imm : Word := f.imm.signExtend 64
    let ea := (a + imm).toNat
    let next (y : Clearing) : Out := .next { s with clearings := s.clearings.set s.clearing { y with ip := c.ip + 4 } }
    let result (x : Word) : Out := next (c.put f.d x)
    let branch (taken : Bool) : Out :=
      .next { s with clearings := s.clearings.set s.clearing { c with ip := if taken then c.ip + 4 + 4 * imm else c.ip + 4 } }
    let aborts (o : Out) (code : Nat) : Prop := c.waiting = [] → o = .next { s with
      answers := s.answers ++ [statusRecord c.units 0 code 0xFFFF c.ip.toNat], clearings := s.clearings.erase s.clearing }
    (∀ n : BitVec 4, ∀ x, (c.put f.d x).get n = if n = f.d then x else c.get n) ∧
    exec (.msLdi f) s = result imm ∧ exec (.msLdh f) s = result ((c.get f.d <<< 14) ||| f.imm.setWidth 64) ∧
    exec (.msMov f) s = result a ∧ exec (.msAdd f) s = result (a + b) ∧ exec (.msAddi f) s = result (a + imm) ∧
    exec (.msSub f) s = result (a - b) ∧ exec (.msAnd f) s = result (a &&& b) ∧ exec (.msOr f) s = result (a ||| b) ∧
    exec (.msXor f) s = result (a ^^^ b) ∧ exec (.msShl f) s = result (a <<< (b.toNat % 64)) ∧
    exec (.msShr f) s = result (a >>> (b.toNat % 64)) ∧
    (ea < c.code.length → exec (.msInb f) s = result (BitVec.ofNat 64 (c.code.getD ea 0).toNat)) ∧
    (c.code.length ≤ ea → aborts (exec (.msInb f) s) 0x12) ∧
    (ea + 4 ≤ c.code.length → exec (.msInw f) s = result (BitVec.ofNat 64 (leNat ((c.code.drop ea).take 4)))) ∧
    (c.code.length < ea + 4 → aborts (exec (.msInw f) s) 0x12) ∧
    (ea % 8 = 0 → ea + 8 ≤ 4096 → exec (.msLds f) s = result (BitVec.ofNat 64 (c.scratch.nat ea 8)) ∧
      exec (.msSts f) s = next { c with scratch := c.scratch.storeNat ea 8 b.toNat }) ∧
    (ea % 8 ≠ 0 ∨ 4096 < ea + 8 → aborts (exec (.msLds f) s) 0x12 ∧ aborts (exec (.msSts f) s) 0x12) ∧
    exec (.msBeq f) s = branch (if f.a = 0 ∧ f.b = 0 then c.missed else a == b) ∧ exec (.msBne f) s = branch (a != b) ∧
    exec (.msBlt f) s = branch (decide (a.toInt < b.toInt)) ∧ exec (.msJmp f) s = branch true ∧
    (let x := wayFind s.reducedService (s.partition c.part).features (a.toNat % 2 ^ 32)
     exec (.msWay f) s = next { c.put f.d (BitVec.ofNat 64 (x.getD 0)) with missed := x.isNone }) ∧
    (c.out.length < 524288 → exec (.msEmit f) s = next { c with out := a :: c.out }) ∧
    (524288 ≤ c.out.length → aborts (exec (.msEmit f) s) 0x13) ∧
    (∀ code detail, admission s.reducedService (c.out.reverse.map (·.toNat)) = some (code, detail) → c.waiting = [] →
      exec (.msHalt f) s = .next { s with
        answers := s.answers ++ [statusRecord c.units 0 code 0xFFFF detail], clearings := s.clearings.erase s.clearing }) ∧
    (admission s.reducedService (c.out.reverse.map (·.toNat)) = none → c.waiting = [] → ∃ t r, exec (.msHalt f) s = .next t ∧
      t.clearings = s.clearings.erase s.clearing ∧ t.answers = s.answers ++ [r] ∧
      (∀ p, p ≠ c.part → t.partition p = s.partition p) ∧ t.harts = s.harts ∧
      (∀ q, (t.partition c.part).cairn.find? (fun e => e.1 == c.key) = some q → q = (c.key, c.out.reverse)))


/-! ### What the units around the cores do (05, 06, 09, 15, 17) -/

/-- R96, R99, R100, R115, R116, R118, R119, R129, R222, R223, R297, R329, R340, R350, R357, R372, R400: the activities of the
units around the cores. A line that a slot waits for is cached; a store is routed under the low bit of `PHASE` and to the
stacks of its bytes, performed where they still are so once the die-cache banks on its way are active, which it wakes, and
returned to be routed again where not; the oldest miss outside a
queue takes a free entry, or joins the live entry of its key; a decrement takes 1 from its counter, once the banks on its way are active, and counts its task's end;
a launch whose count is final and whose commands are over completes; the head gang takes the row with the most free slots,
with one slot in each of its eight cores; the slot held first is pushed once the pending count is below the quota; a faulted
mailbox sends its message; banks go in and out of retention; histograms reach flash, in records of 128 bytes (R357), and an
event is a record of 16 (R356); a message joins a service queue. Model's choice: log entries 9 (oldest first), 29, 39, 44,
53, 67, 72 (the count of messages) and 78 (which lines a bank of a die cache holds). -/
def Obligations.UnitsDoTheirWork : Prop :=
  (∀ (s : State) (c n : Nat) (asid : Nat), s.asidOf (.slot c n) = asid → (s.hart (.slot c n)).task.isSome = true →
    (s.hart (.slot c n)).wait = some .fetch →
    let pc := (s.hart (.slot c n)).pc
    let lacks (va : Word) : Prop := (asid, va.toNat / 128) ∉ (s.core c).icache
    ∀ va, (lacks pc ∧ va = pc) ∨ (¬ lacks pc ∧ lacks (pc + 128) ∧ va = pc + 128) →
      ∃ t, exec (.instructionCacheFill (.slot c n)) s = .next t ∧ (asid, va.toNat / 128) ∈ (t.core c).icache ∧
        t.harts = s.harts ∧ t.mem = s.mem ∧ ∀ j, j ≠ c → t.core j = s.core j) ∧
  (∀ (s : State) (h : HartId) (st : Store) (rest : List Store), (s.hart h).stores = st :: rest →
    let way : Bool × List Nat := s.route st
    let left (u : State) (l : List Store) : State := u.setHart h { u.hart h with stores := l }
    (st.routed = none → exec (.storeDrain h) s = .next (left s ({ st with routed := some way } :: rest))) ∧
    (way.1 = (s.detour.phase.toNat % 2 == 1)) ∧ (st.cluster ≠ none → way.2 = []) ∧
    (∀ e ∈ st.bytes, st.cluster = none → s.stackOf e.1 ∈ way.2) ∧
    (let addrs := st.bytes.map (·.1) ++ st.half.map (·.1)
     let awake : Prop := st.cluster ≠ none ∨ ∀ a ∈ addrs, s.dieAwake a 1 = true
     st.routed = some way → s.blocked st = false →
      (awake → exec (.storeDrain h) s = .next (left (s.perform st) rest)) ∧
      (¬ awake → ∃ t, exec (.storeDrain h) s = .next t ∧ t.harts = s.harts ∧ t.mem = s.mem ∧
        ∀ a ∈ addrs, ∀ b ∈ s.dieBanks a 1, (s.banks.find b = some .retention → t.banks.find b = some .exiting) ∧
          ∀ w, s.banks.find b = some (.entering w) → t.banks.find b = some (.entering true))) ∧
    (s.blocked st = true → st.routed = some way → exec (.storeDrain h) s = .next s) ∧
    (∀ r, st.routed = some r → r ≠ way → exec (.storeDrain h) s = .next s ∧
      ∀ before after x, s.harts = before ++ (h, x) :: after → (∀ e ∈ before, e.1 ≠ h ∧ e.2.stores = []) →
        exec .requestReplay s = .next (left s ({ st with routed := none } :: rest)))) ∧
  (∀ (s : State) (k : Nat) (x : MissWait) (rest : List MissWait), (s.cluster k).overflow = x :: rest →
    let c := s.cluster k
    let covered (l : List TlbEntry) : Bool := l.any (·.covers x.asid (x.page * 65536))
    let here : Bool := covered c.tlb || covered c.victims || covered (s.die (k / 26)).tlb
    (here = true → exec (.missQueueAdmit k) s = .next (s.setCluster k { c with overflow := rest })) ∧
    (here = false →
      (∀ before after e, c.misses = before ++ e :: after → e.asid = x.asid → e.page = x.page →
        (∀ y ∈ before, y.asid ≠ x.asid ∨ y.page ≠ x.page) → (∀ y ∈ before ++ after, y.seq ≠ e.seq) → x.who ∉ e.stalled →
        ∃ t, exec (.missQueueAdmit k) s = .next t ∧
          (let y := { e with stalled := e.stalled ++ [x.who] }
           (t.cluster k).misses = if e.restored = true then before ++ after ++ [y.numbered c.nextSeq] else before ++ y :: after) ∧
          (t.cluster k).overflow = rest.filter fun y => y.who ≠ x.who) ∧
      ((∀ y ∈ c.misses, y.asid ≠ x.asid ∨ y.page ≠ x.page) →
        (256 ≤ c.live → exec (.missQueueAdmit k) s = .next s) ∧
        (c.live < 256 → ∃ t e, exec (.missQueueAdmit k) s = .next t ∧ (t.cluster k).misses = c.misses ++ [e] ∧
          (e.seq, e.asid, e.page, e.parked, e.taken, e.stalled) = (c.nextSeq, x.asid, x.page, false, false, [x.who]) ∧
          e.image = x.image ||| BitVec.ofNat 256 (c.nextSeq * 2 ^ 160))))) ∧
  (∀ (s : State) (p : Nat) (d : Decrement) (e : TlbEntry) (l : Launch), s.memoryOk = true → (s.partition p).decrements = [d] →
    s.launch p d.desc.launch = some l → d.desc.part = p →
    (s.cluster d.cluster).tlb.find? (·.covers d.desc.asid d.desc.counter.toNat) = some e → s.upsets = [] →
    let pa := e.physical d.desc.counter.toNat
    let may : Bool := canonical d.desc.counter && e.r && e.w && s.reaches (.tsc d.cluster) pa
    let counted (t : State) (kind : EndKind) (first : Word) : Prop := (t.partition p).decrements = [] ∧
      (l.normal + l.trapped + l.discarded + 1 < l.born → t.launch p d.desc.launch = some (match kind with
        | .normal => { l with normal := l.normal + 1 }
        | .trapped => { l with trapped := l.trapped + 1, first := if l.first = 0 then first else l.first,
                               integrity := l.integrity || d.integrity }
        | .discarded => { l with discarded := l.discarded + 1, integrity := l.integrity || d.integrity }))
    (may = true → s.dieAwake (pa / 128 * 128) 128 = false → ∃ t, exec (.counterDecrementPerform p) s = .next t ∧
      t.partitions = s.partitions ∧ t.mem = s.mem ∧ ∀ b ∈ s.dieBanks (pa / 128 * 128) 128,
        s.banks.find b = some .retention → t.banks.find b = some .exiting) ∧
    (may = true → s.dieAwake (pa / 128 * 128) 128 = true → s.mem.bad (pa / 128 * 128) 128 = false → s.keyed e.key (pa / 128 * 128) 128 = true →
        ∃ t, exec (.counterDecrementPerform p) s = .next t ∧
      t.mem.nat pa 8 = (s.mem.nat pa 8 + (2 ^ 64 - 1)) % 2 ^ 64 ∧
      (∀ a, a < pa ∨ pa + 8 ≤ a → t.mem.byte a = s.mem.byte a) ∧ counted t d.kind d.first) ∧
    (may = false → l.faultMbx = 0 → ∃ t, exec (.counterDecrementPerform p) s = .next t ∧ t.mem = s.mem ∧
      (d.kind = .normal → counted t .trapped (s.firstTrap d.desc d.pc { cls := .protection })) ∧
      (d.kind ≠ .normal → counted t d.kind d.first))) ∧
  (∀ (s u : State) (p i : Nat) (l : Launch), s.launch p i = some l →
    let final : Prop := l.normal + l.trapped + l.discarded = l.born ∧ l.commands = 0 ∧ l.away = false
    let body := leBytes 4 l.id ++ [if l.integrity then 2 else if l.trapped ≠ 0 then 1 else 0, 0, 0, 0] ++ leBytes 8 l.normal
      ++ leBytes 8 l.trapped ++ leBytes 8 l.discarded ++ leBytes 8 l.origin.toNat ++ leBytes 8 l.first.toNat
    let retry := exec (.launchCompletionRetry p i) s
    let ended (v : State) : State := v.setPartition p { v.partition p with launches := (v.partition p).launches.erase i }
    (¬ final → retry = .next s) ∧ (final → l.doneMbx = 0 → retry = .next (ended s)) ∧
    (final → l.doneMbx ≠ 0 → (s.deliver p l.doneMbx body = (u, 0) → retry = .next (ended u)) ∧
      (s.deliver p l.doneMbx body = (u, 1) → retry = .next (u.modLaunch p i fun x => { x with away := false })) ∧
      (s.deliver p l.doneMbx body = (u, 5) → retry = .next (u.modLaunch p i fun x => { x with away := true })) ∧
      ∀ n, 2 ≤ n → n ≠ 5 → s.deliver p l.doneMbx body = (u, n) → retry = .next ((ended u).drop p))) ∧
  (∀ (s : State) (k : Nat) (g : GangWait) (rest : List GangWait), (s.cluster k).gangs = g :: rest → g.members.length = 8 →
    let freeIn (c : Nat) : List Nat := [0, 1, 2].filter fun n => (s.hart (.slot c n)).task.isNone
    let core (r m : Nat) : Nat := k * 32 + 8 * r + m
    let fits (r : Nat) : Prop := r < 4 ∧ ∀ m < 8, (s.core (core r m)).quarantined = false ∧ freeIn (core r m) ≠ []
    let count (r : Nat) : Nat := ((List.range 8).map fun m => (freeIn (core r m)).length).sum
    let q := s.partition (s.cluster k).owner
    ((∀ r, ¬ fits r) → exec (.gangPlace k) s = .next s) ∧
    (∀ r, fits r → (∀ r', fits r' → count r' < count r ∨ (count r' = count r ∧ r ≤ r')) → q.preempt = .running →
      ((∀ d ∈ g.members, s.startable d = true) → ∃ t, exec (.gangPlace k) s = .next t ∧ (t.cluster k).gangs = rest ∧
        (∃ y, t.gangs.find s.nextId = some y ∧ (y.cluster, y.row, y.limit, y.broken, y.ended, y.arrived) = (k, r, q.gangwait, false, [], []) ∧
          y.slots = (List.range 8).map fun m => (core r m, (freeIn (core r m)).headD 0)) ∧
        (∀ m d, g.members[m]? = some d → ∃ x y, t.hart (.slot (core r m) ((freeIn (core r m)).headD 0)) = x ∧ x.pc = d.entry ∧
          x.boundary = true ∧ x.task = some y ∧ y.desc = d ∧ y.gang = some s.nextId ∧
          ∀ i : BitVec 5, x.regs.getS i = if 1 ≤ i.toNat ∧ i.toNat ≤ 8 then d.payload.toList.getD (i.toNat - 1) 0 else 0) ∧
        ∀ h, (∀ m < 8, h ≠ .slot (core r m) ((freeIn (core r m)).headD 0)) → t.hart h = s.hart h) ∧
      ((∃ d ∈ g.members, s.startable d = false) → ∃ t, exec (.gangPlace k) s = .next t ∧ (t.cluster k).gangs = rest ∧
        t.harts = s.harts))) ∧
  (∀ (s : State) (p i : Nat) (rest : List Nat) (b : List Byte), (s.partition p).heldOrder = i :: rest →
    let q := s.partition p
    let m := s.mailbox p i
    let after := { m with state := .armed, latched := none }.next
    (q.quota ≤ s.pending p → q.preempt = .running → exec (.heldSlotPush p) s = .next s) ∧
    (q.preempt ≠ .running → q.preempt ≠ .restoring → exec (.heldSlotPush p) s = .next s) ∧
    (q.preempt = .restoring → s.remaindersLeft p = true ∨ (∃ k ∈ q.slice, 256 < (s.cluster k).misses.length) → exec (.heldSlotPush p) s = .next s) ∧
    (s.pending p < q.quota → q.preempt = .running → m.latched = some b → after.valid = false →
      after.announced.contains after.slot = false → (s.core m.home).quarantined = false → (s.core m.home).dequeU.length < 64 →
      (s.core m.home).dequeN.length < 64 → ∃ t d l, exec (.heldSlotPush p) s = .next t ∧ t.mailbox p i = after ∧
        after.expect = (if m.expect = 0xFFFFFFFF then 1 else m.expect + 1) ∧ after.slot = (m.slot + 1) % 2 ^ m.logDepth ∧
        (t.partition p).heldOrder = rest ∧
        (m.urgent = false → (t.core m.home).dequeN = (s.core m.home).dequeN ++ [.desc d]) ∧
        (m.urgent = true → (t.core m.home).dequeU = (s.core m.home).dequeU ++ [.desc d]) ∧
        (d.entry, d.object, d.asid, d.glade, d.kind, d.counter, d.part) = (m.entry, m.object, m.asid, m.glade, 0, 0, p) ∧
        (∀ j : Fin 8, d.payload[j] = BitVec.ofNat 64 (leNat ((b.drop (8 * j.val)).take 8))) ∧
        t.launch p d.launch = some l ∧ (l.born, l.normal, l.trapped, l.discarded, l.commands) = (1, 0, 0, 0, 0) ∧
        (l.doneMbx, l.faultMbx) = (m.doneMbx, m.faultMbx) ∧
        l.origin = BitVec.ofNat 64 (s.node * 2 ^ 48 + m.gen * 2 ^ 32 + i))) ∧
  (∀ (s : State) (p i : Nat),
    let m := s.mailbox p i
    let u := s.setMailbox p i { m with owes := false }
    let body := leBytes 8 (s.node * 2 ^ 48 + m.gen * 2 ^ 32 + i) ++ leBytes 4 m.expect ++ m.bytes.bytes (64 * m.slot + 56) 8
      ++ List.replicate 36 0
    (m.state = .faulted → m.owes = true → s.node * 2 ^ 48 + m.gen * 2 ^ 32 + i < 2 ^ 64 →
      (m.faultMbx = 0 → exec (.mailboxFault p i) s = .next u) ∧
      (m.faultMbx ≠ 0 → (∀ v, u.deliver p m.faultMbx body = (v, 0) ∨ u.deliver p m.faultMbx body = (v, 5) →
          exec (.mailboxFault p i) s = .next v) ∧
        ∀ v n, n ≠ 0 → n ≠ 5 → u.deliver p m.faultMbx body = (v, n) → exec (.mailboxFault p i) s = .next (v.drop p))) ∧
    (m.state ≠ .faulted ∨ m.owes = false → exec (.mailboxFault p i) s = .next s)) ∧
  (∀ (s : State) (b : Bank),
    let at' := s.banks.find b
    let puts (o : Out) (x : BankState) : Prop := o = .next { s with banks := s.banks.set b x }
    let idle : Prop := s.bankUse.get b 0 + 65536 ≤ s.clock ∧
      ∀ e ∈ s.lineUse, b ∈ s.dieBanks (e.1 * 128) 1 → e.2 + 65536 ≤ s.clock
    (∀ pa n a, pa ≤ a → a < pa + n → (s.touchDie pa n).lineUse.find (a / 128) = some s.clock) ∧
    (at' = none ∨ at' = some .active → (idle → puts (exec (.retentionEnter b) s) (.entering false)) ∧
      (¬ idle → exec (.retentionEnter b) s = .next s)) ∧
    (∀ w, at' = some (.entering w) → puts (exec (.retentionEntryDone b) s) (if w then .exiting else .retention)) ∧
    (at' = some .exiting → exec (.retentionExitDone b [] []) s =
      .next { s with banks := s.banks.erase b, bankUse := s.bankUse.set b s.clock }) ∧
    (∀ w n lasting, at' = some .exiting → ∃ t, exec (.retentionExitDone b [(w, n, lasting)] []) s = .next t ∧
      t.die (bankDie b) = (s.die (bankDie b)).corrected (bankRow b w) (min n 2) lasting ∧ t.mem = s.mem) ∧
    (∀ c sp i w, b = .typed c sp i → 2 ≤ sp.toNat → sp.toNat ≤ 5 → w < 8192 → at' = some .exiting →
      ∃ t, exec (.retentionExitDone b [] [w]) s = .next t ∧ t.banks = s.banks.erase b ∧
        (∀ a, ((t.core c).buffer sp).byte a = ((s.core c).buffer sp).byte a) ∧
        ((t.core c).buffer sp).poisoned (65536 * i + 8 * w) = true ∧ t.mem = s.mem)) ∧
  (∀ (s : State) (d : Nat),
    let x := s.die d
    (x.flushedAt + 2 ^ 30 ≤ s.clock →
      exec (.histogramFlush d) s = .next (s.setDie d { x with flash := x.counters, flushedAt := s.clock })) ∧
    (s.clock < x.flushedAt + 2 ^ 30 → exec (.histogramFlush d) s = .next s) ∧
    (∃ t, exec .orderlyShutdown s = .next t ∧ (t.die d).flash = x.counters) ∧
    (∀ c, (x.histogram c).length = 128 ∧ ∀ i < 24, leNat (((x.histogram c).drop (4 * i)).take 4) = x.flash.get (c, i) 0 % 2 ^ 32) ∧
    ∀ e : LogEvent, e.record.length = 16 ∧ leNat (e.record.take 4) = e.row.toNat ∧ leNat (e.record.drop 8) = e.seq % 2 ^ 64) ∧
  (∀ (s : State) (d n : Nat) (msg : List Byte),
    let h := s.hart (.sys d n)
    (h.inbox.length < 4096 → exec (.serviceMessageArrival d n msg) s = .next (State.setHart
      { s with messages := if n = 0 then s.messages else s.messages + 1 } (.sys d n) { h with inbox := h.inbox ++ [msg] })) ∧
    (4096 ≤ h.inbox.length → exec (.serviceMessageArrival d n msg) s =
      .next { s with waiting := s.waiting ++ [.serviceMessageArrival d n msg] }))


/-! ### Loading objects (03) -/

/-- R58, R60, R61, R64, R65, R72, R78, R79, R80, R82, R83, R84, R85: a load goes through its checks in their order, and each
failure has its code and DETAIL; a native image that matches is installed with ROUTE 1, an image of the Cairn cache with
ROUTE 2, and otherwise a Clearing starts on the pathfinder with its budget, m1 the length of the code, and everything else
zero. A load that waits takes the outcome of the translation. A native page that hashes and is admitted is mapped to
execute, and any other revokes its object. An object that is unloaded leaves no mailbox, mapping or page behind. Model's
choice: log entries 1 (the TSC of the first cluster), 14, 35, 39 (pages in the order of framesLeft), 66, 75 and 90. -/
def Obligations.LoadsGoThroughTheirChecks : Prop :=
  (∀ (p : Nat) (o : List Byte) (base : Word) (s : State), s.partitions.find p ≠ none →
    let q := s.partition p
    let record (units route code image detail : Nat) : List Byte :=
      leBytes 8 (units % 2 ^ 32 * 2 ^ 32 + route * 2 ^ 16 + code) ++ leBytes 8 (image * 2 ^ 32 + detail % 2 ^ 32)
    let answers (code detail : Nat) : Prop :=
      exec (.loadRequest p o base) s = .next { s with answers := s.answers ++ [record 0 0 code 0xFFFF detail] }
    let signer := q.keyStore.get (fileNat o (fileNat o 32 8) 4) .empty
    let pages (x : Section) : Nat := (x.length + 65535) / 65536
    let datas := (((sectionsOf o).filter fun x => x.ty == 4).map pages).sum
    let wellFormed : Prop := formatFaults o = []
    let hashed : Prop := wellFormed ∧ signedBy o signer = true ∧ firstBadPage o = none
    (fileNat o 0 4 ≠ 0x4B57434F → answers 1 0) ∧
    (∀ d, d ∈ formatFaults o → (∀ e ∈ formatFaults o, d ≤ e) → answers 1 d) ∧
    (wellFormed → signedBy o signer = false → answers 2 0) ∧
    (∀ i, wellFormed → signedBy o signer = true → firstBadPage o = some i → answers 3 i) ∧
    (hashed → chooseNative s p o = none → (∀ x ∈ sectionsOf o, x.ty ≠ 2) → answers 4 0) ∧
    (∀ x, hashed → chooseNative s p o = some x →
      x ∈ sectionsOf o ∧ x.ty = 3 ∧ (∀ k ∈ x.manifest o, (wayFind s.reducedService q.features k).isSome = true) ∧
      (let words := x.length / 8
       let need := (words * 8 + 65535) / 65536 + datas
       let left := q.framesLeft.length - State.cairnPages q
       (x.bytes o).length = x.length → x.length % 8 = 0 →
         (left < need → exec (.loadRequest p o base) s =
           .next { s with answers := s.answers ++ [record 0 0 6 x.index (need - left)] }) ∧
         (need ≤ left → ∃ t y, exec (.loadRequest p o base) s = .next t ∧
           t.answers = s.answers ++ [record 0 1 0 x.index words] ∧
           (t.partition p).objects.find (BitVec.ofNat 64 q.nextObject) = some y ∧
           (y.base, y.words, y.native, y.passed, y.revoked) = ((base &&& ~~~0xFFFF) + BitVec.ofNat 64 x.place, words, true, [], false) ∧
           (t.partition p).framesLeft = q.framesLeft.drop need ∧ y.frames = q.framesLeft.take need))) ∧
    (∀ pf pv, hashed → chooseNative s p o = none → (sectionsOf o).find? (·.ty == 2) = some pf →
      (sectionsOf o).find? (·.ty == 1) = some pv →
      (∀ k rest, (pf.manifest o).filter (fun k => (wayFind s.reducedService q.features k).isNone) = k :: rest → answers 5 k) ∧
      ((∀ k ∈ pf.manifest o, (wayFind s.reducedService q.features k).isSome = true) →
        let key := sha384 (leBytes 8 (pf.bytes o).length ++ pf.bytes o ++ leBytes 8 (pv.bytes o).length ++ pv.bytes o
          ++ wayDigest s.reducedService ++ leBytes 32 q.features.toNat)
        (∀ e, q.cairn.find? (·.1 == key) = some e → (e.2.length * 8 + 65535) / 65536 + datas ≤ q.framesLeft.length - State.cairnPages q →
          ∃ t, exec (.loadRequest p o base) s = .next t ∧ t.answers = s.answers ++ [record 0 2 0 0xFFFF e.2.length] ∧
            (t.partition p).cairn.head? = some e) ∧
        (q.cairn.find? (·.1 == key) = none → (∀ e ∈ s.clearings, e.2.key ≠ key) →
          ∃ t k c, exec (.loadRequest p o base) s = .next t ∧ s.clearings.find k = none ∧ t.clearings = s.clearings.set k c ∧
            t.answers = s.answers ∧ c.running = true ∧ c.tsc = q.slice.head? ∧ c.pathfinder = pf.bytes o ∧ c.code = pv.bytes o ∧
                c.part = p ∧
            c.units = 0 ∧ c.ip = 0 ∧ c.missed = false ∧ c.out = [] ∧ c.scratch = {} ∧
            (∀ n, c.get n = if n = 1 then BitVec.ofNat 64 (pv.bytes o).length else 0) ∧
            c.budget = (let cap := min q.budgetCap (2 ^ 26)
                        let asked := fileNat o 12 4
                        if asked = 0 then cap else min asked cap))))) ∧
  (∀ (s : State) (k : Nat) (c : Clearing), s.clearings.find k = some c → c.waiting = [] →
    (c.running = true → c.budget ≤ c.units → exec (.budgetExhausted k) s = .next { s with
      clearing := k, clearings := s.clearings.erase k, answers := s.answers ++ [statusRecord c.units 0 0x11 0xFFFF c.ip.toNat] }) ∧
    (c.units < c.budget → exec (.budgetExhausted k) s = .next s)) ∧
  (∀ (s : State) (p k i : Nat) (c : Clearing) (code detail : Nat) (file : List Byte) (base : Word), s.clearings = [(k, c)] →
    c.part = p → c.outcome = some (code, detail) → c.waiting[i]? = some (file, base) →
    let left := c.waiting.eraseIdx i
    let clearings : Table Nat Clearing := if left = [] then [] else [(k, { c with waiting := left })]
    (code ≠ 0 → exec (.cairnWaitResolve p i) s =
      .next { s with clearings, answers := s.answers ++ [statusRecord 0 0 code 0xFFFF detail] }) ∧
    (code = 0 → ∃ t r, exec (.cairnWaitResolve p i) s = .next t ∧ t.clearings = clearings ∧ t.answers = s.answers ++ [r] ∧
      (r = statusRecord 0 2 0 0xFFFF c.out.length ∨ ∃ n, 0 < n ∧ r = statusRecord 0 0 6 0xFFFF n))) ∧
  (∀ (s : State) (p page : Nat) (obj : Word) (o : Object), s.memoryOk = true → (s.partition p).objects.find obj = some o →
    let q := s.partition p
    let f := o.frames.getD page 0
    let good : Bool := o.digests.getD page [] == pageHash o.image page && admitsPage s.reducedService (wordsOf o.image) page
    (o.revoked = true ∨ o.hashing ≠ some page ∨ s.recordsWork p obj = true → exec (.pageHashCheck p obj page) s = .next s) ∧
    (o.revoked = false → o.hashing = some page → good = true →
      (∀ e ∈ s.clusters, ∀ x ∈ e.2.misses, ∀ r ∈ x.records, r.1.working s.now = false) → ∃ t, exec (.pageHashCheck p obj page) s = .next t ∧
      (t.partition p).objects.find obj = some { o with hashing := none, passed := insertRising o.passed page } ∧
      (∀ j, j < 65536 → t.mem.byte (f * 65536 + j) = o.image.getD (65536 * page + j) 0) ∧
      (∀ a, a < f * 65536 ∨ f * 65536 + 65536 ≤ a → t.mem.byte a = s.mem.byte a) ∧
      ∀ k ∈ q.slice, pageEntry (q.asids.headD 0) (q.keys.headD 0) ((o.base.toNat + 65536 * page) % 2 ^ 64) f false false true
        (Config.signaturePolicy p) ∈ (t.die (k / 26)).tlb) ∧
    (o.revoked = false → o.hashing = some page → good = false →
      (∀ e ∈ s.clusters, ∀ x ∈ e.2.misses, ∀ r ∈ x.records, r.1.working s.now = false) → ∃ t, exec (.pageHashCheck p obj page) s = .next t ∧
      (∃ y, (t.partition p).objects.find obj = some y ∧ y.revoked = true) ∧
      ((∀ e ∈ s.clusters, ∀ x ∈ e.2.misses, x.records = []) → t.mem = s.mem) ∧
      ∀ i m, (s.partition p).mailboxes.find i = some m → m.state ≠ .unbound → m.object = obj → t.mailbox p i = { gen := m.gen })) ∧
  (∀ (s : State) (c : Nat) (obj : Word),
    ((∃ e ∈ s.partitions, ∃ o, e.2.objects.find obj = some o ∧ o.revoked = true) →
      ∃ t, exec (.revocationNotice c obj) s = .next t ∧ obj ∈ (t.core c).notices ∧ ∀ j, j ≠ c → t.core j = s.core j) ∧
    ((∀ e ∈ s.partitions, ∀ o, e.2.objects.find obj = some o → o.revoked = false) →
      exec (.revocationNotice c obj) s = .next s)) ∧
  (∀ (s : State) (p : Nat) (obj : Word) (o : Object), (s.partition p).objects.find obj = some o →
    ∃ t, exec (.imageUnload p obj) s = .next t ∧ (t.partition p).objects.find obj = none ∧
      (∀ h, h ≠ obj → (t.partition p).objects.find h = (s.partition p).objects.find h) ∧
      (t.partition p).framesLeft = (s.partition p).framesLeft ++ o.frames ∧
      (∀ i m, (s.partition p).mailboxes.find i = some m → m.state ≠ .unbound → m.object = obj → t.mailbox p i = { gen := m.gen }) ∧
      (let gone (e : TlbEntry) : Prop := e.asid = o.asid ∧ e.pfn ∈ o.frames
       (∀ j, ∀ e ∈ (t.core j).tlb, ¬ gone e) ∧ (∀ j, ∀ e ∈ (t.cluster j).tlb ++ (t.cluster j).victims, ¬ gone e) ∧
       ∀ j, ∀ e ∈ (t.die j).tlb, ¬ gone e))

/-! ### What arrives from outside (05, 10, 19) -/

/-- R95 to R99, R102, R103: through a queue pair other than 0 a host reads and writes its pages as the endpoint's TLB maps
them, a mailbox's slots, status and doorbell; anything else is refused, a write to a unit being moved waits (R371), and on an
ordered pair what comes after waits behind it. A stamp that validates the slot of E becomes a task, or is
held at the quota; the doorbell announces. R260, R262, R120, R351, R374: a Turnpike payload, which may be poisoned, a signal,
a message or an answer takes its effect, and a write waits behind those that wait; a payload and a signal are acknowledged, or, at or
above the limit, refused with 5, with which their command fails (R373). R350: what finds a bank of a die cache asleep waits. R402, R403, R404: a port engine consumes
a descriptor, of the block that the medium serves: it moves the data, writes the completion, and only then advances CONS and
CPROD; FLAGS asks for an interrupt. Each of the five port forms completes so. Model's choice: log entries 20, 37, 39, 42, 44,
53, 77 and 78. -/
def Obligations.HostsPortsAndPackagesActOnMemory : Prop :=
  (∀ (s : State) (p qp k : Nat) (x : QueuePair) (va : Word) (e : Nat → TlbEntry), qp ≠ 0 → (s.partition p).qps.find qp = some x →
    (s.partition p).slice.head? = some k → s.behind p qp = false →
    let place (i : Nat) : Nat := (e i).physical (va + BitVec.ofNat 64 i).toNat
    let mapped (n : Nat) (may : TlbEntry → Bool) : Prop := ∀ i < n, (s.die (k / 26)).tlb.find? (fun y =>
      canonical (va + BitVec.ofNat 64 i) && y.covers x.asid (va + BitVec.ofNat 64 i).toNat && may y
        && y.physical (va + BitVec.ofNat 64 i).toNat < s.limit && !s.foreign p (y.physical (va + BitVec.ofNat 64 i).toNat)) = some (e i)
    let keyed (n : Nat) : Prop := ∀ i < n, s.keyed (e i).key (place i) 1 = true ∧ s.dieAwake (place i) 1 = true
    let answers (n : Nat) (b : List Byte) : Out :=
      let u := s.touchedAt ((List.range n).map place) 1
      .next { u with answers := u.answers ++ [b] }
    let waits (o : Out) (i : Instr) (n : Nat) : Prop := ∃ t, o = .next t ∧ t = { s with waiting := s.waiting ++ [i], banks := t.banks } ∧
      ∀ j < n, ∀ b ∈ s.dieBanks (place j) 1, s.banks.find b = some .retention → t.banks.find b = some .exiting
    (∀ n, mapped n TlbEntry.r → s.upsets = [] → keyed n →
      ((∀ i < n, s.mem.poisoned (place i) = false) →
        exec (.hostWindowRead p qp va n) s = answers n (0 :: (List.range n).map fun i => s.mem.byte (place i))) ∧
      ((∃ i < n, s.mem.poisoned (place i) = true) → exec (.hostWindowRead p qp va n) s = answers n [1])) ∧
    (∀ n, mapped n TlbEntry.r → (∃ i < n, s.dieAwake (place i) 1 = false) →
      waits (exec (.hostWindowRead p qp va n) s) (.hostWindowRead p qp va n) n) ∧
    (∀ b : List Byte, mapped b.length TlbEntry.w →
      ((∀ i < b.length, s.movingUnit (place i) = false) → s.upsets = [] → keyed b.length →
        exec (.hostWindowWrite p qp va b) s = .next { s.touchedAt ((List.range b.length).map place) 1 with
          mem := s.mem.store (((List.range b.length).map place).zip b), answers := s.answers ++ [[0]] }) ∧
      ((∃ i < b.length, s.movingUnit (place i) = true ∨ s.dieAwake (place i) 1 = false) →
        waits (exec (.hostWindowWrite p qp va b) s) (.hostWindowWrite p qp va b) b.length)) ∧
    (∀ n i, i < n → (∀ y ∈ (s.die (k / 26)).tlb, y.covers x.asid (va + BitVec.ofNat 64 i).toNat = true → y.r = false) →
      exec (.hostWindowRead p qp va n) s = .next { s with answers := s.answers ++ [[1]] })) ∧
  (∀ (s : State) (p qp : Nat) (va : Word) (n i off : Nat) (b : List Byte), s.behind p qp = true →
    let waits (x : Instr) : Prop := exec x s = .next { s with waiting := s.waiting ++ [x] }
    waits (.hostWindowRead p qp va n) ∧ waits (.hostWindowWrite p qp va b) ∧ waits (.mailboxSlotWrite p qp i off b) ∧
    waits (.mailboxSlotRead p qp i off n) ∧ waits (.doorbellWrite p qp i off b)) ∧
  (∀ (s : State) (p : Nat) (va : Word) (n : Nat) (b : List Byte), s.behind p 0 = false →
    let refused : Out := .next { s with answers := s.answers ++ [[1]] }
    exec (.hostWindowRead p 0 va n) s = refused ∧ exec (.hostWindowWrite p 0 va b) s = refused ∧
    ∀ i off, exec (.mailboxSlotWrite p 0 i off b) s = refused ∧ exec (.mailboxSlotRead p 0 i off n) s = refused ∧
      exec (.doorbellWrite p 0 i off b) s = refused) ∧
  (∀ (s : State) (p qp i off : Nat), qp ≠ 0 → (s.partition p).qps.find qp ≠ none → (s.partition p).slice ≠ [] → i < 4096 →
    s.behind p qp = false →
    let q := s.partition p
    let m := s.mailbox p i
    let depth := 2 ^ m.logDepth
    let code := match m.state with | .unbound => 0 | .armed => 1 | .held => 2 | .faulted => 3
    let status := m.expect + m.fails * 2 ^ 32 + m.slot * 2 ^ 40 + code * 2 ^ 48
    let done (u : State) : Out := .next { u with answers := u.answers ++ [[0]] }
    (∀ n, off + n ≤ 64 * depth + 64 → exec (.mailboxSlotRead p qp i off n) s = .next { s with
      answers := s.answers ++ [0 :: (List.range n).map fun j => if off + j < 64 * depth then m.bytes.byte (off + j)
        else if off + j < 64 * depth + 8 then BitVec.ofNat 8 (status / 2 ^ (8 * (off + j - 64 * depth))) else 0] }) ∧
    (∀ b : List Byte, off + b.length ≤ 64 * depth + 64 →
      let w : State → Out := exec (.mailboxSlotWrite p qp i off b)
      (exec (.doorbellWrite p qp i off b) s = w s) ∧
      (m.state = .unbound ∨ m.state = .faulted ∨ m.messageFed = true → w s = done s) ∧
      (m.state = .armed → m.messageFed = false → off + b.length ≤ 64 * depth →
        let m1 := { m with bytes := m.bytes.store (bytesAt off b) }
        let after := m1.next
        let stamp : Prop := b ≠ [] ∧ off < 64 * m.slot + 64 ∧ 64 * m.slot + 56 < off + b.length
        (¬ stamp → m.slot ∉ m.announced → w s = done (s.setMailbox p i m1)) ∧
        (stamp → m.slot < depth → m1.valid = false → m.slot ∉ m.announced → q.preempt = .running → w s = done (s.setMailbox p i m1)) ∧
        (stamp → m.slot < depth → m1.valid = false → m.slot ∈ m.announced → q.preempt = .running → w s = done (s.setMailbox p i
          (if 63 ≤ m.fails then { m1 with fails := 64, state := .faulted, owes := true } else { m1 with fails := m.fails + 1 }))) ∧
        (stamp → m.slot < depth → m1.valid = true → q.preempt = .running →
          (q.quota ≤ s.pending p → ∃ t, w s = .next t ∧ (t.partition p).heldOrder = q.heldOrder ++ [i] ∧
            t.mailbox p i = { m1 with state := .held, latched := some (m1.bytes.bytes (64 * m.slot) 64) }) ∧
          (s.pending p < q.quota → after.valid = false → after.slot ∉ after.announced → (s.core m.home).quarantined = false →
            m.urgent = false → (s.core m.home).dequeN.length < 64 → ∃ t d, w s = .next t ∧ t.mailbox p i = after ∧
              (t.core m.home).dequeN = (s.core m.home).dequeN ++ [.desc d] ∧
              (d.entry, d.object, d.asid, d.glade, d.part) = (m.entry, m.object, m.asid, m.glade, p) ∧
              ∀ j : Fin 8, d.payload[j] = BitVec.ofNat 64 (m1.bytes.nat (64 * m.slot + 8 * j.val) 8)))) ∧
      (m.state = .armed → m.messageFed = false → off = 64 * depth + 8 → b.length = 8 → q.preempt = .running →
        let v := leNat b
        (2 ^ 32 ≤ v ∨ v = 0 → m.expect ≠ 0 → m.expect < 2 ^ 32 → w s = done (s.setMailbox p i m)) ∧
        (v = m.expect → m.expect < 2 ^ 32 → m.valid = false → m.slot ∉ m.announced → ∃ t, w s = .next t ∧
          (t.mailbox p i).announced = m.announced ++ [m.slot] ∧ (t.mailbox p i).state = .armed) ∧
        (∀ n, 0 < n → n < depth → 1 ≤ m.expect → m.expect < 2 ^ 32 → v = (m.expect - 1 + n) % (2 ^ 32 - 1) + 1 → n < 2 ^ 32 - 1 →
          ∃ t, w s = .next t ∧ (m.slot + n) % depth ∈ (t.mailbox p i).announced))) ∧
    (∀ b : List Byte, 64 * depth + 64 < off + b.length →
      exec (.mailboxSlotWrite p qp i off b) s = .next { s with answers := s.answers ++ [[1]] })) ∧
  (∀ (s u : State) (pa p n l : Nat) (b : List Byte) (handle : Word) (h : HartId),
    let run (x : Packet) : Out := exec (.turnpikeArrival x) s
    let waits (x : Packet) : Prop := run x = .next { s with waiting := s.waiting ++ [.turnpikeArrival x] }
    let moves (n : Nat) : Prop := ∃ i < n, s.movingUnit (pa + i) = true
    let acknowledged (v : State) : Out := .next { v with answers := v.answers ++ [[0]] }
    let touched (n : Nat) : State := s.touchedAt ((List.range n).map (pa + ·)) 1
    (s.turnpikeBusy = true → waits (.flit pa b) ∧ waits (.poisoned pa b) ∧ waits (.signal pa true) ∧ waits (.signal pa false) ∧
      waits (.message p handle b)) ∧
    (s.turnpikeBusy = false →
      ((∀ i < max 8 b.length, s.dieAwake (pa + i) 1 = true) → s.upsets = [] →
        (pa + b.length ≤ s.limit → ¬ moves b.length → run (.flit pa b) = acknowledged { touched b.length with mem := s.mem.storeBytes pa b } ∧
          ∃ t, run (.poisoned pa b) = acknowledged t ∧ ∀ i < b.length, t.mem.poisoned (pa + i) = true) ∧
        (pa + 8 ≤ s.limit →
          (s.mem.bad pa 8 = false → run (.signal pa true) =
            acknowledged ((s.touchDie pa 8).atomicWrite (bytesAt pa (leBytes 8 (s.mem.nat pa 8 + 1))))) ∧
          (s.mem.bad pa 8 = true → pa % 8 = 0 →
            ∃ t, run (.signal pa true) = acknowledged t ∧ t.mem.nat pa 8 = (s.mem.nat pa 8 + 1) % 2 ^ 64 ∧ t.mem.poisoned pa = true) ∧
          (¬ moves 8 → run (.signal pa false) = acknowledged { touched 8 with mem := s.mem.storeNat pa 8 1 })) ∧
        (pa + b.length ≤ s.limit → moves b.length → waits (.flit pa b) ∧ waits (.poisoned pa b)) ∧
        (pa + 8 ≤ s.limit → moves 8 → waits (.signal pa false))) ∧
      (let sleeps (x : Packet) : Prop := ∃ t, run x = .next t ∧ t = { s with waiting := s.waiting ++ [.turnpikeArrival x], banks := t.banks }
       (pa + b.length ≤ s.limit → (∃ i < b.length, s.dieAwake (pa + i) 1 = false) → sleeps (.flit pa b) ∧ sleeps (.poisoned pa b)) ∧
       (pa + 8 ≤ s.limit → s.dieAwake pa 8 = false → sleeps (.signal pa true)) ∧
       (pa + 8 ≤ s.limit → (∃ i < 8, s.dieAwake (pa + i) 1 = false) → sleeps (.signal pa false))) ∧
      (let above (x : Packet) : Prop := run x = .next { s with answers := s.answers ++ [[5]] }
       (b ≠ [] → s.limit < pa + b.length → above (.flit pa b) ∧ above (.poisoned pa b)) ∧
       (s.limit < pa + 8 → above (.signal pa true) ∧ above (.signal pa false))) ∧
      (s.deliver p handle b = (u, n) →
        run (.message p handle b) = .next { u with answers := u.answers ++ [[BitVec.ofNat 8 n]] })) ∧
    (∀ (before after : List Command) (c : Command), (s.hart h).queue = before ++ c :: after → (∀ q ∈ before ++ after, q.id ≠ c.id) →
      let status := if n = 0 then c.status else some (c.status.getD n)
      ∃ t, run (.acknowledged c.id n) = .next t ∧ (t.hart h).queue = before ++ { c with flits := c.flits - 1, status } :: after) ∧
    ((s.hart h).sent = false → run (.answer h n) = .next s) ∧
    ((s.hart h).sent = true → ∃ t, run (.answer h n) = .next t ∧ t.hart h = { s.hart h with answer := some (if n = 4 then 2 else n), sent := false } ∧
      (t.partition (s.partOf h)).drops = (s.partition (s.partOf h)).drops + (if n = 2 ∨ n = 3 then 1 else 0)) ∧
    (∀ x, s.launch p l = some x →
      let gone (v : State) : State := v.setPartition p { v.partition p with launches := (v.partition p).launches.erase l }
      run (.launchAnswer p l 0) = .next (gone s) ∧
      run (.launchAnswer p l 1) = .next (s.modLaunch p l fun x => { x with away := false }) ∧
      run (.launchAnswer p l 2) = .next ((gone s).drop p)) ∧
    run (.dropAnswer p 0) = .next s ∧ (n ≠ 0 → run (.dropAnswer p n) = .next (s.drop p))) ∧
  (∀ (s : State) (queue : Nat) (out : PortOutcome) (op : Nat) (i : Instr) (input output : Bool),
    (op, i, input, output) ∈ [(1, Instr.portTransmit queue out, false, true), (2, .portReceive queue out, true, false),
      (3, .portReadBlock queue out, true, false), (4, .portWriteBlock queue out, false, true),
      (5, .portFlush queue out, false, false)] →
    let m := s.mem
    let dbase := m.nat queue 8
    let cbase := m.nat (queue + 8) 8
    let logn := m.nat (queue + 16) 1
    let prod := m.nat (queue + 24) 4
    let cons := m.nat (queue + 28) 4
    let cprod := m.nat (queue + 32) 4
    let ccons := m.nat (queue + 36) 4
    let n := 2 ^ logn
    let d := dbase + 32 * (cons % n)
    let c := cbase + 16 * (cprod % n)
    let opc := m.nat d 1
    let len := m.nat (d + 4) 4
    let addr := m.nat (d + 8) 8
    let arg := m.nat (d + 16) 8
    let tag := m.nat (d + 24) 4
    let runs : Prop := queue % 64 = 0 ∧ 4 ≤ logn ∧ logn ≤ 16 ∧ prod ≠ cons ∧ (cprod + 2 ^ 32 - ccons) % 2 ^ 32 < n
    let mine : Prop := opc = op ∧ (op = 3 ∨ op = 4 → arg = out.block)
    let good : Prop := m.nat (d + 1) 1 ≤ 1 ∧ m.nat (d + 2) 2 = 0 ∧ m.nat (d + 28) 4 = 0
    let moved := if input then m.storeBytes addr (out.bytes.take len) else m
    let completed (u : State) (m' : Mem) (status amount : Nat) : State := { u with
      mem := ((m'.storeBytes c (leBytes 4 tag ++ [BitVec.ofNat 8 status, if cprod / n % 2 = 0 then 1 else 0, 0, 0]
        ++ leBytes 4 amount ++ leBytes 4 0)).storeNat (queue + 28) 4 ((cons + 1) % 2 ^ 32)).storeNat (queue + 32) 4 ((cprod + 1) % 2 ^ 32)
      interrupts := if m.nat (d + 1) 1 = 1 then s.interrupts ++ [(queue, tag)] else s.interrupts }
    (s.dieAwake queue 64 = false → ∃ t, exec i s = .next t ∧ t = { s with waiting := s.waiting ++ [i], banks := t.banks }) ∧
    (s.upsets = [] → (∀ a n, s.dieAwake a n = true) → s.keyed 0 queue 64 = true → s.keyed 0 d 32 = true → s.keyed 0 c 16 = true →
    let gives (t : State) : Prop := ∃ used, exec i s = .next { t with lineUse := used }
    (¬ runs → gives s) ∧ (runs → 1 ≤ opc → opc ≤ 5 → ¬ mine → gives s) ∧
    (runs → mine ∨ opc = 0 ∨ 5 < opc → s.movingUnit queue = true → exec i s = .next { s with waiting := s.waiting ++ [i] }) ∧
    (s.detour.moving = false →
      (runs → mine → good → out.failed = false → addr + len ≤ s.limit → s.keyed 0 addr len = true →
        ∃ used,
        let t : State := { completed { s with answers :=
          if output then s.answers ++ [(if op = 4 then leBytes 8 arg else []) ++ m.bytes addr len] else s.answers }
          moved 0 (if input then min len out.bytes.length else len) with lineUse := used }
        exec i s = .next t ∧ (op = 1 → exec (.portTransmit queue out) s = .next t) ∧
        (op = 2 → exec (.portReceive queue out) s = .next t) ∧ (op = 3 → exec (.portReadBlock queue out) s = .next t) ∧
        (op = 4 → exec (.portWriteBlock queue out) s = .next t) ∧ (op = 5 → exec (.portFlush queue out) s = .next t)) ∧
      (runs → mine → good → out.failed = true ∨ s.limit < addr + len → gives (completed s m 1 0)) ∧
      (runs → mine → ¬ good → gives (completed s m 2 0)) ∧
      (runs → opc = 0 ∨ 5 < opc → gives (completed s m 2 0)))))

/-! ### The platform (17, 19) -/

/-- R365 to R371: a retirement is requested for a live stack of two or more, cancelled, swept from the new capacity down, unit
by unit and line by line, paused and resumed between units, and committed, with `PHASE`, the capacity and the live stacks as
the rules give them; out of its turn each changes nothing. R378: the clock steps down above 3,600 W or 40 °C, and up after 100
ms without either, and the readings are kept. R379 to R383, R387: reset, boot hand-offs, the march test and the switch to full
service. R388 to R391: a partition is created whole, or refused, and destroyed, with the keys of its slots. R381, R399: firmware
staging, minimum SVNs and updates, during which what asks for a change waits. R344, R375, R395: firmware starts on a core with its
registers 0 and its image placed and mapped. Model's choice: log entries 8 (fuses and flash outlast a reset), 21, 22 (where a
stage's image stands), 39, 40 (SERVING, and the FAILCODE of the second copy), 41 (minimum SVNs), 43, 53, 62, 72, 73, 92 and 93. -/
def Obligations.ThePlatformChangesState : Prop :=
  (∀ (s : State) (stack : BitVec 4),
    let d := s.detour
    let odd : Bool := d.phase.toNat % 2 == 1
    let live := (List.range 16).countP fun i => d.live.getLsbD i
    let smaller := d.capacity - 0x0C00000000
    let holds (y : Detour) : State := { s with detour := y }
    (odd = false ∧ d.pend = false ∧ 2 ≤ live ∧ d.live.getLsbD stack.toNat = true →
      exec (.retirementRequest stack) s = .next (holds { d with pend := true, retire := stack })) ∧
    (odd = true ∨ d.pend = true ∨ live < 2 ∨ d.live.getLsbD stack.toNat = false → exec (.retirementRequest stack) s = .next s) ∧
    (odd = false ∧ d.pend = true →
      exec (.retirementCancel stack) s = .next (holds { d with pend := false, retire := stack }) ∧
      exec .sweepStart s = .next (holds
        { d with phase := d.phase + 1, pointer := smaller, done := false, moving := false, copied := 0 })) ∧
    (odd = true ∨ d.pend = false → exec (.retirementCancel stack) s = .next s ∧ exec .sweepStart s = .next s) ∧
    (odd = true ∧ d.done = true → exec .retirementCommit s = .next (holds
      { d with phase := d.phase + 1, live := d.live &&& ~~~BitVec.ofNat 16 (2 ^ d.retire.toNat), capacity := smaller, pend := false, done := false })) ∧
    (odd = false ∨ d.done = false → exec .retirementCommit s = .next s) ∧
    exec .sweepPause s = .next (holds { d with pause := true }) ∧ exec .sweepResume s = .next (holds { d with pause := false }) ∧
    (let copies : Prop := odd = true ∧ d.done = false ∧ 65536 ≤ d.pointer ∧
       ((d.moving = true ∧ d.copied < 512) ∨ (d.moving = false ∧ d.pause = false))
     let n := if d.moving then d.copied else 0
     (copies → s.upsets = [] → 0 < n ∨ d.pointer ≠ 65536 → exec .sweepLineCopy s = .next (holds { d with moving := true, copied := n + 1 })) ∧
     (copies → s.upsets = [] → n = 0 → d.pointer = 65536 → ∃ t, exec .sweepLineCopy s = .next t ∧
       t.detour = { d with moving := true, copied := 1 } ∧ t.mem = s.mem ∧ t.harts = s.harts ∧ ∀ j < 512, j ∈ (t.die 0).lines) ∧
     (¬ copies → exec .sweepLineCopy s = .next s)) ∧
    (d.moving = true ∧ 512 ≤ d.copied → s.upsets = [] → exec .sweepUnitComplete s = .next (holds
      { d with moving := false, copied := 0, pointer := d.pointer - 65536, done := d.done || decide (d.pointer ≤ 65536) })) ∧
    (d.moving = false ∨ d.copied < 512 → exec .sweepUnitComplete s = .next s)) ∧
  (∀ (s : State) (mw dc us : Nat),
    let told : State := { s with power := mw, coolant := dc }
    (3600000 < mw ∨ 400 < dc → exec (.clockStepDown mw dc) s = .next { told with clockStep := min 3 (s.clockStep + 1) }) ∧
    (mw ≤ 3600000 ∧ dc ≤ 400 → exec (.clockStepDown mw dc) s = .next told) ∧
    (100000 ≤ us → exec (.clockStepUp us) s = .next { s with clockStep := s.clockStep - 1 }) ∧
    (us < 100000 → exec (.clockStepUp us) s = .next s)) ∧
  (∀ (s : State), ∃ t, exec .packageReset s = .next t ∧
    (t.harts, t.clusters, t.partitions, t.clearings, t.mem, t.detour, t.boot, t.mr, t.clock, t.update) =
      ([], [], [], [], {}, {}, 0, Vector.replicate 16 0, 0, .running) ∧
    (t.node, t.present, t.svnMin, t.images, t.slotA, t.slotB, t.committedB, t.saves) =
      (s.node, s.present, s.svnMin, s.images, s.slotA, s.slotB, s.committedB, s.saves) ∧
    ∀ d, ((t.die d).repair, (t.die d).flash, (t.die d).counters, (t.die d).tlb, (t.die d).bloom) =
      ((s.die d).repair, (s.die d).flash, (s.die d).flash, [], [])) ∧
  (∀ (s : State) (h : HartId) (image : FirmwareImage) (system : Bool), isSlot h = false →
    let body := (image.file.drop 64).take (fileNat image.file 16 8)
    (image.entry.toNat % 8 ≠ 0 → exec (.tscFirmwareStart h image system) s = .next s) ∧
    (image.entry.toNat % 8 = 0 → ∃ t, exec (.tscFirmwareStart h image system) s = .next t ∧
      (∀ k, h = .tsc k → image.file ≠ [] → (t.cluster k).firmware = image.file) ∧
      ((∀ k, (s.cluster k).misses = []) → ∀ j, j ≠ h → t.hart j = s.hart j) ∧
      (let x := t.hart h
       x.pc = image.entry ∧ x.running = true ∧ x.boundary = true ∧ x.regs = {} ∧ x.halted = false ∧ x.task = none ∧
       x.raised = system ∧ x.since = s.clock ∧ (x.asid, x.inbox) = ((s.hart h).asid, (s.hart h).inbox)) ∧
      (∀ a, a / 65536 ∉ image.frames → t.mem.byte a = s.mem.byte a) ∧
      (∀ i f, image.frames[i]? = some f →
        (s.memoryOk = true → image.frames.Nodup → ∀ j < 65536, t.mem.byte (f * 65536 + j) = body.getD (65536 * i + j) 0) ∧
        (image.frames.length ≤ 2048 →
          let text := decide (i < image.text)
          pageEntry (s.hart h).asid 0 ((image.base.toNat + 65536 * i) % 2 ^ 64) f (!text) (!text) text ∈
            (match h with | .sys d _ => (t.die d).tlb | _ => (t.cluster (hartCluster h)).tlb))))) ∧
  (∀ (s : State) (first second : Option (List Byte)),
    let stage := (s.boot.toNat / 2 ^ 8) % 8 + 1
    let dies := (s.boot.toNat / 2 ^ 12) % 16
    let fail := (s.boot.toNat / 2 ^ 16) % 2 ^ 8
    let run := exec (.bootStageHandoff first second) s
    let committed := (if s.committedB then s.slotB else s.slotA).image
    let tried := if stage = 3 ∧ committed ≠ [] then some committed else first
    (fail ≠ 0 ∨ 5 < stage → run = .next s) ∧
    (fail = 0 → stage ≤ 5 →
      (∀ b, (tried = some b ∧ imageFault s stage tried = 0) ∨
          ((tried = none ∨ imageFault s stage tried ≠ 0) ∧ second = some b ∧ imageFault s stage second = 0) →
        let digest := sha384 (b.take (64 + fileNat b 16 8))
        let grown (mr : BitVec 384) (b : List Byte) : BitVec 384 := mrOf (sha384 (mrBytes mr ++ b))
        ∃ t, run = .next t ∧ t.boot = BitVec.ofNat 64 (dies * 2 ^ 12 + stage * 2 ^ 8 + if 4 ≤ stage ∧ dies = 15 then 1 else 0) ∧
          t.mr.toList.getD stage 0 = grown (s.mr.toList.getD stage 0) digest ∧ t.images.find stage = some b ∧
          (stage = 1 → t.mr.toList.getD 0 0 = mrOf (sha384 Config.identityRecord)) ∧
          (stage = 3 → t.mr.toList.getD 7 0 = mrOf digest ∧
            (committed = [] → t.slotA = { image := b } ∧ t.committedB = false) ∧
            (committed ≠ [] → (t.slotA, t.slotB, t.committedB) = (s.slotA, s.slotB, s.committedB))) ∧
          (stage = 4 → t.mr.toList.getD 6 0 = mrOf (wayDigest true) ∧
            ∀ d < 4, (t.die d).ringFrame = some (Config.ringFrame d % 2 ^ 36) ∧
              (t.die d).histogramFrame = some (Config.histogramFrame d % 2 ^ 36)) ∧
          (stage = 5 → ∀ k < 104, (t.cluster k).firmware = b) ∧
          (∀ a, a / 65536 ∉ (State.stageImage stage b).frames → t.mem.byte a = s.mem.byte a) ∧
          ∀ h ∈ State.stageCores stage, (t.hart h).running = true ∧ (t.hart h).regs = {} ∧
            (t.hart h).pc = BitVec.ofNat 64 (stage * 2 ^ 40 + fileNat b 24 8)) ∧
      ((tried = none ∨ imageFault s stage tried ≠ 0) → imageFault s stage second ≠ 0 → imageFault s stage second < 256 →
        run = .next { s with boot := BitVec.ofNat 64 (imageFault s stage second * 2 ^ 16 + dies * 2 ^ 12 + (stage - 1) * 2 ^ 8) }))) ∧
  (∀ (s : State) (d : Nat) (unusable : List Nat), d < 4 →
    let x := s.die d
    let mine (k : Nat) : Prop := k / 26 = d ∧ k ∈ unusable
    let bitOf (p : Bool) : Nat := if p then 1 else 0
    let unrepaired : Bool := x.repair.any fun e => e.extractLsb' 61 2 == 2
    let sum (n spares : Nat) (repair : List Word) (bad : Bool) : Word := BitVec.ofNat 64 (n * 2 ^ 32 + spares % 2 ^ 16 * 2 ^ 16
      + bitOf unrepaired * 8 + bitOf (repair.length == 1024) * 4 + 2 + bitOf (!bad))
    (∃ t, exec (.marchTestComplete d [] unusable) s = .next t ∧ (t.die d).summary = sum 0 x.sparesUsed x.repair false ∧
      (t.die d).repair = x.repair ∧ (∀ k, (t.cluster k).disabled = true ↔ (s.cluster k).disabled = true ∨ mine k) ∧
      ((∀ k, k / 26 = d → k ∈ unusable) → t.boot.toNat / 2 ^ 16 % 2 ^ 8 = 5) ∧
      ((∃ k, k / 26 = d ∧ k ∉ unusable) → t.boot.toNat.testBit (12 + d) = true)) ∧
    (∀ row : BitVec 32, x.sparesUsed < Config.spareRows d → x.repair.length < 1024 → (∀ e ∈ x.repair, e.setWidth 32 ≠ row) →
      ∃ t, exec (.marchTestComplete d [row] unusable) s = .next t ∧ (t.die d).sparesUsed = x.sparesUsed + 1 ∧
        (t.die d).repair = x.repair ++ [BitVec.ofNat 64 (2 ^ 63 + 2 ^ 61 + x.sparesUsed % 256 * 2 ^ 48 + row.toNat)] ∧
        (t.die d).summary = sum 1 (x.sparesUsed + 1) (t.die d).repair false) ∧
    (∀ row : BitVec 32, Config.spareRows d ≤ x.sparesUsed → x.repair.length < 1024 → (∀ e ∈ x.repair, e.setWidth 32 ≠ row) →
      ∃ t, exec (.marchTestComplete d [row] unusable) s = .next t ∧ (t.die d).sparesUsed = x.sparesUsed ∧
        (t.die d).repair = x.repair ++ [BitVec.ofNat 64 (2 ^ 63 + row.toNat)] ∧
        (t.die d).summary = sum 1 x.sparesUsed (t.die d).repair true)) ∧
  (∀ (s : State),
    let may : Prop := s.reducedService = true ∧ (s.boot.toNat / 2 ^ 8) % 8 = 5 ∧
      (s.boot.toNat / 2 ^ 12) % 16 = 15 ∧ (s.boot.toNat / 2 ^ 16) % 2 ^ 8 = 0 ∧ ∀ e ∈ s.partitions, e.2.reduced = false
    (may → ∃ t, exec .fullServiceSwitch s = .next t ∧ t.clockStep = 0 ∧
      t.mr.toList.getD 6 0 = mrOf (sha384 (mrBytes (s.mr.toList.getD 6 0) ++ wayDigest false)) ∧ t.boot.toNat.testBit 1 = true) ∧
    (¬ may → exec .fullServiceSwitch s = .next s)) ∧
  (∀ (s : State) (r : List Byte) (clusters : List Nat) (pairs : List (Nat × Bool)),
    let run := exec (.partitionCreate r ⟨clusters, pairs⟩) s
    let refused : Prop := run = .next { s with answers := s.answers ++ [[1]] }
    (s.update ≠ .running → run = .next { s with waiting := s.waiting ++ [.partitionCreate r ⟨clusters, pairs⟩] }) ∧
    (s.update = .running → s.creatable r clusters = false → refused) ∧
    (s.update = .running → r.length ≠ 128 ∨ fileNat r 0 8 = 0 ∨ 128 ≤ fileNat r 55 1 ∨
      (∃ k ∈ clusters, (s.cluster k).owner ≠ 0 ∧ s.savedCluster k = false) → refused) ∧
    (s.update = .running → s.creatable r clusters = true →
      let id := fileNat r 0 8
      ∃ t q, run = .next t ∧ t.answers = s.answers ++ [[0]] ∧ t.partitions.find id = some q ∧
        (∀ j, j ≠ id → (s.partition j).preempt ≠ .saved → t.partitions.find j = s.partitions.find j) ∧
        (∀ j x, j ≠ id → s.partitions.find j = some x → x.preempt = .saved → (∃ k ∈ clusters, k ∈ x.slice) →
          (t.partition j).slice = []) ∧
        (∀ i, 0 < i → i < fileNat r 72 4 →
          let x := pairs.getD (i - 1) (0, true)
          q.qps.find i = some { asid := q.asids.getD x.1 (q.asids.headD 0), ordered := x.2 }) ∧
        (q.id, q.slice, q.quota, q.features, q.preempt, q.objects, q.mailboxes, q.cairn) =
          (id, clusters, fileNat r 16 4, BitVec.ofNat 256 (fileNat r 24 32), .running, [], [], []) ∧
        q.wdlimit = (if fileNat r 80 4 = 0 then 0x01000000 else fileNat r 80 4) ∧
        q.gangwait = (if fileNat r 84 4 = 0 then 0x00010000 else fileNat r 84 4) ∧
        (q.asids.length, q.keys.length, q.frames.length * 65536) = (fileNat r 10 2, fileNat r 12 2, fileNat r 64 8) ∧
        (∀ a ∈ q.asids, ∀ e ∈ s.partitions, a ∉ e.2.asids) ∧ (∀ f ∈ q.frames, ∀ e ∈ s.partitions, f ∉ e.2.frames) ∧
        (∀ k ∈ q.keys, t.keySlots.find k = some (.assigned id) ∧ t.keyCount.get k 0 = s.keyCount.get k 0 + 1) ∧
        (∀ k ∈ clusters, (t.cluster k).owner = id ∧ (t.cluster k).mem = {} ∧ ∀ c n, c / 32 = k →
          t.hart (.slot c n) = {} ∧ t.core c = { quarantined := (s.core c).quarantined, since := s.clock }) ∧
        (∀ k, k ∉ clusters → (∀ e ∈ s.partitions, e.2.preempt = .saved → k ∉ e.2.slice) → t.cluster k = s.cluster k) ∧
        ∀ a, t.mem.byte a = if a / 65536 ∈ q.frames then 0 else s.mem.byte a)) ∧
  (∀ (s : State) (p : Nat),
    let waits (u : State) : Out := .next { u with waiting := u.waiting ++ [.partitionDestroy p] }
    (s.update ≠ .running → exec (.partitionDestroy p) s = waits s) ∧
    (s.update = .running → s.partitions.find p = none →
      exec (.partitionDestroy p) s = .next { s with answers := s.answers ++ [[1]] }) ∧
    ∀ q, s.partitions.find p = some q →
      (s.update = .running → s.wholeLeft p = true → exec (.partitionDestroy p) s = waits (s.stopTasks p)) ∧
      (s.update = .running → s.uses = [] → s.wholeLeft p = false → ∃ t, exec (.partitionDestroy p) s = .next t ∧
          t.partitions.find p = none ∧ t.answers = s.answers ++ [[0]] ∧
        (∀ j, j ≠ p → t.partitions.find j = s.partitions.find j) ∧ (∀ k ∈ q.keys, t.keySlots.find k = some .scrubbing ∧ s.keyCount.get k 0 < t.keyCount.get k 0) ∧
        (∀ k ∈ q.slice, (t.cluster k).owner = 0 ∧ (t.cluster k).mem = {} ∧ ∀ c n, c / 32 = k → t.hart (.slot c n) = {}) ∧
        (∀ c, ∀ e ∈ (t.core c).tlb, e.asid ∉ q.asids) ∧ (∀ k, ∀ e ∈ (t.cluster k).tlb ++ (t.cluster k).victims, e.asid ∉ q.asids) ∧
        (∀ d, ∀ e ∈ (t.die d).tlb, e.asid ∉ q.asids) ∧ ∀ e ∈ t.clearings, e.2.part ≠ p)) ∧
  (∀ (s : State) (slot : Nat),
    (s.keySlots.find slot = some .scrubbing → ∃ t, exec (.keySlotFree slot) s = .next t ∧
      t.keySlots = s.keySlots.set slot .free ∧ t.mem = s.mem ∧ t.harts = s.harts ∧ t.partitions = s.partitions ∧
      (∀ c, (t.core c).lines = (s.core c).lines.filter fun n => (s.keyAt n).map (·.1) ≠ some slot) ∧
      ∀ d, (t.die d).lines = (s.die d).lines.filter fun n => (s.keyAt n).map (·.1) ≠ some slot) ∧
    (s.keySlots.find slot ≠ some .scrubbing → exec (.keySlotFree slot) s = .next s)) ∧
  (∀ (s : State) (image : List Byte) (stage value : Nat),
    let spare := if s.committedB then s.slotA else s.slotB
    let held := if s.committedB then s.slotB else s.slotA
    let puts (u : State) (x : FirmwareSlot) : State := if s.committedB then { u with slotA := x } else { u with slotB := x }
    let fault := imageFault s 3 (some image)
    let digest := sha384 (spare.image.take (64 + fileNat spare.image 16 8))
    let starts (u : State) (b : List Byte) : Prop := ∀ h ∈ State.stageCores 3, (u.hart h).running = true ∧
      (u.hart h).pc = BitVec.ofNat 64 (3 * 2 ^ 40 + fileNat b 24 8) ∧ (u.hart h).regs = {}
    let waits (i : Instr) : Prop := exec i s = .next { s with waiting := s.waiting ++ [i] }
    (s.update ≠ .running → waits (.firmwareStage image) ∧ waits .updateRequest ∧ waits (.svnRaise stage value)) ∧
    (s.update = .running → fault ≠ 0 → exec (.firmwareStage image) s = .next { s with answers := s.answers ++ [[BitVec.ofNat 8 fault]] }) ∧
    (s.update = .running → fault = 0 →
      exec (.firmwareStage image) s = .next (puts { s with answers := s.answers ++ [[0]] } { image })) ∧
    (s.update = .running →
     let lowest := fileNat (if stage = 3 then held.image else s.images.get stage []) 8 4
     (value ≤ s.svnMin.get stage 0 ∨ value < lowest → exec (.svnRaise stage value) s = .next { s with answers := s.answers ++ [[1]] }) ∧
     (s.svnMin.get stage 0 < value → lowest ≤ value → exec (.svnRaise stage value) s =
       .next { s with svnMin := s.svnMin.set stage value, answers := s.answers ++ [[0]] })) ∧
    (s.update = .running → spare.image ≠ [] → spare.failed = false → exec .updateRequest s = .next { s with update := .quiescing }) ∧
    (s.update = .running → spare.image = [] ∨ spare.failed = true → exec .updateRequest s = .next s) ∧
    (∀ c, s.update = .starting c →
      (c + 2 ^ 25 ≤ s.clock → exec .heartbeat s = .next s) ∧
      (s.clock < c + 2 ^ 25 → takesHandover spare.image s.handover = true → ∃ t, exec .heartbeat s = .next t ∧
        t.update = .running ∧ t.committedB = !s.committedB ∧ t.mr.toList.getD 7 0 = mrOf digest ∧ t.harts = s.harts) ∧
      (s.clock < c + 2 ^ 25 → takesHandover spare.image s.handover = false → ∃ t, exec .heartbeat s = .next t ∧
        t.update = .running ∧ t.committedB = s.committedB ∧
        (if s.committedB then t.slotA else t.slotB) = { spare with failed := true } ∧ starts t held.image) ∧
      (s.clock < c + 2 ^ 25 → exec .heartbeatTimeout s = .next s) ∧
      (c + 2 ^ 25 ≤ s.clock → ∃ t, exec .heartbeatTimeout s = .next t ∧ t.update = .running ∧ t.committedB = s.committedB ∧
        (if s.committedB then t.slotA else t.slotB) = { spare with failed := true } ∧ starts t held.image)) ∧
    ((∀ c, s.update ≠ .starting c) → exec .heartbeat s = .next s ∧ exec .heartbeatTimeout s = .next s)) ∧
  (∀ (s : State) (p : Nat) (q : Partition), s.partitions.find p = some q →
    (q.preempt = .running → s.update = .running →
      exec (.timeSliceEnd p) s = .next (s.setPartition p { q with preempt := .stopping })) ∧
    (s.update ≠ .running → exec (.timeSliceEnd p) s = .next { s with waiting := s.waiting ++ [.timeSliceEnd p] }) ∧
    (q.preempt ≠ .running → s.update = .running → exec (.timeSliceEnd p) s = .next s))

/-! ### Attestation and the key store (19) -/

/-- R393 to R396, with the layouts of log entry 23 and block 18 of log entry 94: an SPDM requester comes through the version, the capabilities and the one
choice of algorithms in that order; then digests, the certificate chain, a challenge, measurements and a key exchange are
answered, signed where the rule says so with the nonce and a fresh use of the device key; a session is secured by the
finish of the open exchange and ends. Inside a secured session a partition's key store is written once an entry,
disabled for ever, and read. Anything out of its order is refused. -/
def Obligations.EndpointsAttestAndKeepKeys : Prop :=
  ∀ (s : State) (ep : Nat) (x : Spdm), s.endpoint ep = some x →
    let moved (y : Spdm) (b : List Byte) : State := { s.setEndpoint ep y with answers := s.answers ++ [b] }
    let told (b : List Byte) : State := { s with answers := s.answers ++ [b] }
    let refuses (i : Instr) : Prop := exec i s = .next (told [0x7F])
    let n := s.signatures
    let signed (body nonce : List Byte) : State := { s with
      signatures := n + 1, answers := s.answers ++ [body ++ Config.deviceSignature n (body ++ nonce)] }
    let chain := Config.certificateChain
    let ready : Prop := x.stage = .algorithms
    let block (index : Nat) : Option (List Byte) :=
      if 1 ≤ index ∧ index ≤ 7 then some (leBytes 48 (s.mr.toList.getD index 0).toNat)
      else if ep = 0 then none
      else if index = 16 then some (sha384 (s.partition ep).record)
      else if index = 17 then some (leBytes 32 (s.partition ep).features.toNat)
      else if index = 18 then some (sha384 (((s.partition ep).slice.map fun k =>
        (s.cluster k).firmware.take (64 + fileNat (s.cluster k).firmware 16 8)).eraseDups).flatten)
      else none
    exec (.getVersion ep) s = .next (moved { stage := .version } [0x13]) ∧
    (x.stage = .version → exec (.getCapabilities ep) s = .next (moved { x with stage := .capabilities }
      [0x84, 0xE1, 0xE3, 0x81, 0x82, 0x83, 0xE0, 0xE4, 0xE5, 0xEC, 0xFE])) ∧
    (x.stage ≠ .version → refuses (.getCapabilities ep)) ∧
    (∀ c : SpdmAlgorithms,
      let offered : Prop := c = { signature := 0x80, hash := 0x02, exchange := 0x10, cipher := 0x02 }
      (x.stage = .capabilities → offered →
        exec (.negotiateAlgorithms ep c) s = .next (moved { x with stage := .algorithms } [0x80, 0x02, 0x10, 0x02])) ∧
      (x.stage ≠ .capabilities ∨ ¬ offered → refuses (.negotiateAlgorithms ep c))) ∧
    (∀ (index k : Nat) (nonce data mac p384 hss : List Byte),
      (¬ ready → refuses (.getDigests ep) ∧ refuses (.getCertificate ep) ∧ refuses (.challenge ep nonce) ∧
        refuses (.getMeasurements ep index nonce) ∧ refuses (.keyExchange ep data) ∧ refuses (.finish ep mac) ∧
        refuses (.endSession ep) ∧ refuses (.keyStoreSet ep k p384 hss) ∧ refuses (.keyStoreDisable ep k) ∧
        refuses (.keyStoreStatus ep)) ∧
      (ready →
        exec (.getDigests ep) s = .next (told (sha384 chain)) ∧ exec (.getCertificate ep) s = .next (told chain) ∧
        exec (.challenge ep nonce) s = .next (signed (sha384 chain) nonce) ∧
        (∀ b, index ≠ 255 → block index = some b →
          exec (.getMeasurements ep index nonce) s = .next (signed (BitVec.ofNat 8 index :: b) nonce)) ∧
        (index ≠ 255 → block index = none → refuses (.getMeasurements ep index nonce)) ∧
        exec (.getMeasurements ep 255 nonce) s = .next (signed (([1, 2, 3, 4, 5, 6, 7, 16, 17, 18].map fun (i : Nat) =>
          match block i with | some b => BitVec.ofNat 8 i :: b | none => []).flatten) nonce) ∧
        (let reply := Config.exchangeReply n data
         ∃ t, exec (.keyExchange ep data) s = .next t ∧ t.signatures = n + 1 ∧
           t.answers = s.answers ++ [reply ++ Config.deviceSignature n (reply ++ data)] ∧
           t.endpoint ep = some { x with exchange := some (n, data), secured := false }) ∧
        (x.exchange = none → refuses (.finish ep mac)) ∧
        (∀ m e, x.exchange = some (m, e) →
          (mac = Config.finishCode m e → exec (.finish ep mac) s =
            .next (moved { x with exchange := none, secured := true } [0])) ∧
          (mac ≠ Config.finishCode m e → refuses (.finish ep mac))) ∧
        (x.secured = true → exec (.endSession ep) s = .next (moved { x with secured := false } [0])) ∧
        (x.secured = false → refuses (.endSession ep)) ∧
        (x.secured = false ∨ ep = 0 →
          refuses (.keyStoreSet ep k p384 hss) ∧ refuses (.keyStoreDisable ep k) ∧ refuses (.keyStoreStatus ep)) ∧
        (x.secured = true → ep ≠ 0 →
          let q := s.partition ep
          let held := q.keyStore.get k .empty
          let written (y : KeyEntry) : State := { s.setPartition ep
            { q with keyStore := q.keyStore.set k y } with answers := s.answers ++ [[0]] }
          let fit : Prop := k < 64 ∧ held = .empty ∧ p384.length = 97 ∧ hss.length = 60 ∧ Config.p384WellFormed p384 = true ∧
            Config.hssWellFormed hss = true
          (fit → exec (.keyStoreSet ep k p384 hss) s = .next (written (.enabled p384 hss))) ∧ (¬ fit →
              refuses (.keyStoreSet ep k p384 hss)) ∧
          (k < 64 → ∃ y, exec (.keyStoreDisable ep k) s = .next (written y) ∧ (∀ o, signedBy o y = false) ∧ y ≠ .empty) ∧
          (64 ≤ k → refuses (.keyStoreDisable ep k)) ∧
          ∃ b, exec (.keyStoreStatus ep) s = .next (told (0 :: b)) ∧ b.length = 16 ∧ ∀ j < 64,
            leNat b / 4 ^ j % 4 = (match q.keyStore.get j .empty with | .empty => 0 | .enabled _ _ => 1 | .disabled _ _ => 2))))


/-! ### The whole machine -/

/-- R46, R365 to R368, R379, R382: after package reset every register, table and measurement register is zero or empty, no
hart has anything to issue, sixteen stacks are live at the full capacity, `PHASE` is 0 and every memory is in canonical
form. That a byte of memory reads 0 then is the model's choice (log entry 7), and so are the values of log entry 4. -/
def Obligations.ResetLeavesTheMachineEmpty : Prop :=
  let s := State.reset
  s.memoryOk = true ∧ (∀ a, s.mem.byte a = 0) ∧ s.mem.poison = [] ∧
  (∀ id, let h := s.hart id
    h.ready id = false ∧ h.pc = 0 ∧ h.tagdone = 0 ∧ h.vxfLo = 0 ∧ h.vxfHi = 0 ∧ h.regs.rmode = 0 ∧ h.regionpc = 0 ∧
    (∀ n, h.regs.getS n = 0) ∧ (∀ n, h.regs.getV n = 0) ∧ (∀ n, n ≠ 0 → h.regs.getK n = 0 ∧ h.regs.guard n = false) ∧
    ∀ n, (h.regs.getW n).state = .empty) ∧
  (∀ c, (s.core c).tlb = [] ∧ ((s.core c).cur, (s.core c).run) = (0, 0)) ∧ (∀ k, (s.cluster k).tlb = [] ∧ (s.cluster k).owner = 0) ∧
  (∀ d, (s.die d).tlb = [] ∧ (s.die d).events = 0) ∧ s.partitions = [] ∧ (∀ i : Fin 16, s.mr[i] = 0) ∧ s.boot = 0 ∧ s.clock = 0 ∧
  s.detour.capacity = 0x00C000000000 ∧ s.detour.phase = 0 ∧ s.detour.count = 16 ∧ s.detour.pend = false ∧ s.clockStep = 0

/-- R8, R351 to R353: every step keeps the canonical form of every memory: HBM, the memories of clusters, the typed buffers,
the slots of mailboxes, the scratch of Clearings, and what a save holds of them. So equal memories are equal data, and a
byte reads what was last written to it. (The form is the model's own; the rules say only what a byte and a poisoned word
read as.) -/
def Obligations.EveryStepKeepsMemoryCanonical : Prop :=
  ∀ s t : State, s.memoryOk = true → step s = .next t → t.memoryOk = true

/-- 06 R145 to R150, R155; 08 R187 to R204: an instruction that works on registers alone leaves everything but its
destination as it was: every other register, mask, guard and view, its own stores, commands and tags, every other hart, and
every byte of memory. Vector instructions only add flags, and scalar ones none. R45, R46, R51: whatever instruction a task
runs, the platform stays as it is: partitions' shares, identities and limits, key slots and key stores, boot status,
measurements, firmware, Detour, live cores, the TLBs of dies and the clock. (Of a sweep under way, a unit that a store of an
ending task waits for completes: log entry 53.) -/
def Obligations.InstructionsLeaveTheRest : Prop :=
  (∀ (i : Instr) (s t : State) (d : RegName), regDest i = some d → s.streamless = true → exec i s = .next t →
    let x := s.me
    let y := t.me
    s.onlySelf t ∧ (∀ space a, (t.seen space).byte a = (s.seen space).byte a) ∧
    (∀ n, d ≠ .s n → y.regs.getS n = x.regs.getS n) ∧ (∀ n, d ≠ .v n → y.regs.getV n = x.regs.getV n) ∧
    (∀ n, d ≠ .k n → y.regs.getK n = x.regs.getK n) ∧ y.regs.g = x.regs.g ∧ y.regs.w = x.regs.w ∧
    (y.regs.rmode, y.regs.inline, y.regs.streams) = (x.regs.rmode, x.regs.inline, x.regs.streams) ∧
    (y.stores, y.queue, y.task, y.tagdone, y.tagfail) = (x.stores, x.queue, x.task, x.tagdone, x.tagfail) ∧
    (y.regionpc, y.checkpoint, y.boundary, y.wd) = (x.regionpc, x.checkpoint, x.boundary, x.wd) ∧
    ((∀ n, d ≠ .g n) → y.unres = x.unres) ∧ (y.pend = x.pend ∨ ∃ p, y.pend = x.pend ++ [p]) ∧
    x.vxfLo &&& y.vxfLo = x.vxfLo ∧ x.vxfHi &&& y.vxfHi = x.vxfHi ∧
    ((∃ n, d = .s n ∨ d = .g n) → (y.vxfLo, y.vxfHi) = (x.vxfLo, x.vxfHi))) ∧
  (∀ (i : Instr) (gd : BitVec 3) (s t : State) (c n : Nat), guardField i = some gd → s.cur = .slot c n → exec i s = .next t →
    (t.turn, t.agenda, t.cur, t.node, t.present, t.clock, t.clockStep) = (s.turn, s.agenda, s.cur, s.node, s.present, s.clock, s.clockStep) ∧
    (t.boot, t.mr, t.svnMin, t.images) = (s.boot, s.mr, s.svnMin, s.images) ∧ (s.detour.moving = false → t.detour = s.detour) ∧
    (t.detour.capacity, t.detour.phase, t.detour.live, t.detour.retire, t.detour.pend, t.detour.pause) =
      (s.detour.capacity, s.detour.phase, s.detour.live, s.detour.retire, s.detour.pend, s.detour.pause) ∧
    (t.slotA, t.slotB, t.committedB, t.update) = (s.slotA, s.slotB, s.committedB, s.update) ∧
    (t.keySlots, t.spdm, t.signatures, t.saves, t.clearings, t.answers) =
      (s.keySlots, s.spdm, s.signatures, s.saves, s.clearings, s.answers) ∧
    (∀ p, let q := s.partition p
      let r := t.partition p
      (r.id, r.reduced, r.features, r.budgetCap, r.shares) = (q.id, q.reduced, q.features, q.budgetCap, q.shares) ∧
      (r.slice, r.asids, r.keys, r.frames, r.framesLeft) = (q.slice, q.asids, q.keys, q.frames, q.framesLeft) ∧
      (r.quota, r.wdlimit, r.gangwait, r.record, r.preempt) = (q.quota, q.wdlimit, q.gangwait, q.record, q.preempt) ∧
      (r.keyStore, r.cairn, r.qps, r.spdm) = (q.keyStore, q.cairn, q.qps, q.spdm)) ∧
    (∀ j, (t.core j).quarantined = (s.core j).quarantined) ∧ (∀ j, (t.cluster j).owner = (s.cluster j).owner) ∧
    (∀ j, (t.die j).tlb = (s.die j).tlb ∧ (t.die j).sparesUsed = (s.die j).sparesUsed) ∧
    ∀ h, isSlot h = false → (t.hart h).pc = (s.hart h).pc ∧ (t.hart h).running = (s.hart h).running ∧ (t.hart h).regs = (s.hart h).regs)
end

