-- ==== Sys2Proof/Machine/AsmText.lean ====
section
/-! DEFINITION. The text that `ronas` reads (20 R406 to R408): the tokens of a source line, names, and the value of an
expression. -/

namespace Sys2Proof.Asm

open Sys2Proof Sys2Proof.Machine

/-! ### Tokens (R406, R408) -/

/-- A token. A word keeps its dots: a mnemonic with its suffixes, a directive, `vxf.lo`. A float literal is digits 10^scale. -/
inductive Tok where
  | word (s : String)
  | int (n : Nat)
  | float (digits : Nat) (scale : Int)
  | quoted (s : String)
  | sym (c : Char)
deriving DecidableEq, Repr

def isLetter (c : Char) : Bool := ('a' ≤ c && c ≤ 'z') || ('A' ≤ c && c ≤ 'Z')
def isDigit (c : Char) : Bool := '0' ≤ c && c ≤ '9'
/-- A character of a name. -/
def isNameChar (c : Char) : Bool := isLetter c || isDigit c || c == '_'

/-- The value of a digit in a literal (R408): its place among the sixteen, in either case of the letters. -/
def hexDigit (c : Char) : Option Nat :=
  (("0123456789abcdef").toList.idxOf? c).or (("0123456789ABCDEF").toList.idxOf? c)

/-- The value of digits in a base. -/
def digitsValue (base : Nat) (l : List Char) : Nat := l.foldl (fun n c => n * base + (hexDigit c).getD 0) 0

/-- Hexadecimal digits in which an underscore stands between two digits only (R408). -/
def hexWellFormed (l : List Char) : Bool :=
  !l.isEmpty && l.head? != some '_' && l.getLast? != some '_' && !(l.zip l.tail).contains ('_', '_')

/-- A sign of an exponent: whether it stands there, and whether it is minus. -/
def signOf (l : List Char) : Bool × Bool := (l.head? == some '+' || l.head? == some '-', l.head? == some '-')

/-- The exponent of a float literal at the head of a text, and the text after it (R408): 0 without one. -/
def exponent (l : List Char) : Option (Int × List Char) :=
  if l.head? != some 'e' then some (0, l)
  else
    let sign := signOf l.tail
    let size := ((l.drop (1 + sign.1.toNat)).takeWhile isDigit).length
    let value : Int := digitsValue 10 ((l.drop (1 + sign.1.toNat)).take size)
    if size = 0 then none else some (if sign.2 then -value else value, l.drop (1 + sign.1.toNat + size))

/-- The number at the head of a text that begins with a digit, and the text after it (R408). -/
def number (l : List Char) : Option (Tok × List Char) :=
  let close (x : Tok × List Char) : Option (Tok × List Char) :=
    match x.2 with
    | c :: _ => if isNameChar c || c == '.' then none else some x
    | [] => some x
  match l with
  | '0' :: 'x' :: r =>
    let ds := r.takeWhile fun c => (hexDigit c).isSome || c == '_'
    if hexWellFormed ds then close (.int (digitsValue 16 (ds.filter (· != '_'))), r.drop ds.length) else none
  | _ =>
    let ds := l.takeWhile isDigit
    match l.drop ds.length with
    | '.' :: r =>
      let fs := r.takeWhile isDigit
      match exponent (r.drop fs.length) with
      | some (e, r) => close (.float (digitsValue 10 (ds ++ fs)) (e - fs.length), r)
      | none => none
    | r => close (.int (digitsValue 10 ds), r)

/-- The tokens of a line up to its comment (R406); none where a character begins no token. -/
def lex : Nat → List Char → Option (List Tok)
  | 0, _ => none
  | _ + 1, [] => some []
  | _ + 1, ';' :: _ => some []
  | _ + 1, '/' :: '/' :: _ => some []
  | n + 1, '<' :: '<' :: l => (lex n l).map (.sym '<' :: ·)
  | n + 1, '>' :: '>' :: l => (lex n l).map (.sym '>' :: ·)
  | n + 1, '"' :: l =>
    let s := l.takeWhile (· != '"')
    match l.drop s.length with
    | _ :: r => (lex n r).map (.quoted (String.ofList s) :: ·)
    | [] => none
  | n + 1, c :: l =>
    if c == ' ' || c == '\t' then lex n l
    else if isLetter c || c == '_' || c == '.' then
      let s := l.takeWhile fun d => isNameChar d || d == '.'
      (lex n (l.drop s.length)).map (.word (String.ofList (c :: s)) :: ·)
    else if isDigit c then
      match number (c :: l) with
      | some (t, r) => (lex n r).map (t :: ·)
      | none => none
    else if ("()[],:+-*/~&^|").toList.contains c then (lex n l).map (.sym c :: ·)
    else none

/-- Token lists between the commas (R406). -/
def splitAt (c : Char) (l : List Tok) : List (List Tok) :=
  l.foldr (fun t acc => if t == .sym c then [] :: acc else (t :: acc.headD []) :: acc.tail) [[]]

/-- The lines of a source. -/
def splitLines (s : List Char) : List (List Char) :=
  s.foldr (fun c acc => if c == '\n' then [] :: acc else (c :: acc.headD []) :: acc.tail) [[]]

/-- The parts of a word between its dots. -/
def parts (s : String) : List String :=
  (s.toList.foldr (fun c acc => if c == '.' then [] :: acc else (c :: acc.headD []) :: acc.tail) [[]]).map String.ofList

/-! ### Names (R407, R409) -/

/-- The number of a register of a file that counts n of them: the letter, then the number without a leading zero. -/
def register (file : Char) (n : Nat) (s : String) : Option Nat :=
  match s.toList with
  | c :: ds =>
    let k := digitsValue 10 ds
    if c == file && !ds.isEmpty && ds.all isDigit && (ds.length == 1 || ds.head? != some '0') && k < n then some k else none
  | [] => none

/-- The files of R409, and how many numbers each has; number 0 of the guards is no register. -/
def files : List (Char × Nat) := [('s', 32), ('v', 32), ('k', 8), ('w', 16), ('t', 8), ('g', 8), ('m', 16)]

/-- The control registers by name (R46). -/
def controlNames : List (String × Nat) :=
  ["slotid", "coreid", "clusterid", "cycle", "tagdone", "vxf.lo", "vxf.hi", "rmode", "regionpc", "quota", "wdlimit",
   "gangwait"].zipIdx ++ [("CAPACITY", 0x100), ("PHASE", 0x101), ("SWEEP", 0x102), ("LIVESTACKS", 0x103)]

/-- The space letters with their codes (R41, R239). -/
def spaces : List (String × Nat) := ["g", "m", "w", "a", "c", "s"].zipIdx

/-- A spelling that may be a label or an `.equ` name (R407); there is no register g0 (R409). -/
def isName (s : String) : Bool :=
  (match s.toList with
    | c :: l => (isLetter c || c == '_') && l.all isNameChar
    | [] => false)
  && s != "la" && !(files.any fun f => (register f.1 f.2 s).isSome && (f.1, s) != ('g', "g0")) && !(controlNames.any (·.1 == s)) && !(spaces.any (·.1 == s))

/-! ### Expressions (R408) -/

/-- The sections of a source (R413). -/
inductive Sect where
  | text
  | data
  | pathfinder
  | priv
deriving DecidableEq, Repr

/-- What a name or an expression stands for: an integer, or a label at an offset of a section. -/
inductive Val where
  | int (z : Int)
  | label (s : Sect) (off : Nat)
deriving DecidableEq, Repr

/-- The operators of R408, and the open parenthesis. -/
inductive Operator where
  | neg | inv | mul | div | add | sub | shl | shr | and | xor | or | paren
deriving DecidableEq, Repr

/-- How tightly an operator binds. -/
def Operator.rank : Operator → Nat
  | .neg | .inv => 7
  | .mul | .div => 6
  | .add | .sub => 5
  | .shl | .shr => 4
  | .and => 3
  | .xor => 2
  | .or => 1
  | .paren => 0

/-- A bitwise operation on integers as unbounded two's complement. -/
def onBits (f : Nat → Nat → Nat) (a b : Int) : Int :=
  let w := Nat.log2 (max a.natAbs b.natAbs) + 2
  signedOf w (f (wrapInt w a) (wrapInt w b))

/-- A binary operation on integers; none for a zero divisor and a negative shift count (log entry 76). -/
def Operator.onInts (o : Operator) (a b : Int) : Option Int :=
  match o with
  | .mul => some (a * b)
  | .div => if b = 0 then none else some (a.tdiv b)
  | .add => some (a + b)
  | .sub => some (a - b)
  | .shl => if b < 0 then none else some (a * 2 ^ b.toNat)
  | .shr => if b < 0 then none else some (a / 2 ^ b.toNat)
  | .and => some (onBits (· &&& ·) a b)
  | .xor => some (onBits (· ^^^ ·) a b)
  | .or => some (onBits (· ||| ·) a b)
  | _ => none

/-- An operator applied to the values on top of the stack. Of labels, only the difference of two of one section has a value. -/
def Operator.apply (o : Operator) (vals : List Val) : Option (List Val) :=
  match o, vals with
  | .neg, .int a :: l => some (.int (-a) :: l)
  | .inv, .int a :: l => some (.int (-a - 1) :: l)
  | .sub, .label s a :: .label t b :: l => if s = t then some (.int ((b : Int) - a) :: l) else none
  | o, .int b :: .int a :: l => (o.onInts a b).map (.int · :: l)
  | _, _ => none

/-- The stacks of an evaluation, and whether an operand must come next. -/
structure Eval where
  vals : List Val := []
  ops : List Operator := []
  operand : Bool := true

/-- The operators on the stack that bind at least as tightly as a rank are applied. -/
def reduce (rank : Nat) : List Operator → List Val → Option (List Operator × List Val)
  | [], vals => some ([], vals)
  | o :: ops, vals =>
    if rank ≤ o.rank then
      match o.apply vals with
      | some vals => reduce rank ops vals
      | none => none
    else some (o :: ops, vals)

/-- The binary operator of a symbol. -/
def binary (c : Char) : Option Operator :=
  match c with
  | '*' => some .mul
  | '/' => some .div
  | '+' => some .add
  | '-' => some .sub
  | '<' => some .shl
  | '>' => some .shr
  | '&' => some .and
  | '^' => some .xor
  | '|' => some .or
  | _ => none

/-- One token of an expression. -/
def Eval.step (env : String → Option Val) (e : Eval) (t : Tok) : Option Eval :=
  if e.operand then
    match t with
    | .int n => some { e with vals := .int n :: e.vals, operand := false }
    | .word s => (env s).map fun v => { e with vals := v :: e.vals, operand := false }
    | .sym '-' => some { e with ops := .neg :: e.ops }
    | .sym '~' => some { e with ops := .inv :: e.ops }
    | .sym '(' => some { e with ops := .paren :: e.ops }
    | _ => none
  else
    match t with
    | .sym ')' =>
      match reduce 1 e.ops e.vals with
      | some (.paren :: ops, vals) => some { e with vals, ops }
      | _ => none
    | .sym c =>
      match binary c with
      | some o => (reduce o.rank e.ops e.vals).map fun (ops, vals) => { vals, ops := o :: ops, operand := true }
      | none => none
    | _ => none

/-- The value of an expression; none where it is malformed or holds a name without a value. -/
def value (env : String → Option Val) (l : List Tok) : Option Val :=
  match l.foldlM (Eval.step env) {} with
  | some e =>
    if e.operand then none
    else match reduce 1 e.ops e.vals with
      | some ([], [v]) => some v
      | _ => none
  | none => none

/-- The value of an expression that must be an integer. -/
def intValue (env : String → Option Val) (l : List Tok) : Option Int :=
  match value env l with
  | some (.int z) => some z
  | _ => none

/-- The label that stands alone in an operand (R408). -/
def labelValue (env : String → Option Val) (l : List Tok) : Option (Sect × Nat) :=
  match l with
  | [.word s] => match env s with
    | some (.label t off) => some (t, off)
    | _ => none
  | _ => none

end Sys2Proof.Asm
end

