-- ==== Sys2Proof/Machine/AsmForms.lean ====
section
/-! DEFINITION. The spelling of each instruction for `ronas` (20 R409 to R412): operand forms, suffix classes, and for every
mnemonic the syntax line of its own description. -/

namespace Sys2Proof.Asm

open Sys2Proof Sys2Proof.Machine

/-- What an operand is read against: the value of a name, the offset of the instruction in its section and in the object's
virtual region, the place of a label in that region, and the length of the instruction's section. -/
structure Context where
  env : String → Option Val
  offset : Nat
  address : Int
  place : Sect → Nat → Option Int
  length : Nat

/-- A value in a field, refused outside its range; no value is truncated to fit (R408). -/
def field (lo len : Nat) (low high : Int) (z : Int) : Option Nat :=
  if low ≤ z ∧ z ≤ high then some (wrapInt len z * 2 ^ lo) else none

/-! ### Operands (R409) -/

/-- An operand of a syntax line, with the lowest bit of the field it fills. -/
inductive Operand where
  | reg (file : Char) (lo : Nat)
  /-- An integer from low to high, of which the field holds the sum with a bias. -/
  | num (lo len : Nat) (low high bias : Int)
  | mem | gather | buffer | base | extent | element (lo : Nat) | region | target | pcRelative | control
  /-- The scale of `cread`, whose presence is FN[2] (R292). -/
  | scale
  /-- The word `e8`, for E8M0 scales (R239). -/
  | e8
  /-- A branch target of a pathfinder (R71). -/
  | branch
deriving DecidableEq, Repr

/-- A register field. -/
def regField (file : Char) (lo : Nat) (t : Tok) : Option Nat :=
  match t with
  | .word s =>
    match register file ((files.lookup file).getD 0) s with
    | some k => if file = 'g' ∧ k = 0 then none else some (k * 2 ^ lo)
    | none => none
  | _ => none

/-- What stands between square brackets. -/
def bracketed (l : List Tok) : Option (List Tok) :=
  match l with
  | .sym '[' :: r => if r.getLast? = some (.sym ']') then some r.dropLast else none
  | _ => none

/-- OFFS16 of `+ e`, of `- e` where that is a form, and of nothing. -/
def offset16 (c : Context) (minus : Bool) (l : List Tok) : Option Nat :=
  let put (z : Int) := field 32 16 (-32768) 32767 z
  match l with
  | .sym '+' :: e => (intValue c.env e).bind put
  | .sym '-' :: e => if minus then (intValue c.env e).bind fun z => put (-z) else none
  | _ => none

/-- The sum of two parts of a word, where both are given. -/
def both (a b : Option Nat) : Option Nat := a.bind fun x => b.map (x + ·)

/-- The bits of an operand; none where the operand is not of the form. -/
def Operand.read (c : Context) (o : Operand) (l : List Tok) : Option Nat :=
  match o, l with
  | .reg f lo, [t] => regField f lo t
  | .num lo len low high bias, _ => (intValue c.env l).bind fun z => if low ≤ z ∧ z ≤ high then some (wrapInt len (z + bias) * 2 ^ lo) else none
  | .mem, _ =>
    match bracketed l with
    | some [t] => regField 's' 13 t
    | some (t :: r) => both (regField 's' 13 t) (offset16 c true r)
    | _ => none
  | .gather, _ =>
    match bracketed l with
    | some (t :: r) =>
      match r.reverse with
      | v :: .sym '+' :: e => both (regField 's' 13 t) (both (regField 'v' 18 v) (offset16 c false e.reverse))
      | _ => none
    | _ => none
  | .buffer, .word sp :: .sym ':' :: r =>
    match spaces.lookup sp with
    | some k =>
      if k < 2 then none
      else (match bracketed r with
        | some (t :: e) => both (regField 's' 13 t) (offset16 c false e)
        | some [] => none
        | none => offset16 c false (.sym '+' :: r)).map (· + k * 2 ^ 51)
    | none => none
  | .base, [t] => regField 's' 13 t
  | .base, [.word sp, .sym ':', t] =>
    (spaces.lookup sp).bind fun k => (if t = .int 0 then some 0 else regField 's' 13 t).map (· + k * 2 ^ 45)
  | .extent, _ =>
    let addend (e : List Tok) := (intValue c.env e).bind (field 36 9 0 511)
    match l with
    | t :: .sym '+' :: e => if (regField 's' 18 t).isSome then both (regField 's' 18 t) (addend e) else addend l
    | _ => addend l
  | .element lo, w :: r =>
    match bracketed r with
    | some [t] => both (regField 'w' 13 w) (regField 's' lo t)
    | some (t :: e) => both (regField 'w' 13 w) (both (regField 's' lo t) (offset16 c false e))
    | _ => none
  | .region, .word "c" :: .sym ':' :: e => (intValue c.env e).bind (field 32 10 0 1023)
  | .target, _ =>
    match labelValue c.env l with
    | some (.text, off) => if off < c.length then field 32 24 (-8388608) 8388607 (((off : Int) - c.offset - 8) / 8) else none
    | _ => none
  | .pcRelative, _ =>
    match labelValue c.env l with
    | some (s, off) => (c.place s off).bind fun a => field 23 32 (-2147483648) 2147483647 (a - c.address)
    | none => none
  | .control, _ =>
    match l with
    | [.word s] => match controlNames.lookup s with
      | some k => some (k * 2 ^ 32)
      | none => (intValue c.env l).bind (field 32 12 0 4095)
    | _ => (intValue c.env l).bind (field 32 12 0 4095)
  | .scale, [t] => (regField 's' 13 t).map (· + 2 ^ 30)
  | .e8, [.word "e8"] => some (2 ^ 37)
  | .branch, _ =>
    match labelValue c.env l with
    | some (.pathfinder, off) =>
      if off < c.length then field 18 14 (-8192) 8191 (((off : Int) - c.offset - 4) / 4) else none
    | _ => none
  | _, _ => none

/-- The bits of the operands of a form. -/
def readAll (c : Context) : List Operand → List (List Tok) → Option Nat
  | [], [] => some 0
  | o :: os, l :: ls => both (o.read c l) (readAll c os ls)
  | _, _ => none

/-! ### Suffixes (R410, R411) -/

/-- A suffix class as a form accepts it: one of several spellings, with the bits of its absence where it may be absent; the two
types of `vcvt`; the one or two of `cread`. -/
inductive Suffix where
  | one (names : Choice) (absent : Option Nat)
  | convert
  | readout
deriving DecidableEq, Repr

/-- The binary8 names with their storage codes (R34, R410). -/
def binary8 : Choice :=
  (["", "x", "n", "nx"].zipIdx.flatMap fun v =>
    ["1", "2", "3", "4", "5", "6", "7"].zipIdx.map fun p => ("b8p" ++ p.1 ++ v.1, 4 + 7 * v.2 + p.2))

/-- TYPE at a bit position, with the storage code of a binary8 name at another. -/
def typesWith (lo b8 : Nat) : Choice := types lo (List.range 14) ++ binary8.map fun e => (e.1, 14 * 2 ^ lo + e.2 * 2 ^ b8)

/-- The spellings that a class owns. -/
def Suffix.owns (s : Suffix) (x : String) : Bool :=
  match s with
  | .one names _ => names.any (·.1 == x)
  | .convert | .readout => (typesWith 0 0).any (·.1 == x)

/-- The bits of a class, from the suffixes of a mnemonic in their order. -/
def Suffix.bits (s : Suffix) (l : List String) : Option Nat :=
  match s, l.filter s.owns with
  | .one _ absent, [] => absent
  | .one names _, [x] => names.lookup x
  | .convert, [d, x] => both ((typesWith 32 18).lookup d) ((typesWith 28 18).lookup x)
  | .readout, [t] => (typesWith 45 23).lookup t
  | .readout, [x, y] =>
    let kinds : Choice := [("i32", 2 ^ 28), ("f64", 2 ^ 29)]
    match kinds.lookup x, kinds.lookup y with
    | some k, _ => ((typesWith 45 23).lookup y).map (· + k)
    | none, some k => ((typesWith 45 23).lookup x).map (· + k)
    | none, none => none
  | _, _ => none

/-- A form of a mnemonic: the bits that it fixes, the classes of its suffixes, its operands, and which of them may be left out. -/
structure Form where
  name : String
  base : Nat
  suffixes : List Suffix := []
  operands : List Operand := []
  optional : Option Nat := none
deriving DecidableEq, Repr

/-- The bits of the suffixes; none where one is not accepted, is there twice, or is lacking. -/
def Form.suffixBits (f : Form) (l : List String) : Option Nat :=
  if l.all fun x => f.suffixes.any (·.owns x) then f.suffixes.foldl (fun n s => both n (s.bits l)) (some 0) else none

/-- The bits of the operands; an optional one that is left out encodes 0. -/
def Form.operandBits (f : Form) (c : Context) (l : List (List Tok)) : Option Nat :=
  match f.optional with
  | some i => if l.length + 1 = f.operands.length then readAll c (f.operands.eraseIdx i) l else readAll c f.operands l
  | none => readAll c f.operands l

/-! ### The classes and fields that forms share -/

def flag (name : String) (bit : Nat) : Suffix := .one [(name, 2 ^ bit)] (some 0)
def selector (c : Choice) : Suffix := .one c none
/-- TYPE of formats A and I. -/
def tyA : Suffix := .one (types 32 (List.range 14)) none
def tyI : Suffix := .one (types 18 (List.range 14)) none
/-- TYPE and SIZE of a memory access (R27), and of a scalar and a vector access through a view (R238). -/
def tyM : Suffix := .one (memTypes (List.range 14)) none
def tyElement : Suffix := .one (memTypes (List.range 15)) none
def tyV : Suffix := .one (vecTypes (List.range 14)) none
def tyVElement : Suffix := .one (vecTypes (List.range 15)) none
def cond (lo : Nat) : Suffix := .one (forms lo conditions) none
def sat : Suffix := flag "sat" 39
def nf : Suffix := flag "nf" 59
def rounding (lo : Nat) : Suffix := .one (forms lo ["rne", "rtz", "rdn", "rup", "rmm"] ++ [("dyn", 7 * 2 ^ lo)]) (some 0)
/-- Orders at a bit position (R39). -/
def orders (lo : Nat) : Choice := [("acq", 2 ^ lo), ("rel", 2 * 2 ^ lo), ("acqrel", 3 * 2 ^ lo)]
def order (lo : Nat) : Suffix := .one (orders lo) (some 0)
def acquire : Suffix := flag "acq" 54
def release : Suffix := flag "rel" 55
/-- Scopes at a bit position, device by default (R38). -/
def scope (lo : Nat) : Suffix := .one (forms lo ["slot", "core", "cluster", "die", "device", "fabric"]) (some (4 * 2 ^ lo))
def glade : Suffix := .one (["row", "cluster", "die", "device"].zipIdx.map fun e => (e.1, (e.2 + 1) * 2 ^ 28)) (some 0)
/-- The split granule, 64 KiB by default (R250). -/
def split : Suffix := .one (forms 47 ["g0", "g4k", "g16k", "g64k", "g256k", "g1m", "g4m"]) (some (3 * 2 ^ 47))
def mailbox : Suffix := .one [("mbx", 2 ^ 46)] none

def sD : Operand := .reg 's' 8
def sA : Operand := .reg 's' 13
def sB : Operand := .reg 's' 18
def sC : Operand := .reg 's' 23
def vD : Operand := .reg 'v' 8
def vA : Operand := .reg 'v' 13
def vB : Operand := .reg 'v' 18
def kM : Operand := .reg 'k' 23
def wD : Operand := .reg 'w' 8
def wA : Operand := .reg 'w' 13
def tD : Operand := .reg 't' 8
def tA : Operand := .reg 't' 13
def tB : Operand := .reg 't' 18
def imm32 : Operand := .num 23 32 (-2147483648) 2147483647 0
def mask32 : Operand := .num 23 32 0 4294967295 0
def dim : Operand := .num 36 2 0 3 0
def tag : Operand := .num 50 6 0 63 0

/-! ### The forms -/

/-- The scalar instructions and control (06). -/
def scalarForms : List Form :=
  ([("add", 0x01), ("sub", 0x03), ("mul", 0x04)].map fun e => ⟨e.1, e.2, [tyA, sat], [sD, sA, sB], none⟩)
  ++ ([("mulh", 0x05), ("div", 0x06), ("rem", 0x07), ("and", 0x08), ("or", 0x0A), ("xor", 0x0C), ("shl", 0x0E), ("shr", 0x10),
       ("sra", 0x12), ("min", 0x14), ("max", 0x15)].map fun e => ⟨e.1, e.2, [tyA], [sD, sA, sB], none⟩)
  ++ ([("clz", 0x18), ("ctz", 0x19), ("popc", 0x1A)].map fun e => ⟨e.1, e.2, [tyA], [sD, sA], none⟩)
  ++ ([("addi", 0x02), ("andi", 0x09), ("ori", 0x0B), ("xori", 0x0D), ("shli", 0x0F), ("shri", 0x11), ("srai", 0x13)].map fun e =>
       ⟨e.1, e.2, [tyI], [sD, sA, imm32], none⟩)
  ++ [⟨"cset", 0x16, [cond 28, tyA], [sD, sA, sB], none⟩, ⟨"gset", 0x36, [cond 28, tyA], [.reg 'g' 8, sA, sB], none⟩,
      ⟨"csel", 0x17, [], [sD, sA, sB, sC], none⟩, ⟨"bext", 0x1B, [flag "s" 28], [sD, sA, sB], none⟩,
      ⟨"bins", 0x1C, [], [sD, sA, sB], none⟩, ⟨"li", 0x1D, [], [sD, imm32], none⟩,
      ⟨"lih", 0x1E, [], [sD, .num 23 32 (-2147483648) 4294967295 0], none⟩, ⟨"addpc", 0x1F, [], [sD, .pcRelative], none⟩,
      ⟨"br", 0x30, [], [.target], none⟩, ⟨"jmp", 0x31, [], [.target], none⟩, ⟨"jr", 0x32, [], [sA], none⟩,
      ⟨"call", 0x33, [], [sD, .target], none⟩, ⟨"callr", 0x34, [], [sD, sA], none⟩,
      ⟨"rep", 0x35, [], [sA, .num 23 4 1 16 (-1), .num 27 5 0 31 0], none⟩,
      ⟨"gclr", 0x37, [.one [("true", 2 ^ 28), ("inv", 2 ^ 29)] (some 0)], [.reg 'g' 8], none⟩,
      ⟨"rgn", 0x38, [], [], none⟩, ⟨"end", 0x39, [], [], none⟩, ⟨"nop", 0x3A, [], [], none⟩,
      ⟨"brk", 0x3B, [], [.num 23 16 0 65535 0], none⟩]

/-- Memory and synchronisation (09, 13). -/
def memoryForms : List Form :=
  [⟨"ld", 0x40, [tyM, acquire, scope 51], [sD, .mem], none⟩, ⟨"st", 0x41, [tyM, release, scope 51], [.mem, sB], none⟩,
   ⟨"bld", 0x45, [tyM], [sD, .buffer], none⟩, ⟨"bst", 0x46, [tyM], [.buffer, sB], none⟩,
   ⟨"pf", 0x44, [.one (forms 28 ["l1", "die", "w"]) (some 0)], [.mem], none⟩,
   ⟨"cln", 0x47, [flag "inv" 28, scope 51], [.mem], none⟩,
   ⟨"wld", 0x42, [tyElement, acquire, scope 51], [sD, .element 18], none⟩,
   ⟨"wst", 0x43, [tyElement, release, scope 51], [.element 8, sB], none⟩,
   ⟨"vwld", 0x88, [tyVElement, acquire, scope 51], [vD, .element 18, kM], some 2⟩,
   ⟨"vwst", 0x89, [tyVElement, release, scope 51], [.element 8, vB, kM], some 2⟩,
   ⟨"amo", 0x50, [selector (forms 23 ["add", "and", "or", "xor", "smin", "smax", "nmin", "nmax", "swap"]), tyM, order 54, scope 51],
     [sD, .mem, sB], none⟩,
   ⟨"cas", 0x51, [tyM, order 54, scope 51], [sD, .mem, sB, sC], none⟩,
   ⟨"cas2", 0x52 + 7 * 2 ^ 28 + 4 * 2 ^ 48, [order 54, scope 51], [sD, .mem, sB, sC], none⟩,
   ⟨"fence", 0x53, [.one (orders 43) none, scope 40], [], none⟩,
   ⟨"barr", 0x54 + 4 * 2 ^ 48 + 3 * 2 ^ 54, [scope 51], [sD, .mem], none⟩,
   ⟨"wfv", 0x55, [cond 23, tyM, acquire, scope 51], [sD, .mem, sB], none⟩]

/-- The vector instructions (08). -/
def vectorForms : List Form :=
  ([("vadd", 0x60), ("vsub", 0x61), ("vmul", 0x62), ("vfma", 0x63), ("vfms", 0x64), ("vdot", 0x7E)].map fun e =>
    ⟨e.1, e.2, [tyA, sat, rounding 36, nf], [vD, vA, vB, kM], some 3⟩)
  ++ ([("vmin", 0x65), ("vmax", 0x66)].map fun e => ⟨e.1, e.2, [tyA, nf], [vD, vA, vB, kM], some 3⟩)
  ++ ([("vabs", 0x67), ("vneg", 0x68), ("vclass", 0x87)].map fun e => ⟨e.1, e.2, [tyA], [vD, vA, kM], some 2⟩)
  ++ ([("vand", 0x69), ("vor", 0x6A), ("vxor", 0x6B)].map fun e => ⟨e.1, e.2, [], [vD, vA, vB, kM], some 3⟩)
  ++ ([("vshl", 0x6C), ("vshr", 0x6D), ("vsra", 0x6E), ("vperm", 0x74), ("vperm2", 0x74 + 2 ^ 28)].map fun e =>
       ⟨e.1, e.2, [tyA], [vD, vA, vB, kM], some 3⟩)
  ++ ([("vrcp", 0x78), ("vrsqrt", 0x79), ("vexp2", 0x7A), ("vlog2", 0x7B), ("vsqrt", 0x7C)].map fun e =>
       ⟨e.1, e.2, [tyA, rounding 36, nf], [vD, vA, kM], some 2⟩)
  ++ ([("vred", 0x72), ("vscan", 0x73)].map fun e =>
       ⟨e.1, e.2, [selector (forms 28 ["sum", "min", "max", "and", "or", "xor"]), tyA, rounding 36, nf], [vD, vA, kM], some 2⟩)
  ++ [⟨"vcmp", 0x6F, [cond 28, tyA, nf], [.reg 'k' 8, vA, vB, kM], some 3⟩, ⟨"vsel", 0x70, [], [vD, vA, vB, kM], none⟩,
      ⟨"vmov", 0x7F, [], [vD, vA, kM], some 2⟩, ⟨"vbcast", 0x75, [tyA], [vD, sA, kM], some 2⟩,
      ⟨"vext", 0x76, [tyA], [sD, vA, sB], none⟩, ⟨"vins", 0x77, [tyA], [vD, sA, sB], none⟩,
      ⟨"vcvt", 0x71, [.convert, sat, rounding 36, nf], [vD, vA, kM], some 2⟩,
      ⟨"vdiv", 0x7D, [tyA, rounding 36, nf], [vD, vA, vB, kM], some 3⟩,
      ⟨"kop", 0x86, [selector (forms 28 ["and", "or", "xor", "andn"])], [.reg 'k' 8, .reg 'k' 13, .reg 'k' 18], none⟩,
      ⟨"kop", 0x86, [selector [("not", 4 * 2 ^ 28)]], [.reg 'k' 8, .reg 'k' 13], none⟩,
      ⟨"kop", 0x86, [selector [("set", 5 * 2 ^ 28)]], [.reg 'k' 8, sA], none⟩,
      ⟨"kop", 0x86, [selector [("get", 6 * 2 ^ 28), ("cnt", 7 * 2 ^ 28), ("first", 8 * 2 ^ 28)]], [sD, .reg 'k' 13], none⟩,
      ⟨"vld", 0x80, [tyV, acquire, scope 51], [vD, .mem, kM], some 2⟩, ⟨"vst", 0x81, [tyV, release, scope 51], [.mem, vB, kM], some 2⟩,
      ⟨"vgath", 0x82, [tyV, acquire, scope 51], [vD, .gather, kM], some 2⟩,
      ⟨"vscat", 0x83, [tyV, release, scope 51], [.gather, vD, kM], some 2⟩,
      ⟨"vbld", 0x84, [tyV], [vD, .buffer, kM], some 2⟩, ⟨"vbst", 0x85, [tyV], [.buffer, vB, kM], some 2⟩]

/-- The tile instructions (11). -/
def tileForms : List Form :=
  [⟨"tcfg", 0x90, [], [tD, sA], none⟩, ⟨"tcfg", 0x90, [selector [("get", 2 ^ 28)]], [sD, tA], none⟩,
   ⟨"tclaim", 0x91, [flag "try" 28], [sD, sA], none⟩, ⟨"tfree", 0x92, [], [sA], none⟩,
   ⟨"tld", 0x93, [flag "kd1" 28, flag "b" 29], [tD, wA], none⟩,
   ⟨"tst", 0x94, [flag "kd1" 28, .one (typesWith 45 23) none], [wD, tA], none⟩, ⟨"tzero", 0x95, [], [tD], none⟩,
   ⟨"mma", 0x96, [flag "z" 28, flag "wrap" 53, nf], [.region, tA, tB], none⟩,
   ⟨"mmg", 0x97, [flag "z" 28, flag "wrap" 53, nf], [sD, .region, tA, tB], none⟩,
   ⟨"dmma", 0x98, [flag "z" 28, nf], [.region, tA, tB], none⟩,
   ⟨"tscl", 0x99, [selector [("f32", 0), ("f64", 2 ^ 28)], rounding 50, nf], [.region, sA], none⟩,
   ⟨"ttr", 0x9A, [flag "swap" 28, flag "flip" 29], [tD, tA], none⟩,
   ⟨"cread", 0x9B, [.readout, flag "sat" 49, rounding 50, nf], [vD, .region, .scale], some 2⟩]

/-- The view instructions (09) and the engine commands (10); a command has a tag, or with `.mbx` the register of a handle. -/
def viewForms : List Form :=
  [⟨"wset", 0xA0, [.one (typesWith 32 50) none], [wD, .base, .extent], none⟩,
   ⟨"wset", 0xA0, [selector [("dim", 2 ^ 28)]], [wD, dim, sA, sB], none⟩,
   ⟨"wset", 0xA0, [selector [("scl", 2 ^ 29)]], [wD, sA, sB, sC, .num 36 1 0 1 0, .e8], some 5⟩,
   ⟨"wset", 0xA0 + 5 * 2 ^ 45, [selector [("sreg", 3 * 2 ^ 28)], .one (types 32 (List.range 14)) none], [wD, sA, sB], none⟩,
   ⟨"wopen", 0xA1, [selector [("r", 2 ^ 48), ("w", 2 ^ 49)], scope 36], [wD], none⟩, ⟨"wretire", 0xA2, [flag "free" 28], [wD], none⟩,
   ⟨"wbind", 0xA3, [], [vD, wA], none⟩, ⟨"wunbind", 0xA4, [], [vD], none⟩, ⟨"weos", 0xA5, [], [vD], none⟩,
   ⟨"wsub", 0xA6, [], [wD, wA, dim, sB, sC], none⟩, ⟨"wtest", 0xA7, [], [sD, wA, .reg 'w' 18], none⟩,
   ⟨"wtest", 0xA7, [selector [("state", 2 ^ 28), ("base", 2 ^ 29)]], [sD, wA], none⟩]
  ++ ([([], tag), ([mailbox], sC)].flatMap fun e =>
    [⟨"cpy", 0xB0, e.1 ++ [split, scope 43], [wD, wA, e.2], none⟩,
     ⟨"cpys", 0xB1, e.1 ++ [selector [("add", 0), ("set", 2 ^ 28)], split, scope 43], [wD, wA, sB, e.2], none⟩,
     ⟨"coll", 0xB2, e.1 ++ [selector (forms 28 ["sum", "max", "min", "gather", "rsum", "bcast"]), split, scope 43],
       [wD, wA, sB, e.2], none⟩,
     ⟨"cfill", 0xB7, e.1 ++ [split, scope 43], [wD, sA, e.2], none⟩])
  ++ [⟨"twany", 0xB3, [flag "hi" 18], [sD, sA, mask32], some 1⟩, ⟨"twall", 0xB4, [flag "hi" 18], [sA, mask32], some 0⟩,
      ⟨"tfirst", 0xB5, [flag "hi" 18], [sD, sA, mask32], some 1⟩, ⟨"tclr", 0xB6, [flag "hi" 18], [sA, mask32], some 0⟩]

/-- Work, and the system instructions (05, 15, 17). -/
def systemForms : List Form :=
  [⟨"fork", 0xC0, [glade, flag "u" 31], [sD, .target], none⟩, ⟨"forkc", 0xC1, [glade, flag "u" 31], [sD, sA, .target], none⟩,
   ⟨"forkg", 0xC2, [], [sD, sA, .target], none⟩, ⟨"join", 0xC3, [glade, flag "u" 31], [sD, sA, .target], some 0⟩,
   ⟨"send", 0xC4, [], [sD, sA, vB], none⟩, ⟨"spawn", 0xC5, [glade, flag "u" 31], [sD, sA, sB, .target], none⟩,
   ⟨"qinfo", 0xC6, [selector (forms 28 ["depth", "pending", "room", "clusters", "live", "gangrows", "place", "glade", "launch",
     "drops", "die"])], [sD], none⟩,
   ⟨"trap", 0xD0, [], [.num 32 12 0 4095 0, sA], some 1⟩, ⟨"ctrlr", 0xD1, [], [sD, .control], none⟩,
   ⟨"ctrlw", 0xD2, [], [.control, sA], none⟩, ⟨"tret", 0xD3, [selector [("take", 0)]], [vD], none⟩,
   ⟨"tret", 0xD3, [selector [("defer", 2 ^ 28), ("release", 3 * 2 ^ 28)]], [sA], none⟩,
   ⟨"tret", 0xD3, [selector [("term", 2 ^ 29)]], [sA, sB], none⟩, ⟨"tlbw", 0xD4, [], [sD, sA, sB], none⟩,
   ⟨"tlbi", 0xD5, [selector [("page", 0)]], [sA, sB], none⟩, ⟨"tlbi", 0xD5, [selector [("asid", 2 ^ 28)]], [sB], none⟩,
   ⟨"tlbi", 0xD5, [selector [("all", 2 ^ 29)]], [], none⟩, ⟨"mbind", 0xD6, [], [sD, sA, sB], none⟩,
   ⟨"mbind", 0xD6, [selector [("un", 2 ^ 28)]], [sD, sA], none⟩, ⟨"qsave", 0xD7, [], [sD, sA, sB, sC], none⟩,
   ⟨"qrest", 0xD8, [], [sD, sA, sB, sC], none⟩,
   ⟨"reprw", 0xD9, [selector (forms 28 ["get", "add", "apply"])], [sD, sA], none⟩,
   ⟨"reprw", 0xD9, [selector [("clr", 3 * 2 ^ 28)]], [], none⟩, ⟨"reprw", 0xD9, [selector [("sum", 4 * 2 ^ 28)]], [sD], none⟩,
   ⟨"halt", 0xDA, [], [], none⟩, ⟨"cinv", 0xDB, [selector [("i", 0)]], [sA, sB], none⟩,
   ⟨"cinv", 0xDB, [selector [("d", 2 ^ 28)]], [sA], none⟩]

/-- Every Ronid form. -/
def ronidForms : List Form := scalarForms ++ memoryForms ++ vectorForms ++ tileForms ++ viewForms ++ systemForms

/-- The Milestone forms (R71). -/
def milestoneForms : List Form :=
  let md : Operand := .reg 'm' 6
  let ma : Operand := .reg 'm' 10
  let mb : Operand := .reg 'm' 14
  let imm : Operand := .num 18 14 (-8192) 8191 0
  [⟨"HALT", 0x00, [], [], none⟩, ⟨"LDI", 0x01, [], [md, imm], none⟩, ⟨"LDH", 0x02, [], [md, .num 18 14 0 16383 0], none⟩,
   ⟨"MOV", 0x03, [], [md, ma], none⟩, ⟨"ADDI", 0x05, [], [md, ma, imm], none⟩, ⟨"STS", 0x0F, [], [mb, ma, imm], none⟩,
   ⟨"JMP", 0x13, [], [.branch], none⟩, ⟨"WAY", 0x14, [], [md, ma], none⟩, ⟨"EMIT", 0x15, [], [ma], none⟩]
  ++ ([("ADD", 0x04), ("SUB", 0x06), ("AND", 0x07), ("OR", 0x08), ("XOR", 0x09), ("SHL", 0x0A), ("SHR", 0x0B)].map fun e =>
       ⟨e.1, e.2, [], [md, ma, mb], none⟩)
  ++ ([("INB", 0x0C), ("INW", 0x0D), ("LDS", 0x0E)].map fun e => ⟨e.1, e.2, [], [md, ma, imm], none⟩)
  ++ ([("BEQ", 0x10), ("BNE", 0x11), ("BLT", 0x12)].map fun e => ⟨e.1, e.2, [], [ma, mb, .branch], none⟩)

/-! ### Instructions (R406, R412, R416, R417) -/

/-- An instruction line: its guard (0 for none), mnemonic, suffixes, operands, and what stands after `la`. -/
structure Line where
  guard : Nat := 0
  name : String
  suffixes : List String := []
  operands : List (List Tok) := []
  la : Option (List Tok) := none
deriving DecidableEq, Repr

/-- The form whose suffixes a line has, with the bits that these give (R410, R411). -/
def Line.form (l : Line) : Option (Form × Nat) :=
  ronidForms.findSome? fun f => if f.name == l.name then (f.suffixBits l.suffixes).map (f, ·) else none

/-- The word of a Ronid line before the checks of R417: its form, suffixes, operands, lookahead and guard. -/
def Line.word (c : Context) (l : Line) : Option Nat :=
  match l.form with
  | some (f, n) =>
    (both (match l.la with
        | some e => (intValue c.env e).bind (field 60 4 0 15)
        | none => some 0) (f.operandBits c l.operands)).map (f.base + n + · + l.guard * 2 ^ 56)
  | none => none

/-- The word of a Ronid line at a level, if it passes checks 1 and 2 of R20 and its level is not above the source's (R417). -/
def ronidWord (c : Context) (level : Nat) (l : Line) : Option Nat :=
  match l.word c with
  | some w =>
    match decodeRonid w with
    | .ok i => if opcodeLevel i ≤ level then some w else none
    | .error _ => none
  | none => none

/-- The word of a Milestone line (R71): it has no guard, no suffix and no lookahead. -/
def milestoneWord (c : Context) (l : Line) : Option Nat :=
  if l.guard = 0 ∧ l.suffixes = [] ∧ l.la = none then
    match milestoneForms.find? fun f => f.name == l.name with
    | some f =>
      match f.operandBits c l.operands with
      | some m =>
        match decodeMilestone (f.base + m) with
        | .ok _ => some (f.base + m)
        | .error _ => none
      | none => none
    | none => none
  else none

end Sys2Proof.Asm
end

