-- ==== Sys2Proof/Machine/Assembler.lean ====
section
/-! DEFINITION. `ronas` (20 R406 to R419; 01 R16, R17): lines, the layout of sections, directives, the breaches it reports, and the
code object or firmware body it writes (03 R53 to R57). -/

namespace Sys2Proof.Asm

open Sys2Proof Sys2Proof.Machine

/-! ### Lines (R406, R413) -/

/-- What a line holds beside its label. -/
inductive Stmt where
  | empty
  | instr (l : Line)
  | directive (name : String) (args : List (List Tok))
deriving DecidableEq, Repr

/-- A source line: its number, the section it stands in, its label, and its statement; none where it has not the form of R406. -/
structure Source where
  num : Nat
  sect : Sect
  label : Option String
  stmt : Option Stmt
deriving DecidableEq, Repr

/-- Operands, and a trailing `la e` that a comma separates from what is before it. -/
def operandsOf (r : List Tok) : List (List Tok) × Option (List Tok) :=
  let tidy (l : List (List Tok)) := if l = [[]] then [] else l
  match (splitAt ',' r).reverse with
  | (.word "la" :: e) :: o :: os => (tidy (o :: os).reverse, some e)
  | l => (tidy l.reverse, none)

/-- An instruction line with a guard, or a directive, which no directive's form gives a lookahead (R413). -/
def statement (guard : Nat) (m : String) (r : List Tok) : Option Stmt :=
  match parts m with
  | [] => none
  | "" :: _ => if guard = 0 && (operandsOf r).2.isNone then some (.directive m (operandsOf r).1) else none
  | name :: suffixes => some (.instr { guard, name, suffixes, operands := (operandsOf r).1, la := (operandsOf r).2 })

/-- The guard, mnemonic and operands of a line after its label. -/
def body (l : List Tok) : Option Stmt :=
  match l with
  | [] => some .empty
  | .sym '(' :: .word g :: .sym ')' :: .word m :: r =>
    match register 'g' 8 g with
    | some (k + 1) => statement (k + 1) m r
    | _ => none
  | .word m :: r => statement 0 m r
  | _ => none

/-- The label and the statement of a line. -/
def parseLine (s : List Char) : Option String × Option Stmt :=
  match lex (s.length + 1) s with
  | some (.word x :: .sym ':' :: r) => if isName x then (some x, body r) else (none, none)
  | some l => (none, body l)
  | none => (none, none)

/-- The section that a directive switches to (R413). -/
def switches (s : Option Stmt) : Option Sect :=
  match s with
  | some (.directive ".text" _) => some .text
  | some (.directive ".data" _) => some .data
  | some (.directive ".pathfinder" _) => some .pathfinder
  | some (.directive ".private" _) => some .priv
  | _ => none

/-- The lines of a source, each with the section it stands in; the first section is text (R16). -/
def parse (src : String) : List Source :=
  ((splitLines src.toList).zipIdx.foldl (fun (acc : List Source × Sect) e =>
    let p := parseLine e.1
    (acc.1 ++ [{ num := e.2 + 1, sect := acc.2, label := p.1, stmt := p.2 }], (switches p.2).getD acc.2)) ([], .text)).1

/-- The arguments of a line that is a directive of a name. -/
def Source.args (l : Source) (name : String) : Option (List (List Tok)) :=
  match l.stmt with
  | some (.directive n args) => if n = name then some args else none
  | _ => none

/-- The names that a line defines. -/
def Source.names (l : Source) : List String :=
  l.label.toList ++ (match l.args ".equ" with
    | some ([.word s] :: _) => [s]
    | _ => [])

/-! ### Names and layout (R407, R414, R418) -/

/-- The constants and labels of a source. -/
structure Names where
  equs : List (String × List Tok) := []
  labels : List (String × Sect × Nat) := []

/-- The value of a name; a constant may be used before its line, and its value is an integer. -/
def Names.find (d : Names) : Nat → String → Option Val
  | 0, _ => none
  | n + 1, s =>
    match d.labels.lookup s with
    | some (t, off) => some (.label t off)
    | none => (d.equs.lookup s).bind fun e => (intValue (d.find n) e).map .int

/-- The value of a name, through as many constants as there are. -/
def Names.env (d : Names) (s : String) : Option Val := d.find (d.equs.length + 1) s

/-- Bytes of an element of an integer directive, and of a float directive with its format (R413, R419). -/
def integerSize (name : String) : Option Nat :=
  [(".i8", 1), (".i16", 2), (".i32", 4), (".i64", 8), (".n8", 1), (".n16", 2), (".n32", 4), (".n64", 8)].lookup name
def floatFormat (name : String) : Option NumFmt :=
  [(".f16", NumFmt.ieee 16 10), (".bf16", .ieee 16 7), (".f32", .ieee 32 23), (".f64", .ieee 64 52)].lookup name

/-- Bytes of an instruction of a section. -/
def unit (s : Sect) : Nat := match s with | .text => 8 | _ => 4

/-- What a line takes in its section: the alignment, the bytes, and whether it is an item that a label before it names; none where
the value of `.align` or `.zero` is not known. -/
def extent (env : String → Option Val) (l : Source) : Option (Nat × Nat × Bool) :=
  match l.stmt with
  | some (.instr _) =>
    match l.sect with
    | .text | .pathfinder => some (unit l.sect, unit l.sect, true)
    | _ => some (1, 0, false)
  | some (.directive n args) =>
    match integerSize n, floatFormat n with
    | some k, _ => some (k, k * args.length, true)
    | none, some f => some (f.width / 8, f.width / 8 * args.length, true)
    | none, none =>
      match n, args with
      | ".zero", [e] => (intValue env e).bind fun z => if 0 ≤ z ∧ z ≤ 2 ^ 28 then some (1, z.toNat, true) else none
      | ".align", [e] => (intValue env e).bind fun z =>
          if 1 ≤ z ∧ z ≤ 65536 ∧ 2 ^ Nat.log2 z.toNat = z.toNat then some (z.toNat, 0, false) else none
      | _, _ => some (1, 0, false)
  | _ => some (1, 0, false)

/-- What a line takes, where one whose value is in breach takes nothing. -/
def taken (env : String → Option Val) (l : Source) : Nat × Nat × Bool := (extent env l).getD (1, 0, false)

/-- The offsets reached in the sections while lines are laid out; labels that wait for the next item of their section; and the labels
placed. -/
structure Layout where
  offsets : List (Sect × Nat) := []
  waiting : List (String × Sect) := []
  labels : List (String × Sect × Nat) := []

/-- The offset reached in a section. -/
def Layout.offset (y : Layout) (s : Sect) : Nat := (y.offsets.lookup s).getD 0

/-- The labels that wait in a section stand at an offset. -/
def Layout.place (y : Layout) (s : Sect) (n : Nat) : Layout :=
  { y with waiting := y.waiting.filter (·.2 ≠ s)
           labels := y.labels ++ (y.waiting.filter (·.2 = s)).map fun e => (e.1, s, n) }

/-- Where a line starts in its section: at the next multiple of its alignment. -/
def Layout.start (y : Layout) (env : String → Option Val) (l : Source) : Nat :=
  (y.offset l.sect + (taken env l).1 - 1) / (taken env l).1 * (taken env l).1

/-- One line is laid out (R418). -/
def Layout.line (env : String → Option Val) (y : Layout) (l : Source) : Layout :=
  let y := { y with waiting := y.waiting ++ l.label.toList.map fun x => (x, l.sect) }
  let n := y.start env l
  let y := if (taken env l).2.2 then y.place l.sect n else y
  { y with offsets := (l.sect, n + (taken env l).2.1) :: y.offsets.filter (·.1 ≠ l.sect) }

/-- A source laid out, with labels at the end of their sections too. -/
def layOut (env : String → Option Val) (ls : List Source) : Layout :=
  [Sect.text, .data, .pathfinder, .priv].foldl (fun y s => y.place s (y.offset s)) (ls.foldl (Layout.line env) {})

/-- The names of a source. A size may depend on labels that stand after it: the layout starts from sizes of 0 and is repeated, one round
for each line that has such a size and more, until it gives the labels that it was made with. Where it does not, sizes depend on
themselves, and every line that uses a label is in breach (log entry 101). -/
def namesOf (ls : List Source) : Names :=
  let equs := ls.filterMap fun l => match l.args ".equ" with
    | some [[.word s], e] => some (s, e)
    | _ => none
  let sized := ls.countP fun l => (l.args ".zero").isSome || (l.args ".align").isSome
  let next (d : Names) : Names := { d with labels := (layOut d.env ls).labels }
  let d := (List.range (sized + 2)).foldl (fun d _ => next d) { equs }
  if (next d).labels = d.labels then d else { equs }

/-! ### The virtual region (R414) -/

/-- A boundary of 64 KiB at or above a number. -/
def pageUp (n : Nat) : Nat := (n + 65535) / 65536 * 65536

/-- What the source declares of itself: its level, the number of its exports, the lengths of its sections, and whether it has a
private section. -/
structure Plan where
  level : Nat
  exports : Nat
  length : Sect → Nat
  hasPrivate : Bool
  hasPathfinder : Bool

/-- The place of the first text word: after the entry header and the descriptors at task level. -/
def Plan.textStart (p : Plan) : Nat := if p.level = 0 then 8 * (p.exports + 1) else 0

/-- The place of the data section: the first 64 KiB boundary after the image and the private section's reserved range (R54). -/
def Plan.dataStart (p : Plan) : Nat :=
  let image := if p.length .text = 0 then 0 else p.textStart + p.length .text
  max (pageUp image) (if p.hasPrivate then max 0x400000 (pageUp (p.length .priv)) else 0)

/-- The place of a label in the object's virtual region; the pathfinder lies outside it. -/
def Plan.place (p : Plan) (s : Sect) (off : Nat) : Option Int :=
  match s with
  | .text => some (p.textStart + off : Nat)
  | .data => some (p.dataStart + off : Nat)
  | .priv => some off
  | .pathfinder => none

/-- The levels by name (R45). -/
def levels : List (String × Nat) := [("task", 0), ("service", 1), ("system", 2)]

/-- The level that a source declares; task when it declares none (R413). -/
def levelOf (ls : List Source) : Nat :=
  match (ls.findSome? fun l => l.args ".level" : Option (List (List Tok))) with
  | some [[.word x]] => (levels.lookup x).getD 0
  | _ => 0

/-- The plan of a source. -/
def planOf (d : Names) (ls : List Source) : Plan :=
  let y := layOut d.env ls
  { level := levelOf ls, exports := ls.countP fun l => (l.args ".export").isSome, length := y.offset
    hasPrivate := ls.any fun l => switches l.stmt == some .priv, hasPathfinder := ls.any fun l => switches l.stmt == some .pathfinder }

/-! ### Data (R419) -/

/-- An integer element of n bytes: its low bits, whatever the directive's signedness. -/
def integerBytes (env : String → Option Val) (n : Nat) (l : List Tok) : Option (List Byte) :=
  (intValue env l).bind fun z =>
    if -(2 ^ (8 * n - 1)) ≤ z ∧ z ≤ 2 ^ (8 * n) - 1 then some (leBytes n (wrapInt (8 * n) z)) else none

/-- A decimal number digits 10^scale as an exact value. -/
def decimal (neg : Bool) (digits : Nat) (scale : Int) : Exact :=
  if 0 ≤ scale then (Num.fin neg (digits * 10 ^ scale.toNat) 0).exact
  else exactDiv (.fin neg digits 0) (.fin false (10 ^ (-scale).toNat) 0)

/-- An exact value rounded once, with RNE; none where it overflows. -/
def roundOnce (f : NumFmt) (x : Exact) : Option Nat :=
  let r := f.deliver .rne false x
  if r.2.ovf then none else some r.1

/-- A float element: a decimal literal, an infinity, the canonical NaN, or an integer. -/
def floatCode (env : String → Option Val) (f : NumFmt) (l : List Tok) : Option Nat :=
  match l with
  | [.word "nan"] => some f.nanCode
  | [.word "inf"] => f.infCode false
  | [.sym '-', .word "inf"] => f.infCode true
  | [.float d e] => roundOnce f (decimal false d e)
  | [.sym '-', .float d e] => roundOnce f (decimal true d e)
  | _ => (intValue env l).bind fun z => roundOnce f (Num.ofInt z).exact

/-- The bytes of elements; none where one of them, or every one, is lacking. -/
def elements (one : List Tok → Option (List Byte)) (args : List (List Tok)) : Option (List Byte) :=
  if args.isEmpty then none else (args.mapM one).map List.flatten

/-! ### What each line gives (R413, R416, R418) -/

/-- The bytes that fill a gap: `nop` words in text, zero bytes elsewhere, which are HALT words in a pathfinder (R413). -/
def filler (s : Sect) (n : Nat) : List Byte :=
  match s with
  | .text => (List.replicate (n / 8) (leBytes 8 0x3A)).flatten
  | _ => List.replicate n 0

/-- The export numbers that lines declare. -/
def exportNumbers (env : String → Option Val) (ls : List Source) : List Int :=
  ls.filterMap fun l => match l.args ".export" with
    | some [e, _] => intValue env e
    | _ => none

/-- The keys that a section requires. -/
def keysOf (s : Sect) (ls : List Source) : List String :=
  ls.filterMap fun l => match l.sect == s, l.args ".requires" with
    | true, some [[.quoted k]] => some k
    | _, _ => none

/-- Where an export enters: a label of the text section, before its end (R62). -/
def exportTarget (d : Names) (p : Plan) (l : List Tok) : Option Nat :=
  match labelValue d.env l with
  | some (.text, off) => if off < p.length .text then some off else none
  | _ => none

/-- The bytes of a directive, which are none for one that only declares something; none where the line breaks a rule. The lines
before it decide whether it repeats one of them. -/
def directive (d : Names) (p : Plan) (before : List Source) (l : Source) (name : String) (args : List (List Tok)) :
    Option (List Byte) :=
  let env := d.env
  let ok (b : Bool) : Option (List Byte) := if b then some [] else none
  let inRange (e : List Tok) (low high : Int) : Bool :=
    match intValue env e with
    | some z => low ≤ z && z ≤ high
    | none => false
  let once : Bool := !before.any fun x => (x.args name).isSome
  let data : Bool := l.sect == .data || l.sect == .priv
  match integerSize name, floatFormat name with
  | some n, _ => if data then elements (integerBytes env n) args else none
  | none, some f => if data then elements (fun e => (floatCode env f e).map (leBytes (f.width / 8))) args else none
  | none, none =>
    match name, args with
    | ".text", [] | ".data", [] | ".pathfinder", [] | ".private", [] => some []
    | ".align", [e] =>
      match extent env l, intValue env e with
      | some _, some z => ok (match l.sect with | .text => 8 ≤ z | .pathfinder => 4 ≤ z | _ => true)
      | _, _ => none
    | ".zero", [_] =>
      match extent env l with
      | some x => if data then some (List.replicate x.2.1 0) else none
      | none => none
    | ".equ", [[.word s], e] => ok (isName s && (intValue env e).isSome)
    | ".export", [e, t] =>
      ok (l.sect == .text && p.level == 0 && inRange e 0 65535 && (exportTarget d p t).isSome
        && (exportNumbers env before).length < 255
        && (match intValue env e with | some z => !(exportNumbers env before).contains z | none => false))
    | ".requires", [[.quoted k]] => ok ((l.sect == .text || l.sect == .pathfinder) && !(keysOf l.sect before).contains k)
    | ".budget", [e] => ok (once && inRange e 0 (2 ^ 32 - 1))
    | ".keyindex", [e] => ok (once && inRange e 0 63)
    | ".level", [[.word x]] => ok (once && (levels.lookup x).isSome)
    | _, _ => none

/-- The bytes of a line that starts at an offset of its section. -/
def emit (d : Names) (p : Plan) (before : List Source) (l : Source) (offset : Nat) : Option (List Byte) :=
  let c : Context := { env := d.env, offset, address := (p.textStart + offset : Nat), place := p.place, length := p.length l.sect }
  if l.names.any fun x => before.any fun b => b.names.contains x then none
  else if l.names.length = 2 ∧ l.names.head? = l.names.getLast? then none
  else match l.stmt with
    | none => none
    | some .empty => some []
    | some (.directive name args) => directive d p before l name args
    | some (.instr x) =>
      match l.sect with
      | .text => (ronidWord c p.level x).map (leBytes 8)
      | .pathfinder => (milestoneWord c x).map (leBytes 4)
      | _ => none

/-- A line with its offset, the gap before it, the bytes it takes, and the bytes it gives. -/
structure Placed where
  line : Source
  offset : Nat
  gap : Nat
  size : Nat
  bytes : Option (List Byte)

/-- Every line of a source in its place. -/
def placed (d : Names) (p : Plan) (ls : List Source) : List Placed :=
  (ls.foldl (fun (acc : List Placed × Layout × List Source) l =>
    let n := acc.2.1.start d.env l
    (acc.1 ++ [{ line := l, offset := n, gap := n - acc.2.1.offset l.sect, size := (taken d.env l).2.1,
                 bytes := emit d p acc.2.2 l n }],
      acc.2.1.line d.env l, acc.2.2 ++ [l])) ([], {}, [])).1

/-- The bytes of a section; a line in breach leaves filler. -/
def contents (s : Sect) (l : List Placed) : List Byte :=
  (l.filter (·.line.sect = s)).flatMap fun x => filler s x.gap ++ x.bytes.getD (filler s x.size)

/-- The body of a `rep` at word j of the text, if it is one, lies in the text and keeps R153. -/
def bodyOk (words : List Nat) (j : Nat) : Bool :=
  match decodeRonid (words.getD j 0) with
  | .ok i => match bodyLength i with
    | some n => j + n < words.length && ((words.drop (j + 1)).take n).all (repeatable false)
    | none => true
  | .error _ => true

/-- The numbers of the lines in breach (R416); where no line is, 0 for a breach of the source as a whole (R415; log entry 76). -/
def breaches (p : Plan) (l : List Placed) : List Nat :=
  let words := wordsOf (contents .text l)
  let whole := p.hasPathfinder != p.hasPrivate || (p.length .text == 0 && !p.hasPathfinder)
  match l.filter (fun x => x.bytes.isNone
      || (x.line.sect == .text && x.size == 8 && !bodyOk words (x.offset / 8))) with
  | [] => if whole then [0] else []
  | bad => bad.map (·.line.num)

/-! ### The object (R53 to R57, R316, R380, R414) -/

/-- What an assembly gives: the level, the image, the other sections, where data lies, and what the header, the signature block and
the manifests say. A section that the source does not have is none. -/
structure Assembly where
  level : Nat
  image : Option (List Byte)
  data : List Byte
  priv : Option (List Byte)
  pathfinder : Option (List Byte)
  dataStart : Nat
  textKeys : List String
  pathfinderKeys : List String
  budget : Nat
  keyIndex : Nat
deriving DecidableEq, Repr

/-- The value of a directive that stands once, 0 when it is absent. -/
def declared (env : String → Option Val) (ls : List Source) (name : String) : Nat :=
  match (ls.findSome? fun l => l.args name : Option (List (List Tok))) with
  | some [e] => ((intValue env e).getD 0).toNat
  | _ => 0

/-- The entry header and the descriptors of an image, in the order of the `.export` lines (R62, R414). -/
def entryWords (d : Names) (p : Plan) (ls : List Source) : List Byte :=
  let exports := ls.filterMap fun l => match l.args ".export" with
    | some [e, t] => match intValue d.env e, exportTarget d p t with
      | some z, some off => some (off / 8 + p.exports + 1 + z.toNat * 2 ^ 32)
      | _, _ => none
    | _ => none
  leBytes 8 p.exports ++ exports.flatMap (leBytes 8)

/-- What `ronas` makes of a source: an assembly, or the numbers of the lines in breach. -/
def assemble (src : String) : Except (List Nat) Assembly :=
  let ls := parse src
  let d := namesOf ls
  let p := planOf d ls
  let l := placed d p ls
  match breaches p l with
  | [] =>
    let text := contents .text l
    .ok { level := p.level
          image := if text.isEmpty then none else some (if p.level = 0 then entryWords d p ls ++ text else text)
          data := contents .data l
          priv := if p.hasPrivate then some (contents .priv l) else none
          pathfinder := if p.hasPathfinder then some (contents .pathfinder l) else none
          dataStart := p.dataStart, textKeys := keysOf .text ls, pathfinderKeys := keysOf .pathfinder ls
          budget := declared d.env ls ".budget", keyIndex := declared d.env ls ".keyindex" }
  | e => .error e

/-- A section of the object that is written: TYPE, FLAGS, LINK, PLACE (R54), and its bytes. -/
structure Part where
  ty : Nat
  flags : Nat := 0
  link : Nat := 0xFFFF
  place : Nat := 0
  bytes : List Byte

/-- A code section: private code, pathfinder, native image. -/
def Part.isCode (x : Part) : Bool := x.ty ≤ 3
/-- A section that starts at a multiple of 64 KiB of the file (R54). -/
def Part.paged (x : Part) : Bool := x.ty ≤ 4

/-- A manifest section (R56). -/
def manifestBytes (keys : List String) : List Byte := leBytes 8 keys.length ++ keys.flatMap fun k => leBytes 4 (keyId k)

/-- The page hashes of code sections (R55). -/
def hashBytes (l : List Part) : List Byte :=
  l.flatMap fun x => (List.range ((x.bytes.length + 65535) / 65536)).flatMap fun i => pageHash x.bytes i

/-- The sections of an object: code, then data, then manifests, then the page hashes (log entry 76). The data section is
writable (R316). -/
def Assembly.parts (a : Assembly) : List Part :=
  let code : List Part := (a.priv.toList.map fun b => { ty := 1, bytes := b })
    ++ (a.pathfinder.toList.map fun b => { ty := 2, bytes := b }) ++ (a.image.toList.map fun b => { ty := 3, bytes := b })
  let data : List Part := if a.data.isEmpty then [] else [{ ty := 4, flags := 1, place := a.dataStart, bytes := a.data }]
  let keyed := [(2, a.pathfinderKeys), (3, a.textKeys)].filter fun e => !e.2.isEmpty
  let first := code.length + data.length
  let link (x : Part) : Part := match (keyed.map (·.1)).idxOf? x.ty with
    | some i => { x with link := first + i }
    | none => x
  code.map link ++ data ++ (keyed.map fun e => { ty := 6, bytes := manifestBytes e.2 }) ++ [{ ty := 5, bytes := hashBytes code }]

/-- A file with bytes put at an offset at or after its end. -/
def putAt (file : List Byte) (offset : Nat) (b : List Byte) : List Byte :=
  file ++ List.replicate (offset - file.length) 0 ++ b

/-- The offsets of sections: those that need no page boundary first, from an offset on, and then the others (log entry 76). -/
def offsets (start : Nat) (l : List Part) : List Nat :=
  let small := l.foldl (fun (acc : List Nat × Nat) x =>
    if x.paged then (acc.1 ++ [0], acc.2) else (acc.1 ++ [acc.2], (acc.2 + x.bytes.length + 7) / 8 * 8)) ([], start)
  ((l.zip small.1).foldl (fun (acc : List Nat × Nat) e =>
    if e.1.paged then (acc.1 ++ [pageUp acc.2], pageUp acc.2 + e.1.bytes.length) else (acc.1 ++ [e.2], acc.2)) ([], small.2)).1

/-- A section-table entry (R54). -/
def Part.entry (x : Part) (offset : Nat) : List Byte :=
  leBytes 2 x.ty ++ leBytes 2 x.flags ++ leBytes 2 x.link ++ leBytes 2 0 ++ leBytes 8 offset ++ leBytes 8 x.bytes.length
    ++ leBytes 8 x.place

/-- The code object of an assembly, unsigned: the signatures are zero, and LMSSIZE with them (R413). -/
def Assembly.object (a : Assembly) : List Byte :=
  let l := a.parts
  let at_ := offsets (128 + 32 * l.length) l
  let stop := (l.zip at_).foldl (fun n e => max n (e.2 + e.1.bytes.length)) 0
  let sigOff := (stop + 7) / 8 * 8
  let header := leBytes 4 0x4B57434F ++ leBytes 2 1 ++ leBytes 2 0 ++ leBytes 4 l.length ++ leBytes 4 a.budget
    ++ leBytes 8 (sigOff + 112) ++ leBytes 8 128 ++ leBytes 8 sigOff ++ leBytes 4 112 ++ leBytes 84 0
  let table := (l.zip at_).flatMap fun e => e.1.entry e.2
  let small := (l.zip at_).filter fun e => !e.1.paged
  let paged := (l.zip at_).filter fun e => e.1.paged
  let file := (small ++ paged).foldl (fun f e => putAt f e.2 e.1.bytes) (header ++ table)
  putAt file sigOff (leBytes 4 a.keyIndex ++ leBytes 108 0)

/-- The firmware body of an assembly at service or system level (R380, R414): text, and the data section at its place. -/
def Assembly.firmware (a : Assembly) : List Byte :=
  if a.data.isEmpty then a.image.getD [] else putAt (a.image.getD []) a.dataStart a.data

/-- The file that `ronas` writes: a code object, or a firmware body where the source declares a service or system level. -/
def ronas (src : String) : Except (List Nat) (List Byte) :=
  match assemble src with
  | .ok a => .ok (if a.level = 0 then a.object else a.firmware)
  | .error e => .error e

end Sys2Proof.Asm
end

