-- ==== Sys2Proof/Laws/Assembler.lean ====
section
/-! SUPPORT. What holds of every word that `ronas` assembles from one line (20 R417). -/

namespace Sys2Proof.Asm

open Sys2Proof Sys2Proof.Machine

/-- A Ronid word that a line gives passes checks 1 and 2 of R20 at the level of its source (20 R417). -/
theorem ronidWord_accepted {c : Context} {level w : Nat} {l : Line} (h : ronidWord c level l = some w) :
    ∃ i, decodeRonid w = .ok i ∧ opcodeLevel i ≤ level := by
  unfold ronidWord at h
  split at h
  · split at h
    · rename_i i hd
      split at h
      · cases h; exact ⟨i, hd, ‹_›⟩
      · cases h
    · cases h
  · cases h

/-- A Milestone word that a line gives decodes, and the line has no guard, no suffix and no lookahead (20 R406, R417). -/
theorem milestoneWord_accepted {c : Context} {w : Nat} {l : Line} (h : milestoneWord c l = some w) :
    (∃ i, decodeMilestone w = .ok i) ∧ l.guard = 0 ∧ l.suffixes = [] ∧ l.la = none := by
  unfold milestoneWord at h
  split at h
  · rename_i hl
    refine ⟨?_, hl⟩
    split at h
    · split at h
      · split at h
        · cases h; exact ⟨_, ‹_›⟩
        · cases h
      · cases h
    · cases h
  · cases h

end Sys2Proof.Asm
end

