-- ==== Sys2Proof/Laws/Words.lean ====
section
/-! SUPPORT. Words and their fields: each field of a word that was put together from fields is the one put in, and the
opcode and the reserved bits of a format are what the word was given. -/

namespace Sys2Proof

set_option Elab.async false

theorem bit_lt (b : Bool) : bit b < 2 := by cases b <;> simp [bit]
theorem bit_of {n : Nat} (h : n < 2) : bit (n == 1) = n := by
  rcases (by omega : n = 0 ∨ n = 1) with rfl | rfl <;> rfl
theorem bits_zero (w n : Nat) : bits w 0 n = w % 2 ^ n := by simp [bits]
theorem field (w a b : Nat) : (BitVec.ofNat b (bits w a b)).toNat = bits w a b := by
  simp [bits]
theorem mod_split (w a b : Nat) : w % 2 ^ (a + b) = w % 2 ^ a + bits w a b * 2 ^ a := by
  rw [Nat.pow_add, Nat.mod_mul, bits, Nat.mul_comm (2 ^ a)]
theorem mod_skip {w a b : Nat} (h : bits w a b = 0) : w % 2 ^ (a + b) = w % 2 ^ a := by simp [mod_split, h]
theorem bit_back {b : Bool} {y : Nat} (h : y = bit b) : (y == 1) = b := by subst h; cases b <;> rfl
theorem ofNat_back {n : Nat} {x : BitVec n} {y : Nat} (h : y = x.toNat) : BitVec.ofNat n y = x := by subst h; simp

theorem FmtA.ofWord_word {op : Nat} (h : op < 256) (f : FmtA) : FmtA.ofWord (f.word op) = f := by
  have h0 := f.la.isLt
  have h1 := bit_lt f.nf
  have h2 := f.gd.isLt
  have h3 := f.order.isLt
  have h4 := f.scope.isLt
  have h5 := bit_lt f.sat
  have h6 := f.rnd.isLt
  have h7 := f.ty.isLt
  have h8 := f.fn.isLt
  have h9 := f.c.isLt
  have h10 := f.b.isLt
  have h11 := f.a.isLt
  have h12 := f.d.isLt
  have e : ∀ g : FmtA, g.la = f.la ∧ g.nf = f.nf ∧ g.gd = f.gd ∧ g.order = f.order ∧ g.scope = f.scope ∧ g.sat = f.sat ∧
      g.rnd = f.rnd ∧ g.ty = f.ty ∧ g.fn = f.fn ∧ g.c = f.c ∧ g.b = f.b ∧ g.a = f.a ∧ g.d = f.d → g = f := by
    rintro ⟨⟩ g; cases f; simp_all
  refine e _ ⟨ofNat_back ?_, bit_back ?_, ofNat_back ?_, ofNat_back ?_, ofNat_back ?_, bit_back ?_, ofNat_back ?_,
    ofNat_back ?_, ofNat_back ?_, ofNat_back ?_, ofNat_back ?_, ofNat_back ?_, ofNat_back ?_⟩ <;>
  · unfold bits FmtA.word; omega

theorem FmtA.word_opcode {op : Nat} (h : op < 256) (f : FmtA) : bits (f.word op) 0 8 = op := by
  unfold bits FmtA.word; omega

theorem FmtA.word_reserved45 {op : Nat} (h : op < 256) (f : FmtA) : bits (f.word op) 45 11 = 0 := by
  have h0 := f.la.isLt
  have h1 := bit_lt f.nf
  have h2 := f.gd.isLt
  have h3 := f.order.isLt
  have h4 := f.scope.isLt
  have h5 := bit_lt f.sat
  have h6 := f.rnd.isLt
  have h7 := f.ty.isLt
  have h8 := f.fn.isLt
  have h9 := f.c.isLt
  have h10 := f.b.isLt
  have h11 := f.a.isLt
  have h12 := f.d.isLt
  unfold bits FmtA.word; omega

theorem FmtA.word_fn {op : Nat} (h : op < 256) (f : FmtA) : fnBits (f.word op) = f.fn.toNat := by
  have h0 := f.la.isLt
  have h1 := bit_lt f.nf
  have h2 := f.gd.isLt
  have h3 := f.order.isLt
  have h4 := f.scope.isLt
  have h5 := bit_lt f.sat
  have h6 := f.rnd.isLt
  have h7 := f.ty.isLt
  have h8 := f.fn.isLt
  have h9 := f.c.isLt
  have h10 := f.b.isLt
  have h11 := f.a.isLt
  have h12 := f.d.isLt
  unfold fnBits bits FmtA.word; omega

theorem FmtA.word_lt {op : Nat} (h : op < 256) (f : FmtA) : f.word op < 2 ^ 64 := by
  have h0 := f.la.isLt
  have h1 := bit_lt f.nf
  have h2 := f.gd.isLt
  have h3 := f.order.isLt
  have h4 := f.scope.isLt
  have h5 := bit_lt f.sat
  have h6 := f.rnd.isLt
  have h7 := f.ty.isLt
  have h8 := f.fn.isLt
  have h9 := f.c.isLt
  have h10 := f.b.isLt
  have h11 := f.a.isLt
  have h12 := f.d.isLt
  unfold FmtA.word; omega

/-- A word whose reserved bits are zero is put together again from its fields. -/
theorem FmtA.word_ofWord {w : Nat} (h : w < 2 ^ 64) (r45 : bits w 45 11 = 0) :
    (FmtA.ofWord w).word (bits w 0 8) = w := by
  have bnf : bit (bits w 59 1 == 1) = bits w 59 1 := bit_of (Nat.mod_lt _ (by decide))
  have bsat : bit (bits w 39 1 == 1) = bits w 39 1 := bit_of (Nat.mod_lt _ (by decide))
  simp only [FmtA.word, FmtA.ofWord, field, bnf, bsat]
  rw [bits_zero, ← mod_split w 8 5, ← mod_split w 13 5, ← mod_split w 18 5, ← mod_split w 23 5, ← mod_split w 28 4, ←
    mod_split w 32 4, ← mod_split w 36 3, ← mod_split w 39 1, ← mod_split w 40 3, ← mod_split w 43 2, ← mod_skip r45, ←
    mod_split w 56 3, ← mod_split w 59 1, ← mod_split w 60 4]
  exact Nat.mod_eq_of_lt h

theorem FmtI.ofWord_word {op : Nat} (h : op < 256) (f : FmtI) : FmtI.ofWord (f.word op) = f := by
  have h0 := f.la.isLt
  have h1 := bit_lt f.nf
  have h2 := f.gd.isLt
  have h3 := f.imm.isLt
  have h4 := f.b.isLt
  have h5 := f.a.isLt
  have h6 := f.d.isLt
  have e : ∀ g : FmtI, g.la = f.la ∧ g.nf = f.nf ∧ g.gd = f.gd ∧ g.imm = f.imm ∧ g.b = f.b ∧ g.a = f.a ∧ g.d = f.d → g = f
      := by
    rintro ⟨⟩ g; cases f; simp_all
  refine e _ ⟨ofNat_back ?_, bit_back ?_, ofNat_back ?_, ofNat_back ?_, ofNat_back ?_, ofNat_back ?_, ofNat_back ?_⟩ <;>
  · unfold bits FmtI.word; omega

theorem FmtI.word_opcode {op : Nat} (h : op < 256) (f : FmtI) : bits (f.word op) 0 8 = op := by
  unfold bits FmtI.word; omega

theorem FmtI.word_reserved55 {op : Nat} (h : op < 256) (f : FmtI) : bits (f.word op) 55 1 = 0 := by
  have h0 := f.la.isLt
  have h1 := bit_lt f.nf
  have h2 := f.gd.isLt
  have h3 := f.imm.isLt
  have h4 := f.b.isLt
  have h5 := f.a.isLt
  have h6 := f.d.isLt
  unfold bits FmtI.word; omega

theorem FmtI.word_lt {op : Nat} (h : op < 256) (f : FmtI) : f.word op < 2 ^ 64 := by
  have h0 := f.la.isLt
  have h1 := bit_lt f.nf
  have h2 := f.gd.isLt
  have h3 := f.imm.isLt
  have h4 := f.b.isLt
  have h5 := f.a.isLt
  have h6 := f.d.isLt
  unfold FmtI.word; omega

/-- A word whose reserved bits are zero is put together again from its fields. -/
theorem FmtI.word_ofWord {w : Nat} (h : w < 2 ^ 64) (r55 : bits w 55 1 = 0) :
    (FmtI.ofWord w).word (bits w 0 8) = w := by
  have bnf : bit (bits w 59 1 == 1) = bits w 59 1 := bit_of (Nat.mod_lt _ (by decide))
  simp only [FmtI.word, FmtI.ofWord, field, bnf]
  rw [bits_zero, ← mod_split w 8 5, ← mod_split w 13 5, ← mod_split w 18 5, ← mod_split w 23 32, ← mod_skip r55, ←
    mod_split w 56 3, ← mod_split w 59 1, ← mod_split w 60 4]
  exact Nat.mod_eq_of_lt h

theorem FmtM.ofWord_word {op : Nat} (h : op < 256) (f : FmtM) : FmtM.ofWord (f.word op) = f := by
  have h0 := f.la.isLt
  have h1 := bit_lt f.nf
  have h2 := f.gd.isLt
  have h3 := f.order.isLt
  have h4 := f.scope.isLt
  have h5 := f.size.isLt
  have h6 := f.offs.isLt
  have h7 := f.ty.isLt
  have h8 := f.c.isLt
  have h9 := f.b.isLt
  have h10 := f.a.isLt
  have h11 := f.d.isLt
  have e : ∀ g : FmtM, g.la = f.la ∧ g.nf = f.nf ∧ g.gd = f.gd ∧ g.order = f.order ∧ g.scope = f.scope ∧ g.size = f.size ∧
      g.offs = f.offs ∧ g.ty = f.ty ∧ g.c = f.c ∧ g.b = f.b ∧ g.a = f.a ∧ g.d = f.d → g = f := by
    rintro ⟨⟩ g; cases f; simp_all
  refine e _ ⟨ofNat_back ?_, bit_back ?_, ofNat_back ?_, ofNat_back ?_, ofNat_back ?_, ofNat_back ?_, ofNat_back ?_,
    ofNat_back ?_, ofNat_back ?_, ofNat_back ?_, ofNat_back ?_, ofNat_back ?_⟩ <;>
  · unfold bits FmtM.word; omega

theorem FmtM.word_opcode {op : Nat} (h : op < 256) (f : FmtM) : bits (f.word op) 0 8 = op := by
  unfold bits FmtM.word; omega

theorem FmtM.word_lt {op : Nat} (h : op < 256) (f : FmtM) : f.word op < 2 ^ 64 := by
  have h0 := f.la.isLt
  have h1 := bit_lt f.nf
  have h2 := f.gd.isLt
  have h3 := f.order.isLt
  have h4 := f.scope.isLt
  have h5 := f.size.isLt
  have h6 := f.offs.isLt
  have h7 := f.ty.isLt
  have h8 := f.c.isLt
  have h9 := f.b.isLt
  have h10 := f.a.isLt
  have h11 := f.d.isLt
  unfold FmtM.word; omega

/-- A word whose reserved bits are zero is put together again from its fields. -/
theorem FmtM.word_ofWord {w : Nat} (h : w < 2 ^ 64) :
    (FmtM.ofWord w).word (bits w 0 8) = w := by
  have bnf : bit (bits w 59 1 == 1) = bits w 59 1 := bit_of (Nat.mod_lt _ (by decide))
  simp only [FmtM.word, FmtM.ofWord, field, bnf]
  rw [bits_zero, ← mod_split w 8 5, ← mod_split w 13 5, ← mod_split w 18 5, ← mod_split w 23 5, ← mod_split w 28 4, ←
    mod_split w 32 16, ← mod_split w 48 3, ← mod_split w 51 3, ← mod_split w 54 2, ← mod_split w 56 3, ← mod_split w 59 1,
    ← mod_split w 60 4]
  exact Nat.mod_eq_of_lt h

theorem FmtB.ofWord_word {op : Nat} (h : op < 256) (f : FmtB) : FmtB.ofWord (f.word op) = f := by
  have h0 := f.la.isLt
  have h1 := bit_lt f.nf
  have h2 := f.gd.isLt
  have h3 := f.offs.isLt
  have h4 := f.fn.isLt
  have h5 := f.c.isLt
  have h6 := f.b.isLt
  have h7 := f.a.isLt
  have h8 := f.d.isLt
  have e : ∀ g : FmtB, g.la = f.la ∧ g.nf = f.nf ∧ g.gd = f.gd ∧ g.offs = f.offs ∧ g.fn = f.fn ∧ g.c = f.c ∧ g.b = f.b ∧
      g.a = f.a ∧ g.d = f.d → g = f := by
    rintro ⟨⟩ g; cases f; simp_all
  refine e _ ⟨ofNat_back ?_, bit_back ?_, ofNat_back ?_, ofNat_back ?_, ofNat_back ?_, ofNat_back ?_, ofNat_back ?_,
    ofNat_back ?_, ofNat_back ?_⟩ <;>
  · unfold bits FmtB.word; omega

theorem FmtB.word_opcode {op : Nat} (h : op < 256) (f : FmtB) : bits (f.word op) 0 8 = op := by
  unfold bits FmtB.word; omega

theorem FmtB.word_fn {op : Nat} (h : op < 256) (f : FmtB) : fnBits (f.word op) = f.fn.toNat := by
  have h0 := f.la.isLt
  have h1 := bit_lt f.nf
  have h2 := f.gd.isLt
  have h3 := f.offs.isLt
  have h4 := f.fn.isLt
  have h5 := f.c.isLt
  have h6 := f.b.isLt
  have h7 := f.a.isLt
  have h8 := f.d.isLt
  unfold fnBits bits FmtB.word; omega

theorem FmtB.word_lt {op : Nat} (h : op < 256) (f : FmtB) : f.word op < 2 ^ 64 := by
  have h0 := f.la.isLt
  have h1 := bit_lt f.nf
  have h2 := f.gd.isLt
  have h3 := f.offs.isLt
  have h4 := f.fn.isLt
  have h5 := f.c.isLt
  have h6 := f.b.isLt
  have h7 := f.a.isLt
  have h8 := f.d.isLt
  unfold FmtB.word; omega

/-- A word whose reserved bits are zero is put together again from its fields. -/
theorem FmtB.word_ofWord {w : Nat} (h : w < 2 ^ 64) :
    (FmtB.ofWord w).word (bits w 0 8) = w := by
  have bnf : bit (bits w 59 1 == 1) = bits w 59 1 := bit_of (Nat.mod_lt _ (by decide))
  simp only [FmtB.word, FmtB.ofWord, field, bnf]
  rw [bits_zero, ← mod_split w 8 5, ← mod_split w 13 5, ← mod_split w 18 5, ← mod_split w 23 5, ← mod_split w 28 4, ←
    mod_split w 32 24, ← mod_split w 56 3, ← mod_split w 59 1, ← mod_split w 60 4]
  exact Nat.mod_eq_of_lt h

theorem FmtT.ofWord_word {op : Nat} (h : op < 256) (f : FmtT) : FmtT.ofWord (f.word op) = f := by
  have h0 := f.la.isLt
  have h1 := bit_lt f.nf
  have h2 := f.gd.isLt
  have h3 := bit_lt f.wrap
  have h4 := f.rnd.isLt
  have h5 := bit_lt f.sat
  have h6 := f.ty.isLt
  have h7 := f.coff.isLt
  have h8 := f.fn.isLt
  have h9 := f.c.isLt
  have h10 := f.b.isLt
  have h11 := f.a.isLt
  have h12 := f.d.isLt
  have e : ∀ g : FmtT, g.la = f.la ∧ g.nf = f.nf ∧ g.gd = f.gd ∧ g.wrap = f.wrap ∧ g.rnd = f.rnd ∧ g.sat = f.sat ∧ g.ty =
      f.ty ∧ g.coff = f.coff ∧ g.fn = f.fn ∧ g.c = f.c ∧ g.b = f.b ∧ g.a = f.a ∧ g.d = f.d → g = f := by
    rintro ⟨⟩ g; cases f; simp_all
  refine e _ ⟨ofNat_back ?_, bit_back ?_, ofNat_back ?_, bit_back ?_, ofNat_back ?_, bit_back ?_, ofNat_back ?_,
    ofNat_back ?_, ofNat_back ?_, ofNat_back ?_, ofNat_back ?_, ofNat_back ?_, ofNat_back ?_⟩ <;>
  · unfold bits FmtT.word; omega

theorem FmtT.word_opcode {op : Nat} (h : op < 256) (f : FmtT) : bits (f.word op) 0 8 = op := by
  unfold bits FmtT.word; omega

theorem FmtT.word_reserved54 {op : Nat} (h : op < 256) (f : FmtT) : bits (f.word op) 54 2 = 0 := by
  have h0 := f.la.isLt
  have h1 := bit_lt f.nf
  have h2 := f.gd.isLt
  have h3 := bit_lt f.wrap
  have h4 := f.rnd.isLt
  have h5 := bit_lt f.sat
  have h6 := f.ty.isLt
  have h7 := f.coff.isLt
  have h8 := f.fn.isLt
  have h9 := f.c.isLt
  have h10 := f.b.isLt
  have h11 := f.a.isLt
  have h12 := f.d.isLt
  unfold bits FmtT.word; omega

theorem FmtT.word_reserved42 {op : Nat} (h : op < 256) (f : FmtT) : bits (f.word op) 42 3 = 0 := by
  have h0 := f.la.isLt
  have h1 := bit_lt f.nf
  have h2 := f.gd.isLt
  have h3 := bit_lt f.wrap
  have h4 := f.rnd.isLt
  have h5 := bit_lt f.sat
  have h6 := f.ty.isLt
  have h7 := f.coff.isLt
  have h8 := f.fn.isLt
  have h9 := f.c.isLt
  have h10 := f.b.isLt
  have h11 := f.a.isLt
  have h12 := f.d.isLt
  unfold bits FmtT.word; omega

theorem FmtT.word_fn {op : Nat} (h : op < 256) (f : FmtT) : fnBits (f.word op) = f.fn.toNat := by
  have h0 := f.la.isLt
  have h1 := bit_lt f.nf
  have h2 := f.gd.isLt
  have h3 := bit_lt f.wrap
  have h4 := f.rnd.isLt
  have h5 := bit_lt f.sat
  have h6 := f.ty.isLt
  have h7 := f.coff.isLt
  have h8 := f.fn.isLt
  have h9 := f.c.isLt
  have h10 := f.b.isLt
  have h11 := f.a.isLt
  have h12 := f.d.isLt
  unfold fnBits bits FmtT.word; omega

theorem FmtT.word_lt {op : Nat} (h : op < 256) (f : FmtT) : f.word op < 2 ^ 64 := by
  have h0 := f.la.isLt
  have h1 := bit_lt f.nf
  have h2 := f.gd.isLt
  have h3 := bit_lt f.wrap
  have h4 := f.rnd.isLt
  have h5 := bit_lt f.sat
  have h6 := f.ty.isLt
  have h7 := f.coff.isLt
  have h8 := f.fn.isLt
  have h9 := f.c.isLt
  have h10 := f.b.isLt
  have h11 := f.a.isLt
  have h12 := f.d.isLt
  unfold FmtT.word; omega

/-- A word whose reserved bits are zero is put together again from its fields. -/
theorem FmtT.word_ofWord {w : Nat} (h : w < 2 ^ 64) (r54 : bits w 54 2 = 0) (r42 : bits w 42 3 = 0) :
    (FmtT.ofWord w).word (bits w 0 8) = w := by
  have bnf : bit (bits w 59 1 == 1) = bits w 59 1 := bit_of (Nat.mod_lt _ (by decide))
  have bwrap : bit (bits w 53 1 == 1) = bits w 53 1 := bit_of (Nat.mod_lt _ (by decide))
  have bsat : bit (bits w 49 1 == 1) = bits w 49 1 := bit_of (Nat.mod_lt _ (by decide))
  simp only [FmtT.word, FmtT.ofWord, field, bnf, bwrap, bsat]
  rw [bits_zero, ← mod_split w 8 5, ← mod_split w 13 5, ← mod_split w 18 5, ← mod_split w 23 5, ← mod_split w 28 4, ←
    mod_split w 32 10, ← mod_skip r42, ← mod_split w 45 4, ← mod_split w 49 1, ← mod_split w 50 3, ← mod_split w 53 1, ←
    mod_skip r54, ← mod_split w 56 3, ← mod_split w 59 1, ← mod_split w 60 4]
  exact Nat.mod_eq_of_lt h

theorem FmtW.ofWord_word {op : Nat} (h : op < 256) (f : FmtW) : FmtW.ofWord (f.word op) = f := by
  have h0 := f.la.isLt
  have h1 := bit_lt f.nf
  have h2 := f.gd.isLt
  have h3 := f.b8.isLt
  have h4 := f.mode.isLt
  have h5 := f.space.isLt
  have h6 := f.imm.isLt
  have h7 := f.ty.isLt
  have h8 := f.fn.isLt
  have h9 := f.c.isLt
  have h10 := f.b.isLt
  have h11 := f.a.isLt
  have h12 := f.d.isLt
  have e : ∀ g : FmtW, g.la = f.la ∧ g.nf = f.nf ∧ g.gd = f.gd ∧ g.b8 = f.b8 ∧ g.mode = f.mode ∧ g.space = f.space ∧ g.imm
      = f.imm ∧ g.ty = f.ty ∧ g.fn = f.fn ∧ g.c = f.c ∧ g.b = f.b ∧ g.a = f.a ∧ g.d = f.d → g = f := by
    rintro ⟨⟩ g; cases f; simp_all
  refine e _ ⟨ofNat_back ?_, bit_back ?_, ofNat_back ?_, ofNat_back ?_, ofNat_back ?_, ofNat_back ?_, ofNat_back ?_,
    ofNat_back ?_, ofNat_back ?_, ofNat_back ?_, ofNat_back ?_, ofNat_back ?_, ofNat_back ?_⟩ <;>
  · unfold bits FmtW.word; omega

theorem FmtW.word_opcode {op : Nat} (h : op < 256) (f : FmtW) : bits (f.word op) 0 8 = op := by
  unfold bits FmtW.word; omega

theorem FmtW.word_reserved55 {op : Nat} (h : op < 256) (f : FmtW) : bits (f.word op) 55 1 = 0 := by
  have h0 := f.la.isLt
  have h1 := bit_lt f.nf
  have h2 := f.gd.isLt
  have h3 := f.b8.isLt
  have h4 := f.mode.isLt
  have h5 := f.space.isLt
  have h6 := f.imm.isLt
  have h7 := f.ty.isLt
  have h8 := f.fn.isLt
  have h9 := f.c.isLt
  have h10 := f.b.isLt
  have h11 := f.a.isLt
  have h12 := f.d.isLt
  unfold bits FmtW.word; omega

theorem FmtW.word_fn {op : Nat} (h : op < 256) (f : FmtW) : fnBits (f.word op) = f.fn.toNat := by
  have h0 := f.la.isLt
  have h1 := bit_lt f.nf
  have h2 := f.gd.isLt
  have h3 := f.b8.isLt
  have h4 := f.mode.isLt
  have h5 := f.space.isLt
  have h6 := f.imm.isLt
  have h7 := f.ty.isLt
  have h8 := f.fn.isLt
  have h9 := f.c.isLt
  have h10 := f.b.isLt
  have h11 := f.a.isLt
  have h12 := f.d.isLt
  unfold fnBits bits FmtW.word; omega

theorem FmtW.word_lt {op : Nat} (h : op < 256) (f : FmtW) : f.word op < 2 ^ 64 := by
  have h0 := f.la.isLt
  have h1 := bit_lt f.nf
  have h2 := f.gd.isLt
  have h3 := f.b8.isLt
  have h4 := f.mode.isLt
  have h5 := f.space.isLt
  have h6 := f.imm.isLt
  have h7 := f.ty.isLt
  have h8 := f.fn.isLt
  have h9 := f.c.isLt
  have h10 := f.b.isLt
  have h11 := f.a.isLt
  have h12 := f.d.isLt
  unfold FmtW.word; omega

/-- A word whose reserved bits are zero is put together again from its fields. -/
theorem FmtW.word_ofWord {w : Nat} (h : w < 2 ^ 64) (r55 : bits w 55 1 = 0) :
    (FmtW.ofWord w).word (bits w 0 8) = w := by
  have bnf : bit (bits w 59 1 == 1) = bits w 59 1 := bit_of (Nat.mod_lt _ (by decide))
  simp only [FmtW.word, FmtW.ofWord, field, bnf]
  rw [bits_zero, ← mod_split w 8 5, ← mod_split w 13 5, ← mod_split w 18 5, ← mod_split w 23 5, ← mod_split w 28 4, ←
    mod_split w 32 4, ← mod_split w 36 9, ← mod_split w 45 3, ← mod_split w 48 2, ← mod_split w 50 5, ← mod_skip r55, ←
    mod_split w 56 3, ← mod_split w 59 1, ← mod_split w 60 4]
  exact Nat.mod_eq_of_lt h

theorem FmtE.ofWord_word {op : Nat} (h : op < 256) (f : FmtE) : FmtE.ofWord (f.word op) = f := by
  have h0 := f.la.isLt
  have h1 := bit_lt f.nf
  have h2 := f.gd.isLt
  have h3 := f.tag.isLt
  have h4 := f.split.isLt
  have h5 := bit_lt f.mbx
  have h6 := f.scope.isLt
  have h7 := f.fn.isLt
  have h8 := f.c.isLt
  have h9 := f.b.isLt
  have h10 := f.a.isLt
  have h11 := f.d.isLt
  have e : ∀ g : FmtE, g.la = f.la ∧ g.nf = f.nf ∧ g.gd = f.gd ∧ g.tag = f.tag ∧ g.split = f.split ∧ g.mbx = f.mbx ∧
      g.scope = f.scope ∧ g.fn = f.fn ∧ g.c = f.c ∧ g.b = f.b ∧ g.a = f.a ∧ g.d = f.d → g = f := by
    rintro ⟨⟩ g; cases f; simp_all
  refine e _ ⟨ofNat_back ?_, bit_back ?_, ofNat_back ?_, ofNat_back ?_, ofNat_back ?_, bit_back ?_, ofNat_back ?_,
    ofNat_back ?_, ofNat_back ?_, ofNat_back ?_, ofNat_back ?_, ofNat_back ?_⟩ <;>
  · unfold bits FmtE.word; omega

theorem FmtE.word_opcode {op : Nat} (h : op < 256) (f : FmtE) : bits (f.word op) 0 8 = op := by
  unfold bits FmtE.word; omega

theorem FmtE.word_reserved32 {op : Nat} (h : op < 256) (f : FmtE) : bits (f.word op) 32 11 = 0 := by
  have h0 := f.la.isLt
  have h1 := bit_lt f.nf
  have h2 := f.gd.isLt
  have h3 := f.tag.isLt
  have h4 := f.split.isLt
  have h5 := bit_lt f.mbx
  have h6 := f.scope.isLt
  have h7 := f.fn.isLt
  have h8 := f.c.isLt
  have h9 := f.b.isLt
  have h10 := f.a.isLt
  have h11 := f.d.isLt
  unfold bits FmtE.word; omega

theorem FmtE.word_fn {op : Nat} (h : op < 256) (f : FmtE) : fnBits (f.word op) = f.fn.toNat := by
  have h0 := f.la.isLt
  have h1 := bit_lt f.nf
  have h2 := f.gd.isLt
  have h3 := f.tag.isLt
  have h4 := f.split.isLt
  have h5 := bit_lt f.mbx
  have h6 := f.scope.isLt
  have h7 := f.fn.isLt
  have h8 := f.c.isLt
  have h9 := f.b.isLt
  have h10 := f.a.isLt
  have h11 := f.d.isLt
  unfold fnBits bits FmtE.word; omega

theorem FmtE.word_lt {op : Nat} (h : op < 256) (f : FmtE) : f.word op < 2 ^ 64 := by
  have h0 := f.la.isLt
  have h1 := bit_lt f.nf
  have h2 := f.gd.isLt
  have h3 := f.tag.isLt
  have h4 := f.split.isLt
  have h5 := bit_lt f.mbx
  have h6 := f.scope.isLt
  have h7 := f.fn.isLt
  have h8 := f.c.isLt
  have h9 := f.b.isLt
  have h10 := f.a.isLt
  have h11 := f.d.isLt
  unfold FmtE.word; omega

/-- A word whose reserved bits are zero is put together again from its fields. -/
theorem FmtE.word_ofWord {w : Nat} (h : w < 2 ^ 64) (r32 : bits w 32 11 = 0) :
    (FmtE.ofWord w).word (bits w 0 8) = w := by
  have bnf : bit (bits w 59 1 == 1) = bits w 59 1 := bit_of (Nat.mod_lt _ (by decide))
  have bmbx : bit (bits w 46 1 == 1) = bits w 46 1 := bit_of (Nat.mod_lt _ (by decide))
  simp only [FmtE.word, FmtE.ofWord, field, bnf, bmbx]
  rw [bits_zero, ← mod_split w 8 5, ← mod_split w 13 5, ← mod_split w 18 5, ← mod_split w 23 5, ← mod_split w 28 4, ←
    mod_skip r32, ← mod_split w 43 3, ← mod_split w 46 1, ← mod_split w 47 3, ← mod_split w 50 6, ← mod_split w 56 3, ←
    mod_split w 59 1, ← mod_split w 60 4]
  exact Nat.mod_eq_of_lt h

theorem FmtS.ofWord_word {op : Nat} (h : op < 256) (f : FmtS) : FmtS.ofWord (f.word op) = f := by
  have h0 := f.la.isLt
  have h1 := bit_lt f.nf
  have h2 := f.gd.isLt
  have h3 := f.sel.isLt
  have h4 := f.fn.isLt
  have h5 := f.c.isLt
  have h6 := f.b.isLt
  have h7 := f.a.isLt
  have h8 := f.d.isLt
  have e : ∀ g : FmtS, g.la = f.la ∧ g.nf = f.nf ∧ g.gd = f.gd ∧ g.sel = f.sel ∧ g.fn = f.fn ∧ g.c = f.c ∧ g.b = f.b ∧ g.a
      = f.a ∧ g.d = f.d → g = f := by
    rintro ⟨⟩ g; cases f; simp_all
  refine e _ ⟨ofNat_back ?_, bit_back ?_, ofNat_back ?_, ofNat_back ?_, ofNat_back ?_, ofNat_back ?_, ofNat_back ?_,
    ofNat_back ?_, ofNat_back ?_⟩ <;>
  · unfold bits FmtS.word; omega

theorem FmtS.word_opcode {op : Nat} (h : op < 256) (f : FmtS) : bits (f.word op) 0 8 = op := by
  unfold bits FmtS.word; omega

theorem FmtS.word_reserved44 {op : Nat} (h : op < 256) (f : FmtS) : bits (f.word op) 44 12 = 0 := by
  have h0 := f.la.isLt
  have h1 := bit_lt f.nf
  have h2 := f.gd.isLt
  have h3 := f.sel.isLt
  have h4 := f.fn.isLt
  have h5 := f.c.isLt
  have h6 := f.b.isLt
  have h7 := f.a.isLt
  have h8 := f.d.isLt
  unfold bits FmtS.word; omega

theorem FmtS.word_fn {op : Nat} (h : op < 256) (f : FmtS) : fnBits (f.word op) = f.fn.toNat := by
  have h0 := f.la.isLt
  have h1 := bit_lt f.nf
  have h2 := f.gd.isLt
  have h3 := f.sel.isLt
  have h4 := f.fn.isLt
  have h5 := f.c.isLt
  have h6 := f.b.isLt
  have h7 := f.a.isLt
  have h8 := f.d.isLt
  unfold fnBits bits FmtS.word; omega

theorem FmtS.word_sel {op : Nat} (h : op < 256) (f : FmtS) : selBits (f.word op) = f.sel.toNat := by
  have h0 := f.la.isLt
  have h1 := bit_lt f.nf
  have h2 := f.gd.isLt
  have h3 := f.sel.isLt
  have h4 := f.fn.isLt
  have h5 := f.c.isLt
  have h6 := f.b.isLt
  have h7 := f.a.isLt
  have h8 := f.d.isLt
  unfold selBits bits FmtS.word; omega

theorem FmtS.word_lt {op : Nat} (h : op < 256) (f : FmtS) : f.word op < 2 ^ 64 := by
  have h0 := f.la.isLt
  have h1 := bit_lt f.nf
  have h2 := f.gd.isLt
  have h3 := f.sel.isLt
  have h4 := f.fn.isLt
  have h5 := f.c.isLt
  have h6 := f.b.isLt
  have h7 := f.a.isLt
  have h8 := f.d.isLt
  unfold FmtS.word; omega

/-- A word whose reserved bits are zero is put together again from its fields. -/
theorem FmtS.word_ofWord {w : Nat} (h : w < 2 ^ 64) (r44 : bits w 44 12 = 0) :
    (FmtS.ofWord w).word (bits w 0 8) = w := by
  have bnf : bit (bits w 59 1 == 1) = bits w 59 1 := bit_of (Nat.mod_lt _ (by decide))
  simp only [FmtS.word, FmtS.ofWord, field, bnf]
  rw [bits_zero, ← mod_split w 8 5, ← mod_split w 13 5, ← mod_split w 18 5, ← mod_split w 23 5, ← mod_split w 28 4, ←
    mod_split w 32 12, ← mod_skip r44, ← mod_split w 56 3, ← mod_split w 59 1, ← mod_split w 60 4]
  exact Nat.mod_eq_of_lt h

theorem FmtMs.ofWord_word {op : Nat} (h : op < 64) (f : FmtMs) : FmtMs.ofWord (f.word op) = f := by
  have h0 := f.imm.isLt
  have h1 := f.b.isLt
  have h2 := f.a.isLt
  have h3 := f.d.isLt
  have e : ∀ g : FmtMs, g.imm = f.imm ∧ g.b = f.b ∧ g.a = f.a ∧ g.d = f.d → g = f := by
    rintro ⟨⟩ g; cases f; simp_all
  refine e _ ⟨ofNat_back ?_, ofNat_back ?_, ofNat_back ?_, ofNat_back ?_⟩ <;>
  · unfold bits FmtMs.word; omega

theorem FmtMs.word_opcode {op : Nat} (h : op < 64) (f : FmtMs) : bits (f.word op) 0 6 = op := by
  unfold bits FmtMs.word; omega

theorem FmtMs.word_lt {op : Nat} (h : op < 64) (f : FmtMs) : f.word op < 2 ^ 32 := by
  have h0 := f.imm.isLt
  have h1 := f.b.isLt
  have h2 := f.a.isLt
  have h3 := f.d.isLt
  unfold FmtMs.word; omega

/-- A word whose reserved bits are zero is put together again from its fields. -/
theorem FmtMs.word_ofWord {w : Nat} (h : w < 2 ^ 32) :
    (FmtMs.ofWord w).word (bits w 0 6) = w := by
  simp only [FmtMs.word, FmtMs.ofWord, field]
  rw [bits_zero, ← mod_split w 6 4, ← mod_split w 10 4, ← mod_split w 14 4, ← mod_split w 18 14]
  exact Nat.mod_eq_of_lt h

/-! ### Bytes -/

theorem leNat_leBytes (n w : Nat) : leNat (leBytes n w) = w % 256 ^ n := by
  induction n generalizing w with
  | zero => simp [leBytes, leNat, Nat.mod_one]
  | succ n ih =>
    have h : w % 256 ^ (n + 1) = w % 256 + 256 * (w / 256 % 256 ^ n) := by
      rw [Nat.pow_succ, Nat.mul_comm, Nat.mod_mul]
    simp [leBytes, leNat, ih, h]

theorem leBytes_length (n x : Nat) : (leBytes n x).length = n := by
  induction n generalizing x with
  | zero => rfl
  | succ n ih => simp [leBytes, ih]

end Sys2Proof
end

