-- ==== Sys2Proof/Laws/Memory.lean ====
section
/-! SUPPORT. Memory: a read after a write, and the canonical form that every operation keeps. -/

namespace Sys2Proof.Machine

open Sys2Proof

set_option Elab.async false

/-! ### Read after write -/

/-- Every listed address of some cells lies at or above a bound. -/
def CellsFrom (lo : Nat) (l : List (Nat × Byte)) : Prop := ∀ e ∈ l, lo ≤ e.1

theorem cellsWf_cons {a : Nat} {x : Byte} {t : List (Nat × Byte)} :
    cellsWf ((a, x) :: t) = true ↔ x ≠ 0 ∧ CellsFrom (a + 1) t ∧ cellsWf t = true := by
  induction t generalizing a x with
  | nil => simp [cellsWf, CellsFrom]
  | cons e t ih =>
    obtain ⟨b, y⟩ := e
    have h := @ih b y
    constructor
    · intro g
      simp only [cellsWf, Bool.and_eq_true, bne_iff_ne, decide_eq_true_eq] at g
      refine ⟨g.1.1, ?_, g.2⟩
      intro e he
      rcases List.mem_cons.1 he with rfl | he
      · exact g.1.2
      · exact Nat.le_trans (by have := g.1.2; omega) ((h.1 g.2).2.1 e he)
    · rintro ⟨hx, hf, hw⟩
      have hb : a + 1 ≤ b := hf (b, y) (List.mem_cons_self ..)
      simp only [cellsWf, Bool.and_eq_true, bne_iff_ne, decide_eq_true_eq]
      exact ⟨⟨hx, hb⟩, hw⟩

theorem cellsGet_below {lo a : Nat} {l : List (Nat × Byte)} (h : CellsFrom lo l) (g : a < lo) : cellsGet l a = 0 := by
  induction l with
  | nil => rfl
  | cons e t ih =>
    obtain ⟨b, x⟩ := e
    have hb : lo ≤ b := h (b, x) (List.mem_cons_self ..)
    have : a ≠ b := by omega
    simp [cellsGet, this, ih fun e he => h e (List.mem_cons_of_mem _ he)]

theorem cellsFrom_set {lo a : Nat} {x : Byte} {l : List (Nat × Byte)} (h : CellsFrom lo l) (g : lo ≤ a) :
    CellsFrom lo (cellsSet l a x) := by
  induction l with
  | nil => by_cases hx : x = 0#8 <;> simp [cellsSet, hx, CellsFrom, g]
  | cons e t ih =>
    obtain ⟨b, y⟩ := e
    have hb : lo ≤ b := h (b, y) (List.mem_cons_self ..)
    have ht : CellsFrom lo t := fun e he => h e (List.mem_cons_of_mem _ he)
    have cons {c : Nat} {z : Byte} {u : List (Nat × Byte)} (hc : lo ≤ c) (hu : CellsFrom lo u) : CellsFrom lo ((c, z) :: u) := by
      intro e he
      rcases List.mem_cons.1 he with rfl | he
      · exact hc
      · exact hu e he
    unfold cellsSet
    split
    · split
      · exact h
      · exact cons g h
    · split
      · split
        · exact ht
        · exact cons g ht
      · exact cons hb (ih ht)

/-- A write keeps the canonical form. -/
theorem cellsWf_set {l : List (Nat × Byte)} (a : Nat) (x : Byte) (h : cellsWf l = true) : cellsWf (cellsSet l a x) = true := by
  induction l with
  | nil => by_cases hx : x = 0#8 <;> simp [cellsSet, hx, cellsWf]
  | cons e t ih =>
    obtain ⟨b, y⟩ := e
    obtain ⟨hy, hf, ht⟩ := cellsWf_cons.1 h
    unfold cellsSet
    split
    · rename_i hab
      split
      · exact h
      · rename_i hx
        refine cellsWf_cons.2 ⟨hx, ?_, h⟩
        intro e he
        rcases List.mem_cons.1 he with rfl | he
        · exact hab
        · exact Nat.le_trans (by omega) (hf e he)
    · split
      · rename_i hab
        split
        · exact ht
        · rename_i hx
          exact cellsWf_cons.2 ⟨hx, hab ▸ hf, ht⟩
      · exact cellsWf_cons.2 ⟨hy, cellsFrom_set hf (by omega), ih ht⟩

/-- A byte that was written reads as written. -/
theorem cellsGet_set_same {l : List (Nat × Byte)} (a : Nat) (x : Byte) (h : cellsWf l = true) :
    cellsGet (cellsSet l a x) a = x := by
  induction l with
  | nil => by_cases hx : x = 0#8 <;> simp [cellsSet, cellsGet, hx]
  | cons e t ih =>
    obtain ⟨b, y⟩ := e
    obtain ⟨_, hf, ht⟩ := cellsWf_cons.1 h
    unfold cellsSet
    split
    · rename_i hab
      split
      · rename_i hx
        have : a ≠ b := by omega
        simp [cellsGet, this, hx, cellsGet_below hf (by omega : a < b + 1)]
      · simp [cellsGet]
    · split
      · rename_i hab
        split
        · rename_i hx
          rw [hx, cellsGet_below hf (by omega)]
        · simp [cellsGet]
      · rename_i hab
        simp [cellsGet, hab, ih ht]

/-- Any other byte reads as before. -/
theorem cellsGet_set_other (l : List (Nat × Byte)) {a b : Nat} (x : Byte) (h : b ≠ a) :
    cellsGet (cellsSet l a x) b = cellsGet l b := by
  induction l with
  | nil => by_cases hx : x = 0#8 <;> simp [cellsSet, cellsGet, hx, h]
  | cons e t ih =>
    obtain ⟨c, y⟩ := e
    unfold cellsSet
    split
    · split
      · rfl
      · simp [cellsGet, h]
    · split
      · rename_i hac
        split
        · simp [cellsGet, ← hac, h]
        · simp [cellsGet, h, ← hac]
      · by_cases hb : b = c
        · simp [cellsGet, hb]
        · simp [cellsGet, hb, ih]

theorem risingWf_cons {a : Nat} {t : List Nat} : risingWf (a :: t) = true ↔ (∀ b ∈ t, a < b) ∧ risingWf t = true := by
  induction t generalizing a with
  | nil => simp [risingWf]
  | cons b t ih =>
    have h := @ih b
    constructor
    · intro g
      simp only [risingWf, Bool.and_eq_true, decide_eq_true_eq] at g
      refine ⟨?_, g.2⟩
      intro c hc
      rcases List.mem_cons.1 hc with rfl | hc
      · exact g.1
      · exact Nat.lt_trans g.1 ((h.1 g.2).1 c hc)
    · rintro ⟨hb, hw⟩
      simp [risingWf, hb b (List.mem_cons_self ..), hw]

theorem insertRising_mem {l : List Nat} {a b : Nat} : b ∈ insertRising l a ↔ b = a ∨ b ∈ l := by
  induction l with
  | nil => simp [insertRising]
  | cons c t ih =>
    unfold insertRising
    split
    · simp
    · split
      · rename_i h; simp [h]
      · simp [ih]; tauto

theorem risingWf_insert {l : List Nat} (a : Nat) (h : risingWf l = true) : risingWf (insertRising l a) = true := by
  induction l with
  | nil => rfl
  | cons b t ih =>
    obtain ⟨hb, ht⟩ := risingWf_cons.1 h
    unfold insertRising
    split
    · rename_i hab
      refine risingWf_cons.2 ⟨?_, h⟩
      intro c hc
      rcases List.mem_cons.1 hc with rfl | hc
      · exact hab
      · exact Nat.lt_trans hab (hb c hc)
    · split
      · exact h
      · refine risingWf_cons.2 ⟨?_, ih ht⟩
        intro c hc
        rcases insertRising_mem.1 hc with rfl | hc
        · omega
        · exact hb c hc

theorem risingWf_filter {l : List Nat} (p : Nat → Bool) (h : risingWf l = true) : risingWf (l.filter p) = true := by
  induction l with
  | nil => rfl
  | cons b t ih =>
    obtain ⟨hb, ht⟩ := risingWf_cons.1 h
    by_cases hp : p b
    · simp only [List.filter_cons, hp, if_true]
      exact risingWf_cons.2 ⟨fun c hc => hb c (List.mem_filter.1 hc).1, ih ht⟩
    · simpa [List.filter_cons, hp] using ih ht

theorem cellsWf_filter {l : List (Nat × Byte)} (p : Nat × Byte → Bool) (h : cellsWf l = true) :
    cellsWf (l.filter p) = true := by
  induction l with
  | nil => rfl
  | cons e t ih =>
    obtain ⟨b, y⟩ := e
    obtain ⟨hy, hf, ht⟩ := cellsWf_cons.1 h
    by_cases hp : p (b, y)
    · simp only [List.filter_cons, hp, if_true]
      exact cellsWf_cons.2 ⟨hy, fun c hc => hf c (List.mem_filter.1 hc).1, ih ht⟩
    · simpa [List.filter_cons, hp] using ih ht

/-! ### The operations on a memory -/

namespace Mem

theorem wf_iff {m : Mem} : m.wf = true ↔ cellsWf m.cells = true ∧ risingWf m.poison = true := by simp [wf]

theorem wf_empty : ({} : Mem).wf = true := rfl

theorem wf_setByte {m : Mem} (a : Nat) (x : Byte) (h : m.wf = true) : (m.setByte a x).wf = true :=
  wf_iff.2 ⟨cellsWf_set a x (wf_iff.1 h).1, (wf_iff.1 h).2⟩

theorem wf_mark {m : Mem} (w : Nat) (h : m.wf = true) : (m.mark w).wf = true :=
  wf_iff.2 ⟨(wf_iff.1 h).1, risingWf_insert w (wf_iff.1 h).2⟩

theorem wf_marks {m : Mem} (l : List Nat) (h : m.wf = true) : (l.foldl mark m).wf = true := by
  induction l generalizing m with
  | nil => exact h
  | cons w t ih => exact ih (wf_mark w h)

theorem wf_setBytes {m : Mem} (l : List (Nat × Byte)) (h : m.wf = true) :
    (l.foldl (fun m e => m.setByte e.1 e.2) m).wf = true := by
  induction l generalizing m with
  | nil => exact h
  | cons e t ih => exact ih (wf_setByte e.1 e.2 h)

/-- One access of several bytes keeps the canonical form. -/
theorem wf_store {m : Mem} (l : List (Nat × Byte)) (h : m.wf = true) : (m.store l).wf = true :=
  wf_iff.2 ⟨(wf_iff.1 (wf_setBytes l h)).1, risingWf_filter _ (wf_iff.1 (wf_setBytes l h)).2⟩

theorem wf_setNibble {m : Mem} (e : Nat × Bool × Nat) (h : m.wf = true) : (m.setNibble e).wf = true := wf_setByte _ _ h

/-- One access of bytes and nibbles keeps the canonical form. -/
theorem wf_storeBoth {m : Mem} (l : List (Nat × Byte)) (n : List (Nat × Bool × Nat)) (h : m.wf = true) :
    (m.storeBoth l n).wf = true := by
  unfold storeBoth
  generalize hm : m.store l = k
  have hk : k.wf = true := hm ▸ wf_store l h
  clear hm
  induction n generalizing k with
  | nil => exact hk
  | cons e t ih => exact ih _ (wf_setNibble e hk)

theorem wf_storeNat {m : Mem} (a n x : Nat) (h : m.wf = true) : (m.storeNat a n x).wf = true := wf_store _ h
theorem wf_storeBytes {m : Mem} (a : Nat) (l : List Byte) (h : m.wf = true) : (m.storeBytes a l).wf = true := wf_store _ h

theorem wf_wipe {m : Mem} (a n : Nat) (h : m.wf = true) : (m.wipe a n).wf = true :=
  wf_iff.2 ⟨cellsWf_filter _ (wf_iff.1 h).1, risingWf_filter _ (wf_iff.1 h).2⟩

theorem wf_fillPage {m : Mem} (p : Nat) (b : List Byte) (h : m.wf = true) : (m.fillPage p b).wf = true :=
  wf_storeBytes _ _ (wf_wipe _ _ h)

/-- A byte that one access wrote last reads as written; one that it did not write reads as before. -/
theorem byte_setByte {m : Mem} (a b : Nat) (x : Byte) (h : m.wf = true) :
    (m.setByte a x).byte b = if b = a then x else m.byte b := by
  split
  · rename_i g; subst g; exact cellsGet_set_same b x (wf_iff.1 h).1
  · rename_i g; exact cellsGet_set_other m.cells x g

theorem byte_setBytes_other {m : Mem} (l : List (Nat × Byte)) (b : Nat) (h : ∀ e ∈ l, e.1 ≠ b) :
    (l.foldl (fun m e => m.setByte e.1 e.2) m).byte b = m.byte b := by
  induction l generalizing m with
  | nil => rfl
  | cons e t ih =>
    have h1 : b ≠ e.1 := (h e (List.mem_cons_self ..)).symm
    rw [List.foldl_cons, ih fun f hf => h f (List.mem_cons_of_mem _ hf)]
    exact cellsGet_set_other m.cells e.2 h1

/-- A byte that an access does not write reads as before. -/
theorem byte_store_other {m : Mem} (l : List (Nat × Byte)) (b : Nat) (h : ∀ e ∈ l, e.1 ≠ b) :
    (m.store l).byte b = m.byte b := byte_setBytes_other l b h

end Mem

theorem bytesAt_mem {a : Nat} {l : List Byte} {e : Nat × Byte} (h : e ∈ bytesAt a l) : a ≤ e.1 ∧ e.1 < a + l.length := by
  induction l generalizing a with
  | nil => simp [bytesAt] at h
  | cons x t ih =>
    rcases List.mem_cons.1 h with rfl | h
    · simp
    · have := ih h
      simp only [List.length_cons]
      omega

/-- A byte outside the n bytes of a store reads as before. -/
theorem Mem.byte_storeNat_other {m : Mem} {a n b : Nat} (x : Nat) (h : b < a ∨ a + n ≤ b) :
    (m.storeNat a n x).byte b = m.byte b := by
  refine Mem.byte_store_other _ _ fun e he => ?_
  have := bytesAt_mem he
  simp only [leBytes_length] at this
  omega

end Sys2Proof.Machine
end

