-- ==== Sys2Proof/Laws/State.lean ====
section
/-! SUPPORT. What each update of the state leaves alone: one lemma for each field and update. -/

namespace Sys2Proof.Machine

open Sys2Proof

set_option Elab.async false

namespace State

@[simp] theorem setHart_turn (s : State) (h : HartId) (x : Hart) : (s.setHart h x).turn = s.turn := rfl
@[simp] theorem setHart_agenda (s : State) (h : HartId) (x : Hart) : (s.setHart h x).agenda = s.agenda := rfl
@[simp] theorem setHart_cur (s : State) (h : HartId) (x : Hart) : (s.setHart h x).cur = s.cur := rfl
@[simp] theorem setHart_clearing (s : State) (h : HartId) (x : Hart) : (s.setHart h x).clearing = s.clearing := rfl
@[simp] theorem setHart_freeCount (s : State) (h : HartId) (x : Hart) : (s.setHart h x).freeCount = s.freeCount := rfl
@[simp] theorem setHart_upsets (s : State) (h : HartId) (x : Hart) : (s.setHart h x).upsets = s.upsets := rfl
@[simp] theorem setHart_node (s : State) (h : HartId) (x : Hart) : (s.setHart h x).node = s.node := rfl
@[simp] theorem setHart_present (s : State) (h : HartId) (x : Hart) : (s.setHart h x).present = s.present := rfl
@[simp] theorem setHart_cores (s : State) (h : HartId) (x : Hart) : (s.setHart h x).cores = s.cores := rfl
@[simp] theorem setHart_clusters (s : State) (h : HartId) (x : Hart) : (s.setHart h x).clusters = s.clusters := rfl
@[simp] theorem setHart_dies (s : State) (h : HartId) (x : Hart) : (s.setHart h x).dies = s.dies := rfl
@[simp] theorem setHart_partitions (s : State) (h : HartId) (x : Hart) : (s.setHart h x).partitions = s.partitions := rfl
@[simp] theorem setHart_clearings (s : State) (h : HartId) (x : Hart) : (s.setHart h x).clearings = s.clearings := rfl
@[simp] theorem setHart_mem (s : State) (h : HartId) (x : Hart) : (s.setHart h x).mem = s.mem := rfl
@[simp] theorem setHart_detour (s : State) (h : HartId) (x : Hart) : (s.setHart h x).detour = s.detour := rfl
@[simp] theorem setHart_banks (s : State) (h : HartId) (x : Hart) : (s.setHart h x).banks = s.banks := rfl
@[simp] theorem setHart_gangs (s : State) (h : HartId) (x : Hart) : (s.setHart h x).gangs = s.gangs := rfl
@[simp] theorem setHart_uses (s : State) (h : HartId) (x : Hart) : (s.setHart h x).uses = s.uses := rfl
@[simp] theorem setHart_saves (s : State) (h : HartId) (x : Hart) : (s.setHart h x).saves = s.saves := rfl
@[simp] theorem setHart_nextId (s : State) (h : HartId) (x : Hart) : (s.setHart h x).nextId = s.nextId := rfl
@[simp] theorem setHart_keySlots (s : State) (h : HartId) (x : Hart) : (s.setHart h x).keySlots = s.keySlots := rfl
@[simp] theorem setHart_boot (s : State) (h : HartId) (x : Hart) : (s.setHart h x).boot = s.boot := rfl
@[simp] theorem setHart_mr (s : State) (h : HartId) (x : Hart) : (s.setHart h x).mr = s.mr := rfl
@[simp] theorem setHart_svnMin (s : State) (h : HartId) (x : Hart) : (s.setHart h x).svnMin = s.svnMin := rfl
@[simp] theorem setHart_images (s : State) (h : HartId) (x : Hart) : (s.setHart h x).images = s.images := rfl
@[simp] theorem setHart_slotA (s : State) (h : HartId) (x : Hart) : (s.setHart h x).slotA = s.slotA := rfl
@[simp] theorem setHart_slotB (s : State) (h : HartId) (x : Hart) : (s.setHart h x).slotB = s.slotB := rfl
@[simp] theorem setHart_committedB (s : State) (h : HartId) (x : Hart) : (s.setHart h x).committedB = s.committedB := rfl
@[simp] theorem setHart_update (s : State) (h : HartId) (x : Hart) : (s.setHart h x).update = s.update := rfl
@[simp] theorem setHart_clockStep (s : State) (h : HartId) (x : Hart) : (s.setHart h x).clockStep = s.clockStep := rfl
@[simp] theorem setHart_spdm (s : State) (h : HartId) (x : Hart) : (s.setHart h x).spdm = s.spdm := rfl
@[simp] theorem setHart_signatures (s : State) (h : HartId) (x : Hart) : (s.setHart h x).signatures = s.signatures := rfl
@[simp] theorem setHart_clock (s : State) (h : HartId) (x : Hart) : (s.setHart h x).clock = s.clock := rfl
@[simp] theorem setHart_answers (s : State) (h : HartId) (x : Hart) : (s.setHart h x).answers = s.answers := rfl
@[simp] theorem setHart_sent (s : State) (h : HartId) (x : Hart) : (s.setHart h x).sent = s.sent := rfl
@[simp] theorem setHart_waiting (s : State) (h : HartId) (x : Hart) : (s.setHart h x).waiting = s.waiting := rfl
@[simp] theorem setHart_bankUse (s : State) (h : HartId) (x : Hart) : (s.setHart h x).bankUse = s.bankUse := rfl
@[simp] theorem setHart_keyCount (s : State) (h : HartId) (x : Hart) : (s.setHart h x).keyCount = s.keyCount := rfl
@[simp] theorem setHart_frameKeys (s : State) (h : HartId) (x : Hart) : (s.setHart h x).frameKeys = s.frameKeys := rfl
@[simp] theorem setHart_lineKeys (s : State) (h : HartId) (x : Hart) : (s.setHart h x).lineKeys = s.lineKeys := rfl
@[simp] theorem setHart_remote (s : State) (h : HartId) (x : Hart) : (s.setHart h x).remote = s.remote := rfl
@[simp] theorem setHart_handover (s : State) (h : HartId) (x : Hart) : (s.setHart h x).handover = s.handover := rfl
@[simp] theorem setHart_messages (s : State) (h : HartId) (x : Hart) : (s.setHart h x).messages = s.messages := rfl
@[simp] theorem setHart_power (s : State) (h : HartId) (x : Hart) : (s.setHart h x).power = s.power := rfl
@[simp] theorem setHart_coolant (s : State) (h : HartId) (x : Hart) : (s.setHart h x).coolant = s.coolant := rfl
@[simp] theorem setHart_interrupts (s : State) (h : HartId) (x : Hart) : (s.setHart h x).interrupts = s.interrupts := rfl

@[simp] theorem modHart_turn (s : State) (h : HartId) (f : Hart → Hart) : (s.modHart h f).turn = s.turn := rfl
@[simp] theorem modHart_agenda (s : State) (h : HartId) (f : Hart → Hart) : (s.modHart h f).agenda = s.agenda := rfl
@[simp] theorem modHart_cur (s : State) (h : HartId) (f : Hart → Hart) : (s.modHart h f).cur = s.cur := rfl
@[simp] theorem modHart_clearing (s : State) (h : HartId) (f : Hart → Hart) : (s.modHart h f).clearing = s.clearing := rfl
@[simp] theorem modHart_freeCount (s : State) (h : HartId) (f : Hart → Hart) : (s.modHart h f).freeCount = s.freeCount := rfl
@[simp] theorem modHart_upsets (s : State) (h : HartId) (f : Hart → Hart) : (s.modHart h f).upsets = s.upsets := rfl
@[simp] theorem modHart_node (s : State) (h : HartId) (f : Hart → Hart) : (s.modHart h f).node = s.node := rfl
@[simp] theorem modHart_present (s : State) (h : HartId) (f : Hart → Hart) : (s.modHart h f).present = s.present := rfl
@[simp] theorem modHart_cores (s : State) (h : HartId) (f : Hart → Hart) : (s.modHart h f).cores = s.cores := rfl
@[simp] theorem modHart_clusters (s : State) (h : HartId) (f : Hart → Hart) : (s.modHart h f).clusters = s.clusters := rfl
@[simp] theorem modHart_dies (s : State) (h : HartId) (f : Hart → Hart) : (s.modHart h f).dies = s.dies := rfl
@[simp] theorem modHart_partitions (s : State) (h : HartId) (f : Hart → Hart) : (s.modHart h f).partitions = s.partitions := rfl
@[simp] theorem modHart_clearings (s : State) (h : HartId) (f : Hart → Hart) : (s.modHart h f).clearings = s.clearings := rfl
@[simp] theorem modHart_mem (s : State) (h : HartId) (f : Hart → Hart) : (s.modHart h f).mem = s.mem := rfl
@[simp] theorem modHart_detour (s : State) (h : HartId) (f : Hart → Hart) : (s.modHart h f).detour = s.detour := rfl
@[simp] theorem modHart_banks (s : State) (h : HartId) (f : Hart → Hart) : (s.modHart h f).banks = s.banks := rfl
@[simp] theorem modHart_gangs (s : State) (h : HartId) (f : Hart → Hart) : (s.modHart h f).gangs = s.gangs := rfl
@[simp] theorem modHart_uses (s : State) (h : HartId) (f : Hart → Hart) : (s.modHart h f).uses = s.uses := rfl
@[simp] theorem modHart_saves (s : State) (h : HartId) (f : Hart → Hart) : (s.modHart h f).saves = s.saves := rfl
@[simp] theorem modHart_nextId (s : State) (h : HartId) (f : Hart → Hart) : (s.modHart h f).nextId = s.nextId := rfl
@[simp] theorem modHart_keySlots (s : State) (h : HartId) (f : Hart → Hart) : (s.modHart h f).keySlots = s.keySlots := rfl
@[simp] theorem modHart_boot (s : State) (h : HartId) (f : Hart → Hart) : (s.modHart h f).boot = s.boot := rfl
@[simp] theorem modHart_mr (s : State) (h : HartId) (f : Hart → Hart) : (s.modHart h f).mr = s.mr := rfl
@[simp] theorem modHart_svnMin (s : State) (h : HartId) (f : Hart → Hart) : (s.modHart h f).svnMin = s.svnMin := rfl
@[simp] theorem modHart_images (s : State) (h : HartId) (f : Hart → Hart) : (s.modHart h f).images = s.images := rfl
@[simp] theorem modHart_slotA (s : State) (h : HartId) (f : Hart → Hart) : (s.modHart h f).slotA = s.slotA := rfl
@[simp] theorem modHart_slotB (s : State) (h : HartId) (f : Hart → Hart) : (s.modHart h f).slotB = s.slotB := rfl
@[simp] theorem modHart_committedB (s : State) (h : HartId) (f : Hart → Hart) : (s.modHart h f).committedB = s.committedB := rfl
@[simp] theorem modHart_update (s : State) (h : HartId) (f : Hart → Hart) : (s.modHart h f).update = s.update := rfl
@[simp] theorem modHart_clockStep (s : State) (h : HartId) (f : Hart → Hart) : (s.modHart h f).clockStep = s.clockStep := rfl
@[simp] theorem modHart_spdm (s : State) (h : HartId) (f : Hart → Hart) : (s.modHart h f).spdm = s.spdm := rfl
@[simp] theorem modHart_signatures (s : State) (h : HartId) (f : Hart → Hart) : (s.modHart h f).signatures = s.signatures := rfl
@[simp] theorem modHart_clock (s : State) (h : HartId) (f : Hart → Hart) : (s.modHart h f).clock = s.clock := rfl
@[simp] theorem modHart_answers (s : State) (h : HartId) (f : Hart → Hart) : (s.modHart h f).answers = s.answers := rfl
@[simp] theorem modHart_sent (s : State) (h : HartId) (f : Hart → Hart) : (s.modHart h f).sent = s.sent := rfl
@[simp] theorem modHart_waiting (s : State) (h : HartId) (f : Hart → Hart) : (s.modHart h f).waiting = s.waiting := rfl
@[simp] theorem modHart_bankUse (s : State) (h : HartId) (f : Hart → Hart) : (s.modHart h f).bankUse = s.bankUse := rfl
@[simp] theorem modHart_keyCount (s : State) (h : HartId) (f : Hart → Hart) : (s.modHart h f).keyCount = s.keyCount := rfl
@[simp] theorem modHart_frameKeys (s : State) (h : HartId) (f : Hart → Hart) : (s.modHart h f).frameKeys = s.frameKeys := rfl
@[simp] theorem modHart_lineKeys (s : State) (h : HartId) (f : Hart → Hart) : (s.modHart h f).lineKeys = s.lineKeys := rfl
@[simp] theorem modHart_remote (s : State) (h : HartId) (f : Hart → Hart) : (s.modHart h f).remote = s.remote := rfl
@[simp] theorem modHart_handover (s : State) (h : HartId) (f : Hart → Hart) : (s.modHart h f).handover = s.handover := rfl
@[simp] theorem modHart_messages (s : State) (h : HartId) (f : Hart → Hart) : (s.modHart h f).messages = s.messages := rfl
@[simp] theorem modHart_power (s : State) (h : HartId) (f : Hart → Hart) : (s.modHart h f).power = s.power := rfl
@[simp] theorem modHart_coolant (s : State) (h : HartId) (f : Hart → Hart) : (s.modHart h f).coolant = s.coolant := rfl
@[simp] theorem modHart_interrupts (s : State) (h : HartId) (f : Hart → Hart) : (s.modHart h f).interrupts = s.interrupts := rfl

@[simp] theorem modMe_turn (s : State) (f : Hart → Hart) : (s.modMe f).turn = s.turn := rfl
@[simp] theorem modMe_agenda (s : State) (f : Hart → Hart) : (s.modMe f).agenda = s.agenda := rfl
@[simp] theorem modMe_cur (s : State) (f : Hart → Hart) : (s.modMe f).cur = s.cur := rfl
@[simp] theorem modMe_clearing (s : State) (f : Hart → Hart) : (s.modMe f).clearing = s.clearing := rfl
@[simp] theorem modMe_freeCount (s : State) (f : Hart → Hart) : (s.modMe f).freeCount = s.freeCount := rfl
@[simp] theorem modMe_upsets (s : State) (f : Hart → Hart) : (s.modMe f).upsets = s.upsets := rfl
@[simp] theorem modMe_node (s : State) (f : Hart → Hart) : (s.modMe f).node = s.node := rfl
@[simp] theorem modMe_present (s : State) (f : Hart → Hart) : (s.modMe f).present = s.present := rfl
@[simp] theorem modMe_cores (s : State) (f : Hart → Hart) : (s.modMe f).cores = s.cores := rfl
@[simp] theorem modMe_clusters (s : State) (f : Hart → Hart) : (s.modMe f).clusters = s.clusters := rfl
@[simp] theorem modMe_dies (s : State) (f : Hart → Hart) : (s.modMe f).dies = s.dies := rfl
@[simp] theorem modMe_partitions (s : State) (f : Hart → Hart) : (s.modMe f).partitions = s.partitions := rfl
@[simp] theorem modMe_clearings (s : State) (f : Hart → Hart) : (s.modMe f).clearings = s.clearings := rfl
@[simp] theorem modMe_mem (s : State) (f : Hart → Hart) : (s.modMe f).mem = s.mem := rfl
@[simp] theorem modMe_detour (s : State) (f : Hart → Hart) : (s.modMe f).detour = s.detour := rfl
@[simp] theorem modMe_banks (s : State) (f : Hart → Hart) : (s.modMe f).banks = s.banks := rfl
@[simp] theorem modMe_gangs (s : State) (f : Hart → Hart) : (s.modMe f).gangs = s.gangs := rfl
@[simp] theorem modMe_uses (s : State) (f : Hart → Hart) : (s.modMe f).uses = s.uses := rfl
@[simp] theorem modMe_saves (s : State) (f : Hart → Hart) : (s.modMe f).saves = s.saves := rfl
@[simp] theorem modMe_nextId (s : State) (f : Hart → Hart) : (s.modMe f).nextId = s.nextId := rfl
@[simp] theorem modMe_keySlots (s : State) (f : Hart → Hart) : (s.modMe f).keySlots = s.keySlots := rfl
@[simp] theorem modMe_boot (s : State) (f : Hart → Hart) : (s.modMe f).boot = s.boot := rfl
@[simp] theorem modMe_mr (s : State) (f : Hart → Hart) : (s.modMe f).mr = s.mr := rfl
@[simp] theorem modMe_svnMin (s : State) (f : Hart → Hart) : (s.modMe f).svnMin = s.svnMin := rfl
@[simp] theorem modMe_images (s : State) (f : Hart → Hart) : (s.modMe f).images = s.images := rfl
@[simp] theorem modMe_slotA (s : State) (f : Hart → Hart) : (s.modMe f).slotA = s.slotA := rfl
@[simp] theorem modMe_slotB (s : State) (f : Hart → Hart) : (s.modMe f).slotB = s.slotB := rfl
@[simp] theorem modMe_committedB (s : State) (f : Hart → Hart) : (s.modMe f).committedB = s.committedB := rfl
@[simp] theorem modMe_update (s : State) (f : Hart → Hart) : (s.modMe f).update = s.update := rfl
@[simp] theorem modMe_clockStep (s : State) (f : Hart → Hart) : (s.modMe f).clockStep = s.clockStep := rfl
@[simp] theorem modMe_spdm (s : State) (f : Hart → Hart) : (s.modMe f).spdm = s.spdm := rfl
@[simp] theorem modMe_signatures (s : State) (f : Hart → Hart) : (s.modMe f).signatures = s.signatures := rfl
@[simp] theorem modMe_clock (s : State) (f : Hart → Hart) : (s.modMe f).clock = s.clock := rfl
@[simp] theorem modMe_answers (s : State) (f : Hart → Hart) : (s.modMe f).answers = s.answers := rfl
@[simp] theorem modMe_sent (s : State) (f : Hart → Hart) : (s.modMe f).sent = s.sent := rfl
@[simp] theorem modMe_waiting (s : State) (f : Hart → Hart) : (s.modMe f).waiting = s.waiting := rfl
@[simp] theorem modMe_bankUse (s : State) (f : Hart → Hart) : (s.modMe f).bankUse = s.bankUse := rfl
@[simp] theorem modMe_keyCount (s : State) (f : Hart → Hart) : (s.modMe f).keyCount = s.keyCount := rfl
@[simp] theorem modMe_frameKeys (s : State) (f : Hart → Hart) : (s.modMe f).frameKeys = s.frameKeys := rfl
@[simp] theorem modMe_lineKeys (s : State) (f : Hart → Hart) : (s.modMe f).lineKeys = s.lineKeys := rfl
@[simp] theorem modMe_remote (s : State) (f : Hart → Hart) : (s.modMe f).remote = s.remote := rfl
@[simp] theorem modMe_handover (s : State) (f : Hart → Hart) : (s.modMe f).handover = s.handover := rfl
@[simp] theorem modMe_messages (s : State) (f : Hart → Hart) : (s.modMe f).messages = s.messages := rfl
@[simp] theorem modMe_power (s : State) (f : Hart → Hart) : (s.modMe f).power = s.power := rfl
@[simp] theorem modMe_coolant (s : State) (f : Hart → Hart) : (s.modMe f).coolant = s.coolant := rfl
@[simp] theorem modMe_interrupts (s : State) (f : Hart → Hart) : (s.modMe f).interrupts = s.interrupts := rfl

@[simp] theorem setCore_turn (s : State) (c : Nat) (x : Core) : (s.setCore c x).turn = s.turn := rfl
@[simp] theorem setCore_agenda (s : State) (c : Nat) (x : Core) : (s.setCore c x).agenda = s.agenda := rfl
@[simp] theorem setCore_cur (s : State) (c : Nat) (x : Core) : (s.setCore c x).cur = s.cur := rfl
@[simp] theorem setCore_clearing (s : State) (c : Nat) (x : Core) : (s.setCore c x).clearing = s.clearing := rfl
@[simp] theorem setCore_freeCount (s : State) (c : Nat) (x : Core) : (s.setCore c x).freeCount = s.freeCount := rfl
@[simp] theorem setCore_upsets (s : State) (c : Nat) (x : Core) : (s.setCore c x).upsets = s.upsets := rfl
@[simp] theorem setCore_node (s : State) (c : Nat) (x : Core) : (s.setCore c x).node = s.node := rfl
@[simp] theorem setCore_present (s : State) (c : Nat) (x : Core) : (s.setCore c x).present = s.present := rfl
@[simp] theorem setCore_harts (s : State) (c : Nat) (x : Core) : (s.setCore c x).harts = s.harts := rfl
@[simp] theorem setCore_clusters (s : State) (c : Nat) (x : Core) : (s.setCore c x).clusters = s.clusters := rfl
@[simp] theorem setCore_dies (s : State) (c : Nat) (x : Core) : (s.setCore c x).dies = s.dies := rfl
@[simp] theorem setCore_partitions (s : State) (c : Nat) (x : Core) : (s.setCore c x).partitions = s.partitions := rfl
@[simp] theorem setCore_clearings (s : State) (c : Nat) (x : Core) : (s.setCore c x).clearings = s.clearings := rfl
@[simp] theorem setCore_mem (s : State) (c : Nat) (x : Core) : (s.setCore c x).mem = s.mem := rfl
@[simp] theorem setCore_detour (s : State) (c : Nat) (x : Core) : (s.setCore c x).detour = s.detour := rfl
@[simp] theorem setCore_banks (s : State) (c : Nat) (x : Core) : (s.setCore c x).banks = s.banks := rfl
@[simp] theorem setCore_gangs (s : State) (c : Nat) (x : Core) : (s.setCore c x).gangs = s.gangs := rfl
@[simp] theorem setCore_uses (s : State) (c : Nat) (x : Core) : (s.setCore c x).uses = s.uses := rfl
@[simp] theorem setCore_saves (s : State) (c : Nat) (x : Core) : (s.setCore c x).saves = s.saves := rfl
@[simp] theorem setCore_nextId (s : State) (c : Nat) (x : Core) : (s.setCore c x).nextId = s.nextId := rfl
@[simp] theorem setCore_keySlots (s : State) (c : Nat) (x : Core) : (s.setCore c x).keySlots = s.keySlots := rfl
@[simp] theorem setCore_boot (s : State) (c : Nat) (x : Core) : (s.setCore c x).boot = s.boot := rfl
@[simp] theorem setCore_mr (s : State) (c : Nat) (x : Core) : (s.setCore c x).mr = s.mr := rfl
@[simp] theorem setCore_svnMin (s : State) (c : Nat) (x : Core) : (s.setCore c x).svnMin = s.svnMin := rfl
@[simp] theorem setCore_images (s : State) (c : Nat) (x : Core) : (s.setCore c x).images = s.images := rfl
@[simp] theorem setCore_slotA (s : State) (c : Nat) (x : Core) : (s.setCore c x).slotA = s.slotA := rfl
@[simp] theorem setCore_slotB (s : State) (c : Nat) (x : Core) : (s.setCore c x).slotB = s.slotB := rfl
@[simp] theorem setCore_committedB (s : State) (c : Nat) (x : Core) : (s.setCore c x).committedB = s.committedB := rfl
@[simp] theorem setCore_update (s : State) (c : Nat) (x : Core) : (s.setCore c x).update = s.update := rfl
@[simp] theorem setCore_clockStep (s : State) (c : Nat) (x : Core) : (s.setCore c x).clockStep = s.clockStep := rfl
@[simp] theorem setCore_spdm (s : State) (c : Nat) (x : Core) : (s.setCore c x).spdm = s.spdm := rfl
@[simp] theorem setCore_signatures (s : State) (c : Nat) (x : Core) : (s.setCore c x).signatures = s.signatures := rfl
@[simp] theorem setCore_clock (s : State) (c : Nat) (x : Core) : (s.setCore c x).clock = s.clock := rfl
@[simp] theorem setCore_answers (s : State) (c : Nat) (x : Core) : (s.setCore c x).answers = s.answers := rfl
@[simp] theorem setCore_sent (s : State) (c : Nat) (x : Core) : (s.setCore c x).sent = s.sent := rfl
@[simp] theorem setCore_waiting (s : State) (c : Nat) (x : Core) : (s.setCore c x).waiting = s.waiting := rfl
@[simp] theorem setCore_bankUse (s : State) (c : Nat) (x : Core) : (s.setCore c x).bankUse = s.bankUse := rfl
@[simp] theorem setCore_keyCount (s : State) (c : Nat) (x : Core) : (s.setCore c x).keyCount = s.keyCount := rfl
@[simp] theorem setCore_frameKeys (s : State) (c : Nat) (x : Core) : (s.setCore c x).frameKeys = s.frameKeys := rfl
@[simp] theorem setCore_lineKeys (s : State) (c : Nat) (x : Core) : (s.setCore c x).lineKeys = s.lineKeys := rfl
@[simp] theorem setCore_remote (s : State) (c : Nat) (x : Core) : (s.setCore c x).remote = s.remote := rfl
@[simp] theorem setCore_handover (s : State) (c : Nat) (x : Core) : (s.setCore c x).handover = s.handover := rfl
@[simp] theorem setCore_messages (s : State) (c : Nat) (x : Core) : (s.setCore c x).messages = s.messages := rfl
@[simp] theorem setCore_power (s : State) (c : Nat) (x : Core) : (s.setCore c x).power = s.power := rfl
@[simp] theorem setCore_coolant (s : State) (c : Nat) (x : Core) : (s.setCore c x).coolant = s.coolant := rfl
@[simp] theorem setCore_interrupts (s : State) (c : Nat) (x : Core) : (s.setCore c x).interrupts = s.interrupts := rfl

@[simp] theorem setCluster_turn (s : State) (k : Nat) (x : Cluster) : (s.setCluster k x).turn = s.turn := rfl
@[simp] theorem setCluster_agenda (s : State) (k : Nat) (x : Cluster) : (s.setCluster k x).agenda = s.agenda := rfl
@[simp] theorem setCluster_cur (s : State) (k : Nat) (x : Cluster) : (s.setCluster k x).cur = s.cur := rfl
@[simp] theorem setCluster_clearing (s : State) (k : Nat) (x : Cluster) : (s.setCluster k x).clearing = s.clearing := rfl
@[simp] theorem setCluster_freeCount (s : State) (k : Nat) (x : Cluster) : (s.setCluster k x).freeCount = s.freeCount := rfl
@[simp] theorem setCluster_upsets (s : State) (k : Nat) (x : Cluster) : (s.setCluster k x).upsets = s.upsets := rfl
@[simp] theorem setCluster_node (s : State) (k : Nat) (x : Cluster) : (s.setCluster k x).node = s.node := rfl
@[simp] theorem setCluster_present (s : State) (k : Nat) (x : Cluster) : (s.setCluster k x).present = s.present := rfl
@[simp] theorem setCluster_harts (s : State) (k : Nat) (x : Cluster) : (s.setCluster k x).harts = s.harts := rfl
@[simp] theorem setCluster_cores (s : State) (k : Nat) (x : Cluster) : (s.setCluster k x).cores = s.cores := rfl
@[simp] theorem setCluster_dies (s : State) (k : Nat) (x : Cluster) : (s.setCluster k x).dies = s.dies := rfl
@[simp] theorem setCluster_partitions (s : State) (k : Nat) (x : Cluster) : (s.setCluster k x).partitions = s.partitions := rfl
@[simp] theorem setCluster_clearings (s : State) (k : Nat) (x : Cluster) : (s.setCluster k x).clearings = s.clearings := rfl
@[simp] theorem setCluster_mem (s : State) (k : Nat) (x : Cluster) : (s.setCluster k x).mem = s.mem := rfl
@[simp] theorem setCluster_detour (s : State) (k : Nat) (x : Cluster) : (s.setCluster k x).detour = s.detour := rfl
@[simp] theorem setCluster_banks (s : State) (k : Nat) (x : Cluster) : (s.setCluster k x).banks = s.banks := rfl
@[simp] theorem setCluster_gangs (s : State) (k : Nat) (x : Cluster) : (s.setCluster k x).gangs = s.gangs := rfl
@[simp] theorem setCluster_uses (s : State) (k : Nat) (x : Cluster) : (s.setCluster k x).uses = s.uses := rfl
@[simp] theorem setCluster_saves (s : State) (k : Nat) (x : Cluster) : (s.setCluster k x).saves = s.saves := rfl
@[simp] theorem setCluster_nextId (s : State) (k : Nat) (x : Cluster) : (s.setCluster k x).nextId = s.nextId := rfl
@[simp] theorem setCluster_keySlots (s : State) (k : Nat) (x : Cluster) : (s.setCluster k x).keySlots = s.keySlots := rfl
@[simp] theorem setCluster_boot (s : State) (k : Nat) (x : Cluster) : (s.setCluster k x).boot = s.boot := rfl
@[simp] theorem setCluster_mr (s : State) (k : Nat) (x : Cluster) : (s.setCluster k x).mr = s.mr := rfl
@[simp] theorem setCluster_svnMin (s : State) (k : Nat) (x : Cluster) : (s.setCluster k x).svnMin = s.svnMin := rfl
@[simp] theorem setCluster_images (s : State) (k : Nat) (x : Cluster) : (s.setCluster k x).images = s.images := rfl
@[simp] theorem setCluster_slotA (s : State) (k : Nat) (x : Cluster) : (s.setCluster k x).slotA = s.slotA := rfl
@[simp] theorem setCluster_slotB (s : State) (k : Nat) (x : Cluster) : (s.setCluster k x).slotB = s.slotB := rfl
@[simp] theorem setCluster_committedB (s : State) (k : Nat) (x : Cluster) : (s.setCluster k x).committedB = s.committedB := rfl
@[simp] theorem setCluster_update (s : State) (k : Nat) (x : Cluster) : (s.setCluster k x).update = s.update := rfl
@[simp] theorem setCluster_clockStep (s : State) (k : Nat) (x : Cluster) : (s.setCluster k x).clockStep = s.clockStep := rfl
@[simp] theorem setCluster_spdm (s : State) (k : Nat) (x : Cluster) : (s.setCluster k x).spdm = s.spdm := rfl
@[simp] theorem setCluster_signatures (s : State) (k : Nat) (x : Cluster) : (s.setCluster k x).signatures = s.signatures := rfl
@[simp] theorem setCluster_clock (s : State) (k : Nat) (x : Cluster) : (s.setCluster k x).clock = s.clock := rfl
@[simp] theorem setCluster_answers (s : State) (k : Nat) (x : Cluster) : (s.setCluster k x).answers = s.answers := rfl
@[simp] theorem setCluster_sent (s : State) (k : Nat) (x : Cluster) : (s.setCluster k x).sent = s.sent := rfl
@[simp] theorem setCluster_waiting (s : State) (k : Nat) (x : Cluster) : (s.setCluster k x).waiting = s.waiting := rfl
@[simp] theorem setCluster_bankUse (s : State) (k : Nat) (x : Cluster) : (s.setCluster k x).bankUse = s.bankUse := rfl
@[simp] theorem setCluster_keyCount (s : State) (k : Nat) (x : Cluster) : (s.setCluster k x).keyCount = s.keyCount := rfl
@[simp] theorem setCluster_frameKeys (s : State) (k : Nat) (x : Cluster) : (s.setCluster k x).frameKeys = s.frameKeys := rfl
@[simp] theorem setCluster_lineKeys (s : State) (k : Nat) (x : Cluster) : (s.setCluster k x).lineKeys = s.lineKeys := rfl
@[simp] theorem setCluster_remote (s : State) (k : Nat) (x : Cluster) : (s.setCluster k x).remote = s.remote := rfl
@[simp] theorem setCluster_handover (s : State) (k : Nat) (x : Cluster) : (s.setCluster k x).handover = s.handover := rfl
@[simp] theorem setCluster_messages (s : State) (k : Nat) (x : Cluster) : (s.setCluster k x).messages = s.messages := rfl
@[simp] theorem setCluster_power (s : State) (k : Nat) (x : Cluster) : (s.setCluster k x).power = s.power := rfl
@[simp] theorem setCluster_coolant (s : State) (k : Nat) (x : Cluster) : (s.setCluster k x).coolant = s.coolant := rfl
@[simp] theorem setCluster_interrupts (s : State) (k : Nat) (x : Cluster) : (s.setCluster k x).interrupts = s.interrupts := rfl

@[simp] theorem setDie_turn (s : State) (d : Nat) (x : Die) : (s.setDie d x).turn = s.turn := rfl
@[simp] theorem setDie_agenda (s : State) (d : Nat) (x : Die) : (s.setDie d x).agenda = s.agenda := rfl
@[simp] theorem setDie_cur (s : State) (d : Nat) (x : Die) : (s.setDie d x).cur = s.cur := rfl
@[simp] theorem setDie_clearing (s : State) (d : Nat) (x : Die) : (s.setDie d x).clearing = s.clearing := rfl
@[simp] theorem setDie_freeCount (s : State) (d : Nat) (x : Die) : (s.setDie d x).freeCount = s.freeCount := rfl
@[simp] theorem setDie_upsets (s : State) (d : Nat) (x : Die) : (s.setDie d x).upsets = s.upsets := rfl
@[simp] theorem setDie_node (s : State) (d : Nat) (x : Die) : (s.setDie d x).node = s.node := rfl
@[simp] theorem setDie_present (s : State) (d : Nat) (x : Die) : (s.setDie d x).present = s.present := rfl
@[simp] theorem setDie_harts (s : State) (d : Nat) (x : Die) : (s.setDie d x).harts = s.harts := rfl
@[simp] theorem setDie_cores (s : State) (d : Nat) (x : Die) : (s.setDie d x).cores = s.cores := rfl
@[simp] theorem setDie_clusters (s : State) (d : Nat) (x : Die) : (s.setDie d x).clusters = s.clusters := rfl
@[simp] theorem setDie_partitions (s : State) (d : Nat) (x : Die) : (s.setDie d x).partitions = s.partitions := rfl
@[simp] theorem setDie_clearings (s : State) (d : Nat) (x : Die) : (s.setDie d x).clearings = s.clearings := rfl
@[simp] theorem setDie_mem (s : State) (d : Nat) (x : Die) : (s.setDie d x).mem = s.mem := rfl
@[simp] theorem setDie_detour (s : State) (d : Nat) (x : Die) : (s.setDie d x).detour = s.detour := rfl
@[simp] theorem setDie_banks (s : State) (d : Nat) (x : Die) : (s.setDie d x).banks = s.banks := rfl
@[simp] theorem setDie_gangs (s : State) (d : Nat) (x : Die) : (s.setDie d x).gangs = s.gangs := rfl
@[simp] theorem setDie_uses (s : State) (d : Nat) (x : Die) : (s.setDie d x).uses = s.uses := rfl
@[simp] theorem setDie_saves (s : State) (d : Nat) (x : Die) : (s.setDie d x).saves = s.saves := rfl
@[simp] theorem setDie_nextId (s : State) (d : Nat) (x : Die) : (s.setDie d x).nextId = s.nextId := rfl
@[simp] theorem setDie_keySlots (s : State) (d : Nat) (x : Die) : (s.setDie d x).keySlots = s.keySlots := rfl
@[simp] theorem setDie_boot (s : State) (d : Nat) (x : Die) : (s.setDie d x).boot = s.boot := rfl
@[simp] theorem setDie_mr (s : State) (d : Nat) (x : Die) : (s.setDie d x).mr = s.mr := rfl
@[simp] theorem setDie_svnMin (s : State) (d : Nat) (x : Die) : (s.setDie d x).svnMin = s.svnMin := rfl
@[simp] theorem setDie_images (s : State) (d : Nat) (x : Die) : (s.setDie d x).images = s.images := rfl
@[simp] theorem setDie_slotA (s : State) (d : Nat) (x : Die) : (s.setDie d x).slotA = s.slotA := rfl
@[simp] theorem setDie_slotB (s : State) (d : Nat) (x : Die) : (s.setDie d x).slotB = s.slotB := rfl
@[simp] theorem setDie_committedB (s : State) (d : Nat) (x : Die) : (s.setDie d x).committedB = s.committedB := rfl
@[simp] theorem setDie_update (s : State) (d : Nat) (x : Die) : (s.setDie d x).update = s.update := rfl
@[simp] theorem setDie_clockStep (s : State) (d : Nat) (x : Die) : (s.setDie d x).clockStep = s.clockStep := rfl
@[simp] theorem setDie_spdm (s : State) (d : Nat) (x : Die) : (s.setDie d x).spdm = s.spdm := rfl
@[simp] theorem setDie_signatures (s : State) (d : Nat) (x : Die) : (s.setDie d x).signatures = s.signatures := rfl
@[simp] theorem setDie_clock (s : State) (d : Nat) (x : Die) : (s.setDie d x).clock = s.clock := rfl
@[simp] theorem setDie_answers (s : State) (d : Nat) (x : Die) : (s.setDie d x).answers = s.answers := rfl
@[simp] theorem setDie_sent (s : State) (d : Nat) (x : Die) : (s.setDie d x).sent = s.sent := rfl
@[simp] theorem setDie_waiting (s : State) (d : Nat) (x : Die) : (s.setDie d x).waiting = s.waiting := rfl
@[simp] theorem setDie_bankUse (s : State) (d : Nat) (x : Die) : (s.setDie d x).bankUse = s.bankUse := rfl
@[simp] theorem setDie_keyCount (s : State) (d : Nat) (x : Die) : (s.setDie d x).keyCount = s.keyCount := rfl
@[simp] theorem setDie_frameKeys (s : State) (d : Nat) (x : Die) : (s.setDie d x).frameKeys = s.frameKeys := rfl
@[simp] theorem setDie_lineKeys (s : State) (d : Nat) (x : Die) : (s.setDie d x).lineKeys = s.lineKeys := rfl
@[simp] theorem setDie_remote (s : State) (d : Nat) (x : Die) : (s.setDie d x).remote = s.remote := rfl
@[simp] theorem setDie_handover (s : State) (d : Nat) (x : Die) : (s.setDie d x).handover = s.handover := rfl
@[simp] theorem setDie_messages (s : State) (d : Nat) (x : Die) : (s.setDie d x).messages = s.messages := rfl
@[simp] theorem setDie_power (s : State) (d : Nat) (x : Die) : (s.setDie d x).power = s.power := rfl
@[simp] theorem setDie_coolant (s : State) (d : Nat) (x : Die) : (s.setDie d x).coolant = s.coolant := rfl
@[simp] theorem setDie_interrupts (s : State) (d : Nat) (x : Die) : (s.setDie d x).interrupts = s.interrupts := rfl

@[simp] theorem setPartition_turn (s : State) (p : Nat) (x : Partition) : (s.setPartition p x).turn = s.turn := rfl
@[simp] theorem setPartition_agenda (s : State) (p : Nat) (x : Partition) : (s.setPartition p x).agenda = s.agenda := rfl
@[simp] theorem setPartition_cur (s : State) (p : Nat) (x : Partition) : (s.setPartition p x).cur = s.cur := rfl
@[simp] theorem setPartition_clearing (s : State) (p : Nat) (x : Partition) : (s.setPartition p x).clearing = s.clearing := rfl
@[simp] theorem setPartition_freeCount (s : State) (p : Nat) (x : Partition) : (s.setPartition p x).freeCount = s.freeCount := rfl
@[simp] theorem setPartition_upsets (s : State) (p : Nat) (x : Partition) : (s.setPartition p x).upsets = s.upsets := rfl
@[simp] theorem setPartition_node (s : State) (p : Nat) (x : Partition) : (s.setPartition p x).node = s.node := rfl
@[simp] theorem setPartition_present (s : State) (p : Nat) (x : Partition) : (s.setPartition p x).present = s.present := rfl
@[simp] theorem setPartition_harts (s : State) (p : Nat) (x : Partition) : (s.setPartition p x).harts = s.harts := rfl
@[simp] theorem setPartition_cores (s : State) (p : Nat) (x : Partition) : (s.setPartition p x).cores = s.cores := rfl
@[simp] theorem setPartition_clusters (s : State) (p : Nat) (x : Partition) : (s.setPartition p x).clusters = s.clusters := rfl
@[simp] theorem setPartition_dies (s : State) (p : Nat) (x : Partition) : (s.setPartition p x).dies = s.dies := rfl
@[simp] theorem setPartition_clearings (s : State) (p : Nat) (x : Partition) : (s.setPartition p x).clearings = s.clearings := rfl
@[simp] theorem setPartition_mem (s : State) (p : Nat) (x : Partition) : (s.setPartition p x).mem = s.mem := rfl
@[simp] theorem setPartition_detour (s : State) (p : Nat) (x : Partition) : (s.setPartition p x).detour = s.detour := rfl
@[simp] theorem setPartition_banks (s : State) (p : Nat) (x : Partition) : (s.setPartition p x).banks = s.banks := rfl
@[simp] theorem setPartition_gangs (s : State) (p : Nat) (x : Partition) : (s.setPartition p x).gangs = s.gangs := rfl
@[simp] theorem setPartition_uses (s : State) (p : Nat) (x : Partition) : (s.setPartition p x).uses = s.uses := rfl
@[simp] theorem setPartition_saves (s : State) (p : Nat) (x : Partition) : (s.setPartition p x).saves = s.saves := rfl
@[simp] theorem setPartition_nextId (s : State) (p : Nat) (x : Partition) : (s.setPartition p x).nextId = s.nextId := rfl
@[simp] theorem setPartition_keySlots (s : State) (p : Nat) (x : Partition) : (s.setPartition p x).keySlots = s.keySlots := rfl
@[simp] theorem setPartition_boot (s : State) (p : Nat) (x : Partition) : (s.setPartition p x).boot = s.boot := rfl
@[simp] theorem setPartition_mr (s : State) (p : Nat) (x : Partition) : (s.setPartition p x).mr = s.mr := rfl
@[simp] theorem setPartition_svnMin (s : State) (p : Nat) (x : Partition) : (s.setPartition p x).svnMin = s.svnMin := rfl
@[simp] theorem setPartition_images (s : State) (p : Nat) (x : Partition) : (s.setPartition p x).images = s.images := rfl
@[simp] theorem setPartition_slotA (s : State) (p : Nat) (x : Partition) : (s.setPartition p x).slotA = s.slotA := rfl
@[simp] theorem setPartition_slotB (s : State) (p : Nat) (x : Partition) : (s.setPartition p x).slotB = s.slotB := rfl
@[simp] theorem setPartition_committedB (s : State) (p : Nat) (x : Partition) : (s.setPartition p x).committedB = s.committedB := rfl
@[simp] theorem setPartition_update (s : State) (p : Nat) (x : Partition) : (s.setPartition p x).update = s.update := rfl
@[simp] theorem setPartition_clockStep (s : State) (p : Nat) (x : Partition) : (s.setPartition p x).clockStep = s.clockStep := rfl
@[simp] theorem setPartition_spdm (s : State) (p : Nat) (x : Partition) : (s.setPartition p x).spdm = s.spdm := rfl
@[simp] theorem setPartition_signatures (s : State) (p : Nat) (x : Partition) : (s.setPartition p x).signatures = s.signatures := rfl
@[simp] theorem setPartition_clock (s : State) (p : Nat) (x : Partition) : (s.setPartition p x).clock = s.clock := rfl
@[simp] theorem setPartition_answers (s : State) (p : Nat) (x : Partition) : (s.setPartition p x).answers = s.answers := rfl
@[simp] theorem setPartition_sent (s : State) (p : Nat) (x : Partition) : (s.setPartition p x).sent = s.sent := rfl
@[simp] theorem setPartition_waiting (s : State) (p : Nat) (x : Partition) : (s.setPartition p x).waiting = s.waiting := rfl
@[simp] theorem setPartition_bankUse (s : State) (p : Nat) (x : Partition) : (s.setPartition p x).bankUse = s.bankUse := rfl
@[simp] theorem setPartition_keyCount (s : State) (p : Nat) (x : Partition) : (s.setPartition p x).keyCount = s.keyCount := rfl
@[simp] theorem setPartition_frameKeys (s : State) (p : Nat) (x : Partition) : (s.setPartition p x).frameKeys = s.frameKeys := rfl
@[simp] theorem setPartition_lineKeys (s : State) (p : Nat) (x : Partition) : (s.setPartition p x).lineKeys = s.lineKeys := rfl
@[simp] theorem setPartition_remote (s : State) (p : Nat) (x : Partition) : (s.setPartition p x).remote = s.remote := rfl
@[simp] theorem setPartition_handover (s : State) (p : Nat) (x : Partition) : (s.setPartition p x).handover = s.handover := rfl
@[simp] theorem setPartition_messages (s : State) (p : Nat) (x : Partition) : (s.setPartition p x).messages = s.messages := rfl
@[simp] theorem setPartition_power (s : State) (p : Nat) (x : Partition) : (s.setPartition p x).power = s.power := rfl
@[simp] theorem setPartition_coolant (s : State) (p : Nat) (x : Partition) : (s.setPartition p x).coolant = s.coolant := rfl
@[simp] theorem setPartition_interrupts (s : State) (p : Nat) (x : Partition) : (s.setPartition p x).interrupts = s.interrupts := rfl

end State

end Sys2Proof.Machine
end

