-- ==== Sys2Proof/Laws/Tables.lean ====
section
/-! SUPPORT. Tables: what a table holds after a change, and with it the parts of the state that tables hold. -/

namespace Sys2Proof.Machine

open Sys2Proof

set_option Elab.async false

namespace Table

variable {κ α : Type} [DecidableEq κ]

@[simp] theorem find_set_same (t : Table κ α) (k : κ) (x : α) : (t.set k x).find k = some x := by
  induction t with
  | nil => simp [set, find]
  | cons e t ih =>
    by_cases h : e.1 = k
    · simp [set, find, h]
    · simp [set, find, h, ih]

theorem find_set_other (t : Table κ α) {k j : κ} (x : α) (h : j ≠ k) : (t.set k x).find j = t.find j := by
  induction t with
  | nil => simp [set, find, h.symm]
  | cons e t ih =>
    by_cases g : e.1 = k
    · simp [set, find, g, h.symm]
    · simp [set, find, g, ih]

@[simp] theorem get_set_same (t : Table κ α) (k : κ) (x d : α) : (t.set k x).get k d = x := by simp [get]

theorem get_set_other (t : Table κ α) {k j : κ} (x d : α) (h : j ≠ k) : (t.set k x).get j d = t.get j d := by
  simp [get, find_set_other t x h]

/-- Of two changes to one value the second remains. -/
@[simp] theorem set_set (t : Table κ α) (k : κ) (x y : α) : (t.set k x).set k y = t.set k y := by
  induction t with
  | nil => simp [set]
  | cons e t ih =>
    by_cases h : e.1 = k
    · simp [set, h]
    · simp [set, h, ih]

/-- What holds of every entry still does after a change to a value of which it holds. -/
theorem forall_set {P : α → Prop} {t : Table κ α} {k : κ} {x : α} (h : ∀ e ∈ t, P e.2) (hx : P x) :
    ∀ e ∈ t.set k x, P e.2 := by
  induction t with
  | nil => simp [set, hx]
  | cons e t ih =>
    have ht : ∀ f ∈ t, P f.2 := fun f hf => h f (List.mem_cons_of_mem _ hf)
    by_cases g : e.1 = k
    · simpa [set, g, hx] using fun a b hab => ht (a, b) hab
    · have he := h e (List.mem_cons_self ..)
      intro f hf
      simp only [set, g, if_false, List.mem_cons] at hf
      rcases hf with rfl | hf
      · exact he
      · exact ih ht f hf

/-- The value for a key has what every entry has, where the default has it. -/
theorem get_has {P : α → Prop} {t : Table κ α} {d : α} (k : κ) (h : ∀ e ∈ t, P e.2) (hd : P d) : P (t.get k d) := by
  induction t with
  | nil => simpa [get, find] using hd
  | cons e t ih =>
    by_cases g : e.1 = k
    · simpa [get, find, g] using h e (List.mem_cons_self ..)
    · simpa [get, find, g] using ih fun f hf => h f (List.mem_cons_of_mem _ hf)

end Table

namespace State

@[simp] theorem hart_setHart (s : State) (h : HartId) (x : Hart) : (s.setHart h x).hart h = x := by simp [hart, setHart]
theorem hart_setHart_other (s : State) {h j : HartId} (x : Hart) (g : j ≠ h) : (s.setHart h x).hart j = s.hart j := by
  simp [hart, setHart, Table.get_set_other _ _ _ g]
@[simp] theorem hart_modHart (s : State) (h : HartId) (f : Hart → Hart) : (s.modHart h f).hart h = f (s.hart h) := by
  simp [modHart]
theorem hart_modHart_other (s : State) {h j : HartId} (f : Hart → Hart) (g : j ≠ h) :
    (s.modHart h f).hart j = s.hart j := by simp [modHart, hart_setHart_other _ _ g]
@[simp] theorem me_modMe (s : State) (f : Hart → Hart) : (s.modMe f).me = f s.me := by simp [me, modMe, setMe]
@[simp] theorem hart_modMe (s : State) (f : Hart → Hart) : (s.modMe f).hart s.cur = f s.me := me_modMe s f
theorem hart_modMe_other (s : State) {j : HartId} (f : Hart → Hart) (g : j ≠ s.cur) : (s.modMe f).hart j = s.hart j := by
  simp [modMe, setMe, hart_setHart_other _ _ g]

/-- Of two changes to one hart the second sees the first. -/
@[simp] theorem setHart_setHart (s : State) (h : HartId) (x y : Hart) : (s.setHart h x).setHart h y = s.setHart h y := by
  simp [setHart]
@[simp] theorem modMe_modMe (s : State) (f g : Hart → Hart) : (s.modMe f).modMe g = s.modMe fun h => g (f h) := by
  simp [modMe, setMe, me]

@[simp] theorem core_setCore (s : State) (c : Nat) (x : Core) : (s.setCore c x).core c = x := by simp [core, setCore]
theorem core_setCore_other (s : State) {c j : Nat} (x : Core) (g : j ≠ c) : (s.setCore c x).core j = s.core j := by
  simp [core, setCore, Table.get_set_other _ _ _ g]
@[simp] theorem cluster_setCluster (s : State) (k : Nat) (x : Cluster) : (s.setCluster k x).cluster k = x := by
  simp [cluster, setCluster]
theorem cluster_setCluster_other (s : State) {k j : Nat} (x : Cluster) (g : j ≠ k) :
    (s.setCluster k x).cluster j = s.cluster j := by simp [cluster, setCluster, Table.get_set_other _ _ _ g]
@[simp] theorem die_setDie (s : State) (d : Nat) (x : Die) : (s.setDie d x).die d = x := by simp [die, setDie]
@[simp] theorem partition_setPartition (s : State) (p : Nat) (x : Partition) : (s.setPartition p x).partition p = x := by
  simp [partition, setPartition]
theorem partition_setPartition_other (s : State) {p j : Nat} (x : Partition) (g : j ≠ p) :
    (s.setPartition p x).partition j = s.partition j := by simp [partition, setPartition, Table.get_set_other _ _ _ g]

/-! ### What reads one part of the state does not see a change of another -/

@[simp] theorem core_modMe (s : State) (f : Hart → Hart) (c : Nat) : (s.modMe f).core c = s.core c := rfl
@[simp] theorem core_setHart (s : State) (h : HartId) (x : Hart) (c : Nat) : (s.setHart h x).core c = s.core c := rfl
@[simp] theorem cluster_modMe (s : State) (f : Hart → Hart) (k : Nat) : (s.modMe f).cluster k = s.cluster k := rfl
@[simp] theorem cluster_setHart (s : State) (h : HartId) (x : Hart) (k : Nat) : (s.setHart h x).cluster k = s.cluster k := rfl
@[simp] theorem cluster_setCore (s : State) (c : Nat) (x : Core) (k : Nat) : (s.setCore c x).cluster k = s.cluster k := rfl
@[simp] theorem partition_modMe (s : State) (f : Hart → Hart) (p : Nat) : (s.modMe f).partition p = s.partition p := rfl
@[simp] theorem partition_setHart (s : State) (h : HartId) (x : Hart) (p : Nat) :
    (s.setHart h x).partition p = s.partition p := rfl
@[simp] theorem die_modMe (s : State) (f : Hart → Hart) (d : Nat) : (s.modMe f).die d = s.die d := rfl
@[simp] theorem hart_setCore (s : State) (c : Nat) (x : Core) (h : HartId) : (s.setCore c x).hart h = s.hart h := rfl
@[simp] theorem hart_setCluster (s : State) (k : Nat) (x : Cluster) (h : HartId) : (s.setCluster k x).hart h = s.hart h := rfl
@[simp] theorem hart_setPartition (s : State) (p : Nat) (x : Partition) (h : HartId) :
    (s.setPartition p x).hart h = s.hart h := rfl
@[simp] theorem me_setCore (s : State) (c : Nat) (x : Core) : (s.setCore c x).me = s.me := rfl
@[simp] theorem me_setCluster (s : State) (k : Nat) (x : Cluster) : (s.setCluster k x).me = s.me := rfl
@[simp] theorem me_setPartition (s : State) (p : Nat) (x : Partition) : (s.setPartition p x).me = s.me := rfl
@[simp] theorem core_setCluster (s : State) (k : Nat) (x : Cluster) (c : Nat) : (s.setCluster k x).core c = s.core c := rfl

end State

end Sys2Proof.Machine
end

