-- ==== Sys2Proof/Laws/Registers.lean ====
section
/-! SUPPORT. Registers: what a read gives after a write, and what the registers that are fixed give (02 R42, R43). -/

namespace Sys2Proof.Machine

open Sys2Proof

set_option Elab.async false

namespace Regs

@[simp] theorem getS_zero (r : Regs) : r.getS 0 = 0 := rfl
theorem getS_setS_same (r : Regs) {d : BitVec 5} (x : Word) (h : d ≠ 0) : (r.setS d x).getS d = x := by
  have g : ¬ d = 0#5 := h
  simp [getS, setS, g]
theorem getS_setS_other (r : Regs) {d n : BitVec 5} (x : Word) (h : n ≠ d) : (r.setS d x).getS n = r.getS n := by
  have g : d.toNat ≠ n.toNat := fun e => h (BitVec.eq_of_toNat_eq e.symm)
  unfold getS setS
  split
  · rfl
  · split
    · rfl
    · exact Vector.getElem_set_ne d.isLt n.isLt g

@[simp] theorem getV_setV_same (r : Regs) (d : BitVec 5) (x : BitVec 512) : (r.setV d x).getV d = x := by simp [getV, setV]
theorem getV_setV_other (r : Regs) {d n : BitVec 5} (x : BitVec 512) (h : n ≠ d) : (r.setV d x).getV n = r.getV n := by
  have g : d.toNat ≠ n.toNat := fun e => h (BitVec.eq_of_toNat_eq e.symm)
  exact Vector.getElem_set_ne d.isLt n.isLt g

@[simp] theorem getK_zero (r : Regs) : r.getK 0 = 0xFFFF := rfl
theorem getK_setK_same (r : Regs) {d : BitVec 3} (x : BitVec 16) (h : d ≠ 0) : (r.setK d x).getK d = x := by
  have g : ¬ d = 0#3 := h
  simp [getK, setK, g]
theorem getK_setK_other (r : Regs) {d n : BitVec 3} (x : BitVec 16) (h : n ≠ d) : (r.setK d x).getK n = r.getK n := by
  have g : d.toNat ≠ n.toNat := fun e => h (BitVec.eq_of_toNat_eq e.symm)
  unfold getK setK
  split
  · rfl
  · split
    · rfl
    · exact Vector.getElem_set_ne d.isLt n.isLt g

@[simp] theorem guard_zero (r : Regs) : r.guard 0 = true := rfl
theorem guard_setG_same (r : Regs) {d : BitVec 3} (x : Bool) (h : d ≠ 0) : (r.setG d x).guard d = x := by
  have g : ¬ d = 0#3 := h
  simp [guard, setG, g]
theorem guard_setG_other (r : Regs) {d n : BitVec 3} (x : Bool) (h : n ≠ d) : (r.setG d x).guard n = r.guard n := by
  have g : d.toNat ≠ n.toNat := fun e => h (BitVec.eq_of_toNat_eq e.symm)
  unfold guard setG
  split
  · rfl
  · split
    · rfl
    · exact Vector.getElem_set_ne d.isLt n.isLt g

@[simp] theorem getW_setW_same (r : Regs) (d : BitVec 4) (x : View) : (r.setW d x).getW d = x := by simp [getW, setW]
theorem getW_setW_other (r : Regs) {d n : BitVec 4} (x : View) (h : n ≠ d) : (r.setW d x).getW n = r.getW n := by
  have g : d.toNat ≠ n.toNat := fun e => h (BitVec.eq_of_toNat_eq e.symm)
  exact Vector.getElem_set_ne d.isLt n.isLt g

@[simp] theorem stream_setStream_same (r : Regs) (i : BitVec 3) (x : Option Stream) : (r.setStream i x).stream i = x := by
  simp [stream, setStream]

/-! A write of one register file leaves the rest of the registers. -/

@[simp] theorem setS_v (r : Regs) (d : BitVec 5) (x : Word) : (r.setS d x).v = r.v := by unfold setS; split <;> rfl
@[simp] theorem setS_k (r : Regs) (d : BitVec 5) (x : Word) : (r.setS d x).k = r.k := by unfold setS; split <;> rfl
@[simp] theorem setS_w (r : Regs) (d : BitVec 5) (x : Word) : (r.setS d x).w = r.w := by unfold setS; split <;> rfl
@[simp] theorem setS_g (r : Regs) (d : BitVec 5) (x : Word) : (r.setS d x).g = r.g := by unfold setS; split <;> rfl
@[simp] theorem setS_rmode (r : Regs) (d : BitVec 5) (x : Word) : (r.setS d x).rmode = r.rmode := by unfold setS; split <;> rfl
@[simp] theorem setS_inline (r : Regs) (d : BitVec 5) (x : Word) : (r.setS d x).inline = r.inline := by
  unfold setS; split <;> rfl
@[simp] theorem setS_streams (r : Regs) (d : BitVec 5) (x : Word) : (r.setS d x).streams = r.streams := by
  unfold setS; split <;> rfl
@[simp] theorem setS_rep (r : Regs) (d : BitVec 5) (x : Word) : (r.setS d x).rep = r.rep := by unfold setS; split <;> rfl

/-- A write of a scalar register changes the scalar registers only. -/
theorem setS_eq (r : Regs) (d : BitVec 5) (x : Word) : r.setS d x = { r with s := (r.setS d x).s } := by
  unfold setS; split <;> rfl

end Regs

namespace State

@[simp] theorem getS_zero (s : State) : s.getS 0 = 0 := rfl
theorem me_setS (s : State) (d : BitVec 5) (x : Word) : (s.setS d x).me = s.me.modRegs (·.setS d x) := by simp [setS]
theorem getS_setS_same (s : State) {d : BitVec 5} (x : Word) (h : d ≠ 0) : (s.setS d x).getS d = x := by
  simp [getS, me_setS, Hart.modRegs, Regs.getS_setS_same _ _ h]
theorem getS_setS_other (s : State) {d n : BitVec 5} (x : Word) (h : n ≠ d) : (s.setS d x).getS n = s.getS n := by
  simp [getS, me_setS, Hart.modRegs, Regs.getS_setS_other _ _ h]
theorem me_setV (s : State) (d : BitVec 5) (x : BitVec 512) : (s.setV d x).me = s.me.modRegs (·.setV d x) := by simp [setV]
theorem me_setK (s : State) (d : BitVec 5) (x : BitVec 16) :
    (s.setK d x).me = s.me.modRegs (·.setK (d.setWidth 3) x) := by simp [setK]
theorem me_setW (s : State) (d : BitVec 5) (x : View) : (s.setW d x).me = s.me.modRegs (·.setW (d.setWidth 4) x) := by
  simp [setW]

@[simp] theorem me_advance (s : State) : s.advance.me = s.me.advance := by simp [advance]
@[simp] theorem me_stall (s : State) (w : Wait) : (s.stall w).me = { s.me with wait := some w } := by simp [stall]
@[simp] theorem cur_advance (s : State) : s.advance.cur = s.cur := rfl
@[simp] theorem mem_advance (s : State) : s.advance.mem = s.mem := rfl

end State

namespace Hart

@[simp] theorem advance_stores (h : Hart) : h.advance.stores = h.stores := by unfold advance; (repeat' split) <;> rfl
@[simp] theorem advance_queue (h : Hart) : h.advance.queue = h.queue := by unfold advance; (repeat' split) <;> rfl
@[simp] theorem advance_pend (h : Hart) : h.advance.pend = h.pend := by unfold advance; (repeat' split) <;> rfl
@[simp] theorem advance_unres (h : Hart) : h.advance.unres = h.unres := by unfold advance; (repeat' split) <;> rfl
@[simp] theorem advance_task (h : Hart) : h.advance.task = h.task := by unfold advance; (repeat' split) <;> rfl
@[simp] theorem advance_wait (h : Hart) : h.advance.wait = h.wait := by unfold advance; (repeat' split) <;> rfl
@[simp] theorem advance_s (h : Hart) : h.advance.regs.s = h.regs.s := by unfold advance; (repeat' split) <;> rfl
@[simp] theorem advance_v (h : Hart) : h.advance.regs.v = h.regs.v := by unfold advance; (repeat' split) <;> rfl
@[simp] theorem advance_k (h : Hart) : h.advance.regs.k = h.regs.k := by unfold advance; (repeat' split) <;> rfl
@[simp] theorem advance_w (h : Hart) : h.advance.regs.w = h.regs.w := by unfold advance; (repeat' split) <;> rfl
@[simp] theorem advance_g (h : Hart) : h.advance.regs.g = h.regs.g := by unfold advance; (repeat' split) <;> rfl
@[simp] theorem advance_streams (h : Hart) : h.advance.regs.streams = h.regs.streams := by
  unfold advance; (repeat' split) <;> rfl

/-- Moving on changes the pc and the repetition state only. -/
theorem advance_eq (h : Hart) :
    h.advance = { h with pc := h.advance.pc, regs := { h.regs with rep := h.advance.regs.rep } } := by
  unfold advance; (repeat' split) <;> rfl

/-- Outside a repetition the next word is the next in the image. -/
theorem advance_plain (h : Hart) (g : h.regs.rep = none) : h.advance = { h with pc := h.pc + 8 } := by
  simp [advance, g]

end Hart

end Sys2Proof.Machine
end

