-- ==== Sys2Proof/Laws/Ops.lean ====
section
/-! SUPPORT. The shared operations: what each comes to when its conditions hold, and what it does when they do not. -/

namespace Sys2Proof.Machine

open Sys2Proof

set_option Elab.async false

/-! ### Results of operations -/

@[simp] theorem Res.bind_ok {α β : Type} (x : α) (s : State) (k : α → State → Res β) : (Res.ok x s).bind k = k x s := rfl
@[simp] theorem Res.bind_stop {α β : Type} (s : State) (k : α → State → Res β) : (Res.stop s).bind k = .stop s := rfl
@[simp] theorem Res.run_ok {α : Type} (x : α) (s : State) (k : α → State → Out) : (Res.ok x s).run k = k x s := rfl
@[simp] theorem Res.run_stop {α : Type} (s : State) (k : α → State → Out) : (Res.stop s).run k = .next s := rfl

theorem check_ok {b : Bool} (c : TrapClass) (s : State) (h : b = true) : check b c s = .ok () s := by simp [check, h]
theorem check_stop {b : Bool} (c : TrapClass) (s : State) (h : b = false) : check b c s = .stop (s.raise c) := by
  simp [check, h]
theorem checkAt_ok {b : Bool} (c : TrapClass) (a : Word) (s : State) (h : b = true) : checkAt b c a s = .ok () s := by
  simp [checkAt, h]
theorem checkAt_stop {b : Bool} (c : TrapClass) (a : Word) (s : State) (h : b = false) :
    checkAt b c a s = .stop (s.raiseAt c a) := by simp [checkAt, h]

/-- What every element of a list comes to when none of them stops or changes the state. -/
theorem Res.collect_ok {α β : Type} {f : α → State → Res β} {g : α → β} {s : State} (l : List α)
    (h : ∀ x ∈ l, f x s = .ok (g x) s) : Res.collect f l s = .ok (l.map g) s := by
  induction l with
  | nil => rfl
  | cons x t ih =>
    simp [Res.collect, h x (List.mem_cons_self ..), ih fun y hy => h y (List.mem_cons_of_mem _ hy)]

/-- The same for checks alone. -/
theorem Res.each_ok {α : Type} {f : α → State → Res Unit} {s : State} (l : List α) (h : ∀ x ∈ l, f x s = .ok () s) :
    Res.each f l s = .ok () s := by
  induction l with
  | nil => rfl
  | cons x t ih => simp [Res.each, h x (List.mem_cons_self ..), ih fun y hy => h y (List.mem_cons_of_mem _ hy)]

namespace State

@[simp] theorem on_cur (s : State) (id : HartId) : (s.on id).cur = id := rfl
@[simp] theorem on_hart (s : State) (id h : HartId) : (s.on id).hart h = s.hart h := rfl
@[simp] theorem on_me (s : State) (id : HartId) : (s.on id).me = s.hart id := rfl

/-! ### Guards (R22, R134, R135) -/

theorem guarded_of_runs {s : State} {gd : BitVec 3} (k : State → Out) (h : s.runs gd = true) : s.guarded gd k = k s := by
  simp only [runs, Bool.and_eq_true, Bool.not_eq_true'] at h
  simp [guarded, h.1, h.2]

theorem guarded_of_open {s : State} {gd : BitVec 3} (k : State → Out) (h : s.guardOpen gd = true) :
    s.guarded gd k = .next (s.stall .guard) := by simp [guarded, h]

theorem guarded_of_false {s : State} {gd : BitVec 3} (k : State → Out) (h : s.guardOpen gd = false)
    (g : s.me.regs.guard gd = false) : s.guarded gd k = s.finish := by simp [guarded, h, g]

/-- Every core instruction under its guard waits, does nothing, or does what it does. -/
theorem guarded_cases {s t : State} {gd : BitVec 3} {k : State → Out} (h : s.guarded gd k = .next t) :
    (s.guardOpen gd = true ∧ t = s.stall .guard) ∨ (s.guardOpen gd = false ∧ s.me.regs.guard gd = false ∧ t = s.advance)
      ∨ (s.runs gd = true ∧ k s = .next t) := by
  unfold guarded at h
  split at h
  · rename_i g; cases h; exact .inl ⟨g, rfl⟩
  · rename_i g
    split at h
    · rename_i r; exact .inr (.inr ⟨by simp [runs, g, r], h⟩)
    · rename_i r; cases h; exact .inr (.inl ⟨by simpa using g, by simpa using r, rfl⟩)

/-! ### Stores and their drain (R297, R299) -/

/-- Stores that are to be performed at once may be, or wait for a unit being moved or for the banks that they wake. -/
theorem awaitStores_cases (s : State) (l : List Store) :
    (l.any s.blocked = false ∧ l.all s.awakeFor = true ∧ s.awaitStores l = .ok () s)
      ∨ s.awaitStores l = .stop (s.stall .sweep) ∨ s.awaitStores l = .stop ((s.wakeFor l).stall .bank) := by
  unfold awaitStores
  cases hb : l.any s.blocked
  · cases ha : l.all s.awakeFor
    · exact .inr (.inr (by simp))
    · exact .inl ⟨rfl, rfl, by simp⟩
  · exact .inr (.inl (by simp))

theorem release_of_mayRelease {s : State} (h : s.mayRelease = true) : s.release = .ok () (s.drainAll s.cur) := by
  simp only [mayRelease, Bool.and_eq_true, Bool.not_eq_true'] at h
  simp [release, awaitStores, h.1, h.2, Res.bind]

/-- A release goes on with every store of the hart performed, or waits for a unit being moved or for banks. -/
theorem release_cases (s : State) :
    (s.mayRelease = true ∧ s.release = .ok () (s.drainAll s.cur)) ∨ s.release = .stop (s.stall .sweep)
      ∨ s.release = .stop ((s.wakeFor s.me.stores).stall .bank) := by
  rcases awaitStores_cases s s.me.stores with ⟨h1, h2, h3⟩ | h | h
  · exact .inl ⟨by simp [mayRelease, h1, h2], by simp [release, h3, Res.bind]⟩
  · exact .inr (.inl (by simp [release, h, Res.bind]))
  · exact .inr (.inr (by simp [release, h, Res.bind]))

@[simp] theorem me_issueStore (s : State) (st : Store) :
    (s.issueStore st).me = { s.me with stores := s.me.stores ++ [st] } := by simp [issueStore]

/-- With no entry waiting in an output stream and no matrix work, a release of every access is that of the stores. -/
theorem publish_of_mayPublish {s : State} (h : s.mayPublish = true) : s.publish = .ok () (s.drainAll s.cur) := by
  simp only [mayPublish, Bool.and_eq_true, Bool.not_eq_true', Vector.all_eq_true] at h
  obtain ⟨⟨h1, h2⟩, h3⟩ := h
  have hf : s.flushStreams = .ok () s := by
    refine Res.each_ok _ fun i _ => ?_
    have hi := h1 i.val i.isLt
    have e : s.me.regs.stream (BitVec.ofFin i) = s.me.regs.streams[i.val]'i.isLt := rfl
    unfold flushStream flushWith
    rw [e]
    cases hs : s.me.regs.streams[i.val]'i.isLt with
    | none => rfl
    | some st =>
      rw [hs] at hi
      simp only [Bool.or_eq_true, Bool.not_eq_true', List.isEmpty_iff] at hi
      rcases hi with hi | hi
      · simp [hi]
      · cases st.output <;> simp [hi, Res.each]
  simp [publish, hf, h2, release_of_mayRelease h3]

theorem storeTo_ordinary {s : State} {l : List (Nat × TlbEntry)} (b : List (Nat × Byte)) (n : List (Nat × Bool × Nat))
    (h : soAny l = false) :
    s.storeTo l b n false = .ok () (s.issueStore { cluster := none, bytes := b, half := n, keys := keysOf l }) := by
  simp [storeTo, h]

/-- A hart with no stores of its own sees memory as it is. -/
theorem globalFor_of_no_stores {s : State} {h : HartId} (g : (s.hart h).stores = []) : s.globalFor h = s.mem := by
  simp [globalFor, g]

/-- A store lies over what its hart saw before (R133). -/
theorem globalFor_issueStore (s : State) (st : Store) (h : st.cluster = none) :
    (s.issueStore st).globalFor s.cur = (s.globalFor s.cur).storeBoth st.bytes st.half := by
  simp [globalFor, issueStore, List.foldl_append, me, h]

/-! ### Translation (R214, R220) -/

theorem lookup_of_hit {s : State} {asid va : Nat} {e : TlbEntry} (g : s.firstTlb.find? (·.covers asid va) = some e) :
    s.lookup s.cur asid va = some (e, s) := by
  unfold firstTlb at g
  cases hc : s.cur with
  | slot c n => rw [hc] at g; simp only at g; simp [lookup, isSlot, hartCore, g]
  | tsc k => rw [hc] at g; simp only at g; simp [lookup, isSlot, hartCluster, hartCore, g]
  | sys d n => rw [hc] at g; simp only at g; simp [lookup, g]

/-- An address that an entry of the hart's first TLB maps translates by it, where the entry allows the access; nothing
changes. -/
theorem translate_of_maps {s : State} {va : Word} {e : TlbEntry} (n : Need) (kind : Nat) (h : s.maps va e = true)
    (g : e.allows n = true) : s.translate va n kind = .ok (e.physical va.toNat, e) s := by
  simp only [maps, Bool.and_eq_true, beq_iff_eq] at h
  obtain ⟨⟨h2, h3⟩, h4⟩ := h
  simp [translate, checkAt, h2, lookup_of_hit h3, g, h4]

theorem maps_of_readable {s : State} {va : Word} {n : Nat} {e : TlbEntry} (h : s.readable va n e = true) :
    s.maps va e = true ∧ e.r = true ∧ s.upsets = [] ∧ (s.globalFor s.cur).bad (e.physical va.toNat) n = false
      ∧ s.keyed e.key (e.physical va.toNat) n = true ∧ s.dieAwake (e.physical va.toNat) n = true
      ∧ s.logAt (e.physical va.toNat) = none := by
  simpa [readable, and_assoc] using h

/-- Through banks that are active an access goes on at once (R350). -/
theorem useDie_of_awake {s : State} {pa n : Nat} (h : s.dieAwake pa n = true) : s.useDie pa n = .ok () (s.touchDie pa n) := by
  simp [useDie, h]

/-! What an access keeps of its time changes nothing that accesses read. -/

@[simp] theorem cur_touchDie (s : State) (pa n : Nat) : (s.touchDie pa n).cur = s.cur := rfl
@[simp] theorem me_touchDie (s : State) (pa n : Nat) : (s.touchDie pa n).me = s.me := rfl
@[simp] theorem mem_touchDie (s : State) (pa n : Nat) : (s.touchDie pa n).mem = s.mem := rfl
@[simp] theorem upsets_touchDie (s : State) (pa n : Nat) : (s.touchDie pa n).upsets = s.upsets := rfl
@[simp] theorem keyed_touchDie (s : State) (pa n k a m : Nat) : (s.touchDie pa n).keyed k a m = s.keyed k a m := rfl
@[simp] theorem globalFor_touchDie (s : State) (pa n : Nat) (h : HartId) : (s.touchDie pa n).globalFor h = s.globalFor h := rfl
@[simp] theorem logAt_touchDie (s : State) (pa n a : Nat) : (s.touchDie pa n).logAt a = s.logAt a := rfl
@[simp] theorem mayPublish_touchDie (s : State) (pa n : Nat) : (s.touchDie pa n).mayPublish = s.mayPublish := rfl
@[simp] theorem mayRelease_touchDie (s : State) (pa n : Nat) : (s.touchDie pa n).mayRelease = s.mayRelease := rfl

/-- With no error to meet, a read meets none. -/
theorem meetErrors_of_none {s : State} (pa n : Nat) (h : s.upsets = []) : s.meetErrors pa n = s := by simp [meetErrors, h]

/-- Outside the event rings and the histograms memory reads as it is. -/
theorem logsOver_of_none {s : State} {pa : Nat} (m : Mem) (n : Nat) (h : s.logAt pa = none) : s.logsOver m pa n = m := by
  simp [logsOver, h]

theorem loadBytes_of_readable {s : State} {va : Word} {n : Nat} {e : TlbEntry} (kind : Nat)
    (h : s.readable va n e = true) :
    s.loadBytes va n kind
      = .ok ((s.globalFor s.cur).bytes (e.physical va.toNat) n) (s.touchDie (e.physical va.toNat) n) := by
  obtain ⟨h1, h2, h3, h4, h5, h6, h7⟩ := maps_of_readable h
  have h7' : (s.touchDie (e.physical va.toNat) n).logAt (e.physical va.toNat) = none := h7
  unfold loadBytes
  rw [translate_of_maps (n := .r) kind h1 (by simp [TlbEntry.allows, h2])]
  simp [useDie_of_awake h6, meetErrors_of_none _ _ (show (s.touchDie _ n).upsets = [] from h3), under, h5,
    logsOver_of_none _ _ h7', h4]

theorem maps_of_writable {s : State} {va : Word} {e : TlbEntry} (h : s.writable va e = true) :
    s.maps va e = true ∧ e.w = true ∧ e.ord ≠ 0 := by
  simpa [writable, and_assoc] using h

theorem storeBytes_of_writable {s : State} {va : Word} {e : TlbEntry} (l : List Byte) (h : s.writable va e = true) :
    s.storeBytes va l =
      .ok () (s.issueStore { cluster := none, bytes := bytesAt (e.physical va.toNat) l, keys := keysOf [(e.physical va.toNat, e)] }) := by
  obtain ⟨h1, h2, h3⟩ := maps_of_writable h
  simp [storeBytes, translate_of_maps (n := .w) 1 h1 (by simp [TlbEntry.allows, h2]),
    storeTo_ordinary (l := [(e.physical va.toNat, e)]) _ _ (by simp [soAny, h3])]

/-- An order other than a release: an atomic performs the hart's stores first; a release performs every access. -/
theorem atomicAt_of_atomicable {s : State} {va : Word} {o : BitVec 2} {e : TlbEntry} (h : s.atomicable va o e = true) :
    s.atomicAt va o
      = .ok (e.physical va.toNat) ((s.touchDie (e.physical va.toNat / 128 * 128) 128).drainAll s.cur) := by
  simp only [atomicable, Bool.and_eq_true, Bool.not_eq_true', List.isEmpty_iff] at h
  obtain ⟨⟨⟨⟨⟨⟨⟨h1, h2⟩, h3⟩, h4⟩, h5⟩, h6⟩, h8⟩, h7⟩ := h
  have hr : (if releases o || e.ord == 0 then (s.touchDie (e.physical va.toNat / 128 * 128) 128).publish
      else (s.touchDie (e.physical va.toNat / 128 * 128) 128).release)
        = .ok () ((s.touchDie (e.physical va.toNat / 128 * 128) 128).drainAll s.cur) := by
    split at h7
    · rename_i g; rw [if_pos g]; exact publish_of_mayPublish h7
    · rename_i g; rw [if_neg g]; exact release_of_mayRelease h7
  have hm := meetErrors_of_none (s := s.touchDie (e.physical va.toNat / 128 * 128) 128)
    (e.physical va.toNat / 128 * 128) 128 h4
  unfold atomicAt
  rw [translate_of_maps (n := .rw) 2 h1 (by simp [TlbEntry.allows, h2, h3])]
  simp only [Res.bind_ok, useDie_of_awake h8, hm, globalFor_touchDie, cur_touchDie, h5, Bool.false_eq_true, if_false, hr, h6, if_true]

/-! ### Local memory (R210, R235, R350) -/

theorem useBank_of_awake {s : State} {b : Bank} (h : s.awake b = true) : s.useBank b = .ok () (s.touch b) := by
  unfold awake at h
  unfold useBank
  split at h <;> simp_all

@[simp] theorem touch_awake (s : State) (b c : Bank) : (s.touch b).awake c = s.awake c := rfl

/-- Awake banks serve an access at once. -/
theorem useBanks_of_awake {s : State} {space : BitVec 3} {offs : List Nat} (h : (s.banksOf space offs).all s.awake = true) :
    s.useBanks space offs = .ok () (s.touched space offs) := by
  unfold useBanks touched
  generalize s.banksOf space offs = l at h ⊢
  induction l generalizing s with
  | nil => rfl
  | cons b t ih =>
    simp only [List.all_cons, Bool.and_eq_true] at h
    simp only [Res.each, useBank_of_awake h.1, Res.bind_ok, List.foldl_cons]
    exact ih (s := s.touch b) h.2

/-- An access leaves everything but the time of the banks' last access. -/
theorem touched_eq (s : State) (space : BitVec 3) (offs : List Nat) :
    s.touched space offs = { s with bankUse := (s.touched space offs).bankUse } := by
  unfold touched
  generalize s.banksOf space offs = l
  induction l generalizing s with
  | nil => rfl
  | cons b t ih => simp only [List.foldl_cons]; rw [ih]; rfl

theorem loadLocal_of_ready {s : State} {space : BitVec 3} {off n : Nat} (h : s.localReady space off n = true)
    (g : (s.localMem space).bad off n = false) :
    s.loadLocal space off n = .ok ((s.localMem space).bytes off n) (s.touched space [off, off + n - 1]) := by
  simp only [localReady, Bool.and_eq_true, Bool.not_eq_true'] at h
  obtain ⟨h1, h2⟩ := h
  unfold localMem at g ⊢
  have h2' : ¬ ((space = 4) ∧ s.myCore.sliceBusy s.now (hartSlot s.cur) off (off + n) = true) := by simpa using h2
  simp only [loadLocal, useBanks_of_awake h1, Res.bind_ok]
  rw [touched_eq]
  simp only [Bool.and_eq_true, decide_eq_true_eq]
  exact (if_neg h2').trans (if_neg (ne_true_of_eq_false g))

/-! ### The order of view operations (R230) -/

theorem outputs_of_streamless {h : Hart} (n : Nat) (g : h.regs.streams.all (·.isNone) = true) : h.outputs n = [] := by
  simp only [Hart.outputs, List.map_eq_nil_iff, List.filter_eq_nil_iff]
  intro a ha
  have := List.mem_filterMap.1 ha
  obtain ⟨o, ho, e⟩ := this
  simp only [id_eq] at e
  subst e
  rw [← Vector.all_toList, List.all_eq_true] at g
  simpa using g _ ho

theorem inputs_of_streamless {h : Hart} (n : Nat) (g : h.regs.streams.all (·.isNone) = true) : h.inputs n = [] := by
  simp only [Hart.inputs, List.map_eq_nil_iff, List.filter_eq_nil_iff]
  intro a ha
  obtain ⟨o, ho, e⟩ := List.mem_filterMap.1 ha
  simp only [id_eq] at e
  subst e
  rw [← Vector.all_toList, List.all_eq_true] at g
  simpa using g _ ho

/-- With no command and no stream of the task, a view operation waits for nothing. -/
theorem viewOrder_of_orderFree {s : State} (vs : List (View × Bool)) (h : s.orderFree = true) : s.viewOrder vs = .ok () s := by
  simp only [orderFree, streamless, Bool.and_eq_true, List.isEmpty_iff] at h
  simp [viewOrder, Hart.commandsBefore, Hart.outstanding, h.1, outputs_of_streamless _ h.2, inputs_of_streamless _ h.2, ordered]

/-! ### Vector registers (R187, R190) -/

theorem streamOf_of_unbound {s : State} {r : BitVec 5} (h : s.unbound r = true) : s.streamOf r = none := by
  simpa [unbound] using h

/-- Sources that are bound to no stream are read as they stand. -/
theorem sources_of_unbound {s : State} (l : List (BitVec 5)) (h : ∀ r ∈ l, s.unbound r = true) :
    s.sources l = .ok (l.map s.me.regs.getV) s := by
  have key : ∀ (m : List (BitVec 5)) (t : Table (BitVec 5) (BitVec 512)), (∀ r ∈ m, s.unbound r = true) →
      (∀ r x, t.find r = some x → x = s.me.regs.getV r) →
      ∃ u : Table (BitVec 5) (BitVec 512),
        m.foldl (fun (acc : Res (Table (BitVec 5) (BitVec 512))) r => acc.bind fun t s =>
          match t.find r with
          | some _ => .ok t s
          | none =>
            match streamIndex r, s.streamOf r with
            | some i, some st =>
              if st.output then .ok (t.set r (s.me.regs.getV r)) s
              else (s.popStream i st).bind fun x s => .ok (t.set r x) s
            | _, _ => .ok (t.set r (s.me.regs.getV r)) s) (.ok t s) = .ok u s
        ∧ (∀ r x, u.find r = some x → x = s.me.regs.getV r)
        ∧ (∀ r, (∃ x, t.find r = some x) ∨ r ∈ m → ∃ x, u.find r = some x) := by
    intro m
    induction m with
    | nil => intro t _ ht; exact ⟨t, rfl, ht, fun r hr => by simpa using hr⟩
    | cons r m ih =>
      intro t hm ht
      have hr := streamOf_of_unbound (hm r (List.mem_cons_self ..))
      cases hf : t.find r with
      | some x =>
        obtain ⟨u, hu, h1, h2⟩ := ih t (fun q hq => hm q (List.mem_cons_of_mem _ hq)) ht
        refine ⟨u, by simpa [hf] using hu, h1, ?_⟩
        intro q hq
        rcases hq with hq | hq
        · exact h2 q (.inl hq)
        · rcases List.mem_cons.1 hq with rfl | hq
          · exact h2 q (.inl ⟨x, hf⟩)
          · exact h2 q (.inr hq)
      | none =>
        obtain ⟨u, hu, h1, h2⟩ := ih (t.set r (s.me.regs.getV r)) (fun q hq => hm q (List.mem_cons_of_mem _ hq))
          (by
            intro q x hx
            by_cases e : q = r
            · subst e; simpa using hx.symm
            · rw [Table.find_set_other _ _ e] at hx; exact ht q x hx)
        refine ⟨u, ?_, h1, ?_⟩
        · simp only [List.foldl_cons, Res.bind_ok, hf]
          cases hi : streamIndex r <;> simpa [hr] using hu
        · intro q hq
          by_cases e : q = r
          · subst e; exact h2 q (.inl ⟨_, Table.find_set_same _ _ _⟩)
          · rcases hq with ⟨x, hq⟩ | hq
            · exact h2 q (.inl ⟨x, by rw [Table.find_set_other _ _ e]; exact hq⟩)
            · rcases List.mem_cons.1 hq with rfl | hq
              · exact absurd rfl e
              · exact h2 q (.inr hq)
  obtain ⟨u, hu, h1, h2⟩ := key l [] h (by intro r x hx; simp [Table.find] at hx)
  have e : (l.map fun r => u.get r 0) = l.map s.me.regs.getV := by
    refine List.map_congr_left fun r hr => ?_
    obtain ⟨x, hx⟩ := h2 r (.inr hr)
    rw [Table.get, hx, h1 r x hx]; rfl
  refine (congrArg (fun r : Res (Table (BitVec 5) (BitVec 512)) => r.bind fun t s => Res.ok (l.map fun r => t.get r 0) s) hu).trans ?_
  rw [Res.bind_ok, e]

/-- A result for a register that is bound to no stream is written at once, or after its window. -/
theorem putV_of_unbound {s : State} {d : BitVec 5} (w : Nat) (k : BitVec 16) (f : Nat → Nat)
    (long : Option (BitVec 4 × Nat)) (fl : Word × Word) (sets : Bool) (h : s.unbound d = true) :
    s.putV d w k f long fl sets = .ok () (match long with
      | none => (s.setV d (merge w k (s.me.regs.getV d) f)).addFlags fl
      | some p => s.later p.1 p.2 [.v d.toNat (merge w k (s.me.regs.getV d) f)] fl sets) := by
  have hs := streamOf_of_unbound h
  unfold putV
  rw [hs]
  cases long <;> cases streamIndex d <;> rfl

end State

end Sys2Proof.Machine
end

