-- ==== Sys2Proof/Laws/Fetch.lean ====
section
/-! SUPPORT. Fetching, and what comes before it at a hart at rest. -/

namespace Sys2Proof.Machine

open Sys2Proof

set_option Elab.async false

namespace State

theorem modMe_congr (s : State) {f g : Hart → Hart} (h : f s.me = g s.me) : s.modMe f = s.modMe g := by
  simp [modMe, h]

/-- Code integrity lets a fetch go on. -/
theorem codeCheck_of_clear {s : State} {va addr : Word} (h : s.codeClear va = true) : s.codeCheck va addr = .ok () s := by
  unfold codeClear at h
  unfold codeCheck
  cases he : (if isSlot s.cur = true then s.objectAt va else none) with
  | none => rfl
  | some o =>
    rw [he] at h
    simp only [Bool.and_eq_true, Bool.not_eq_true'] at h
    simp only [h.1, Bool.not_false, Bool.or_false, if_true]
    rw [if_neg (by simpa using h.2)]

/-- An address that the first TLB maps waits for no lower level. -/
theorem fetchEntry_of_maps {s : State} {va : Word} {e : TlbEntry} (h : s.maps va e = true) : s.fetchEntry va = .ok () s := by
  simp only [maps, Bool.and_eq_true, beq_iff_eq] at h
  have h2 := h.1.2
  unfold fetchEntry
  cases hc : s.cur with
  | slot c n =>
    unfold firstTlb at h2
    rw [hc] at h2
    have hm : (s.core c).tlb.any (·.covers (s.asidOf (.slot c n)) va.toNat) = true :=
      List.any_eq_true.2 ⟨e, List.mem_of_find?_eq_some h2, by simpa using List.find?_some h2⟩
    simp [isSlot, hartCore, hm]
  | tsc k => rfl
  | sys d n => rfl

/-- A word that the hart fetches: it and the entry that maps it; only the use of the die cache is noted. -/
theorem fetchWord_of_fetches {s : State} {va addr : Word} {e : TlbEntry} {w : Nat} (h : s.fetches va e w = true) :
    s.fetchWord va addr
      = .ok (w, e) (if isSlot s.cur then s else s.touchDie (e.physical va.toNat / 128 * 128) 128) := by
  simp only [fetches, Bool.and_eq_true, beq_iff_eq, Bool.not_eq_true', List.isEmpty_iff] at h
  obtain ⟨⟨⟨⟨⟨⟨⟨h1, h2⟩, h3⟩, h4⟩, h5⟩, h6⟩, h7⟩, h8⟩ := h
  unfold fetchWord
  rw [codeCheck_of_clear h1, Res.bind_ok, fetchEntry_of_maps h2, Res.bind_ok,
    translate_of_maps .x 3 h2 (by simp [TlbEntry.allows, h3]), Res.bind_ok]
  have hm : s.meetErrors (e.physical va.toNat) 8 = s := by simp [meetErrors, h4]
  simp only [hm, h5]
  cases hs : isSlot s.cur <;> rw [hs] at h6
  · simp [useDie_of_awake (by simpa using h6), h7, h8]
  · simp only [if_true] at h6
    simp [h6, h7, h8, -List.contains_eq_mem]

theorem partOf_modMe (s : State) (f : Hart → Hart) (ht : ∀ h, (f h).task = h.task) (ha : ∀ h, (f h).asid = h.asid) :
    (s.modMe f).partOf s.cur = s.partOf s.cur := by
  have hh : (s.modMe f).hart s.cur = f (s.hart s.cur) := by rw [hart_modMe]; rfl
  unfold partOf
  rw [hh]
  cases s.cur <;> simp only [ht, ha, modMe_partitions, cluster_modMe]

theorem asidOf_modMe (s : State) (f : Hart → Hart) (ht : ∀ h, (f h).task = h.task) (ha : ∀ h, (f h).asid = h.asid) :
    (s.modMe f).asidOf s.cur = s.asidOf s.cur := by
  have hh : (s.modMe f).hart s.cur = f (s.hart s.cur) := by rw [hart_modMe]; rfl
  unfold asidOf; rw [hh, ht, ha]

theorem level_modMe (s : State) (f : Hart → Hart) (hr : ∀ h, (f h).raised = h.raised) :
    (s.modMe f).level s.cur = s.level s.cur := by
  have hh : (s.modMe f).hart s.cur = f (s.hart s.cur) := by rw [hart_modMe]; rfl
  unfold level; rw [hh]; simp only [hr]

/-- Whom a physical address belongs to does not depend on what the hart waits for. -/
theorem reaches_modMe (s : State) (f : Hart → Hart) (ht : ∀ h, (f h).task = h.task) (ha : ∀ h, (f h).asid = h.asid)
    (hr : ∀ h, (f h).raised = h.raised) (pa : Nat) : (s.modMe f).reaches s.cur pa = s.reaches s.cur pa := by
  have hp := partOf_modMe s f ht ha
  unfold reaches foreign
  rw [level_modMe s f hr]
  cases hc : s.cur with
  | sys d n => rfl
  | slot c n => rw [hc] at hp; simp only [hp]; rfl
  | tsc k => rw [hc] at hp; simp only [hp]; rfl

/-- What a hart fetches does not depend on what it waits for or on the word it noted. -/
theorem fetches_modMe (s : State) (f : Hart → Hart) (ht : ∀ h, (f h).task = h.task) (ha : ∀ h, (f h).asid = h.asid)
    (hr : ∀ h, (f h).raised = h.raised) (va : Word) (e : TlbEntry) (w : Nat) : (s.modMe f).fetches va e w = s.fetches va e w := by
  have h1 := asidOf_modMe s f ht ha
  have h6 : (s.modMe f).objectAt va = s.objectAt va := by
    unfold objectAt myPart
    rw [show (s.modMe f).cur = s.cur from rfl, h1, partOf_modMe s f ht ha]; rfl
  unfold fetches codeClear maps
  rw [show (s.modMe f).cur = s.cur from rfl, h1, h6, reaches_modMe s f ht ha hr]
  simp only [show (s.modMe f).firstTlb = s.firstTlb from rfl, show (s.modMe f).myCore = s.myCore from rfl,
    show (s.modMe f).upsets = s.upsets from rfl, show (s.modMe f).mem = s.mem from rfl,
    show ∀ k a n, (s.modMe f).keyed k a n = s.keyed k a n from fun _ _ _ => rfl,
    show ∀ a n, (s.modMe f).dieAwake a n = s.dieAwake a n from fun _ _ => rfl]

/-- At a hart with no result outstanding nothing lands. -/
theorem settle_of_none {s : State} (h : s.me.pend = []) : s.settle = s.modMe fun x => x := by
  unfold settle
  have e : s.modMe (fun h => h.settleDone s.now) = s.modMe fun x => x := by
    refine modMe_congr s ?_
    generalize s.me = m at h ⊢
    obtain ⟨⟩ := m
    simp only at h
    subst h
    rfl
  rw [e]
  simp [h, landClosed]

end State

/-- A hart that waits for nothing. -/
def quiet (h : Hart) : Hart := { h with wait := none }

/-- The start of a region is a change of the executing hart. -/
theorem State.begun_on (s : State) (id : HartId) : (s.begun id).on id = (s.on id).modMe Hart.inRegion := rfl

/-- The use of the die cache and a change of the executing hart are apart. -/
theorem State.touchDie_modMe (s : State) (a n : Nat) (f : Hart → Hart) : (s.touchDie a n).modMe f = (s.modMe f).touchDie a n := rfl
theorem State.touchDie_issuing (s : State) (a n : Nat) (id w) : (s.touchDie a n).issuing id w = (s.issuing id w).touchDie a n := rfl

/-- A hart at rest begins a region where one has ended, and goes on. -/
theorem beginRegion_of_none {s : State} (h : s.me.pend = []) : s.beginRegion = .ok () (if s.me.boundary then s.modMe Hart.enterRegion else s) := by
  unfold State.beginRegion
  cases hb : s.me.boundary <;> simp [h]

/-- An attempt at a hart at rest comes to its word: the illegal-instruction trap, or what the instruction does. -/
theorem attempt_of_atRest {ex : Instr → State → Out} {s : State} {id : HartId} {w : Nat} {e : TlbEntry} (h : (s.hart id).atRest id = true)
    (f : ((s.begun id).on id).fetches (s.hart id).pc e w = true) (he : e.sig = false) :
    attempt ex id s = issueWord ex (w, false) (((s.begun id).fetched id e).issuing id w) := by
  simp only [Hart.atRest, Bool.and_eq_true, Bool.not_eq_true', List.isEmpty_iff, Option.isNone_iff_eq_none] at h
  obtain ⟨⟨⟨⟨⟨h1, h3⟩, hword⟩, h4⟩, hverdict⟩, h5⟩ := h
  show (let s := (s.on id).modMe quiet
    if s.me.verdict.isSome then Host.Outcome.next (s.takeVerdict id) else s.settle.beginRegion.run fun _ s => s.windowOver.run fun _ s => fetchAndRun ex s) = _
  have hme : ((s.on id).modMe quiet).me = quiet (s.hart id) := by simp
  have hs : ((s.on id).modMe quiet).settle = (s.on id).modMe quiet := by
    rw [State.settle_of_none (by rw [hme]; exact h3)]
    exact State.modMe_modMe ..
  have hv : ((s.on id).modMe quiet).me.verdict = none := by rw [hme]; exact hverdict
  let go (h : Hart) : Hart := quiet h.inRegion
  have hb : ((s.on id).modMe quiet).beginRegion = .ok () ((s.on id).modMe go) := by
    rw [beginRegion_of_none (by rw [hme]; exact h3), hme]
    refine congrArg (Res.ok ()) ?_
    cases hbd : (s.hart id).boundary
    · simp only [quiet, hbd, Bool.false_eq_true, if_false]
      exact State.modMe_congr _ (by simp [go, quiet, Hart.inRegion, hbd])
    · simp only [quiet, hbd, if_true]
      exact (State.modMe_modMe ..).trans (State.modMe_congr _ (by simp [go, quiet, Hart.inRegion, hbd, Hart.enterRegion]))
  have hgo : ∀ g : Hart → Hart, ((s.on id).modMe go).modMe g = ((s.begun id).on id).modMe fun h => g (quiet h) := by
    intro g
    rw [State.begun_on, State.modMe_modMe, State.modMe_modMe]
  have hme' : ((s.on id).modMe go).me = go (s.hart id) := by simp
  obtain ⟨e1, e3, e4, e5⟩ : (go (s.hart id)).pc = (s.hart id).pc ∧ (go (s.hart id)).word = (s.hart id).word ∧
      (go (s.hart id)).regs = (s.hart id).regs ∧ (go (s.hart id)).pend = [] := by
    simp only [go, quiet, Hart.inRegion]
    split <;> simp [Hart.enterRegion, h3]
  have hn : (((s.on id).modMe go).modMe fun h => { h with insn := BitVec.ofNat 64 0 }).fetches (s.hart id).pc e w = true := by
    rw [hgo, State.fetches_modMe ((s.begun id).on id) (fun h => { quiet h with insn := BitVec.ofNat 64 0 }) (fun _ => rfl) (fun _ => rfl)
      (fun _ => rfl)]
    exact f
  have hi : (((s.on id).modMe go).modMe fun h => { h with insn := BitVec.ofNat 64 0 }).modMe (fun h => { h with insn := BitVec.ofNat 64 w })
      = (s.begun id).issuing id w := by
    rw [State.modMe_modMe, hgo]
    unfold State.issuing
    exact State.modMe_congr _ rfl
  have hpc' : ((s.begun id).hart id).pc = (s.hart id).pc := by
    have : (s.begun id).hart id = (s.hart id).inRegion := by simp [State.begun, State.modHart]
    rw [this]; unfold Hart.inRegion; split <;> rfl
  have hcur : ((s.on id).modMe go).cur = id := rfl
  simp only [hv, Option.isSome_none, Bool.false_eq_true, if_false, hs, hb, Res.run_ok]
  generalize hu : (s.on id).modMe go = u at hme' hn hi hcur
  have hc : u.windowOver = .ok () u := by
    unfold State.windowOver; rw [hme']; simp [Hart.closed, e5]
  have hw1 : u.me.word = none := by rw [hme', e3]; exact hword
  have hw2 : u.me.buffered = none := by rw [hme']; simp [Hart.buffered, e4, h4]
  have hpc : u.me.pc = (s.hart id).pc := by rw [hme', e1]
  rw [hc]
  simp only [Res.run_ok]
  unfold fetchAndRun
  simp only [hw1, hw2, Option.isSome_none, Bool.or_false, Bool.false_and, Bool.false_eq_true, if_false, hpc, State.fetchWord_of_fetches hn,
    Res.run_ok, State.checkBlock, he, Bool.not_false, Bool.true_or, if_true]
  refine congrArg (issueWord ex (w, false)) ?_
  rw [show (u.modMe fun h => { h with insn := BitVec.ofNat 64 0 }).cur = u.cur from rfl, hcur]
  unfold State.fetched
  cases hsl : isSlot id
  · simp only [Bool.false_eq_true, if_false, hpc']
    rw [State.touchDie_modMe, hi, State.touchDie_issuing]
  · simp only [if_true]
    exact hi

theorem trySlots_first {ex} {c} {s : State} : ∀ {first rest : List Nat} {n}, (∀ m ∈ first, (s.hart (.slot c m)).ready (.slot c m) = false) →
   trySlots ex c (first ++ n :: rest) s = trySlots ex c (n :: rest) s := by
  intro first
  induction first with
  | nil => intros; rfl
  | cons m t ih =>
    intro rest n h
    rw [List.cons_append, trySlots]
    simp only [h m (List.mem_cons_self ..), Bool.not_false, if_true]
    exact ih fun x hx => h x (List.mem_cons_of_mem _ hx)

theorem issuing_me (s : State) (id w) : (s.issuing id w).me = (fun h : Hart => { h with wait := none, insn := BitVec.ofNat 64 w }) (s.hart id) := by
  simp [State.issuing]
theorem issuing_pend {s : State} {id w} (h : (s.hart id).pend = []) : ((s.issuing id w).modMe Hart.countWindows) = s.issuing id w := by
  unfold State.issuing
  rw [State.modMe_modMe]
  refine State.modMe_congr _ ?_
  simp [Hart.countWindows, h]

end Sys2Proof.Machine
end

