-- ==== Sys2Proof/Laws/Operands.lean ====
section
/-! SUPPORT. Scalar operands and results (06 R146) as bit vectors of the operation's width. -/

namespace Sys2Proof.Machine

open Sys2Proof

set_option Elab.async false

/-- The width of an integer TYPE is 8, 16, 32 or 64. -/
theorem tyWidth_int {t : BitVec 4} (h : tyInt t = true) : tyWidth t = 8 ∨ tyWidth t = 16 ∨ tyWidth t = 32 ∨ tyWidth t = 64 := by
  revert h; revert t; decide

theorem tyWidth_pos {t : BitVec 4} (h : tyInt t = true) : 0 < tyWidth t := by
  rcases tyWidth_int h with e | e | e | e <;> rw [e] <;> decide

theorem tyWidth_le {t : BitVec 4} (h : tyInt t = true) : tyWidth t ≤ 64 := by
  rcases tyWidth_int h with e | e | e | e <;> rw [e] <;> decide

theorem signedOf_toInt {w : Nat} (x : BitVec w) : signedOf w x.toNat = x.toInt := by
  rw [BitVec.toInt_eq_toNat_cond, signedOf, Nat.mod_eq_of_lt x.isLt]
  simp only [Nat.cast_ofNat, Nat.cast_pow]

theorem wrapInt_ofInt (w : Nat) (x : Int) : wrapInt w x = (BitVec.ofInt w x).toNat := by
  simp [wrapInt, BitVec.toNat_ofInt]

/-- An operand is the register's low part, signed or not. -/
theorem operand_eq {ty : BitVec 4} (x : Word) :
    operand ty x = if tySigned ty then (x.setWidth (tyWidth ty)).toInt else ((x.setWidth (tyWidth ty)).toNat : Int) := by
  unfold operand
  rw [← signedOf_toInt _, BitVec.toNat_setWidth]

/-- A pattern extends by the signedness. -/
theorem extend_eq {ty : BitVec 4} (n : Nat) :
    extend ty n = if tySigned ty then (BitVec.ofNat (tyWidth ty) n).signExtend 64 else (BitVec.ofNat (tyWidth ty) n).setWidth 64 := by
  unfold extend
  split
  · rw [show n % 2 ^ tyWidth ty = (BitVec.ofNat (tyWidth ty) n).toNat from (BitVec.toNat_ofNat ..).symm,
      signedOf_toInt _]
    rfl
  · apply BitVec.eq_of_toNat_eq
    simp

/-- A result is reduced to the width and extended. -/
theorem result_eq {ty : BitVec 4} (sat : Bool) (x : Int) :
    result ty sat x = (let y := if sat then clampInt (tyWidth ty) (tySigned ty) x else x
      if tySigned ty then (BitVec.ofInt (tyWidth ty) y).signExtend 64 else (BitVec.ofInt (tyWidth ty) y).setWidth 64) := by
  unfold result
  simp only [extend_eq, wrapInt_ofInt, BitVec.ofNat_toNat, BitVec.setWidth_eq]

end Sys2Proof.Machine
end

