-- ==== Sys2Proof/Laws/PerInstr.lean ====
section
/-! SUPPORT. Instruction by instruction: a well-formed instruction is what its word decodes to. -/

namespace Sys2Proof.Laws.RoundTrip

open Sys2Proof

set_option Elab.async false

/-- The word of an instruction, of either set, decodes to the instruction (R20, R50, R71). -/
def Statement (i : Instr) : Prop :=
  i.wf = true →
    (∀ w, encodeRonid i = some w → decodeRonid w = .ok i) ∧ (∀ w, encodeMilestone i = some w → decodeMilestone w = .ok i)

theorem wordA {op : Nat} (h : op < 256) (f : FmtA) (k : FmtA → Instr) (g : (k f).wf = true) :
    decodeA (f.word op) k = .ok (k f) := by
  simp [decodeA, acceptIf, FmtA.word_reserved45 h, accept, FmtA.ofWord_word h, g]

theorem roundA {op : Nat} {k : FmtA → Instr} (h : op < 256) (e : ∀ w, bits w 0 8 = op → decodeRonid w = decodeA w k)
    (r : ∀ f, encodeRonid (k f) = some (f.word op)) (m : ∀ f, encodeMilestone (k f) = none) (f : FmtA) : Statement (k f) := by
  refine fun g => ⟨fun w a => ?_, fun w a => ?_⟩
  · rw [r f] at a
    cases a
    rw [e _ (FmtA.word_opcode h f)]
    exact wordA h f k g
  · rw [m f] at a; cases a

theorem wordI {op : Nat} (h : op < 256) (f : FmtI) (k : FmtI → Instr) (g : (k f).wf = true) :
    decodeI (f.word op) k = .ok (k f) := by
  simp [decodeI, acceptIf, FmtI.word_reserved55 h, accept, FmtI.ofWord_word h, g]

theorem roundI {op : Nat} {k : FmtI → Instr} (h : op < 256) (e : ∀ w, bits w 0 8 = op → decodeRonid w = decodeI w k)
    (r : ∀ f, encodeRonid (k f) = some (f.word op)) (m : ∀ f, encodeMilestone (k f) = none) (f : FmtI) : Statement (k f) := by
  refine fun g => ⟨fun w a => ?_, fun w a => ?_⟩
  · rw [r f] at a
    cases a
    rw [e _ (FmtI.word_opcode h f)]
    exact wordI h f k g
  · rw [m f] at a; cases a

theorem wordM {op : Nat} (h : op < 256) (f : FmtM) (k : FmtM → Instr) (g : (k f).wf = true) :
    decodeM (f.word op) k = .ok (k f) := by
  simp [decodeM,  accept, FmtM.ofWord_word h, g]

theorem roundM {op : Nat} {k : FmtM → Instr} (h : op < 256) (e : ∀ w, bits w 0 8 = op → decodeRonid w = decodeM w k)
    (r : ∀ f, encodeRonid (k f) = some (f.word op)) (m : ∀ f, encodeMilestone (k f) = none) (f : FmtM) : Statement (k f) := by
  refine fun g => ⟨fun w a => ?_, fun w a => ?_⟩
  · rw [r f] at a
    cases a
    rw [e _ (FmtM.word_opcode h f)]
    exact wordM h f k g
  · rw [m f] at a; cases a

theorem wordB {op : Nat} (h : op < 256) (f : FmtB) (k : FmtB → Instr) (g : (k f).wf = true) :
    decodeB (f.word op) k = .ok (k f) := by
  simp [decodeB,  accept, FmtB.ofWord_word h, g]

theorem roundB {op : Nat} {k : FmtB → Instr} (h : op < 256) (e : ∀ w, bits w 0 8 = op → decodeRonid w = decodeB w k)
    (r : ∀ f, encodeRonid (k f) = some (f.word op)) (m : ∀ f, encodeMilestone (k f) = none) (f : FmtB) : Statement (k f) := by
  refine fun g => ⟨fun w a => ?_, fun w a => ?_⟩
  · rw [r f] at a
    cases a
    rw [e _ (FmtB.word_opcode h f)]
    exact wordB h f k g
  · rw [m f] at a; cases a

theorem wordT {op : Nat} (h : op < 256) (f : FmtT) (k : FmtT → Instr) (g : (k f).wf = true) :
    decodeT (f.word op) k = .ok (k f) := by
  simp [decodeT, acceptIf, FmtT.word_reserved54 h, FmtT.word_reserved42 h, accept, FmtT.ofWord_word h, g]

theorem roundT {op : Nat} {k : FmtT → Instr} (h : op < 256) (e : ∀ w, bits w 0 8 = op → decodeRonid w = decodeT w k)
    (r : ∀ f, encodeRonid (k f) = some (f.word op)) (m : ∀ f, encodeMilestone (k f) = none) (f : FmtT) : Statement (k f) := by
  refine fun g => ⟨fun w a => ?_, fun w a => ?_⟩
  · rw [r f] at a
    cases a
    rw [e _ (FmtT.word_opcode h f)]
    exact wordT h f k g
  · rw [m f] at a; cases a

theorem wordW {op : Nat} (h : op < 256) (f : FmtW) (k : FmtW → Instr) (g : (k f).wf = true) :
    decodeW (f.word op) k = .ok (k f) := by
  simp [decodeW, acceptIf, FmtW.word_reserved55 h, accept, FmtW.ofWord_word h, g]

theorem roundW {op : Nat} {k : FmtW → Instr} (h : op < 256) (e : ∀ w, bits w 0 8 = op → decodeRonid w = decodeW w k)
    (r : ∀ f, encodeRonid (k f) = some (f.word op)) (m : ∀ f, encodeMilestone (k f) = none) (f : FmtW) : Statement (k f) := by
  refine fun g => ⟨fun w a => ?_, fun w a => ?_⟩
  · rw [r f] at a
    cases a
    rw [e _ (FmtW.word_opcode h f)]
    exact wordW h f k g
  · rw [m f] at a; cases a

theorem wordE {op : Nat} (h : op < 256) (f : FmtE) (k : FmtE → Instr) (g : (k f).wf = true) :
    decodeE (f.word op) k = .ok (k f) := by
  simp [decodeE, acceptIf, FmtE.word_reserved32 h, accept, FmtE.ofWord_word h, g]

theorem roundE {op : Nat} {k : FmtE → Instr} (h : op < 256) (e : ∀ w, bits w 0 8 = op → decodeRonid w = decodeE w k)
    (r : ∀ f, encodeRonid (k f) = some (f.word op)) (m : ∀ f, encodeMilestone (k f) = none) (f : FmtE) : Statement (k f) := by
  refine fun g => ⟨fun w a => ?_, fun w a => ?_⟩
  · rw [r f] at a
    cases a
    rw [e _ (FmtE.word_opcode h f)]
    exact wordE h f k g
  · rw [m f] at a; cases a

theorem wordS {op : Nat} (h : op < 256) (f : FmtS) (k : FmtS → Instr) (g : (k f).wf = true) :
    decodeS (f.word op) k = .ok (k f) := by
  simp [decodeS, acceptIf, FmtS.word_reserved44 h, accept, FmtS.ofWord_word h, g]

theorem roundS {op : Nat} {k : FmtS → Instr} (h : op < 256) (e : ∀ w, bits w 0 8 = op → decodeRonid w = decodeS w k)
    (r : ∀ f, encodeRonid (k f) = some (f.word op)) (m : ∀ f, encodeMilestone (k f) = none) (f : FmtS) : Statement (k f) := by
  refine fun g => ⟨fun w a => ?_, fun w a => ?_⟩
  · rw [r f] at a
    cases a
    rw [e _ (FmtS.word_opcode h f)]
    exact wordS h f k g
  · rw [m f] at a; cases a

/-- The same where FN tells the rows of an opcode apart. -/
theorem roundFnA {op : Nat} {n : BitVec 4} {k : FmtA → Instr} (h : op < 256)
    (e : ∀ w, bits w 0 8 = op → fnBits w = n.toNat → decodeRonid w = decodeA w k) (q : ∀ f, (k f).wf = true → f.fn = n)
    (r : ∀ f, encodeRonid (k f) = some (f.word op)) (m : ∀ f, encodeMilestone (k f) = none) (f : FmtA) : Statement (k f) := by
  refine fun g => ⟨fun w a => ?_, fun w a => ?_⟩
  · rw [r f] at a
    cases a
    rw [e _ (FmtA.word_opcode h f) (by rw [FmtA.word_fn h f, q f g])]
    exact wordA h f k g
  · rw [m f] at a; cases a

/-- The same where FN tells the rows of an opcode apart. -/
theorem roundFnT {op : Nat} {n : BitVec 4} {k : FmtT → Instr} (h : op < 256)
    (e : ∀ w, bits w 0 8 = op → fnBits w = n.toNat → decodeRonid w = decodeT w k) (q : ∀ f, (k f).wf = true → f.fn = n)
    (r : ∀ f, encodeRonid (k f) = some (f.word op)) (m : ∀ f, encodeMilestone (k f) = none) (f : FmtT) : Statement (k f) := by
  refine fun g => ⟨fun w a => ?_, fun w a => ?_⟩
  · rw [r f] at a
    cases a
    rw [e _ (FmtT.word_opcode h f) (by rw [FmtT.word_fn h f, q f g])]
    exact wordT h f k g
  · rw [m f] at a; cases a

/-- The same where FN tells the rows of an opcode apart. -/
theorem roundFnW {op : Nat} {n : BitVec 4} {k : FmtW → Instr} (h : op < 256)
    (e : ∀ w, bits w 0 8 = op → fnBits w = n.toNat → decodeRonid w = decodeW w k) (q : ∀ f, (k f).wf = true → f.fn = n)
    (r : ∀ f, encodeRonid (k f) = some (f.word op)) (m : ∀ f, encodeMilestone (k f) = none) (f : FmtW) : Statement (k f) := by
  refine fun g => ⟨fun w a => ?_, fun w a => ?_⟩
  · rw [r f] at a
    cases a
    rw [e _ (FmtW.word_opcode h f) (by rw [FmtW.word_fn h f, q f g])]
    exact wordW h f k g
  · rw [m f] at a; cases a

/-- The same where FN tells the rows of an opcode apart. -/
theorem roundFnS {op : Nat} {n : BitVec 4} {k : FmtS → Instr} (h : op < 256)
    (e : ∀ w, bits w 0 8 = op → fnBits w = n.toNat → decodeRonid w = decodeS w k) (q : ∀ f, (k f).wf = true → f.fn = n)
    (r : ∀ f, encodeRonid (k f) = some (f.word op)) (m : ∀ f, encodeMilestone (k f) = none) (f : FmtS) : Statement (k f) := by
  refine fun g => ⟨fun w a => ?_, fun w a => ?_⟩
  · rw [r f] at a
    cases a
    rw [e _ (FmtS.word_opcode h f) (by rw [FmtS.word_fn h f, q f g])]
    exact wordS h f k g
  · rw [m f] at a; cases a

theorem isVxf (n : BitVec 12) (h : vxfReg n = true) : n.toNat = 5 ∨ n.toNat = 6 := by
  simp only [vxfReg, Bool.or_eq_true, beq_iff_eq] at h
  rcases h with rfl | rfl <;> simp
theorem notVxf (n : BitVec 12) (h : vxfReg n = false) : ¬ (n.toNat = 5 ∨ n.toNat = 6) := by
  rintro (e | e)
  · rw [BitVec.eq_of_toNat_eq e (y := 5#12)] at h; cases h
  · rw [BitVec.eq_of_toNat_eq e (y := 6#12)] at h; cases h
theorem notQuota (n : BitVec 12) (h : vxfReg n = false) (g : n ≠ 9#12) : ¬ (n.toNat = 5 ∨ n.toNat = 6) ∧ n.toNat ≠ 9 :=
  ⟨notVxf n h, fun e => g (BitVec.eq_of_toNat_eq e)⟩

/-- The same where SEL tells the rows of an opcode apart. -/
theorem roundSel {op : Nat} {p : Nat → Prop} {k : FmtS → Instr} (h : op < 256)
    (e : ∀ w, bits w 0 8 = op → p (selBits w) → decodeRonid w = decodeS w k) (q : ∀ f, (k f).wf = true → p f.sel.toNat)
    (r : ∀ f, encodeRonid (k f) = some (f.word op)) (m : ∀ f, encodeMilestone (k f) = none) (f : FmtS) : Statement (k f) := by
  refine fun g => ⟨fun w a => ?_, fun w a => ?_⟩
  · rw [r f] at a
    cases a
    rw [e _ (FmtS.word_opcode h f) (by rw [FmtS.word_sel h f]; exact q f g)]
    exact wordS h f k g
  · rw [m f] at a; cases a

/-- The same for the Milestone set. -/
theorem roundMs {op : Nat} {k : FmtMs → Instr} (h : op < 64)
    (e : ∀ w, bits w 0 6 = op → decodeMilestone w = accept (k (.ofWord w)))
    (r : ∀ f, encodeMilestone (k f) = some (f.word op)) (m : ∀ f, encodeRonid (k f) = none) (f : FmtMs) :
    Statement (k f) := by
  refine fun g => ⟨fun w a => ?_, fun w a => ?_⟩
  · rw [m f] at a; cases a
  · rw [r f] at a
    cases a
    rw [e _ (FmtMs.word_opcode h f), FmtMs.ofWord_word h, accept, if_pos g]

theorem add (f : FmtA) : Statement (.add f) :=
  roundA (op := 0x01) (by decide) (fun w h => by unfold decodeRonid; rw [h]; rfl) (fun _ => rfl) (fun _ => rfl) f
theorem addi (f : FmtI) : Statement (.addi f) :=
  roundI (op := 0x02) (by decide) (fun w h => by unfold decodeRonid; rw [h]; rfl) (fun _ => rfl) (fun _ => rfl) f
theorem sub (f : FmtA) : Statement (.sub f) :=
  roundA (op := 0x03) (by decide) (fun w h => by unfold decodeRonid; rw [h]; rfl) (fun _ => rfl) (fun _ => rfl) f
theorem mul (f : FmtA) : Statement (.mul f) :=
  roundA (op := 0x04) (by decide) (fun w h => by unfold decodeRonid; rw [h]; rfl) (fun _ => rfl) (fun _ => rfl) f
theorem mulh (f : FmtA) : Statement (.mulh f) :=
  roundA (op := 0x05) (by decide) (fun w h => by unfold decodeRonid; rw [h]; rfl) (fun _ => rfl) (fun _ => rfl) f
theorem div (f : FmtA) : Statement (.div f) :=
  roundA (op := 0x06) (by decide) (fun w h => by unfold decodeRonid; rw [h]; rfl) (fun _ => rfl) (fun _ => rfl) f
theorem rem (f : FmtA) : Statement (.rem f) :=
  roundA (op := 0x07) (by decide) (fun w h => by unfold decodeRonid; rw [h]; rfl) (fun _ => rfl) (fun _ => rfl) f
theorem and (f : FmtA) : Statement (.and f) :=
  roundA (op := 0x08) (by decide) (fun w h => by unfold decodeRonid; rw [h]; rfl) (fun _ => rfl) (fun _ => rfl) f
theorem andi (f : FmtI) : Statement (.andi f) :=
  roundI (op := 0x09) (by decide) (fun w h => by unfold decodeRonid; rw [h]; rfl) (fun _ => rfl) (fun _ => rfl) f
theorem or (f : FmtA) : Statement (.or f) :=
  roundA (op := 0x0A) (by decide) (fun w h => by unfold decodeRonid; rw [h]; rfl) (fun _ => rfl) (fun _ => rfl) f
theorem ori (f : FmtI) : Statement (.ori f) :=
  roundI (op := 0x0B) (by decide) (fun w h => by unfold decodeRonid; rw [h]; rfl) (fun _ => rfl) (fun _ => rfl) f
theorem xor (f : FmtA) : Statement (.xor f) :=
  roundA (op := 0x0C) (by decide) (fun w h => by unfold decodeRonid; rw [h]; rfl) (fun _ => rfl) (fun _ => rfl) f
theorem xori (f : FmtI) : Statement (.xori f) :=
  roundI (op := 0x0D) (by decide) (fun w h => by unfold decodeRonid; rw [h]; rfl) (fun _ => rfl) (fun _ => rfl) f
theorem shl (f : FmtA) : Statement (.shl f) :=
  roundA (op := 0x0E) (by decide) (fun w h => by unfold decodeRonid; rw [h]; rfl) (fun _ => rfl) (fun _ => rfl) f
theorem shli (f : FmtI) : Statement (.shli f) :=
  roundI (op := 0x0F) (by decide) (fun w h => by unfold decodeRonid; rw [h]; rfl) (fun _ => rfl) (fun _ => rfl) f
theorem shr (f : FmtA) : Statement (.shr f) :=
  roundA (op := 0x10) (by decide) (fun w h => by unfold decodeRonid; rw [h]; rfl) (fun _ => rfl) (fun _ => rfl) f
theorem shri (f : FmtI) : Statement (.shri f) :=
  roundI (op := 0x11) (by decide) (fun w h => by unfold decodeRonid; rw [h]; rfl) (fun _ => rfl) (fun _ => rfl) f
theorem sra (f : FmtA) : Statement (.sra f) :=
  roundA (op := 0x12) (by decide) (fun w h => by unfold decodeRonid; rw [h]; rfl) (fun _ => rfl) (fun _ => rfl) f
theorem srai (f : FmtI) : Statement (.srai f) :=
  roundI (op := 0x13) (by decide) (fun w h => by unfold decodeRonid; rw [h]; rfl) (fun _ => rfl) (fun _ => rfl) f
theorem min (f : FmtA) : Statement (.min f) :=
  roundA (op := 0x14) (by decide) (fun w h => by unfold decodeRonid; rw [h]; rfl) (fun _ => rfl) (fun _ => rfl) f
theorem max (f : FmtA) : Statement (.max f) :=
  roundA (op := 0x15) (by decide) (fun w h => by unfold decodeRonid; rw [h]; rfl) (fun _ => rfl) (fun _ => rfl) f
theorem cset (f : FmtA) : Statement (.cset f) :=
  roundA (op := 0x16) (by decide) (fun w h => by unfold decodeRonid; rw [h]; rfl) (fun _ => rfl) (fun _ => rfl) f
theorem csel (f : FmtA) : Statement (.csel f) :=
  roundA (op := 0x17) (by decide) (fun w h => by unfold decodeRonid; rw [h]; rfl) (fun _ => rfl) (fun _ => rfl) f
theorem clz (f : FmtA) : Statement (.clz f) :=
  roundA (op := 0x18) (by decide) (fun w h => by unfold decodeRonid; rw [h]; rfl) (fun _ => rfl) (fun _ => rfl) f
theorem ctz (f : FmtA) : Statement (.ctz f) :=
  roundA (op := 0x19) (by decide) (fun w h => by unfold decodeRonid; rw [h]; rfl) (fun _ => rfl) (fun _ => rfl) f
theorem popc (f : FmtA) : Statement (.popc f) :=
  roundA (op := 0x1A) (by decide) (fun w h => by unfold decodeRonid; rw [h]; rfl) (fun _ => rfl) (fun _ => rfl) f
theorem bext (f : FmtA) : Statement (.bext f) :=
  roundA (op := 0x1B) (by decide) (fun w h => by unfold decodeRonid; rw [h]; rfl) (fun _ => rfl) (fun _ => rfl) f
theorem bins (f : FmtA) : Statement (.bins f) :=
  roundA (op := 0x1C) (by decide) (fun w h => by unfold decodeRonid; rw [h]; rfl) (fun _ => rfl) (fun _ => rfl) f
theorem li (f : FmtI) : Statement (.li f) :=
  roundI (op := 0x1D) (by decide) (fun w h => by unfold decodeRonid; rw [h]; rfl) (fun _ => rfl) (fun _ => rfl) f
theorem lih (f : FmtI) : Statement (.lih f) :=
  roundI (op := 0x1E) (by decide) (fun w h => by unfold decodeRonid; rw [h]; rfl) (fun _ => rfl) (fun _ => rfl) f
theorem addpc (f : FmtI) : Statement (.addpc f) :=
  roundI (op := 0x1F) (by decide) (fun w h => by unfold decodeRonid; rw [h]; rfl) (fun _ => rfl) (fun _ => rfl) f
theorem br (f : FmtB) : Statement (.br f) :=
  roundB (op := 0x30) (by decide) (fun w h => by unfold decodeRonid; rw [h]; rfl) (fun _ => rfl) (fun _ => rfl) f
theorem jmp (f : FmtB) : Statement (.jmp f) :=
  roundB (op := 0x31) (by decide) (fun w h => by unfold decodeRonid; rw [h]; rfl) (fun _ => rfl) (fun _ => rfl) f
theorem jr (f : FmtA) : Statement (.jr f) :=
  roundA (op := 0x32) (by decide) (fun w h => by unfold decodeRonid; rw [h]; rfl) (fun _ => rfl) (fun _ => rfl) f
theorem call (f : FmtB) : Statement (.call f) :=
  roundB (op := 0x33) (by decide) (fun w h => by unfold decodeRonid; rw [h]; rfl) (fun _ => rfl) (fun _ => rfl) f
theorem callr (f : FmtA) : Statement (.callr f) :=
  roundA (op := 0x34) (by decide) (fun w h => by unfold decodeRonid; rw [h]; rfl) (fun _ => rfl) (fun _ => rfl) f
theorem rep (f : FmtI) : Statement (.rep f) :=
  roundI (op := 0x35) (by decide) (fun w h => by unfold decodeRonid; rw [h]; rfl) (fun _ => rfl) (fun _ => rfl) f
theorem gset (f : FmtA) : Statement (.gset f) :=
  roundA (op := 0x36) (by decide) (fun w h => by unfold decodeRonid; rw [h]; rfl) (fun _ => rfl) (fun _ => rfl) f
theorem gclr (f : FmtA) : Statement (.gclr f) :=
  roundA (op := 0x37) (by decide) (fun w h => by unfold decodeRonid; rw [h]; rfl) (fun _ => rfl) (fun _ => rfl) f
theorem rgn (f : FmtA) : Statement (.rgn f) :=
  roundA (op := 0x38) (by decide) (fun w h => by unfold decodeRonid; rw [h]; rfl) (fun _ => rfl) (fun _ => rfl) f
theorem taskEnd (f : FmtA) : Statement (.taskEnd f) :=
  roundA (op := 0x39) (by decide) (fun w h => by unfold decodeRonid; rw [h]; rfl) (fun _ => rfl) (fun _ => rfl) f
theorem nop (f : FmtA) : Statement (.nop f) :=
  roundA (op := 0x3A) (by decide) (fun w h => by unfold decodeRonid; rw [h]; rfl) (fun _ => rfl) (fun _ => rfl) f
theorem brk (f : FmtI) : Statement (.brk f) :=
  roundI (op := 0x3B) (by decide) (fun w h => by unfold decodeRonid; rw [h]; rfl) (fun _ => rfl) (fun _ => rfl) f
theorem ld (f : FmtM) : Statement (.ld f) :=
  roundM (op := 0x40) (by decide) (fun w h => by unfold decodeRonid; rw [h]; rfl) (fun _ => rfl) (fun _ => rfl) f
theorem st (f : FmtM) : Statement (.st f) :=
  roundM (op := 0x41) (by decide) (fun w h => by unfold decodeRonid; rw [h]; rfl) (fun _ => rfl) (fun _ => rfl) f
theorem wld (f : FmtM) : Statement (.wld f) :=
  roundM (op := 0x42) (by decide) (fun w h => by unfold decodeRonid; rw [h]; rfl) (fun _ => rfl) (fun _ => rfl) f
theorem wst (f : FmtM) : Statement (.wst f) :=
  roundM (op := 0x43) (by decide) (fun w h => by unfold decodeRonid; rw [h]; rfl) (fun _ => rfl) (fun _ => rfl) f
theorem pf (f : FmtM) : Statement (.pf f) :=
  roundM (op := 0x44) (by decide) (fun w h => by unfold decodeRonid; rw [h]; rfl) (fun _ => rfl) (fun _ => rfl) f
theorem bld (f : FmtM) : Statement (.bld f) :=
  roundM (op := 0x45) (by decide) (fun w h => by unfold decodeRonid; rw [h]; rfl) (fun _ => rfl) (fun _ => rfl) f
theorem bst (f : FmtM) : Statement (.bst f) :=
  roundM (op := 0x46) (by decide) (fun w h => by unfold decodeRonid; rw [h]; rfl) (fun _ => rfl) (fun _ => rfl) f
theorem cln (f : FmtM) : Statement (.cln f) :=
  roundM (op := 0x47) (by decide) (fun w h => by unfold decodeRonid; rw [h]; rfl) (fun _ => rfl) (fun _ => rfl) f
theorem amo (f : FmtM) : Statement (.amo f) :=
  roundM (op := 0x50) (by decide) (fun w h => by unfold decodeRonid; rw [h]; rfl) (fun _ => rfl) (fun _ => rfl) f
theorem cas (f : FmtM) : Statement (.cas f) :=
  roundM (op := 0x51) (by decide) (fun w h => by unfold decodeRonid; rw [h]; rfl) (fun _ => rfl) (fun _ => rfl) f
theorem cas2 (f : FmtM) : Statement (.cas2 f) :=
  roundM (op := 0x52) (by decide) (fun w h => by unfold decodeRonid; rw [h]; rfl) (fun _ => rfl) (fun _ => rfl) f
theorem fence (f : FmtA) : Statement (.fence f) :=
  roundA (op := 0x53) (by decide) (fun w h => by unfold decodeRonid; rw [h]; rfl) (fun _ => rfl) (fun _ => rfl) f
theorem barr (f : FmtM) : Statement (.barr f) :=
  roundM (op := 0x54) (by decide) (fun w h => by unfold decodeRonid; rw [h]; rfl) (fun _ => rfl) (fun _ => rfl) f
theorem wfv (f : FmtM) : Statement (.wfv f) :=
  roundM (op := 0x55) (by decide) (fun w h => by unfold decodeRonid; rw [h]; rfl) (fun _ => rfl) (fun _ => rfl) f
theorem vadd (f : FmtA) : Statement (.vadd f) :=
  roundA (op := 0x60) (by decide) (fun w h => by unfold decodeRonid; rw [h]; rfl) (fun _ => rfl) (fun _ => rfl) f
theorem vsub (f : FmtA) : Statement (.vsub f) :=
  roundA (op := 0x61) (by decide) (fun w h => by unfold decodeRonid; rw [h]; rfl) (fun _ => rfl) (fun _ => rfl) f
theorem vmul (f : FmtA) : Statement (.vmul f) :=
  roundA (op := 0x62) (by decide) (fun w h => by unfold decodeRonid; rw [h]; rfl) (fun _ => rfl) (fun _ => rfl) f
theorem vfma (f : FmtA) : Statement (.vfma f) :=
  roundA (op := 0x63) (by decide) (fun w h => by unfold decodeRonid; rw [h]; rfl) (fun _ => rfl) (fun _ => rfl) f
theorem vfms (f : FmtA) : Statement (.vfms f) :=
  roundA (op := 0x64) (by decide) (fun w h => by unfold decodeRonid; rw [h]; rfl) (fun _ => rfl) (fun _ => rfl) f
theorem vmin (f : FmtA) : Statement (.vmin f) :=
  roundA (op := 0x65) (by decide) (fun w h => by unfold decodeRonid; rw [h]; rfl) (fun _ => rfl) (fun _ => rfl) f
theorem vmax (f : FmtA) : Statement (.vmax f) :=
  roundA (op := 0x66) (by decide) (fun w h => by unfold decodeRonid; rw [h]; rfl) (fun _ => rfl) (fun _ => rfl) f
theorem vabs (f : FmtA) : Statement (.vabs f) :=
  roundA (op := 0x67) (by decide) (fun w h => by unfold decodeRonid; rw [h]; rfl) (fun _ => rfl) (fun _ => rfl) f
theorem vneg (f : FmtA) : Statement (.vneg f) :=
  roundA (op := 0x68) (by decide) (fun w h => by unfold decodeRonid; rw [h]; rfl) (fun _ => rfl) (fun _ => rfl) f
theorem vand (f : FmtA) : Statement (.vand f) :=
  roundA (op := 0x69) (by decide) (fun w h => by unfold decodeRonid; rw [h]; rfl) (fun _ => rfl) (fun _ => rfl) f
theorem vor (f : FmtA) : Statement (.vor f) :=
  roundA (op := 0x6A) (by decide) (fun w h => by unfold decodeRonid; rw [h]; rfl) (fun _ => rfl) (fun _ => rfl) f
theorem vxor (f : FmtA) : Statement (.vxor f) :=
  roundA (op := 0x6B) (by decide) (fun w h => by unfold decodeRonid; rw [h]; rfl) (fun _ => rfl) (fun _ => rfl) f
theorem vshl (f : FmtA) : Statement (.vshl f) :=
  roundA (op := 0x6C) (by decide) (fun w h => by unfold decodeRonid; rw [h]; rfl) (fun _ => rfl) (fun _ => rfl) f
theorem vshr (f : FmtA) : Statement (.vshr f) :=
  roundA (op := 0x6D) (by decide) (fun w h => by unfold decodeRonid; rw [h]; rfl) (fun _ => rfl) (fun _ => rfl) f
theorem vsra (f : FmtA) : Statement (.vsra f) :=
  roundA (op := 0x6E) (by decide) (fun w h => by unfold decodeRonid; rw [h]; rfl) (fun _ => rfl) (fun _ => rfl) f
theorem vcmp (f : FmtA) : Statement (.vcmp f) :=
  roundA (op := 0x6F) (by decide) (fun w h => by unfold decodeRonid; rw [h]; rfl) (fun _ => rfl) (fun _ => rfl) f
theorem vsel (f : FmtA) : Statement (.vsel f) :=
  roundA (op := 0x70) (by decide) (fun w h => by unfold decodeRonid; rw [h]; rfl) (fun _ => rfl) (fun _ => rfl) f
theorem vcvt (f : FmtA) : Statement (.vcvt f) :=
  roundA (op := 0x71) (by decide) (fun w h => by unfold decodeRonid; rw [h]; rfl) (fun _ => rfl) (fun _ => rfl) f
theorem vred (f : FmtA) : Statement (.vred f) :=
  roundA (op := 0x72) (by decide) (fun w h => by unfold decodeRonid; rw [h]; rfl) (fun _ => rfl) (fun _ => rfl) f
theorem vscan (f : FmtA) : Statement (.vscan f) :=
  roundA (op := 0x73) (by decide) (fun w h => by unfold decodeRonid; rw [h]; rfl) (fun _ => rfl) (fun _ => rfl) f
theorem vperm (f : FmtA) : Statement (.vperm f) :=
  roundFnA (op := 0x74) (n := 0) (by decide) (fun w h g => by unfold decodeRonid; rw [h, g]; rfl)
    (fun f h => by simp only [Instr.wf, FmtA.vec, Bool.and_eq_true, beq_iff_eq] at h; simp_all only [BitVec.ofNat_eq_ofNat]) (fun _ => rfl) (fun _ => rfl) f
theorem vperm2 (f : FmtA) : Statement (.vperm2 f) :=
  roundFnA (op := 0x74) (n := 1) (by decide) (fun w h g => by unfold decodeRonid; rw [h, g]; rfl)
    (fun f h => by simp only [Instr.wf, Bool.and_eq_true, beq_iff_eq] at h; simp_all only [BitVec.ofNat_eq_ofNat]) (fun _ => rfl) (fun _ => rfl) f
theorem vbcast (f : FmtA) : Statement (.vbcast f) :=
  roundA (op := 0x75) (by decide) (fun w h => by unfold decodeRonid; rw [h]; rfl) (fun _ => rfl) (fun _ => rfl) f
theorem vext (f : FmtA) : Statement (.vext f) :=
  roundA (op := 0x76) (by decide) (fun w h => by unfold decodeRonid; rw [h]; rfl) (fun _ => rfl) (fun _ => rfl) f
theorem vins (f : FmtA) : Statement (.vins f) :=
  roundA (op := 0x77) (by decide) (fun w h => by unfold decodeRonid; rw [h]; rfl) (fun _ => rfl) (fun _ => rfl) f
theorem vrcp (f : FmtA) : Statement (.vrcp f) :=
  roundA (op := 0x78) (by decide) (fun w h => by unfold decodeRonid; rw [h]; rfl) (fun _ => rfl) (fun _ => rfl) f
theorem vrsqrt (f : FmtA) : Statement (.vrsqrt f) :=
  roundA (op := 0x79) (by decide) (fun w h => by unfold decodeRonid; rw [h]; rfl) (fun _ => rfl) (fun _ => rfl) f
theorem vexp2 (f : FmtA) : Statement (.vexp2 f) :=
  roundA (op := 0x7A) (by decide) (fun w h => by unfold decodeRonid; rw [h]; rfl) (fun _ => rfl) (fun _ => rfl) f
theorem vlog2 (f : FmtA) : Statement (.vlog2 f) :=
  roundA (op := 0x7B) (by decide) (fun w h => by unfold decodeRonid; rw [h]; rfl) (fun _ => rfl) (fun _ => rfl) f
theorem vsqrt (f : FmtA) : Statement (.vsqrt f) :=
  roundA (op := 0x7C) (by decide) (fun w h => by unfold decodeRonid; rw [h]; rfl) (fun _ => rfl) (fun _ => rfl) f
theorem vdiv (f : FmtA) : Statement (.vdiv f) :=
  roundA (op := 0x7D) (by decide) (fun w h => by unfold decodeRonid; rw [h]; rfl) (fun _ => rfl) (fun _ => rfl) f
theorem vdot (f : FmtA) : Statement (.vdot f) :=
  roundA (op := 0x7E) (by decide) (fun w h => by unfold decodeRonid; rw [h]; rfl) (fun _ => rfl) (fun _ => rfl) f
theorem vmov (f : FmtA) : Statement (.vmov f) :=
  roundA (op := 0x7F) (by decide) (fun w h => by unfold decodeRonid; rw [h]; rfl) (fun _ => rfl) (fun _ => rfl) f
theorem vld (f : FmtM) : Statement (.vld f) :=
  roundM (op := 0x80) (by decide) (fun w h => by unfold decodeRonid; rw [h]; rfl) (fun _ => rfl) (fun _ => rfl) f
theorem vst (f : FmtM) : Statement (.vst f) :=
  roundM (op := 0x81) (by decide) (fun w h => by unfold decodeRonid; rw [h]; rfl) (fun _ => rfl) (fun _ => rfl) f
theorem vgath (f : FmtM) : Statement (.vgath f) :=
  roundM (op := 0x82) (by decide) (fun w h => by unfold decodeRonid; rw [h]; rfl) (fun _ => rfl) (fun _ => rfl) f
theorem vscat (f : FmtM) : Statement (.vscat f) :=
  roundM (op := 0x83) (by decide) (fun w h => by unfold decodeRonid; rw [h]; rfl) (fun _ => rfl) (fun _ => rfl) f
theorem vbld (f : FmtM) : Statement (.vbld f) :=
  roundM (op := 0x84) (by decide) (fun w h => by unfold decodeRonid; rw [h]; rfl) (fun _ => rfl) (fun _ => rfl) f
theorem vbst (f : FmtM) : Statement (.vbst f) :=
  roundM (op := 0x85) (by decide) (fun w h => by unfold decodeRonid; rw [h]; rfl) (fun _ => rfl) (fun _ => rfl) f
theorem kop (f : FmtA) : Statement (.kop f) :=
  roundA (op := 0x86) (by decide) (fun w h => by unfold decodeRonid; rw [h]; rfl) (fun _ => rfl) (fun _ => rfl) f
theorem vclass (f : FmtA) : Statement (.vclass f) :=
  roundA (op := 0x87) (by decide) (fun w h => by unfold decodeRonid; rw [h]; rfl) (fun _ => rfl) (fun _ => rfl) f
theorem vwld (f : FmtM) : Statement (.vwld f) :=
  roundM (op := 0x88) (by decide) (fun w h => by unfold decodeRonid; rw [h]; rfl) (fun _ => rfl) (fun _ => rfl) f
theorem vwst (f : FmtM) : Statement (.vwst f) :=
  roundM (op := 0x89) (by decide) (fun w h => by unfold decodeRonid; rw [h]; rfl) (fun _ => rfl) (fun _ => rfl) f
theorem tcfg (f : FmtT) : Statement (.tcfg f) :=
  roundFnT (op := 0x90) (n := 0) (by decide) (fun w h g => by unfold decodeRonid; rw [h, g]; rfl)
    (fun f h => by simp only [Instr.wf, Bool.and_eq_true, beq_iff_eq] at h; simp_all only [BitVec.ofNat_eq_ofNat]) (fun _ => rfl) (fun _ => rfl) f
theorem tcfgGet (f : FmtT) : Statement (.tcfgGet f) :=
  roundFnT (op := 0x90) (n := 1) (by decide) (fun w h g => by unfold decodeRonid; rw [h, g]; rfl)
    (fun f h => by simp only [Instr.wf, Bool.and_eq_true, beq_iff_eq] at h; simp_all only [BitVec.ofNat_eq_ofNat]) (fun _ => rfl) (fun _ => rfl) f
theorem tclaim (f : FmtT) : Statement (.tclaim f) :=
  roundT (op := 0x91) (by decide) (fun w h => by unfold decodeRonid; rw [h]; rfl) (fun _ => rfl) (fun _ => rfl) f
theorem tfree (f : FmtT) : Statement (.tfree f) :=
  roundT (op := 0x92) (by decide) (fun w h => by unfold decodeRonid; rw [h]; rfl) (fun _ => rfl) (fun _ => rfl) f
theorem tld (f : FmtT) : Statement (.tld f) :=
  roundT (op := 0x93) (by decide) (fun w h => by unfold decodeRonid; rw [h]; rfl) (fun _ => rfl) (fun _ => rfl) f
theorem tst (f : FmtT) : Statement (.tst f) :=
  roundT (op := 0x94) (by decide) (fun w h => by unfold decodeRonid; rw [h]; rfl) (fun _ => rfl) (fun _ => rfl) f
theorem tzero (f : FmtT) : Statement (.tzero f) :=
  roundT (op := 0x95) (by decide) (fun w h => by unfold decodeRonid; rw [h]; rfl) (fun _ => rfl) (fun _ => rfl) f
theorem mma (f : FmtT) : Statement (.mma f) :=
  roundT (op := 0x96) (by decide) (fun w h => by unfold decodeRonid; rw [h]; rfl) (fun _ => rfl) (fun _ => rfl) f
theorem mmg (f : FmtT) : Statement (.mmg f) :=
  roundT (op := 0x97) (by decide) (fun w h => by unfold decodeRonid; rw [h]; rfl) (fun _ => rfl) (fun _ => rfl) f
theorem dmma (f : FmtT) : Statement (.dmma f) :=
  roundT (op := 0x98) (by decide) (fun w h => by unfold decodeRonid; rw [h]; rfl) (fun _ => rfl) (fun _ => rfl) f
theorem tscl (f : FmtT) : Statement (.tscl f) :=
  roundT (op := 0x99) (by decide) (fun w h => by unfold decodeRonid; rw [h]; rfl) (fun _ => rfl) (fun _ => rfl) f
theorem ttr (f : FmtT) : Statement (.ttr f) :=
  roundT (op := 0x9A) (by decide) (fun w h => by unfold decodeRonid; rw [h]; rfl) (fun _ => rfl) (fun _ => rfl) f
theorem cread (f : FmtT) : Statement (.cread f) :=
  roundT (op := 0x9B) (by decide) (fun w h => by unfold decodeRonid; rw [h]; rfl) (fun _ => rfl) (fun _ => rfl) f
theorem wset (f : FmtW) : Statement (.wset f) :=
  roundFnW (op := 0xA0) (n := 0) (by decide) (fun w h g => by unfold decodeRonid; rw [h, g]; rfl)
    (fun f h => by simp only [Instr.wf, Bool.and_eq_true, beq_iff_eq] at h; simp_all only [BitVec.ofNat_eq_ofNat]) (fun _ => rfl) (fun _ => rfl) f
theorem wsetDim (f : FmtW) : Statement (.wsetDim f) :=
  roundFnW (op := 0xA0) (n := 1) (by decide) (fun w h g => by unfold decodeRonid; rw [h, g]; rfl)
    (fun f h => by simp only [Instr.wf, Bool.and_eq_true, beq_iff_eq] at h; simp_all only [BitVec.ofNat_eq_ofNat]) (fun _ => rfl) (fun _ => rfl) f
theorem wsetScl (f : FmtW) : Statement (.wsetScl f) :=
  roundFnW (op := 0xA0) (n := 2) (by decide) (fun w h g => by unfold decodeRonid; rw [h, g]; rfl)
    (fun f h => by simp only [Instr.wf, Bool.and_eq_true, beq_iff_eq] at h; simp_all only [BitVec.ofNat_eq_ofNat]) (fun _ => rfl) (fun _ => rfl) f
theorem wsetSreg (f : FmtW) : Statement (.wsetSreg f) :=
  roundFnW (op := 0xA0) (n := 3) (by decide) (fun w h g => by unfold decodeRonid; rw [h, g]; rfl)
    (fun f h => by simp only [Instr.wf, Bool.and_eq_true, beq_iff_eq] at h; simp_all only [BitVec.ofNat_eq_ofNat]) (fun _ => rfl) (fun _ => rfl) f
theorem wopen (f : FmtW) : Statement (.wopen f) :=
  roundW (op := 0xA1) (by decide) (fun w h => by unfold decodeRonid; rw [h]; rfl) (fun _ => rfl) (fun _ => rfl) f
theorem wretire (f : FmtW) : Statement (.wretire f) :=
  roundW (op := 0xA2) (by decide) (fun w h => by unfold decodeRonid; rw [h]; rfl) (fun _ => rfl) (fun _ => rfl) f
theorem wbind (f : FmtW) : Statement (.wbind f) :=
  roundW (op := 0xA3) (by decide) (fun w h => by unfold decodeRonid; rw [h]; rfl) (fun _ => rfl) (fun _ => rfl) f
theorem wunbind (f : FmtW) : Statement (.wunbind f) :=
  roundW (op := 0xA4) (by decide) (fun w h => by unfold decodeRonid; rw [h]; rfl) (fun _ => rfl) (fun _ => rfl) f
theorem weos (f : FmtW) : Statement (.weos f) :=
  roundW (op := 0xA5) (by decide) (fun w h => by unfold decodeRonid; rw [h]; rfl) (fun _ => rfl) (fun _ => rfl) f
theorem wsub (f : FmtW) : Statement (.wsub f) :=
  roundW (op := 0xA6) (by decide) (fun w h => by unfold decodeRonid; rw [h]; rfl) (fun _ => rfl) (fun _ => rfl) f
theorem wtest (f : FmtW) : Statement (.wtest f) :=
  roundW (op := 0xA7) (by decide) (fun w h => by unfold decodeRonid; rw [h]; rfl) (fun _ => rfl) (fun _ => rfl) f
theorem cpy (f : FmtE) : Statement (.cpy f) :=
  roundE (op := 0xB0) (by decide) (fun w h => by unfold decodeRonid; rw [h]; rfl) (fun _ => rfl) (fun _ => rfl) f
theorem cpys (f : FmtE) : Statement (.cpys f) :=
  roundE (op := 0xB1) (by decide) (fun w h => by unfold decodeRonid; rw [h]; rfl) (fun _ => rfl) (fun _ => rfl) f
theorem coll (f : FmtE) : Statement (.coll f) :=
  roundE (op := 0xB2) (by decide) (fun w h => by unfold decodeRonid; rw [h]; rfl) (fun _ => rfl) (fun _ => rfl) f
theorem twany (f : FmtI) : Statement (.twany f) :=
  roundI (op := 0xB3) (by decide) (fun w h => by unfold decodeRonid; rw [h]; rfl) (fun _ => rfl) (fun _ => rfl) f
theorem twall (f : FmtI) : Statement (.twall f) :=
  roundI (op := 0xB4) (by decide) (fun w h => by unfold decodeRonid; rw [h]; rfl) (fun _ => rfl) (fun _ => rfl) f
theorem tfirst (f : FmtI) : Statement (.tfirst f) :=
  roundI (op := 0xB5) (by decide) (fun w h => by unfold decodeRonid; rw [h]; rfl) (fun _ => rfl) (fun _ => rfl) f
theorem tclr (f : FmtI) : Statement (.tclr f) :=
  roundI (op := 0xB6) (by decide) (fun w h => by unfold decodeRonid; rw [h]; rfl) (fun _ => rfl) (fun _ => rfl) f
theorem cfill (f : FmtE) : Statement (.cfill f) :=
  roundE (op := 0xB7) (by decide) (fun w h => by unfold decodeRonid; rw [h]; rfl) (fun _ => rfl) (fun _ => rfl) f
theorem fork (f : FmtB) : Statement (.fork f) :=
  roundB (op := 0xC0) (by decide) (fun w h => by unfold decodeRonid; rw [h]; rfl) (fun _ => rfl) (fun _ => rfl) f
theorem forkc (f : FmtB) : Statement (.forkc f) :=
  roundB (op := 0xC1) (by decide) (fun w h => by unfold decodeRonid; rw [h]; rfl) (fun _ => rfl) (fun _ => rfl) f
theorem forkg (f : FmtB) : Statement (.forkg f) :=
  roundB (op := 0xC2) (by decide) (fun w h => by unfold decodeRonid; rw [h]; rfl) (fun _ => rfl) (fun _ => rfl) f
theorem join (f : FmtB) : Statement (.join f) :=
  roundB (op := 0xC3) (by decide) (fun w h => by unfold decodeRonid; rw [h]; rfl) (fun _ => rfl) (fun _ => rfl) f
theorem send (f : FmtA) : Statement (.send f) :=
  roundA (op := 0xC4) (by decide) (fun w h => by unfold decodeRonid; rw [h]; rfl) (fun _ => rfl) (fun _ => rfl) f
theorem spawn (f : FmtB) : Statement (.spawn f) :=
  roundB (op := 0xC5) (by decide) (fun w h => by unfold decodeRonid; rw [h]; rfl) (fun _ => rfl) (fun _ => rfl) f
theorem qinfo (f : FmtA) : Statement (.qinfo f) :=
  roundA (op := 0xC6) (by decide) (fun w h => by unfold decodeRonid; rw [h]; rfl) (fun _ => rfl) (fun _ => rfl) f
theorem trap (f : FmtS) : Statement (.trap f) :=
  roundS (op := 0xD0) (by decide) (fun w h => by unfold decodeRonid; rw [h]; rfl) (fun _ => rfl) (fun _ => rfl) f
theorem ctrlr (f : FmtS) : Statement (.ctrlr f) :=
  roundSel (op := 0xD1) (p := fun n => ¬ (n = 5 ∨ n = 6)) (by decide)
    (fun w h g => by unfold decodeRonid; rw [h]; exact if_neg g)
    (fun f h => notVxf f.sel (by simp only [Instr.wf, Bool.and_eq_true] at h; simp_all)) (fun _ => rfl) (fun _ => rfl) f
theorem ctrlw (f : FmtS) : Statement (.ctrlw f) :=
  roundSel (op := 0xD2) (p := fun n => ¬ (n = 5 ∨ n = 6) ∧ n ≠ 9) (by decide)
    (fun w h g => by unfold decodeRonid; rw [h]; exact (if_neg g.1).trans (if_neg g.2))
    (fun f h => notQuota f.sel (by simp only [Instr.wf, Bool.and_eq_true] at h; simp_all) (by simp only [Instr.wf, Bool.and_eq_true] at h; simp_all)) (fun _ => rfl) (fun _ => rfl) f
theorem vxfAccess (write : Bool) (f : FmtS) : Statement (.vxfAccess write f) := by
  cases write
  · exact roundSel (op := 0xD1) (p := fun n => n = 5 ∨ n = 6) (by decide)
      (fun w h g => by unfold decodeRonid; rw [h]; exact if_pos g)
      (fun f h => isVxf f.sel (by simp only [Instr.wf, Bool.and_eq_true] at h; simp_all)) (fun _ => rfl) (fun _ => rfl) f
  · exact roundSel (op := 0xD2) (p := fun n => n = 5 ∨ n = 6) (by decide)
      (fun w h g => by unfold decodeRonid; rw [h]; exact if_pos g)
      (fun f h => isVxf f.sel (by simp only [Instr.wf, Bool.and_eq_true] at h; simp_all)) (fun _ => rfl) (fun _ => rfl) f
theorem quotaWrite (f : FmtS) : Statement (.quotaWrite f) :=
  roundSel (op := 0xD2) (p := fun n => n = 9) (by decide)
    (fun w h g => by unfold decodeRonid; rw [h, g]; rfl)
    (fun f h => by simp only [Instr.wf, Bool.and_eq_true, beq_iff_eq] at h; rw [h.2]; rfl) (fun _ => rfl) (fun _ => rfl) f
theorem tretTake (f : FmtS) : Statement (.tretTake f) :=
  roundFnS (op := 0xD3) (n := 0) (by decide) (fun w h g => by unfold decodeRonid; rw [h, g]; rfl)
    (fun f h => by simp only [Instr.wf, FmtS.row, Bool.and_eq_true, beq_iff_eq] at h; simp_all only [BitVec.ofNat_eq_ofNat]) (fun _ => rfl) (fun _ => rfl) f
theorem tretDefer (f : FmtS) : Statement (.tretDefer f) :=
  roundFnS (op := 0xD3) (n := 1) (by decide) (fun w h g => by unfold decodeRonid; rw [h, g]; rfl)
    (fun f h => by simp only [Instr.wf, FmtS.row, Bool.and_eq_true, beq_iff_eq] at h; simp_all only [BitVec.ofNat_eq_ofNat]) (fun _ => rfl) (fun _ => rfl) f
theorem tretTerm (f : FmtS) : Statement (.tretTerm f) :=
  roundFnS (op := 0xD3) (n := 2) (by decide) (fun w h g => by unfold decodeRonid; rw [h, g]; rfl)
    (fun f h => by simp only [Instr.wf, FmtS.row, Bool.and_eq_true, beq_iff_eq] at h; simp_all only [BitVec.ofNat_eq_ofNat]) (fun _ => rfl) (fun _ => rfl) f
theorem tretRelease (f : FmtS) : Statement (.tretRelease f) :=
  roundFnS (op := 0xD3) (n := 3) (by decide) (fun w h g => by unfold decodeRonid; rw [h, g]; rfl)
    (fun f h => by simp only [Instr.wf, FmtS.row, Bool.and_eq_true, beq_iff_eq] at h; simp_all only [BitVec.ofNat_eq_ofNat]) (fun _ => rfl) (fun _ => rfl) f
theorem tlbw (f : FmtS) : Statement (.tlbw f) :=
  roundS (op := 0xD4) (by decide) (fun w h => by unfold decodeRonid; rw [h]; rfl) (fun _ => rfl) (fun _ => rfl) f
theorem tlbiPage (f : FmtS) : Statement (.tlbiPage f) :=
  roundFnS (op := 0xD5) (n := 0) (by decide) (fun w h g => by unfold decodeRonid; rw [h, g]; rfl)
    (fun f h => by simp only [Instr.wf, FmtS.row, Bool.and_eq_true, beq_iff_eq] at h; simp_all only [BitVec.ofNat_eq_ofNat]) (fun _ => rfl) (fun _ => rfl) f
theorem tlbiAsid (f : FmtS) : Statement (.tlbiAsid f) :=
  roundFnS (op := 0xD5) (n := 1) (by decide) (fun w h g => by unfold decodeRonid; rw [h, g]; rfl)
    (fun f h => by simp only [Instr.wf, FmtS.row, Bool.and_eq_true, beq_iff_eq] at h; simp_all only [BitVec.ofNat_eq_ofNat]) (fun _ => rfl) (fun _ => rfl) f
theorem tlbiAll (f : FmtS) : Statement (.tlbiAll f) :=
  roundFnS (op := 0xD5) (n := 2) (by decide) (fun w h g => by unfold decodeRonid; rw [h, g]; rfl)
    (fun f h => by simp only [Instr.wf, FmtS.row, Bool.and_eq_true, beq_iff_eq] at h; simp_all only [BitVec.ofNat_eq_ofNat]) (fun _ => rfl) (fun _ => rfl) f
theorem mbind (f : FmtS) : Statement (.mbind f) :=
  roundFnS (op := 0xD6) (n := 0) (by decide) (fun w h g => by unfold decodeRonid; rw [h, g]; rfl)
    (fun f h => by simp only [Instr.wf, FmtS.row, Bool.and_eq_true, beq_iff_eq] at h; simp_all only [BitVec.ofNat_eq_ofNat]) (fun _ => rfl) (fun _ => rfl) f
theorem mbindUn (f : FmtS) : Statement (.mbindUn f) :=
  roundFnS (op := 0xD6) (n := 1) (by decide) (fun w h g => by unfold decodeRonid; rw [h, g]; rfl)
    (fun f h => by simp only [Instr.wf, FmtS.row, Bool.and_eq_true, beq_iff_eq] at h; simp_all only [BitVec.ofNat_eq_ofNat]) (fun _ => rfl) (fun _ => rfl) f
theorem qsave (f : FmtS) : Statement (.qsave f) :=
  roundS (op := 0xD7) (by decide) (fun w h => by unfold decodeRonid; rw [h]; rfl) (fun _ => rfl) (fun _ => rfl) f
theorem qrest (f : FmtS) : Statement (.qrest f) :=
  roundS (op := 0xD8) (by decide) (fun w h => by unfold decodeRonid; rw [h]; rfl) (fun _ => rfl) (fun _ => rfl) f
theorem reprwGet (f : FmtS) : Statement (.reprwGet f) :=
  roundFnS (op := 0xD9) (n := 0) (by decide) (fun w h g => by unfold decodeRonid; rw [h, g]; rfl)
    (fun f h => by simp only [Instr.wf, FmtS.row, Bool.and_eq_true, beq_iff_eq] at h; simp_all only [BitVec.ofNat_eq_ofNat]) (fun _ => rfl) (fun _ => rfl) f
theorem reprwAdd (f : FmtS) : Statement (.reprwAdd f) :=
  roundFnS (op := 0xD9) (n := 1) (by decide) (fun w h g => by unfold decodeRonid; rw [h, g]; rfl)
    (fun f h => by simp only [Instr.wf, FmtS.row, Bool.and_eq_true, beq_iff_eq] at h; simp_all only [BitVec.ofNat_eq_ofNat]) (fun _ => rfl) (fun _ => rfl) f
theorem reprwApply (f : FmtS) : Statement (.reprwApply f) :=
  roundFnS (op := 0xD9) (n := 2) (by decide) (fun w h g => by unfold decodeRonid; rw [h, g]; rfl)
    (fun f h => by simp only [Instr.wf, FmtS.row, Bool.and_eq_true, beq_iff_eq] at h; simp_all only [BitVec.ofNat_eq_ofNat]) (fun _ => rfl) (fun _ => rfl) f
theorem reprwClr (f : FmtS) : Statement (.reprwClr f) :=
  roundFnS (op := 0xD9) (n := 3) (by decide) (fun w h g => by unfold decodeRonid; rw [h, g]; rfl)
    (fun f h => by simp only [Instr.wf, FmtS.row, Bool.and_eq_true, beq_iff_eq] at h; simp_all only [BitVec.ofNat_eq_ofNat]) (fun _ => rfl) (fun _ => rfl) f
theorem reprwSum (f : FmtS) : Statement (.reprwSum f) :=
  roundFnS (op := 0xD9) (n := 4) (by decide) (fun w h g => by unfold decodeRonid; rw [h, g]; rfl)
    (fun f h => by simp only [Instr.wf, FmtS.row, Bool.and_eq_true, beq_iff_eq] at h; simp_all only [BitVec.ofNat_eq_ofNat]) (fun _ => rfl) (fun _ => rfl) f
theorem halt (f : FmtS) : Statement (.halt f) :=
  roundS (op := 0xDA) (by decide) (fun w h => by unfold decodeRonid; rw [h]; rfl) (fun _ => rfl) (fun _ => rfl) f
theorem cinvI (f : FmtS) : Statement (.cinvI f) :=
  roundFnS (op := 0xDB) (n := 0) (by decide) (fun w h g => by unfold decodeRonid; rw [h, g]; rfl)
    (fun f h => by simp only [Instr.wf, FmtS.row, Bool.and_eq_true, beq_iff_eq] at h; simp_all only [BitVec.ofNat_eq_ofNat]) (fun _ => rfl) (fun _ => rfl) f
theorem cinvD (f : FmtS) : Statement (.cinvD f) :=
  roundFnS (op := 0xDB) (n := 1) (by decide) (fun w h g => by unfold decodeRonid; rw [h, g]; rfl)
    (fun f h => by simp only [Instr.wf, FmtS.row, Bool.and_eq_true, beq_iff_eq] at h; simp_all only [BitVec.ofNat_eq_ofNat]) (fun _ => rfl) (fun _ => rfl) f
theorem msHalt (f : FmtMs) : Statement (.msHalt f) :=
  roundMs (op := 0x00) (by decide) (fun w h => by unfold decodeMilestone; rw [h]; rfl) (fun _ => rfl) (fun _ => rfl) f
theorem msLdi (f : FmtMs) : Statement (.msLdi f) :=
  roundMs (op := 0x01) (by decide) (fun w h => by unfold decodeMilestone; rw [h]; rfl) (fun _ => rfl) (fun _ => rfl) f
theorem msLdh (f : FmtMs) : Statement (.msLdh f) :=
  roundMs (op := 0x02) (by decide) (fun w h => by unfold decodeMilestone; rw [h]; rfl) (fun _ => rfl) (fun _ => rfl) f
theorem msMov (f : FmtMs) : Statement (.msMov f) :=
  roundMs (op := 0x03) (by decide) (fun w h => by unfold decodeMilestone; rw [h]; rfl) (fun _ => rfl) (fun _ => rfl) f
theorem msAdd (f : FmtMs) : Statement (.msAdd f) :=
  roundMs (op := 0x04) (by decide) (fun w h => by unfold decodeMilestone; rw [h]; rfl) (fun _ => rfl) (fun _ => rfl) f
theorem msAddi (f : FmtMs) : Statement (.msAddi f) :=
  roundMs (op := 0x05) (by decide) (fun w h => by unfold decodeMilestone; rw [h]; rfl) (fun _ => rfl) (fun _ => rfl) f
theorem msSub (f : FmtMs) : Statement (.msSub f) :=
  roundMs (op := 0x06) (by decide) (fun w h => by unfold decodeMilestone; rw [h]; rfl) (fun _ => rfl) (fun _ => rfl) f
theorem msAnd (f : FmtMs) : Statement (.msAnd f) :=
  roundMs (op := 0x07) (by decide) (fun w h => by unfold decodeMilestone; rw [h]; rfl) (fun _ => rfl) (fun _ => rfl) f
theorem msOr (f : FmtMs) : Statement (.msOr f) :=
  roundMs (op := 0x08) (by decide) (fun w h => by unfold decodeMilestone; rw [h]; rfl) (fun _ => rfl) (fun _ => rfl) f
theorem msXor (f : FmtMs) : Statement (.msXor f) :=
  roundMs (op := 0x09) (by decide) (fun w h => by unfold decodeMilestone; rw [h]; rfl) (fun _ => rfl) (fun _ => rfl) f
theorem msShl (f : FmtMs) : Statement (.msShl f) :=
  roundMs (op := 0x0A) (by decide) (fun w h => by unfold decodeMilestone; rw [h]; rfl) (fun _ => rfl) (fun _ => rfl) f
theorem msShr (f : FmtMs) : Statement (.msShr f) :=
  roundMs (op := 0x0B) (by decide) (fun w h => by unfold decodeMilestone; rw [h]; rfl) (fun _ => rfl) (fun _ => rfl) f
theorem msInb (f : FmtMs) : Statement (.msInb f) :=
  roundMs (op := 0x0C) (by decide) (fun w h => by unfold decodeMilestone; rw [h]; rfl) (fun _ => rfl) (fun _ => rfl) f
theorem msInw (f : FmtMs) : Statement (.msInw f) :=
  roundMs (op := 0x0D) (by decide) (fun w h => by unfold decodeMilestone; rw [h]; rfl) (fun _ => rfl) (fun _ => rfl) f
theorem msLds (f : FmtMs) : Statement (.msLds f) :=
  roundMs (op := 0x0E) (by decide) (fun w h => by unfold decodeMilestone; rw [h]; rfl) (fun _ => rfl) (fun _ => rfl) f
theorem msSts (f : FmtMs) : Statement (.msSts f) :=
  roundMs (op := 0x0F) (by decide) (fun w h => by unfold decodeMilestone; rw [h]; rfl) (fun _ => rfl) (fun _ => rfl) f
theorem msBeq (f : FmtMs) : Statement (.msBeq f) :=
  roundMs (op := 0x10) (by decide) (fun w h => by unfold decodeMilestone; rw [h]; rfl) (fun _ => rfl) (fun _ => rfl) f
theorem msBne (f : FmtMs) : Statement (.msBne f) :=
  roundMs (op := 0x11) (by decide) (fun w h => by unfold decodeMilestone; rw [h]; rfl) (fun _ => rfl) (fun _ => rfl) f
theorem msBlt (f : FmtMs) : Statement (.msBlt f) :=
  roundMs (op := 0x12) (by decide) (fun w h => by unfold decodeMilestone; rw [h]; rfl) (fun _ => rfl) (fun _ => rfl) f
theorem msJmp (f : FmtMs) : Statement (.msJmp f) :=
  roundMs (op := 0x13) (by decide) (fun w h => by unfold decodeMilestone; rw [h]; rfl) (fun _ => rfl) (fun _ => rfl) f
theorem msWay (f : FmtMs) : Statement (.msWay f) :=
  roundMs (op := 0x14) (by decide) (fun w h => by unfold decodeMilestone; rw [h]; rfl) (fun _ => rfl) (fun _ => rfl) f
theorem msEmit (f : FmtMs) : Statement (.msEmit f) :=
  roundMs (op := 0x15) (by decide) (fun w h => by unfold decodeMilestone; rw [h]; rfl) (fun _ => rfl) (fun _ => rfl) f
theorem budgetExhausted (k : Nat) : Statement (.budgetExhausted k) := fun _ => ⟨nofun, nofun⟩
theorem loadRequest (part : Nat) (object : List Byte) (base : Word) :
    Statement (.loadRequest part object base) := fun _ => ⟨nofun, nofun⟩
theorem cairnWaitResolve (part load : Nat) : Statement (.cairnWaitResolve part load) := fun _ => ⟨nofun, nofun⟩
theorem pageHashCheck (part : Nat) (obj : Word) (page : Nat) :
    Statement (.pageHashCheck part obj page) := fun _ => ⟨nofun, nofun⟩
theorem revocationNotice (core : Nat) (obj : Word) : Statement (.revocationNotice core obj) := fun _ => ⟨nofun, nofun⟩
theorem hostWindowRead (part qp : Nat) (va : Word) (len : Nat) :
    Statement (.hostWindowRead part qp va len) := fun _ => ⟨nofun, nofun⟩
theorem hostWindowWrite (part qp : Nat) (va : Word) (bytes : List Byte) :
    Statement (.hostWindowWrite part qp va bytes) := fun _ => ⟨nofun, nofun⟩
theorem mailboxSlotWrite (part qp mbx off : Nat) (bytes : List Byte) :
    Statement (.mailboxSlotWrite part qp mbx off bytes) := fun _ => ⟨nofun, nofun⟩
theorem mailboxSlotRead (part qp mbx off len : Nat) :
    Statement (.mailboxSlotRead part qp mbx off len) := fun _ => ⟨nofun, nofun⟩
theorem doorbellWrite (part qp mbx off : Nat) (bytes : List Byte) :
    Statement (.doorbellWrite part qp mbx off bytes) := fun _ => ⟨nofun, nofun⟩
theorem mailboxFault (part mbx : Nat) : Statement (.mailboxFault part mbx) := fun _ => ⟨nofun, nofun⟩
theorem heldSlotPush (part : Nat) : Statement (.heldSlotPush part) := fun _ => ⟨nofun, nofun⟩
theorem taskStart (core slot : Nat) : Statement (.taskStart core slot) := fun _ => ⟨nofun, nofun⟩
theorem gangPlace (cluster : Nat) : Statement (.gangPlace cluster) := fun _ => ⟨nofun, nofun⟩
theorem taskReplay (core slot : Nat) : Statement (.taskReplay core slot) := fun _ => ⟨nofun, nofun⟩
theorem longLatencyComplete (h : HartId) : Statement (.longLatencyComplete h) := fun _ => ⟨nofun, nofun⟩
theorem guardResolve (h : HartId) : Statement (.guardResolve h) := fun _ => ⟨nofun, nofun⟩
theorem storeDrain (h : HartId) : Statement (.storeDrain h) := fun _ => ⟨nofun, nofun⟩
theorem watchdogExpire (core slot : Nat) : Statement (.watchdogExpire core slot) := fun _ => ⟨nofun, nofun⟩
theorem missQueueAdmit (cluster : Nat) : Statement (.missQueueAdmit cluster) := fun _ => ⟨nofun, nofun⟩
theorem counterDecrementPerform (part : Nat) : Statement (.counterDecrementPerform part) := fun _ => ⟨nofun, nofun⟩
theorem launchCompletionRetry (part launch : Nat) : Statement (.launchCompletionRetry part launch) := fun _ => ⟨nofun, nofun⟩
theorem matrixSliceStart (core : Nat) : Statement (.matrixSliceStart core) := fun _ => ⟨nofun, nofun⟩
theorem tileClaimGrant (core : Nat) : Statement (.tileClaimGrant core) := fun _ => ⟨nofun, nofun⟩
theorem gangwaitExpire (gang : Nat) : Statement (.gangwaitExpire gang) := fun _ => ⟨nofun, nofun⟩
theorem commandKick (site : Site) : Statement (.commandKick site) := fun _ => ⟨nofun, nofun⟩
theorem granuleComplete (site : Site) (i : Nat) : Statement (.granuleComplete site i) := fun _ => ⟨nofun, nofun⟩
theorem completionMessageRetry (site : Site) (i : Nat) : Statement (.completionMessageRetry site i) := fun _ => ⟨nofun, nofun⟩
theorem streamFill (h : HartId) (r : Nat) : Statement (.streamFill h r) := fun _ => ⟨nofun, nofun⟩
theorem streamDrain (h : HartId) (r : Nat) : Statement (.streamDrain h r) := fun _ => ⟨nofun, nofun⟩
theorem retentionEnter (bank : Bank) : Statement (.retentionEnter bank) := fun _ => ⟨nofun, nofun⟩
theorem retentionEntryDone (bank : Bank) : Statement (.retentionEntryDone bank) := fun _ => ⟨nofun, nofun⟩
theorem retentionExitDone (bank : Bank) (corrected : List (Nat × Nat × Bool)) (bad : List Nat) :
    Statement (.retentionExitDone bank corrected bad) := fun _ => ⟨nofun, nofun⟩
theorem histogramFlush (die : Nat) : Statement (.histogramFlush die) := fun _ => ⟨nofun, nofun⟩
theorem timeSliceEnd (part : Nat) : Statement (.timeSliceEnd part) := fun _ => ⟨nofun, nofun⟩
theorem serviceMessageArrival (die core : Nat) (msg : List Byte) :
    Statement (.serviceMessageArrival die core msg) := fun _ => ⟨nofun, nofun⟩
theorem retirementRequest (stack : BitVec 4) : Statement (.retirementRequest stack) := fun _ => ⟨nofun, nofun⟩
theorem retirementCancel (stack : BitVec 4) : Statement (.retirementCancel stack) := fun _ => ⟨nofun, nofun⟩
theorem sweepStart : Statement (.sweepStart) := fun _ => ⟨nofun, nofun⟩
theorem retirementCommit : Statement (.retirementCommit) := fun _ => ⟨nofun, nofun⟩
theorem sweepPause : Statement (.sweepPause) := fun _ => ⟨nofun, nofun⟩
theorem sweepResume : Statement (.sweepResume) := fun _ => ⟨nofun, nofun⟩
theorem sweepLineCopy : Statement (.sweepLineCopy) := fun _ => ⟨nofun, nofun⟩
theorem sweepUnitComplete : Statement (.sweepUnitComplete) := fun _ => ⟨nofun, nofun⟩
theorem requestReplay : Statement (.requestReplay) := fun _ => ⟨nofun, nofun⟩
theorem packageReset : Statement (.packageReset) := fun _ => ⟨nofun, nofun⟩
theorem bootStageHandoff (primary secondary : Option (List Byte)) :
    Statement (.bootStageHandoff primary secondary) := fun _ => ⟨nofun, nofun⟩
theorem marchTestComplete (die : Nat) (rows : List (BitVec 32)) (unusable : List Nat) :
    Statement (.marchTestComplete die rows unusable) := fun _ => ⟨nofun, nofun⟩
theorem fullServiceSwitch : Statement (.fullServiceSwitch) := fun _ => ⟨nofun, nofun⟩
theorem clockStepDown (milliwatts deciCelsius : Nat) :
    Statement (.clockStepDown milliwatts deciCelsius) := fun _ => ⟨nofun, nofun⟩
theorem clockStepUp (clearMicroseconds : Nat) : Statement (.clockStepUp clearMicroseconds) := fun _ => ⟨nofun, nofun⟩
theorem partitionCreate (record : List Byte) (clusters : PartitionPlan) :
    Statement (.partitionCreate record clusters) := fun _ => ⟨nofun, nofun⟩
theorem partitionDestroy (part : Nat) : Statement (.partitionDestroy part) := fun _ => ⟨nofun, nofun⟩
theorem keySlotFree (slot : Nat) : Statement (.keySlotFree slot) := fun _ => ⟨nofun, nofun⟩
theorem firmwareStage (image : List Byte) : Statement (.firmwareStage image) := fun _ => ⟨nofun, nofun⟩
theorem svnRaise (stage value : Nat) : Statement (.svnRaise stage value) := fun _ => ⟨nofun, nofun⟩
theorem updateRequest : Statement (.updateRequest) := fun _ => ⟨nofun, nofun⟩
theorem heartbeat : Statement (.heartbeat) := fun _ => ⟨nofun, nofun⟩
theorem heartbeatTimeout : Statement (.heartbeatTimeout) := fun _ => ⟨nofun, nofun⟩
theorem getVersion (ep : Nat) : Statement (.getVersion ep) := fun _ => ⟨nofun, nofun⟩
theorem getCapabilities (ep : Nat) : Statement (.getCapabilities ep) := fun _ => ⟨nofun, nofun⟩
theorem negotiateAlgorithms (ep : Nat) (choice : SpdmAlgorithms) :
    Statement (.negotiateAlgorithms ep choice) := fun _ => ⟨nofun, nofun⟩
theorem getDigests (ep : Nat) : Statement (.getDigests ep) := fun _ => ⟨nofun, nofun⟩
theorem getCertificate (ep : Nat) : Statement (.getCertificate ep) := fun _ => ⟨nofun, nofun⟩
theorem challenge (ep : Nat) (nonce : List Byte) : Statement (.challenge ep nonce) := fun _ => ⟨nofun, nofun⟩
theorem getMeasurements (ep index : Nat) (nonce : List Byte) :
    Statement (.getMeasurements ep index nonce) := fun _ => ⟨nofun, nofun⟩
theorem keyExchange (ep : Nat) (exchange : List Byte) : Statement (.keyExchange ep exchange) := fun _ => ⟨nofun, nofun⟩
theorem finish (ep : Nat) (mac : List Byte) : Statement (.finish ep mac) := fun _ => ⟨nofun, nofun⟩
theorem endSession (ep : Nat) : Statement (.endSession ep) := fun _ => ⟨nofun, nofun⟩
theorem keyStoreSet (ep index : Nat) (p384 hss : List Byte) :
    Statement (.keyStoreSet ep index p384 hss) := fun _ => ⟨nofun, nofun⟩
theorem keyStoreDisable (ep index : Nat) : Statement (.keyStoreDisable ep index) := fun _ => ⟨nofun, nofun⟩
theorem keyStoreStatus (ep : Nat) : Statement (.keyStoreStatus ep) := fun _ => ⟨nofun, nofun⟩
theorem portTransmit (queue : Nat) (out : PortOutcome) : Statement (.portTransmit queue out) := fun _ => ⟨nofun, nofun⟩
theorem portReceive (queue : Nat) (out : PortOutcome) : Statement (.portReceive queue out) := fun _ => ⟨nofun, nofun⟩
theorem portReadBlock (queue : Nat) (out : PortOutcome) : Statement (.portReadBlock queue out) := fun _ => ⟨nofun, nofun⟩
theorem portWriteBlock (queue : Nat) (out : PortOutcome) : Statement (.portWriteBlock queue out) := fun _ => ⟨nofun, nofun⟩
theorem portFlush (queue : Nat) (out : PortOutcome) : Statement (.portFlush queue out) := fun _ => ⟨nofun, nofun⟩
theorem turnpikeArrival (packet : Packet) : Statement (.turnpikeArrival packet) := fun _ => ⟨nofun, nofun⟩
theorem instructionCacheFill (h : HartId) : Statement (.instructionCacheFill h) := fun _ => ⟨nofun, nofun⟩
theorem tscFirmwareStart (h : HartId) (entry : FirmwareImage) (system : Bool) :
    Statement (.tscFirmwareStart h entry system) := fun _ => ⟨nofun, nofun⟩
theorem imageUnload (part : Nat) (obj : Word) : Statement (.imageUnload part obj) := fun _ => ⟨nofun, nofun⟩
theorem orderlyShutdown : Statement (.orderlyShutdown) := fun _ => ⟨nofun, nofun⟩

end Sys2Proof.Laws.RoundTrip
end

