-- ==== Sys2Proof/Tests/Slice0.lean ====
section
/-! SUPPORT. Tests of the definitions, with results worked by hand from the manual, and for every statement with hypotheses
a state and operands that meet them. -/

namespace Sys2Proof.Tests

open Sys2Proof Sys2Proof.Machine

set_option Elab.async false

/-! ### Words with every field 0 -/

def wA : FmtA :=
  { la := 0, nf := false, gd := 0, order := 0, scope := 0, sat := false, rnd := 0, ty := 0, fn := 0, c := 0, b := 0, a := 0, d := 0 }
def wI : FmtI := { la := 0, nf := false, gd := 0, imm := 0, b := 0, a := 0, d := 0 }
def wM : FmtM :=
  { la := 0, nf := false, gd := 0, order := 0, scope := 0, size := 0, offs := 0, ty := 0, c := 0, b := 0, a := 0, d := 0 }
def wB : FmtB := { la := 0, nf := false, gd := 0, offs := 0, fn := 0, c := 0, b := 0, a := 0, d := 0 }
def wT : FmtT :=
  { la := 0, nf := false, gd := 0, wrap := false, rnd := 0, sat := false, ty := 0, coff := 0, fn := 0, c := 0, b := 0, a := 0
    d := 0 }
def wW : FmtW :=
  { la := 0, nf := false, gd := 0, b8 := 0, mode := 0, space := 0, imm := 0, ty := 0, fn := 0, c := 0, b := 0, a := 0, d := 0 }
def wE : FmtE := { la := 0, nf := false, gd := 0, tag := 0, split := 0, mbx := false, scope := 0, fn := 0, c := 0, b := 0, a := 0, d := 0 }
def wS : FmtS := { la := 0, nf := false, gd := 0, sel := 0, fn := 0, c := 0, b := 0, a := 0, d := 0 }
def wMs : FmtMs := { imm := 0, b := 0, a := 0, d := 0 }

/-! ### What WellFormed refuses (R20, R25 to R32, R51, R71), one ill-formed term for each check -/

theorem test_refuses_attributes :
    [Instr.add { wA with la := 1 }, .add { wA with nf := true }, .vadd { wA with ty := 9, rnd := 5 }, .and { wA with sat := true },
     .and { wA with rnd := 1 }, .tzero { wT with la := 1 }, .tcfg { wT with nf := true }, .tzero { wT with sat := true },
     .cread { wT with ty := 9, rnd := 6 }].all (fun i => !i.wf) = true := by decide

theorem test_refuses_format_a :
    [Instr.add { wA with order := 1 }, .add { wA with scope := 1 }, .add { wA with fn := 1 }, .add { wA with c := 1 },
     .add { wA with ty := 8 }, .shr { wA with ty := 3 }, .sra { wA with ty := 7 }, .clz { wA with b := 1 },
     .cset { wA with fn := 6, ty := 3 }, .cset { wA with fn := 8, ty := 9 }, .gset { wA with d := 0 }, .gset { wA with d := 8 },
     .csel { wA with ty := 1 }, .bext { wA with fn := 2 }, .bins { wA with fn := 1 }, .jr { wA with d := 1 }, .callr { wA with b := 1 },
     .gclr { wA with d := 1, fn := 3 }, .rgn { wA with a := 1 }, .taskEnd { wA with ty := 1 }, .nop { wA with d := 1 },
     .fence wA, .fence { wA with order := 1, scope := 6 }, .send { wA with c := 1 }, .qinfo { wA with fn := 11 }].all
      (fun i => !i.wf) = true := by decide

theorem test_refuses_vectors :
    [Instr.vadd { wA with ty := 12 }, .vadd { wA with c := 8 }, .vadd { wA with ty := 2, rnd := 1 }, .vfma { wA with ty := 2 },
     .vabs { wA with ty := 4 }, .vabs { wA with b := 1 }, .vand { wA with ty := 1 }, .vshl { wA with ty := 8 }, .vshr wA,
     .vsra { wA with ty := 4 }, .vcmp { wA with ty := 1 }, .vcmp { wA with ty := 9, d := 8 }, .vmov { wA with b := 1 },
     .vclass { wA with ty := 3 }, .vperm2 wA, .vbcast { wA with b := 1 }, .vext { wA with c := 1 }, .kop { wA with fn := 9 },
     .kop { wA with d := 8 }, .kop { wA with a := 8 }, .kop { wA with fn := 4, b := 1 }, .vcvt wA, .vcvt { wA with ty := 14 },
     .vcvt { wA with ty := 15 }, .vcvt { wA with ty := 8, fn := 9, c := 1 }, .vred { wA with ty := 9, fn := 3 },
     .vred { wA with ty := 2, fn := 6 }, .vscan { wA with ty := 1 }, .vdot { wA with ty := 2 }, .vrcp { wA with ty := 8 },
     .vsqrt { wA with ty := 3 }, .vdiv { wA with ty := 12 }].all (fun i => !i.wf) = true := by decide

theorem test_refuses_immediates :
    [Instr.addi { wI with la := 1 }, .addi { wI with nf := true }, .addi { wI with b := 16 }, .addi { wI with b := 8 },
     .shli { wI with b := 0, imm := 8 }, .shri { wI with b := 3 }, .srai { wI with b := 7 }, .li { wI with a := 1 },
     .rep { wI with imm := 512 }, .rep { wI with d := 1 }, .brk { wI with imm := 65536 }, .twany { wI with b := 2 },
     .twall { wI with d := 1 }].all (fun i => !i.wf) = true := by decide

theorem test_refuses_memory :
    [Instr.ld { wM with order := 2 }, .ld { wM with scope := 6 }, .ld { wM with size := 1 }, .ld { wM with ty := 12 },
     .ld { wM with c := 1 }, .ld { wM with b := 1 }, .st { wM with la := 1 }, .st { wM with order := 1 }, .st { wM with d := 1 },
     .wld { wM with a := 16 }, .wst { wM with ty := 15 }, .pf { wM with ty := 3 }, .pf { wM with scope := 1 }, .cln { wM with ty := 2 },
     .bld wM, .bld { wM with scope := 6 }, .bst { wM with scope := 2, order := 2 }, .amo wM, .amo { wM with ty := 3, size := 3, c := 9 },
     .cas { wM with ty := 2, size := 3 }, .cas2 { wM with ty := 7, size := 4, d := 1 }, .cas2 { wM with ty := 3, size := 4 },
     .barr { wM with size := 4 }, .wfv { wM with ty := 3, size := 3, c := 6 }, .vld { wM with size := 5 }, .vst { wM with size := 6, d := 1 },
     .vgath { wM with size := 6 }, .vbld { wM with size := 6 }, .vwld { wM with size := 6, a := 16 }, .vwst { wM with size := 6, ty := 15 }].all
      (fun i => !i.wf) = true := by decide

theorem test_refuses_branches_and_tasks :
    [Instr.br { wB with d := 1 }, .jmp { wB with fn := 1 }, .call { wB with a := 1 }, .call { wB with la := 1 }, .fork { wB with fn := 5 },
     .fork { wB with a := 1 }, .forkc { wB with b := 1 }, .join { wB with c := 1 }, .forkg { wB with fn := 1 },
     .spawn { wB with nf := true }].all (fun i => !i.wf) = true := by decide

theorem test_refuses_tiles :
    [Instr.tcfg { wT with d := 8 }, .tcfg { wT with wrap := true }, .tcfgGet wT, .tclaim { wT with fn := 2 }, .tfree { wT with d := 1 },
     .tld { wT with fn := 4 }, .tld { wT with a := 16 }, .tst { wT with ty := 15 }, .tst { wT with ty := 14 }, .tst { wT with c := 4 },
     .tzero { wT with a := 1 }, .mma { wT with coff := 897 }, .mma { wT with d := 1 }, .mma { wT with a := 8 }, .mma { wT with fn := 2 },
     .mmg { wT with coff := 1009 }, .dmma { wT with wrap := true }, .tscl { wT with coff := 897 }, .ttr wT, .cread { wT with fn := 3, ty := 9 },
     .cread { wT with a := 1, ty := 9 }, .cread { wT with ty := 8 }, .cread { wT with fn := 8, ty := 9 }].all (fun i => !i.wf) = true := by
  decide

theorem test_refuses_views_and_commands :
    [Instr.wset { wW with space := 6 }, .wset { wW with ty := 14 }, .wset { wW with d := 16 }, .wsetDim { wW with fn := 1, imm := 4 },
     .wsetDim wW, .wsetScl { wW with fn := 2, space := 1 }, .wsetSreg { wW with fn := 3 }, .wopen wW, .wopen { wW with mode := 1, imm := 6 },
     .wretire { wW with fn := 2 }, .wbind wW, .wunbind { wW with d := 24, a := 1 }, .weos { wW with d := 23 }, .wsub { wW with imm := 4 },
     .wtest { wW with fn := 3 }, .wtest { wW with fn := 1, b := 1 }, .cpy { wE with split := 7 }, .cpy { wE with scope := 6 },
     .cpy { wE with mbx := true, tag := 1 }, .cpy { wE with c := 1 }, .cpy { wE with b := 1 }, .cpys { wE with fn := 2 },
     .coll { wE with fn := 6 }, .coll { wE with a := 16 }, .cfill { wE with b := 1 }, .cfill { wE with d := 16 }].all
      (fun i => !i.wf) = true := by decide

theorem test_refuses_system :
    [Instr.trap { wS with d := 1 }, .ctrlr { wS with sel := 5 }, .ctrlr { wS with sel := 12 }, .ctrlr { wS with sel := 0x104 },
     .ctrlw { wS with sel := 9 }, .ctrlw { wS with d := 1 }, .vxfAccess true { wS with sel := 5, d := 1 }, .vxfAccess false wS,
     .quotaWrite wS, .tretTake { wS with a := 1 }, .tretDefer wS, .tretTerm { wS with fn := 2, d := 1 }, .tretRelease { wS with fn := 3, b := 1 },
     .tlbw { wS with fn := 1 }, .tlbiPage { wS with d := 1 }, .tlbiAsid { wS with fn := 1, a := 1 }, .tlbiAll { wS with fn := 2, b := 1 },
     .mbind { wS with sel := 1 }, .mbindUn { wS with fn := 1, b := 1 }, .qsave { wS with la := 1 }, .qrest { wS with fn := 1 },
     .reprwGet { wS with b := 1 }, .reprwAdd wS, .reprwApply wS, .reprwClr { wS with fn := 3, d := 1 }, .reprwSum { wS with fn := 4, a := 1 },
     .halt { wS with a := 1 }, .cinvI { wS with d := 1 }, .cinvD { wS with fn := 1, b := 1 }].all (fun i => !i.wf) = true := by decide

theorem test_refuses_milestone :
    [Instr.msHalt { wMs with d := 1 }, .msLdi { wMs with b := 1 }, .msMov { wMs with imm := 1 }, .msAdd { wMs with imm := 1 },
     .msAddi { wMs with b := 1 }, .msSts { wMs with d := 1 }, .msBeq { wMs with d := 1 }, .msJmp { wMs with a := 1 },
     .msEmit { wMs with d := 1 }].all (fun i => !i.wf) = true := by decide

theorem test_refuses_events_beyond_the_package :
    [Instr.taskStart 3328 0, .taskStart 0 4, .matrixSliceStart 3328, .gangPlace 104, .guardResolve (.tsc 104),
     .storeDrain (.sys 4 0), .commandKick (.die 4), .histogramFlush 4, .serviceMessageArrival 0 4 []].all (fun i => !i.wf) = true := by
  decide

/-! ### Decoding: words written out from the manual's encodings, at least one of each family -/

/-- 06 R130's load and its multiply; 06 R145's immediate; R147's `gset`; 01's `end`; R156's `nop` and `rgn`. -/
theorem test_decodes_scalar_words :
    decodeTableWord 64 0x2000000300148604 = some (.mul { wA with la := 2, ty := 3, d := 6, a := 4, b := 5 }) ∧
    decodeTableWord 64 0x007FFFFFFF8C2102 = some (.addi { wI with imm := 0xFFFFFFFF, b := 3, a := 1, d := 1 }) ∧
    decodeTableWord 64 0x0000000310002136 = some (.gset { wA with ty := 3, fn := 1, a := 1, d := 1 }) ∧
    decodeTableWord 64 0x0000000008012035 = some (.rep { wI with imm := 16, a := 9 }) ∧
    decodeTableWord 64 0x39 = some (.taskEnd wA) ∧ decodeTableWord 64 0x38 = some (.rgn wA) ∧
    decodeTableWord 64 0x3A = some (.nop wA) := by decide

/-- 06, 09, 13: loads and stores, a view load, a barrier. -/
theorem test_decodes_memory_words :
    decodeTableWord 64 0x2023000030004440 = some (.ld { wM with la := 2, size := 3, scope := 4, ty := 3, a := 2, d := 4 }) ∧
    decodeTableWord 64 0x0022000C20144041 = some (.st { wM with size := 2, scope := 4, offs := 12, ty := 2, a := 2, b := 5 }) ∧
    decodeTableWord 64 0x0022000290102342 = some (.wld { wM with size := 2, scope := 4, offs := 2, ty := 9, a := 1, b := 4, d := 3 }) ∧
    decodeTableWord 64 0x00E4000000004954 = some (.barr { wM with order := 3, scope := 4, size := 4, a := 2, d := 9 }) := by decide

/-- 08: register and memory forms of vectors. -/
theorem test_decodes_vector_words :
    decodeTableWord 64 0x0000000900100860 = some (.vadd { wA with ty := 9, a := 0, b := 4, d := 8 }) ∧
    decodeTableWord 64 0x000000092008216F = some (.vcmp { wA with ty := 9, fn := 2, b := 2, a := 1, d := 1 }) ∧
    decodeTableWord 64 0x000000000080417F = some (.vmov { wA with c := 1, a := 2, d := 1 }) ∧
    decodeTableWord 64 0x0026000090004180 = some (.vld { wM with size := 6, scope := 4, ty := 9, a := 2, d := 1 }) ∧
    decodeTableWord 64 0x001E000090000184 = some (.vbld { wM with size := 6, scope := 3, ty := 9, d := 1 }) := by decide

/-- 09, 10, 12: views, streams, engine commands and tiles. -/
theorem test_decodes_view_command_and_tile_words :
    decodeTableWord 64 0x00000109000021A0 = some (.wset { wW with ty := 9, imm := 16, a := 1, d := 1 }) ∧
    decodeTableWord 64 0x00010040000001A1 = some (.wopen { wW with mode := 1, imm := 4, d := 1 }) ∧
    decodeTableWord 64 0x38A3 = some (.wbind { wW with a := 1, d := 24 }) ∧
    decodeTableWord 64 0x0015A000000022B0 = some (.cpy { wE with tag := 5, split := 3, scope := 4, a := 1, d := 2 }) := by decide

/-- 05, 15, 17: tasks, traps, control registers and the system instructions. -/
theorem test_decodes_task_and_system_words :
    decodeTableWord 64 0x0000000200002AC1 = some (.forkc { wB with offs := 2, a := 1, d := 10 }) ∧
    decodeTableWord 64 0x00000003000020C3 = some (.join { wB with offs := 3, a := 1 }) ∧
    decodeTableWord 64 0x000000120000A0D0 = some (.trap { wS with sel := 18, a := 5 }) ∧
    decodeTableWord 64 0x00000007000003D1 = some (.ctrlr { wS with sel := 7, d := 3 }) ∧
    decodeTableWord 64 0x00000007000080D2 = some (.ctrlw { wS with sel := 7, a := 4 }) ∧
    decodeTableWord 64 0x01D3 = some (.tretTake { wS with d := 1 }) ∧
    decodeTableWord 64 0x1000A0D3 = some (.tretDefer { wS with fn := 1, a := 5 }) ∧
    decodeTableWord 64 0x001483D4 = some (.tlbw { wS with b := 5, a := 4, d := 3 }) ∧
    decodeTableWord 64 0x00316AD6 = some (.mbind { wS with b := 12, a := 11, d := 10 }) ∧
    decodeTableWord 64 0x031483D7 = some (.qsave { wS with c := 6, b := 5, a := 4, d := 3 }) ∧
    decodeTableWord 64 0xDA = some (.halt wS) := by decide

/-- 03, 04: Milestone words, among them lines 032 and 042 of *Sixfold Sum*. -/
theorem test_decodes_milestone_words :
    decodeTableWord 32 0xFFFC0CC5 = some (.msAddi { imm := 0x3FFF, b := 0, a := 3, d := 3 }) ∧
    decodeTableWord 32 0x1954 = some (.msWay { wMs with a := 6, d := 5 }) ∧
    decodeTableWord 32 0x002B9010 = some (.msBeq { wMs with imm := 10, b := 14, a := 4 }) ∧
    decodeTableWord 32 0xFFC80013 = some (.msJmp { wMs with imm := 0x3FF2 }) := by decide

/-! ### A small machine -/

/-- The page of a virtual address, of ASID 1 and key slot 1, in a physical page: of data, and of code. -/
def page (va pfn : Nat) : TlbEntry := pageEntry 1 1 va pfn true true false
def code (va pfn : Nat) : TlbEntry := pageEntry 1 1 va pfn false false true

/-- A task of launch 1 of partition 1. -/
def aTask : Task := { desc := { asid := 1, part := 1, launch := 1, glade := 3, object := 5 } }

/-- A hart in the middle of a region of that task, with scalar registers. -/
def aHart (r : Regs) : Hart := { regs := r, pc := 0x10000, task := some aTask }

/-- Scalar registers 1 and up from a list. -/
def scalars (l : List Word) : Regs := { s := .ofFn fun i => if i.val = 0 then 0 else l.getD (i.val - 1) 0 }

/-- The same with vector registers 1 and up. -/
def vectors (l : List (BitVec 512)) (s : List Word) : Regs :=
  { scalars s with v := .ofFn fun i => if i.val = 0 then 0 else l.getD (i.val - 1) 0 }

/-- Partition 1 with cluster 0, one queue pair, a running launch, and an object whose image starts at its entry. -/
def aPart : Partition :=
  { id := 1, slice := [0], asids := [1], keys := [1], quota := 64, launches := [(1, { id := 1, born := 3 })]
    objects := [(5, { handle := 5, asid := 1, base := 0x10000, words := 4, entries := [(0, 1)] })], qps := [(1, { asid := 1 })] }

/-- A package with one task in slot 0 of core 0, whose pages at 0x10000 and 0x20000 lie in physical pages 1 and 2. -/
def tiny (h : Hart) : State :=
  { harts := [(.slot 0 0, h)]
    cores := [(0, { tlb := [code 0x10000 1, page 0x20000 2], icache := [(1, 512), (1, 513)] })]
    clusters := [(0, { owner := 1 })], partitions := [(1, aPart)] }

/-- A scalar register of the task after an instruction. -/
def sAfter (o : Out) (n : BitVec 5) : Option Word := match o with | .next t => some (t.getS n) | _ => none
/-- An element of a vector register after an instruction. -/
def vAfter (o : Out) (n : BitVec 5) (w e : Nat) : Option (BitVec w) :=
  match o with | .next t => some ((t.me.regs.getV n).extractLsb' (w * e) w) | _ => none
/-- What an outstanding long-latency instruction will write. -/
def dests (o : Out) : List Dest := match o with | .next t => t.me.pend.flatMap (·.dests) | _ => []

/-! ### Results that the manual works out -/

/-- The worked values of 06 R146. -/
theorem test_scalar_worked_values :
    let s := tiny (aHart (scalars [-7, 2, 100, 3, 5, 0x8000000000000000, -1, 9, 4, 1]))
    let f := { wA with d := 20 }
    dests (exec (.div { f with ty := 2, a := 1, b := 2 }) s) = [.s 20 (-3)] ∧
    dests (exec (.rem { f with ty := 2, a := 1, b := 2 }) s) = [.s 20 (-1)] ∧
    dests (exec (.div { f with ty := 3, a := 6, b := 7 }) s) = [.s 20 0x8000000000000000] ∧
    dests (exec (.rem { f with ty := 3, a := 6, b := 7 }) s) = [.s 20 0] ∧
    dests (exec (.div { f with ty := 5, a := 8, b := 0 }) s) = [.s 20 0xFFFF] ∧
    sAfter (exec (.add { f with sat := true, a := 3, b := 3 }) s) 20 = some 127 ∧
    sAfter (exec (.add { f with a := 3, b := 3 }) s) 20 = some (-56) ∧
    sAfter (exec (.sub { f with ty := 6, sat := true, a := 4, b := 5 }) s) 20 = some 0 ∧
    dests (exec (.mulh { f with ty := 7, a := 6, b := 9 }) s) = [.s 20 2] ∧
    sAfter (exec (.clz { f with ty := 2, a := 10 }) s) 20 = some 31 := by decide +kernel

/-- The worked values of 07: binary32 to bfloat16 by each mode. -/
theorem test_rounding_worked_values :
    let f := NumFmt.ofTy 9 0
    let t := NumFmt.ofTy 11 0
    let c (md : Mode) (x : Nat) := (convert f t md false x).1
    [Mode.rne, .rtz, .rup, .rmm].map (c · 0x3F808000) = [0x3F80, 0x3F80, 0x3F81, 0x3F81] ∧
    [Mode.rne, .rtz, .rup, .rmm].map (c · 0x3F818000) = [0x3F82, 0x3F81, 0x3F82, 0x3F82] ∧
    [Mode.rne, .rtz, .rup, .rmm].map (c · 0x3F800001) = [0x3F80, 0x3F80, 0x3F81, 0x3F80] ∧
    (convert f t .rne false 0x3F800001).2 = { nx := true } := by decide +kernel

/-- The same: 127.4 and 127.6 to i8 (R176), and the f32 codes 0x42FECCCD and 0x42FF3333 that stand for them. -/
theorem test_integer_conversion_worked_values :
    let c (sat : Bool) (x : Nat) := convert (NumFmt.ofTy 9 0) (NumFmt.ofTy 0 0) .rne sat x
    c false 0x42FECCCD = (127, { nx := true }) ∧ ((c false 0x42FF3333).1 % 256, (c false 0x42FF3333).2.nv) = (0x80, true) ∧
    ((c true 0x42FF3333).1, (c true 0x42FF3333).2.nv) = (127, true) := by decide +kernel

/-- 05 R93, R94: the stamp of the worked message of *Sixfold Sum*. -/
theorem test_stamp_of_the_worked_message :
    (stamped 1 (leBytes 8 0x1000000000 ++ leBytes 8 0x1000000018 ++ List.replicate 40 0)).drop 56 = [1, 0, 0, 0, 0x19, 1, 0, 0] := by
  decide +kernel

/-- 01, line 004 of its vector fragment: lane 9 of −0.0 against +0.0 stays clear. -/
theorem test_negative_zero_is_not_below_zero :
    let s := tiny (aHart (vectors [0x80000000, 0] []))
    (match exec (.vcmp { wA with ty := 9, fn := 2, a := 1, b := 2, d := 1 }) s with | .next t => t.getK 1 | _ => 1) = 0 := by
  decide +kernel

/-- 08 R203: a bf16 lane with a = (1.0, 2.0), b = (3.0, 0.5) and 10.0 gives exactly 14.0. -/
theorem test_dot_product_worked_value :
    dests (exec (.vdot { wA with ty := 11, a := 1, b := 2, d := 3 }) (tiny (aHart (vectors [0x40003F80, 0x3F004040, 0x41200000] []))))
      = [.v 3 0x41600000] := by decide +kernel

/-- 01: `add.i32` of 16 and 30, `ld.i32` of −5 and of the unsigned form. -/
theorem test_loads_extend_by_type :
    let s := { tiny (aHart (scalars [0x20000])) with mem := { cells := [(0x20000, 0xFB), (0x20001, 0xFF), (0x20002, 0xFF), (0x20003, 0xFF)] } }
    dests (exec (.ld { wM with ty := 2, size := 2, a := 1, d := 4 }) s) = [.s 4 0xFFFFFFFFFFFFFFFB] ∧
    dests (exec (.ld { wM with ty := 6, size := 2, a := 1, d := 4 }) s) = [.s 4 0xFFFFFFFB] := by decide +kernel

/-- 03: the setup and one PUSH of *Sixfold Sum* spend units as its table says; here, what one `LDH` of line 003 leaves. -/
theorem test_milestone_ldh :
    let s : State := { clearings := [(0, { running := true, m := .ofFn fun i => if i.val = 5 then 15 else 0 })] }
    (match exec (.msLdh { wMs with imm := 0x2DC5, d := 5 }) s with
      | .next t => (t.clearings.get 0 {}).get 5 | _ => 0) = 0x3EDC5 := by decide +kernel

/-- 06 R150's worked pair: `lih` of 0x1234 over 0x0BADCAFE. -/
theorem test_lih_keeps_the_low_half :
    sAfter (exec (.lih { wI with imm := 0x1234, d := 3 }) (tiny (aHart (scalars [0, 0, 0x0BADCAFE])))) 3 = some 0x12340BADCAFE := by
  decide +kernel

/-- 18: sixteen live stacks hold 768 GiB, and without stack 9 the limit of the sweep is 0x00B400000000. -/
theorem test_retirement_moves_the_capacity :
    (match exec (.retirementRequest 9) State.reset with
      | .next t => (match exec .sweepStart t with | .next u => (u.detour.pointer, u.detour.retire) | _ => (0, 0)) | _ => (0, 0))
      = (0x00B400000000, 9) := by decide +kernel

/-! ### Witnesses: a state and operands that meet the hypotheses of each statement, clause by clause -/

/-- An instruction answers a next state in which a test holds. -/
def nextWith (o : Out) (p : State → Bool) : Bool := match o with | .next t => p t | _ => false

/-- Two outcomes are the same next state. -/
def same (a b : Out) : Bool := match a, b with | .next s, .next t => s == t | _, _ => false

theorem witness_BytesOfAnInstructionDecodeToIt :
    (Instr.ld { wM with la := 15, size := 3, scope := 5, offs := 0x8000, ty := 3, a := 31, d := 31, gd := 7 }).wf = true ∧
    encodeRonid (.ld { wM with la := 15, size := 3, scope := 5, offs := 0x8000, ty := 3, a := 31, d := 31, gd := 7 }) =
      some 0xF72B80003003FF40 ∧
    (Instr.msAddi { imm := 0x3FFF, b := 0, a := 3, d := 3 }).wf = true ∧
    encodeMilestone (.msAddi { imm := 0x3FFF, b := 0, a := 3, d := 3 }) = some 0xFFFC0CC5 := by decide

theorem witness_EveryBitOfAWordCounts :
    decodeRonid 0xDA = .ok (.halt wS) ∧ 0xDA < 2 ^ 64 ∧ decodeMilestone 0 = .ok (.msHalt wMs) := by decide

/-- Slot 0 of core 0 with a word at its pc, 0x10000, which is in physical page 1. -/
def fetching (w : Nat) (r : Regs) : State := { tiny (aHart r) with mem := (Mem.storeNat {} 0x10000 8 w) }

/-- The page with block signatures. -/
def signedPage : TlbEntry := pageEntry 1 1 0x10000 1 false false true true

/-- The same on a page with block signatures, in an object whose first word was admitted as another (R358). -/
def signed (w v : Nat) : State :=
  let s := fetching w {}
  { s with cores := [(0, { tlb := [signedPage], icache := [(1, 512)] })]
           partitions := [(1, { aPart with objects := [(5, { handle := 5, asid := 1, base := 0x10000, words := 4, entries := [(0, 1)], admitted := [v] })] })] }

/-- A TSC, running, with a word at its pc. -/
def tscState (w : Nat) (h : Hart) : State :=
  { cur := .tsc 0, turn := .tsc 0, harts := [(.tsc 0, { h with pc := 0x10000, asid := 1, running := true })]
    clusters := [(0, { owner := 1, tlb := [code 0x10000 1] })], partitions := [(1, aPart)], mem := (Mem.storeNat {} 0x10000 8 w) }

theorem witness_StepRunsTheWordAtThePc :
    (let s := fetching 0x3A {}
     s.agenda = [] ∧ s.turn = .core 0 ∧ slotOrder (s.core 0).cur (s.core 0).run = [3] ++ 0 :: [1, 2] ∧
     (s.hart (.slot 0 3)).ready (.slot 0 3) = false ∧ (s.hart (.slot 0 0)).atRest (.slot 0 0) = true ∧
     (s.on (.slot 0 0)).fetches (s.hart (.slot 0 0)).pc (code 0x10000 1) 0x3A = true ∧ decodeRonid 0x3A = .ok (.nop wA) ∧
     (s.reducedService && fullOnly (.nop wA)) = false ∧
     (let b := (s.on (.slot 0 0)).nextBlock 0x3A
      ((code 0x10000 1).sig && b.2 && b.1.differs) = false) ∧
     nextWith (exec (.nop wA) (s.issuingIn (.slot 0 0) 0x3A (code 0x10000 1).sig)) (fun t => !t.waits (.slot 0 0)) = true) ∧
    ((fetching 0 {}).on (.slot 0 0)).fetches 0x10000 (code 0x10000 1) 0 = true ∧ decodeRonid 0 = .error .unassignedOpcode ∧
    (let s := signed 0x3A 0x38
     let b := (s.on (.slot 0 0)).nextBlock 0x3A
     (s.on (.slot 0 0)).fetches 0x10000 signedPage 0x3A = true ∧
     (signedPage.sig && b.2 && b.1.differs) = true ∧
     ((s.issuing (.slot 0 0) 0x3A).mismatch (.slot 0 0) b.1.first).waits (.slot 0 0) = false) ∧
    (let s := tscState 0x3A {}
     s.agenda = [] ∧ isSlot (.tsc 0) = false ∧ (HartId.tsc 0).ok = true ∧ s.turn = .tsc 0 ∧ (s.hart (.tsc 0)).atRest (.tsc 0) = true ∧
     (s.hart (.tsc 0)).task = none ∧ (s.on (.tsc 0)).fetches (s.hart (.tsc 0)).pc (code 0x10000 1) 0x3A = true ∧
     nextWith (exec (.nop wA) (s.issuing (.tsc 0) 0x3A)) (fun t => !t.waits (.tsc 0)) = true ∧
     ((tscState 0 {}).on (.tsc 0)).fetches 0x10000 (code 0x10000 1) 0 = true) ∧
    (let c : Clearing := { running := true, tsc := some 0, pathfinder := leBytes 4 0xFFFC0CC5 }
     let s : State := { turn := .clearing 7, clearings := [(7, c)] }
     s.agenda = [] ∧ s.upsets = [] ∧ s.clearings.find 7 = some c ∧ c.running = true ∧ c.yields s = false ∧ c.units < c.budget ∧ c.ip.toNat + 4 ≤ c.pathfinder.length ∧
     decodeMilestone (leNat ((c.pathfinder.drop c.ip.toNat).take 4)) = .ok (.msAddi { imm := 0x3FFF, b := 0, a := 3, d := 3 }) ∧
     nextWith (exec (.msAddi { imm := 0x3FFF, b := 0, a := 3, d := 3 })
       { s with clearing := 7, clearings := s.clearings.set 7 { c with units := c.units + 1 } }) (fun _ => true) = true) ∧
    (let s : State := { agenda := [.sweepPause, .sweepResume] }
     s.agenda = .sweepPause :: [.sweepResume] ∧ Instr.sweepPause.isEvent = true) := by decide +kernel

theorem witness_ScalarArithmeticFollowsR146 :
    (tiny (aHart {})).runs 0 = true ∧ tyInt 0 = true ∧ tyInt 7 = true ∧ tyInt 8 = false ∧
    tySigned 4 = false ∧ tySigned 3 = true ∧ wA.sat = false := by decide +kernel

theorem witness_ScalarImmediatesAndFields :
    (tiny (aHart {})).runs 0 = true ∧ tyInt { wI with b := 3 }.ty = true ∧
    (63 : BitVec 32).toNat < tyWidth { wI with b := 3 }.ty ∧ tySigned { wI with b := 3 }.ty = true ∧
    tySigned { wI with b := 7 }.ty = false ∧ tyInt { wI with b := 7 }.ty = true ∧ tyIeee 9 = true := by decide +kernel

/-- A hart with a write of guard 1 outstanding since a cycle. -/
def guardHart (x : Bool) (t : Nat) : Hart := { aHart {} with unres := [{ guard := 1, value := x, issued := t }] }

theorem witness_GuardWritesResolveNextCycle :
    (tiny (aHart {})).runs 0 = true ∧ (tiny (aHart {})).me.unres = [] ∧ ({ wA with d := 7 } : FmtA).d.toNat < 8 ∧
    (let s := { tiny (guardHart true 4) with clock := 5 }
     (1 : BitVec 3) ≠ 0 ∧ (s.hart (.slot 0 0)).queue = [] ∧
     (s.hart (.slot 0 0)).unres = [{ guard := (1 : BitVec 3).toNat, value := true, issued := 4 }] ∧ 4 < s.now) ∧
    (let s := { tiny (guardHart true 5) with clock := 5 }
     (s.hart (.slot 0 0)).unres = [{ guard := (1 : BitVec 3).toNat, value := true, issued := 5 }] ∧ s.now ≤ 5) ∧
    (let u : List GuardWrite := [{ guard := 1, value := true, issued := 4 }, { guard := 1, value := false, issued := 4 }]
     (tiny { aHart {} with unres := u }).me.queue = [] ∧ ∀ x ∈ u, x.guard < 8) := by decide +kernel

/-! Control -/

theorem witness_ControlTransfers :
    (let s := tiny (aHart (scalars [0x10018, 0x1001C]))
     let odd := tiny { aHart {} with pc := 0x10004 }
     s.runs 0 = true ∧ (s.me.pc + 8 + 8 * (0 : BitVec 24).signExtend 64).toNat % 8 = 0 ∧
     odd.runs 0 = true ∧ (odd.me.pc + 8 + 8 * (0 : BitVec 24).signExtend 64).toNat % 8 ≠ 0 ∧
     (s.getS 1).toNat % 8 = 0 ∧ (s.getS 2).toNat % 8 ≠ 0) := by decide +kernel

theorem witness_RepetitionRunsItsPasses :
    (let s := { tiny (aHart (scalars [0, 3])) with mem := (Mem.storeNat (Mem.storeNat {} 0x10008 8 0x01) 0x10010 8 0x01) }
     let f := { wI with imm := 1 }
     s.runs 0 = true ∧ f.imm.toNat < 2 ^ 9 ∧ [0x01, 0x01].length = f.imm.toNat % 16 + 1 ∧
     (∀ e ∈ ([0x01, 0x01].zip [code 0x10000 1, code 0x10000 1]).zipIdx,
       s.fetches (s.me.pc + 8 + BitVec.ofNat 64 (8 * e.2)) e.1.2 e.1.1 = true) ∧
     [0x01, 0x01].all (repeatable false) = true ∧ (s.getS 1).toNat = 0 ∧ (s.getS 2).toNat ≠ 0 ∧
     [0x01, 0x39].all (repeatable false) = false ∧
     (let u := { s with mem := (Mem.storeNat (Mem.storeNat {} 0x10008 8 0x01) 0x10010 8 0x39) }
      ∀ e ∈ ([0x01, 0x39].zip [code 0x10000 1, code 0x10000 1]).zipIdx,
        u.fetches (u.me.pc + 8 + BitVec.ofNat 64 (8 * e.2)) e.1.2 e.1.1 = true)) ∧
    (let h (pass j : Nat) : Hart := { aHart {} with regs := { rep := some { n := 2, pass, j, len := 2, stride := 1, addr := 0x10000 } } }
     (h 0 0).regs.rep = some { n := 2, len := 2, stride := 1, addr := 0x10000 } ∧ 0 + 1 < 2 ∧
     (h 0 1).regs.rep = some { n := 2, pass := 0, j := 1, len := 2, stride := 1, addr := 0x10000 } ∧ 2 ≤ 1 + 1 ∧
     (h 1 1).regs.rep = some { n := 2, pass := 1, j := 1, len := 2, stride := 1, addr := 0x10000 }) ∧
    (let r (w : Nat) : Rep := { n := 9, pass := 1, len := 1, stride := 1, addr := 0x10000, words := [(w, false)] }
     let s (w : Nat) := tiny { aHart {} with regs := { rep := some (r w) } }
     let add := Instr.vadd { wA with ty := 9, a := 0, b := 4, d := 8 }
     let eos := Instr.weos { wW with d := 31 }
     (r 0x0000000900100860).words[0]? = some (0x0000000900100860, false) ∧ (s 0).me.word = none ∧ (s 0).noticed (s 0).me.pc = false ∧
     (s 0).upsets = [] ∧ (s 0).me.pend = [] ∧ decodeRonid 0x0000000900100860 = .ok add ∧ (s 0).reducedService = false ∧
     renameV 1 add = .vadd { wA with ty := 9, a := 1, b := 5, d := 9 } ∧ (renameV 1 add).wf = true ∧
     nextWith (exec (renameV 1 add) ((s 0x0000000900100860).modMe fun h => { h with insn := 0x0000000900100860 }))
       (fun t => !t.waits t.cur) = true ∧
     decodeRonid 0x1FA5 = .ok eos ∧ (renameV 1 eos).wf = false) := by decide +kernel

/-- A hart inside an inline run. -/
def inlineHart (e : Frame) : Hart := { aHart {} with regs := { inline := [{ ret := 0x10020 }, e] } }

theorem witness_TheEndOfATask :
    (let s (left : Nat) := tiny (inlineHart { ret := 0x10008, target := 0x10018, index := 1, left })
     (s 0).runs 0 = true ∧ (s 0).me.pend = [] ∧ (s 0).me.unres = [] ∧
     (s 0).me.regs.inline = [{ ret := 0x10020 }] ++ [{ ret := 0x10008, target := 0x10018, index := 1, left := 0 }] ∧
     (s 2).runs 0 = true ∧ (s 2).me.regs.inline = [{ ret := 0x10020 }] ++ [{ ret := 0x10008, target := 0x10018, index := 1, left := 2 }]) ∧
    (let s := tiny (aHart {})
     let counted := tiny { aHart {} with task := some { aTask with desc := { aTask.desc with counter := 0x20000 } } }
     s.runs 0 = true ∧ s.me.pend = [] ∧ s.me.unres = [] ∧ s.me.regs.inline = [] ∧ s.mayPublish = true ∧
     isSlot s.cur = true ∧ s.me.task = some aTask ∧ s.launch 1 1 = some { id := 1, born := 3 } ∧ 0 + 0 + 0 + 1 < 3 ∧
     aTask.desc.counter = 0 ∧ counted.mayPublish = true ∧
     (counted.me.task.map (·.desc.counter)) = some 0x20000 ∧ counted.launch 1 1 = some { id := 1, born := 3 }) := by decide +kernel

/-- A hart with outstanding long-latency results. -/
def pendHart (l : List Pending) : Hart := { aHart {} with pend := l }

theorem witness_ResultsLandAfterTheirWindows :
    (let p (left : Nat) : Pending := { dests := [.s 3 9], left, doneAt := some 4 }
     let s (left now : Nat) := { tiny (pendHart [p left]) with clock := now }
     (s 1 9).me.pend = [p 1] ∧ 0 < (p 1).left ∧ (s 0 3).me.pend = [p 0] ∧ (p 0).complete (s 0 3).now = false ∧
     (p 0).complete (s 0 4).now = true ∧ (p 0).dests = [.s 3 9] ∧ ((s 0 4).hart (.slot 0 0)).pend = [p 0]) ∧
    (let p : Pending := { dests := [.s 3 9], left := 0, doneAt := some 4 }
     let q : Pending := { dests := [.s 3 8], left := 0, doneAt := some 2 }
     (tiny (pendHart [p, q])).me.pend = [p, q] ∧ p.dests = [.s 3 9] ∧ q.dests = [.s 3 8]) := by decide +kernel

/-- The first word of a region, at a slot and at a TSC; a boundary that waits; a mismatch whose core's stores are on their way. -/
theorem witness_regions_begin :
    (let s : State := { fetching 0x3A {} with harts := [(.slot 0 0, { aHart {} with boundary := true })] }
     let u := s.begun (.slot 0 0)
     s.agenda = [] ∧ s.turn = .core 0 ∧ (s.hart (.slot 0 0)).boundary = true ∧ (s.hart (.slot 0 0)).atRest (.slot 0 0) = true ∧
     (u.on (.slot 0 0)).fetches (s.hart (.slot 0 0)).pc (code 0x10000 1) 0x3A = true ∧
     ((code 0x10000 1).sig && ((u.on (.slot 0 0)).nextBlock 0x3A).2 && ((u.on (.slot 0 0)).nextBlock 0x3A).1.differs) = false ∧
     nextWith (exec (.nop wA) (u.issuingIn (.slot 0 0) 0x3A (code 0x10000 1).sig)) (fun t => !t.waits (.slot 0 0)) = true ∧
     (((u.issuingIn (.slot 0 0) 0x3A (code 0x10000 1).sig).raise .illegal).waits (.slot 0 0)) = false) ∧
    (let s := tscState 0x3A { boundary := true }
     (s.hart (.tsc 0)).boundary = true ∧ (s.hart (.tsc 0)).atRest (.tsc 0) = true ∧
     ((s.begun (.tsc 0)).on (.tsc 0)).fetches (s.hart (.tsc 0)).pc (code 0x10000 1) 0x3A = true ∧
     nextWith (exec (.nop wA) (((s.begun (.tsc 0)).fetched (.tsc 0) (code 0x10000 1)).issuing (.tsc 0) 0x3A)) (fun t => !t.waits (.tsc 0)) = true) ∧
    (let p : Pending := { dests := [.s 3 9], left := 1, doneAt := some 4 }
     let s := tiny { pendHart [p] with boundary := true }
     (s.hart (.slot 0 0)).verdict = none ∧ (s.hart (.slot 0 0)).boundary = true ∧
     (∀ q ∈ (s.hart (.slot 0 0)).pend, q.complete s.now = false) ∧ p ∈ (s.hart (.slot 0 0)).pend ∧ p.performed = false) ∧
    (∀ m < 4, ((signed 0x3A 0x38).issuing (.slot 0 0) 0x3A).mayPark (.slot 0 m) = true) := by decide +kernel

/-- An `end` that an earlier result holds up, and an inline one that none does. -/
theorem witness_end_waits :
    (let p : Pending := { dests := [.s 3 9], left := 0, doneAt := some 4 }
     let s (now : Nat) : State := { tiny { inlineHart { ret := 0x10008 } with pend := [p] } with clock := now }
     (s 3).runs 0 = true ∧ p ∈ (s 3).me.pend ∧ p.complete (s 3).now = false ∧ (∀ q ∈ (s 9).me.pend, q.complete (s 9).now = true)) := by
  decide +kernel


/-! Vectors -/

theorem witness_VectorIntegersWorkByElement :
    (let s := tiny (aHart {})
     s.runs 0 = true ∧ s.unbound 1 = true ∧ s.unbound 31 = true ∧ tyInt 0 = true ∧ tyInt 7 = true ∧ tySigned 4 = false ∧
     tySigned 3 = true) := by decide +kernel

theorem witness_VectorsAndMasksMove :
    (let s := tiny (aHart {})
     s.runs 0 = true ∧ s.unbound 0 = true ∧ s.unbound 24 = true ∧ tyPlain 0 = true ∧ tyPlain 11 = true ∧
     (Instr.kop { wA with fn := 8, d := 4 }).wf = true ∧ (Instr.kop { wA with fn := 5, a := 9 }).wf = true) := by decide +kernel

theorem witness_VectorFloatsRoundOnce :
    (let s := tiny (aHart {})
     s.runs 0 = true ∧ s.unbound 1 = true ∧ s.unbound 2 = true ∧ s.unbound 3 = true ∧ tyIeee 8 = true ∧ tyIeee 11 = true) ∧
    ((-20 : Int) ≤ -8 ∧ (-20 : Int) ≤ -8 + -8 ∧ (-20 : Int) ≤ -20) := by
  decide +kernel

/-- A value just above 2^24 in binary32, the largest finite value itself, and a binary8 format without a sign. -/
theorem witness_RoundingIsNearestOrDirected :
    (let f := NumFmt.ofTy 9 0
     f.isFloat = true ∧ (2 ^ 24 + 1 : Nat) ≠ 0 ∧
     Mag.compare ⟨2 ^ 24 + 1, 0, false⟩ (f.magnitude f.maxCode).1 (f.magnitude f.maxCode).2 ≠ .gt ∧
     Mag.compare ⟨2 ^ 24 - 1, 104, false⟩ (f.magnitude f.maxCode).1 (f.magnitude f.maxCode).2 ≠ .gt ∧
     Mag.compare ⟨2 ^ 24, 104, false⟩ (f.magnitude f.maxCode).1 (f.magnitude f.maxCode).2 = .gt ∧
     f.value 0x4B800000 = .fin false (2 ^ 23) 1) ∧
    (let f := NumFmt.ofTy 14 0x12
     f.isFloat = true ∧ (4 ≤ (0x12 : BitVec 5).toNat ∧ (false = true → (0x12 : BitVec 5).toNat < 18)) ∧
     Mag.compare ⟨3, 0, false⟩ (f.magnitude f.maxCode).1 (f.magnitude f.maxCode).2 ≠ .gt) := by decide +kernel

theorem witness_ComparisonsAndConversions :
    (let s := tiny (aHart {})
     s.runs 0 = true ∧ s.unbound 1 = true ∧ s.unbound 2 = true ∧ s.unbound 3 = true ∧ tyWide 9 = true ∧ tyWide 2 = true ∧
     { wA with ty := 11, fn := 9 }.cvt = true ∧ { wA with ty := 14, fn := 8, b := 4, nf := true }.cvt = true) ∧
    (let i8 := NumFmt.ofTy 0 0
     let f32 := NumFmt.ofTy 9 0
     let e4 := NumFmt.ofTy 14 4
     i8.isFloat = false ∧ f32.isFloat = true ∧ e4.isFloat = true ∧ (4 ≤ (4 : BitVec 5).toNat) ∧
     f32.value 0x7FC00000 = .nan false ∧ f32.value 0xFF800000 = .inf true ∧ f32.value 0x40600000 = .fin false (7 * 2 ^ 21) (-22) ∧
     f32.value 0 = .fin false 0 (-149) ∧ (-22 : Int) ≤ -1 ∧
     Mag.compare ⟨7 * 2 ^ 21, -22, false⟩ (e4.magnitude e4.maxCode).1 (e4.magnitude e4.maxCode).2 ≠ .gt ∧
     Mag.compare ⟨1, 64, false⟩ (e4.magnitude e4.maxCode).1 (e4.magnitude e4.maxCode).2 = .gt ∧
     (-149 : Int) ≤ (e4.magnitude e4.maxCode).2 ∧ (-149 : Int) ≤ (e4.magnitude (e4.maxCode - 1)).2) := by decide +kernel

theorem witness_ReductionsAndScans :
    (let s := tiny (aHart {})
     s.runs 0 = true ∧ s.unbound 1 = true ∧ s.unbound 3 = true ∧ tyAtomic 7 = true ∧ ({ wA with ty := 2, fn := 5 } : FmtA).fn.toNat ≤ 5 ∧
     (Instr.vred { wA with ty := 9, la := 15 }).wf = true ∧ (0 : Nat) + 1 < 512 / tyWidth 9 ∧
     (s.getK 0).getLsbD 3 = true ∧ (s.getK 1).getLsbD 3 = false ∧ anyNan [(NumFmt.ofTy 9 0).value 0x7F800001] = true ∧
     anyNan [(NumFmt.ofTy 9 0).value 0] = false) := by decide +kernel

theorem witness_DotProductsAccumulate :
    (let s := tiny (aHart {})
     s.runs 0 = true ∧ s.unbound 1 = true ∧ s.unbound 2 = true ∧ s.unbound 3 = true ∧ (Instr.vdot { wA with ty := 4 }).wf = true ∧
     (Instr.vdot { wA with ty := 10 }).wf = true) ∧
    (NumFmt.ofTy 9 0).value 0x41200000 = .fin false 10485760 (-20) ∧ (NumFmt.ofTy 11 0).value 0x3F80 = .fin false 128 (-7) ∧
    (NumFmt.ofTy 11 0).value 0x3F00 = .fin false 128 (-8) ∧ (-20 : Int) ≤ -7 + -8 := by decide +kernel

/-! Loads, stores and atomics -/

/-- The task with one page of its own at 0x20000, in physical page 2, with permissions. -/
def onPage (r w : Bool) (h : Hart) : State :=
  let s := tiny h
  { s with cores := [(0, { tlb := [pageEntry 1 1 0x20000 2 r w false], icache := [(1, 512)] })] }

/-- s1 the address of the page. -/
def toPage : Hart := aHart (scalars [0x20000])

theorem witness_LoadsReadTheirBytes :
    (let s := tiny toPage
     let p := page 0x20000 2
     s.runs 0 = true ∧ tyPlain 3 = true ∧ (3 : BitVec 3) = tySize 3 ∧ (s.getS 1 + (0 : BitVec 16).signExtend 64).toNat % 8 = 0 ∧
     s.readable 0x20000 8 p = true ∧ s.readable 0x2FFF8 8 p = true ∧ tyAtomic 3 = true ∧ s.unbound 4 = true ∧ s.unbound 2 = true ∧
     tyWide 9 = true ∧
     (∀ e < 16, (s.getK 0).getLsbD e = true → (s.getS 1 + BitVec.ofNat 64 (e * 4)).toNat % 4 = 0 ∧
       s.readable (s.getS 1 + BitVec.ofNat 64 (e * 4)) 4 p = true) ∧
     (∀ e < 16, (s.getK 0).getLsbD e = true →
       (s.getS 1 + ((s.me.regs.getV 2).extractLsb' (32 * e) 32).signExtend 64).toNat % 4 = 0 ∧
       s.readable (s.getS 1 + ((s.me.regs.getV 2).extractLsb' (32 * e) 32).signExtend 64) 4 p = true)) := by decide +kernel

theorem witness_StoresWriteTheirBytes :
    (let s := tiny { toPage with stores := [{ cluster := none, bytes := [(0x20100, 7)] }] }
     let p := page 0x20000 2
     s.memoryOk = true ∧ s.runs 0 = true ∧ s.mayPublish = true ∧ tyPlain 0 = true ∧ (0 : BitVec 3) = tySize 0 ∧
     s.writable 0x20000 p = true ∧ (∀ x ∈ bytesAt (p.physical 0x20000) (leBytes 1 5), s.movingUnit x.1 = false) ∧
     (s.drainAll s.cur).keyed p.key (p.physical 0x20000) 1 = true ∧ (∀ e < 16, (s.drainAll s.cur).keyed p.key (p.physical (0x20000 + 4 * e)) 4 = true) ∧
     ((List.range 16).filter fun e => (s.getK 0).getLsbD (e * 32 / 32)) ≠ [] ∧
     ((List.range 16).filter fun e => (s.getK 1).getLsbD (e * 32 / 32)) = [] ∧ s.unbound 2 = true ∧ s.unbound 3 = true ∧
     (∀ e ∈ (List.range 16).filter fun e => (s.getK 0).getLsbD (e * 32 / 32),
       (s.getS 1 + BitVec.ofNat 64 (e * 4)).toNat % 4 = 0 ∧ s.writable (s.getS 1 + BitVec.ofNat 64 (e * 4)) p = true) ∧
     (∀ e ∈ (List.range 16).filter fun e => (s.getK 0).getLsbD (e * 32 / 32),
       (s.getS 1 + ((s.me.regs.getV 2).extractLsb' (32 * e) 32).signExtend 64).toNat % 4 = 0 ∧
       s.writable (s.getS 1 + ((s.me.regs.getV 2).extractLsb' (32 * e) 32).signExtend 64) p = true)) := by decide +kernel

/-- A strongly ordered page of data, in physical page 2. -/
def soPage : TlbEntry := { page 0x20000 2 with word1 := (page 0x20000 2).word1 - 2 ^ 48 }

/-- The task beside that page. -/
def onSo : State := { tiny toPage with cores := [(0, { tlb := [soPage] })] }

theorem witness_StoresToStronglyOrderedPages :
    (soPage.ord == 0) = true ∧ onSo.maps 0x20000 soPage = true ∧ soPage.w = true ∧ onSo.mayPublish = true ∧
    (onSo.drainAll onSo.cur).keyed soPage.key (soPage.physical 0x20000) 4 = true := by decide +kernel

theorem witness_BufferAccesses :
    (let s := tiny (aHart (scalars [65528, 65472]))
     s.memoryOk = true ∧ s.runs 0 = true ∧ 2 ≤ (2 : BitVec 3).toNat ∧ (5 : BitVec 3).toNat ≤ 5 ∧ tyPlain 3 = true ∧
     s.bufferOk 2 (s.getS 1) 8 = true ∧ s.localReady 2 65528 8 = true ∧ (s.myCore.buffer 2).bad 65528 8 = false ∧
     s.bufferOk 4 (s.getS 2) 64 = true ∧ (∀ e < 16, s.localReady 4 (65472 + e * 4) 4 = true) ∧ s.unbound 1 = true ∧
     (∀ e < 16, (s.myCore.buffer 4).bad (65472 + e * 4) 4 = false)) := by decide +kernel

/-- A row of 20 elements of a TYPE at an address of a space. -/
def aView (space : BitVec 3) (base : Word) (ty : BitVec 4) (mode : BitVec 2) : View :=
  { state := .opened, space, base, rank := 1, ty, mode, scope := 4
    dims := .ofFn fun i => if i.val = 0 then { ext := 20, lo := 0, stride := (tyWidth ty / 8 : Nat) } else {} }

/-- A hart with views in w1 and w2. -/
def viewHart (v u : View) (r : Regs) : Hart := { aHart r with regs := (r.setW 1 v).setW 2 u }

theorem witness_ViewLoadsReadElements :
    (let v := aView 0 0x20000 2 1
     let u := aView 2 0x40 0 1
     let s := tiny (viewHart v u (scalars [3]))
     let p := page 0x20000 2
     s.runs 0 = true ∧ s.viewReady (s.getW 1) 2 false = true ∧ (0 : Int) ≤ (s.getS 1).toInt + (16 : BitVec 16).toInt ∧
     (s.getS 1).toInt + (16 : BitVec 16).toInt < (s.getW 1).count ∧ s.elementReady (s.getW 1) 19 p false = true ∧ tyWidth 2 ≠ 0 ∧
     s.unbound 4 = true ∧ (∀ e < 16, 4 + e < 20 → s.elementReady (s.getW 1) (4 + e) p false = true) ∧
     s.viewReady (s.getW 2) 0 false = true ∧ s.elementReady (s.getW 2) 0 p false = true ∧
     s.viewReady (aView 0 0x20000 12 1) 12 false = true) := by decide +kernel

theorem witness_ViewStoresWriteElements :
    (let v := aView 0 0x20000 2 2
     let u := aView 3 0x40 0 2
     let s := tiny (viewHart v u (scalars [3]))
     let p := page 0x20000 2
     s.memoryOk = true ∧ s.runs 0 = true ∧ s.viewReady (s.getW 1) 2 true = true ∧ (s.getW 1).space.toNat ≤ 5 ∧
     (0 : Int) ≤ (s.getS 1).toInt ∧ (s.getS 1).toInt < (s.getW 1).count ∧ s.elementReady (s.getW 1) 3 p true = true ∧ s.unbound 4 = true ∧
     (∀ e < 16, s.elementReady (s.getW 1) (3 + e) p true = true) ∧
     s.viewReady (s.getW 2) 0 true = true ∧ s.elementReady (s.getW 2) 3 p true = true ∧ s.mayPublish = true ∧
     (s.drainAll s.cur).keyed p.key (State.elementPlace (s.getW 1) 3 p) 4 = true ∧ s.movingUnit (State.elementPlace (s.getW 1) 3 p) = false ∧
     (let va := BitVec.ofInt 64 ((s.getW 1).elementAt 3).1
      va.toNat % 4 = 0 ∧ State.pageAgrees (s.getW 1) p = true ∧ s.maps va p = true ∧ p.w = true)) := by decide +kernel

theorem witness_AtomicsExchangeAtOnce :
    (let s := tiny { toPage with stores := [{ cluster := none, bytes := [(0x20100, 7)] }] }
     s.memoryOk = true ∧ s.runs 0 = true ∧ s.atomicable 0x20000 0 (page 0x20000 2) = true ∧ s.atomicable 0x20000 3 (page 0x20000 2) = true ∧ tyAtomic 2 = true ∧ (2 : BitVec 3) = tySize 2 ∧
     (0x20000 : Word).toNat % 16 = 0 ∧ (8 : BitVec 5).toNat ≤ 8 ∧ (Instr.cas2 { wM with ty := 7, size := 4 }).wf = true) := by
  decide +kernel

/-- The task beside a barrier object of `count` tasks at which `came` have arrived. -/
def barrierState (spare count came : Nat) (h : Hart) : State :=
  { tiny h with mem := Mem.storeNat (Mem.storeNat (Mem.storeNat {} 0x20000 4 count) 0x20004 4 spare) 0x20008 4 came }

theorem witness_BarriersFencesAndHints :
    (let s := barrierState 0 2 0 toPage
     s.memoryOk = true ∧ s.runs 0 = true ∧ s.me.arrival = none ∧ s.atomicable 0x20000 3 (page 0x20000 2) = true ∧
     s.mem.nat 0x20004 4 = 0 ∧ s.mem.nat 0x20008 4 + 1 < s.mem.nat 0x20000 4 ∧
     (barrierState 0 2 1 toPage).mem.nat 0x20008 4 + 1 = (barrierState 0 2 1 toPage).mem.nat 0x20000 4 ∧
     (barrierState 1 2 1 toPage).mem.nat 0x20004 4 ≠ 0 ∧ (barrierState 0 0 0 toPage).mem.nat 0x20000 4 = 0 ∧
     (barrierState 0 2 2 toPage).mem.nat 0x20000 4 ≤ (barrierState 0 2 2 toPage).mem.nat 0x20008 4) ∧
    (let s (gen : Nat) := barrierState 0 2 1 { toPage with arrival := some (gen, 0) }
     let p := page 0x20000 2
     let u : State := { s 0 with mem := { (s 0).mem with poison := [0x4001] } }
     (s 0).me.arrival = some (0, 0) ∧ (s 1).me.arrival = some (1, 0) ∧ (s 1).memoryOk = true ∧ (s 0).readable 0x20008 8 p = true ∧
     ((s 0).globalFor (s 0).cur).nat 0x2000C 4 = 0 ∧ ((s 1).globalFor (s 1).cur).nat 0x2000C 4 ≠ 1 ∧
     u.maps 0x20008 p = true ∧ p.r = true ∧ u.upsets = [] ∧ u.dieAwake 0x20008 8 = true ∧ u.keyed p.key 0x20008 8 = true ∧
     u.logAt 0x20008 = none ∧ (u.globalFor u.cur).bad 0x20008 8 = true) ∧
    (let s (r w : Bool) := onPage r w toPage
     let e (r w : Bool) := pageEntry 1 1 0x20000 2 r w false
     (s true true).maps 0x20000 (e true true) = true ∧ (e true true).r = true ∧ (s true true).mayPublish = true ∧
     (s false true).maps 0x20000 (e false true) = true ∧ (e false true).r = false ∧
     (s true false).maps 0x20000 (e true false) = true ∧ (e true false).w = false ∧ canonical 0x8000000000000000 = false ∧
     (s true true).streamless = true) ∧
    (let s := { tiny { toPage with stores := [{ cluster := none, bytes := [(0x20100, 7)] }] } with
                detour := { phase := 1, moving := true, pointer := 0x30000 } }
     s.runs 0 = true ∧ s.streamless = true ∧ s.sliceWork = false ∧ s.mayRelease = false) ∧
    (let s : State := { tiny (aHart {}) with cores := [(0, { jobs := [{ id := 1, slot := 0, kind := 2, coff := 0 }] })] }
     s.runs 0 = true ∧ s.streamless = true ∧ s.sliceWork = true) := by decide +kernel

theorem witness_AccessesTrapInOrder :
    (let s := tiny (aHart (scalars [0x20001, 0x8000000000000000, 0x30000]))
     s.runs 0 = true ∧ (4 : BitVec 3).toNat ≤ 4 ∧ (s.getS 1).toNat % 2 ^ (3 : BitVec 3).toNat ≠ 0 ∧ (s.getS 2).toNat % 2 ^ (4 : BitVec 3).toNat = 0 ∧
     canonical (s.getS 2) = false ∧ (s.getS 3).toNat % 2 ^ (4 : BitVec 3).toNat = 0 ∧ canonical (s.getS 3) = true ∧
     s.lookup s.cur (s.asidOf s.cur) (s.getS 3).toNat = none) ∧
    (let s (r w : Bool) := onPage r w toPage
     let e (r w : Bool) := pageEntry 1 1 0x20000 2 r w false
     (s false true).maps 0x20000 (e false true) = true ∧ (e false true).r = false ∧
     (s true false).maps 0x20000 (e true false) = true ∧ (e true false).w = false) ∧
    (let s := tiny (aHart (scalars [0x20000]))
     let u : State := { s with partitions := s.partitions ++ [(2, ({ id := 2, frames := [2] } : Partition))] }
     canonical (u.getS 1) = true ∧ u.firstTlb.find? (·.covers (u.asidOf u.cur) (u.getS 1).toNat) = some (page 0x20000 2) ∧
     u.reaches u.cur ((page 0x20000 2).physical (u.getS 1).toNat) = false) := by decide +kernel

/-! Tiles -/

/-- The small machine with tiles in core 0, and its task with views in w1 and w2. -/
def tiled (t : List Tile) (h : Hart) : State :=
  let s := tiny h
  { s with cores := [(0, { s.core 0 with tiles := .ofFn fun i => t.getD i.val {} })] }

/-- A tile that slot 0 holds, described: rows by K, of a TYPE, as A or as B. -/
def aTile (ty : BitVec 4) (role : Bool) (kext oext : Nat) : Tile := { ty, role, kext, oext, loaded := true, holder := some 0 }

theorem witness_TilesAreClaimedAndDescribed :
    (let free := tiny (aHart (scalars [0xFF]))
     let taken := tiled [{ holder := some 1 }] (aHart (scalars [0xFF]))
     let mixed := tiled [{ holder := some 1 }, { holder := some 0 }] (aHart (scalars [0xFF]))
     free.runs 0 = true ∧
     (List.range 8).all (fun i => (free.myCore.tiles.toList.getD i {}).holder == none) = true ∧
     ((List.range 8).all fun i => (taken.myCore.tiles.toList.getD i {}).holder == none) = false ∧
     ((List.range 8).any fun i => (taken.myCore.tiles.toList.getD i {}).holder == some 0) = false ∧
     ((List.range 8).any fun i => (mixed.myCore.tiles.toList.getD i {}).holder == some 0) = true ∧
     free.myCore.jobs.any (·.slot == 0) = false ∧
     (let s := tiled [aTile 0 false 40 2] { aHart (scalars [2]) with pend := [{ dests := [.t 0 {}], left := 1, doneAt := none }] }
      s.me.pend ≠ [] ∧ (s.me.pend.all fun p => p.dests.all fun x => match x with | .t n _ => (s.getS 1).getLsbD n == false | _ => true) = true)) ∧
    (let s : State := { cores := [(0, { claims := [(2, 0x81), (1, 1)] })] }
     (s.core 0).claims = (2, 0x81) :: [(1, 1)] ∧
     ∀ i : Fin 8, (0x81 : BitVec 8).getLsbD i = true → ((s.core 0).tiles[i]).holder = none) ∧
    (let s : State := { cores := [(0, { claims := [(2, 0x80), (1, 1)], tiles := .ofFn fun i => if i.val = 7 then { holder := some 0 } else {} })] }
     ((s.core 0).tiles[(7 : Fin 8)]).holder ≠ none ∧ (0x80 : BitVec 8).getLsbD 7 = true ∧ (s.core 0).claims[1]? = some (1, 1) ∧
     (∀ i : Fin 8, (1 : BitVec 8).getLsbD i = true → ((s.core 0).tiles[i]).holder = none) ∧
     ∀ older ∈ (s.core 0).claims.take 1, ∀ i < 8, older.2.getLsbD i = true → (1 : BitVec 8).getLsbD i = false) ∧
    (let x : Word := 0x8020000000 + 0x66000
     let s := tiled [{ holder := some 0 }] (aHart (scalars [x, 0x10000000000, 0]))
     s.runs 0 = true ∧ s.me.pend = [] ∧ (0 : BitVec 5).toNat < 8 ∧ s.holds 0 = true ∧ (s.getS 1).extractLsb' 40 24 = 0 ∧
     (s.getS 1).extractLsb' 15 4 = 12#4 ∧ (s.getS 1).getLsbD 14 = true ∧ tileFormat s.reducedService 12 0 = true ∧
     ((s.getS 1).extractLsb' 32 8).toNat = kLimit 12 ∧ ((s.getS 1).extractLsb' 24 8).toNat = 32 ∧ (s.getS 1).getLsbD 13 = true ∧
     (s.getS 2).extractLsb' 40 24 ≠ 0 ∧ tileFormat s.reducedService 0xF 0 = false ∧ s.holds 7 = false ∧ (s.tile 0).kext < 256) := by
  decide +kernel

/-- A matrix of 40 by 2 elements of i8 in the W buffer, K along dimension 0. -/
def matrixView (mode : BitVec 2) : View :=
  { state := .opened, space := 2, base := 0x40, rank := 2, ty := 0, mode, scope := 4
    dims := .ofFn fun i => if i.val = 0 then { ext := 40, lo := 0, stride := 1 } else if i.val = 1 then { ext := 2, lo := 0, stride := 64 } else {} }

/-- The same in f16 with binary32 scales after each row. -/
def scaledView (mode : BitVec 2) : View :=
  { state := .opened, space := 2, base := 0x40, rank := 2, ty := 10, mode, scope := 4
    dims := .ofFn fun i => if i.val = 0 then { ext := 20, lo := 0, stride := 2 } else if i.val = 1 then { ext := 2, lo := 0, stride := 64 } else {}
    scl := some { base := 0x70, block := 4, row := 64, kdim := 0, e8m0 := false } }

/-- The scales of that view. -/
def itsScales : Scale := { base := 0x70, block := 4, row := 64, kdim := 0, e8m0 := false }

/-- Tiles 0, 1 and 2 are the slot's, and the two views stand in w1 and w2. -/
def moving : State :=
  tiled [aTile 0 false 40 2, { holder := some 0 }, { aTile 10 false 20 2 with scaled := true }] (viewHart (matrixView 2) (scaledView 2) {})

theorem witness_TilesMoveThroughViews :
    (let any : TlbEntry := ⟨0, 0⟩
     let s := moving
     let v := s.getW 1
     s.memoryOk = true ∧ s.runs 0 = true ∧ s.orderFree = true ∧ s.holds 0 = true ∧ v.live = true ∧ v.space = 2 ∧ v.rank ≤ 2 ∧
     tileFormat s.reducedService v.ty v.b8 = true ∧ extentsFit v.ty false 40 2 = true ∧
     (∀ r < 2, ∀ k < 40, s.elementReady v (k + 40 * r) any false = true) ∧ v.scl = none ∧
     (s.tile 0).loaded = true ∧ v.mode ≠ 1 ∧ v.count = 40 * 2 ∧ (s.tile 0).kext * (s.tile 0).oext ≠ 0 ∧
     (∀ r < 2, ∀ k < 40, s.elementOk v.space (v.elementAt (k + 40 * r)).1 v.elemBytes = true) ∧
     s.myCore.sliceBusy s.now (hartSlot s.cur) 0 65536 = false ∧ s.holds 1 = true ∧ extentsFit 0 false 2 40 = true) := by decide +kernel

theorem witness_TilesMoveWithScales :
    (let s := moving
     let u := s.getW 2
     u.live = true ∧ u.scl = some itsScales ∧ View.scalable u.ty = true ∧ extentsFit 10 true 20 2 = true ∧
     (∀ r < 2, ∀ k < 20, s.elementReady u (k + 20 * r) ⟨0, 0⟩ false = true) ∧ (s.tile 2).scaled = true ∧ u.count = 20 * 2) ∧
    (∀ r : Fin 2, moving.elementOk 2 ((moving.getW 2).scaleAddress itsScales [0, (r.val : Int)]) 4 = true ∧ (moving.getW 2).packed = false ∧
      moving.myCore.w.bad ((moving.getW 2).scaleAddress itsScales [0, (r.val : Int)]).toNat 4 = false) ∧
    (∀ r : Fin 2, moving.localReady 2 ((moving.getW 2).scaleAddress itsScales [0, (r.val : Int)]).toNat 4 = true) := by decide +kernel

theorem witness_tst_finds_every_bank_awake : ∀ off, moving.awake (moving.bankOf (moving.getW 1).space off) = true := fun _ => rfl

theorem witness_MatrixInstructionsAndElementReads :
    (let s (a b : Tile) := tiled [a, b] (aHart {})
     let good := s (aTile 0 false 40 2) (aTile 4 true 40 3)
     good.runs 0 = true ∧ good.holds 0 = true ∧ good.holds 1 = true ∧ good.holds 2 = false ∧
     (let a := good.tile 0
      let b := good.tile 1
      (a.loaded && b.loaded && !a.role && b.role && a.kext == b.kext) = true) ∧ good.orderFree = true ∧
     good.awake (.typed (hartCore good.cur) 4 0) = true ∧
     ((s (aTile 8 false 4 2) (aTile 8 true 4 3)).tile 0).ty = 8 ∧
     ((s (aTile 0 false 40 2) (aTile 0 true 39 3)).tile 0).kext ≠ ((s (aTile 0 false 40 2) (aTile 0 true 39 3)).tile 1).kext ∧
     ((s (aTile 0 false 40 2) (aTile 12 true 40 3)).tile 1).ty = 12) ∧
    (let s := tiny (aHart {})
     s.unbound 3 = true ∧ s.localReady 4 (1023 * 64) 64 = true ∧ s.myCore.c.bad (1023 * 64) 64 = false ∧
     (Instr.cread { wT with fn := 6, ty := 9, coff := 1023, d := 3 }).wf = true) := by decide +kernel

/-- A matrix job of slot 0, and behind it one of slot 3 at the end of the C buffer. -/
def job0 : SliceJob := { id := 1, slot := 0, kind := 0, coff := 0, a := aTile 0 false 2 2, b := aTile 0 true 2 2 }
def job3 : SliceJob :=
  { id := 2, slot := 3, kind := 0, coff := 896, a := { aTile 0 false 40 64 with codes := [((63, 39), 255)] }
    b := { aTile 4 true 40 32 with codes := [((31, 39), 255)] } }

theorem witness_TheSliceAndGangsSum :
    (let s (l : List SliceJob) : State :=
       { clock := 9, cores := [(0, { jobs := l, slice := some { slot := 0, lo := 0, hi := 8192, doneAt := 9 } })] }
     (s [job0, job3]).memoryOk = true ∧ ((s [job0, job3]).core 0).jobs = [job0] ++ job3 :: [] ∧ (∀ q ∈ [job0] ++ [], q.id ≠ job3.id) ∧
     (∀ q ∈ [job0], q.slot ≠ 3) ∧ job3.slot = 3 ∧ decide (9 ≤ (s [job0]).now) = true ∧ job3.kind = 0 ∧ job3.a.oext ≤ 64 ∧ job3.b.oext ≤ 32 ∧
     ((s [job0]).core 0).jobs = [] ++ job0 :: [] ∧ (∀ q ∈ [] ++ job0 :: [], q.slot ≠ 3)) ∧
    (let m : Arrival := { member := 7, a := aTile 0 false 40 64, b := aTile 0 true 40 32, coff := 1008, z := true, wrap := true, nf := false }
     Mem.wf {} = true ∧ m.a.ty = 0 ∧ m.wrap = true ∧ m.b.oext ≤ 32) := by decide +kernel

/-- Gang 4 with the slots of row 0, of which members have arrived. -/
def aGang (arrived : List Nat) : Gang :=
  { cluster := 0, row := 0, slots := (List.range 8).map fun m => (m, 0), limit := 1024
    arrived := arrived.map fun m => { member := m, a := aTile 0 false 40 64, b := aTile 0 true 40 32, coff := 0, z := true, wrap := false, nf := false } }

/-- Member 7 of gang 4. -/
def gangState (g : Gang) (t : Task) : State :=
  { tiled [aTile 0 false 40 64, aTile 0 true 40 32] { aHart {} with task := some t } with gangs := [(4, g)] }

theorem witness_GangsMultiplyTogether :
    (let task : Task := { aTask with gang := some 4, desc := { aTask.desc with lo := 7, kind := 2 } }
     let s := gangState (aGang [0, 1, 2, 3, 4, 5, 6]) task
     s.runs 0 = true ∧ s.me.task = some task ∧ s.holds 0 = true ∧ s.holds 1 = true ∧
     (let a := s.tile 0
      let b := s.tile 1
      (a.loaded && b.loaded && !a.role && b.role && a.kext == b.kext && a.ty != 8 && (a.ty == b.ty) && !wT.wrap) = true) ∧
     aTask.gang = none ∧ task.gang = some 4 ∧ s.gangs.find 4 = some (aGang [0, 1, 2, 3, 4, 5, 6]) ∧
     (aGang [0, 1, 2, 3, 4, 5, 6]).arrived.length = 7 ∧ (aGang []).arrived.length < 7 ∧
     (∀ n < 8, n ∈ (aGang [0, 1, 2, 3, 4, 5, 6]).arrived.map Arrival.member ++ [7]) ∧
     (aGang []).results.find? (fun (r : GangResult) => r.member == 7) = none ∧ (aGang [7]).arrived.any (fun (r : Arrival) => r.member == 7) = true ∧
     ({ aGang [] with timedOut := some 0 }).timedOut = some task.episode ∧ ({ aGang [] with broken := true }).broken = true ∧
     ({ aGang [] with results := [{ member := 7, status := 4 }] }).results.find? (fun (r : GangResult) => r.member == 7) = some { member := 7, status := 4 } ∧
     s.orderFree = true ∧ s.awake (.typed (hartCore s.cur) 4 0) = true ∧ s.myCore.sliceBusy s.now (hartSlot s.cur) 0 1024 = false) ∧
    (let s : State := { clock := 1023, gangs := [(4, aGang [1])] }
     s.gangs.find 4 = some (aGang [1]) ∧ (aGang [1]).arrived ≠ [] ∧ s.now < (aGang [1]).since + (aGang [1]).limit ∧
     (aGang [1]).since + (aGang [1]).limit ≤ s.now + 1 ∧ (aGang []).arrived = []) := by decide +kernel

/-! Views and streams -/

/-- A view that is set and not open. -/
def setView (space : BitVec 3) (base : Word) : View := { aView space base 2 0 with state := .set, mode := 0, scope := 0 }

/-- A set view of an S region. -/
def regionView (name size : Word) : View := { aView 5 0x999 2 0 with state := .set, scope := 0, sreg := some (name, size) }

theorem witness_ViewsAreDescribedAndTested :
    (let s := tiny (viewHart (aView 0 0x20000 2 1) (setView 0 0x20000) (scalars [0, 20]))
     s.runs 0 = true ∧ (s.getW 1).live = true ∧ (s.getW 2).live = false ∧ (s.getW 3).live = false ∧ (s.getW 3).state = .empty ∧
     (s.getW 2).state = .set ∧ (0 : Nat) < 4 ∧ (s.getW 1).state ≠ .empty ∧ 0 < (s.getW 1).rank ∧ (0 : Int) ≤ (s.getS 1).toInt ∧
     1 ≤ (s.getS 2).toInt ∧ (s.getS 1).toInt + (s.getS 2).toInt ≤ ((s.getW 1).dims.toList.getD 0 {}).ext ∧
     ¬ (1 < (s.getW 1).rank) ∧ (s.getW 1).sreg = none) ∧
    (let v := aView 0 0x20000 2 1
     let w := aView 0 0x20050 2 1
     v.span.1 < v.span.2 ∧ ¬ (w.span.1 < v.span.2) ∧ v.base = (setView 0 0x20000).base ∧ ({ v with state := .wide }).state = .wide) := by
  decide +kernel

theorem witness_EveryElementLiesInTheSpan :
    (∀ d : Fin 4, 1 ≤ ((matrixView 1).dims[d]).ext) ∧ 79 < (matrixView 1).count ∧ ¬ 80 < (matrixView 1).count := by decide +kernel

theorem witness_ViewsOpenAndRetire :
    (let s := tiny (viewHart (aView 0 0x20000 2 1) (setView 0 0x20000) {})
     s.runs 0 = true ∧ (s.getW 1).state ≠ .set ∧ (s.getW 2).state = .set ∧ (s.getW 2).sreg = none ∧ (s.getW 2).aligned = true ∧
     (s.getW 2).formed = true ∧ (setView 0 0x20001).aligned = false ∧ ({ setView 0 0x20000 with rank := 0 }).aligned = true ∧
     ({ setView 0 0x20000 with rank := 0 }).formed = false ∧ (s.getW 1).live = true ∧ (s.getW 2).live = false ∧ (s.getW 1).sreg = none ∧
     s.mayPublish = true ∧ (s.getW 1).stream = none ∧ (1 : BitVec 5).toNat < 16 ∧ (∀ c ∈ s.me.queue, c.dstReg ≠ 1)) ∧
    (let s := tiny { viewHart (aView 0 0x20000 2 1) {} {} with
                     queue := [{ id := 1, word := 0, op := .cpy, state := .queued, dst := {}, dstReg := 1 }] }
     s.runs 0 = true ∧ ∃ c ∈ s.me.queue, c.dstReg = (1 : BitVec 5).toNat) := by decide +kernel

/-- Core 0 with S regions. -/
def regioned (l : List SRegion) (v : View) : State :=
  let s := tiny (viewHart v {} {})
  { s with cores := [(0, { s.core 0 with sregions := l })] }

theorem witness_RegionViewsOpenAndRetire :
    (let s := regioned [] (regionView 7 4096)
     s.runs 0 = true ∧ (s.getW 1).state = .set ∧ (s.getW 1).sreg = some (7, 4096) ∧ ({ s.getW 1 with base := 0 } : View).aligned = true ∧
     ({ s.getW 1 with base := 0 } : View).formed = true ∧ (7 : Word) ≠ 0 ∧ (4096 : Word).toNat % 4096 = 0 ∧ 4096 ≤ (4096 : Word).toNat ∧
     (65536 : Word).toNat ≤ 65536 ∧ s.awake (.typed 0 5 0) = true ∧ s.myCore.sregions.find? (·.name == 7) = none ∧
     s.myCore.sregions.length < 16 ∧ s.memoryOk = true ∧ (4095 : Word).toNat % 4096 ≠ 0) ∧
    (let r (freeing : Bool) (size : Nat) : SRegion := { name := 7, offset := 0, size, holders := [.slot 0 1], freeing }
     (regioned [r true 4096] {}).myCore.sregions.find? (fun q => q.name == 7) = some (r true 4096) ∧
     (regioned [r false 4096] {}).myCore.sregions.find? (fun q => q.name == 7) = some (r false 4096) ∧ (r false 8192).size ≠ 4096 ∧
     (let s := regioned [r false 65536] (regionView 8 4096)
      s.myCore.sregions.find? (fun q => q.name == 8) = none ∧ ∀ r ∈ s.myCore.sregions, r.offset = 0 ∧ r.size = 65536)) ∧
    (let s := regioned [{ name := 7, offset := 0, size := 4096, holders := [.slot 0 0] }] { regionView 7 4096 with state := .opened, base := 0, mode := 1 }
     s.runs 0 = true ∧ (s.getW 1).live = true ∧ (s.getW 1).sreg.isSome = true ∧ s.mayPublish = true ∧ s.me.queue = []) := by decide +kernel

/-- A hart with v24 bound to the view in w1. -/
def streamHart (v : View) (st : Stream) : Hart := { aHart {} with regs := ((scalars []).setW 1 { v with stream := some 24 }).setStream 0 (some st) }

theorem witness_StreamsBindPopAndPush :
    (let s := tiny (viewHart (aView 0 0x20000 2 1) (setView 0 0x20000) {})
     s.runs 0 = true ∧ 24 ≤ (24 : BitVec 5).toNat ∧ (1 : BitVec 5).toNat < 16 ∧ (s.getW 1).live = true ∧ s.unbound 24 = true ∧
     (s.getW 1).stream = none ∧ (s.getW 2).live = false) ∧
    (let st : Stream := { view := 1, output := false, entries := [(0, 5)] }
     let s := tiny (streamHart (aView 0 0x20000 2 1) st)
     s.runs 0 = true ∧ s.me.regs.stream ((24 : BitVec 5).setWidth 3) = some st ∧ s.streamOf 24 = some st ∧ st.output = false ∧
     s.unbound 3 = true ∧ st.view < 16 ∧ s.unbound 24 = false ∧ (s.getW 1).stream ≠ none) ∧
    (let s := tiny (viewHart { aView 0 0x20000 2 1 with stream := some 25 } {} {})
     s.runs 0 = true ∧ (s.getW 1).live = true ∧ s.unbound 24 = true ∧ (s.getW 1).stream ≠ none) ∧
    (let st : Stream := { view := 1, output := true, entries := [(1, 9)], pos := 2 }
     let s := tiny (streamHart (aView 0 0x20000 2 2) st)
     let w := s.me.streamView st
     s.runs 0 = true ∧ s.me.regs.stream ((24 : BitVec 5).setWidth 3) = some st ∧ st.output = true ∧ st.entries = [(1, 9)] ∧ s.memoryOk = true ∧
     s.me.queue = [] ∧ (∀ j : BitVec 3, j ≠ 0 → s.me.regs.stream j = none) ∧ w.space.toNat ≤ 5 ∧ w.width ≠ 0 ∧
     ∀ l ∈ w.entryIndices 1, s.elementReady w l (page 0x20000 2) true = true) ∧
    (let st : Stream := { view := 1, output := false, pos := 2 }
     let s := tiny (streamHart (aView 0 0x20000 2 1) st)
     s.streamOf 24 = some st ∧ (s.me.streamView st).count ≤ st.pos * (s.me.streamView st).perEntry) ∧
    (let st : Stream := { view := 1, output := true, pos := 1 }
     let s := tiny (streamHart (aView 0 0x20000 2 2) st)
     s.runs 0 = true ∧ s.streamOf 24 = some st ∧ st.output = true ∧ s.unbound 1 = true ∧ st.ended = false ∧
     st.pos * (s.me.streamView st).perEntry < (s.me.streamView st).count ∧
     (∀ l ∈ (s.me.streamView st).entryIndices st.pos, s.elementReady (s.me.streamView st) l (page 0x20000 2) true = true)) := by
  decide +kernel

/-- A hart with v24 bound to an input or an output, and results of instructions that name it. -/
theorem witness_vectors_through_streams :
    (let st : Stream := { view := 1, output := false, entries := [(2, 5)], pos := 2 }
     let s := tiny (streamHart (aView 0 0x20000 2 1) st)
     let q := (s.modMe fun h => { h with regs := h.regs.setStream 0 none }).setV 24 5
     s.streamOf 24 = some st ∧ st.output = false ∧ st.entries = (2, 5) :: [] ∧ s.runs 0 = true ∧ s.unbound 3 = true ∧ s.unbound 2 = true ∧
     nextWith (exec (.vadd { wA with ty := 2, a := 24, b := 2, d := 3 }) q) (fun _ => true) = true ∧
     nextWith (exec (.vred { wA with ty := 2, a := 24, d := 3 }) q) (fun _ => true) = true) ∧
    (let st : Stream := { view := 1, output := false, pos := 2, ended := true }
     (tiny (streamHart (aView 0 0x20000 2 1) st)).streamOf 24 = some st ∧ st.entries = [] ∧ st.ended = true) ∧
    (let st : Stream := { view := 1, output := true, pos := 1 }
     let s := tiny (streamHart (aView 0 0x20000 2 2) st)
     let q := (s.modMe fun h => { h with regs := h.regs.setStream 0 none }).setV 24 0
     s.streamOf 24 = some st ∧ s.unbound 1 = true ∧ s.unbound 2 = true ∧ s.runs 0 = true ∧
     (∀ l ∈ (s.me.streamView st).entryIndices st.pos, s.elementReady (s.me.streamView st) l (page 0x20000 2) true = true) ∧
     same (exec (.vadd { wA with ty := 2, a := 1, b := 2, d := 24 }) q) (.next ((q.setV 24 0).addFlags (0, 0)).advance) = true ∧
     same (exec (.vred { wA with ty := 2, a := 1, d := 24 }) q) (.next (q.later 0 6 [.v 24 0] (0, 0) true).advance) = true) := by
  decide +kernel

/-- The same with a memory instruction that names it. -/
theorem witness_memory_through_streams :
    (let st : Stream := { view := 1, output := false, entries := [(2, 5)], pos := 2 }
     let s := tiny (streamHart { aView 0 0x20000 2 1 with stream := some 24 } st)
     let q := (s.modMe fun h => { h with regs := (h.regs.setStream 0 none).setS 1 0x20000 }).setV 24 5
     nextWith (exec (.vst { wM with size := 6, ty := 2, a := 1, b := 24 }) q) (fun t => t.me.stores.length == 1) = true ∧
     nextWith (exec (.vbst { wM with size := 6, scope := 4, ty := 2, a := 2, b := 24 }) q) (fun t => t.me.pc == q.me.advance.pc) = true) ∧
    (let st : Stream := { view := 1, output := true, pos := 1 }
     let s := tiny (streamHart (aView 0 0x20000 2 2) st)
     let q := (s.modMe fun h => { h with regs := (h.regs.setStream 0 none).setS 1 0x20000 }).setV 24 0
     nextWith (exec (.vld { wM with size := 6, ty := 2, a := 1, d := 24 }) q)
       (fun t => t.me.pend.map (·.dests) == [[.v 24 0]]) = true) := by decide +kernel

theorem witness_StreamUnitsFillAndDrain :
    (let st : Stream := { view := 1, output := false }
     let s := tiny (streamHart (aView 0 0x20000 2 1) st)
     let h : HartId := .slot 0 0
     s.memoryOk = true ∧ (s.hart h).regs.stream 0 = some st ∧ (s.hart h).queue = [] ∧
     (∀ j : BitVec 3, j ≠ 0 → (s.hart h).regs.stream j = none) ∧ st.ended = false ∧ st.entries.length < 8 ∧
     ((s.hart h).streamView st).width = 32 ∧ 1 * 16 < ((s.hart h).streamView st).count ∧
     (∀ l < 20, (s.on h).elementReady ((s.hart h).streamView st) l (page 0x20000 2) false = true)) ∧
    (let st : Stream := { view := 1, output := true, entries := [(1, 9)], pos := 2 }
     let s := tiny (streamHart (aView 0 0x20000 2 2) st)
     let h : HartId := .slot 0 0
     s.memoryOk = true ∧ (s.hart h).regs.stream 0 = some st ∧ st.entries = (1, 9) :: [] ∧ ((s.hart h).streamView st).space.toNat ≤ 5 ∧
     ((s.hart h).streamView st).width ≠ 0 ∧
     (∀ l < 20, (s.on h).elementReady ((s.hart h).streamView st) l (page 0x20000 2) true = true)) ∧
    (let s := tiny (streamHart (aView 0 0x40000 2 1) { view := 1, output := false })
     (BitVec.ofInt 64 ((aView 0 0x40000 2 1).elementAt 0).1).toNat % 4 = 0 ∧
     s.lookup (.slot 0 0) ((s.on (.slot 0 0)).asidOf (.slot 0 0)) (BitVec.ofInt 64 ((aView 0 0x40000 2 1).elementAt 0).1).toNat = none ∧
     (aView 0 0x40000 2 1).entryIndices 0 ≠ []) := by decide +kernel

/-! Guards, privilege and engine commands -/

/-- A hart with guard 1 false, and one with guard 1 unresolved. -/
def falseGuard : State := tiny (aHart {})
def openGuard : State := tiny (guardHart true 0)

theorem witness_GuardedInstructionsWaitOrPass :
    guardField (.add { wA with gd := 1 }) = some 1 ∧ guardField (.cpy { wE with gd := 1 }) = some 1 ∧
    openGuard.privileged (.add { wA with gd := 1 }) = true ∧ openGuard.guardOpen 1 = true ∧ isCommand (.add { wA with gd := 1 }) = false ∧
    falseGuard.guardOpen 1 = false ∧ falseGuard.me.regs.guard 1 = false ∧ falseGuard.privileged (.add { wA with gd := 1 }) = true ∧
    isCommand (.cpy { wE with gd := 1 }) = true ∧ openGuard.me.queue.length < 16 ∧ openGuard.privileged (.cpy { wE with gd := 1 }) = true := by
  decide +kernel

theorem witness_PrivilegeComesFirst :
    (tiny (aHart {})).privileged (.halt wS) = false ∧ (tiny (aHart {})).privileged (.ctrlr { wS with sel := 0x100 }) = false ∧
    (tscState 0 {}).privileged (.qsave wS) = false ∧ (tiny (aHart {})).firmwareCore = false ∧ (tiny (aHart {})).update = .running ∧ (tiny (aHart {})).cur = .slot 0 0 := by decide +kernel

/-- A row of twenty bytes of a buffer. -/
def bufView (space : BitVec 3) (base : Word) (mode : BitVec 2) : View := aView space base 0 mode

/-- A command of the task between two buffers. -/
def aCommand (st : CommandState) (op : CommandOp) : Command :=
  { id := 5, word := 0xB0, op, state := st, dst := bufView 2 0 2, src := bufView 3 0x100 1, dstReg := 1, tag := 63, launch := 1, asid := 1, part := 1 }

theorem witness_CommandsEnterTheirQueue :
    (let s := tiny (viewHart (bufView 2 0 2) (bufView 3 0x100 1) (scalars [0x20000, 0x20001]))
     let c (op : CommandOp) : Command := { aCommand .queued op with dst := s.getW 1, src := s.getW 2 }
     s.runs 0 = true ∧ s.me.queue.length < 16 ∧ (∀ v ∈ [s.getW 1, s.getW 2], v.state ≠ .empty ∧ v.live = true) ∧
     (s.getW 1).mode ≠ 1 ∧ (s.getW 2).live = true ∧ (s.getW 2).mode = 1 ∧ (c .cpy).agrees = true ∧ (c (.coll 0)).agrees = false ∧
     ((s.getS 1).toNat % 8 == 0) = true ∧ ((s.getS 2).toNat % 8 == 0) = false ∧ (s.getW 3).state = .empty ∧
     (setView 0 0x20000).state ≠ .empty ∧ (setView 0 0x20000).live = false ∧ (setView 0 0x20000).aligned = true ∧
     (setView 0 0x20000).formed = true ∧ s.launch 1 1 = some { id := 1, born := 3 } ∧
     16 ≤ (tiny { aHart {} with queue := List.replicate 16 (aCommand .queued .cpy) }).me.queue.length) ∧
    (let c := aCommand (.held 1) (.cpys true)
     let s := { tiny { guardHart true 4 with queue := [c] } with clock := 5 }
     4 < s.now ∧ (s.hart (.slot 0 0)).unres = [{ guard := (1 : BitVec 3).toNat, value := true, issued := 4 }] ∧
     (s.hart (.slot 0 0)).queue = [c] ∧ (∀ v ∈ c.named, v.live = true) ∧ c.dst.mode ≠ 1 ∧ c.agrees = true ∧
     (c.aux.toNat % 8 == 0) = true) := by decide +kernel

/-- The task with commands in its queue. -/
def commanded (l : List Command) : State := tiny { aHart {} with queue := l }

/-- Partition 1 with a message-fed mailbox 3, of the handle below. -/
def boxed (st : MbxState) (s : State) : State :=
  let m : Mailbox := { state := st, gen := 1, messageFed := true, object := 5, entry := 0x10008, asid := 1 }
  s.setPartition 1 { s.partition 1 with mailboxes := [(3, { m with filled := if st == .held then [0] else [] })] }
def boxHandle : Word := 0x100000003

theorem witness_EnginesCompleteAndTagsWait :
    (let k : Command := { aCommand .kicked .cpy with id := 4 }
     let c := aCommand .queued .cpy
     let s := commanded [k, c]
     (s.hart (.slot 0 0)).queue = [k] ++ c :: [] ∧ (∀ q ∈ [k], q.state = .kicked ∧ q.id ≠ c.id) ∧ c.status = none ∧ s.mayRun c = true ∧
     (s.hart (.slot 0 0)).parked = none ∧ (s.on (.slot 0 0)).mayPublish = true ∧ c.op = .cpy) ∧
    (let c := aCommand .kicked .cpy
     let s := commanded [c]
     s.memoryOk = true ∧ (s.hart (.slot 0 0)).parked = none ∧ (s.hart (.slot 0 0)).queue[0]? = some c ∧ c.status = none ∧ s.mayRun c = true ∧
     s.engineOrder (.hart (.slot 0 0)) c = true ∧ c.done < c.granules ∧ c.dst.scl = none ∧ c.src.scl = none ∧ c.dst.space.toNat ≤ 5 ∧
     c.dst.ty ≠ 15 ∧ c.dst.width = c.src.width ∧ c.done + 1 = c.granules ∧ c.flits = 0 ∧ c.mbx = none ∧ c.tag < 64) ∧
    (let wide (v : View) : View := { v with dims := v.dims.set 0 { ext := 20000, lo := 0, stride := 1 } }
     let c : Command := { aCommand .kicked (.cfill 7) with split := 1, dst := wide (bufView 2 0 2) }
     c.done + 1 < c.granules ∧ c.op = .cfill 7) := by decide +kernel

/-- An engine's access to one byte of the W or the A buffer finds its place there, whichever banks and lines have been used. -/
theorem buffer_place (c : Command) (v : View) (write : Bool) (a : Nat) (busy : Table Bank Nat) (used : Table Nat Nat) (hc : c.core = 0)
    (hv : v.space = 2 ∨ v.space = 3) (ha : a < 65536) :
    ∃ busy', State.enginePlace { commanded [c] with bankUse := busy, lineUse := used } (.hart (.slot 0 0)) c v a 1 write =
      .ok (a, none) { commanded [c] with bankUse := busy', lineUse := used } := by
  have hd : a / 65536 = 0 := Nat.div_eq_of_lt ha
  refine ⟨Table.set busy (.typed 0 v.space 0) (commanded [c]).clock, ?_⟩
  unfold State.enginePlace
  rcases hv with h | h <;> rw [h, hc, if_neg (by decide), if_neg (by simp [spaceSize]; omega), if_neg (by decide)] <;>
    simp only [Int.toNat_natCast, hd] <;> rfl

/-- The places of the elements of its views. -/
theorem witness_granule_places :
    (let c := aCommand .kicked .cpy
     c.core = 0 ∧ c.dst.space = 2 ∧ c.src.space = 3 ∧ c.dst.elemBytes = 1 ∧ c.src.elemBytes = 1 ∧ (c.dst.space = 0 → False) ∧
     ∀ l < 20, (c.dst.elementAt l).1 = (l : Nat) ∧ (c.src.elementAt l).1 = (0x100 + l : Nat)) := by decide +kernel

/-- A copy inside one buffer: source element 0 lies where element 4 goes, and source element 16 meets no destination. -/
theorem witness_overlapping_copy :
    (let c : Command := { aCommand .kicked .cpy with src := bufView 2 4 1 }
     let s := commanded [c]
     (c.op == .cpy && c.src.space == c.dst.space) = true ∧ c.dst.packed = false ∧ c.dst.elemBytes = 1 ∧ c.dst.count = 20 ∧
     s.engineOrder (.hart (.slot 0 0)) c = true ∧ c.core = 0 ∧ c.src.space = 2 ∧
     ∀ l < 20, (c.dst.elementAt l).1 = (l : Nat) ∧ (c.src.elementAt l).1 = (4 + l : Nat)) := by decide +kernel

/-- The task's fill of twenty bytes of global memory whose page lies on package 1. -/
def awayFill : Command := { aCommand .kicked (.cfill 7) with dst := { aView 0 0x20000 0 2 with scope := 5 }, scope := 5 }
def awayState : State := { commanded [awayFill] with node := 0, present := [0, 1], remote := [(2, 1, 9)]
                                                     clusters := [(0, { owner := 1, tlb := [page 0x20000 2] })] }

theorem witness_a_fill_leaves_the_package :
    (let s := awayState
     let c := awayFill
     (s.hart (.slot 0 0)).parked = none ∧ (s.hart (.slot 0 0)).queue[0]? = some c ∧ c.status = none ∧ s.mayRun c = true ∧
     s.engineOrder (.hart (.slot 0 0)) c = true ∧ c.done < c.granules ∧ c.dst.space = 0 ∧ c.dst.packed = false ∧ s.upsets = [] ∧
     min c.granuleElements (c.dst.count - c.done * c.granuleElements) = 20 ∧
     ∀ l < 20, (match s.enginePlace (.hart (.slot 0 0)) c c.dst (c.dst.elementAt l).1 1 true with
         | .ok a t => a == (0x20000 + l, some 1) && t == s | _ => false) = true ∧
       s.keyed 1 (0x20000 + l) 1 = true ∧ (s.remoteAt (0x20000 + l)).isSome = true) := by decide +kernel

theorem witness_CompletionsAndTags :
    (let c : Command := { aCommand .kicked .cpy with status := some 0, mbx := some boxHandle }
     let body := leBytes 8 c.word.toNat ++ [BitVec.ofNat 8 0, 0, 0, 0] ++ leBytes 4 c.launch ++ leBytes 8 c.bytes ++ List.replicate 32 0
     c.away = false ∧ (boxed .armed (commanded [c])).isSaved c.part = false ∧ ((boxed .armed (commanded [c])).hart (.slot 0 0)).parked = none ∧
     ((boxed .armed (commanded [c])).hart (.slot 0 0)).queue[0]? = some c ∧ ((boxed .armed (commanded [c])).deliver 1 boxHandle body).2 = 0 ∧
     (((boxed .armed (commanded [c])).deliver 1 boxHandle body).1.hart (.slot 0 0)).queue = [c] ∧
     ((boxed .held (commanded [c])).deliver 1 boxHandle body).2 = 1) ∧
    (let s (done : Word) := tiny { aHart (scalars [0x8000000000000001]) with tagdone := done, tagfail := [(63, 2)] }
     let m := (s 0).getS 1 ||| ((0 : BitVec 32).setWidth 64 <<< (32 * 0))
     (s 0).runs 0 = true ∧ (1 : BitVec 5).toNat < 2 ∧ (s 1).me.tagdone &&& m ≠ m ∧ (s m).me.tagdone &&& m = m ∧ (s 0).me.tagdone &&& m = 0 ∧
     ((s 1).me.tagdone &&& m).getLsbD 0 = true ∧ (s 1).me.tagfail.find 0 = none ∧ (s m).me.tagfail.find 63 = some 2 ∧
     (∀ j < 63, ((s m).me.tagdone &&& m).getLsbD j = true → ((s m).me.tagfail.find j).isSome = false) ∧
     ((s m).me.tagdone &&& m).getLsbD 63 = true ∧ (∀ j < 63, ((s (m - 1)).me.tagdone &&& m).getLsbD j = false)) := by decide +kernel

/-! Tasks -/

/-- The small machine whose partition has a quota. -/
def quotaState (q : Nat) (h : Hart) : State := (tiny h).setPartition 1 { aPart with quota := q }

theorem witness_TasksAreCreatedAndPushed :
    (let s := quotaState 64 (aHart (scalars [0x20000, 0, 2, 0x100000001, 0x100000000]))
     let full := quotaState 0 (aHart (scalars [0x20000]))
     let deep := quotaState 0 { aHart {} with regs := { scalars [0x20000] with inline := List.replicate 16 { ret := 0 } } }
     s.runs 0 = true ∧ s.mayPublish = true ∧ (s.getS 1).toNat % 8 = 0 ∧ s.atomicable (s.getS 1) 0 (page 0x20000 2) = true ∧
     s.getS 2 = 0 ∧ s.maps (s.getS 2) (page 0x20000 2) = false ∧ s.pending 1 + 64 ≤ s.myPart.quota ∧ ¬ (s.pending 1 + 65 ≤ s.myPart.quota) ∧
     ¬ (full.pending 1 + 1 ≤ full.myPart.quota) ∧ full.me.regs.inline.length < 16 ∧ 16 ≤ deep.me.regs.inline.length ∧
     (s.getS 3).toNat ≤ 2 ^ 32 ∧ 1 ≤ (s.getS 3).toNat ∧ 2 ^ 32 < (s.getS 4).toNat ∧ (s.getS 5).toNat ≤ 2 ^ 32 ∧
     s.myCluster.gangs.length < 16) ∧
    (let s := { tiny (aHart (scalars [0x20000])) with cores := [(0, { tlb := [page 0x20000 2, page 0 3] })] }
     s.maps 0 (page 0 3) = true ∧ (page 0 3).w = true) ∧
    (let s := tiny (aHart {})
     ∀ i : Fin 8, (s.core (24 + i.val)).quarantined = false) ∧
    (let dead (c : Core) : Core := { c with quarantined := true }
     let s := { tiny (aHart {}) with cores := (List.range 4).map fun r => (8 * r + 7, dead {}) }
     ∀ r < 4, (s.core (8 * r + 7)).quarantined = true) ∧
    (let s := quotaState 64 (aHart (scalars [0x20000]))
     s.maps 0x20000 (page 0x20000 2) = true ∧ (s.drainAll s.cur).atomicable 0x20000 0 (page 0x20000 2) = true) ∧
    (aTask.desc.launch < 2 ^ 32 ∧ aTask.desc.kind < 256 ∧ aTask.desc.glade ≤ 4 ∧ aTask.desc.lo < 2 ^ 64 ∧ aTask.desc.hi < 2 ^ 64) ∧
    16 ≤ (List.replicate 16 ({ members := [] } : GangWait)).length := by decide +kernel

theorem witness_JoinSendAndQinfo :
    (let s (q : Nat) := quotaState q (aHart (scalars [0x20000, boxHandle]))
     (s 64).runs 0 = true ∧ (s 64).mayPublish = true ∧ ((s 64).getS 1).toNat % 8 = 0 ∧ (s 64).maps ((s 64).getS 1) (page 0x20000 2) = true ∧
     (page 0x20000 2).w = true ∧ (s 64).upsets = [] ∧ ((s 64).globalFor (s 64).cur).bad 0x20000 8 = false ∧
     (s 64).keyed (page 0x20000 2).key 0x20000 8 = true ∧ (s 64).dieAwake 0x20000 8 = true ∧ ((s 64).drainAll (s 64).cur).keyed (page 0x20000 2).key 0x20000 8 = true ∧ ((s 64).partition 1).joins.length < ((s 64).partition 1).quota / 4 ∧
     ((s 3).partition 1).quota / 4 ≤ ((s 3).partition 1).joins.length ∧ ((s 64).drainAll (.slot 0 0)).mem.nat 0x20000 8 = 0 ∧
     ({ s 64 with mem := Mem.storeNat {} 0x20000 8 1 }).mem.nat 0x20000 8 ≠ 0 ∧
     (s 64).unbound 5 = true ∧ (s 64).me.answer = none ∧ (s 64).me.sent = false ∧ (((s 64).getS 2).extractLsb' 48 10).toNat = (s 64).node ∧
     ((boxed .armed (s 64)).deliver 1 boxHandle []).2 = 0 ∧ ((boxed .held (s 64)).deliver 1 boxHandle []).2 = 1 ∧
     ((s 64).deliver 1 boxHandle []).2 = 2 ∧ ((boxed .faulted (s 64)).deliver 1 boxHandle []).2 = 3) ∧
    (let d : Descriptor := { counter := 0x20000 }
     let s := (tiny (aHart {})).setPartition 1 { aPart with joins := [{ counter := 0x20000, pa := 0x20000, desc := d }] }
     ∃ j ∈ (s.partition 1).joins, j.pa = 0x20000) := by decide +kernel

/-- Core 0 with work and an empty slot 1. -/
def working (l : List Work) : State :=
  let s := tiny (aHart {})
  { s with cores := [(0, { s.core 0 with dequeN := l })] }

/-- A range of two of the task's kind. -/
def aRange : Descriptor := { aTask.desc with kind := 1, lo := 3, hi := 5, entry := 0x10008 }

/-- The object of the task. -/
def taskObject (revoked : Bool) : Object := { handle := 5, asid := 1, base := 0x10000, words := 4, entries := [(0, 1)], revoked }

theorem witness_SlotsTakeTheNewestWork :
    (let s := working [.desc aTask.desc, .desc aRange]
     (s.hart (.slot 0 1)).task = none ∧ (s.core 0).quarantined = false ∧ s.reserved 0 = false ∧ (s.cluster (0 / 32)).owner ≠ 0 ∧
     (s.partition (s.cluster (0 / 32)).owner).preempt = .running ∧ (s.core 0).dequeN = [.desc aTask.desc] ++ [.desc aRange] ∧
     (s.core 0).spillN = [] ∧ (s.partition aRange.part).objects.find aRange.object = some (taskObject false) ∧ aRange.lo < aRange.hi ∧
     aRange.urgent = (1 == 3) ∧ aTask.desc.kind ≠ 1 ∧ aTask.desc.counter = 0 ∧
     (let u := s.setPartition 1 { aPart with objects := [(5, taskObject true)] }
      (u.partition 1).objects.find 5 = some (taskObject true) ∧ u.launch 1 1 = some { id := 1, born := 3 } ∧ 0 + 0 + 0 + 1 < 3)) ∧
    (let s := { tiny (aHart {}) with cores := [(0, { dequeU := [.desc { aRange with urgent := true }] })] }
     (s.hart (.slot 0 3)).task = none ∧ (s.core 0).dequeU = [] ++ [.desc { aRange with urgent := true }] ∧ (s.core 0).spillU = []) ∧
    (let s := working [.desc aTask.desc, .replay (aHart {}) 0 false]
     (s.core 0).dequeN = [.desc aTask.desc] ++ [.replay (aHart {}) 0 false] ∧ (aHart {}).task = some aTask ∧ s.reserved 0 = false) := by
  decide +kernel

/-- Core 1 with the one piece of work of the machine. -/
def lending (d : Descriptor) : State := { tiny (aHart {}) with cores := [(1, { dequeN := [.desc d] })] }

theorem witness_a_slot_takes_work_of_another_core :
    (let q := (lending aTask.desc).partition 1
     1 ≠ 0 ∧ 1 / 32 ∈ q.slice ∧ 0 / 32 ∈ q.slice ∧ aTask.desc.origin / 32 ∈ q.slice ∧ q.slice.Nodup ∧ aTask.desc.glade = 3 ∧
     aTask.desc.origin / 832 = 0 / 832 ∧ ((lending aTask.desc).core 1).quarantined = false ∧
     ((lending aTask.desc).core 1).dequeN = .desc aTask.desc :: [] ∧ ¬ (aTask.desc.kind = 1) ∧ aRange.kind = 1 ∧ aRange.lo + 2 ≤ aRange.hi ∧
     aRange.glade = 3) ∧
    ∀ d j, j ≠ 1 → (lending d).core j = {} := by
  refine ⟨by decide +kernel, fun d j h => ?_⟩
  simp [lending, State.core, Table.get, Table.find, Ne.symm h]

/-! The system instructions -/

/-- System core n of die 0, running, with scalar registers. -/
def sysState (n : Nat) (l : List Word) : State :=
  { cur := .sys 0 n, turn := .sys 0 n, harts := [(.sys 0 n, { regs := scalars l, pc := 0x10000, asid := 1, running := true })]
    dies := [(0, { tlb := [code 0x10000 1, page 0x20000 2] })], clusters := [(0, { owner := 1 })], partitions := [(1, aPart)] }

theorem witness_ControlRegisters :
    (let s := tiny (aHart (scalars [4, 5]))
     s.cur = .slot 0 0 ∧ s.runs 0 = true ∧ 0x100 ≤ (0x100 : BitVec 12).toNat ∧ (s.getS 1).toNat ≤ 4 ∧ 4 < (s.getS 2).toNat ∧
     s.me.pend = [] ∧ (s.getS 1).toNat < 2 ^ 40) ∧
    (let s := sysState 0 [64, 63, 0x10000, 1024, 0x10000000000, 1]
     s.runs 0 = true ∧ s.level s.cur = 2 ∧ s.partitions.find (s.partOf s.cur) = some aPart ∧ 64 ≤ (s.getS 1).toNat ∧ (s.getS 1).toNat < 2 ^ 24 ∧
     (s.getS 2).toNat < 64 ∧ 65536 ≤ (s.getS 3).toNat ∧ 1024 ≤ (s.getS 4).toNat ∧ 2 ^ 32 ≤ (s.getS 5).toNat ∧ 2 ^ 40 ≤ (s.getS 5).toNat) ∧
    1 ≤ (sysState 1 []).level (.sys 0 1) ∧
    (let s := tiny (pendHart [{ dests := [], left := 0, doneAt := none, job := 7, sets := true }])
     s.runs 0 = true ∧ ∃ p ∈ s.me.pend, p.sets = true ∧ p.complete s.now = false) ∧
    (let live (d : Detour) := ((List.range 16).filter fun i => d.live.getLsbD i).length
     let stable : Detour := {}
     let pending : Detour := { pend := true, retire := 9 }
     let swept : Detour := { phase := 1, pend := true, retire := 9, done := true }
     stable.phase.getLsbD 0 = false ∧ stable.pend = false ∧ 2 ≤ live stable ∧ stable.live.getLsbD 9 = true ∧
     pending.phase.getLsbD 0 = false ∧ pending.pend = true ∧ swept.phase.getLsbD 0 = true ∧ swept.done = true ∧
     (0x90000000000 + 0 : Word).extractLsb' 52 10 = 0 ∧ (2 ^ 52 : Word).extractLsb' 52 10 ≠ 0 ∧
     (let x : Word := 0x910000000000
      x.extractLsb' 48 16 = 0 ∧ x.extractLsb' 41 3 = 0 ∧ x.extractLsb' 37 3 = 0 ∧ x.extractLsb' 16 16 = 0 ∧ x.getLsbD 40 = true ∧
      x.extractLsb' 44 4 = 9)) := by decide +kernel

/-- A live entry of cluster 0's miss queue. -/
def aMiss (seq : Nat) (taken : Bool) (r : List Requester) : MissEntry := { seq, asid := 1, page := 3, image := 9, taken, stalled := r }

/-- TSC 0 with a miss queue, and the task's slot beside it. -/
def missState (q : List MissEntry) (r : Word) : State :=
  let s := tscState 0 { regs := scalars [r] }
  { s with clusters := [(0, { s.cluster 0 with misses := q })], harts := s.harts ++ [(.slot 0 0, { aHart {} with wait := some .miss })] }

theorem witness_MissesAreAnswered :
    (let e := aMiss 7 false [.hart (.slot 0 0)]
     let s := missState [aMiss 6 true [], e] 7
     s.cur = .tsc 0 ∧ s.runs 0 = true ∧ s.me.task = none ∧ (s.cluster 0).misses = [aMiss 6 true []] ++ e :: [] ∧
     (∀ x ∈ [aMiss 6 true []], (x.taken || x.restored) = true) ∧ (e.taken || e.restored) = false ∧ s.unbound 1 = true ∧ (∀ x ∈ [aMiss 6 true []] ++ [], x.seq ≠ e.seq) ∧
     e.seq = (s.getS 1).toNat % 2 ^ 32 ∧ .hart (.slot 0 0) ∈ e.stalled ∧ e.kept = [] ∧ e.records = [] ∧
     (∀ r ∈ e.stalled, r = .hart (.slot 0 0) ∧ isSlot (.slot 0 0) = true)) ∧
    (∀ e ∈ ((missState [aMiss 6 true []] 7).cluster 0).misses, (e.taken || e.restored) = true ∧ e.seq ≠ ((missState [aMiss 6 true []] 7).getS 1).toNat % 2 ^ 32) ∧
    (aMiss 6 true []).stalled = [] ∧
    (let e : MissEntry := { aMiss 7 true [] with records := [(aHart {}, .slot 0 2)] }
     e.kept = [] ∧ e.records = [(aHart {}, .slot 0 2)] ∧ (aHart {}).task = some aTask ∧ ((missState [e] 7).core 0).quarantined = false ∧
     ((missState [e] 7).partition aTask.desc.part).preempt = .running) ∧
    (let e : MissEntry := { aMiss 7 true [] with kept := [.slot 0 0] }
     .slot 0 0 ∈ e.kept ∧ isSlot (.slot 0 0) = true) ∧
    (let s := { tiny { aHart {} with verdict := some { cls := .pageFault, detail := 2 } } with turn := .core 0 }
     s.agenda = [] ∧ s.upsets = [] ∧ slotOrder (s.core 0).cur (s.core 0).run = [3] ++ 0 :: [1, 2] ∧
     (s.hart (.slot 0 3)).ready (.slot 0 3) = false ∧ (s.hart (.slot 0 0)).ready (.slot 0 0) = true ∧
     (s.hart (.slot 0 0)).verdict = some { cls := .pageFault, detail := 2 } ∧ s.mayLeave (.slot 0 0) = true) := by decide +kernel

theorem witness_TranslationsChange :
    (let e := page 0x50000 5
     let s := sysState 0 [e.word0, e.word1, 0x50000, 1, 0x20000]
     let w0 (lo n : Nat) : Nat := ((s.getS 1).extractLsb' lo n).toNat
     let w1 (lo n : Nat) : Nat := ((s.getS 2).extractLsb' lo n).toNat
     1 ≤ s.level s.cur ∧ s.runs 0 = true ∧ s.mayPublish = true ∧ ((0 : Word).extractLsb' 63 1).toNat ≠ 1 ∧
     (w1 63 1 = 1 ∧ w1 61 2 = 0 ∧ w1 48 2 ≠ 3 ∧ w1 41 7 = 0 ∧ w0 52 3 = 0 ∧ w0 48 3 = 0 ∧ w0 36 7 = 0 ∧ w0 43 5 ≠ 3 ∧ w0 51 1 = 0 ∧
       w1 50 1 = 0 ∧ w0 55 1 = 0 ∧ w0 0 36 * 65536 + 65536 ≤ s.detour.capacity) ∧ (s.harts.any fun e => e.2.stores.any s.blocked) = false ∧
     s.mayName ((s.getS 4).toNat % 256) s.myPart.asids = true ∧
     (((s.getS 5).extractLsb' 16 36 : BitVec 36).toNat * 65536 < s.detour.capacity)) ∧
    (let s := tscState 0 { regs := scalars [0x20000, 2] }
     1 ≤ s.level s.cur ∧ s.runs 0 = true ∧ s.mayName ((s.getS 2).toNat % 256) s.myPart.asids = false ∧
     s.myPart.frames.contains ((s.getS 1).extractLsb' 16 36 : BitVec 36).toNat = false) ∧
    (let e := page 0x50000 5
     let s := tscState 0 { regs := scalars [e.word0, e.word1] }
     let u := s.setPartition 1 { aPart with frames := [5] }
     u.runs 0 = true ∧ u.level u.cur = 1 ∧ ((u.getS 2).extractLsb' 53 8).toNat ∈ u.myPart.asids ∧
     ((u.getS 1).extractLsb' 56 8).toNat ∈ u.myPart.keys ∧ 1 ≠ 0) := by decide +kernel

/-- A mailbox record at 0x20000: object, export, urgent, glade, cluster, core, log2 of the depth. -/
def record (obj glade : Nat) : Mem := Mem.storeBytes {} 0x20000 (leBytes 8 obj ++ leBytes 2 0 ++ [0, BitVec.ofNat 8 glade] ++ leBytes 2 0 ++ [3, 2])

theorem witness_MailboxesAreBound :
    (let s := { tiny (aHart (scalars [4095, 0x20000, 4096, 0x20004])) with mem := record 5 4 }
     let p := page 0x20000 2
     s.runs 0 = true ∧ (s.getS 1).toNat < 4096 ∧ 4096 ≤ (s.getS 3).toNat ∧ (s.getS 2).toNat % 8 = 0 ∧ (s.getS 4).toNat % 8 ≠ 0 ∧
     (∀ j < 6, s.readable (s.getS 2 + BitVec.ofNat 64 (8 * j)) 8 p = true) ∧
     (s.mem.nat 0x20000 8, s.mem.nat 0x20008 8, s.mem.nat 0x20010 8, s.mem.nat 0x20028 8) = (5, 0x0203000004000000, 0, 0) ∧
     (aPart.objects.find 5).any (fun o => !o.revoked && o.entries.find? (fun e => e.1 == 0) == some (0, 1)) = true ∧
     aPart.objects.find 6 = none ∧ aPart.slice[0]? = some 0 ∧ aPart.slice.length ≤ 1 ∧ (s.core (0 * 32 + 3)).quarantined = false) ∧
    ((record 5 0).nat 0x20008 8 / 2 ^ 24 % 256 = 0) ∧
    (let s := boxed .armed (tiny (aHart (scalars [boxHandle, 0])))
     s.runs 0 = true ∧ ((s.getS 1).extractLsb' 0 12 : BitVec 12).toNat = 3 ∧ (s.mailbox 1 3).state ≠ .unbound ∧
     s.getS 1 = BitVec.ofNat 64 (s.node * 2 ^ 48 + (s.mailbox 1 3).gen * 2 ^ 32 + 3) ∧ (s.mailbox 1 0).state = .unbound) := by decide +kernel

/-! The repair table and the saves -/

/-- System core 0 whose die has a repair table. -/
def repairState (l : List Word) (used : Nat) (r : List Word) : State :=
  let s := sysState 0 r
  { s with dies := [(0, { s.die 0 with repair := l, sparesUsed := used })] }

/-- A system task as `witness_spare_rows` has it with a repair list of one row; the clauses that rest on the number of spare rows are
met there. -/
theorem witness_RepairHaltAndSaves :
    (let s := repairState [0x8000000000000005] 0 [0, 0x20000, 151, 1]
     s.level s.cur = 2 ∧ s.runs 0 = true ∧ (s.die 0).repair.length < 1024 ∧ (s.die 0).repair[(s.getS 4).toNat % 1024]? = none ∧
     (s.die 0).repair[(s.getS 1).toNat % 1024]? = some 0x8000000000000005 ∧ (0x8000000000000005 : Word).extractLsb' 61 2 = 0 ∧
     (0xA000000000000005 : Word).extractLsb' 61 2 ≠ 0 ∧ s.upsets = [] ∧ s.me.inbox = [] ∧ (s.getS 2).toNat % 4096 = 0 ∧
     (s.getS 3).toNat < 152 ∧ (s.getS 4).toNat % 4096 ≠ 0 ∧ s.partitions.find 0 = none ∧ s.partitions.find 1 = some aPart ∧
     s.quiescent 1 = false ∧ 1024 ≤ (List.replicate 1024 (0 : Word)).length) ∧
    (let s := sysState 0 []
     (s.setMe { s.me with inbox := [[1]] }).me.inbox = [1] :: []) ∧
    (let s := (sysState 0 [1, 0x20000, 155]).setPartition 1 { aPart with preempt := .stopping }
     s.quiescent 1 = true ∧ s.saves.length = 0 ∧ (s.getS 3).toNat < 104 + 4 * aPart.slice.length + 48) := by decide +kernel

/-- With a row to spare, and without one, whatever number a die has. -/
theorem witness_spare_rows :
    (0 < Config.spareRows 0 → ((repairState [0x8000000000000005] 0 []).die 0).sparesUsed < Config.spareRows 0) ∧
    Config.spareRows 0 ≤ ((repairState [0x8000000000000005] (Config.spareRows 0) []).die 0).sparesUsed :=
  ⟨fun h => h, Nat.le_refl _⟩

/-! Traps and Milestone -/

theorem witness_TrapsEndTasks :
    (let s := tiny { aHart {} with stores := [{ cluster := none, bytes := [(0x20100, 7)], fresh := false }, { cluster := none, bytes := [(0x20101, 7)] }] }
     s.runs 0 = true ∧ s.cur = .slot 0 0 ∧ s.me.task = some aTask ∧ aTask.desc.counter = 0 ∧ s.faultMbx aTask.desc = 0 ∧
     s.launch 1 1 = some { id := 1, born := 3 } ∧ 0 + (0 + 1) + 0 < 3 ∧ s.partitions.find 1 = some aPart ∧ aTask.desc.launch < 2 ^ 32 ∧
     (s.hart (.slot 0 0)).wd < aTask.wdlimit) ∧
    (let t : Task := { aTask with desc := { aTask.desc with counter := 0x20000 } }
     let s := tiny { aHart {} with task := some t, wd := 0x01000000 }
     s.me.task = some t ∧ t.desc.counter ≠ 0 ∧ s.faultMbx t.desc = 0 ∧ s.launch 1 1 = some { id := 1, born := 3 } ∧ t.wdlimit ≤ (s.hart (.slot 0 0)).wd) ∧
    (let s := tscState 0 {}
     isSlot s.cur = false ∧ s.me.task = none ∧ (s.hart (.sys (hartDie s.cur) 0)).inbox.length < 4096) ∧
    (let s := tiny { aHart {} with boundary := true, stores := [{ cluster := none, bytes := [(0x20101, 7)] }] }
     s.me.boundary = true ∧ s.me.stores ≠ []) ∧
    (let s : State := { tiny { aHart {} with stores := [{ cluster := none, bytes := [(0x20101, 7)], fresh := false }] } with
                        detour := { phase := 1, moving := true, pointer := 0x30000 } }
     s.me.stores.any s.blocked = true) ∧
    (let s := tiny (aHart {})
     let holds (pc : Word) (o : Object) : Bool := o.asid == 1 && o.base.toNat ≤ pc.toNat
       && pc.toNat < o.base.toNat + (o.words * 8 + 65535) / 65536 * 65536
     (s.partition 1).objects.find? (fun e => holds 0x10018 e.2) = some (5, taskObject false) ∧
     (∀ e ∈ (s.partition 1).objects, holds 0x50000 e.2 = false) ∧
     (aHart {}).word = none ∧ (aHart {}).regs.rep = none ∧
     (match s.lookup (.slot 0 0) 1 0x10000 with | some (e, _) => e == code 0x10000 1 | none => false) = true ∧
     s.lookup (.slot 0 0) 1 0x50000 = none ∧ ({ aHart {} with word := some (0x3A, false) }).word = some (0x3A, false)) := by decide +kernel

/-- A Clearing with 12 bytes of code and m1 to m3. -/
def aClearing (out : List Word) : Clearing :=
  { running := true, code := List.replicate 12 5, m := .ofFn fun i => if i.val = 1 then 11 else if i.val = 2 then 4088 else if i.val = 3 then 4089 else 0
    out, part := 1 }

theorem witness_MilestoneRunsInItsClearing :
    (let c := aClearing []
     let s : State := { clearings := [(0, c)] }
     s.clearings.find s.clearing = some c ∧ (c.get 1 + (0 : BitVec 14).signExtend 64).toNat < c.code.length ∧
     c.code.length ≤ (c.get 1 + (1 : BitVec 14).signExtend 64).toNat ∧ (c.get 1 + (0x3FFD : BitVec 14).signExtend 64).toNat + 4 ≤ c.code.length ∧
     c.code.length < (c.get 1 + (0x3FFE : BitVec 14).signExtend 64).toNat + 4 ∧
     (c.get 2).toNat % 8 = 0 ∧ (c.get 2).toNat + 8 ≤ 4096 ∧ (c.get 3).toNat % 8 ≠ 0 ∧ 4096 < (c.get 2 + (8 : BitVec 14).signExtend 64).toNat + 8 ∧
     c.out.length < 524288 ∧ c.waiting = [] ∧ admission s.reducedService (c.out.reverse.map (·.toNat)) = some (0x15, 0)) ∧
    admission false ((aClearing [0x39, 0]).out.reverse.map (·.toNat)) = none ∧ 524288 ≤ (List.replicate 524288 (0 : Word)).length := by
  refine ⟨by decide +kernel, by decide +kernel, ?_⟩
  rw [List.length_replicate]

/-! The units around the cores -/

theorem witness_UnitsFetchStoreAndAdmit :
    (let s := tiny { aHart {} with pc := 0x10100, wait := some .fetch }
     let u := tiny { aHart {} with pc := 0x10080, wait := some .fetch }
     s.asidOf (.slot 0 0) = 1 ∧ (s.hart (.slot 0 0)).task.isSome = true ∧ (s.hart (.slot 0 0)).wait = some .fetch ∧
     (1, (0x10100 : Nat) / 128) ∉ (s.core 0).icache ∧ ¬ (1, (0x10080 : Nat) / 128) ∉ (u.core 0).icache ∧ (1, (0x10100 : Nat) / 128) ∉ (u.core 0).icache) ∧
    (let st (r : Option (Bool × List Nat)) : Store := { cluster := none, bytes := [(0x20100, 7)], routed := r }
     let s (r : Option (Bool × List Nat)) := tiny { aHart {} with stores := [st r] }
     let now := (s none).route (st none)
     ((s none).hart (.slot 0 0)).stores = st none :: [] ∧ (st none).routed = none ∧
     ((s (some now)).hart (.slot 0 0)).stores = st (some now) :: [] ∧ (st (some now)).routed = some ((s (some now)).route (st (some now))) ∧
     (s (some now)).blocked (st (some now)) = false ∧ (s (some now)).dieAwake 0x20100 1 = true ∧
     ({ s (some now) with detour := { phase := 1, moving := true, pointer := 0x30000 } } : State).blocked (st none) = true ∧
     ∀ old ∈ [(!now.1, now.2), (now.1, [9])], old ≠ (s (some old)).route (st (some old)) ∧
       (s (some old)).harts = [] ++ (.slot 0 0, { aHart {} with stores := [st (some old)] }) :: []) ∧
    (({} : State).route { cluster := some 0, bytes := [(8, 7)] }).2 = [] ∧
    (let x : MissWait := { who := .hart (.slot 0 1), asid := 1, page := 3, image := 9 }
     let s (q : List MissEntry) (tlb : List TlbEntry) : State := { clusters := [(0, { overflow := [x], misses := q, tlb })] }
     let covered (l : List TlbEntry) : Bool := l.any (·.covers x.asid (x.page * 65536))
     ((s [] []).cluster 0).overflow = x :: [] ∧ (covered [page 0x30000 3] || covered [] || covered []) = true ∧
     (covered [] || covered [] || covered []) = false ∧ ((s [aMiss 7 true []] []).cluster 0).misses = [] ++ aMiss 7 true [] :: [] ∧
     (aMiss 7 true []).asid = x.asid ∧ (aMiss 7 true []).page = x.page ∧ x.who ∉ (aMiss 7 true []).stalled ∧
     (∀ y ∈ ((s [] []).cluster 0).misses, y.asid ≠ x.asid ∨ y.page ≠ x.page) ∧ ((s [] []).cluster 0).misses.length < 256 ∧
     (∀ y ∈ List.replicate 256 { aMiss 7 true [] with page := 4 }, y.asid ≠ x.asid ∨ y.page ≠ x.page) ∧
     256 ≤ (List.replicate 256 { aMiss 7 true [] with page := 4 }).length) := by decide +kernel

/-- A store whose die-cache bank is in retention, whichever bank that is. -/
theorem witness_a_store_wakes_its_bank :
    let b : Bank := .dieCache (State.homeDie {} 0x20100) (Config.dieBank 1026 % 2048)
    let s : State := { banks := [(b, .retention)] }
    s.dieBanks 0x20100 1 = [b] ∧ s.dieAwake 0x20100 1 = false ∧ s.banks.find b = some .retention := by
  intro b s
  have h : s.dieBanks 0x20100 1 = [b] := rfl
  have f : s.banks.find b = some .retention := by simp [s, Table.find]
  have e : s.banks.isEmpty = false := rfl
  exact ⟨h, by simp only [State.dieAwake, h, e, List.all_cons, f]; rfl, f⟩

/-- An access passes through some bank, and not through one of another die. -/
theorem witness_a_bank_is_used : .dieCache (State.homeDie {} 0x20100) (Config.dieBank 1026 % 2048) ∈ State.dieBanks {} 0x20100 1 ∧
    Bank.dieCache 9 0 ∉ State.dieBanks {} 0x20100 1 := by
  have h : State.dieBanks {} 0x20100 1 = [.dieCache (State.homeDie {} 0x20100) (Config.dieBank 1026 % 2048)] := rfl
  have g : State.homeDie {} 0x20100 = 0 := by decide +kernel
  rw [h, g]
  simp

/-- Cluster 0 whose TLB maps 0x20000 with permissions, and a decrement that waits. -/
def decrementState (e : TlbEntry) (kind : EndKind) : State :=
  { clusters := [(0, { owner := 1, tlb := [e] })]
    partitions := [(1, { aPart with decrements := [{ id := 1, desc := { aTask.desc with counter := 0x20000 }, kind, cluster := 0, core := 0, slot := 0 }] })] }

theorem witness_UnitsDecrementAndComplete :
    (let s := decrementState (page 0x20000 2) .normal
     let d := ((s.partition 1).decrements.headD { id := 0, desc := {}, kind := .normal, cluster := 0, core := 0, slot := 0 })
     s.memoryOk = true ∧ (s.partition 1).decrements = [d] ∧ s.launch 1 d.desc.launch = some { id := 1, born := 3 } ∧ d.desc.part = 1 ∧
     (s.cluster d.cluster).tlb.find? (·.covers d.desc.asid d.desc.counter.toNat) = some (page 0x20000 2) ∧ s.upsets = [] ∧
     (canonical d.desc.counter && (page 0x20000 2).r && (page 0x20000 2).w && s.reaches (.tsc 0) ((page 0x20000 2).physical d.desc.counter.toNat)) = true ∧
     s.keyed (page 0x20000 2).key (0x20000 / 128 * 128) 128 = true ∧
     s.mem.bad (0x20000 / 128 * 128) 128 = false ∧ 0 + 0 + 0 + 1 < 3) ∧
    (let e := pageEntry 1 1 0x20000 2 true false false
     let s := decrementState e .trapped
     (s.cluster 0).tlb.find? (·.covers 1 0x20000) = some e ∧ (canonical 0x20000 && e.r && e.w && s.reaches (.tsc 0) (e.physical 0x20000)) = false ∧ ({ id := 1, born := 3 } : Launch).faultMbx = 0) ∧
    (let final : Launch := { id := 1, born := 1, normal := 1, doneMbx := boxHandle }
     let s (l : Launch) : State := boxed .armed { partitions := [(1, { aPart with launches := [(1, l)] })] }
     let held : State := boxed .held { partitions := [(1, { aPart with launches := [(1, final)] })] }
     let body := leBytes 4 1 ++ [if final.integrity then 2 else if final.trapped ≠ 0 then 1 else 0, 0, 0, 0] ++ leBytes 8 1
       ++ leBytes 8 0 ++ leBytes 8 0 ++ leBytes 8 0 ++ leBytes 8 0
     (s final).launch 1 1 = some final ∧ final.normal + final.trapped + final.discarded = final.born ∧ final.commands = 0 ∧ final.doneMbx ≠ 0 ∧
     ((s final).deliver 1 final.doneMbx body).2 = 0 ∧ (held.deliver 1 final.doneMbx body).2 = 1 ∧
     ((s final).deliver 1 (boxHandle + 1) body).2 = 2 ∧ final.away = false ∧
     (({ s final with present := [0, 1] } : State).deliver 1 (boxHandle + 0x1000000000000) body).2 = 5 ∧ (s { final with doneMbx := 0 }).launch 1 1 = some { final with doneMbx := 0 } ∧
     (s { final with born := 2 }).launch 1 1 = some { final with born := 2 } ∧
     (s { final with away := true }).launch 1 1 = some { final with away := true }) := by decide +kernel

theorem witness_UnitsPlaceGangs :
    (let d (m : Nat) : Descriptor := { aTask.desc with kind := 2, lo := m }
     let g : GangWait := { members := (List.range 8).map d }
     let s : State := { clusters := [(0, { owner := 1, gangs := [g] })], partitions := [(1, aPart)] }
     let freeIn (c : Nat) : List Nat := [0, 1, 2].filter fun n => (s.hart (.slot c n)).task.isNone
     (s.cluster 0).gangs = g :: [] ∧ g.members.length = 8 ∧ (∀ r < 4, ∀ m < 8, (s.core (0 * 32 + 8 * r + m)).quarantined = false ∧ freeIn (8 * r + m) ≠ []) ∧
     (∀ r < 4, ((List.range 8).map fun m => (freeIn (8 * r + m)).length).sum = 24) ∧ (s.partition (s.cluster 0).owner).preempt = .running ∧
     (∀ x ∈ g.members, s.startable x = true)) ∧
    (tiny (aHart {})).startable { aTask.desc with object := 6 } = false ∧
    (let s : State := { cores := (List.range 4).map fun r => (8 * r, { quarantined := true }) }
     ∀ r < 4, (s.core (8 * r)).quarantined = true) := by decide +kernel

/-- A mailbox of partition 1 that holds a validated slot. -/
def heldBox (urgent : Bool) : Mailbox :=
  { state := .held, gen := 1, object := 5, entry := 0x10008, asid := 1, logDepth := 1, urgent, latched := some (List.replicate 64 3) }

theorem witness_UnitsPushHeldSlots :
    (let s (quota : Nat) (m : Mailbox) : State := { partitions := [(1, { aPart with quota, mailboxes := [(3, m)], heldOrder := [3] })] }
     let m := heldBox false
     let after := { m with state := .armed, latched := none }.next
     ((s 64 m).partition 1).heldOrder = 3 :: [] ∧ (s 0 m).pending 1 ≥ ((s 0 m).partition 1).quota ∧ (s 64 m).pending 1 < ((s 64 m).partition 1).quota ∧
     ((s 64 m).partition 1).preempt = .running ∧ ((s 64 m).mailbox 1 3).latched = some (List.replicate 64 3) ∧ after.valid = false ∧
     after.announced.contains after.slot = false ∧ ((s 64 m).core m.home).quarantined = false ∧ ((s 64 m).core m.home).dequeU.length < 64 ∧
     ((s 64 m).core m.home).dequeN.length < 64 ∧ (heldBox true).urgent = true ∧
     (let r (p : Preempt) (st : CommandState) : State :=
        { partitions := [(1, { aPart with preempt := p, heldOrder := [3] })], dies := [(0, { orphans := [aCommand st .cpy] })] }
      ((r .stopping .queued).partition 1).preempt ≠ .running ∧ ((r .stopping .queued).partition 1).preempt ≠ .restoring ∧
      ((r .restoring .queued).partition 1).preempt = .restoring ∧ (r .restoring .queued).remaindersLeft 1 = true)) ∧
    (let m : Mailbox := { state := .faulted, gen := 1, owes := true, faultMbx := boxHandle }
     let s (m : Mailbox) : State := { partitions := [(1, { aPart with mailboxes := [(4, m), (3, { state := .armed, gen := 1, messageFed := true })] })] }
     let body (m : Mailbox) := leBytes 8 ((s m).node * 2 ^ 48 + m.gen * 2 ^ 32 + 4) ++ leBytes 4 m.expect ++ m.bytes.bytes (64 * m.slot + 56) 8 ++ List.replicate 36 0
     ((s m).mailbox 1 4).state = .faulted ∧ ((s m).mailbox 1 4).owes = true ∧ (s m).node * 2 ^ 48 + m.gen * 2 ^ 32 + 4 < 2 ^ 64 ∧
     (((s m).setMailbox 1 4 { m with owes := false }).deliver 1 m.faultMbx (body m)).2 = 0 ∧
     (({ (s m).setMailbox 1 4 { m with owes := false } with present := [0, 1] } : State).deliver 1 (boxHandle + 0x1000000000000) (body m)).2 = 5 ∧
     (((s m).setMailbox 1 4 { m with owes := false }).deliver 1 (boxHandle + 1) (body m)).2 = 3 ∧ ((s {}).mailbox 1 4).state ≠ .faulted) := by
  decide +kernel

theorem witness_UnitsMoveBanksAndHistograms :
    (let b : Bank := .typed 0 2 0
     let s (x : BankState) : State := { banks := [(b, x)], clock := 2 ^ 30 }
     State.reset.banks.find b = none ∧ (s .active).banks.find b = some .active ∧ (s (.entering true)).banks.find b = some (.entering true) ∧
     (s .exiting).banks.find b = some .exiting ∧ 2 ≤ (2 : BitVec 3).toNat ∧ (8191 : Nat) < 8192 ∧
     (s .active).bankUse.get b 0 + 65536 ≤ (s .active).clock ∧ ¬ (State.reset.bankUse.get b 0 + 65536 ≤ State.reset.clock) ∧ b = .typed 0 2 0 ∧
     (let l : List (Nat × Nat) := [(3, 0), (4, 2 ^ 29)]
      ∀ e ∈ l, e.2 + 65536 ≤ (s .active).clock) ∧
     ((s .active).die 0).flushedAt + 2 ^ 30 ≤ (s .active).clock ∧ State.reset.clock < (State.reset.die 0).flushedAt + 2 ^ 30) ∧
    ((State.reset.hart (.sys 0 1)).inbox.length < 4096) := by decide +kernel

theorem witness_a_full_service_queue : 4096 ≤ (List.replicate 4096 ([] : List Byte)).length := by rw [List.length_replicate]

/-! What arrives from outside -/

/-- Partition 1 seen through queue pair 1, its pages in the die's TLB. -/
def hosted (m : Mailbox) : State :=
  { clusters := [(0, { owner := 1 })], dies := [(0, { tlb := [page 0x20000 2, code 0x10000 1] })]
    partitions := [(1, { aPart with mailboxes := [(3, m)] })] }

/-- An armed mailbox of two slots, fed through its window. -/
def windowBox : Mailbox := { state := .armed, gen := 1, object := 5, entry := 0x10008, asid := 1, logDepth := 1 }

theorem witness_HostsReachTheirPages :
    (let s := hosted {}
     let mapped (va : Word) (n : Nat) (e : TlbEntry) (may : TlbEntry → Bool) : Bool := (List.range n).all fun i => (s.die 0).tlb.find? (fun y =>
       canonical (va + BitVec.ofNat 64 i) && y.covers 1 (va + BitVec.ofNat 64 i).toNat && may y && y.physical (va + BitVec.ofNat 64 i).toNat < s.limit
         && !s.foreign 1 (y.physical (va + BitVec.ofNat 64 i).toNat)) == some e
     (1 : Nat) ≠ 0 ∧ (s.partition 1).qps.find 1 = some { asid := 1 } ∧ (s.partition 1).slice.head? = some 0 ∧
     mapped 0x2FFFC 4 (page 0x20000 2) TlbEntry.r = true ∧ mapped 0x20000 4 (page 0x20000 2) TlbEntry.w = true ∧ s.upsets = [] ∧
     (∀ i < 4, s.mem.poisoned (0x20000 + i) = false) ∧ (∀ i < 4, s.movingUnit (0x20000 + i) = false) ∧ s.behind 1 1 = false ∧ s.behind 1 0 = false ∧
     (∀ i < 4, s.keyed (page 0x20000 2).key (0x20000 + i) 1 = true ∧ s.dieAwake (0x20000 + i) 1 = true) ∧ ({ s with waiting := [.hostWindowWrite 1 1 0x20000 [1]] } : State).behind 1 1 = true ∧
     ({ s with detour := { pend := true, pointer := 65536 * 3, moving := true, phase := 1 } } : State).movingUnit 0x20003 = true ∧
     ({ s.mem with poison := [0x4000] } : Mem).poisoned 0x20003 = true ∧
     (∀ y ∈ (s.die 0).tlb, y.covers 1 (0x10000 : Word).toNat = true → y.r = false)) := by decide +kernel

theorem witness_HostsReachTheirMailboxes :
    (let s := hosted windowBox
     s.behind 1 1 = false ∧ (s.partition 1).qps.find 1 ≠ none ∧ (s.partition 1).slice ≠ [] ∧ (3 : Nat) < 4096 ∧ 64 + 128 ≤ 64 * 2 ^ windowBox.logDepth + 64 ∧
     64 * 2 ^ windowBox.logDepth + 64 < 1 + 192 ∧ (s.mailbox 1 3).state = .armed ∧ (s.mailbox 1 3).messageFed = false ∧
     (s.mailbox 1 0).state = .unbound ∧ (s.partition 1).preempt = .running ∧ windowBox.slot < 2 ^ windowBox.logDepth ∧ windowBox.slot ∉ windowBox.announced ∧
     (let b : List Byte := stamped 1 []
      let m1 := { windowBox with bytes := windowBox.bytes.store (bytesAt 0 b) }
      b.length = 64 ∧ b ≠ [] ∧ m1.valid = true ∧ s.pending 1 < (s.partition 1).quota ∧ m1.next.valid = false ∧ m1.next.slot ∉ m1.next.announced ∧
      (s.core 0).quarantined = false ∧ windowBox.urgent = false ∧ (s.core 0).dequeN.length < 64) ∧
     (let m1 := { windowBox with bytes := windowBox.bytes.store (bytesAt 56 [1]) }
      ¬ (64 * windowBox.slot + 56 < 56 + 0) ∧ m1.valid = false) ∧
     (0 : Nat) ∈ ({ windowBox with announced := [0] }).announced ∧ 63 ≤ ({ windowBox with fails := 63 }).fails ∧
     leNat (leBytes 8 1) = windowBox.expect ∧ leNat (leBytes 8 2) = (windowBox.expect - 1 + 1) % (2 ^ 32 - 1) + 1 ∧ 1 < 2 ^ windowBox.logDepth ∧
     leNat (leBytes 8 0) = 0) ∧
    (let s := (hosted windowBox).setPartition 1 { aPart with quota := 0, mailboxes := [(3, windowBox)] }
     (s.partition 1).quota ≤ s.pending 1) := by decide +kernel

theorem witness_PackagesAct :
    (let s := boxed .armed (tiny { aHart {} with sent := true })
     0x20000 + 4 ≤ s.limit ∧ (∀ i < 4, s.movingUnit (0x20000 + i) = false) ∧ (∀ i < 8, s.movingUnit (0x20000 + i) = false) ∧
     (∀ i < 8, s.dieAwake (0x20000 + i) 1 = true) ∧ max 8 4 = 8 ∧ s.limit < s.limit - 1 + 2 ∧ 0x20000 + 8 ≤ s.limit ∧
     s.mem.bad 0x20000 8 = false ∧ ({ s.mem with poison := [0x4000] } : Mem).bad 0x20000 8 = true ∧ 0x20000 % 8 = 0 ∧
     (s.deliver 1 boxHandle []).2 = 0 ∧ (s.hart (.slot 0 0)).sent = true ∧ (s.hart (.slot 0 1)).sent = false ∧ s.turnpikeBusy = false ∧ s.upsets = [] ∧
     ({ s with waiting := [.turnpikeArrival (.flit 0x20000 [1])] } : State).turnpikeBusy = true ∧ s.launch 1 1 = some { id := 1, born := 3 } ∧
     (let m : State := { s with detour := { pend := true, pointer := 65536 * 3, moving := true, phase := 1 } }
      m.movingUnit 0x20000 = true ∧ m.turnpikeBusy = false ∧ 0x20000 + 4 ≤ m.limit)) := by decide +kernel

/-- A port's control block at 0x20000: 16 descriptors at 0x30000, completions at 0x40000, one descriptor produced. -/
def portMem (op : Nat) (flags : Nat) : Mem :=
  let m := Mem.storeBytes {} 0x20000 (leBytes 8 0x30000 ++ leBytes 8 0x40000 ++ leBytes 8 4 ++ leBytes 4 1)
  m.storeBytes 0x30000 ([BitVec.ofNat 8 op, BitVec.ofNat 8 flags, 0, 0] ++ leBytes 4 8 ++ leBytes 8 0x50000 ++ leBytes 8 0 ++ leBytes 8 77)

theorem witness_PortsConsume :
    (let m := portMem 2 1
     let cons := m.nat (0x20000 + 28) 4
     let cprod := m.nat (0x20000 + 32) 4
     let d := m.nat 0x20000 8 + 32 * (cons % 2 ^ m.nat (0x20000 + 16) 1)
     (0x20000 % 64 = 0 ∧ 4 ≤ m.nat (0x20000 + 16) 1 ∧ m.nat (0x20000 + 16) 1 ≤ 16 ∧ m.nat (0x20000 + 24) 4 ≠ cons ∧
       (cprod + 2 ^ 32 - m.nat (0x20000 + 36) 4) % 2 ^ 32 < 2 ^ m.nat (0x20000 + 16) 1) ∧ m.nat d 1 = 2 ∧
     (m.nat (d + 1) 1 ≤ 1 ∧ m.nat (d + 2) 2 = 0 ∧ m.nat (d + 28) 4 = 0) ∧ m.nat (d + 8) 8 + m.nat (d + 4) 4 ≤ State.reset.limit ∧
     State.keyed {} 0 0x20000 64 = true ∧ State.keyed {} 0 d 32 = true ∧ State.keyed {} 0 0x40000 16 = true ∧ State.keyed {} 0 0x50000 8 = true ∧
     m.nat (d + 16) 8 = 0 ∧ (portMem 3 1).nat d 1 = 3 ∧ (portMem 3 1).nat (d + 16) 8 = ({ failed := false, bytes := [] } : PortOutcome).block ∧
     (portMem 4 1).nat d 1 = 4 ∧ (portMem 4 1).nat (d + 16) 8 ≠ ({ failed := false, bytes := [], block := 1 } : PortOutcome).block ∧
     ({ detour := { pend := true, pointer := 65536 * 3, moving := true, phase := 1 } } : State).movingUnit 0x20000 = true ∧
     ({} : Detour).moving = false ∧ ¬ ((portMem 2 2).nat (d + 1) 1 ≤ 1) ∧ (portMem 6 0).nat d 1 = 6 ∧ (portMem 0 0).nat d 1 = 0 ∧ (portMem 5 0).nat d 1 = 5) ∧
    ¬ (({} : Mem).nat (0x20000 + 24) 4 ≠ ({} : Mem).nat (0x20000 + 28) 4) := by decide +kernel

theorem witness_no_bank_sleeps : ∀ a n, State.dieAwake {} a n = true := fun _ _ => rfl

/-! The platform -/

theorem witness_RetirementAndClock :
    (let d (phase : Nat) : Detour := { phase := BitVec.ofNat 32 phase, pend := true, pointer := 65536, moving := true, copied := 511 }
     ((d 0).phase.toNat % 2 == 1) = false ∧ ({} : Detour).pend = false ∧ 2 ≤ (List.range 16).countP (fun i => ({} : Detour).live.getLsbD i) ∧
     ({} : Detour).live.getLsbD (15 : BitVec 4).toNat = true ∧ ({ live := 0xFFFE } : Detour).live.getLsbD (0 : BitVec 4).toNat = false ∧
     (List.range 16).countP (fun i => ({ live := 1 } : Detour).live.getLsbD i) < 2 ∧ (d 0).pend = true ∧ ((d 1).phase.toNat % 2 == 1) = true ∧
     ({ d 1 with done := true }).done = true ∧ (d 1).done = false ∧ (d 1).pointer = 65536 ∧ ({ d 1 with copied := 0 }).copied = 0 ∧ ({ d 1 with pointer := 131072 }).pointer ≠ 65536 ∧ (d 1).copied < 512 ∧ (d 1).moving = true ∧
     ({ d 1 with moving := false }).pause = false ∧ 512 ≤ ({ d 1 with copied := 512 }).copied) ∧
    3600000 < 3600001 ∧ 400 < 401 ∧ 100000 ≤ 100000 ∧ State.reset.upsets = [] ∧ isSlot (.sys 0 3) = false ∧
    (∀ k < 104, (State.reset.cluster k).misses = []) ∧ State.reset.memoryOk = true ∧
    ((8 : Word).toNat % 8 = 0 ∧ (12 : Word).toNat % 8 ≠ 0) ∧
    (let image : FirmwareImage := { file := [], frames := [9, 10], text := 1, base := 0x10000 }
     image.frames.Nodup ∧ image.frames.length ≤ 2048 ∧ image.frames[1]? = some 10 ∧ (8 * 65536 : Nat) / 65536 ∉ image.frames) := by decide +kernel

theorem witness_Boot :
    (let s : State := { boot := 0x0200 }
     let stage := (s.boot.toNat / 2 ^ 8) % 8 + 1
     (s.boot.toNat / 2 ^ 16) % 2 ^ 8 = 0 ∧ stage ≤ 5 ∧ stage = 3 ∧ imageFault s 3 (some []) ≠ 0 ∧ imageFault s 3 none ≠ 0 ∧ imageFault s 3 none < 256 ∧
     (({ boot := 0x10000 } : State).boot.toNat / 2 ^ 16) % 2 ^ 8 ≠ 0 ∧ 5 < (({ boot := 0x0500 } : State).boot.toNat / 2 ^ 8) % 8 + 1 ∧
     (let held : State := { boot := 0x0200, slotA := { image := [1] } }
      held.committedB = false ∧ held.slotA.image ≠ [] ∧ s.slotA.image = [] ∧ imageFault held 3 (some held.slotA.image) ≠ 0)) ∧
    (let s : State := { boot := 0xF501 }
     s.reducedService = true ∧ (s.boot.toNat / 2 ^ 8) % 8 = 5 ∧ (s.boot.toNat / 2 ^ 12) % 16 = 15 ∧ (s.boot.toNat / 2 ^ 16) % 2 ^ 8 = 0 ∧ ∀ e ∈ s.partitions, e.2.reduced = false) ∧
    (∃ k < 26, k ∉ [0]) ∧ (∀ k < 26, k ∈ List.range 26) ∧ ¬ (({ boot := 0x7501 } : State).boot.toNat / 2 ^ 12 % 16 = 15) := by decide +kernel

/-- For any die that has a spare row, a march test that finds a bad row has one for it. -/
theorem witness_march_test (d : Nat) (h : 0 < Config.spareRows d) :
    (State.reset.die d).sparesUsed < Config.spareRows d ∧ (State.reset.die d).repair.length < 1024 ∧
    ∀ e ∈ (State.reset.die d).repair, e.setWidth 32 ≠ (5 : BitVec 32) := by
  simpa [State.reset, State.die, Table.get, Table.find] using h

/-- And for any die, one after its last spare row has none. -/
theorem witness_no_spare_row (d : Nat) :
    let s : State := { dies := [(d, { sparesUsed := Config.spareRows d })] }
    Config.spareRows d ≤ (s.die d).sparesUsed ∧ (s.die d).repair.length < 1024 ∧ ∀ e ∈ (s.die d).repair, e.setWidth 32 ≠ (5 : BitVec 32) := by
  simp [State.die, Table.get, Table.find]

/-- A partition record: one cluster, one ASID, one key slot, quota 64, every feature, one page of 64 KiB. -/
def partitionRecord (id : Nat) : List Byte :=
  leBytes 8 id ++ leBytes 2 1 ++ leBytes 2 1 ++ leBytes 2 1 ++ leBytes 2 0 ++ leBytes 4 64 ++ leBytes 4 1 ++ List.replicate 31 255 ++ [127]
    ++ leBytes 8 0 ++ leBytes 8 0x10000 ++ leBytes 4 2 ++ leBytes 4 1 ++ List.replicate 48 0

theorem witness_Partitions :
    (let s : State := { boot := 0xF503 }
     s.update = .running ∧ s.creatable (partitionRecord 7) [103] = true ∧ s.creatable (partitionRecord 0) [103] = false ∧
     128 ≤ fileNat (List.replicate 128 (255 : Byte)) 55 1 ∧ fileNat (partitionRecord 0) 0 8 = 0 ∧ ([] : List Byte).length ≠ 128 ∧ s.partitions.find 7 = none) ∧
    (let s : State := { clusters := [(103, { owner := 2 })] }
     ∃ k ∈ [103], (s.cluster k).owner ≠ 0 ∧ s.savedCluster k = false) ∧
    (let q : Partition := { aPart with preempt := .saved, slice := [103] }
     let s : State := { boot := 0xF503, clusters := [(103, { owner := 1 })], partitions := [(1, q)] }
     s.creatable (partitionRecord 7) [103] = true ∧ s.partitions.find 1 = some q ∧ q.preempt = .saved ∧ ∃ k ∈ [103], k ∈ q.slice) ∧
    (let s : State := { partitions := [(1, { aPart with frames := [9] })], keySlots := [(1, .assigned 1), (2, .scrubbing)] }
     s.partitions.find 1 = some { aPart with frames := [9] } ∧ s.update = .running ∧ s.partitions.find 2 = none ∧ s.uses = [] ∧ s.wholeLeft 1 = false ∧ s.keySlots.find 2 = some .scrubbing ∧ s.keySlots.find 1 ≠ some .scrubbing) ∧
    ({ dies := [(0, { orphans := [{ aCommand .kicked .cpy with split := 0 }] })] } : State).wholeLeft 1 = true ∧
    ({ update := .quiescing } : State).update ≠ .running ∧ aPart.preempt = .running ∧ ({ aPart with preempt := .saved }).preempt ≠ .running := by
  decide +kernel

theorem witness_FirmwareAndUpdates :
    (let s : State := { slotB := { image := [1] }, svnMin := [(3, 4)], clock := 2 ^ 25 - 1, update := .starting 0 }
     s.committedB = false ∧ s.slotB.image ≠ [] ∧ s.slotB.failed = false ∧ (4 : Nat) ≤ s.svnMin.get 3 0 ∧ s.svnMin.get 3 0 < 5 ∧
     fileNat s.slotA.image 8 4 ≤ 5 ∧ (0 : Nat) < fileNat [0, 0, 0, 0, 0, 0, 0, 0, 1] 8 4 ∧ s.update = .starting 0 ∧ s.clock < 0 + 2 ^ 25 ∧ 0 + 2 ^ 25 ≤ s.clock + 1 ∧
     imageFault s 3 (some []) ≠ 0) ∧
    (let s : State := { slotB := { image := [1] }, svnMin := [(3, 4)] }
     s.update = .running ∧ s.slotB.image ≠ [] ∧ s.slotB.failed = false ∧ imageFault s 3 (some []) ≠ 0 ∧ (4 : Nat) ≤ s.svnMin.get 3 0 ∧ s.svnMin.get 3 0 < 5) ∧
    takesHandover (List.replicate 12 0 ++ [1]) [] = false ∧
    ({ slotB := { image := [1], failed := true } } : State).slotB.failed = true ∧ State.reset.slotB.image = [] := by decide +kernel

/-! Endpoints -/

theorem witness_EndpointsAttestAndKeepKeys :
    (let s : State := { partitions := [(1, { aPart with spdm := { stage := .algorithms, exchange := some (3, [7]), secured := true } })] }
     s.endpoint 1 = some { stage := .algorithms, exchange := some (3, [7]), secured := true } ∧ s.endpoint 0 = some {} ∧
     (63 : Nat) < 64 ∧ 64 ≤ 64 ∧ (s.partition 1).keyStore.get 63 .empty = .empty ∧ (List.replicate 97 (4 : Byte)).length = 97 ∧
     (List.replicate 60 (0 : Byte)).length = 60) ∧
    ({ stage := .version } : Spdm).stage = .version ∧ ({ stage := .capabilities } : Spdm).stage = .capabilities ∧ ({} : Spdm).secured = false ∧
    ({} : Spdm).exchange = none := by decide +kernel

/-- With keys that are well formed, whatever that comes to; and with the verify data that an exchange asks for, or other data. -/
theorem witness_keys_and_finish (p384 hss : List Byte) (h : Config.p384WellFormed p384 = true ∧ Config.hssWellFormed hss = true)
    (l : p384.length = 97 ∧ hss.length = 60) :
    ((63 : Nat) < 64 ∧ (Table.get ([] : Table Nat KeyEntry) 63 .empty) = .empty ∧ p384.length = 97 ∧ hss.length = 60 ∧
      Config.p384WellFormed p384 = true ∧ Config.hssWellFormed hss = true) ∧
    (∃ mac, mac = Config.finishCode 3 [7]) ∧ ∃ mac, mac ≠ Config.finishCode 3 [7] :=
  ⟨⟨by decide, rfl, l.1, l.2, h.1, h.2⟩, ⟨_, rfl⟩, ⟨0 :: Config.finishCode 3 [7], by simp⟩⟩

/-! The whole machine -/

theorem witness_EveryStepKeepsMemoryCanonical :
    (fetching 0x3A {}).memoryOk = true ∧ nextWith (step (fetching 0x3A {})) (fun t => t.memoryOk) = true := by decide +kernel

theorem witness_InstructionsLeaveTheRest :
    (let s := tiny (aHart (scalars [7, 8]))
     regDest (.add { wA with a := 1, b := 2, d := 31 }) = some (.s 31) ∧ regDest (.vmov { wA with d := 24 }) = some (.v 24) ∧
     regDest (.kop { wA with fn := 5, d := 7 }) = some (.k 7) ∧ regDest (.gset { wA with d := 7 }) = some (.g 7) ∧ s.streamless = true ∧
     nextWith (exec (.add { wA with a := 1, b := 2, d := 31 }) s) (fun _ => true) = true ∧
     nextWith (exec (.vmov { wA with d := 24 }) s) (fun _ => true) = true ∧
     guardField (.st { wM with a := 1, gd := 0 }) = some 0 ∧ s.cur = .slot 0 0 ∧
     nextWith (exec (.st { wM with a := 1 }) s) (fun _ => true) = true ∧ isSlot (.tsc 0) = false) := by decide +kernel

/-! ### What rests on a digest or on a free value

The digest of the Waymark table and the values of Config stay symbols here. -/

theorem cellsGet_bytesAt (l : List Byte) (a i : Nat) : cellsGet (bytesAt a l) (a + i) = l.getD i 0 := by
  induction l generalizing a i with
  | nil => rfl
  | cons x t ih =>
    cases i with
    | zero => simp [bytesAt, cellsGet]
    | succ i =>
      have h := ih (a + 1) i
      rw [show a + 1 + i = a + (i + 1) by omega] at h
      simp [bytesAt, cellsGet, h]

/-- Bytes placed in memory are read back. -/
theorem bytes_of_placed (l : List Byte) (a n i : Nat) (h : i + n ≤ l.length) :
    (Mem.mk (bytesAt a l) []).bytes (a + i) n = (l.drop i).take n := by
  induction n generalizing i with
  | zero => rfl
  | succ n ih =>
    have hi : i < l.length := by omega
    rw [Mem.bytes, show a + i + 1 = a + (i + 1) by omega, ih (i + 1) (by omega), Mem.byte, cellsGet_bytesAt, List.drop_eq_getElem_cons hi]
    simp only [List.take_succ_cons, List.getD_eq_getElem?_getD, List.getElem?_eq_getElem hi, Option.getD_some]

/-- System core 0 about to restore a save area of these bytes, which stands at 0x20000, into partition i. -/
def restState (b : List Byte) (i : Word) (l : List Save) : State :=
  { sysState 0 [i, 0x20000, 152] with
    mem := ⟨bytesAt ((page 0x20000 2).physical (0x20000 : Word).toNat) b, []⟩, saves := l }

/-- It may read the area, and reads its bytes. -/
theorem area_is_read (b : List Byte) (i : Word) (l : List Save) {n : Nat} (hn : n ≤ b.length)
    (hi : (sysState 0 [i, 0x20000, 152]).maps 0x20000 (page 0x20000 2) = true) :
    let s := restState b i l
    s.readable 0x20000 n (page 0x20000 2) = true ∧
      (s.globalFor s.cur).bytes ((page 0x20000 2).physical (0x20000 : Word).toNat) n = b.take n := by
  intro s
  have hg : s.globalFor s.cur = ⟨bytesAt ((page 0x20000 2).physical (0x20000 : Word).toNat) b, []⟩ := State.globalFor_of_no_stores rfl
  have hm : s.maps 0x20000 (page 0x20000 2) = true := hi
  have hu : s.upsets = [] := rfl
  have ha : s.dieAwake ((page 0x20000 2).physical (0x20000 : Word).toNat) n = true := rfl
  have hl : s.logAt ((page 0x20000 2).physical (0x20000 : Word).toNat) = none := by rfl
  have hk : s.keyed (page 0x20000 2).key ((page 0x20000 2).physical (0x20000 : Word).toNat) n = true := by
    simp only [State.keyed, List.all_eq_true]
    intro x _
    rfl
  refine ⟨?_, ?_⟩
  · rw [State.readable, hm, hk, hg, hu, ha, hl]
    simp [Mem.bad]
    decide
  · rw [hg]
    have := bytes_of_placed b ((page 0x20000 2).physical (0x20000 : Word).toNat) n 0 (by omega)
    simpa using this

/-- What a restore needs of a state whose area has this size: it may run, and it reads the area whole. -/
def restores (s : State) (size : Nat) (area : List Byte) : Prop :=
  let va := s.getS 2
  let m := s.globalFor s.cur
  let at' (j : Nat) : Word := va + BitVec.ofNat 64 (4096 * j)
  let head := m.bytes ((page 0x20000 2).physical va.toNat) 16
  s.level s.cur = 2 ∧ s.runs 0 = true ∧ s.update = .running ∧ va.toNat % 4096 = 0 ∧ 152 ≤ (s.getS 3).toNat ∧
  s.readable va 16 (page 0x20000 2) = true ∧ fileNat head 0 4 = 0x4B575356 ∧ fileNat head 4 2 = 1 ∧ fileNat head 8 8 = size ∧
  size ≤ (s.getS 3).toNat ∧ (∀ j, 4096 * j < size → s.readable (at' j) (min 4096 (size - 4096 * j)) (page 0x20000 2) = true) ∧
  ((List.range ((size + 4095) / 4096)).flatMap fun j =>
    m.bytes ((page 0x20000 2).physical (at' j).toNat) (min 4096 (size - 4096 * j))) = area

/-- The header of an area of so many bytes (R339). -/
def saveHead (n : Nat) : List Byte := leBytes 4 0x4B575356 ++ leBytes 2 1 ++ leBytes 2 0 ++ leBytes 8 n

theorem restores_restState (b : List Byte) (i : Word) (l : List Save) (n : Nat) (t : List Byte) (hb : b = saveHead n ++ t)
    (hl : b.length = n) (h : n = 16 ∨ n = 152)
    (g : let t := sysState 0 [i, 0x20000, 152]
      t.maps 0x20000 (page 0x20000 2) = true ∧ t.getS 2 = 0x20000 ∧ (t.getS 3).toNat = 152 ∧ t.level t.cur = 2 ∧ t.runs 0 = true) :
    restores (restState b i l) n b := by
  obtain ⟨hm, hs, hn, hv, hr⟩ := g
  have hs : (restState b i l).getS 2 = 0x20000 := hs
  have hn : ((restState b i l).getS 3).toNat = 152 := hn
  have hh : b.take 16 = saveHead n := by rw [hb, List.take_left' (by simp [saveHead, leBytes_length])]
  have h16 := area_is_read b i l (n := 16) (by omega) hm
  have hall := area_is_read b i l (n := n) (by omega) hm
  have hz : (0x20000 : Word) + BitVec.ofNat 64 (4096 * 0) = 0x20000 := by decide
  have hmin : min 4096 (n - 4096 * 0) = n := by omega
  have hone : (n + 4095) / 4096 = 1 := by omega
  rw [restores, hs, hn]
  refine ⟨hv, hr, rfl, rfl, by decide, h16.1, ?_, ?_, ?_, by omega, ?_, ?_⟩
  · rw [h16.2, hh]; rcases h with rfl | rfl <;> decide
  · rw [h16.2, hh]; rcases h with rfl | rfl <;> decide
  · rw [h16.2, hh]; rcases h with rfl | rfl <;> decide
  · intro j hj
    obtain rfl : j = 0 := by omega
    beta_reduce
    rw [hz, hmin]
    exact hall.1
  · rw [hone, show List.range 1 = [0] from rfl, List.flatMap_cons, List.flatMap_nil, List.append_nil]
    beta_reduce
    rw [hz, hmin, hall.2, List.take_of_length_le (by omega)]

/-- A save area of 152 bytes: header, the digest of the Waymark, nothing of a partition, and its own digest. -/
def areaBody (d : List Byte) : List Byte := saveHead 152 ++ d ++ List.replicate 40 0
def area (d : List Byte) : List Byte := areaBody d ++ sha384 (areaBody d)

/-- A save of a partition that holds ASID 2 and key slot 2. -/
def aSave (d : List Byte) : Save :=
  { number := 0, area := area d, partition := { aPart with asids := [2], keys := [2] }, clusters := [{}], cores := [], harts := []
    gangs := [], orphans := [] }

theorem length_sha384 (l : List Byte) (h : (Sha.blocks Sha.roundConstants ((Sha.padded l).length / 128) (Sha.padded l) Sha.initial).length = 8) :
    (sha384 l).length = 48 := by
  rw [sha384]
  generalize Sha.blocks _ _ _ _ = x at *
  obtain ⟨a, b, c, d, e, f, g, k, rfl⟩ : ∃ a b c d e f g k, x = [a, b, c, d, e, f, g, k] := by
    match x, h with
    | [a, b, c, d, e, f, g, k], _ => exact ⟨_, _, _, _, _, _, _, _, rfl⟩
  simp [Sha.bigBytes, leBytes_length]

theorem length_blocks (ks : List (BitVec 64)) (n : Nat) (l : List Byte) (h : List (BitVec 64)) (g : h.length = 8) :
    (Sha.blocks ks n l h).length = 8 := by
  induction n generalizing l h with
  | zero => exact g
  | succ n ih => exact ih _ _ rfl

theorem length_digest (l : List Byte) : (sha384 l).length = 48 := length_sha384 l (length_blocks _ _ _ _ (by rw [Sha.initial, List.length_map]; decide +kernel))

theorem placeClusters_congr {s t : State} (h : ∀ c, s.core c = t.core c) (ms free : List Nat) :
    s.placeClusters ms free = t.placeClusters ms free := by
  have hh : ∀ m, s.hosts m = t.hosts m := fun m => by
    funext k
    simp only [State.hosts, h]
  induction ms generalizing free with
  | nil => rfl
  | cons m ms ih => simp only [State.placeClusters, hh, ih]

theorem saveMasks_congr {v w : Save} (h : v.clusters = w.clusters) (g : v.cores = w.cores) : State.saveMasks v = State.saveMasks w := by
  simp only [State.saveMasks, h, g]

theorem length_area {d : List Byte} (hd : d.length = 48) : (area d).length = 152 := by
  simp [area, areaBody, saveHead, leBytes_length, length_digest, hd]

/-- Its digest is right, and the digest of the Waymark stands at byte 16. -/
theorem area_is_whole {d : List Byte} (hd : d.length = 48) :
    sha384 ((area d).take (152 - 48)) = (area d).drop (152 - 48) ∧ ((area d).drop 16).take 48 = d := by
  have hb : (areaBody d).length = 152 - 48 := by simp [areaBody, saveHead, leBytes_length, hd]
  refine ⟨?_, ?_⟩
  · rw [area, List.take_left' hb, List.drop_left' hb]
  · rw [area, areaBody, List.append_assoc, List.append_assoc, List.drop_left' (by simp [saveHead, leBytes_length]), List.take_left' hd]

theorem restores_area {d : List Byte} (hd : d.length = 48) (i : Word) (l : List Save)
    (g : let t := sysState 0 [i, 0x20000, 152]
      t.maps 0x20000 (page 0x20000 2) = true ∧ t.getS 2 = 0x20000 ∧ (t.getS 3).toNat = 152 ∧ t.level t.cur = 2 ∧ t.runs 0 = true) :
    restores (restState (area d) i l) 152 (area d) :=
  restores_restState (area d) i l 152 (d ++ List.replicate 40 0 ++ sha384 (areaBody d))
    (by simp only [area, areaBody, List.append_assoc]) (length_area hd) (.inr rfl) g

/-- A restore that is accepted: the area is whole, of this device, and of a save that it holds. -/
theorem witness_qrest_accepts :
    let d := wayDigest false
    let s := restState (area d) 2 [aSave d]
    restores s 152 (area d) ∧ 152 ≤ 152 ∧ sha384 ((area d).take (152 - 48)) = (area d).drop (152 - 48) ∧
    ((area d).drop 16).take 48 = wayDigest s.reducedService ∧ s.saves.find? (fun z => z.area == area d) = some (aSave d) ∧
    (s.partition 2).slice = [] ∧ s.fits 2 (aSave d) = true ∧ (s.getS 1).toNat = 2 ∧
    s.placeClusters (State.saveMasks (aSave d)) ((List.range 104).filter s.mayTake) = some [1] := by
  have hd : (wayDigest false).length = 48 := length_digest _
  generalize hw : wayDigest false = d at *
  intro d s
  have hw : wayDigest false = d := hw
  have e : s.reducedService = false := (by decide +kernel : (sysState 0 [2, 0x20000, 152]).reducedService = false)
  refine ⟨restores_area hd 2 _ (by decide +kernel), by decide, (area_is_whole hd).1, by rw [(area_is_whole hd).2, e, hw], ?_, rfl, ?_, rfl, ?_⟩
  · simp [s, restState, aSave]
  · have g : ((aSave d).area.drop 16).take 48 = d := (area_is_whole hd).2
    rw [State.fits, e, g, hw]
    simp only [beq_self_eq_true]
    rfl
  · rw [placeClusters_congr (s := s) (t := sysState 0 [2, 0x20000, 152]) fun _ => rfl,
      saveMasks_congr (v := aSave d) (w := aSave []) (by simp only [aSave]) (by simp only [aSave])]
    have hc : s.mayTake = (sysState 0 [2, 0x20000, 152]).mayTake := rfl
    rw [hc]
    decide +kernel

theorem map_succ_ne {d : List Byte} (h : d ≠ []) : d.map (· + 1) ≠ d := by
  cases d with
  | nil => exact absurd rfl h
  | cons b t =>
    intro g
    simp only [List.map_cons, List.cons.injEq] at g
    have g := congrArg BitVec.toNat g.1
    rw [BitVec.toNat_add] at g
    have := b.isLt
    have e : (1 : Byte).toNat = 1 := rfl
    omega

/-- Restores that are refused: no area, one that is too short, one of another device, one that no save left here, and one for a
partition that holds clusters or that is number 0. -/
theorem witness_qrest_refuses :
    let d := wayDigest false
    (let s := restState (List.replicate 16 0) 2 []
     s.readable (s.getS 2) 16 (page 0x20000 2) = true ∧
       fileNat ((s.globalFor s.cur).bytes ((page 0x20000 2).physical (s.getS 2).toNat) 16) 0 4 ≠ 0x4B575356) ∧
    (restores (restState (saveHead 16) 2 []) 16 (saveHead 16) ∧ ¬ 152 ≤ 16) ∧
    (∃ x, x.length = 48 ∧ restores (restState (area x) 2 []) 152 (area x) ∧ ((area x).drop 16).take 48 ≠ d) ∧
    (restores (restState (area d) 2 []) 152 (area d) ∧ ∀ y ∈ (restState (area d) 2 []).saves, y.area ≠ area d) ∧
    (let s := restState (area d) 1 [aSave d]
     restores s 152 (area d) ∧ s.saves.find? (fun z => z.area == area d) = some (aSave d) ∧ (s.partition 1).slice ≠ []) ∧
    (let s := restState (area d) 0 [aSave d]
     restores s 152 (area d) ∧ s.saves.find? (fun z => z.area == area d) = some (aSave d) ∧ (s.partition 0).slice = [] ∧ (s.getS 1).toNat = 0) := by
  have hd : (wayDigest false).length = 48 := length_digest _
  generalize wayDigest false = d at *
  intro d
  have hx : (d.map (· + 1)).length = 48 := by rw [List.length_map, hd]
  refine ⟨?_, ⟨restores_restState _ 2 [] 16 [] (by simp) (by simp [saveHead, leBytes_length]) (.inl rfl) (by decide +kernel), by decide⟩,
    ⟨d.map (· + 1), hx, restores_area hx 2 [] (by decide +kernel), ?_⟩,
    ⟨restores_area hd 2 [] (by decide +kernel), by simp [restState]⟩,
    ⟨restores_area hd 1 _ (by decide +kernel), by simp [restState, aSave], ?_⟩,
    ⟨restores_area hd 0 _ (by decide +kernel), by simp [restState, aSave], rfl, rfl⟩⟩
  · have h := area_is_read (List.replicate 16 0) 2 [] (n := 16) (by simp) (by decide +kernel)
    have hs : (restState (List.replicate 16 0) 2 []).getS 2 = 0x20000 := rfl
    refine ⟨by rw [hs]; exact h.1, ?_⟩
    rw [hs, h.2]
    decide
  · rw [(area_is_whole hx).2]
    exact map_succ_ne (List.length_pos_iff.1 (by rw [hd]; decide))
  · have h : ((sysState 0 [1, 0x20000, 152]).partition 1).slice ≠ [] := by decide +kernel
    exact h

/-- A new image that takes a handover structure: its HVER holds the version, and the digest is that of the body (R401). -/
theorem witness_handover_taken (body : List Byte) :
    takesHandover [] (List.replicate 24 0 ++ (sha384 body ++ (List.replicate 56 0 ++ body))) = true := by
  have h1 : fileNat (List.replicate 24 0 ++ (sha384 body ++ (List.replicate 56 0 ++ body))) 4 2 = 0 := by
    rw [fileNat, List.drop_append_of_le_length (by simp), List.take_append_of_le_length (by simp)]
    decide
  have h4 : ((List.replicate 24 0 ++ (sha384 body ++ (List.replicate 56 0 ++ body))).drop 128) = body := by
    rw [← List.append_assoc, ← List.append_assoc, List.drop_left' (by simp [length_digest])]
  rw [takesHandover, h1, h4, List.drop_left' (by simp), List.take_left' (length_digest _)]
  simp only [beq_self_eq_true]
  decide

/-- A firmware image whose header and signature block are well formed, for the stage that its byte 6 names: it is accepted where its
signatures verify. -/
theorem witness_image_accepted (stage : Fin 6) :
    let image := leBytes 4 0x4B574657 ++ leBytes 2 1 ++ leBytes 1 stage.val ++ leBytes 9 0 ++ leBytes 8 8 ++ List.replicate 160 (0 : Byte)
    imageSigned image = true → imageFault {} stage.val (some image) = 0 := by
  intro image h
  have hk : imageHeaderOk stage.val image = true := by
    clear h
    revert stage
    decide +kernel
  have hn : ¬ imageSvn image < ({} : State).svnMin.get stage.val 0 := by simp [Table.get, Table.find]
  rw [imageFault, hk, h]
  simp [hn]

theorem witness_qsave : Config.saveLength 0 = 0 →
    let s (n : Word) := (sysState 0 [1, 0x20000, n]).setPartition 1 { aPart with preempt := .stopping }
    let size := 104 + 4 * aPart.slice.length + Config.saveLength 0 + 48
    (s 156).partitions.find 1 = some { aPart with preempt := .stopping } ∧ (s 156).update = .running ∧ (s 156).quiescent 1 = true ∧
      (s 156).saves.length = 0 ∧ size ≤ ((s 156).getS 3).toNat ∧ ((s 155).getS 3).toNat < size ∧
      ∀ j, 4096 * j < size → (s 156).writable ((s 156).getS 2 + BitVec.ofNat 64 (4096 * j)) (page 0x20000 2) = true := by
  intro h s size
  have hz : size = 156 := by simp [size, h, aPart]
  refine ⟨by decide +kernel, rfl, by decide +kernel, rfl, by rw [hz]; decide +kernel, by rw [hz]; decide +kernel, fun j hj => ?_⟩
  obtain rfl : j = 0 := by omega
  decide +kernel

/-- A save is answered 2 for a partition that still runs, and where there is none; and it waits during an update. -/
theorem witness_qsave_refuses :
    let s := sysState 0 [1, 0x20000, 156]
    s.partitions.find 1 = some aPart ∧ s.quiescent 1 = false ∧ s.partitions.find 2 = none ∧
      ({ s with update := .quiescing } : State).update ≠ .running := by decide +kernel

/-! ### Loading objects (03)

The files below are well formed; whether their signatures verify is for Config to say. -/

/-- An entry of a section table: type, LINK, offset, length, place. -/
def entry (ty link off len place : Nat) : List Byte :=
  leBytes 2 ty ++ leBytes 2 0 ++ leBytes 2 link ++ leBytes 2 0 ++ leBytes 8 off ++ leBytes 8 len ++ leBytes 8 place

/-- A file: header, section table, the bytes after it, and a signature block with empty signatures. -/
def aFile (entries : List (List Byte)) (body : List Byte) : List Byte :=
  let n := entries.length
  let sig := 128 + 32 * n + body.length
  leBytes 4 0x4B57434F ++ leBytes 2 1 ++ leBytes 2 0 ++ leBytes 4 n ++ leBytes 4 0 ++ leBytes 8 (sig + 112) ++ leBytes 8 128
    ++ leBytes 8 sig ++ leBytes 4 112 ++ List.replicate 84 0 ++ entries.flatten ++ body ++ List.replicate 112 0

/-- A native image of one page, the first 8 bytes of the file, and the digest of its page. -/
def nativeFile : List Byte := aFile [entry 3 0xFFFF 0 8 0x10000, entry 5 0xFFFF 192 48 0] (List.replicate 48 0)

/-- A native image and an empty data section, or an empty private code and a pathfinder of 4 bytes: either with a manifest that names a
key n times, and the digest of its one page. -/
def sample (native : Bool) (n k : Nat) (d : List Byte) : List Byte :=
  aFile ((if native then [entry 3 3 0 8 0x10000, entry 4 0xFFFF 0 0 0x500000] else [entry 1 0xFFFF 0 0 0x10000, entry 2 3 0 4 0])
    ++ [entry 5 0xFFFF 272 48 0, entry 6 0xFFFF 256 (8 + 4 * n) 0])
    (leBytes 4 n ++ leBytes 4 0 ++ leBytes 4 k ++ leBytes 4 k ++ d)


/-! Two files that differ in a digest and the keys of a manifest alone have the same form. -/

/-- Files of one length that agree outside bytes 264 to 319. -/
def Agree (o p : List Byte) : Prop := o.length = p.length ∧ ∀ i, i < 264 ∨ 320 ≤ i → o[i]? = p[i]?

theorem fileNat_agree {o p : List Byte} (h : Agree o p) {k n : Nat} (g : k + n ≤ 264 ∨ 320 ≤ k) : fileNat o k n = fileNat p k n := by
  have : (o.drop k).take n = (p.drop k).take n := by
    refine List.ext_getElem? fun i => ?_
    simp only [List.getElem?_take, List.getElem?_drop]
    split
    · exact h.2 _ (by omega)
    · rfl
  rw [fileNat, fileNat, this]

theorem firstNonZero_agree {o p : List Byte} (h : Agree o p) {k n : Nat} (g : k + n ≤ 264 ∨ 320 ≤ k) : firstNonZero o k n = firstNonZero p k n := by
  have : (((List.range n).map (k + ·)).filter fun i => o.getD i 0 != 0) = ((List.range n).map (k + ·)).filter fun i => p.getD i 0 != 0 := by
    refine List.filter_congr fun i hi => ?_
    simp only [List.mem_map, List.mem_range] at hi
    obtain ⟨j, hj, rfl⟩ := hi
    simp only [List.getD_eq_getElem?_getD, h.2 (k + j) (by omega)]
  rw [firstNonZero, firstNonZero, this]

theorem headerFaults_agree {o p : List Byte} (h : Agree o p) : headerFaults o = headerFaults p := by
  simp only [headerFaults, h.1, fileNat_agree h (k := 0) (n := 4) (by omega), fileNat_agree h (k := 4) (n := 2) (by omega), fileNat_agree h (k := 6) (n := 2) (by omega),
    fileNat_agree h (k := 8) (n := 4) (by omega), fileNat_agree h (k := 16) (n := 8) (by omega), fileNat_agree h (k := 24) (n := 8) (by omega), fileNat_agree h (k := 32) (n := 8) (by omega),
    fileNat_agree h (k := 40) (n := 4) (by omega), firstNonZero_agree h (k := 44) (n := 84) (by omega)]

theorem sectionsOf_agree {o p : List Byte} (h : Agree o p) (g : fileNat p 8 4 = 4 ∧ fileNat p 24 8 = 128) : sectionsOf o = sectionsOf p := by
  simp only [sectionsOf, fileNat_agree h (k := 8) (n := 4) (by omega), g.1]
  refine List.map_congr_left fun i hi => ?_
  rw [List.mem_range] at hi
  have e : fileNat o 24 8 = 128 := by rw [fileNat_agree h (by omega), g.2]
  simp only [readSection, e, g.2]
  simp only [fileNat_agree h (k := 128 + 32 * i) (n := 2) (by omega), fileNat_agree h (k := 128 + 32 * i + 2) (n := 2) (by omega),
    fileNat_agree h (k := 128 + 32 * i + 4) (n := 2) (by omega), fileNat_agree h (k := 128 + 32 * i + 6) (n := 2) (by omega),
    fileNat_agree h (k := 128 + 32 * i + 8) (n := 8) (by omega), fileNat_agree h (k := 128 + 32 * i + 16) (n := 8) (by omega),
    fileNat_agree h (k := 128 + 32 * i + 24) (n := 8) (by omega)]

theorem entryFaults_agree {o p : List Byte} (h : Agree o p) (all : List Section) (x : Section) (g : x.ty = 6 → x.offset = 256)
    (k : x.entry + 8 ≤ 264) : entryFaults o all x = entryFaults p all x := by
  by_cases h6 : x.ty = 6
  · simp only [entryFaults, h.1, fileNat_agree h (k := 32) (n := 8) (by omega), fileNat_agree h (k := x.offset) (n := 4) (by have := g h6; omega),
      firstNonZero_agree h (k := x.offset + 4) (n := 4) (by have := g h6; omega), firstNonZero_agree h (k := x.entry + 6) (n := 2) (by omega)]
  · have h6' : (x.ty == 6) = false := by simpa using h6
    simp only [entryFaults, h.1, fileNat_agree h (k := 32) (n := 8) (by omega), h6',
      firstNonZero_agree h (k := x.entry + 6) (n := 2) (by omega)]
    split
    · rfl
    · split <;> first | rfl | exact absurd ‹_› h6

theorem signatureFaults_agree {o p : List Byte} (h : Agree o p) (g : 320 ≤ fileNat p 32 8) : signatureFaults o = signatureFaults p := by
  simp only [signatureFaults, fileNat_agree h (k := 32) (n := 8) (by omega), fileNat_agree h (k := 40) (n := 4) (by omega),
    fileNat_agree h (k := fileNat p 32 8) (n := 4) (.inr g), fileNat_agree h (k := fileNat p 32 8 + 104) (n := 4) (.inr (by omega)),
    firstNonZero_agree h (k := fileNat p 32 8 + 4) (n := 4) (.inr (by omega)), firstNonZero_agree h (k := fileNat p 32 8 + 108) (n := 4) (.inr (by omega)),
    firstNonZero_agree h (k := fileNat p 32 8 + 4) (n := min 4 (fileNat p 40 4 - 4)) (.inr (by omega)),
    firstNonZero_agree h (k := fileNat p 32 8 + 112 + fileNat p (fileNat p 32 8 + 104) 4) (.inr (by omega))]

theorem formatFaults_agree {o p : List Byte} (h : Agree o p) (g : fileNat p 8 4 = 4 ∧ fileNat p 24 8 = 128) (k : 320 ≤ fileNat p 32 8)
    (e : ∀ x ∈ sectionsOf p, x.ty = 6 → x.offset = 256) : formatFaults o = formatFaults p := by
  have he (all : List Section) (hs : ∀ x ∈ all, x ∈ sectionsOf p) : all.map (entryFaults o all) = all.map (entryFaults p all) :=
    List.map_congr_left fun x hx => entryFaults_agree h _ x (e x (hs x hx)) (by
      have hx := hs x hx
      simp only [sectionsOf, g.1, List.mem_map, List.mem_range] at hx
      obtain ⟨i, hi, rfl⟩ := hx
      simp only [readSection, g.2]
      omega)
  simp only [formatFaults, tableFaults, headerFaults_agree h, sectionsOf_agree h g, signatureFaults_agree h k, h.1,
    fileNat_agree h (k := 8) (n := 4) (by omega), fileNat_agree h (k := 24) (n := 8) (by omega)]
  rw [he _ fun x hx => ?_]
  split at hx
  · exact (List.mem_filter.1 hx).1
  · simp at hx

theorem sample_parts (t : Bool) (n : Nat) : ∃ a b : List Byte, a.length = 260 ∧ ∀ (k : Nat) (d : List Byte), d.length = 48 →
    sample t n k d = leBytes 4 0x4B57434F ++ a ++ (leBytes 4 k ++ leBytes 4 k ++ d ++ b) := by
  refine ⟨leBytes 2 1 ++ leBytes 2 0 ++ leBytes 4 4 ++ leBytes 4 0 ++ leBytes 8 432 ++ leBytes 8 128
    ++ leBytes 8 320 ++ leBytes 4 112 ++ List.replicate 84 0 ++ ((if t then [entry 3 3 0 8 0x10000, entry 4 0xFFFF 0 0 0x500000] else
    [entry 1 0xFFFF 0 0 0x10000, entry 2 3 0 4 0]) ++ [entry 5 0xFFFF 272 48 0,
    entry 6 0xFFFF 256 (8 + 4 * n) 0]).flatten ++ leBytes 4 n ++ leBytes 4 0, List.replicate 112 0, ?_, fun k d hd => ?_⟩
  · cases t <;> simp [entry, leBytes_length, -List.reduceReplicate]
  · cases t <;> simp [sample, aFile, hd, leBytes_length, -List.reduceReplicate]

theorem agree_sample (t : Bool) (n k : Nat) (d : List Byte) (h : d.length = 48) : Agree (sample t n k d) (sample t n 0 (List.replicate 48 0)) := by
  obtain ⟨a, b, ha, hf⟩ := sample_parts t n
  have hl : (leBytes 4 0x4B57434F ++ a).length = 264 := by simp [leBytes_length, ha]
  have h1 : (leBytes 4 k ++ leBytes 4 k ++ d).length = 56 := by simp [leBytes_length, h]
  have h2 : (leBytes 4 0 ++ leBytes 4 0 ++ List.replicate 48 (0 : Byte)).length = 56 := by simp [leBytes_length]
  rw [hf k d h, hf 0 _ (by simp)]
  generalize leBytes 4 0x4B57434F ++ a = w at hl
  generalize leBytes 4 k ++ leBytes 4 k ++ d = x at h1
  generalize leBytes 4 0 ++ leBytes 4 0 ++ List.replicate 48 (0 : Byte) = y at h2
  refine ⟨by simp [h1, h2], fun i hi => ?_⟩
  rcases hi with hi | hi
  · rw [List.getElem?_append_left (by omega), List.getElem?_append_left (by omega)]
  · rw [List.getElem?_append_right (by omega), List.getElem?_append_right (by omega), List.getElem?_append_right (by omega),
      List.getElem?_append_right (by omega), h1, h2]

/-- The four sections of a sample. -/
theorem sections_sample (t : Bool) (n k : Nat) (d : List Byte) (h : d.length = 48) (hn : n = 0 ∨ n = 2) : sectionsOf (sample t n k d) =
    [if t then { index := 0, entry := 128, ty := 3, flags := 0, link := 3, reserved := 0, offset := 0, length := 8, place := 0x10000 }
     else { index := 0, entry := 128, ty := 1, flags := 0, link := 0xFFFF, reserved := 0, offset := 0, length := 0, place := 0x10000 },
     if t then { index := 1, entry := 160, ty := 4, flags := 0, link := 0xFFFF, reserved := 0, offset := 0, length := 0, place := 0x500000 }
     else { index := 1, entry := 160, ty := 2, flags := 0, link := 3, reserved := 0, offset := 0, length := 4, place := 0 },
     { index := 2, entry := 192, ty := 5, flags := 0, link := 0xFFFF, reserved := 0, offset := 272, length := 48, place := 0 },
     { index := 3, entry := 224, ty := 6, flags := 0, link := 0xFFFF, reserved := 0, offset := 256, length := 8 + 4 * n, place := 0 }] := by
  rw [sectionsOf_agree (agree_sample t n k d h) (by rcases hn with rfl | rfl <;> cases t <;> decide +kernel)]
  rcases hn with rfl | rfl <;> cases t <;> decide +kernel

/-- A sample is well formed, whatever its keys and its digest. -/
theorem formatFaults_sample (t : Bool) (n k : Nat) (d : List Byte) (h : d.length = 48) (hn : n = 0 ∨ n = 2) : formatFaults (sample t n k d) = [] := by
  rw [formatFaults_agree (agree_sample t n k d h)]
  all_goals rcases hn with rfl | rfl <;> cases t <;> decide +kernel

/-- The pages of a pathfinder pass as their one digest says; those of a native image are not asked. -/
theorem firstBadPage_sample (t : Bool) (n k : Nat) (d : List Byte) (h : d.length = 48) (hn : n = 0 ∨ n = 2) :
    firstBadPage (sample t n k d) = if t = true ∨ d = pageHash (leBytes 4 0x4B57434F) 0 then none else some 0 := by
  obtain ⟨a, b, ha, hf⟩ := sample_parts t n
  replace hf := hf k d h
  have h1 : ((sample t n k d).drop 272).take 48 = d := by
    rw [hf, show leBytes 4 0x4B57434F ++ a ++ (leBytes 4 k ++ leBytes 4 k ++ d ++ b) =
      (leBytes 4 0x4B57434F ++ a ++ leBytes 4 k ++ leBytes 4 k) ++ (d ++ b) by simp, List.drop_left' (by simp [leBytes_length, ha]), List.take_left' h]
  have h2 : (sample t n k d).take 4 = leBytes 4 0x4B57434F := by
    rw [hf, List.append_assoc, List.take_left' (by simp [leBytes_length])]
  simp only [firstBadPage, pageDigests, sections_sample t n k d h hn]
  cases t <;> simp [Section.pages, Section.bytes, Section.isCode, h1, h2]

/-- The keys that the manifest of a sample names. -/
theorem manifest_sample (t : Bool) (n k : Nat) (d : List Byte) (h : d.length = 48) (hn : n = 0 ∨ n = 2) (hk : k < 2 ^ 32) (x : Section) (hx : x.link = 3) :
    x.manifest (sample t n k d) = List.replicate n k := by
  have ha := agree_sample t n k d h
  have e0 : fileNat (sample t n k d) 24 8 = 128 := by
    rw [fileNat_agree ha (by omega)]; rcases hn with rfl | rfl <;> cases t <;> decide +kernel
  have e1 : fileNat (sample t n k d) 232 8 = 256 := by
    rw [fileNat_agree ha (by omega)]; rcases hn with rfl | rfl <;> cases t <;> decide +kernel
  have e2 : fileNat (sample t n k d) 256 4 = n := by
    rw [fileNat_agree ha (by omega)]; rcases hn with rfl | rfl <;> cases t <;> decide +kernel
  obtain ⟨a, b, hl, hf⟩ := sample_parts t n
  replace hf := hf k d h
  have e3 : fileNat (sample t n k d) 264 4 = k := by
    rw [fileNat, hf, List.drop_left' (by simp [leBytes_length, hl])]
    simp only [List.append_assoc]
    rw [List.take_left' (by simp [leBytes_length]), leNat_leBytes]
    omega
  have e4 : fileNat (sample t n k d) 268 4 = k := by
    rw [fileNat, hf, show leBytes 4 0x4B57434F ++ a ++ (leBytes 4 k ++ leBytes 4 k ++ d ++ b) =
      (leBytes 4 0x4B57434F ++ a ++ leBytes 4 k) ++ (leBytes 4 k ++ (d ++ b)) by simp, List.drop_left' (by simp [leBytes_length, hl]),
      List.take_left' (by simp [leBytes_length]), leNat_leBytes]
    omega
  simp only [Section.manifest, hx, readSection, e0, e1, e2, reduceIte, Nat.reduceEqDiff, Nat.reduceMul, Nat.reduceAdd]
  rcases hn with rfl | rfl
  · rfl
  · simp [List.range_succ, e3, e4, List.replicate]

/-! A key that the Waymark table lacks: there are fewer records than keys. -/

theorem records_are_few : (allRecords false).length < 2000 := by decide +kernel

theorem absent_key : ∃ k, k < 2000 ∧ ∀ mask, wayFind false mask k = none := by
  by_contra h
  simp only [not_exists, not_and, not_forall] at h
  have hs : List.range 2000 ⊆ (allRecords false).map (·.key) := by
    intro k hk
    obtain ⟨mask, hm⟩ := h k (List.mem_range.1 hk)
    simp only [wayFind, Option.map_eq_none_iff, List.find?_eq_none, Bool.and_eq_true, beq_iff_eq, not_forall, Decidable.not_not] at hm
    obtain ⟨r, hr, e, -⟩ := hm
    exact List.mem_map.2 ⟨r, hr, e⟩
  have := (List.subperm_of_subset List.nodup_range hs).length_le
  simp only [List.length_range, List.length_map] at this
  have := records_are_few
  omega

/-! The checks in their order -/

theorem witness_LoadsGoThroughTheirChecks :
    let s := tiny (aHart {})
    s.partitions.find 1 ≠ none ∧ fileNat [] 0 4 ≠ 0x4B57434F ∧ (0 ∈ formatFaults [] ∧ ∀ e ∈ formatFaults [], 0 ≤ e) ∧
    (formatFaults nativeFile = [] ∧ signedBy nativeFile .empty = false ∧
      (s.partition 1).keyStore.get (fileNat nativeFile (fileNat nativeFile 32 8) 4) .empty = .empty) := by
  decide +kernel

/-- Of two files that differ in the digest of a page, one has a page that fails. -/
theorem witness_bad_page : ∃ d, formatFaults (sample false 0 0 d) = [] ∧ firstBadPage (sample false 0 0 d) = some 0 := by
  by_cases h : List.replicate 48 0 = pageHash (leBytes 4 0x4B57434F) 0
  · refine ⟨List.replicate 48 1, formatFaults_sample _ 0 0 _ rfl (.inl rfl), ?_⟩
    rw [firstBadPage_sample _ 0 0 _ rfl (.inl rfl), if_neg (by rw [← h]; decide)]
  · refine ⟨List.replicate 48 0, formatFaults_sample _ 0 0 _ rfl (.inl rfl), ?_⟩
    rw [firstBadPage_sample _ 0 0 _ rfl (.inl rfl), if_neg (by simpa only [Bool.false_eq_true, false_or] using h)]

/-- A native image that matches, with no page to draw and with one. -/
theorem witness_native_image :
    formatFaults nativeFile = [] ∧ firstBadPage nativeFile = none ∧
    ((chooseNative (tiny (aHart {})) 1 nativeFile).map fun x =>
      ((x.bytes nativeFile).length == x.length, x.length % 8, (x.length / 8 * 8 + 65535) / 65536)) = some (true, 0, 1) ∧
    (((sectionsOf nativeFile).filter fun x => x.ty == 4).map Section.pages).sum = 0 ∧
    ((tiny (aHart {})).partition 1).framesLeft.length - State.cairnPages ((tiny (aHart {})).partition 1) = 0 ∧
    (let q := { aPart with framesLeft := [7] }
     q.framesLeft.length - State.cairnPages q = 1) := by decide +kernel

theorem tiny_plain : (tiny (aHart {})).reducedService = false := by decide +kernel

theorem absent_twice {k : Nat} (h : ∀ mask, wayFind false mask k = none) : (tiny (aHart {})).absentKeys 1 (List.replicate 2 k) = [k, k] := by
  simp only [State.absentKeys, tiny_plain, List.replicate, List.filter_cons, List.filter_nil, h, Option.isNone_none, if_true]

/-- A native image that names an absent key, and no pathfinder. -/
theorem witness_no_image : ∃ o, formatFaults o = [] ∧ firstBadPage o = none ∧ (∀ x ∈ sectionsOf o, x.ty ≠ 2) ∧
    chooseNative (tiny (aHart {})) 1 o = none := by
  obtain ⟨k, hk, hm⟩ := absent_key
  refine ⟨sample true 2 k (List.replicate 48 0), formatFaults_sample _ 2 k _ rfl (.inr rfl), ?_, ?_, ?_⟩
  · rw [firstBadPage_sample _ 2 k _ rfl (.inr rfl), if_pos (.inl rfl)]
  · rw [sections_sample _ 2 k _ rfl (.inr rfl)]; simp
  · have hx (x : Section) (hx : x.link = 3) := manifest_sample true 2 k (List.replicate 48 0) rfl (.inr rfl) (by omega) x hx
    rw [chooseNative, sections_sample _ 2 k _ rfl (.inr rfl)]
    simp only [if_true, List.filter_cons, hx, absent_twice hm]
    rfl

/-- A pathfinder whose pages pass, with an empty manifest or one of an absent key; with and without its translation in the Cairn cache. -/
theorem witness_pathfinder :
    (∃ o pf pv, formatFaults o = [] ∧ firstBadPage o = none ∧ (sectionsOf o).find? (·.ty == 2) = some pf ∧
      (sectionsOf o).find? (·.ty == 1) = some pv ∧ pf.manifest o = [] ∧ (∀ s, chooseNative s 1 o = none) ∧
      (let s := tiny (aHart {})
       (s.partition 1).cairn = [] ∧ s.clearings = []) ∧
      ∀ key : List Byte,
        let q := { aPart with cairn := [(key, [])] }
        q.cairn.find? (·.1 == key) = some (key, []) ∧ (0 * 8 + 65535) / 65536 + 0 ≤ q.framesLeft.length - State.cairnPages q) ∧
    (∃ o pf pv k rest, formatFaults o = [] ∧ firstBadPage o = none ∧ (sectionsOf o).find? (·.ty == 2) = some pf ∧
      (sectionsOf o).find? (·.ty == 1) = some pv ∧ (∀ s, chooseNative s 1 o = none) ∧
      (tiny (aHart {})).absentKeys 1 (pf.manifest o) = k :: rest) := by
  have hd : (pageHash (leBytes 4 0x4B57434F) 0).length = 48 := length_digest _
  have key (n k : Nat) (hn : n = 0 ∨ n = 2) (hk : k < 2 ^ 32) :
      ∃ o pf pv, formatFaults o = [] ∧ firstBadPage o = none ∧ (sectionsOf o).find? (·.ty == 2) = some pf ∧
        (sectionsOf o).find? (·.ty == 1) = some pv ∧ (∀ s, chooseNative s 1 o = none) ∧ pf.manifest o = List.replicate n k := by
    generalize hp : pageHash (leBytes 4 0x4B57434F) 0 = d at hd
    have hs := sections_sample false n k d hd hn
    refine ⟨sample false n k d, _, _, formatFaults_sample _ n k _ hd hn, ?_, by rw [hs]; rfl, by rw [hs]; rfl, fun s => ?_,
      manifest_sample _ n k _ hd hn hk _ rfl⟩
    · rw [firstBadPage_sample _ n k _ hd hn, if_pos (.inr hp.symm)]
    · rw [chooseNative, hs]; rfl
  obtain ⟨o, pf, pv, h1, h2, h3, h4, h5, h6⟩ := key 0 0 (.inl rfl) (by omega)
  obtain ⟨k, hk, hm⟩ := absent_key
  obtain ⟨o', pf', pv', k1, k2, k3, k4, k5, k6⟩ := key 2 k (.inr rfl) (by omega)
  exact ⟨⟨o, pf, pv, h1, h2, h3, h4, h6, h5, ⟨rfl, rfl⟩, fun d => ⟨by simp, Nat.zero_le _⟩⟩,
    ⟨o', pf', pv', k, [k], k1, k2, k3, k4, k5, by rw [k6, absent_twice hm]⟩⟩

/-! What follows a load -/

/-- A native object of one page, which is being hashed; its image is an export word count of 0 and one `end`. -/
def anObject (digests : List (List Byte)) (revoked : Bool) : Object :=
  { handle := 5, asid := 1, base := 0x10000, words := 2, entries := [(0, 1)], frames := [7]
    image := leBytes 8 0 ++ leBytes 8 0x39, digests, hashing := some 0, revoked }

/-- A partition with that object and a bound mailbox of it. -/
def objectState (digests : List (List Byte)) (revoked : Bool) : State :=
  { tiny (aHart {}) with partitions := [(1, { aPart with
      objects := [(5, anObject digests revoked)], mailboxes := [(3, { state := .armed, object := 5 })] })] }

theorem witness_after_a_load :
    (let c : Clearing := { aClearing [] with units := 1 }
     let s : State := { clearings := [(0, c)] }
     s.clearings.find 0 = some c ∧ c.waiting = [] ∧ c.running = true ∧ c.budget ≤ c.units) ∧
    (let s : State := { clearings := [(0, aClearing [])] }
     s.clearings.find 0 = some (aClearing []) ∧ (aClearing []).units < (aClearing []).budget) ∧
    (let c : Clearing := { aClearing [] with outcome := some (0x11, 0), waiting := [([], 0), ([], 1)] }
     c.part = 1 ∧ c.waiting[1]? = some ([], 1) ∧ 0x11 ≠ 0 ∧ c.waiting.eraseIdx 1 ≠ []) ∧
    (let s := objectState [[]] false
     s.memoryOk = true ∧ (s.partition 1).objects.find 5 = some (anObject [[]] false) ∧ (anObject [[]] false).hashing = some 0 ∧
     (∀ e ∈ s.clusters, ∀ x ∈ e.2.misses, x.records = []) ∧
     (s.partition 1).mailboxes.find 3 = some { state := .armed, object := 5 }) ∧
    (let s := objectState [[]] true
     (∃ e ∈ s.partitions, ∃ o, e.2.objects.find 5 = some o ∧ o.revoked = true)) := by
  refine ⟨by decide +kernel, by decide +kernel, by decide +kernel, by decide +kernel, ?_⟩
  exact ⟨_, List.mem_singleton.2 rfl, _, rfl, rfl⟩

theorem length_pageHash (b : List Byte) (i : Nat) : (pageHash b i).length = 48 := length_digest _

theorem digest_right (l : List Byte) (a : Bool) (h : a = true) : (([l] : List (List Byte)).getD 0 [] == l && a) = true := by simp [h]
theorem digest_wrong (l : List Byte) (a : Bool) (h : l ≠ []) : (([[]] : List (List Byte)).getD 0 [] == l && a) = false := by
  have : ([] == l) = false := by simpa using h.symm
  simp [this]

/-- A page whose digest is right and whose words are admitted, and one whose digest is not. -/
theorem witness_page_hash :
    (let o := anObject [pageHash (leBytes 8 0 ++ leBytes 8 0x39) 0] false
     (o.digests.getD 0 [] == pageHash o.image 0 && admitsPage false (wordsOf o.image) 0) = true) ∧
    (let o := anObject [[]] false
     (o.digests.getD 0 [] == pageHash o.image 0 && admitsPage false (wordsOf o.image) 0) = false) := by
  refine ⟨?_, ?_⟩
  · exact digest_right _ _ (by decide +kernel)
  · exact digest_wrong _ _ fun e => by
      have := length_pageHash (anObject [[]] false).image 0
      rw [e] at this
      cases this

/-! ### `ronas` (20): the two tables of lines and the words of the listing with two exports -/

/-- The words of an image, or the lines in breach. -/
def ronasImage (src : String) : Except (List Nat) (Option (List Byte)) :=
  match Asm.assemble src with
  | .ok a => .ok a.image
  | .error e => .error e

/-- Lines that 20, "Lines that ronas rejects", lists, each as the first of its source. -/
theorem test_ronas_rejects :
    (["li s3, 0x1_0000_0000", "addi.i64.sat s1, s1, 1", "add.i64 s1, s2, s3, la 1", "ld.i32 s3, [s2 + 40000]", "cas2 s7, [s4], s8, s10",
      "tlbw s3, s4, s5", "(g0) nop\nnop"].map fun s => match Asm.assemble s with | .error e => e | .ok _ => [])
      = List.replicate 7 [1] := by decide +kernel

/-- Suffixes may stand in any order (20 R411): two spellings of one word. -/
theorem test_ronas_suffix_order :
    ["vadd.f32.rtz.nf v1, v2, v3, k2", "vadd.nf.rtz.f32 v1, v2, v3, k2"].map ronasImage
      = List.replicate 2 (.ok (some (leBytes 16 (0x08000019010C4160 * 2 ^ 64)))) := by decide +kernel

/-- A line of the listing "An object with two exports", at the offset and in the section that it has there. -/
def listingContext (offset : Nat) : Asm.Context :=
  { env := fun n => if n = "SUM" then some (.int 8) else none, offset, address := offset, place := fun _ _ => none, length := 72 }

def listingLine (s : String) : Option Nat :=
  match (Asm.parse s).head? with
  | some { stmt := some (.instr l), .. } => Asm.ronidWord (listingContext 0) 0 l
  | _ => none

/-- Lines 6 to 9 and 11 of that listing, with the words that 20 gives for them. -/
theorem test_ronas_listing :
    ["ld.n16  s4, [s2 + 2]", "add.n16 s5, s3, s4", "st.n16  [s2 + SUM], s5", "end", "st.i64  [s2], s0"].map listingLine
      = [0x0021000250004440, 0x0000000500106501, 0x0021000850144041, 0x39, 0x0023000030004041].map some := by decide +kernel

/-! Misses, aborts, sleeping banks and owed traps -/

/-- The bank of a die cache that the line of 0x20100 lies in, whichever that is. -/
def sleeper : Bank := .dieCache (State.homeDie {} 0x20100) (Config.dieBank 1026 % 2048)

theorem asleep (s : State) (hd : s.detour = {}) (hb : s.banks = [(sleeper, .retention)]) : s.dieAwake 0x20100 1 = false := by
  have hs (pa : Nat) : s.homeDie pa = State.homeDie {} pa := by
    simp only [State.homeDie, State.stackOf, State.stacksOf, State.survivors, State.sweepOn, hd]
    rfl
  have h : s.dieBanks 0x20100 1 = [sleeper] := by
    simp only [State.dieBanks, hs]
    rfl
  have e : s.banks.isEmpty = false := by rw [hb]; rfl
  have f : s.banks.find sleeper = some .retention := by simp [hb, Table.find]
  simp only [State.dieAwake, h, e, List.all_cons, f]
  rfl

/-- A task with a store of an earlier region. -/
def older : Store := { cluster := none, bytes := [(0x20100, 7)], fresh := false }

theorem witness_a_miss_is_noted :
    (let s := tiny (aHart (scalars [0x30000]))
     isSlot s.cur = true ∧ s.missEntry (hartCluster s.cur) 1 3 = none ∧ (s.cluster 0).live < 256 ∧ (s.cluster 0).overflow = [] ∧
     (s.cluster 0).nextSeq < 2 ^ 32 ∧ s.asidOf s.cur < 2 ^ 8 ∧ s.mayPark s.cur = true ∧ s.keepsSlot s.cur = false ∧
     bits (0x30000 : Word).toNat 16 41 = 3) ∧
    (let e : MissEntry := { aMiss 7 true [] with parked := true }
     let s : State := { tiny { aHart {} with stores := [older, { older with fresh := true }] } with clusters := [(0, { owner := 1, misses := [e] })] }
     s.missEntry (hartCluster s.cur) 1 3 = some e ∧ e.parked = true ∧ s.mayPark s.cur = true ∧ s.keepsSlot s.cur = false ∧
     (let g : State := { s with harts := [(.slot 0 0, { aHart {} with task := some { aTask with gang := some 4 } })] }
      g.missEntry (hartCluster g.cur) 1 3 = some e ∧ g.mayPark g.cur = true ∧ g.keepsSlot g.cur = true)) ∧
    (let s := tiny { aHart {} with queue := [aCommand (.held 1) (.cfill 7), aCommand .kicked (.cfill 7)] }
     (s.hart (.slot 0 0)).inRegion.queue.map (·.state) = [.held 1, .kicked]) := by decide +kernel

/-- The task of a store whose bank sleeps may neither park nor leave; the access of a decrement, of a host, of a package and of
a port there waits. -/
theorem witness_banks_sleep :
    let s : State := { tiny { aHart {} with stores := [older] } with banks := [(sleeper, .retention)] }
    s.mayPark s.cur = false ∧ s.mayLeave s.cur = false ∧ s.dieAwake (0x20100 + 0) 1 = false ∧ s.banks.find sleeper = some .retention ∧
    s.dieBanks 0x20100 1 = [sleeper] ∧ s.me.task = some aTask := by
  intro s
  have h := asleep s rfl rfl
  have p : s.mayPark s.cur = false := by
    have e : (s.hart s.cur).olderStores = [older] := by decide +kernel
    rw [State.mayPark, e]
    simp [State.awakeFor, older, Store.addrs, h]
  refine ⟨p, ?_, h, by simp [s, Table.find], rfl, by decide +kernel⟩
  rw [State.mayPark] at p
  simp [State.mayLeave, p]

theorem witness_ports_and_decrements_wait :
    let s : State := { decrementState (page 0x20000 2) .normal with banks := [(sleeper, .retention)] }
    s.dieAwake (0x20100 / 128 * 128) 128 = false := by
  intro s
  have h := asleep s rfl rfl
  simp only [State.dieAwake] at h ⊢
  exact h

/-- A task whose matrix work goes on owes its trap; a watchdog does not displace it; the TSC waits before it ends such a record. -/
theorem witness_a_trap_is_owed :
    (let s : State := { tiny (aHart {}) with cores := [(0, { jobs := [job0] })] }
     s.mayLeave s.cur = false ∧ s.me.task = some aTask) ∧
    (let t : Trap := { cls := .pageFault }
     let s := tiny { aHart {} with verdict := some t, wd := 0x01000000 }
     (s.hart (.slot 0 0)).task = some aTask ∧ (s.hart (.slot 0 0)).verdict = some t ∧ t.cls ≠ .watchdog ∧
     aTask.wdlimit ≤ (s.hart (.slot 0 0)).wd ∧ s.mayLeave (.slot 0 0) = true) ∧
    (let p : Pending := { dests := [], left := 0, doneAt := none, job := 1 }
     let e : MissEntry := { aMiss 7 true [] with records := [(pendHart [p], .slot 0 2)] }
     (e.records.any fun r => r.1.working (missState [e] 7).now) = true) ∧
    (let h : Hart := pendHart [{ dests := [], left := 0, doneAt := none, job := 1 }]
     h.task = some aTask ∧ h.working 0 = true) := by decide +kernel

/-- A host, a package and a port find a bank asleep or a place beyond the limit, and an acknowledged flit its command. -/
theorem witness_what_arrives_waits :
    (let s : State := { hosted {} with banks := [(sleeper, .retention)] }
     (∃ i < 4, s.dieAwake (0x200FE + i) 1 = false) ∧ s.turnpikeBusy = false ∧ 0x20100 + 8 ≤ s.limit ∧ s.dieAwake (0x20100) 8 = false) ∧
    (let s : State := {}
     s.turnpikeBusy = false ∧ ([1] : List Byte) ≠ [] ∧ s.limit < s.limit - 1 + 8) ∧
    (let s := commanded [aCommand .kicked (.cfill 7)]
     (s.hart (.slot 0 0)).queue = [] ++ aCommand .kicked (.cfill 7) :: [] ∧ ∀ q ∈ ([] ++ [] : List Command), q.id ≠ (aCommand .kicked (.cfill 7)).id) := by
  refine ⟨?_, by decide +kernel, by decide +kernel⟩
  intro s
  have h := asleep s rfl rfl
  exact ⟨⟨2, by omega, h⟩, by decide +kernel, by decide +kernel, h⟩

/-- A restored entry is joined; a queue of a restored partition has no room. -/
theorem witness_restored_entries :
    ({ aMiss (2 ^ 32) false [] with restored := true } : MissEntry).restored = true ∧
    (256 < (List.replicate 257 (aMiss 7 true [])).length) ∧
    (({ misses := [{ aMiss (2 ^ 32) false [] with restored := true }] } : Cluster).live < 256) := by decide +kernel

/-! Signals, collectives and matrix jobs -/

/-- The task's `cpys` after its last granule, its signal word in the page of 0x20000, which this package or package 1 holds. -/
def signaller (set : Bool) (done : Nat) (scope : BitVec 3) : Command :=
  { aCommand .kicked (.cpys set) with aux := 0x20008, done, scope }
def signalled (c : Command) (far : Bool) : State :=
  { commanded [c] with clusters := [(0, { owner := 1, tlb := [page 0x20000 2] })], present := [0, 1], remote := if far then [(2, 1, 9)] else [] }

theorem witness_signals (set : Bool) :
    let c := signaller set 1 4
    let s := signalled c false
    (s.hart (.slot 0 0)).parked = none ∧ (s.hart (.slot 0 0)).verdict = none ∧ (s.hart (.slot 0 0)).queue[0]? = some c ∧ c.status = none ∧
    s.mayRun c = true ∧ s.engineOrder (.hart (.slot 0 0)) c = true ∧ c.mbx = none ∧ c.tag < 64 ∧ (s.hart (.slot 0 0)).tagdone.getLsbD c.tag = false ∧
    (s.hart (.slot 0 0)).tagfail.find c.tag = none ∧ s.upsets = [] ∧ s.memoryOk = true ∧ c.done = c.granules ∧ c.flits = 0 := by
  revert set; decide +kernel

theorem witness_signal_words (set : Bool) :
    let c := signaller set 1 4
    let s := signalled c false
    (match s.engineAt (.hart (.slot 0 0)) c c.aux (if set then .w else .rw) 5 with
      | .ok x t => x == (0x20008, page 0x20000 2) && t == s | _ => false) = true ∧
    s.remoteAt 0x20008 = none ∧ 0x20008 % 8 = 0 ∧ 0x20008 + 8 ≤ s.limit ∧ s.dieAwake 0x20008 8 = true ∧
    s.keyed (page 0x20000 2).key 0x20008 8 = true ∧ s.movingUnit 0x20008 = false ∧ s.mem.nat 0x20008 8 ≠ 2 ^ 64 - 1 ∧
    (Mem.storeNat {} 0x20008 8 (2 ^ 64 - 1)).nat 0x20008 8 = 2 ^ 64 - 1 ∧ ({ c with flits := 1 } : Command).flits ≠ 0 := by
  revert set; decide +kernel

theorem witness_far_signals (first wide : Bool) :
    let c := signaller true (if first then 0 else 1) (if wide then 5 else 4)
    let s := signalled c true
    s.mayRun c = true ∧ s.engineOrder (.hart (.slot 0 0)) c = true ∧ c.granules = 1 ∧ s.remoteAt 0x20008 = some (1, 9 * 65536 + 8) ∧
    (match s.engineAt (.hart (.slot 0 0)) c c.aux .w 5 with | .ok x t => x == (0x20008, page 0x20000 2) && t == s | _ => false) = true := by
  revert first wide; decide +kernel

/-- A member of a collective between the W and the A buffer, its group record at 0x20008 and its roster at 0x20100, all zeros. -/
def collective (st : CommandState) (record : Option (List Nat)) : Command :=
  { aCommand st (.coll 0) with aux := 0x20008, record }
def collecting (l : List Command) (u : List Use) : State :=
  { commanded l with clusters := [(0, { owner := 1, tlb := [page 0x20000 2] })], uses := u
                     partitions := [(1, { aPart with collDomain := 3 })] }

theorem witness_a_collective_is_kicked :
    (let c := collective .queued none
     let s := collecting [c] []
     (s.hart (.slot 0 0)).queue = [] ++ c :: [] ∧ c.status = none ∧ s.mayRun c = true ∧ (s.hart (.slot 0 0)).parked = none ∧
     (s.hart (.slot 0 0)).verdict = none ∧ c.op = .coll 0 ∧ s.uses = [] ∧ (s.on (.slot 0 0)).mayPublish = true) ∧
    (let d := collective .kicked none
     let v := ((collecting [collective .queued none] []).drainAll (.slot 0 0)).modCommand (.hart (.slot 0 0)) d.id fun _ => d
     (∀ j < 4, v.dieAwake (0x20008 + 8 * j) 8 = true ∧ v.keyed (page 0x20000 2).key (0x20008 + 8 * j) 8 = true ∧ v.mem.nat (0x20008 + 8 * j) 8 = 0) ∧
     v.upsets = []) := by decide +kernel

theorem witness_a_group_record_is_reached (used : Table Nat Nat) (j : Fin 4) :
    let d := collective .kicked none
    let v := ((collecting [collective .queued none] []).drainAll (.slot 0 0)).modCommand (.hart (.slot 0 0)) d.id fun _ => d
    State.engineAt { v with lineUse := used } (.hart (.slot 0 0)) d (d.aux + BitVec.ofNat 64 (8 * j.val)) .r 4 =
      .ok (0x20008 + 8 * j.val, page 0x20000 2) { v with lineUse := used } := by
  match j with
  | 0 | 1 | 2 | 3 => rfl

/-- Another member's command, and a use that it has joined. -/
def partner : Command := { collective .kicked (some [7, 2 + 2 ^ 32, 1, 0x20100]) with id := 9 }
def aUse (count : Nat) (mine : List Member) : Use :=
  { group := 7, epoch := 1, count, op := 0, width := 8, domain := 3, elements := 20
    members := { rank := 1, command := 9, roster := [0, 0], codes := List.replicate 20 (2, false) } :: mine }
def joining (rank : Nat) : Command := collective .kicked (some [7, 2 + 2 ^ 32 * rank, 1, 0x20100])
def mine : Member := { rank := 0, command := 5, roster := [0, 0], codes := List.replicate 20 (1, false) }

theorem witness_a_member_may_join (rank : Fin 3) (u : Bool) :
    let c := joining rank.val
    let s := collecting [c, partner] (if u then [aUse 2 []] else [])
    (s.hart (.slot 0 0)).parked = none ∧ (s.hart (.slot 0 0)).verdict = none ∧ (s.hart (.slot 0 0)).queue[0]? = some c ∧ partner.id ≠ c.id ∧
    c.status = none ∧ s.mayRun c = true ∧ s.engineOrder (.hart (.slot 0 0)) c = true ∧ c.done < c.granules ∧ c.flits = 0 ∧
    (∀ x ∈ s.uses, ∀ m ∈ x.members, m.command ≠ c.id) ∧ (s.partition c.part).collDomain = 3 ∧
    s.node * 2 ^ 48 + (s.partition c.part).slice.findIdx (· == c.core / 32) = 0 ∧ c.dst.count = c.src.count := by
  revert rank u; decide +kernel

theorem witness_members_agree_or_not (rank : Fin 2) :
    let s := collecting [joining rank.val, partner] [aUse 2 []]
    ((7 : Word) ≠ 0 ∧ 2 ≤ 2 ∧ 2 ≤ 4096 ∧ rank.val < 2 ∧ (s.partition 1).collDomain ≠ 0 ∧ ¬ 2 < 2) ∧
    (∀ x ∈ (aUse 2 []).members, ∃ q ∈ s.allCommands, q.id = x.command) ∧
    ((∀ x ∈ (aUse 2 []).members, x.rank ≠ rank.val ∧ x.roster.getD rank.val 0 = 0 ∧ ([0, 0] : List Nat).getD x.rank 0 = x.place) ↔ rank.val = 0) ∧
    (aUse 2 []).members.length < (aUse 2 []).count ∧ (aUse 2 []).width = (joining 0).src.width ∧ (aUse 2 []).elements = (joining 0).src.count := by
  revert rank; decide +kernel

theorem witness_a_roster_is_reached (busy : Table Bank Nat) (used : Table Nat Nat) (j : Fin 2) :
    let s := collecting [joining 0, partner] []
    State.engineAt { s with bankUse := busy, lineUse := used } (.hart (.slot 0 0)) (joining 0) (0x20100 + BitVec.ofNat 64 (8 * j.val)) .r 4 =
      .ok (0x20100 + 8 * j.val, page 0x20000 2) { s with bankUse := busy, lineUse := used } := by
  match j with
  | 0 | 1 => rfl

/-- The elements of its views in the W and the A buffer, whichever banks and lines have been used. -/
theorem witness_collective_places (u : List Use) (v : View) (write : Bool) (a : Nat) (busy : Table Bank Nat) (used : Table Nat Nat)
    (hv : v.space = 2 ∨ v.space = 3) (ha : a < 65536) :
    ∃ busy', State.enginePlace { collecting [joining 0, partner] u with bankUse := busy, lineUse := used } (.hart (.slot 0 0)) (joining 0) v a 1 write =
      .ok (a, none) { collecting [joining 0, partner] u with bankUse := busy', lineUse := used } := by
  have hd : a / 65536 = 0 := Nat.div_eq_of_lt ha
  have hc : (joining 0).core = 0 := rfl
  refine ⟨Table.set busy (.typed 0 v.space 0) (commanded []).clock, ?_⟩
  unfold State.enginePlace
  rcases hv with h | h <;> rw [h, hc, if_neg (by decide), if_neg (by simp [spaceSize]; omega), if_neg (by decide)] <;>
    simp only [Int.toNat_natCast, hd] <;> rfl

theorem witness_a_use_moves (whole : Bool) :
    let c := joining 0
    let u := aUse (if whole then 2 else 3) [mine]
    let s := collecting [c, partner] [u]
    s.memoryOk = true ∧ s.mayRun c = true ∧ s.engineOrder (.hart (.slot 0 0)) c = true ∧ c.done < c.granules ∧ c.op = .coll 0 ∧
    c.record.isSome = true ∧ s.uses.find? (fun x => x.members.any (·.command == c.id)) = some u ∧
    u.members.find? (·.command == c.id) = some mine ∧ 0 < u.elements ∧ (whole = true ↔ u.members.length = u.count) ∧
    (∀ q ∈ s.allCommands, q.state = .kicked ∧ s.mayRun q = true) ∧ c.dst.space.toNat ≤ 5 ∧ c.dst.ty ≠ 15 ∧
    (∀ y ∈ u.members, y.codes.length = u.elements) ∧ (∀ r < 2, ∃ y ∈ u.members, y.rank = r) ∧ c.done + 1 = c.granules := by
  revert whole; decide +kernel

theorem witness_a_member_is_stopped :
    (let x : Command := { partner with state := .stopped }
     x.id ∈ (aUse 2 [mine]).members.map (·.command) ∧ x.id ≠ (joining 0).id ∧ x.state ≠ .kicked ∧ x.done ≤ (joining 0).done) := by decide +kernel

/-- Jobs of each kind, and tiles of f16 whose products are finite, infinite, NaN and signalling, with a scale that is good and one not. -/
theorem witness_matrix_kinds :
    (∀ k ∈ [0, 1, 2, 3], let j : SliceJob := { job0 with kind := k }
     j.kind ≤ 3 ∧ (if j.kind = 2 then 64 else if j.kind = 3 then 32 else j.a.oext) ≤ 64) ∧
    (let a (c : Nat) : Tile := { aTile 10 false 2 2 with codes := [((0, 0), c)] }
     let el (t : Tile) : Machine.Num := (NumFmt.ofTy t.ty t.b8).value (t.code 0 0)
     let b := a 0x3C00
     (a 0).ty = 10 ∧ exactMul (el (a 0x3C00)) (el b) = .mag false ⟨2 ^ 20, -20, false⟩ ∧ exactMul (el (a 0x7C00)) (el b) = .inf false {} ∧
     exactMul (el (a 0xFC00)) (el b) = .inf true {} ∧ exactMul (el (a 0x7E00)) (el b) = .nan {} ∧ exactMul (el (a 0x7D00)) (el b) = .nan { nv := true }) ∧
    (NumFmt.ofTy 9 0).value 0x3F800000 = .fin false (2 ^ 23) (-23) ∧ (NumFmt.ofTy 9 0).value 0 = .fin false 0 (-149) ∧
    (let m : Arrival := { member := 7, a := aTile 10 false 40 64, b := aTile 10 true 40 32, coff := 1008, z := true, wrap := false, nf := false }
     m.a.ty = 10 ∧ m.wrap = false ∧ m.b.oext ≤ 32 ∧ (56 < m.a.oext ∧ 31 < m.b.oext ∧ 8 * m.member ≤ 56)) := by decide +kernel

/-- Rounding: a tie, a value too small for the normal ones, and one beyond the largest; exact quotients, roots and special operands. -/
theorem witness_roundings :
    (let f := NumFmt.ofTy 10 0
     f.value 0x7BFF = .fin false 2047 5 ∧ f.value 0x7BFE = .fin false 2046 5 ∧ f.value 0x3C00 = .fin false 1024 (-10) ∧
     (f.deliver .rne false (.mag false ⟨2049, -11, false⟩)).1 = 0x3C00 ∧ (f.deliver .rmm false (.mag false ⟨2049, -11, false⟩)).1 = 0x3C01 ∧
     Mag.compare ⟨2049, -11, false⟩ (f.magnitude f.maxCode).1 (f.magnitude f.maxCode).2 ≠ .gt ∧
     (f.deliver .rne false (.mag true ⟨3, -25, false⟩)).2 = { uf := true, nx := true } ∧
     f.deliver .rne false (.mag true ⟨4095, 4, false⟩) = (0xFC00, { ovf := true, nx := true }) ∧
     f.deliver .rne true (.mag true ⟨4095, 4, false⟩) = (0xFBFF, { ovf := true, nx := true }) ∧
     f.deliver .rtz false (.mag true ⟨4095, 4, false⟩) = (0xFBFF, { nx := true })) ∧
    anyNan [.nan true, .inf false] = true ∧ anyNan [.inf true] = false ∧
    (NumFmt.ofTy 9 0).deliver .rne false (exactDiv (.fin false 1 0) (.fin true 3 0)) = (0xBEAAAAAB, { nx := true }) ∧
    (NumFmt.ofTy 9 0).deliver .rne false (exactSqrt (.fin false 1 1)) = (0x3FB504F3, { nx := true }) ∧
    (NumFmt.ofTy 9 0).deliver .rne false (exactRsqrt (.fin false 1 1)) = (0x3F3504F3, { nx := true }) ∧
    (NumFmt.ofTy 9 0).deliver .rne false (exactLog2 (.fin false 3 0)) = (0x3FCAE00D, { nx := true }) ∧
    (NumFmt.ofTy 9 0).deliver .rne false (exactExp2 (.fin false 1 (-1))) = (0x3FB504F3, { nx := true }) ∧
    scaled false 1 (-1) (-1) = 1 ∧ (0 : Int) * 2 ^ 1 < 1 ∧ (1 : Int) < (0 + 1) * 2 ^ 1 ∧ (2 : Nat) ^ 1 < 3 ∧ 3 < 2 ^ 2 ∧
    (classCode (NumFmt.ofTy 9 0) 0x7FA00000, classCode (NumFmt.ofTy 9 0) 0x80000001, classCode (NumFmt.ofTy 9 0) 0x00800000) = (0x100, 0x004, 0x040) := by
  decide +kernel

/-- A stream through a view of W whose bank sleeps: an entry to fill, and one to write. -/
theorem witness_a_stream_wakes_a_bank :
    (let st : Stream := { view := 1, output := false }
     let s : State := { tiny (streamHart (aView 2 0 2 1) st) with banks := [(.typed 0 2 0, .retention)] }
     let h : HartId := .slot 0 0
     let v := (s.hart h).streamView st
     let u := s.on h
     s.memoryOk = true ∧ (s.hart h).regs.stream 0 = some st ∧ (s.hart h).queue = [] ∧ st.ended = false ∧ st.entries.length < 8 ∧
     v.space = 2 ∧ 0 < v.count ∧ u.elementOk v.space (v.elementAt 0).1 v.elemBytes = true ∧
     u.awake (u.bankOf v.space (v.elementAt 0).1.toNat) = false) ∧
    (let st : Stream := { view := 1, output := true, entries := [(0, 9)], pos := 1 }
     let s : State := { tiny (streamHart (aView 2 0 2 2) st) with banks := [(.typed 0 2 0, .retention)] }
     let h : HartId := .slot 0 0
     let v := (s.hart h).streamView st
     let u := s.on h
     s.memoryOk = true ∧ (s.hart h).regs.stream 0 = some st ∧ (s.hart h).queue = [] ∧ st.entries = (0, 9) :: [] ∧
     u.elementOk v.space (v.elementAt 0).1 v.elemBytes = true ∧ u.awake (u.bankOf v.space (v.elementAt 0).1.toNat) = false) := by
  decide +kernel

/-- The places of some labels of a source in its data section. -/
def dataPlaces (src : String) (names : List String) : List (Option Nat) :=
  names.map fun n => ((Asm.namesOf (Asm.parse src)).labels.lookup n).map (·.2)

/-- Sizes that depend on labels after them, on labels before them, and on themselves (R407, R418). -/
theorem test_ronas_layout :
    dataPlaces ".data\nx: .zero z - y\ny: .i8 1\nz: .i8 2" ["x", "y", "z"] = [some 0, some 1, some 2] ∧
    dataPlaces ".data\nx: .i8 1, 2, 3\ny:\n.zero y - x\nz: .i8 4" ["x", "y", "z"] = [some 0, some 3, some 6] ∧
    dataPlaces ".data\nx: .zero y - x + 1\ny: .i8 1" ["x", "y"] = [none, none] := by decide +kernel

end Sys2Proof.Tests
end

section
/-! PROOF. Every step keeps every memory canonical (O59): the rules about the parts of a state, one lemma per function of the
model that changes a state, and the step that is made of them. -/

namespace Sys2Proof.Machine

open Sys2Proof

/-! ### Tables and lists -/

/-- Every value of a table has a property. -/
def Table.All {κ α : Type} (P : α → Prop) (t : Table κ α) : Prop := ∀ e ∈ t, P e.2

namespace Table
variable {κ α : Type} {P : α → Prop} {t : Table κ α}

theorem all_nil : Table.All P ([] : Table κ α) := fun _ h => nomatch h
theorem all_set [DecidableEq κ] {k x} (h : t.All P) (hx : P x) : Table.All P (t.set k x) := forall_set h hx
theorem all_get [DecidableEq κ] {k d} (h : t.All P) (hd : P d) : P (t.get k d) := get_has k h hd
theorem all_filter {p} (h : t.All P) : Table.All P (t.filter p) := fun e he => h e (List.mem_of_mem_filter he)
theorem all_erase [DecidableEq κ] {k} (h : t.All P) : Table.All P (t.erase k) := all_filter h
theorem all_map {f : κ × α → κ × α} (h : t.All P) (hf : ∀ e, P e.2 → P (f e).2) : Table.All P (t.map f) := by
  intro e he
  obtain ⟨x, hx, rfl⟩ := List.mem_map.1 he
  exact hf x (h x hx)
theorem all_update {f : κ → α → α} (h : t.All P) (hf : ∀ k x, P x → P (f k x)) : Table.All P (t.update f) :=
  all_map h fun e => hf e.1 e.2
theorem all_find [DecidableEq κ] {k : κ} {x : α} (hx : t.find k = some x) (h : t.All P) : P x := by
  induction t with
  | nil => exact nomatch hx
  | cons e t ih =>
    rw [find] at hx
    split at hx
    · exact Option.some.inj hx ▸ h e List.mem_cons_self
    · exact ih hx fun e he => h e (List.mem_cons_of_mem _ he)
theorem all_find? {p : κ × α → Bool} {e : κ × α} (he : List.find? p t = some e) (h : t.All P) : P e.2 :=
  h e (List.mem_of_find?_eq_some he)

end Table

/-! ### Memories -/

namespace Mem
theorem wf_ite {c : Prop} [Decidable c] {m n : Mem} (hm : m.wf = true) (hn : n.wf = true) : (if c then m else n).wf = true := by
  split <;> assumption
theorem wf_foldl {α : Type} {f : Mem → α → Mem} {l : List α} {m : Mem} (h : m.wf = true)
    (hf : ∀ m x, m.wf = true → (f m x).wf = true) : (l.foldl f m).wf = true := by
  induction l generalizing m with
  | nil => exact h
  | cons x t ih => exact ih (hf m x h)
end Mem

namespace Core
theorem memoryOk_iff {k : Core} : k.memoryOk = true ↔ k.w.wf = true ∧ k.a.wf = true ∧ k.c.wf = true ∧ k.sbuf.wf = true := by
  simp only [Core.memoryOk, Bool.and_eq_true, and_assoc]
/-- Over the constructor, so that a core written with some new fields shows what its memories are. -/
theorem memoryOk_mk {cur run since tiles claims jobs slice mmgs w a c sbuf sregions dequeN dequeU spillN spillU pointers tlb
    icache lines quarantined notices} (hw : w.wf = true) (ha : a.wf = true) (hc : c.wf = true) (hs : sbuf.wf = true) :
    (mk cur run since tiles claims jobs slice mmgs w a c sbuf sregions dequeN dequeU spillN spillU pointers tlb icache lines
      quarantined notices).memoryOk = true := memoryOk_iff.2 ⟨hw, ha, hc, hs⟩
theorem wf_w {k : Core} (h : k.memoryOk = true) : k.w.wf = true := (memoryOk_iff.1 h).1
theorem wf_a {k : Core} (h : k.memoryOk = true) : k.a.wf = true := (memoryOk_iff.1 h).2.1
theorem wf_c {k : Core} (h : k.memoryOk = true) : k.c.wf = true := (memoryOk_iff.1 h).2.2.1
theorem wf_sbuf {k : Core} (h : k.memoryOk = true) : k.sbuf.wf = true := (memoryOk_iff.1 h).2.2.2
theorem memoryOk_ite {c : Prop} [Decidable c] {k l : Core} (hk : k.memoryOk = true) (hl : l.memoryOk = true) :
    (if c then k else l).memoryOk = true := by split <;> assumption
end Core

namespace Partition
theorem memoryOk_iff {q : Partition} : q.memoryOk = true ↔ q.mailboxes.All fun m => m.bytes.wf = true := List.all_eq_true
theorem all_mailboxes {q : Partition} (h : q.memoryOk = true) : q.mailboxes.All fun m => m.bytes.wf = true := memoryOk_iff.1 h
theorem memoryOk_mk {id reduced features budgetCap shares collDomain nqp nmbx nasid nkey slice quota wdlimit gangwait asids keys
    frames framesLeft record mailboxes heldOrder objects cairn keyStore joins launches decrements ready drops qps spdm preempt
    nextLaunch nextObject nextId} (h : Table.All (fun m : Mailbox => m.bytes.wf = true) mailboxes) :
    (mk id reduced features budgetCap shares collDomain nqp nmbx nasid nkey slice quota wdlimit gangwait asids keys
      frames framesLeft record mailboxes heldOrder objects cairn keyStore joins launches decrements ready drops qps spdm preempt
      nextLaunch nextObject nextId).memoryOk = true := memoryOk_iff.2 h
theorem memoryOk_ite {c : Prop} [Decidable c] {k l : Partition} (hk : k.memoryOk = true) (hl : l.memoryOk = true) :
    (if c then k else l).memoryOk = true := by split <;> assumption
end Partition

theorem Cluster.wf_mk {owner tlb victims misses overflow nextSeq mem directory gangs firmware disabled} (h : mem.wf = true) :
    (Cluster.mk owner tlb victims misses overflow nextSeq mem directory gangs firmware disabled).mem.wf = true := h

theorem Clearing.wf_mk {part tsc m missed scratch out ip units budget pathfinder code key file base waiting running outcome}
    (h : scratch.wf = true) : (Clearing.mk part tsc m missed scratch out ip units budget pathfinder code key file base waiting
      running outcome).scratch.wf = true := h

namespace Save
theorem memoryOk_iff {v : Save} : v.memoryOk = true ↔
    v.partition.memoryOk = true ∧ (∀ k ∈ v.clusters, k.mem.wf = true) ∧ ∀ k ∈ v.cores, k.memoryOk = true := by
  simp only [Save.memoryOk, Bool.and_eq_true, List.all_eq_true, and_assoc]
end Save

/-- Every save holds memories in canonical form. -/
def SavesOk (l : List Save) : Prop := ∀ v ∈ l, v.memoryOk = true

namespace State

/-! ### The memories of a state -/

theorem memoryOk_iff {s : State} : s.memoryOk = true ↔ s.mem.wf = true ∧ (s.clusters.All fun k => k.mem.wf = true) ∧
    (s.cores.All fun k => k.memoryOk = true) ∧ (s.partitions.All fun q => q.memoryOk = true) ∧
    (s.clearings.All fun c => c.scratch.wf = true) ∧ SavesOk s.saves := by
  simp only [State.memoryOk, Bool.and_eq_true, List.all_eq_true, and_assoc, Table.All, SavesOk]

section
variable {s : State} (h : s.memoryOk = true)
include h
theorem wf_mem : s.mem.wf = true := (memoryOk_iff.1 h).1
theorem all_clusters : s.clusters.All fun k => k.mem.wf = true := (memoryOk_iff.1 h).2.1
theorem all_cores : s.cores.All fun k => k.memoryOk = true := (memoryOk_iff.1 h).2.2.1
theorem all_partitions : s.partitions.All fun q => q.memoryOk = true := (memoryOk_iff.1 h).2.2.2.1
theorem all_clearings : s.clearings.All fun c => c.scratch.wf = true := (memoryOk_iff.1 h).2.2.2.2.1
theorem savesOk_saves : SavesOk s.saves := (memoryOk_iff.1 h).2.2.2.2.2
end

/-- Over the constructor, so that a state written with some new fields shows what its memories are. -/
theorem memoryOk_mk {turn agenda waiting cur clearing freeCount upsets node present harts cores clusters dies partitions
    clearings mem detour banks bankUse lineUse keyCount frameKeys lineKeys remote gangs uses saves nextId keySlots boot mr
    svnMin images slotA slotB committedB update handover messages clockStep power coolant spdm signatures clock answers sent
    interrupts} (hm : mem.wf = true) (hk : Table.All (fun k : Cluster => k.mem.wf = true) clusters)
    (hc : Table.All (fun k : Core => k.memoryOk = true) cores) (hp : Table.All (fun q : Partition => q.memoryOk = true) partitions)
    (hl : Table.All (fun c : Clearing => c.scratch.wf = true) clearings) (hv : SavesOk saves) :
    (mk turn agenda waiting cur clearing freeCount upsets node present harts cores clusters dies partitions
      clearings mem detour banks bankUse lineUse keyCount frameKeys lineKeys remote gangs uses saves nextId keySlots boot mr
      svnMin images slotA slotB committedB update handover messages clockStep power coolant spdm signatures clock answers sent
      interrupts).memoryOk = true := memoryOk_iff.2 ⟨hm, hk, hc, hp, hl, hv⟩

theorem savesOk_map {f : Save → Save} {l : List Save} (h : SavesOk l) (hf : ∀ v, v.memoryOk = true → (f v).memoryOk = true) :
    SavesOk (l.map f) := by
  intro v hv
  obtain ⟨x, hx, rfl⟩ := List.mem_map.1 hv
  exact hf x (h x hx)

/-- A state with the memories of one in canonical form. -/
theorem memoryOk_of_eq {s t : State} (h : s.memoryOk = true)
    (e : (t.mem, t.clusters, t.cores, t.partitions, t.clearings, t.saves) =
      (s.mem, s.clusters, s.cores, s.partitions, s.clearings, s.saves)) : t.memoryOk = true := by
  simp only [Prod.mk.injEq] at e
  obtain ⟨hm, hk, hc, hp, hl, hv⟩ := e
  exact memoryOk_iff.2 ⟨hm ▸ wf_mem h, hk ▸ all_clusters h, hc ▸ all_cores h, hp ▸ all_partitions h, hl ▸ all_clearings h,
    hv ▸ savesOk_saves h⟩

/-- A state that differs from one in canonical form in HBM alone, of all its memories. -/
theorem memoryOk_of_mem {s t : State} (h : s.memoryOk = true) (hm : t.mem.wf = true)
    (e : (t.clusters, t.cores, t.partitions, t.clearings, t.saves) = (s.clusters, s.cores, s.partitions, s.clearings, s.saves)) :
    t.memoryOk = true := by
  simp only [Prod.mk.injEq] at e
  obtain ⟨hk, hc, hp, hl, hv⟩ := e
  exact memoryOk_iff.2 ⟨hm, hk ▸ all_clusters h, hc ▸ all_cores h, hp ▸ all_partitions h, hl ▸ all_clearings h,
    hv ▸ savesOk_saves h⟩

theorem memoryOk_fst_ite {α : Type} {c : Prop} [Decidable c] {r q : State × α} (hr : r.1.memoryOk = true)
    (hq : q.1.memoryOk = true) : (if c then r else q).1.memoryOk = true := by split <;> assumption
theorem memoryOk_of_fst_eq {α : Type} {r : State × α} {t : State} {x : α} (e : r = (t, x)) (h : r.1.memoryOk = true) :
    t.memoryOk = true := by rwa [e] at h
theorem memoryOk_setCore {s : State} {c k} (h : s.memoryOk = true) (hk : k.memoryOk = true) :
    (s.setCore c k).memoryOk = true :=
  memoryOk_mk (wf_mem h) (all_clusters h) (Table.all_set (all_cores h) hk) (all_partitions h) (all_clearings h) (savesOk_saves h)
theorem memoryOk_setCluster {s : State} {i k} (h : s.memoryOk = true) (hk : k.mem.wf = true) :
    (s.setCluster i k).memoryOk = true :=
  memoryOk_mk (wf_mem h) (Table.all_set (all_clusters h) hk) (all_cores h) (all_partitions h) (all_clearings h) (savesOk_saves h)
theorem memoryOk_setPartition {s : State} {p q} (h : s.memoryOk = true) (hq : q.memoryOk = true) :
    (s.setPartition p q).memoryOk = true :=
  memoryOk_mk (wf_mem h) (all_clusters h) (all_cores h) (Table.all_set (all_partitions h) hq) (all_clearings h) (savesOk_saves h)

theorem memoryOk_core {s : State} {c} (h : s.memoryOk = true) : (s.core c).memoryOk = true :=
  Table.all_get (P := fun k : Core => k.memoryOk = true) (all_cores h) rfl
theorem wf_cluster {s : State} {k} (h : s.memoryOk = true) : (s.cluster k).mem.wf = true :=
  Table.all_get (P := fun k : Cluster => k.mem.wf = true) (all_clusters h) rfl
theorem memoryOk_partition {s : State} {p} (h : s.memoryOk = true) : (s.partition p).memoryOk = true :=
  Table.all_get (P := fun q : Partition => q.memoryOk = true) (all_partitions h) rfl
theorem wf_mailbox {s : State} {p i} (h : s.memoryOk = true) : (s.mailbox p i).bytes.wf = true :=
  Table.all_get (P := fun m : Mailbox => m.bytes.wf = true) (Partition.all_mailboxes (memoryOk_partition h)) rfl

theorem memoryOk_ite {c : Prop} [Decidable c] {s t : State} (hs : s.memoryOk = true) (ht : t.memoryOk = true) :
    (if c then s else t).memoryOk = true := by split <;> assumption

theorem memoryOk_foldl {α : Type} {f : State → α → State} {l : List α} {s : State} (h : s.memoryOk = true)
    (hf : ∀ s x, s.memoryOk = true → (f s x).memoryOk = true) : (l.foldl f s).memoryOk = true := by
  induction l generalizing s with
  | nil => exact h
  | cons x t ih => exact ih (hf s x h)

end State

/-! ### Outcomes of a step and of its parts -/

/-- A part of an instruction leaves every memory in canonical form. -/
def Res.Keeps {α : Type} : Res α → Prop
  | .ok _ s => s.memoryOk = true
  | .stop s => s.memoryOk = true

/-- What an instruction or an event does leaves every memory in canonical form. -/
def Out.Keeps (o : Out) : Prop := ∀ t, o = .next t → t.memoryOk = true

theorem Out.keeps_next {s : State} (h : s.memoryOk = true) : Out.Keeps (.next s) := fun _ e => Host.Outcome.next.inj e ▸ h
theorem Out.keeps_fault {x : Fault} : Out.Keeps (.fault x) := fun _ e => nomatch e
theorem Out.keeps_refused {x : Refusal} : Out.Keeps (.refused x) := fun _ e => nomatch e
theorem Out.memoryOk_of_next {o : Out} {s : State} (e : o = .next s) (h : o.Keeps) : s.memoryOk = true := h s e
theorem Out.keeps_ite {c : Prop} [Decidable c] {o p : Out} (ho : o.Keeps) (hp : p.Keeps) :
    Out.Keeps (if c then o else p) := by split <;> assumption

namespace Res
variable {α β : Type}
theorem keeps_ok {x : α} {s : State} (h : s.memoryOk = true) : (Res.ok x s).Keeps := h
theorem keeps_stop {s : State} (h : s.memoryOk = true) : (Res.stop s : Res α).Keeps := h
theorem memoryOk_of_ok {r : Res α} {x : α} {s : State} (e : r = .ok x s) (h : r.Keeps) : s.memoryOk = true := by rwa [e] at h
theorem memoryOk_of_stop {r : Res α} {s : State} (e : r = .stop s) (h : r.Keeps) : s.memoryOk = true := by rwa [e] at h
theorem keeps_ite {c : Prop} [Decidable c] {o p : Res α} (ho : o.Keeps) (hp : p.Keeps) :
    (if c then o else p).Keeps := by split <;> assumption
theorem keeps_bind {r : Res α} {k : α → State → Res β} (h : r.Keeps) (hk : ∀ x s, s.memoryOk = true → (k x s).Keeps) :
    (r.bind k).Keeps := by
  cases r with
  | ok x s => exact hk x s h
  | stop s => exact h
theorem keeps_run {r : Res α} {k : α → State → Out} (h : r.Keeps) (hk : ∀ x s, s.memoryOk = true → (k x s).Keeps) :
    (r.run k).Keeps := by
  cases r with
  | ok x s => exact hk x s h
  | stop s => exact Out.keeps_next h
theorem keeps_each {f : α → State → Res Unit} {l : List α} {s : State} (h : s.memoryOk = true)
    (hf : ∀ x s, s.memoryOk = true → (f x s).Keeps) : (Res.each f l s).Keeps := by
  induction l generalizing s with
  | nil => exact h
  | cons x t ih => exact keeps_bind (hf x s h) fun _ _ => ih
theorem keeps_collect {f : α → State → Res β} {l : List α} {s : State} (h : s.memoryOk = true)
    (hf : ∀ x s, s.memoryOk = true → (f x s).Keeps) : (Res.collect f l s).Keeps := by
  induction l generalizing s with
  | nil => exact h
  | cons x t ih => exact keeps_bind (hf x s h) fun _ _ h => keeps_bind (ih h) fun _ _ => keeps_ok
end Res

/-- A part of a command leaves every memory in canonical form. -/
def Eng.Keeps {α : Type} : Eng α → Prop
  | .ok _ s => s.memoryOk = true
  | .wait s => s.memoryOk = true
  | .fail _ s => s.memoryOk = true

namespace Eng
variable {α β : Type}
theorem keeps_ok {x : α} {s : State} (h : s.memoryOk = true) : (Eng.ok x s).Keeps := h
theorem keeps_wait {s : State} (h : s.memoryOk = true) : (Eng.wait s : Eng α).Keeps := h
theorem keeps_fail {n : Nat} {s : State} (h : s.memoryOk = true) : (Eng.fail n s : Eng α).Keeps := h
theorem memoryOk_of_ok {r : Eng α} {x : α} {s : State} (e : r = .ok x s) (h : r.Keeps) : s.memoryOk = true := by rwa [e] at h
theorem memoryOk_of_wait {r : Eng α} {s : State} (e : r = .wait s) (h : r.Keeps) : s.memoryOk = true := by rwa [e] at h
theorem memoryOk_of_fail {r : Eng α} {n : Nat} {s : State} (e : r = .fail n s) (h : r.Keeps) : s.memoryOk = true := by
  rwa [e] at h
theorem keeps_ite {c : Prop} [Decidable c] {o p : Eng α} (ho : o.Keeps) (hp : p.Keeps) :
    (if c then o else p).Keeps := by split <;> assumption
theorem keeps_bind {r : Eng α} {k : α → State → Eng β} (h : r.Keeps) (hk : ∀ x s, s.memoryOk = true → (k x s).Keeps) :
    (r.bind k).Keeps := by
  cases r with
  | ok x s => exact hk x s h
  | wait s => exact h
  | fail n s => exact h
theorem keeps_collect {f : α → State → Eng β} {l : List α} {s : State} (h : s.memoryOk = true)
    (hf : ∀ x s, s.memoryOk = true → (f x s).Keeps) : (Eng.collect f l s).Keeps := by
  induction l generalizing s with
  | nil => exact h
  | cons x t ih => exact keeps_bind (hf x s h) fun _ _ h => keeps_bind (ih h) fun _ _ => keeps_ok
end Eng

/-- Every instruction leaves every memory in canonical form. -/
def KeepsAll (ex : Instr → State → Out) : Prop := ∀ i {s : State}, s.memoryOk = true → (ex i s).Keeps

end Sys2Proof.Machine
end

section
/-! PROOF. What keeps every memory canonical: registers, harts, traps and stores. -/

namespace Sys2Proof.Machine

open Sys2Proof State

theorem State.memoryOk_setHart {s : State} {x x2} (h : s.memoryOk = true) : (s.setHart x x2).memoryOk = true := h

theorem State.memoryOk_modHart {s : State} {x f} (h : s.memoryOk = true) : (s.modHart x f).memoryOk = true := memoryOk_setHart h

theorem State.memoryOk_setMe {s : State} {x1} (h : s.memoryOk = true) : (s.setMe x1).memoryOk = true := memoryOk_setHart h

theorem State.memoryOk_modMe {s : State} {f} (h : s.memoryOk = true) : (s.modMe f).memoryOk = true := memoryOk_setMe h

theorem State.memoryOk_setDie {s : State} {d x2} (h : s.memoryOk = true) : (s.setDie d x2).memoryOk = true := h

theorem State.memoryOk_myCore {s : State} (h : s.memoryOk = true) : s.myCore.memoryOk = true := memoryOk_core h

theorem State.memoryOk_setMyCore {s : State} {x1 : Core} (h : s.memoryOk = true) (hx1 : x1.memoryOk = true) :
    (s.setMyCore x1).memoryOk = true := memoryOk_setCore h hx1

theorem State.wf_myCluster {s : State} (h : s.memoryOk = true) : s.myCluster.mem.wf = true := by
  unfold State.myCluster
  exact wf_cluster h

theorem State.memoryOk_await {s : State} {i} (h : s.memoryOk = true) : (s.await i).memoryOk = true := h

theorem State.memoryOk_free {s : State} (h : s.memoryOk = true) : s.free.2.memoryOk = true := by
  unfold State.free
  exact h

theorem State.memoryOk_setS {s : State} {n x2} (h : s.memoryOk = true) : (s.setS n x2).memoryOk = true := memoryOk_modMe h

theorem State.memoryOk_setV {s : State} {n x2} (h : s.memoryOk = true) : (s.setV n x2).memoryOk = true := memoryOk_modMe h

theorem State.memoryOk_setK {s : State} {n x2} (h : s.memoryOk = true) : (s.setK n x2).memoryOk = true := memoryOk_modMe h

theorem State.memoryOk_setW {s : State} {n x2} (h : s.memoryOk = true) : (s.setW n x2).memoryOk = true := memoryOk_modMe h

theorem State.memoryOk_advance {s : State} (h : s.memoryOk = true) : s.advance.memoryOk = true := memoryOk_modMe h

theorem State.memoryOk_stall {s : State} {w} (h : s.memoryOk = true) : (s.stall w).memoryOk = true := memoryOk_modMe h

theorem State.memoryOk_endRegion {s : State} (h : s.memoryOk = true) : s.endRegion.memoryOk = true := memoryOk_modMe h

theorem State.keeps_finish {s : State} (h : s.memoryOk = true) : s.finish.Keeps := Out.keeps_next (memoryOk_advance h)

theorem State.keeps_guarded {s : State} {gd k} (h : s.memoryOk = true) (hk : ∀ (a : State), a.memoryOk = true →
    (k a).Keeps) : (s.guarded gd k).Keeps := Out.keeps_ite (Out.keeps_next (memoryOk_stall h))
      (Out.keeps_ite (hk _ h) (keeps_finish h))

theorem State.memoryOk_meetErrors {s : State} {pa n} (h : s.memoryOk = true) : (s.meetErrors pa n).memoryOk = true := by
  unfold State.meetErrors
  split
  · exact h
  · refine memoryOk_foldl h (fun _ _ h₁ => ?_)
    split
    · exact memoryOk_ite h₁ h₁
    · exact memoryOk_ite (memoryOk_of_mem h₁ (Mem.wf_mark _ (wf_mem h₁)) rfl) h₁
    · exact h₁

theorem State.memoryOk_meetStore {s : State} {bytes half} (h : s.memoryOk = true) : (s.meetStore bytes half).memoryOk = true :=
  memoryOk_ite h (memoryOk_foldl h (fun _ _ h₁ => memoryOk_meetErrors h₁))

theorem State.memoryOk_rekeyLine {slot} {s : State} {line} (h : s.memoryOk = true) : (rekeyLine slot s line).memoryOk = true := by
  unfold rekeyLine
  split
  · exact h
  · split
    · exact h
    · exact memoryOk_of_mem h (Mem.wf_foldl (wf_mem h) fun _ _ hm => Mem.wf_setByte _ _ hm) rfl

theorem State.memoryOk_freshFrame {s : State} {slot pfn} (h : s.memoryOk = true) : (s.freshFrame slot pfn).memoryOk = true := h

theorem State.memoryOk_rekey {s : State} {slot pa n} (h : s.memoryOk = true) : (s.rekey slot pa n).memoryOk = true :=
  memoryOk_foldl h (fun _ _ h₁ => memoryOk_rekeyLine h₁)

theorem State.memoryOk_wakeBank {s : State} {b} (h : s.memoryOk = true) : (s.wakeBank b).memoryOk = true := by
  unfold State.wakeBank
  split <;> exact h

theorem State.memoryOk_wakeDie {s : State} {pa n} (h : s.memoryOk = true) : (s.wakeDie pa n).memoryOk = true :=
  memoryOk_foldl h (fun _ _ h₁ => memoryOk_wakeBank h₁)

theorem State.memoryOk_touchDie {s : State} {pa n} (h : s.memoryOk = true) : (s.touchDie pa n).memoryOk = true := h

theorem State.memoryOk_wakeFor {s : State} {l} (h : s.memoryOk = true) : (s.wakeFor l).memoryOk = true :=
  memoryOk_foldl h (fun _ _ h₁ => memoryOk_foldl h₁ (fun _ _ h₂ => memoryOk_wakeDie h₂))

theorem State.memoryOk_accessNow {s : State} {pa n} (h : s.memoryOk = true) : (s.accessNow pa n).memoryOk = true :=
  memoryOk_meetErrors (memoryOk_touchDie h)

theorem State.memoryOk_storeNow {s : State} {bytes half} (h : s.memoryOk = true) : (s.storeNow bytes half).memoryOk = true :=
  memoryOk_meetStore (memoryOk_foldl h (fun _ _ h₁ => memoryOk_touchDie h₁))

theorem State.memoryOk_perform {s : State} {st} (h : s.memoryOk = true) : (s.perform st).memoryOk = true := by
  unfold State.perform
  split
  · exact memoryOk_setCluster h (Mem.wf_storeBoth _ _ (wf_cluster h))
  · extract_lets bytes₁ half₁ s₁ s₂
    have hs₁ : s₁.memoryOk = true := memoryOk_storeNow h
    have hs₂ : s₂.memoryOk = true := by
      unfold s₂
      refine memoryOk_foldl hs₁ (fun _ _ h₁ => ?_)
      split
      · exact memoryOk_rekey h₁
      · exact h₁
    exact memoryOk_of_mem hs₂ (Mem.wf_storeBoth _ _ (wf_mem hs₂)) rfl

theorem State.memoryOk_completeUnit {s : State} (h : s.memoryOk = true) : s.completeUnit.memoryOk = true :=
  memoryOk_meetErrors h

theorem State.memoryOk_leaveStores {s : State} {l} (h : s.memoryOk = true) : (s.leaveStores l).memoryOk = true :=
  memoryOk_foldl (memoryOk_ite (memoryOk_completeUnit h) h) (fun _ _ h₁ => memoryOk_perform h₁)

theorem State.memoryOk_drainAll {s : State} {x} (h : s.memoryOk = true) : (s.drainAll x).memoryOk = true :=
  memoryOk_modHart (memoryOk_foldl h (fun _ _ h₁ => memoryOk_perform h₁))

theorem State.keeps_awaitStores {s : State} {l} (h : s.memoryOk = true) : (s.awaitStores l).Keeps :=
  Res.keeps_ite (Res.keeps_stop (memoryOk_stall h)) (Res.keeps_ite (Res.keeps_stop (memoryOk_stall (memoryOk_wakeFor h)))
    (Res.keeps_ok h))

theorem State.keeps_release {s : State} (h : s.memoryOk = true) : s.release.Keeps :=
  Res.keeps_bind (keeps_awaitStores h) (fun _ _ h₁ => Res.keeps_ok (memoryOk_drainAll h₁))

theorem State.memoryOk_issueStore {s : State} {st} (h : s.memoryOk = true) : (s.issueStore st).memoryOk = true :=
  memoryOk_modMe h

theorem State.memoryOk_push {s : State} {c urgent w} (h : s.memoryOk = true) : (s.push c urgent w).memoryOk = true :=
  memoryOk_ite (memoryOk_setCore h (memoryOk_core h)) (memoryOk_setCore h (memoryOk_core h))

theorem State.memoryOk_modLaunch {s : State} {p l f} (h : s.memoryOk = true) : (s.modLaunch p l f).memoryOk = true := by
  unfold State.modLaunch
  split
  · exact memoryOk_setPartition h (memoryOk_partition h)
  · exact h

theorem State.memoryOk_birth {s : State} {p l n} (h : s.memoryOk = true) : (s.birth p l n).memoryOk = true :=
  memoryOk_modLaunch h

theorem State.memoryOk_drop {s : State} {p} (h : s.memoryOk = true) : (s.drop p).memoryOk = true :=
  memoryOk_setPartition h (memoryOk_partition h)

theorem Mailbox.wf_next {m : Mailbox} (hm : m.bytes.wf = true) : m.next.bytes.wf = true := by
  unfold Mailbox.next
  exact hm

theorem State.memoryOk_setMailbox {s : State} {p i} {m : Mailbox} (h : s.memoryOk = true) (hm : m.bytes.wf = true) :
    (s.setMailbox p i m).memoryOk = true := memoryOk_setPartition h (Partition.memoryOk_mk
      (Table.all_set (Partition.all_mailboxes (memoryOk_partition h)) hm))

theorem State.memoryOk_trigger {s : State} {p i} {m : Mailbox} {b} (h : s.memoryOk = true) (hm : m.bytes.wf = true) :
    (s.trigger p i m b).memoryOk = true := memoryOk_push (memoryOk_setPartition h
      (Partition.memoryOk_mk (Table.all_set (Partition.all_mailboxes (memoryOk_partition h)) (Mailbox.wf_next hm))))

theorem State.memoryOk_validate {p i n} {s : State} (h : s.memoryOk = true) : (validate p i n s).memoryOk = true := by
  induction n generalizing s with
  | zero => exact h
  | succ n ih =>
    unfold validate
    extract_lets m s₁
    have hm : m.bytes.wf = true := wf_mailbox h
    have hs₁ : s₁.memoryOk = true := memoryOk_setMailbox h hm
    split
    · exact h
    · split
      · exact memoryOk_ite (memoryOk_setPartition hs₁ (memoryOk_partition hs₁)) (ih (memoryOk_trigger h hm))
      · exact memoryOk_ite (memoryOk_ite (memoryOk_setMailbox h hm) (memoryOk_setMailbox h hm)) h

theorem State.memoryOk_deliver {s : State} {p handle body} (h : s.memoryOk = true) :
    (s.deliver p handle body).1.memoryOk = true := by
  unfold State.deliver
  extract_lets h₁ node₁ i₁ m₁ n₁ slot₁ m₂
  exact memoryOk_fst_ite h (memoryOk_fst_ite h (memoryOk_fst_ite h (memoryOk_fst_ite h
    (memoryOk_fst_ite h (memoryOk_fst_ite h (memoryOk_validate (memoryOk_setMailbox h
      (Mem.wf_storeBytes _ _ (wf_mailbox h)))))))))

theorem State.memoryOk_deliverOrDrop {s : State} {p handle body} (h : s.memoryOk = true) :
    (s.deliverOrDrop p handle body).memoryOk = true := by
  unfold State.deliverOrDrop
  split
  · exact h
  · split
    · rename_i _ s₁ e₁
      exact memoryOk_of_fst_eq e₁ (memoryOk_deliver h)
    · rename_i _ s₂ e₂
      exact memoryOk_of_fst_eq e₂ (memoryOk_deliver h)
    · rename_i _ s₃ _ _ _ e₃
      have h₃ : s₃.memoryOk = true := memoryOk_of_fst_eq e₃ (memoryOk_deliver h)
      exact memoryOk_drop h₃

theorem State.memoryOk_sendFault {s : State} {p i} (h : s.memoryOk = true) : (s.sendFault p i).memoryOk = true :=
  memoryOk_ite h (memoryOk_deliverOrDrop (memoryOk_setMailbox h (wf_mailbox h)))

theorem State.memoryOk_launchGone {s : State} {p l} (h : s.memoryOk = true) : (s.launchGone p l).memoryOk = true :=
  memoryOk_setPartition h (memoryOk_partition h)

theorem State.memoryOk_launchAnswered {s : State} {p l answer} (h : s.memoryOk = true) :
    (s.launchAnswered p l answer).memoryOk = true := by
  unfold State.launchAnswered
  split
  · exact memoryOk_launchGone h
  · exact memoryOk_modLaunch h
  · exact memoryOk_modLaunch h
  · exact memoryOk_drop (memoryOk_launchGone h)

theorem State.memoryOk_completeLaunch {s : State} {p l} (h : s.memoryOk = true) : (s.completeLaunch p l).memoryOk = true := by
  unfold State.completeLaunch
  split
  · exact h
  · exact memoryOk_ite h (memoryOk_ite (memoryOk_launchGone h) (memoryOk_launchAnswered (memoryOk_deliver h)))

theorem State.memoryOk_commandOver {s : State} {p l n} (h : s.memoryOk = true) : (s.commandOver p l n).memoryOk = true :=
  memoryOk_completeLaunch (memoryOk_modLaunch h)

theorem State.memoryOk_countEnd {s : State} {p l kind first integrity} (h : s.memoryOk = true) :
    (s.countEnd p l kind first integrity).memoryOk = true := memoryOk_completeLaunch (memoryOk_modLaunch h)

theorem State.memoryOk_taskOver {s : State} {d kind core slot first integrity regionpc pc insn} (h : s.memoryOk = true) :
    (s.taskOver d kind core slot first integrity regionpc pc insn).memoryOk = true := memoryOk_ite (memoryOk_countEnd h)
      (memoryOk_setPartition h (memoryOk_partition h))

theorem Core.memoryOk_freeTiles {k : Core} {slot} (hk : k.memoryOk = true) : (k.freeTiles slot).memoryOk = true := hk

theorem Core.memoryOk_leaveRegions {k : Core} {x} (hk : k.memoryOk = true) : (k.leaveRegions x).memoryOk = true := hk

theorem State.memoryOk_dropViews {s : State} {x} (h : s.memoryOk = true) : (s.dropViews x).memoryOk = true :=
  memoryOk_setCore (memoryOk_setCluster h (wf_cluster h)) (Core.memoryOk_leaveRegions
    (memoryOk_core (memoryOk_setCluster h (wf_cluster h))))

theorem State.memoryOk_unstall {s : State} {id} (h : s.memoryOk = true) : (s.unstall id).memoryOk = true :=
  memoryOk_ite h (memoryOk_setCluster h (wf_cluster h))

theorem State.memoryOk_leaveGang {s : State} {t} (h : s.memoryOk = true) : (s.leaveGang t).memoryOk = true := by
  unfold State.leaveGang
  split
  · exact h
  · split
    · exact h
    · exact memoryOk_ite h h

theorem State.memoryOk_endTrapped {s : State} {id x task t own} (h : s.memoryOk = true) :
    (s.endTrapped id x task t own).memoryOk = true := by
  unfold State.endTrapped
  extract_lets d₁ core₁ s₁ s₂ s₃ s₄ s₅ s₆
  have hs₁ : s₁.memoryOk = true := memoryOk_leaveStores h
  have hs₂ : s₂.memoryOk = true := memoryOk_ite (memoryOk_unstall (memoryOk_dropViews hs₁)) hs₁
  have hs₃ : s₃.memoryOk = true := memoryOk_ite (memoryOk_setCore hs₂ (Core.memoryOk_freeTiles (memoryOk_core hs₂))) hs₂
  have hs₄ : s₄.memoryOk = true := memoryOk_modLaunch hs₃
  have hs₅ : s₅.memoryOk = true := memoryOk_leaveGang hs₄
  have hs₆ : s₆.memoryOk = true := memoryOk_deliverOrDrop hs₅
  exact memoryOk_taskOver hs₆

theorem State.memoryOk_serve {s : State} {die core msg} (h : s.memoryOk = true) : (s.serve die core msg).memoryOk = true :=
  memoryOk_ite (memoryOk_await h) (memoryOk_modHart (memoryOk_ite h h))

theorem State.memoryOk_stopHart {s : State} {id t} (h : s.memoryOk = true) : (s.stopHart id t).memoryOk = true :=
  memoryOk_serve (memoryOk_setHart h)

theorem State.memoryOk_owe {s : State} {id t} (h : s.memoryOk = true) : (s.owe id t).memoryOk = true :=
  memoryOk_modHart (memoryOk_wakeFor h)

theorem State.memoryOk_trapAt {s : State} {id t} (h : s.memoryOk = true) : (s.trapAt id t).memoryOk = true := by
  unfold State.trapAt
  split
  · exact memoryOk_ite (memoryOk_setHart (memoryOk_endTrapped h)) (memoryOk_owe h)
  · exact memoryOk_ite (memoryOk_setHart h) (memoryOk_stopHart h)

theorem State.memoryOk_takeVerdict {s : State} {id} (h : s.memoryOk = true) : (s.takeVerdict id).memoryOk = true := by
  unfold State.takeVerdict
  split
  · exact memoryOk_trapAt h
  · exact h

theorem State.memoryOk_trap {s : State} {t} (h : s.memoryOk = true) : (s.trap t).memoryOk = true := memoryOk_trapAt h

theorem State.memoryOk_raise {s : State} {c} (h : s.memoryOk = true) : (s.raise c).memoryOk = true := memoryOk_trap h

theorem State.memoryOk_raiseAt {s : State} {c a} (h : s.memoryOk = true) : (s.raiseAt c a).memoryOk = true := memoryOk_trap h

theorem keeps_check {b c} {s : State} (h : s.memoryOk = true) : (check b c s).Keeps :=
  Res.keeps_ite (Res.keeps_ok h) (Res.keeps_stop (memoryOk_raise h))

theorem keeps_checkAt {b c a} {s : State} (h : s.memoryOk = true) : (checkAt b c a s).Keeps :=
  Res.keeps_ite (Res.keeps_ok h) (Res.keeps_stop (memoryOk_raiseAt h))

theorem Core.memoryOk_issued {k : Core} {slot} (hk : k.memoryOk = true) : (k.issued slot).memoryOk = true :=
  Core.memoryOk_ite hk (Core.memoryOk_ite hk hk)

theorem Core.memoryOk_mapHarts {f} {k : Core} (hk : k.memoryOk = true) : (Core.mapHarts f k).memoryOk = true := hk

theorem Cluster.wf_mapHarts {f} {k : Cluster} (hk : k.mem.wf = true) : (Cluster.mapHarts f k).mem.wf = true := by
  unfold Cluster.mapHarts
  exact hk

theorem Partition.memoryOk_mapHarts {f} {q : Partition} (hq : q.memoryOk = true) : (Partition.mapHarts f q).memoryOk = true :=
  hq

theorem Save.memoryOk_mapHarts {f v} (hv : v.memoryOk = true) : (Save.mapHarts f v).memoryOk = true := by
  obtain ⟨hp, hk, hc⟩ := memoryOk_iff.1 hv
  refine memoryOk_iff.2 ⟨Partition.memoryOk_mapHarts hp, fun k h => ?_, fun k h => ?_⟩
  · obtain ⟨x, hx, rfl⟩ := List.mem_map.1 h
    exact Cluster.wf_mapHarts (hk x hx)
  · obtain ⟨x, hx, rfl⟩ := List.mem_map.1 h
    exact Core.memoryOk_mapHarts (hc x hx)

theorem State.memoryOk_mapHarts {s : State} {f} (h : s.memoryOk = true) : (s.mapHarts f).memoryOk = true :=
  memoryOk_mk (wf_mem h) (Table.all_update (all_clusters h) (fun _ _ h₁ => Cluster.wf_mapHarts h₁))
    (Table.all_update (all_cores h) (fun _ _ h₂ => Core.memoryOk_mapHarts h₂))
      (Table.all_update (all_partitions h) (fun _ _ h₃ => Partition.memoryOk_mapHarts h₃)) (all_clearings h)
        (savesOk_map (savesOk_saves h) (fun _ h₄ => Save.memoryOk_mapHarts h₄))

theorem State.memoryOk_abortAt {s : State} {id} (h : s.memoryOk = true) : (s.abortAt id).memoryOk = true := by
  unfold State.abortAt
  extract_lets h₁ keep₁ s₁ s₂ k₁ s₃
  have hs₁ : s₁.memoryOk = true := by
    unfold s₁
    split
    · exact memoryOk_commandOver h
    · exact h
  have hs₂ : s₂.memoryOk = true := memoryOk_setHart (memoryOk_unstall (memoryOk_dropViews hs₁))
  have hs₃ : s₃.memoryOk = true := memoryOk_setCore hs₂ (memoryOk_core hs₂)
  exact memoryOk_modHart (memoryOk_leaveStores hs₃)

theorem State.memoryOk_parking {s : State} {k} (h : s.memoryOk = true) (hk : ∀ (a : State), a.memoryOk = true →
    (k a).memoryOk = true) : (s.parking k).memoryOk = true := memoryOk_ite (hk _ h) (memoryOk_stall (memoryOk_wakeFor h))

theorem State.memoryOk_parkOn {s : State} {id seq} (h : s.memoryOk = true) : (s.parkOn id seq).memoryOk = true :=
  memoryOk_ite (memoryOk_setHart (memoryOk_setCluster (memoryOk_abortAt h) (wf_cluster (memoryOk_abortAt h))))
    (memoryOk_setHart (memoryOk_setCluster (memoryOk_abortAt h) (wf_cluster (memoryOk_abortAt h))))

theorem State.memoryOk_enterViews {s : State} {id} (h : s.memoryOk = true) : (s.enterViews id).memoryOk = true := by
  unfold State.enterViews
  refine memoryOk_foldl h (fun _ _ h₁ => ?_)
  extract_lets v₁ k₁ room₁ s₂ c₁ s₃
  have hs₂ : s₂.memoryOk = true := memoryOk_ite (memoryOk_setCluster h₁ (wf_cluster h₁)) h₁
  have hs₃ : s₃.memoryOk = true := by
    unfold s₃
    split
    · exact hs₂
    · exact memoryOk_setCore hs₂ (memoryOk_core hs₂)
  exact memoryOk_ite h₁ (memoryOk_modHart hs₃)

theorem State.memoryOk_pushRecord {s : State} {x core fixed} (h : s.memoryOk = true) :
    (s.pushRecord x core fixed).memoryOk = true := memoryOk_ite (memoryOk_push h)
      (memoryOk_setPartition h (memoryOk_partition h))

theorem State.memoryOk_readyKept {s : State} {id} (h : s.memoryOk = true) : (s.readyKept id).memoryOk = true := by
  unfold State.readyKept
  extract_lets p₁
  split
  · exact memoryOk_enterViews (memoryOk_modHart h)
  · exact memoryOk_enterViews (memoryOk_modHart h)
  · exact memoryOk_modHart h

theorem State.memoryOk_readyRecord {s : State} {x id} (h : s.memoryOk = true) : (s.readyRecord x id).memoryOk = true :=
  memoryOk_pushRecord h

theorem State.memoryOk_giveMiss {s : State} {k seq} (h : s.memoryOk = true) : (s.giveMiss k seq).memoryOk = true := by
  unfold State.giveMiss
  extract_lets c₁
  split
  · exact h
  · exact memoryOk_foldl (memoryOk_setCluster h (wf_cluster h)) (fun _ _ h₁ => memoryOk_modHart h₁)

theorem State.memoryOk_admitMiss {s : State} {k r asid page image} (h : s.memoryOk = true) :
    (s.admitMiss k r asid page image).memoryOk = true := memoryOk_ite (memoryOk_ite h (memoryOk_setCluster h (wf_cluster h)))
      (memoryOk_setCluster h (wf_cluster h))

theorem State.memoryOk_joinMiss {s : State} {k seq r} (h : s.memoryOk = true) : (s.joinMiss k seq r).memoryOk = true :=
  memoryOk_giveMiss (memoryOk_setCluster h (wf_cluster h))

theorem State.memoryOk_markFault {s : State} {c va} (h : s.memoryOk = true) : (s.markFault c va).memoryOk = true :=
  memoryOk_modMe h

theorem State.memoryOk_taskMiss {s : State} {asid kind va} (h : s.memoryOk = true) :
    (s.taskMiss asid kind va).memoryOk = true := by
  unfold State.taskMiss
  extract_lets id₁ page₁ s₁
  have hs₁ : s₁.memoryOk = true := memoryOk_markFault h
  split
  · exact memoryOk_raiseAt h
  · split
    · exact memoryOk_ite (memoryOk_parking hs₁ (fun _ h₁ => memoryOk_parkOn h₁)) (memoryOk_stall (memoryOk_joinMiss hs₁))
    · exact memoryOk_stall (memoryOk_admitMiss hs₁)

theorem State.memoryOk_poisonGlobal {s : State} {va} (h : s.memoryOk = true) : (s.poisonGlobal va).memoryOk = true := by
  unfold State.poisonGlobal
  extract_lets id₁ page₁ asid₁
  split
  · exact memoryOk_raiseAt h
  · refine memoryOk_parking h (fun _ h₁ => ?_)
    extract_lets s₂ seq₁ t₁ k₁
    have hs₂ : s₂.memoryOk = true := memoryOk_markFault h₁
    have ht₁ : t₁.memoryOk = true := memoryOk_admitMiss hs₂
    split
    · exact memoryOk_parkOn hs₂
    · exact memoryOk_ite (memoryOk_parkOn (memoryOk_setCluster ht₁ (wf_cluster ht₁))) (memoryOk_stall ht₁)

theorem State.memoryOk_poisonLocal {s : State} {space off} (h : s.memoryOk = true) :
    (s.poisonLocal space off).memoryOk = true := memoryOk_trap h

end Sys2Proof.Machine
end

section
/-! PROOF. What keeps every memory canonical: translation, loads and stores. -/

namespace Sys2Proof.Machine

open Sys2Proof State

theorem State.memoryOk_reclaim {s : State} {k} (h : s.memoryOk = true) : (s.reclaim k).memoryOk = true :=
  memoryOk_setCluster h (Cluster.wf_mk (wf_cluster h))

theorem State.memoryOk_fillCluster {s : State} {k e} (h : s.memoryOk = true) : (s.fillCluster k e).memoryOk = true :=
  memoryOk_setCluster h (Cluster.wf_mk (wf_cluster h))

theorem State.memoryOk_anchorJoins {s : State} {e} (h : s.memoryOk = true) : (s.anchorJoins e).memoryOk = true :=
  memoryOk_mk (wf_mem h) (all_clusters h) (all_cores h) (Table.all_update (all_partitions h) (fun _ _ h₁ => h₁))
    (all_clearings h) (savesOk_saves h)

theorem State.memoryOk_installDie {s : State} {d e} (h : s.memoryOk = true) : (s.installDie d e).memoryOk = true := by
  have ha := memoryOk_anchorJoins (e := e) h
  refine memoryOk_setDie (memoryOk_mk (wf_mem ha) (Table.all_update (all_clusters ha) fun _ k hk => ?_)
    (Table.all_update (all_cores ha) fun _ _ hk => Core.memoryOk_ite hk hk) (all_partitions ha) (all_clearings ha)
    (savesOk_saves ha))
  split
  · exact Cluster.wf_mk hk
  · exact hk

theorem State.memoryOk_fillCore {s : State} {c e} (h : s.memoryOk = true) : (s.fillCore c e).memoryOk = true :=
  memoryOk_setCore h (memoryOk_core h)

/-- What a lookup copies into the levels above keeps every memory. -/
theorem State.memoryOk_of_lookup {s t : State} {id asid va e} (hl : s.lookup id asid va = some (e, t)) (h : s.memoryOk = true) :
    t.memoryOk = true := by
  unfold lookup at hl
  extract_lets hit up k at hl
  have hup {s : State} {e} (h : s.memoryOk = true) : (up s e).memoryOk = true := memoryOk_ite (memoryOk_fillCore h) h
  split at hl
  · obtain ⟨_, _, he⟩ := Option.map_eq_some_iff.1 hl
    cases he
    exact h
  · split at hl
    · cases hl
      exact h
    · split at hl
      · cases hl
        exact hup h
      · split at hl
        · cases hl
          exact hup (memoryOk_fillCluster h)
        · obtain ⟨_, _, he⟩ := Option.map_eq_some_iff.1 hl
          cases he
          exact hup (memoryOk_fillCluster h)

theorem State.keeps_translate {s : State} {va need kind} (h : s.memoryOk = true) : (s.translate va need kind).Keeps := by
  unfold translate
  refine Res.keeps_bind (keeps_checkAt h) fun _ s h => ?_
  split
  · exact memoryOk_taskMiss h
  · rename_i _ t e
    have ht := memoryOk_of_lookup e h
    exact Res.keeps_bind (keeps_checkAt ht) fun _ _ h => Res.keeps_bind (keeps_checkAt h) fun _ _ h => h

theorem State.keeps_useDie {s : State} {pa n} (h : s.memoryOk = true) : (s.useDie pa n).Keeps :=
  Res.keeps_ite (Res.keeps_ok (memoryOk_touchDie h)) (Res.keeps_stop (memoryOk_stall (memoryOk_wakeDie h)))

theorem State.keeps_loadBytes {s : State} {va n kind} (h : s.memoryOk = true) : (s.loadBytes va n kind).Keeps :=
  Res.keeps_bind (keeps_translate h) (fun _ _ h₁ => Res.keeps_bind (keeps_useDie h₁)
    (fun _ _ h₂ => Res.keeps_ite (Res.keeps_stop (memoryOk_poisonGlobal (memoryOk_meetErrors h₂)))
      (Res.keeps_ok (memoryOk_meetErrors h₂))))

theorem State.keeps_storeTo {s : State} {places bytes half release} (h : s.memoryOk = true) :
    (s.storeTo places bytes half release).Keeps := Res.keeps_ite (Res.keeps_ok (memoryOk_issueStore h))
      (Res.keeps_bind (keeps_awaitStores h) (fun _ _ _ => Res.keeps_ok (memoryOk_drainAll (memoryOk_issueStore h))))

theorem State.keeps_storeBytes {s : State} {va l} (h : s.memoryOk = true) : (s.storeBytes va l).Keeps :=
  Res.keeps_bind (keeps_translate h) (fun _ _ h₁ => keeps_storeTo h₁)

theorem State.memoryOk_pushJoin {s : State} {j} (h : s.memoryOk = true) : (s.pushJoin j).memoryOk = true := memoryOk_push h

theorem State.memoryOk_atomicWrite {s : State} {bytes} (h : s.memoryOk = true) : (s.atomicWrite bytes).memoryOk = true :=
  memoryOk_foldl (memoryOk_mk (Mem.wf_store _ (wf_mem h)) (all_clusters h) (all_cores h)
    (Table.all_map (all_partitions h) (fun _ h₁ => h₁)) (all_clearings h) (savesOk_saves h))
      (fun _ _ h₂ => memoryOk_pushJoin h₂)

theorem State.memoryOk_addSignal {s : State} {pa} (h : s.memoryOk = true) : (s.addSignal pa).memoryOk = true :=
  memoryOk_ite (memoryOk_of_mem (memoryOk_atomicWrite (memoryOk_meetErrors h))
    (Mem.wf_mark _ (wf_mem (memoryOk_atomicWrite (memoryOk_meetErrors h)))) rfl) (memoryOk_atomicWrite (memoryOk_meetErrors h))

theorem State.memoryOk_touch {s : State} {b} (h : s.memoryOk = true) : (s.touch b).memoryOk = true := h

theorem State.keeps_useBank {s : State} {b} (h : s.memoryOk = true) : (s.useBank b).Keeps := by
  unfold State.useBank
  split
  · exact Res.keeps_ok (memoryOk_touch h)
  · exact Res.keeps_ok (memoryOk_touch h)
  · exact Res.keeps_stop (memoryOk_stall (memoryOk_wakeBank h))

theorem Core.wf_buffer {k : Core} {space} (hk : k.memoryOk = true) : (k.buffer space).wf = true := by
  unfold Core.buffer
  split
  · exact Core.wf_w hk
  · exact Core.wf_a hk
  · exact Core.wf_c hk
  · exact Core.wf_sbuf hk

theorem Core.memoryOk_setBuffer {k : Core} {space} {m : Mem} (hk : k.memoryOk = true) (hm : m.wf = true) :
    (k.setBuffer space m).memoryOk = true := by
  unfold Core.setBuffer
  split
  · exact Core.memoryOk_mk hm (Core.wf_a hk) (Core.wf_c hk) (Core.wf_sbuf hk)
  · exact Core.memoryOk_mk (Core.wf_w hk) hm (Core.wf_c hk) (Core.wf_sbuf hk)
  · exact Core.memoryOk_mk (Core.wf_w hk) (Core.wf_a hk) hm (Core.wf_sbuf hk)
  · exact Core.memoryOk_mk (Core.wf_w hk) (Core.wf_a hk) (Core.wf_c hk) hm

theorem State.keeps_useBanks {s : State} {space offs} (h : s.memoryOk = true) : (s.useBanks space offs).Keeps :=
  Res.keeps_each h (fun _ _ h₁ => keeps_useBank h₁)

theorem State.keeps_loadLocal {s : State} {space off n} (h : s.memoryOk = true) : (s.loadLocal space off n).Keeps :=
  Res.keeps_bind (keeps_useBanks h) (fun _ _ h₁ => Res.keeps_ite (Res.keeps_stop (memoryOk_stall h₁))
    (Res.keeps_ite (Res.keeps_stop (memoryOk_poisonLocal h₁)) (Res.keeps_ok h₁)))

theorem State.keeps_storeLocal {s : State} {space bytes half} (h : s.memoryOk = true) :
    (s.storeLocal space bytes half).Keeps := by
  unfold State.storeLocal
  extract_lets offs₁
  exact Res.keeps_ite (Res.keeps_ok h) (Res.keeps_bind (keeps_useBanks h)
    (fun _ _ h₁ => Res.keeps_ite (Res.keeps_ok (memoryOk_issueStore h₁))
      (Res.keeps_ite (Res.keeps_stop (memoryOk_stall h₁)) (Res.keeps_ok
        (memoryOk_setMyCore h₁ (Core.memoryOk_setBuffer (memoryOk_myCore h₁)
          (Mem.wf_storeBoth _ _ (Core.wf_buffer (memoryOk_myCore h₁)))))))))

end Sys2Proof.Machine
end

section
/-! PROOF. What keeps every memory canonical: loads, objects and their pages. -/

namespace Sys2Proof.Machine

open Sys2Proof State

theorem State.memoryOk_answerWith {s : State} {b} (h : s.memoryOk = true) : (s.answerWith b).memoryOk = true := h

theorem State.memoryOk_mapPage {s : State} {p e} (h : s.memoryOk = true) : (s.mapPage p e).memoryOk = true :=
  memoryOk_foldl h (fun _ _ h₁ => memoryOk_installDie h₁)

theorem State.memoryOk_mapRange {s : State} {p va frames b r w x7} (h : s.memoryOk = true) :
    (s.mapRange p va frames b r w x7).memoryOk = true := memoryOk_foldl h
      (fun _ _ h₁ => memoryOk_mapPage (memoryOk_freshFrame (memoryOk_of_mem h₁ (Mem.wf_fillPage _ _ (wf_mem h₁)) rfl)))

theorem State.memoryOk_install {s : State} {p file base g units route} (h : s.memoryOk = true) :
    (s.install p file base g units route).1.memoryOk = true := by
  unfold install
  extract_lets q datas need image frames va digests o s₁ s₂ t after mapped free s₃
  have hs₁ : s₁.memoryOk = true := memoryOk_setPartition h (memoryOk_partition h)
  have hs₂ : s₂.memoryOk = true := memoryOk_ite hs₁ (memoryOk_mapRange hs₁)
  have ht : t.1.memoryOk = true := by
    refine List.foldlRecOn (motive := fun r : State × List Nat => r.1.memoryOk = true) datas _ hs₂ fun r hr x _ => ?_
    exact memoryOk_mapRange hr
  exact memoryOk_fst_ite (memoryOk_answerWith h) (memoryOk_answerWith (memoryOk_ite (memoryOk_mapPage ht) ht))

theorem State.memoryOk_cairnStore {s : State} {p key words} (h : s.memoryOk = true) :
    (s.cairnStore p key words).memoryOk = true := memoryOk_setPartition h (memoryOk_partition h)

theorem State.memoryOk_translateLoad {s : State} {p file base pf pv} (h : s.memoryOk = true) :
    (s.translateLoad p file base pf pv).memoryOk = true := by
  unfold State.translateLoad
  extract_lets q₁ code₁ pathfinder₁ key₁ k₁ cap₁ asked₁
  split
  · exact memoryOk_install (memoryOk_setPartition h (memoryOk_partition h))
  · split
    · rename_i _ _ c₁ e₁
      have h₁ := Table.all_find? e₁ (all_clearings h)
      exact memoryOk_mk (wf_mem h) (all_clusters h) (all_cores h) (all_partitions h) (Table.all_set (all_clearings h) h₁)
        (savesOk_saves h)
    · exact memoryOk_mk (wf_mem h) (all_clusters h) (all_cores h) (all_partitions h)
        (Table.all_set (all_clearings h) Mem.wf_empty) (savesOk_saves h)

theorem keeps_execLoadRequest {part object base} {s : State} (h : s.memoryOk = true) :
    (execLoadRequest part object base s).Keeps := by
  unfold execLoadRequest
  extract_lets base₁ refuse₁
  split
  · exact Out.keeps_next h
  · split
    · exact Out.keeps_next (memoryOk_answerWith h)
    · split
      · exact Out.keeps_next (memoryOk_answerWith h)
      · split
        · exact Out.keeps_next (memoryOk_answerWith h)
        · split
          · exact Out.keeps_next (memoryOk_install h)
          · split
            · split
              · exact Out.keeps_next (memoryOk_answerWith h)
              · exact Out.keeps_next (memoryOk_translateLoad h)
            · exact Out.keeps_next (memoryOk_answerWith h)

theorem keeps_execCairnWaitResolve {part load} {s : State} (h : s.memoryOk = true) :
    (execCairnWaitResolve part load s).Keeps := by
  unfold execCairnWaitResolve
  split
  · exact Out.keeps_next h
  · rename_i _ _ c₁ e₁
    have h₁ := Table.all_find? e₁ (all_clearings h)
    split
    · exact Out.keeps_next h
    · extract_lets left₁ s₁ place₁
      have hs₁ : s₁.memoryOk = true := by
        unfold s₁
        refine memoryOk_mk (wf_mem h) (all_clusters h) (all_cores h) (all_partitions h) ?_ (savesOk_saves h)
        split
        · exact Table.all_erase (all_clearings h)
        · exact Table.all_set (all_clearings h) h₁
      split
      · exact Out.keeps_next (memoryOk_install hs₁)
      · exact Out.keeps_next (memoryOk_answerWith hs₁)
      · exact Out.keeps_next hs₁

theorem State.memoryOk_unbindMailbox {s : State} {p i} (h : s.memoryOk = true) : (s.unbindMailbox p i).memoryOk = true :=
  memoryOk_setPartition (memoryOk_setMailbox (memoryOk_sendFault h) Mem.wf_empty)
    (memoryOk_partition (memoryOk_setMailbox (memoryOk_sendFault h) Mem.wf_empty))

theorem State.memoryOk_revoke {s : State} {p obj} (h : s.memoryOk = true) : (s.revoke p obj).memoryOk = true := by
  unfold State.revoke
  split
  · exact h
  · split
    · exact h
    · extract_lets b₁ s₁ s₂ mine₁ ended₁ s₃
      have hs₁ : s₁.memoryOk = true := memoryOk_setPartition h (memoryOk_partition h)
      have hs₂ : s₂.memoryOk = true := memoryOk_foldl hs₁ (fun _ _ h₁ => memoryOk_unbindMailbox h₁)
      have hs₃ : s₃.memoryOk = true := memoryOk_mk (wf_mem hs₂) (Table.all_map (all_clusters hs₂) (fun _ h₂ => h₂))
        (all_cores hs₂) (all_partitions hs₂) (all_clearings hs₂) (savesOk_saves hs₂)
      refine memoryOk_foldl hs₃ (fun _ _ h₃ => ?_)
      split
      · exact memoryOk_endTrapped h₃
      · exact h₃

theorem keeps_execPageHashCheck {part obj page} {s : State} (h : s.memoryOk = true) :
    (execPageHashCheck part obj page s).Keeps := by
  unfold execPageHashCheck
  split
  · exact Out.keeps_next h
  · exact Out.keeps_ite (Out.keeps_next h) (Out.keeps_ite (Out.keeps_next
      (memoryOk_mapRange (memoryOk_setPartition h (memoryOk_partition h)))) (Out.keeps_next (memoryOk_revoke h)))

theorem keeps_execRevocationNotice {core obj} {s : State} (h : s.memoryOk = true) : (execRevocationNotice core obj s).Keeps :=
  Out.keeps_ite (Out.keeps_next (memoryOk_setCore h (memoryOk_core h))) (Out.keeps_next h)

theorem keeps_execImageUnload {part obj} {s : State} (h : s.memoryOk = true) : (execImageUnload part obj s).Keeps := by
  unfold execImageUnload
  split
  · exact Out.keeps_next h
  · extract_lets s₁ q₁ s₂ after₁ guard₁ keep₁
    have hs₁ : s₁.memoryOk = true := memoryOk_foldl h (fun _ _ h₁ => memoryOk_unbindMailbox h₁)
    have hs₂ : s₂.memoryOk = true := memoryOk_setPartition hs₁ (memoryOk_partition hs₁)
    exact Out.keeps_next (memoryOk_mk (wf_mem hs₂) (Table.all_map (all_clusters hs₂) (fun _ h₂ => h₂))
      (Table.all_map (all_cores hs₂) (fun _ h₃ => h₃)) (all_partitions hs₂) (all_clearings hs₂) (savesOk_saves hs₂))

end Sys2Proof.Machine
end

section
/-! PROOF. What keeps every memory canonical: operands and results. -/

namespace Sys2Proof.Machine

open Sys2Proof State

theorem Core.memoryOk_putTile {k : Core} {slot n x3} (hk : k.memoryOk = true) : (k.putTile slot n x3).memoryOk = true := hk

theorem State.memoryOk_put {s : State} {id x2} (h : s.memoryOk = true) : (s.put id x2).memoryOk = true := by
  unfold State.put
  split
  · exact memoryOk_modHart h
  · exact memoryOk_modHart h
  · exact memoryOk_modHart h
  · exact memoryOk_setCore h (Core.memoryOk_putTile (memoryOk_core h))

theorem State.memoryOk_land {s : State} {id i} (h : s.memoryOk = true) : (s.land id i).memoryOk = true := by
  unfold State.land
  split
  · exact h
  · exact memoryOk_foldl (memoryOk_modHart h) (fun _ _ h₁ => memoryOk_put h₁)

theorem State.memoryOk_landClosed {id now n} {s : State} (h : s.memoryOk = true) : (landClosed id now n s).memoryOk = true := by
  induction n generalizing s with
  | zero => exact h
  | succ n ih =>
    unfold landClosed
    split
    · exact h
    · exact memoryOk_ite (ih (memoryOk_land h)) h

theorem State.memoryOk_landAll {s : State} {id} (h : s.memoryOk = true) : (s.landAll id).memoryOk = true :=
  memoryOk_foldl h (fun _ _ h₁ => memoryOk_land h₁)

theorem State.memoryOk_later {s : State} {la cycles dests flags sets} (h : s.memoryOk = true) :
    (s.later la cycles dests flags sets).memoryOk = true := memoryOk_modMe h

theorem State.memoryOk_laterPerformed {s : State} {la doneAt dests flags sets} (h : s.memoryOk = true) :
    (s.laterPerformed la doneAt dests flags sets).memoryOk = true := memoryOk_modMe h

theorem State.memoryOk_addFlags {s : State} {flags} (h : s.memoryOk = true) : (s.addFlags flags).memoryOk = true :=
  memoryOk_modMe h

end Sys2Proof.Machine
end

section
/-! PROOF. What keeps every memory canonical: fetch and the caches. -/

namespace Sys2Proof.Machine

open Sys2Proof State

theorem State.keeps_codeCheck {s : State} {va addr} (h : s.memoryOk = true) : (s.codeCheck va addr).Keeps := by
  unfold State.codeCheck
  split
  · exact Res.keeps_ok h
  · extract_lets page₁ open_₁ p₁ b₁ s₁
    have hs₁ : s₁.memoryOk = true := by
      unfold s₁
      split
      · exact h
      · exact memoryOk_setPartition h (memoryOk_partition h)
    exact Res.keeps_ite (Res.keeps_stop (memoryOk_raiseAt h)) (Res.keeps_ite (Res.keeps_ok h)
      (Res.keeps_stop (memoryOk_stall hs₁)))

theorem State.memoryOk_fillLine {s : State} {core asid va} (h : s.memoryOk = true) :
    (s.fillLine core asid va).memoryOk = true := memoryOk_reclaim (memoryOk_setCore h
      (Core.memoryOk_mk (Core.wf_w (memoryOk_core h)) (Core.wf_a (memoryOk_core h)) (Core.wf_c (memoryOk_core h))
        (Core.wf_sbuf (memoryOk_core h))))

theorem State.keeps_fetchEntry {s : State} {va} (h : s.memoryOk = true) : (s.fetchEntry va).Keeps := by
  unfold fetchEntry
  split
  · exact Res.keeps_ok h
  · split
    · rename_i _ s₁ e
      exact Res.keeps_stop (memoryOk_stall (memoryOk_of_lookup e h))
    · exact Res.keeps_ok h

theorem State.memoryOk_watchdogTrap {s : State} {id} (h : s.memoryOk = true) : (s.watchdogTrap id).memoryOk = true :=
  memoryOk_trapAt (memoryOk_modHart h)

theorem State.keeps_fetchWord {s : State} {va addr} (h : s.memoryOk = true) : (s.fetchWord va addr).Keeps := by
  unfold State.fetchWord
  refine Res.keeps_bind (keeps_codeCheck h) (fun _ _ h₁ => ?_)
  refine Res.keeps_bind (keeps_fetchEntry h₁) (fun _ _ h₂ => ?_)
  refine Res.keeps_bind (keeps_translate h₂) (fun _ _ h₃ => ?_)
  extract_lets s₄
  have hs₄ : s₄.memoryOk = true := memoryOk_meetErrors h₃
  exact Res.keeps_ite (Res.keeps_stop (memoryOk_poisonGlobal hs₄)) (Res.keeps_ite
    (Res.keeps_bind (keeps_useDie hs₄) (fun _ _ h₄ => Res.keeps_stop (memoryOk_stall h₄)))
      (Res.keeps_bind (Res.keeps_ite (Res.keeps_ok hs₄) (keeps_useDie hs₄)) (fun _ _ h₅ => Res.keeps_ok h₅)))

theorem keeps_execInstructionCacheFill {x} {s : State} (h : s.memoryOk = true) : (execInstructionCacheFill x s).Keeps := by
  unfold execInstructionCacheFill
  extract_lets x₁ missing₁
  split
  · split
    · exact Out.keeps_next (memoryOk_fillLine h)
    · exact Out.keeps_next h
  · exact Out.keeps_next h

end Sys2Proof.Machine
end

section
/-! PROOF. What keeps every memory canonical: control instructions and regions. -/

namespace Sys2Proof.Machine

open Sys2Proof State

theorem State.memoryOk_jumpTo {s : State} {a} (h : s.memoryOk = true) : (s.jumpTo a).memoryOk = true := memoryOk_modMe h

theorem keeps_execBr {f} {s : State} (h : s.memoryOk = true) : (execBr f s).Keeps :=
  keeps_guarded h (fun _ h₁ => Out.keeps_next (memoryOk_jumpTo h₁))

theorem keeps_execJmp {f} {s : State} (h : s.memoryOk = true) : (execJmp f s).Keeps :=
  keeps_guarded h (fun _ h₁ => Out.keeps_next (memoryOk_endRegion (memoryOk_jumpTo h₁)))

theorem keeps_jumpVia {s : State} {t link} (h : s.memoryOk = true) (hlink : ∀ (a : State), a.memoryOk = true →
    (link a).memoryOk = true) : (jumpVia s t link).Keeps := Res.keeps_run (keeps_checkAt h)
      (fun _ _ h₁ => Out.keeps_next (memoryOk_jumpTo (hlink _ h₁)))

theorem keeps_execJr {f} {s : State} (h : s.memoryOk = true) : (execJr f s).Keeps :=
  keeps_guarded h (fun _ h₁ => keeps_jumpVia h₁ (fun _ h₂ => h₂))

theorem keeps_execCall {f} {s : State} (h : s.memoryOk = true) : (execCall f s).Keeps :=
  keeps_guarded h (fun _ h₁ => keeps_jumpVia h₁ (fun _ h₂ => memoryOk_setS h₂))

theorem keeps_execCallr {f} {s : State} (h : s.memoryOk = true) : (execCallr f s).Keeps :=
  keeps_guarded h (fun _ h₁ => keeps_jumpVia h₁ (fun _ h₂ => memoryOk_setS h₂))

theorem keeps_execRep {f} {s : State} (h : s.memoryOk = true) : (execRep f s).Keeps := by
  unfold execRep
  refine keeps_guarded h (fun _ h₁ => ?_)
  extract_lets len₁ n₁ pc₁
  exact Res.keeps_run (Res.keeps_collect h₁ (fun _ _ h₂ => Res.keeps_bind (keeps_fetchWord h₂)
    (fun _ _ h₃ => Res.keeps_ok h₃))) (fun _ _ h₄ => Res.keeps_run (keeps_check h₄)
      (fun _ _ h₅ => Out.keeps_ite (Out.keeps_next (memoryOk_jumpTo h₅))
        (Out.keeps_next (memoryOk_jumpTo (memoryOk_modMe h₅)))))

theorem keeps_execRgn {f} {s : State} (h : s.memoryOk = true) : (execRgn f s).Keeps :=
  keeps_guarded h (fun _ h₁ => keeps_finish (memoryOk_endRegion h₁))

theorem keeps_execNop {f} {s : State} (h : s.memoryOk = true) : (execNop f s).Keeps :=
  keeps_guarded h (fun _ h₁ => keeps_finish h₁)

theorem keeps_execBrk {f} {s : State} (h : s.memoryOk = true) : (execBrk f s).Keeps :=
  keeps_guarded h (fun _ h₁ => Out.keeps_next (memoryOk_trap h₁))

end Sys2Proof.Machine
end

section
/-! PROOF. What keeps every memory canonical: Milestone. -/

namespace Sys2Proof.Machine

open Sys2Proof State

theorem State.wf_here {s : State} (h : s.memoryOk = true) : s.here.scratch.wf = true :=
  Table.all_get (P := fun c : Clearing => c.scratch.wf = true) (all_clearings h) rfl

theorem State.memoryOk_setHere {s : State} {c : Clearing} (h : s.memoryOk = true) (hc : c.scratch.wf = true) :
    (s.setHere c).memoryOk = true := memoryOk_mk (wf_mem h) (all_clusters h) (all_cores h) (all_partitions h)
      (Table.all_set (all_clearings h) hc) (savesOk_saves h)

theorem State.memoryOk_translationOver {s : State} {code detail} (h : s.memoryOk = true) :
    (s.translationOver code detail).memoryOk = true := memoryOk_ite (memoryOk_mk (wf_mem h) (all_clusters h) (all_cores h)
      (all_partitions h) (Table.all_erase (all_clearings h)) (savesOk_saves h)) (memoryOk_setHere h (wf_here h))

theorem State.memoryOk_abortTranslation {s : State} {code detail} (h : s.memoryOk = true) :
    (s.abortTranslation code detail).memoryOk = true := memoryOk_translationOver (memoryOk_answerWith h)

theorem State.memoryOk_admitOutput {s : State} (h : s.memoryOk = true) : s.admitOutput.memoryOk = true := by
  unfold State.admitOutput
  extract_lets c₁ words₁ s₁ place₁ r₁
  have hs₁ : s₁.memoryOk = true := memoryOk_cairnStore h
  split
  · exact memoryOk_abortTranslation h
  · exact memoryOk_translationOver (memoryOk_install hs₁)

theorem State.keeps_msGo {s : State} {f} (h : s.memoryOk = true) (hf : ∀ (a : Clearing), a.scratch.wf = true → (f a).scratch.wf
    = true) : (s.msGo f).Keeps := Out.keeps_next (memoryOk_setHere h (hf _ (wf_here h)))

theorem State.keeps_msConfined {s : State} (h : s.memoryOk = true) : s.msConfined.Keeps :=
  Out.keeps_next (memoryOk_abortTranslation h)

theorem Clearing.wf_put {c : Clearing} {n x2} (hc : c.scratch.wf = true) : (c.put n x2).scratch.wf = true := by
  unfold Clearing.put
  exact hc

theorem keeps_msWrite {f x1} {s : State} (h : s.memoryOk = true) : (msWrite f x1 s).Keeps :=
  keeps_msGo h (fun _ h₁ => Clearing.wf_put h₁)

theorem keeps_msBranch {f taken} {s : State} (h : s.memoryOk = true) : (msBranch f taken s).Keeps :=
  Out.keeps_next (memoryOk_setHere h (wf_here h))

theorem keeps_execMsHalt {f} {s : State} (h : s.memoryOk = true) : (execMsHalt f s).Keeps :=
  Out.keeps_next (memoryOk_admitOutput h)

theorem keeps_execMsLdi {f} {s : State} (h : s.memoryOk = true) : (execMsLdi f s).Keeps := keeps_msWrite h

theorem keeps_execMsLdh {f} {s : State} (h : s.memoryOk = true) : (execMsLdh f s).Keeps := keeps_msWrite h

theorem keeps_execMsMov {f} {s : State} (h : s.memoryOk = true) : (execMsMov f s).Keeps := keeps_msWrite h

theorem keeps_execMsAdd {f} {s : State} (h : s.memoryOk = true) : (execMsAdd f s).Keeps := keeps_msWrite h

theorem keeps_execMsAddi {f} {s : State} (h : s.memoryOk = true) : (execMsAddi f s).Keeps := keeps_msWrite h

theorem keeps_execMsSub {f} {s : State} (h : s.memoryOk = true) : (execMsSub f s).Keeps := keeps_msWrite h

theorem keeps_execMsAnd {f} {s : State} (h : s.memoryOk = true) : (execMsAnd f s).Keeps := keeps_msWrite h

theorem keeps_execMsOr {f} {s : State} (h : s.memoryOk = true) : (execMsOr f s).Keeps := keeps_msWrite h

theorem keeps_execMsXor {f} {s : State} (h : s.memoryOk = true) : (execMsXor f s).Keeps := keeps_msWrite h

theorem keeps_execMsShl {f} {s : State} (h : s.memoryOk = true) : (execMsShl f s).Keeps := keeps_msWrite h

theorem keeps_execMsShr {f} {s : State} (h : s.memoryOk = true) : (execMsShr f s).Keeps := keeps_msWrite h

theorem keeps_execMsInb {f} {s : State} (h : s.memoryOk = true) : (execMsInb f s).Keeps :=
  Out.keeps_ite (keeps_msConfined h) (keeps_msWrite h)

theorem keeps_execMsInw {f} {s : State} (h : s.memoryOk = true) : (execMsInw f s).Keeps :=
  Out.keeps_ite (keeps_msConfined h) (keeps_msWrite h)

theorem keeps_execMsLds {f} {s : State} (h : s.memoryOk = true) : (execMsLds f s).Keeps :=
  Out.keeps_ite (keeps_msConfined h) (keeps_msWrite h)

theorem keeps_execMsSts {f} {s : State} (h : s.memoryOk = true) : (execMsSts f s).Keeps :=
  Out.keeps_ite (keeps_msConfined h) (keeps_msGo h (fun _ h₁ => Mem.wf_storeNat _ _ _ h₁))

theorem keeps_execMsBeq {f} {s : State} (h : s.memoryOk = true) : (execMsBeq f s).Keeps := keeps_msBranch h

theorem keeps_execMsBne {f} {s : State} (h : s.memoryOk = true) : (execMsBne f s).Keeps := keeps_msBranch h

theorem keeps_execMsBlt {f} {s : State} (h : s.memoryOk = true) : (execMsBlt f s).Keeps := keeps_msBranch h

theorem keeps_execMsJmp {f} {s : State} (h : s.memoryOk = true) : (execMsJmp f s).Keeps := keeps_msBranch h

theorem keeps_execMsWay {f} {s : State} (h : s.memoryOk = true) : (execMsWay f s).Keeps :=
  keeps_msGo h (fun _ h₁ => Clearing.wf_mk (Clearing.wf_put h₁))

theorem keeps_execMsEmit {f} {s : State} (h : s.memoryOk = true) : (execMsEmit f s).Keeps :=
  Out.keeps_ite (Out.keeps_next (memoryOk_abortTranslation h)) (keeps_msGo h (fun _ h₁ => h₁))

theorem keeps_execBudgetExhausted {k} {s : State} (h : s.memoryOk = true) : (execBudgetExhausted k s).Keeps := by
  unfold execBudgetExhausted
  split
  · exact Out.keeps_next h
  · exact Out.keeps_ite (Out.keeps_next (memoryOk_abortTranslation (memoryOk_of_eq h rfl))) (Out.keeps_next h)

end Sys2Proof.Machine
end

section
/-! PROOF. What keeps every memory canonical: elements of views. -/

namespace Sys2Proof.Machine

open Sys2Proof State

theorem keeps_checkView {v} {s : State} (h : s.memoryOk = true) : (checkView v s).Keeps :=
  Res.keeps_bind (keeps_check h) (fun _ _ h₁ => keeps_check h₁)

theorem State.keeps_loadElem {s : State} {v a n} (h : s.memoryOk = true) : (s.loadElem v a n).Keeps := by
  unfold State.loadElem
  split
  · extract_lets va₁
    exact Res.keeps_bind (keeps_checkAt h) (fun _ _ h₁ => Res.keeps_bind (keeps_translate h₁)
      (fun _ _ h₂ => Res.keeps_bind (keeps_checkAt h₂) (fun _ _ h₃ => Res.keeps_bind (keeps_useDie h₃)
        (fun _ _ h₄ => Res.keeps_ite (Res.keeps_stop (memoryOk_poisonGlobal (memoryOk_meetErrors h₄)))
          (Res.keeps_ok (memoryOk_meetErrors h₄))))))
  · exact Res.keeps_bind (keeps_checkAt h) (fun _ _ h₅ => keeps_loadLocal h₅)

theorem State.keeps_placeElem {s : State} {v a n} (h : s.memoryOk = true) : (s.placeElem v a n).Keeps :=
  Res.keeps_ite (Res.keeps_bind (keeps_checkAt h) (fun _ _ h₁ => Res.keeps_bind (keeps_translate h₁)
    (fun _ _ h₂ => Res.keeps_bind (keeps_checkAt h₂) (fun _ _ h₃ => Res.keeps_ok h₃))))
      (Res.keeps_bind (keeps_checkAt h) (fun _ _ h₄ => Res.keeps_ok h₄))

theorem State.keeps_readElement {s : State} {v l} (h : s.memoryOk = true) : (s.readElement v l).Keeps :=
  Res.keeps_bind (keeps_loadElem h) (fun _ _ h₁ => Res.keeps_ok h₁)

theorem State.keeps_writeElements {s : State} {v l release before} (h : s.memoryOk = true)
    (hbefore : ∀ (a : Bool) (a_1 : State), a_1.memoryOk = true → (before a a_1).Keeps) :
      (s.writeElements v l release before).Keeps := Res.keeps_bind (Res.keeps_collect h (fun _ _ h₁ => keeps_placeElem h₁))
        (fun _ _ h₂ => Res.keeps_ite (Res.keeps_bind (hbefore _ _ h₂) (fun _ _ h₃ => Res.keeps_ite (Res.keeps_ok h₃)
          (keeps_storeTo h₃))) (Res.keeps_bind (hbefore _ _ h₂) (fun _ _ h₄ => keeps_storeLocal h₄)))

end Sys2Proof.Machine
end

section
/-! PROOF. What keeps every memory canonical: streams. -/

namespace Sys2Proof.Machine

open Sys2Proof State

theorem State.keeps_streamOrder {s : State} {st v} (h : s.memoryOk = true) : (s.streamOrder st v).Keeps :=
  Res.keeps_ite (Res.keeps_stop (memoryOk_stall h)) (Res.keeps_ok h)

theorem State.keeps_fillStream {s : State} {i} (h : s.memoryOk = true) : (s.fillStream i).Keeps := by
  unfold State.fillStream
  split
  · exact Res.keeps_ok h
  · exact Res.keeps_ite (Res.keeps_ok h) (Res.keeps_bind (keeps_streamOrder h)
      (fun _ _ h₁ => Res.keeps_bind (Res.keeps_collect h₁ (fun _ _ h₂ => keeps_readElement h₂))
        (fun _ _ h₃ => Res.keeps_ok (memoryOk_modMe h₃))))

theorem State.keeps_popStream {s : State} {i st} (h : s.memoryOk = true) : (s.popStream i st).Keeps := by
  unfold State.popStream
  extract_lets v₁ take₁
  split
  · unfold take₁
    split
    · exact Res.keeps_ok h
    · split <;> exact Res.keeps_ok (memoryOk_modMe h)
  · refine Res.keeps_bind (keeps_fillStream h) (fun _ _ h₁ => ?_)
    unfold take₁
    split
    · exact Res.keeps_ok h₁
    · split <;> exact Res.keeps_ok (memoryOk_modMe h₁)

theorem State.keeps_drainWith {s : State} {i before} (h : s.memoryOk = true)
    (hbefore : ∀ (a : Bool) (a_1 : State), a_1.memoryOk = true → (before a a_1).Keeps) : (s.drainWith i before).Keeps
      := by
  unfold State.drainWith
  split
  · exact Res.keeps_ok h
  · split
    · exact Res.keeps_ok h
    · exact Res.keeps_ite (Res.keeps_ok h) (Res.keeps_bind (keeps_streamOrder h)
        (fun _ _ h₁ => Res.keeps_bind (keeps_writeElements h₁ (fun _ _ h₂ => hbefore _ _ h₂))
          (fun _ _ h₃ => Res.keeps_ok (memoryOk_modMe h₃))))

theorem State.keeps_flushWith {s : State} {i before} (h : s.memoryOk = true)
    (hbefore : ∀ (a : Bool) (a_1 : State), a_1.memoryOk = true → (before a a_1).Keeps) : (s.flushWith i before).Keeps
      := by
  unfold State.flushWith
  split
  · exact Res.keeps_ok h
  · exact Res.keeps_ite (Res.keeps_each h (fun _ _ h₁ => keeps_drainWith h₁ (fun _ _ h₂ => hbefore _ _ h₂))) (Res.keeps_ok h)

theorem State.keeps_beforeEntry {i so} {s : State} (h : s.memoryOk = true) : (State.beforeEntry i so s).Keeps :=
  Res.keeps_ite (Res.keeps_ok h) (Res.keeps_bind (Res.keeps_each h (fun _ _ h₁ => keeps_flushWith h₁
    (fun _ _ h₂ => Res.keeps_ok h₂))) (fun _ _ h₃ => Res.keeps_ite (Res.keeps_stop (memoryOk_stall h₃)) (keeps_release h₃)))

theorem State.keeps_drainStream {s : State} {i} (h : s.memoryOk = true) : (s.drainStream i).Keeps :=
  keeps_drainWith h (fun _ _ h₁ => keeps_beforeEntry h₁)

theorem State.keeps_fillAhead {i n} {s : State} (h : s.memoryOk = true) : (fillAhead i n s).Keeps := by
  induction n generalizing s with
  | zero => exact Res.keeps_ok h
  | succ n ih =>
    unfold fillAhead
    split
    · rename_i _ t e
      exact ih (Res.memoryOk_of_ok e (keeps_fillStream h))
    · rename_i t e
      exact Res.keeps_ite (Res.keeps_stop (Res.memoryOk_of_stop e (keeps_fillStream h))) (Res.keeps_ok h)

theorem State.keeps_viewOrder {s : State} {vs} (h : s.memoryOk = true) : (s.viewOrder vs).Keeps :=
  Res.keeps_ite (Res.keeps_stop (memoryOk_stall h)) (Res.keeps_ite (Res.keeps_ok h)
    (Res.keeps_bind (Res.keeps_each h (fun _ _ h₁ => keeps_fillAhead h₁))
      (fun _ _ h₂ => Res.keeps_ite (Res.keeps_stop (memoryOk_stall h₂)) (Res.keeps_ok h₂))))

theorem State.keeps_flushStream {s : State} {i} (h : s.memoryOk = true) : (s.flushStream i).Keeps :=
  keeps_flushWith h (fun _ _ h₁ => keeps_beforeEntry h₁)

theorem State.keeps_flushStreams {s : State} (h : s.memoryOk = true) : s.flushStreams.Keeps :=
  Res.keeps_each h (fun _ _ h₁ => keeps_flushStream h₁)

theorem State.keeps_publish {s : State} (h : s.memoryOk = true) : s.publish.Keeps :=
  Res.keeps_bind (keeps_flushStreams h) (fun _ _ h₁ => Res.keeps_ite (Res.keeps_stop (memoryOk_stall h₁)) (keeps_release h₁))

theorem State.keeps_pushStream {s : State} {i st x3} (h : s.memoryOk = true) : (s.pushStream i st x3).Keeps := by
  unfold State.pushStream
  extract_lets v₁ ls₁
  exact Res.keeps_ite (Res.keeps_ok h) (Res.keeps_bind (Res.keeps_collect h (fun _ _ h₁ => keeps_placeElem h₁))
    (fun _ _ h₂ => Res.keeps_ite (Res.keeps_bind (keeps_streamOrder h₂)
      (fun _ _ h₃ => Res.keeps_bind (keeps_publish h₃) (fun _ _ h₄ => Res.keeps_bind
        (keeps_writeElements h₄ (fun _ _ h₅ => Res.keeps_ok h₅)) (fun _ _ h₆ => Res.keeps_ok (memoryOk_modMe h₆)))))
          (Res.keeps_ok (memoryOk_modMe h₂))))

theorem State.keeps_atomicAt {s : State} {va o} (h : s.memoryOk = true) : (s.atomicAt va o).Keeps := by
  unfold State.atomicAt
  refine Res.keeps_bind (keeps_translate h) (fun _ _ h₁ => ?_)
  extract_lets line₁
  refine Res.keeps_bind (keeps_useDie h₁) (fun _ _ h₂ => ?_)
  extract_lets s₃
  have hs₃ : s₃.memoryOk = true := memoryOk_meetErrors h₂
  exact Res.keeps_ite (Res.keeps_stop (memoryOk_poisonGlobal hs₃)) (Res.keeps_bind
    (Res.keeps_ite (keeps_publish hs₃) (keeps_release hs₃)) (fun _ _ h₃ => Res.keeps_ok (memoryOk_ite h₃ (memoryOk_rekey h₃))))

theorem State.keeps_sources {l} {s : State} (h : s.memoryOk = true) : (sources l s).Keeps := by
  unfold sources
  refine Res.keeps_bind ?_ fun _ _ h => Res.keeps_ok h
  refine List.foldlRecOn (motive := Res.Keeps) l _ (Res.keeps_ok h) fun acc hacc r _ => Res.keeps_bind hacc fun t s h => ?_
  split
  · exact Res.keeps_ok h
  · split
    · split
      · exact Res.keeps_ok h
      · exact Res.keeps_bind (keeps_popStream h) fun _ _ h => Res.keeps_ok h
    · exact Res.keeps_ok h

theorem State.keeps_writeV {s : State} {d x2} (h : s.memoryOk = true) : (s.writeV d x2).Keeps := by
  unfold State.writeV
  split
  · exact keeps_pushStream h
  · exact Res.keeps_ok (memoryOk_setV h)

theorem State.keeps_putV {s : State} {d w k f long flags sets} (h : s.memoryOk = true) :
    (s.putV d w k f long flags sets).Keeps := by
  unfold State.putV
  split
  · refine Res.keeps_bind (keeps_pushStream h) (fun _ _ h₁ => ?_)
    refine Res.keeps_ok ?_
    split
    · exact memoryOk_addFlags h₁
    · exact memoryOk_later h₁
  · extract_lets x₂
    split
    · exact Res.keeps_ok (memoryOk_addFlags (memoryOk_setV h))
    · exact Res.keeps_ok (memoryOk_later h)

end Sys2Proof.Machine
end

section
/-! PROOF. What keeps every memory canonical: memory instructions. -/

namespace Sys2Proof.Machine

open Sys2Proof State

theorem State.keeps_afterStore {s : State} {o} (h : s.memoryOk = true) : (s.afterStore o).Keeps :=
  Out.keeps_ite (keeps_finish (memoryOk_endRegion (memoryOk_drainAll h))) (keeps_finish h)

theorem State.keeps_beforeStore {s : State} {o so} (h : s.memoryOk = true) : (s.beforeStore o so).Keeps :=
  Res.keeps_ite (keeps_publish h) (Res.keeps_ok h)

theorem keeps_execLd {f} {s : State} (h : s.memoryOk = true) : (execLd f s).Keeps :=
  keeps_guarded h (fun _ h₁ => Res.keeps_run (keeps_checkAt h₁) (fun _ _ h₂ => Res.keeps_run (keeps_loadBytes h₂)
    (fun _ _ h₃ => keeps_finish (memoryOk_later h₃))))

theorem keeps_execSt {f} {s : State} (h : s.memoryOk = true) : (execSt f s).Keeps := by
  unfold execSt
  refine keeps_guarded h (fun _ h₁ => ?_)
  extract_lets n₁ ea₁
  exact Res.keeps_run (keeps_checkAt h₁) (fun _ _ h₂ => Res.keeps_run (keeps_translate h₂)
    (fun _ _ h₃ => Res.keeps_run (keeps_beforeStore h₃) (fun _ _ h₄ => Res.keeps_run (keeps_storeTo h₄)
      (fun _ _ h₅ => keeps_afterStore h₅))))

theorem keeps_execBld {f} {s : State} (h : s.memoryOk = true) : (execBld f s).Keeps :=
  keeps_guarded h (fun _ h₁ => Res.keeps_run (keeps_checkAt h₁) (fun _ _ h₂ => Res.keeps_run (keeps_checkAt h₂)
    (fun _ _ h₃ => Res.keeps_run (keeps_loadLocal h₃) (fun _ _ h₄ => keeps_finish (memoryOk_later h₄)))))

theorem keeps_execBst {f} {s : State} (h : s.memoryOk = true) : (execBst f s).Keeps :=
  keeps_guarded h (fun _ h₁ => Res.keeps_run (keeps_checkAt h₁) (fun _ _ h₂ => Res.keeps_run (keeps_checkAt h₂)
    (fun _ _ h₃ => Res.keeps_run (keeps_storeLocal h₃) (fun _ _ h₄ => keeps_finish h₄))))

theorem keeps_execPf {f} {s : State} (h : s.memoryOk = true) : (execPf f s).Keeps := by
  unfold execPf
  refine keeps_guarded h fun s h => ?_
  extract_lets ea
  split
  · exact keeps_finish h
  · rename_i _ e t he
    have ht : t.memoryOk = true := by
      split at he
      · exact memoryOk_of_lookup he h
      · exact nomatch he
    have hc : t.myCore.memoryOk = true := memoryOk_myCore ht
    exact Out.keeps_ite (keeps_finish h) (Out.keeps_ite (keeps_finish (memoryOk_setDie ht)) (keeps_finish
      (memoryOk_setMyCore ht (Core.memoryOk_mk (Core.wf_w hc) (Core.wf_a hc) (Core.wf_c hc) (Core.wf_sbuf hc)))))

theorem keeps_execCln {f} {s : State} (h : s.memoryOk = true) : (execCln f s).Keeps := by
  unfold execCln
  refine keeps_guarded h (fun _ h₁ => ?_)
  extract_lets ea₁
  exact Res.keeps_run (keeps_translate h₁) (fun _ _ h₂ => Out.keeps_ite (keeps_finish h₂)
    (Res.keeps_run (keeps_publish h₂) (fun _ _ h₃ => Out.keeps_ite (keeps_finish (memoryOk_setMyCore h₃ (memoryOk_myCore h₃)))
      (keeps_finish h₃))))

theorem keeps_viewAccess {s : State} {v ty store} (h : s.memoryOk = true) : (viewAccess s v ty store).Keeps :=
  Res.keeps_bind (keeps_check h) (fun _ _ h₁ => Res.keeps_bind (keeps_check h₁) (fun _ _ h₂ => keeps_viewOrder h₂))

theorem keeps_takingPart {v l0 es} {s : State} (h : s.memoryOk = true) : (takingPart v l0 es s).Keeps :=
  Res.keeps_bind (Res.keeps_collect h (fun _ _ h₁ => Res.keeps_bind (keeps_check h₁) (fun _ _ h₂ => Res.keeps_ok h₂)))
    (fun _ _ h₃ => Res.keeps_ok h₃)

theorem keeps_execWld {f} {s : State} (h : s.memoryOk = true) : (execWld f s).Keeps := by
  unfold execWld
  refine keeps_guarded h (fun _ h₁ => ?_)
  extract_lets v₁
  exact Res.keeps_run (keeps_viewAccess h₁) (fun _ _ h₂ => Res.keeps_run (keeps_takingPart h₂)
    (fun _ _ h₃ => Res.keeps_run (Res.keeps_collect h₃ (fun _ _ h₄ => keeps_readElement h₄))
      (fun _ _ h₅ => keeps_finish (memoryOk_later h₅))))

theorem keeps_execWst {f} {s : State} (h : s.memoryOk = true) : (execWst f s).Keeps :=
  keeps_guarded h (fun _ h₁ => Res.keeps_run (keeps_viewAccess h₁) (fun _ _ h₂ => Res.keeps_run (keeps_takingPart h₂)
    (fun _ _ h₃ => Res.keeps_run (keeps_writeElements h₃ (fun _ _ h₄ => keeps_beforeStore h₄))
      (fun _ _ h₅ => keeps_afterStore h₅))))

theorem keeps_execVwld {f} {s : State} (h : s.memoryOk = true) : (execVwld f s).Keeps := by
  unfold execVwld
  refine keeps_guarded h (fun _ h₁ => ?_)
  extract_lets v₁ w₁
  exact Res.keeps_run (keeps_viewAccess h₁) (fun _ _ h₂ => Res.keeps_run (keeps_takingPart h₂)
    (fun _ _ h₃ => Res.keeps_run (Res.keeps_collect h₃ (fun _ _ h₄ => keeps_readElement h₄))
      (fun _ _ h₅ => Res.keeps_run (keeps_putV h₅) (fun _ _ h₆ => keeps_finish h₆))))

theorem keeps_execVwst {f} {s : State} (h : s.memoryOk = true) : (execVwst f s).Keeps := by
  unfold execVwst
  refine keeps_guarded h (fun _ h₁ => ?_)
  extract_lets v₁ w₁
  exact Res.keeps_run (keeps_viewAccess h₁) (fun _ _ h₂ => Res.keeps_run (keeps_takingPart h₂)
    (fun _ _ h₃ => Res.keeps_run (keeps_sources h₃) (fun _ _ h₄ => Res.keeps_run
      (keeps_writeElements h₄ (fun _ _ h₅ => keeps_beforeStore h₅)) (fun _ _ h₆ => keeps_afterStore h₆))))

theorem keeps_loadAt {n as} {s : State} (h : s.memoryOk = true) : (loadAt n as s).Keeps :=
  Res.keeps_collect h (fun _ _ h₁ => Res.keeps_bind (keeps_checkAt h₁) (fun _ _ h₂ => Res.keeps_bind (keeps_loadBytes h₂)
    (fun _ _ h₃ => Res.keeps_ok h₃)))

theorem keeps_storeAt {n l o} {s : State} (h : s.memoryOk = true) : (storeAt n l o s).Keeps :=
  Res.keeps_bind (Res.keeps_collect h (fun _ _ h₁ => Res.keeps_bind (keeps_checkAt h₁)
    (fun _ _ h₂ => Res.keeps_bind (keeps_translate h₂) (fun _ _ h₃ => Res.keeps_ok h₃))))
      (fun _ _ h₄ => Res.keeps_bind (keeps_beforeStore h₄) (fun _ _ h₅ => Res.keeps_ite (Res.keeps_ok h₅) (keeps_storeTo h₅)))

theorem keeps_putLoaded {f w cycles es xs} {s : State} (h : s.memoryOk = true) : (putLoaded f w cycles es xs s).Keeps :=
  Res.keeps_run (keeps_putV h) (fun _ _ h₁ => keeps_finish h₁)

theorem keeps_execVld {f} {s : State} (h : s.memoryOk = true) : (execVld f s).Keeps :=
  keeps_guarded h (fun _ h₁ => Res.keeps_run (keeps_checkAt h₁) (fun _ _ h₂ => Res.keeps_run (keeps_loadAt h₂)
    (fun _ _ h₃ => keeps_putLoaded h₃)))

theorem keeps_execVst {f} {s : State} (h : s.memoryOk = true) : (execVst f s).Keeps :=
  keeps_guarded h (fun _ h₁ => Res.keeps_run (keeps_checkAt h₁) (fun _ _ h₂ => Res.keeps_run (keeps_sources h₂)
    (fun _ _ h₃ => Res.keeps_run (keeps_storeAt h₃) (fun _ _ h₄ => keeps_afterStore h₄))))

theorem keeps_execVgath {f} {s : State} (h : s.memoryOk = true) : (execVgath f s).Keeps :=
  keeps_guarded h (fun _ h₁ => Res.keeps_run (keeps_sources h₁) (fun _ _ h₂ => Res.keeps_run (keeps_loadAt h₂)
    (fun _ _ h₃ => keeps_putLoaded h₃)))

theorem keeps_execVscat {f} {s : State} (h : s.memoryOk = true) : (execVscat f s).Keeps :=
  keeps_guarded h (fun _ h₁ => Res.keeps_run (keeps_sources h₁) (fun _ _ h₂ => Res.keeps_run (keeps_storeAt h₂)
    (fun _ _ h₃ => keeps_afterStore h₃)))

theorem keeps_execVbld {f} {s : State} (h : s.memoryOk = true) : (execVbld f s).Keeps := by
  unfold execVbld
  refine keeps_guarded h (fun _ h₁ => ?_)
  extract_lets w₁ ea₁
  exact Res.keeps_run (keeps_checkAt h₁) (fun _ _ h₂ => Res.keeps_run (keeps_checkAt h₂)
    (fun _ _ h₃ => Res.keeps_run (Res.keeps_collect h₃ (fun _ _ h₄ => Res.keeps_bind (keeps_loadLocal h₄)
      (fun _ _ h₅ => Res.keeps_ok h₅))) (fun _ _ h₆ => keeps_putLoaded h₆)))

theorem keeps_execVbst {f} {s : State} (h : s.memoryOk = true) : (execVbst f s).Keeps :=
  keeps_guarded h (fun _ h₁ => Res.keeps_run (keeps_checkAt h₁) (fun _ _ h₂ => Res.keeps_run (keeps_checkAt h₂)
    (fun _ _ h₃ => Res.keeps_run (keeps_sources h₃) (fun _ _ h₄ => Res.keeps_run (keeps_storeLocal h₄)
      (fun _ _ h₅ => keeps_finish h₅)))))

theorem keeps_atomic {f g dests} {s : State} (h : s.memoryOk = true) : (atomic f g dests s).Keeps := by
  unfold atomic
  refine keeps_guarded h (fun _ h₁ => ?_)
  extract_lets n₁ ea₁
  refine Res.keeps_run (keeps_checkAt h₁) (fun _ _ h₂ => ?_)
  refine Res.keeps_run (keeps_atomicAt h₂) (fun _ _ h₃ => ?_)
  extract_lets old₁ s₄
  have hs₄ : s₄.memoryOk = true := by
    unfold s₄
    split
    · exact memoryOk_atomicWrite h₃
    · exact h₃
  exact keeps_finish (memoryOk_endRegion (memoryOk_laterPerformed hs₄))

theorem keeps_execAmo {f} {s : State} (h : s.memoryOk = true) : (execAmo f s).Keeps := keeps_atomic h

theorem keeps_execCas {f} {s : State} (h : s.memoryOk = true) : (execCas f s).Keeps := keeps_atomic h

theorem keeps_execCas2 {f} {s : State} (h : s.memoryOk = true) : (execCas2 f s).Keeps := keeps_atomic h

theorem keeps_execFence {f} {s : State} (h : s.memoryOk = true) : (execFence f s).Keeps :=
  keeps_guarded h (fun _ h₁ => Out.keeps_ite (Res.keeps_run (keeps_publish h₁)
    (fun _ _ h₂ => keeps_finish (memoryOk_endRegion h₂))) (keeps_finish h₁))

theorem keeps_execBarr {f} {s : State} (h : s.memoryOk = true) : (execBarr f s).Keeps := by
  unfold execBarr
  refine keeps_guarded h (fun _ h₁ => ?_)
  extract_lets ea₁ done₁
  split
  · exact Res.keeps_run (keeps_loadBytes h₁) (fun _ _ h₂ => Out.keeps_ite (Out.keeps_next (memoryOk_stall h₂))
      (keeps_finish (memoryOk_endRegion (memoryOk_modMe (memoryOk_setS h₂)))))
  · refine Res.keeps_run (keeps_checkAt h₁) (fun _ _ h₃ => ?_)
    refine Res.keeps_run (keeps_atomicAt h₃) (fun _ _ h₄ => ?_)
    extract_lets cnt₁ arr₁ gen₁ put₁ s₅
    have hs₅ : s₅.memoryOk = true := memoryOk_modMe (memoryOk_atomicWrite h₄)
    exact Out.keeps_ite (keeps_finish (memoryOk_endRegion (memoryOk_modMe (memoryOk_setS h₄))))
      (Out.keeps_ite (keeps_finish (memoryOk_endRegion (memoryOk_modMe (memoryOk_setS (memoryOk_atomicWrite h₄)))))
        (Out.keeps_next (memoryOk_stall (memoryOk_modMe hs₅))))

theorem keeps_execWfv {f} {s : State} (h : s.memoryOk = true) : (execWfv f s).Keeps :=
  keeps_guarded h (fun _ h₁ => Res.keeps_run (keeps_checkAt h₁) (fun _ _ h₂ => Res.keeps_run (keeps_loadBytes h₂)
    (fun _ _ h₃ => Out.keeps_ite (keeps_finish (memoryOk_later h₃)) (Out.keeps_next (memoryOk_stall h₃)))))

end Sys2Proof.Machine
end

section
/-! PROOF. What keeps every memory canonical: tiles and matrix work. -/

namespace Sys2Proof.Machine

open Sys2Proof State

theorem State.memoryOk_setTile {s : State} {n x2} (h : s.memoryOk = true) : (s.setTile n x2).memoryOk = true :=
  memoryOk_setMyCore h (Core.memoryOk_putTile (memoryOk_myCore h))

theorem State.memoryOk_settleTile {s : State} {n} (h : s.memoryOk = true) : (s.settleTile n).memoryOk = true :=
  memoryOk_modMe (memoryOk_foldl h (fun _ _ h₁ => memoryOk_foldl h₁ (fun _ _ h₂ => memoryOk_put h₂)))

theorem Core.memoryOk_grant {k : Core} {slot m} (hk : k.memoryOk = true) : (k.grant slot m).memoryOk = true := hk

theorem keeps_execTclaim {f} {s : State} (h : s.memoryOk = true) : (execTclaim f s).Keeps := by
  unfold execTclaim
  refine keeps_guarded h (fun _ h₁ => ?_)
  extract_lets k₁ slot₁ held₁ m₁ need₁ older₁ gone₁
  split
  · exact keeps_finish (memoryOk_setS (memoryOk_setMyCore h₁ (memoryOk_myCore h₁)))
  · exact Out.keeps_ite (keeps_finish (memoryOk_setS (memoryOk_setMyCore h₁ (Core.memoryOk_grant (memoryOk_myCore h₁)))))
      (Out.keeps_ite (keeps_finish (memoryOk_setS (memoryOk_setMyCore h₁ (memoryOk_myCore h₁))))
        (Out.keeps_ite (Out.keeps_next (memoryOk_stall h₁)) (Out.keeps_next
          (memoryOk_stall (memoryOk_setMyCore h₁ (memoryOk_myCore h₁))))))

theorem keeps_execTileClaimGrant {core} {s : State} (h : s.memoryOk = true) : (execTileClaimGrant core s).Keeps := by
  unfold execTileClaimGrant
  extract_lets k₁
  split
  · exact Out.keeps_next h
  · split
    · exact Out.keeps_next (memoryOk_setCore h (Core.memoryOk_grant (memoryOk_core h)))
    · exact Out.keeps_next h

theorem keeps_execTfree {f} {s : State} (h : s.memoryOk = true) : (execTfree f s).Keeps := by
  unfold execTfree
  refine keeps_guarded h (fun _ h₁ => ?_)
  extract_lets k₁ slot₁ m₁ s₂ k₂ k₃
  have hs₂ : s₂.memoryOk = true := memoryOk_foldl h₁ (fun _ _ h₂ => memoryOk_settleTile h₂)
  exact Out.keeps_ite (Out.keeps_next (memoryOk_stall h₁)) (keeps_finish
    (memoryOk_endRegion (memoryOk_setMyCore hs₂ (memoryOk_myCore hs₂))))

theorem keeps_execTcfg {f} {s : State} (h : s.memoryOk = true) : (execTcfg f s).Keeps :=
  keeps_guarded h (fun _ h₁ => Res.keeps_run (keeps_check h₁) (fun _ _ h₂ => Res.keeps_run (keeps_check h₂)
    (fun _ _ h₃ => Res.keeps_run (keeps_check h₃) (fun _ _ h₄ => keeps_finish (memoryOk_setTile (memoryOk_settleTile h₄))))))

theorem keeps_execTcfgGet {f} {s : State} (h : s.memoryOk = true) : (execTcfgGet f s).Keeps :=
  keeps_guarded h (fun _ h₁ => keeps_finish (memoryOk_setS h₁))

theorem keeps_execTzero {f} {s : State} (h : s.memoryOk = true) : (execTzero f s).Keeps :=
  keeps_guarded h (fun _ h₁ => Res.keeps_run (keeps_check h₁) (fun _ _ h₂ => keeps_finish
    (memoryOk_setTile (memoryOk_settleTile h₂))))

theorem State.keeps_readScale {s : State} {v c i} (h : s.memoryOk = true) : (s.readScale v c i).Keeps :=
  Res.keeps_bind (keeps_loadElem h) (fun _ _ h₁ => Res.keeps_ok h₁)

theorem keeps_execTld {f} {s : State} (h : s.memoryOk = true) : (execTld f s).Keeps := by
  unfold execTld
  refine keeps_guarded h (fun _ h₁ => ?_)
  extract_lets v₁ kd₁ role₁ kext₁ oext₁
  refine Res.keeps_run (keeps_check h₁) (fun _ _ h₂ => ?_)
  refine Res.keeps_run (keeps_check h₂) (fun _ _ h₃ => ?_)
  refine Res.keeps_run (keeps_check h₃) (fun _ _ h₄ => ?_)
  refine Res.keeps_run (keeps_viewOrder h₄) (fun _ _ h₅ => ?_)
  refine Res.keeps_run (Res.keeps_collect h₅ (fun _ _ h₆ => keeps_readElement h₆)) (fun _ _ h₇ => ?_)
  refine Res.keeps_run ?_ (fun _ _ h₉ => keeps_finish (memoryOk_later h₉))
  split
  · exact Res.keeps_ok h₇
  · exact Res.keeps_collect h₇ (fun _ _ h₈ => keeps_readScale h₈)

theorem keeps_execTst {f} {s : State} (h : s.memoryOk = true) : (execTst f s).Keeps := by
  unfold execTst
  refine keeps_guarded h (fun _ h₁ => ?_)
  extract_lets v₁ t₁ kd₁ place₁ blocks₁ elems₁ scales₁ bad₁
  refine Res.keeps_run (keeps_check h₁) (fun _ _ h₂ => ?_)
  refine Res.keeps_run (keeps_check h₂) (fun _ _ h₃ => ?_)
  refine Res.keeps_run (keeps_check h₃) (fun _ _ h₄ => ?_)
  refine Res.keeps_run (keeps_check h₄) (fun _ _ h₅ => ?_)
  refine Res.keeps_run (keeps_viewOrder h₅) (fun _ _ h₆ => ?_)
  extract_lets scaleOk₁
  exact Res.keeps_run (keeps_check h₆) (fun _ _ h₇ => Res.keeps_run (keeps_storeLocal h₇)
    (fun _ _ h₈ => keeps_finish (memoryOk_setMyCore h₈ (Core.memoryOk_setBuffer (memoryOk_myCore h₈)
      (Mem.wf_foldl (Core.wf_buffer (memoryOk_myCore h₈)) (fun _ _ h₉ => Mem.wf_mark _ h₉))))))

theorem keeps_execTtr {f} {s : State} (h : s.memoryOk = true) : (execTtr f s).Keeps :=
  keeps_guarded h (fun _ h₁ => Res.keeps_run (keeps_check h₁) (fun _ _ h₂ => Res.keeps_run (keeps_check h₂)
    (fun _ _ h₃ => keeps_finish (memoryOk_later h₃))))

theorem SliceJob.wf_perform {j : SliceJob} {m : Mem} (hm : m.wf = true) : (j.perform m).1.wf = true := by
  unfold SliceJob.perform
  extract_lets place₁ rs₁ bad₁ m₁
  exact Mem.wf_foldl (Mem.wf_store _ hm) (fun _ _ h₁ => Mem.wf_mark _ h₁)

theorem keeps_execMatrixSliceStart {core} {s : State} (h : s.memoryOk = true) : (execMatrixSliceStart core s).Keeps := by
  unfold execMatrixSliceStart
  extract_lets k₁ free₁
  split
  · exact Out.keeps_next h
  · exact Out.keeps_next (memoryOk_mapHarts (memoryOk_setCore h (Core.memoryOk_mk (Core.wf_w (memoryOk_core h))
      (Core.wf_a (memoryOk_core h)) (SliceJob.wf_perform (Core.wf_c (memoryOk_core h))) (Core.wf_sbuf (memoryOk_core h)))))

theorem keeps_productChecks {f double} {s : State} (h : s.memoryOk = true) : (productChecks f double s).Keeps :=
  Res.keeps_bind (keeps_check h) (fun _ _ h₁ => Res.keeps_bind (keeps_check h₁)
    (fun _ _ h₂ => Res.keeps_bind (keeps_check h₂) (fun _ _ h₃ => keeps_check h₃)))

theorem State.keeps_regionReady {s : State} {lo n write} (h : s.memoryOk = true) : (s.regionReady lo n write).Keeps :=
  Res.keeps_bind (keeps_viewOrder h) (fun _ _ h₁ => keeps_useBank h₁)

theorem State.memoryOk_enqueue {s : State} {la j} (h : s.memoryOk = true) : (s.enqueue la j).memoryOk = true :=
  memoryOk_modMe (memoryOk_setMyCore h (memoryOk_myCore h))

theorem keeps_product {f kind} {s : State} (h : s.memoryOk = true) : (product f kind s).Keeps :=
  keeps_guarded h (fun _ h₁ => Res.keeps_run (keeps_productChecks h₁) (fun _ _ h₂ => Res.keeps_run (keeps_regionReady h₂)
    (fun _ _ h₃ => keeps_finish (memoryOk_endRegion (memoryOk_enqueue h₃)))))

theorem keeps_execMma {f} {s : State} (h : s.memoryOk = true) : (execMma f s).Keeps := keeps_product h

theorem keeps_execDmma {f} {s : State} (h : s.memoryOk = true) : (execDmma f s).Keeps := keeps_product h

theorem keeps_execTscl {f} {s : State} (h : s.memoryOk = true) : (execTscl f s).Keeps :=
  keeps_guarded h (fun _ h₁ => Res.keeps_run (keeps_regionReady h₁) (fun _ _ h₂ => keeps_finish
    (memoryOk_endRegion (memoryOk_enqueue h₂))))

theorem keeps_execCread {f} {s : State} (h : s.memoryOk = true) : (execCread f s).Keeps :=
  keeps_guarded h (fun _ h₁ => Res.keeps_run (keeps_regionReady h₁) (fun _ _ h₂ => Res.keeps_run (keeps_loadLocal h₂)
    (fun _ _ h₃ => Res.keeps_run (keeps_putV h₃) (fun _ _ h₄ => keeps_finish h₄))))

theorem wf_gangSum {l m} {c : Mem} (hc : c.wf = true) : (gangSum l m c).1.wf = true := by
  unfold gangSum
  extract_lets rows₁ place₁ new₁ rs₁ bad₁ c₁
  exact Mem.wf_foldl (Mem.wf_store _ hc) (fun _ _ h₁ => Mem.wf_mark _ h₁)

theorem State.memoryOk_resolveGang {s : State} {i g} (h : s.memoryOk = true) : (s.resolveGang i g).memoryOk = true := by
  unfold State.resolveGang
  extract_lets l₁ agree₁ s₁
  have hs₁ : s₁.memoryOk = true := h
  exact memoryOk_ite h (memoryOk_foldl hs₁ (fun _ _ h₁ => memoryOk_setCore h₁
    (Core.memoryOk_mk (Core.wf_w (memoryOk_core h₁)) (Core.wf_a (memoryOk_core h₁)) (wf_gangSum (Core.wf_c (memoryOk_core h₁)))
      (Core.wf_sbuf (memoryOk_core h₁)))))

theorem State.keeps_mmgOver {s : State} {f status doneAt flags} (h : s.memoryOk = true) :
    (s.mmgOver f status doneAt flags).Keeps := keeps_finish (memoryOk_endRegion (memoryOk_laterPerformed (memoryOk_modMe h)))

theorem keeps_execMmg {f} {s : State} (h : s.memoryOk = true) : (execMmg f s).Keeps := by
  unfold execMmg
  refine keeps_guarded h (fun _ h₁ => ?_)
  extract_lets t₁ m₁
  split
  · exact Res.keeps_run (keeps_productChecks h₁) (fun _ _ h₂ => keeps_mmgOver h₂)
  · split
    · exact keeps_mmgOver h₁
    · split
      · exact Out.keeps_next (memoryOk_stall h₁)
      · exact Res.keeps_run (keeps_productChecks h₁) (fun _ _ h₃ => Out.keeps_ite (Out.keeps_next (memoryOk_raise h₃))
          (Out.keeps_ite (keeps_mmgOver h₃) (Res.keeps_run (keeps_regionReady h₃)
            (fun _ _ h₄ => Out.keeps_ite (Out.keeps_next (memoryOk_stall h₄))
              (Out.keeps_next (memoryOk_stall (memoryOk_ite (memoryOk_resolveGang (memoryOk_modMe h₄))
                (memoryOk_modMe h₄))))))))

theorem keeps_execGangwaitExpire {gang} {s : State} (h : s.memoryOk = true) : (execGangwaitExpire gang s).Keeps := by
  unfold execGangwaitExpire
  split
  · exact Out.keeps_next h
  · exact Out.keeps_ite (Out.keeps_next h) (Out.keeps_next h)

end Sys2Proof.Machine
end

section
/-! PROOF. What keeps every memory canonical: vector instructions. -/

namespace Sys2Proof.Machine

open Sys2Proof State

theorem keeps_lanewise {f w srcs long g} {s : State} (h : s.memoryOk = true) : (lanewise f w srcs long g s).Keeps :=
  keeps_guarded h (fun _ h₁ => Res.keeps_run (keeps_sources h₁) (fun _ _ h₂ => Res.keeps_run (keeps_putV h₂)
    (fun _ _ h₃ => keeps_finish h₃)))

theorem keeps_execVadd {f} {s : State} (h : s.memoryOk = true) : (execVadd f s).Keeps := keeps_lanewise h

theorem keeps_execVsub {f} {s : State} (h : s.memoryOk = true) : (execVsub f s).Keeps := keeps_lanewise h

theorem keeps_execVmul {f} {s : State} (h : s.memoryOk = true) : (execVmul f s).Keeps := keeps_lanewise h

theorem keeps_execVfma {f} {s : State} (h : s.memoryOk = true) : (execVfma f s).Keeps := keeps_lanewise h

theorem keeps_execVfms {f} {s : State} (h : s.memoryOk = true) : (execVfms f s).Keeps := keeps_lanewise h

theorem keeps_execVmin {f} {s : State} (h : s.memoryOk = true) : (execVmin f s).Keeps := keeps_lanewise h

theorem keeps_execVmax {f} {s : State} (h : s.memoryOk = true) : (execVmax f s).Keeps := keeps_lanewise h

theorem keeps_execVabs {f} {s : State} (h : s.memoryOk = true) : (execVabs f s).Keeps := keeps_lanewise h

theorem keeps_execVneg {f} {s : State} (h : s.memoryOk = true) : (execVneg f s).Keeps := keeps_lanewise h

theorem keeps_execVand {f} {s : State} (h : s.memoryOk = true) : (execVand f s).Keeps := keeps_lanewise h

theorem keeps_execVor {f} {s : State} (h : s.memoryOk = true) : (execVor f s).Keeps := keeps_lanewise h

theorem keeps_execVxor {f} {s : State} (h : s.memoryOk = true) : (execVxor f s).Keeps := keeps_lanewise h

theorem keeps_execVshl {f} {s : State} (h : s.memoryOk = true) : (execVshl f s).Keeps := keeps_lanewise h

theorem keeps_execVshr {f} {s : State} (h : s.memoryOk = true) : (execVshr f s).Keeps := keeps_lanewise h

theorem keeps_execVsra {f} {s : State} (h : s.memoryOk = true) : (execVsra f s).Keeps := keeps_lanewise h

theorem keeps_execVcmp {f} {s : State} (h : s.memoryOk = true) : (execVcmp f s).Keeps :=
  keeps_guarded h (fun _ h₁ => Res.keeps_run (keeps_sources h₁) (fun _ _ h₂ => keeps_finish
    (memoryOk_addFlags (memoryOk_setK h₂))))

theorem keeps_execVsel {f} {s : State} (h : s.memoryOk = true) : (execVsel f s).Keeps :=
  keeps_guarded h (fun _ h₁ => Res.keeps_run (keeps_sources h₁) (fun _ _ h₂ => Res.keeps_run (keeps_putV h₂)
    (fun _ _ h₃ => keeps_finish h₃)))

theorem keeps_execVmov {f} {s : State} (h : s.memoryOk = true) : (execVmov f s).Keeps := keeps_lanewise h

theorem keeps_execVclass {f} {s : State} (h : s.memoryOk = true) : (execVclass f s).Keeps := keeps_lanewise h

theorem keeps_execVperm {f} {s : State} (h : s.memoryOk = true) : (execVperm f s).Keeps :=
  keeps_guarded h (fun _ h₁ => Res.keeps_run (keeps_sources h₁) (fun _ _ h₂ => Res.keeps_run (keeps_putV h₂)
    (fun _ _ h₃ => keeps_finish h₃)))

theorem keeps_execVperm2 {f} {s : State} (h : s.memoryOk = true) : (execVperm2 f s).Keeps :=
  keeps_guarded h (fun _ h₁ => Res.keeps_run (keeps_sources h₁) (fun _ _ h₂ => Res.keeps_run (keeps_putV h₂)
    (fun _ _ h₃ => keeps_finish h₃)))

theorem keeps_execVbcast {f} {s : State} (h : s.memoryOk = true) : (execVbcast f s).Keeps :=
  keeps_guarded h (fun _ h₁ => Res.keeps_run (keeps_putV h₁) (fun _ _ h₂ => keeps_finish h₂))

theorem keeps_execVext {f} {s : State} (h : s.memoryOk = true) : (execVext f s).Keeps :=
  keeps_guarded h (fun _ h₁ => Res.keeps_run (keeps_sources h₁) (fun _ _ h₂ => keeps_finish (memoryOk_setS h₂)))

theorem keeps_execVins {f} {s : State} (h : s.memoryOk = true) : (execVins f s).Keeps :=
  keeps_guarded h (fun _ h₁ => Res.keeps_run (keeps_putV h₁) (fun _ _ h₂ => keeps_finish h₂))

theorem keeps_execKop {f} {s : State} (h : s.memoryOk = true) : (execKop f s).Keeps := by
  unfold execKop
  refine keeps_guarded h (fun _ h₁ => ?_)
  extract_lets a₁ b₁
  refine keeps_finish ?_
  split
  · exact memoryOk_setK h₁
  · exact memoryOk_setK h₁
  · exact memoryOk_setK h₁
  · exact memoryOk_setK h₁
  · exact memoryOk_setK h₁
  · exact memoryOk_setK h₁
  · exact memoryOk_setS h₁
  · exact memoryOk_setS h₁
  · exact memoryOk_setS h₁

theorem keeps_execVcvt {f} {s : State} (h : s.memoryOk = true) : (execVcvt f s).Keeps :=
  keeps_guarded h (fun _ h₁ => Res.keeps_run (keeps_sources h₁) (fun _ _ h₂ => Res.keeps_run (keeps_putV h₂)
    (fun _ _ h₃ => keeps_finish h₃)))

theorem keeps_execVred {f} {s : State} (h : s.memoryOk = true) : (execVred f s).Keeps :=
  keeps_guarded h (fun _ h₁ => Res.keeps_run (keeps_sources h₁) (fun _ _ h₂ => Res.keeps_run (keeps_putV h₂)
    (fun _ _ h₃ => keeps_finish h₃)))

theorem keeps_execVscan {f} {s : State} (h : s.memoryOk = true) : (execVscan f s).Keeps :=
  keeps_guarded h (fun _ h₁ => Res.keeps_run (keeps_sources h₁) (fun _ _ h₂ => Res.keeps_run (keeps_putV h₂)
    (fun _ _ h₃ => keeps_finish h₃)))

theorem keeps_execVdot {f} {s : State} (h : s.memoryOk = true) : (execVdot f s).Keeps := keeps_lanewise h

theorem keeps_execVrcp {f} {s : State} (h : s.memoryOk = true) : (execVrcp f s).Keeps := keeps_lanewise h

theorem keeps_execVrsqrt {f} {s : State} (h : s.memoryOk = true) : (execVrsqrt f s).Keeps := keeps_lanewise h

theorem keeps_execVexp2 {f} {s : State} (h : s.memoryOk = true) : (execVexp2 f s).Keeps := keeps_lanewise h

theorem keeps_execVlog2 {f} {s : State} (h : s.memoryOk = true) : (execVlog2 f s).Keeps := keeps_lanewise h

theorem keeps_execVsqrt {f} {s : State} (h : s.memoryOk = true) : (execVsqrt f s).Keeps := keeps_lanewise h

theorem keeps_execVdiv {f} {s : State} (h : s.memoryOk = true) : (execVdiv f s).Keeps := keeps_lanewise h

end Sys2Proof.Machine
end

section
/-! PROOF. What keeps every memory canonical: commands of engines. -/

namespace Sys2Proof.Machine

open Sys2Proof State

theorem keeps_commandChecks {c} {s : State} (h : s.memoryOk = true) : (commandChecks c s).Keeps :=
  Res.keeps_bind (keeps_check h) (fun _ _ h₁ => Res.keeps_bind (Res.keeps_each h₁
    (fun _ _ h₂ => Res.keeps_ite (Res.keeps_ok h₂) (keeps_checkView h₂)))
      (fun _ _ h₃ => Res.keeps_bind (keeps_check h₃) (fun _ _ h₄ => Res.keeps_bind (keeps_check h₄)
        (fun _ _ h₅ => keeps_checkAt h₅))))

theorem State.memoryOk_enterQueue {s : State} {c} (h : s.memoryOk = true) : (s.enterQueue c).memoryOk = true :=
  memoryOk_modMe (memoryOk_modLaunch h)

theorem keeps_issueCommand {f op src aux} {s : State} (h : s.memoryOk = true) : (issueCommand f op src aux s).Keeps :=
  Out.keeps_ite (keeps_finish h) (Out.keeps_ite (Out.keeps_next (memoryOk_stall h))
    (Out.keeps_ite (keeps_finish (memoryOk_enterQueue h)) (Res.keeps_run (keeps_commandChecks h)
      (fun _ _ h₁ => keeps_finish (memoryOk_endRegion (memoryOk_enterQueue h₁))))))

theorem keeps_execCpy {f} {s : State} (h : s.memoryOk = true) : (execCpy f s).Keeps := keeps_issueCommand h

theorem keeps_execCpys {f} {s : State} (h : s.memoryOk = true) : (execCpys f s).Keeps := keeps_issueCommand h

theorem keeps_execColl {f} {s : State} (h : s.memoryOk = true) : (execColl f s).Keeps := keeps_issueCommand h

theorem keeps_execCfill {f} {s : State} (h : s.memoryOk = true) : (execCfill f s).Keeps := keeps_issueCommand h

theorem State.memoryOk_setCommands {s : State} {site l} (h : s.memoryOk = true) : (s.setCommands site l).memoryOk = true := by
  unfold State.setCommands
  split
  · exact memoryOk_modHart h
  · exact memoryOk_setDie h

theorem State.memoryOk_modCommand {s : State} {site id f} (h : s.memoryOk = true) : (s.modCommand site id f).memoryOk = true :=
  memoryOk_setCommands h

theorem State.memoryOk_mapQueues {s : State} {f} (h : s.memoryOk = true) : (s.mapQueues f).memoryOk = true := by
  unfold State.mapQueues
  extract_lets s₁
  have hs₁ : s₁.memoryOk = true := memoryOk_mapHarts h
  exact memoryOk_mk (wf_mem hs₁) (all_clusters hs₁) (all_cores hs₁) (all_partitions hs₁) (all_clearings hs₁)
    (savesOk_map (savesOk_saves hs₁) (fun _ h₁ => h₁))

theorem State.memoryOk_leaveQueue {s : State} {site c} (h : s.memoryOk = true) : (s.leaveQueue site c).memoryOk = true :=
  memoryOk_commandOver (memoryOk_setCommands h)

theorem State.memoryOk_completeCommand {s : State} {site c status} (h : s.memoryOk = true) :
    (s.completeCommand site c status).memoryOk = true := by
  unfold State.completeCommand
  split
  · extract_lets s₁
    have hs₁ : s₁.memoryOk = true := by
      unfold s₁
      split
      · exact memoryOk_modHart h
      · exact h
    exact memoryOk_leaveQueue hs₁
  · split
    · rename_i _ s₂ e₁
      have h₁ : s₂.memoryOk = true := memoryOk_of_fst_eq e₁ (memoryOk_deliver h)
      exact memoryOk_leaveQueue h₁
    · rename_i _ s₃ e₂
      have h₂ : s₃.memoryOk = true := memoryOk_of_fst_eq e₂ (memoryOk_deliver h)
      exact memoryOk_modCommand h₂
    · rename_i _ s₄ e₃
      have h₃ : s₄.memoryOk = true := memoryOk_of_fst_eq e₃ (memoryOk_deliver h)
      exact memoryOk_modCommand h₃
    · rename_i _ s₅ _ _ _ _ e₄
      have h₄ : s₅.memoryOk = true := memoryOk_of_fst_eq e₄ (memoryOk_deliver h)
      exact memoryOk_leaveQueue (memoryOk_drop h₄)

theorem State.memoryOk_commandMiss {s : State} {site c kind va} (h : s.memoryOk = true) :
    (s.commandMiss site c kind va).memoryOk = true := by
  unfold State.commandMiss
  extract_lets k₁ page₁
  split
  · exact memoryOk_joinMiss h
  · exact memoryOk_admitMiss h

theorem State.keeps_engineAt {s : State} {site c va need kind} (h : s.memoryOk = true) :
    (s.engineAt site c va need kind).Keeps := by
  unfold State.engineAt
  split
  · exact Eng.keeps_fail h
  · split
    · exact Eng.keeps_wait (memoryOk_commandMiss h)
    · rename_i _ _ s₁ e₁
      have h₁ : s₁.memoryOk = true := memoryOk_of_lookup e₁ h
      exact Eng.keeps_ite (Eng.keeps_fail h₁) (Eng.keeps_ite (Eng.keeps_fail h₁)
        (Eng.keeps_ite (Eng.keeps_fail h₁) (Eng.keeps_ok h₁)))

theorem State.keeps_engineBank {s : State} {b} (h : s.memoryOk = true) : (s.engineBank b).Keeps := by
  unfold State.engineBank
  split
  · exact Eng.keeps_ok (memoryOk_touch h)
  · exact Eng.keeps_ok (memoryOk_touch h)
  · exact Eng.keeps_wait (memoryOk_wakeBank h)

theorem State.keeps_engineDie {s : State} {pa n} (h : s.memoryOk = true) : (s.engineDie pa n).Keeps :=
  Eng.keeps_ite (Eng.keeps_ok (memoryOk_touchDie h)) (Eng.keeps_wait (memoryOk_wakeDie h))

theorem State.memoryOk_underKey {s : State} {key pa n} (h : s.memoryOk = true) : (s.underKey key pa n).memoryOk = true := by
  unfold State.underKey
  split
  · exact memoryOk_ite h (memoryOk_rekey h)
  · exact h

theorem State.wf_spaceMem {s : State} {c space} (h : s.memoryOk = true) : (s.spaceMem c space).wf = true :=
  Mem.wf_ite (wf_mem h) (Mem.wf_ite (wf_cluster h) (Core.wf_buffer (memoryOk_core h)))

theorem State.memoryOk_setSpaceMem {s : State} {c space} {m : Mem} (h : s.memoryOk = true) (hm : m.wf = true) :
    (s.setSpaceMem c space m).memoryOk = true := memoryOk_ite (memoryOk_of_mem h hm rfl)
      (memoryOk_ite (memoryOk_setCluster h hm) (memoryOk_setCore h (Core.memoryOk_setBuffer (memoryOk_core h) hm)))

theorem State.keeps_enginePlace {s : State} {site c v a n write} (h : s.memoryOk = true) :
    (s.enginePlace site c v a n write).Keeps := by
  unfold State.enginePlace
  split
  · exact Eng.keeps_bind (keeps_engineAt h) (fun _ _ h₁ => Eng.keeps_ite (Eng.keeps_fail h₁)
      (Eng.keeps_ite (Eng.keeps_ite (Eng.keeps_ok h₁) (Eng.keeps_fail h₁))
        (Eng.keeps_ite (Eng.keeps_wait h₁) (Eng.keeps_bind (keeps_engineDie h₁)
          (fun _ _ h₂ => Eng.keeps_ok (memoryOk_ite h₂ (memoryOk_meetErrors h₂)))))))
  · exact Eng.keeps_ite (Eng.keeps_fail h) (Eng.keeps_bind (keeps_engineBank h) (fun _ _ h₃ => Eng.keeps_ok h₃))

theorem State.keeps_engineRead {s : State} {site c v l} (h : s.memoryOk = true) : (s.engineRead site c v l).Keeps :=
  Eng.keeps_bind (keeps_enginePlace h) (fun _ _ h₁ => Eng.keeps_ok h₁)

theorem State.memoryOk_sendFor {s : State} {site c l} (h : s.memoryOk = true) : (s.sendFor site c l).memoryOk = true :=
  memoryOk_ite h (memoryOk_modCommand h)

theorem State.memoryOk_engineStore {s : State} {site c space bytes half bad} (h : s.memoryOk = true) :
    (s.engineStore site c space bytes half bad).memoryOk = true := memoryOk_ite
      (memoryOk_of_mem (memoryOk_meetStore (memoryOk_sendFor h)) (Mem.wf_foldl
        (Mem.wf_storeBoth _ _ (wf_mem (memoryOk_meetStore (memoryOk_sendFor h)))) (fun _ _ h₁ => Mem.wf_mark _ h₁)) rfl)
          (memoryOk_setSpaceMem h (Mem.wf_foldl (Mem.wf_storeBoth _ _ (wf_spaceMem h)) (fun _ _ h₂ => Mem.wf_mark _ h₂)))

theorem State.keeps_engineWrite {s : State} {site c v l} (h : s.memoryOk = true) : (s.engineWrite site c v l).Keeps :=
  Eng.keeps_bind (Eng.keeps_collect h (fun _ _ h₁ => keeps_enginePlace h₁))
    (fun _ _ h₂ => Eng.keeps_ok (memoryOk_engineStore (memoryOk_foldl h₂ (fun _ _ h₃ => memoryOk_underKey h₃))))

theorem State.keeps_takeScale {s : State} {site c d e b} (h : s.memoryOk = true) : (s.takeScale site c d e b).Keeps :=
  Eng.keeps_bind (keeps_enginePlace h) (fun _ _ h₁ => Eng.keeps_bind (keeps_enginePlace h₁) (fun _ _ h₂ => Eng.keeps_ok h₂))

theorem State.memoryOk_writeScale {site c} {s : State} {w} (h : s.memoryOk = true) :
    (State.writeScale site c s w).memoryOk = true := memoryOk_engineStore (memoryOk_underKey h)

theorem State.memoryOk_keepBefore {s : State} {site c} (h : s.memoryOk = true) : (s.keepBefore site c).memoryOk = true :=
  memoryOk_ite (memoryOk_modCommand h) h

theorem State.keeps_copyRead {s : State} {site c l} (h : s.memoryOk = true) : (s.copyRead site c l).Keeps := by
  unfold State.copyRead
  refine Eng.keeps_bind (keeps_engineRead h) (fun _ _ h₁ => ?_)
  split
  · exact Eng.keeps_ok h₁
  · extract_lets k₁
    split <;> exact Eng.keeps_ok h₁

theorem State.keeps_takeScales {s : State} {site c ls} (h : s.memoryOk = true) : (s.takeScales site c ls).Keeps := by
  unfold State.takeScales
  split
  · exact Eng.keeps_ok h
  · exact Eng.keeps_collect h (fun _ _ h₁ => keeps_takeScale h₁)
  · exact Eng.keeps_ok h

theorem State.keeps_moveGranule {s : State} {site c} (h : s.memoryOk = true) : (s.moveGranule site c).Keeps := by
  unfold State.moveGranule
  extract_lets ls₁
  refine Eng.keeps_bind ?_ (fun _ _ h₃ => Eng.keeps_bind (keeps_takeScales h₃)
    (fun _ _ h₄ => Eng.keeps_bind (keeps_engineWrite h₄) (fun _ _ h₅ => Eng.keeps_ok
      (memoryOk_foldl h₅ (fun _ _ h₆ => memoryOk_writeScale h₆)))))
  split
  · exact Eng.keeps_ok h
  · exact Eng.keeps_bind (Eng.keeps_collect h (fun _ _ h₁ => keeps_copyRead h₁))
      (fun _ _ h₂ => Eng.keeps_ok (memoryOk_keepBefore h₂))

theorem State.keeps_signalFirst {s : State} {site c} (h : s.memoryOk = true) : (s.signalFirst site c).Keeps := by
  unfold State.signalFirst
  split
  · split
    · rename_i _ _ s₁ e₁
      have h₁ : s₁.memoryOk = true := Eng.memoryOk_of_ok e₁ (keeps_engineAt h)
      exact Eng.keeps_ite (Eng.keeps_fail h₁) (Eng.keeps_ok h₁)
    · rename_i _ s₂ e₂
      have h₂ : s₂.memoryOk = true := Eng.memoryOk_of_wait e₂ (keeps_engineAt h)
      exact Eng.keeps_wait h₂
    · exact Eng.keeps_ok h
  · exact Eng.keeps_ok h

theorem State.keeps_signal {s : State} {site c set} (h : s.memoryOk = true) : (s.signal site c set).Keeps := by
  unfold State.signal
  refine Eng.keeps_bind (keeps_engineAt h) (fun _ _ h₁ => ?_)
  split
  · exact Eng.keeps_ite (Eng.keeps_fail h₁) (Eng.keeps_ok (memoryOk_modCommand (memoryOk_sendFor h₁)))
  · exact Eng.keeps_bind (keeps_engineDie h₁) (fun _ _ h₂ => Eng.keeps_ite (Eng.keeps_wait h₂)
      (Eng.keeps_ite (Eng.keeps_ok (memoryOk_perform h₂)) (Eng.keeps_ok (memoryOk_addSignal (memoryOk_underKey h₂)))))

theorem State.keeps_engineNat {s : State} {site c va n} (h : s.memoryOk = true) : (s.engineNat site c va n).Keeps :=
  Eng.keeps_bind (keeps_engineAt h) (fun _ _ h₁ => Eng.keeps_bind (keeps_engineDie h₁)
    (fun _ _ h₂ => Eng.keeps_ok (memoryOk_meetErrors h₂)))

theorem State.keeps_readRecord {s : State} {site c} (h : s.memoryOk = true) : (s.readRecord site c).Keeps :=
  Eng.keeps_collect h (fun _ _ h₁ => keeps_engineNat h₁)

theorem State.memoryOk_failCommand {s : State} {id status} (h : s.memoryOk = true) :
    (s.failCommand id status).memoryOk = true := by
  unfold State.failCommand
  extract_lets mark₁
  split
  · exact memoryOk_ite (memoryOk_mapQueues h) (memoryOk_completeCommand h)
  · exact memoryOk_mapQueues h

theorem State.memoryOk_failHere {s : State} {site id status} (h : s.memoryOk = true) :
    (s.failHere site id status).memoryOk = true := by
  unfold State.failHere
  split
  · exact memoryOk_ite (memoryOk_completeCommand h) (memoryOk_modCommand h)
  · exact h

theorem State.memoryOk_commandAnswered {s : State} {id answer} (h : s.memoryOk = true) :
    (s.commandAnswered id answer).memoryOk = true := by
  unfold State.commandAnswered
  split
  · exact h
  · exact memoryOk_ite (memoryOk_mapQueues h) (memoryOk_commandOver (memoryOk_mapQueues (memoryOk_ite h (memoryOk_drop h))))

theorem State.memoryOk_flitAnswered {s : State} {id status} (h : s.memoryOk = true) :
    (s.flitAnswered id status).memoryOk = true := memoryOk_mapQueues h

theorem State.memoryOk_failUse {s : State} {u} (h : s.memoryOk = true) : (s.failUse u).memoryOk = true :=
  memoryOk_foldl h (fun _ _ h₁ => memoryOk_failCommand h₁)

theorem State.keeps_failJoin {s : State} {c g} (h : s.memoryOk = true) : (s.failJoin c g).Keeps := by
  unfold State.failJoin
  refine Eng.keeps_fail ?_
  split
  · exact memoryOk_failUse h
  · exact h

theorem State.keeps_joinUse {s : State} {site c op g} (h : s.memoryOk = true) : (s.joinUse site c op g).Keeps := by
  unfold State.joinUse
  extract_lets p₁ here₁
  split
  · exact keeps_failJoin h
  · refine Eng.keeps_bind (Eng.keeps_collect h (fun _ _ h₁ => keeps_engineNat h₁)) (fun _ _ h₂ => ?_)
    refine Eng.keeps_bind (Eng.keeps_collect h₂ (fun _ _ h₃ => keeps_engineRead h₃)) (fun _ _ h₄ => ?_)
    extract_lets me₁ u₁ live₁
    split
    · exact Eng.keeps_ite (keeps_failJoin h₄) (Eng.keeps_ok h₄)
    · exact Eng.keeps_ite (Eng.keeps_ok h₄) (keeps_failJoin h₄)

theorem State.keeps_collGranule {s : State} {site c op} (h : s.memoryOk = true) : (s.collGranule site c op).Keeps := by
  unfold State.collGranule
  split
  · exact Eng.keeps_bind (keeps_joinUse h) (fun _ _ h₁ => Eng.keeps_ok h₁)
  · exact Eng.keeps_ite (Eng.keeps_wait h) (Eng.keeps_bind (keeps_engineWrite h) (fun _ _ h₂ => Eng.keeps_ok h₂))

theorem State.memoryOk_takeRecord {s : State} {site c} (h : s.memoryOk = true) : (s.takeRecord site c).memoryOk = true := by
  unfold State.takeRecord
  split
  · rename_i _ _ s₁ e₁
    have h₁ : s₁.memoryOk = true := Eng.memoryOk_of_ok e₁ (keeps_readRecord h)
    exact memoryOk_modCommand h₁
  · rename_i _ s₂ e₂
    exact Eng.memoryOk_of_wait e₂ (keeps_readRecord h)
  · rename_i _ _ s₃ e₃
    have h₃ : s₃.memoryOk = true := Eng.memoryOk_of_fail e₃ (keeps_readRecord h)
    exact memoryOk_completeCommand h₃

theorem State.memoryOk_kick {s : State} {site c} (h : s.memoryOk = true) : (s.kick site c).memoryOk = true := by
  unfold State.kick
  extract_lets joined₁ c₁
  split
  · exact memoryOk_takeRecord (memoryOk_modCommand h)
  · exact memoryOk_modCommand h

theorem State.memoryOk_of_kickRelease {s t : State} {id c} (e : s.kickRelease id c = some t) (h : s.memoryOk = true) :
    t.memoryOk = true := by
  unfold kickRelease at e
  extract_lets u k before at e
  have hu : u.memoryOk = true := h
  split at e
  · exact nomatch e
  · split at e
    · rename_i _ r er
      have hr : r.memoryOk = true := Res.memoryOk_of_ok er
        (Res.keeps_bind (Res.keeps_each hu fun _ _ h => keeps_flushStream h) fun _ _ h => keeps_release h)
      cases e
      exact hr
    · exact nomatch e

theorem keeps_execCommandKick {site} {s : State} (h : s.memoryOk = true) : (execCommandKick site s).Keeps := by
  unfold execCommandKick
  split
  · exact Out.keeps_next h
  · split
    · exact Out.keeps_next h
    · split
      · exact Out.keeps_next (memoryOk_kick h)
      · split
        · rename_i _ t e
          exact Out.keeps_next (memoryOk_kick (memoryOk_of_kickRelease e h))
        · exact Out.keeps_next (memoryOk_wakeFor h)

theorem State.memoryOk_granuleDone {s : State} {site c} (h : s.memoryOk = true) : (s.granuleDone site c).memoryOk = true :=
  memoryOk_modCommand h

theorem keeps_execGranuleComplete {site i} {s : State} (h : s.memoryOk = true) : (execGranuleComplete site i s).Keeps := by
  unfold execGranuleComplete
  split
  · exact Out.keeps_next h
  · split
    · exact Out.keeps_next h
    · split
      · exact Out.keeps_next (memoryOk_takeRecord h)
      · split
        · exact Out.keeps_next h
        · rename_i c _ _ _ _
          extract_lets act more
          have hact : act.Keeps := by
            unfold act
            split
            · split
              · exact keeps_collGranule h
              · exact Eng.keeps_bind (keeps_signalFirst h) fun _ _ h => Eng.keeps_bind (keeps_moveGranule h) fun _ _ h => h
            · refine Eng.keeps_ite (Eng.keeps_wait h) ?_
              split
              · exact keeps_signal h
              · exact Eng.keeps_ok h
          clear_value act
          split
          · exact Out.keeps_next (Eng.memoryOk_of_wait rfl hact)
          · exact Out.keeps_next (memoryOk_failHere (Eng.memoryOk_of_fail rfl hact))
          · exact Out.keeps_next (Eng.memoryOk_of_ok rfl hact)
          · have ht := memoryOk_granuleDone (site := site) (c := c) (Eng.memoryOk_of_ok rfl hact)
            refine Out.keeps_ite ?_ (Out.keeps_next (memoryOk_completeCommand (Eng.memoryOk_of_ok rfl hact)))
            extract_lets s
            split
            · exact Out.keeps_next (memoryOk_ite ht (memoryOk_completeCommand ht))
            · exact Out.keeps_next ht

theorem keeps_execCompletionMessageRetry {site i} {s : State} (h : s.memoryOk = true) :
    (execCompletionMessageRetry site i s).Keeps := by
  unfold execCompletionMessageRetry
  split
  · exact Out.keeps_next h
  · split
    · exact Out.keeps_next h
    · exact Out.keeps_next (memoryOk_ite h (memoryOk_completeCommand h))

theorem State.memoryOk_discardCommand {s : State} {id c} (h : s.memoryOk = true) : (s.discardCommand id c).memoryOk = true :=
  memoryOk_leaveQueue h

theorem State.memoryOk_decideHeld {s : State} {id c} (h : s.memoryOk = true) : (s.decideHeld id c).memoryOk = true := by
  unfold State.decideHeld
  split
  · split
    · exact memoryOk_discardCommand h
    · extract_lets back₁ b₁
      have hb₁ : b₁.memoryOk = true := memoryOk_modHart h
      split
      · rename_i _ s₁ e₁
        have h₁ : s₁.memoryOk = true := Res.memoryOk_of_stop e₁ (keeps_commandChecks (memoryOk_of_eq hb₁ rfl))
        exact memoryOk_of_eq h₁ rfl
      · exact memoryOk_modHart (memoryOk_modCommand h)
  · exact h

theorem State.memoryOk_resolveGuards {s : State} {id cycle} (h : s.memoryOk = true) :
    (s.resolveGuards id cycle).memoryOk = true := memoryOk_ite h (memoryOk_foldl (memoryOk_setHart h)
      (fun _ _ h₁ => memoryOk_decideHeld h₁))

theorem keeps_execGuardResolve {x} {s : State} (h : s.memoryOk = true) : (execGuardResolve x s).Keeps :=
  Out.keeps_next (memoryOk_resolveGuards h)

theorem keeps_failedTag {x0} {s : State} (h : s.memoryOk = true) : (failedTag x0 s).Keeps := by
  unfold failedTag
  split
  · exact Res.keeps_stop (memoryOk_trap h)
  · exact Res.keeps_ok h

theorem keeps_execTwall {f} {s : State} (h : s.memoryOk = true) : (execTwall f s).Keeps :=
  keeps_guarded h (fun _ h₁ => Out.keeps_ite (Out.keeps_next (memoryOk_stall h₁))
    (Res.keeps_run (keeps_failedTag h₁) (fun _ _ h₂ => keeps_finish h₂)))

theorem keeps_execTwany {f} {s : State} (h : s.memoryOk = true) : (execTwany f s).Keeps :=
  keeps_guarded h (fun _ h₁ => Out.keeps_ite (keeps_finish (memoryOk_setS h₁))
    (Out.keeps_ite (Out.keeps_next (memoryOk_stall h₁)) (Res.keeps_run (keeps_failedTag h₁)
      (fun _ _ h₂ => keeps_finish (memoryOk_setS h₂)))))

theorem keeps_execTfirst {f} {s : State} (h : s.memoryOk = true) : (execTfirst f s).Keeps := by
  unfold execTfirst
  refine keeps_guarded h (fun _ h₁ => ?_)
  split <;> exact keeps_finish (memoryOk_setS h₁)

theorem keeps_execTclr {f} {s : State} (h : s.memoryOk = true) : (execTclr f s).Keeps :=
  keeps_guarded h (fun _ h₁ => keeps_finish (memoryOk_modMe h₁))

end Sys2Proof.Machine
end

section
/-! PROOF. What keeps every memory canonical: tasks, work queues and launches. -/

namespace Sys2Proof.Machine

open Sys2Proof State

theorem State.keeps_checkCounter {s : State} {c always} (h : s.memoryOk = true) : (s.checkCounter c always).Keeps :=
  Res.keeps_ite (Res.keeps_ok h) (Res.keeps_bind (keeps_checkAt h) (fun _ _ h₁ => Res.keeps_bind (keeps_translate h₁)
    (fun _ _ h₂ => Res.keeps_ok h₂)))

theorem State.keeps_addCounter {s : State} {c n always} (h : s.memoryOk = true) : (s.addCounter c n always).Keeps :=
  Res.keeps_ite (Res.keeps_ok h) (Res.keeps_bind (keeps_atomicAt h) (fun _ _ h₁ => Res.keeps_ok (memoryOk_atomicWrite h₁)))

theorem State.keeps_inlineRun {s : State} {f e range} (h : s.memoryOk = true) : (s.inlineRun f e range).Keeps :=
  Out.keeps_ite (Out.keeps_next (memoryOk_raise h)) (Out.keeps_next (memoryOk_modMe
    (memoryOk_endRegion (memoryOk_ite (memoryOk_setS (memoryOk_setS (memoryOk_modMe h))) (memoryOk_setS (memoryOk_modMe h))))))

theorem State.keeps_created {s : State} {f status} (h : s.memoryOk = true) : (s.created f status).Keeps :=
  keeps_finish (memoryOk_endRegion (memoryOk_setS h))

theorem State.keeps_forkOne {f counted} {s : State} (h : s.memoryOk = true) : (State.forkOne f counted s).Keeps := by
  unfold State.forkOne
  refine keeps_guarded h (fun _ h₁ => ?_)
  extract_lets c₁
  exact Res.keeps_run (keeps_checkCounter h₁) (fun _ _ h₂ => Out.keeps_ite (keeps_inlineRun h₂)
    (Res.keeps_run (keeps_publish h₂) (fun _ _ h₃ => Res.keeps_run (Res.keeps_ite (keeps_addCounter h₃) (Res.keeps_ok h₃))
      (fun _ _ h₄ => keeps_created (memoryOk_push (memoryOk_birth h₄))))))

theorem keeps_execFork {f} {s : State} (h : s.memoryOk = true) : (execFork f s).Keeps := keeps_forkOne h

theorem keeps_execForkc {f} {s : State} (h : s.memoryOk = true) : (execForkc f s).Keeps := keeps_forkOne h

theorem keeps_execSpawn {f} {s : State} (h : s.memoryOk = true) : (execSpawn f s).Keeps := by
  unfold execSpawn
  refine keeps_guarded h (fun _ h₁ => ?_)
  extract_lets c₁
  refine Res.keeps_run (keeps_checkCounter h₁) (fun _ _ h₂ => ?_)
  extract_lets n₁ e₁
  exact Out.keeps_ite (keeps_created h₂) (Out.keeps_ite (keeps_created h₂)
    (Out.keeps_ite (keeps_inlineRun h₂) (Res.keeps_run (keeps_publish h₂)
      (fun _ _ h₃ => Res.keeps_run (keeps_addCounter h₃) (fun _ _ h₄ => keeps_created (memoryOk_push (memoryOk_birth h₄)))))))

theorem keeps_execForkg {f} {s : State} (h : s.memoryOk = true) : (execForkg f s).Keeps := by
  unfold execForkg
  refine keeps_guarded h (fun _ h₁ => ?_)
  extract_lets c₁
  refine Res.keeps_run (keeps_checkCounter h₁) (fun _ _ h₂ => ?_)
  extract_lets k₁
  exact Out.keeps_ite (keeps_created h₂) (Out.keeps_ite (keeps_created h₂)
    (Res.keeps_run (keeps_publish h₂) (fun _ _ h₃ => Res.keeps_run (keeps_addCounter h₃)
      (fun _ _ h₄ => keeps_created (memoryOk_birth (memoryOk_setCluster h₄ (wf_cluster h₄)))))))

theorem keeps_execJoin {f} {s : State} (h : s.memoryOk = true) : (execJoin f s).Keeps := by
  unfold execJoin
  refine keeps_guarded h (fun _ h₁ => ?_)
  extract_lets c₁
  refine Res.keeps_run (keeps_checkCounter h₁) (fun _ _ h₂ => ?_)
  refine Res.keeps_run (keeps_translate h₂) (fun _ _ h₃ => ?_)
  extract_lets p₁ q₁
  split
  · exact keeps_created h₃
  · split
    · exact keeps_created h₃
    · refine Res.keeps_run (keeps_useDie h₃) (fun _ _ h₄ => ?_)
      extract_lets s₅
      have hs₅ : s₅.memoryOk = true := memoryOk_meetErrors h₄
      exact Out.keeps_ite (Out.keeps_next (memoryOk_poisonGlobal hs₅)) (Res.keeps_run (keeps_publish hs₅)
        (fun _ _ h₅ => Out.keeps_ite (keeps_created (memoryOk_pushJoin (memoryOk_birth h₅)))
          (keeps_created (memoryOk_setPartition (memoryOk_birth h₅) (memoryOk_partition (memoryOk_birth h₅))))))

theorem keeps_execTaskEnd {f} {s : State} (h : s.memoryOk = true) : (execTaskEnd f s).Keeps := by
  unfold execTaskEnd
  refine keeps_guarded h (fun _ h₁ => ?_)
  split
  · exact Out.keeps_next (memoryOk_stall h₁)
  · split
    · exact Out.keeps_next (memoryOk_stall h₁)
    · split
      · exact Out.keeps_ite (Out.keeps_next (memoryOk_modMe (memoryOk_endRegion (memoryOk_modMe h₁))))
          (Out.keeps_next (memoryOk_modMe (memoryOk_endRegion (memoryOk_modMe h₁))))
      · refine Res.keeps_run (keeps_publish (memoryOk_landAll h₁)) (fun _ _ h₂ => ?_)
        extract_lets h₃ id₁ core₁ s₃ s₄ d₁
        have hs₃ : s₃.memoryOk = true := memoryOk_dropViews h₂
        have hs₄ : s₄.memoryOk = true := memoryOk_setCore hs₃ (Core.memoryOk_freeTiles (memoryOk_core hs₃))
        split
        · exact Out.keeps_next (memoryOk_modMe h₂)
        · exact Out.keeps_next (memoryOk_setHart (memoryOk_taskOver (memoryOk_setDie (memoryOk_leaveGang hs₄))))

theorem keeps_execSend {f} {s : State} (h : s.memoryOk = true) : (execSend f s).Keeps := by
  unfold execSend
  refine keeps_guarded h (fun _ h₁ => ?_)
  extract_lets answered₁ h₂ p₁ node₁ away₁
  split
  · exact Res.keeps_run (keeps_sources h₁) (fun _ _ h₃ => keeps_finish (memoryOk_endRegion (memoryOk_modMe (memoryOk_setS h₃))))
  · exact Out.keeps_next (memoryOk_stall h₁)
  · refine Res.keeps_run (keeps_publish h₁) (fun _ _ h₄ => ?_)
    refine Res.keeps_run (keeps_sources (memoryOk_ite (memoryOk_modMe h₄) h₄)) (fun _ _ h₅ => ?_)
    extract_lets body₁ r₁
    split
    · exact Out.keeps_next (memoryOk_stall (memoryOk_modMe (memoryOk_deliver h₅)))
    · split
      · exact keeps_finish (memoryOk_endRegion (memoryOk_modMe (memoryOk_setS (memoryOk_drop (memoryOk_deliver h₅)))))
      · exact keeps_finish (memoryOk_endRegion (memoryOk_modMe (memoryOk_setS (memoryOk_drop (memoryOk_deliver h₅)))))
      · exact keeps_finish (memoryOk_endRegion (memoryOk_modMe (memoryOk_setS (memoryOk_deliver h₅))))
      · exact keeps_finish (memoryOk_endRegion (memoryOk_modMe (memoryOk_setS (memoryOk_deliver h₅))))

theorem keeps_execQinfo {f} {s : State} (h : s.memoryOk = true) : (execQinfo f s).Keeps :=
  keeps_guarded h (fun _ h₁ => keeps_finish (memoryOk_setS h₁))

theorem Core.memoryOk_setWork {k : Core} {urgent w} (hk : k.memoryOk = true) : (k.setWork urgent w).memoryOk = true :=
  Core.memoryOk_ite (Core.memoryOk_mk (Core.wf_w hk) (Core.wf_a hk) (Core.wf_c hk) (Core.wf_sbuf hk))
    (Core.memoryOk_mk (Core.wf_w hk) (Core.wf_a hk) (Core.wf_c hk) (Core.wf_sbuf hk))

theorem State.memoryOk_startIn {s : State} {core slot d} (h : s.memoryOk = true) : (s.startIn core slot d).memoryOk = true :=
  memoryOk_ite (memoryOk_setHart (memoryOk_ite (memoryOk_push h) h)) (memoryOk_taskOver (memoryOk_ite (memoryOk_push h) h))

theorem State.memoryOk_of_stealFrom {s : State} {thief victim urgent r} (e : s.stealFrom thief victim urgent = some r)
    (h : s.memoryOk = true) : r.2.memoryOk = true := by
  have hset : ∀ w, (s.setCore victim ((s.core victim).setWork urgent w)).memoryOk = true := fun _ =>
    memoryOk_setCore h (Core.memoryOk_setWork (memoryOk_core h))
  unfold State.stealFrom at e
  extract_lets w at e
  split at e
  · exact Option.some.inj e ▸ hset _
  · obtain ⟨_, _, rfl⟩ := Option.map_eq_some_iff.1 e
    exact hset _

theorem State.memoryOk_of_steal {s : State} {p thief urgent r} (e : s.steal p thief urgent = some r)
    (h : s.memoryOk = true) : r.2.memoryOk = true := by
  unfold State.steal at e
  extract_lets tries at e
  obtain ⟨v, -, hv⟩ := List.mem_filterMap.1 (List.mem_of_head? e)
  obtain ⟨q, hq, rfl⟩ := Option.map_eq_some_iff.1 hv
  have hq : q.2.memoryOk = true := memoryOk_of_stealFrom hq h
  exact memoryOk_setCore hq (memoryOk_core hq)

theorem State.memoryOk_of_takeWork {s t : State} {core urgent w} (e : s.takeWork core urgent = some (w, t))
    (h : s.memoryOk = true) : t.memoryOk = true := by
  unfold State.takeWork at e
  split at e
  · exact (Prod.mk.inj (Option.some.inj e)).2 ▸ memoryOk_setCore h (Core.memoryOk_setWork (memoryOk_core h))
  · exact memoryOk_of_steal e h

theorem keeps_execTaskStart {core slot} {s : State} (h : s.memoryOk = true) : (execTaskStart core slot s).Keeps := by
  unfold execTaskStart
  refine Out.keeps_ite (Out.keeps_next h) ?_
  split
  · rename_i e
    exact Out.keeps_next (memoryOk_startIn (memoryOk_of_takeWork e h))
  · exact Out.keeps_next h

theorem keeps_execTaskReplay {core slot} {s : State} (h : s.memoryOk = true) : (execTaskReplay core slot s).Keeps := by
  unfold execTaskReplay
  refine Out.keeps_ite (Out.keeps_next h) ?_
  split
  · rename_i t e
    have ht : t.memoryOk = true := memoryOk_of_takeWork e h
    extract_lets id x
    split
    · exact Out.keeps_next ht
    · exact Out.keeps_ite (Out.keeps_next (memoryOk_enterViews (memoryOk_setHart ht)))
        (Out.keeps_next (memoryOk_ite h (memoryOk_endTrapped ht)))
  · exact Out.keeps_next h

theorem keeps_execGangPlace {cluster} {s : State} (h : s.memoryOk = true) : (execGangPlace cluster s).Keeps := by
  unfold execGangPlace
  extract_lets k₁ room₁
  split
  · exact Out.keeps_next h
  · split
    · exact Out.keeps_next h
    · split
      · exact Out.keeps_next h
      · extract_lets places₁ s₁ pairs₁ id₁ gang₁ s₂
        have hs₁ : s₁.memoryOk = true := memoryOk_setCluster h (wf_cluster h)
        have hs₂ : s₂.memoryOk = true := hs₁
        exact Out.keeps_ite (Out.keeps_next (memoryOk_foldl hs₂ (fun _ _ h₁ => memoryOk_setHart h₁)))
          (Out.keeps_next (memoryOk_foldl hs₁ (fun _ _ h₂ => memoryOk_taskOver h₂)))

theorem State.memoryOk_decrementOver {s : State} {p d} (h : s.memoryOk = true) : (s.decrementOver p d).memoryOk = true :=
  memoryOk_countEnd (memoryOk_setPartition h (memoryOk_partition h))

theorem State.memoryOk_failDecrement {s : State} {p d c status} (h : s.memoryOk = true) :
    (s.failDecrement p d c status).memoryOk = true := by
  unfold State.failDecrement
  extract_lets t₁ s₁ s₂
  have hs₁ : s₁.memoryOk = true := memoryOk_deliverOrDrop h
  have hs₂ : s₂.memoryOk = true := memoryOk_deliverOrDrop h
  split
  · exact memoryOk_decrementOver h
  · exact memoryOk_decrementOver hs₁
  · exact memoryOk_decrementOver hs₂

theorem State.memoryOk_tryDecrement {s : State} {p d} (h : s.memoryOk = true) : (s.tryDecrement p d).memoryOk = true := by
  unfold State.tryDecrement
  extract_lets va₁ k₁ page₁
  split
  · split
    · exact memoryOk_joinMiss h
    · exact memoryOk_admitMiss h
  · rename_i _ _ s₁ e₁
    have h₁ : s₁.memoryOk = true := memoryOk_of_lookup e₁ h
    extract_lets pa₁ s₂ s₃
    have hs₂ : s₂.memoryOk = true := memoryOk_accessNow h₁
    have hs₃ : s₃.memoryOk = true := memoryOk_underKey hs₂
    exact memoryOk_ite (memoryOk_failDecrement h₁) (memoryOk_ite (memoryOk_wakeDie h₁)
      (memoryOk_ite (memoryOk_failDecrement hs₃) (memoryOk_decrementOver (memoryOk_atomicWrite hs₃))))

theorem keeps_execCounterDecrementPerform {part} {s : State} (h : s.memoryOk = true) :
    (execCounterDecrementPerform part s).Keeps := by
  unfold execCounterDecrementPerform
  refine Out.keeps_next ?_
  cases ht : List.find? (fun t => decide (t ≠ s)) ((s.partition part).decrements.map fun d => s.tryDecrement part d) with
  | none => exact h
  | some t =>
    obtain ⟨_, _, rfl⟩ := List.mem_map.1 (List.mem_of_find?_eq_some ht)
    exact memoryOk_tryDecrement h

theorem keeps_execLaunchCompletionRetry {part launch} {s : State} (h : s.memoryOk = true) :
    (execLaunchCompletionRetry part launch s).Keeps := Out.keeps_next (memoryOk_completeLaunch h)

end Sys2Proof.Machine
end

section
/-! PROOF. What keeps every memory canonical: Detour. -/

namespace Sys2Proof.Machine

open Sys2Proof State

theorem State.memoryOk_detourIf {s : State} {d} (h : s.memoryOk = true) : (s.detourIf d).memoryOk = true := by
  unfold State.detourIf
  split <;> exact h

theorem keeps_execRetirementRequest {stack} {s : State} (h : s.memoryOk = true) : (execRetirementRequest stack s).Keeps :=
  Out.keeps_next (memoryOk_detourIf h)

theorem keeps_execRetirementCancel {stack} {s : State} (h : s.memoryOk = true) : (execRetirementCancel stack s).Keeps :=
  Out.keeps_ite (Out.keeps_next (memoryOk_detourIf h)) (Out.keeps_next h)

theorem keeps_execSweepStart {s : State} (h : s.memoryOk = true) : (execSweepStart s).Keeps :=
  Out.keeps_ite (Out.keeps_next h) (Out.keeps_next (memoryOk_detourIf h))

theorem keeps_execRetirementCommit {s : State} (h : s.memoryOk = true) : (execRetirementCommit s).Keeps :=
  Out.keeps_ite (Out.keeps_next h) (Out.keeps_next (memoryOk_detourIf h))

theorem keeps_execSweepPause {s : State} (h : s.memoryOk = true) : (execSweepPause s).Keeps :=
  Out.keeps_next (memoryOk_detourIf h)

theorem keeps_execSweepResume {s : State} (h : s.memoryOk = true) : (execSweepResume s).Keeps :=
  Out.keeps_next (memoryOk_detourIf h)

theorem keeps_execSweepLineCopy {s : State} (h : s.memoryOk = true) : (execSweepLineCopy s).Keeps :=
  Out.keeps_ite (Out.keeps_next h) (Out.keeps_next (memoryOk_ite (memoryOk_setDie (memoryOk_meetErrors h))
    (memoryOk_meetErrors h)))

theorem keeps_execSweepUnitComplete {s : State} (h : s.memoryOk = true) : (execSweepUnitComplete s).Keeps :=
  Out.keeps_ite (Out.keeps_next h) (Out.keeps_next (memoryOk_completeUnit h))

theorem keeps_execStoreDrain {x} {s : State} (h : s.memoryOk = true) : (execStoreDrain x s).Keeps := by
  unfold execStoreDrain
  split
  · exact Out.keeps_next h
  · split
    · exact Out.keeps_next (memoryOk_modHart h)
    · exact Out.keeps_ite (Out.keeps_next h) (Out.keeps_ite (Out.keeps_next (memoryOk_wakeFor h))
        (Out.keeps_next (memoryOk_modHart (memoryOk_perform h))))

theorem keeps_execRequestReplay {s : State} (h : s.memoryOk = true) : (execRequestReplay s).Keeps := by
  unfold execRequestReplay
  extract_lets stale₁
  split
  · exact Out.keeps_next h
  · split
    · exact Out.keeps_next h
    · exact Out.keeps_next (memoryOk_setHart h)

end Sys2Proof.Machine
end

section
/-! PROOF. What keeps every memory canonical: errors, banks and retirement. -/

namespace Sys2Proof.Machine

open Sys2Proof State

theorem State.memoryOk_logMismatch {s : State} {c} (h : s.memoryOk = true) : (s.logMismatch c).memoryOk = true :=
  memoryOk_setDie h

theorem State.memoryOk_parkReady {s : State} {id core cls fixed} (h : s.memoryOk = true) :
    (s.parkReady id core cls fixed).memoryOk = true := memoryOk_ite (memoryOk_enterViews
      (memoryOk_abortAt (memoryOk_setHart h))) (memoryOk_pushRecord (memoryOk_setHart (memoryOk_abortAt (memoryOk_setHart h))))

theorem State.memoryOk_evict {s : State} {id} (h : s.memoryOk = true) : (s.evict id).memoryOk = true := by
  unfold State.evict
  split
  · exact h
  · split
    · exact memoryOk_takeVerdict h
    · split
      · exact memoryOk_ite (memoryOk_trapAt h) (memoryOk_parkReady h)
      · exact memoryOk_trapAt h

theorem State.memoryOk_quarantine {s : State} {c} (h : s.memoryOk = true) : (s.quarantine c).memoryOk = true :=
  memoryOk_setDie (memoryOk_foldl (memoryOk_foldl (memoryOk_foldl (memoryOk_setCore h (memoryOk_core h))
    (fun _ _ h₁ => memoryOk_push h₁)) (fun _ _ h₂ => memoryOk_push h₂)) (fun _ _ h₃ => memoryOk_evict h₃))

theorem State.memoryOk_mismatch {s : State} {id block} (h : s.memoryOk = true) : (s.mismatch id block).memoryOk = true := by
  unfold State.mismatch
  extract_lets c₁ here₁ s₁ mark₁ s₂
  have hs₁ : s₁.memoryOk = true := memoryOk_logMismatch h
  have hs₂ : s₂.memoryOk = true := memoryOk_modHart hs₁
  split
  · split
    · exact memoryOk_parkReady (memoryOk_modHart hs₁)
    · split
      · exact memoryOk_ite (memoryOk_trapAt hs₁) (memoryOk_parkReady (memoryOk_modHart hs₁))
      · split
        · exact memoryOk_quarantine (memoryOk_ite (memoryOk_trapAt hs₂) (memoryOk_parkReady hs₂))
        · exact memoryOk_quarantine (memoryOk_trapAt hs₂)
  · exact memoryOk_parkReady (memoryOk_modHart hs₁)

theorem keeps_execRetentionEnter {b} {s : State} (h : s.memoryOk = true) : (execRetentionEnter b s).Keeps := by
  unfold execRetentionEnter
  split
  · exact Out.keeps_next (memoryOk_ite h h)
  · exact Out.keeps_next (memoryOk_ite h h)
  · exact Out.keeps_next h

theorem keeps_execRetentionEntryDone {b} {s : State} (h : s.memoryOk = true) : (execRetentionEntryDone b s).Keeps := by
  unfold execRetentionEntryDone
  split <;> exact Out.keeps_next h

theorem State.memoryOk_markBank {s : State} {b w} (h : s.memoryOk = true) : (s.markBank b w).memoryOk = true := by
  unfold State.markBank
  split
  · exact memoryOk_setCore h (Core.memoryOk_setBuffer (memoryOk_core h) (Mem.wf_mark _ (Core.wf_buffer (memoryOk_core h))))
  · exact memoryOk_setCluster h (Mem.wf_mark _ (wf_cluster h))
  · exact memoryOk_of_mem h (Mem.wf_mark _ (wf_mem h)) rfl

theorem keeps_execRetentionExitDone {b corrected bad} {s : State} (h : s.memoryOk = true) :
    (execRetentionExitDone b corrected bad s).Keeps := by
  unfold execRetentionExitDone
  split
  · exact Out.keeps_next (memoryOk_foldl (memoryOk_foldl (memoryOk_touch h) (fun _ _ h₁ => memoryOk_setDie h₁))
      (fun _ _ h₂ => memoryOk_markBank (memoryOk_setDie h₂)))
  · exact Out.keeps_next h

theorem State.memoryOk_logBad {s : State} {at_} (h : s.memoryOk = true) : (s.logBad at_).memoryOk = true := memoryOk_setDie h

theorem State.memoryOk_markTile {s : State} {core n l} (h : s.memoryOk = true) : (s.markTile core n l).memoryOk = true :=
  memoryOk_setCore h (memoryOk_core h)

theorem State.memoryOk_filterLevel {s : State} {l keep} (h : s.memoryOk = true) : (s.filterLevel l keep).memoryOk = true := by
  unfold State.filterLevel
  split
  · exact memoryOk_setCore h (memoryOk_core h)
  · exact memoryOk_setCluster h (wf_cluster h)
  · exact memoryOk_setCluster h (wf_cluster h)
  · exact memoryOk_setDie h

theorem State.memoryOk_meetArray {s : State} {u} (h : s.memoryOk = true) : (s.meetArray u).memoryOk = true := by
  unfold State.meetArray
  extract_lets s₁ bad
  have hs₁ : s₁.memoryOk = true := h
  have hbad : bad.memoryOk = true := by
    unfold bad
    cases u.row with
    | none => exact hs₁
    | some row => exact memoryOk_logBad hs₁
  split
  · exact memoryOk_setDie hs₁
  · exact memoryOk_markTile hbad
  · exact memoryOk_markTile hbad
  · exact memoryOk_markBank hbad
  · exact memoryOk_setCore hbad (memoryOk_core hbad)
  · exact memoryOk_filterLevel hbad
  · exact hs₁

theorem State.memoryOk_arrayErrors {s : State} {c} (h : s.memoryOk = true) : (s.arrayErrors c).memoryOk = true :=
  memoryOk_ite h (memoryOk_foldl h (fun _ _ h₁ => memoryOk_ite (memoryOk_meetArray h₁) h₁))

theorem keeps_execHistogramFlush {die} {s : State} (h : s.memoryOk = true) : (execHistogramFlush die s).Keeps :=
  Out.keeps_ite (Out.keeps_next h) (Out.keeps_next (memoryOk_setDie h))

theorem keeps_execOrderlyShutdown {s : State} (h : s.memoryOk = true) : (execOrderlyShutdown s).Keeps := Out.keeps_next h

end Sys2Proof.Machine
end

section
/-! PROOF. What keeps every memory canonical: hosts, mailboxes and the Turnpike. -/

namespace Sys2Proof.Machine

open Sys2Proof State

theorem State.memoryOk_complete {s : State} {data} (h : s.memoryOk = true) : (s.complete data).memoryOk = true :=
  memoryOk_answerWith h

theorem State.memoryOk_refuseHost {s : State} (h : s.memoryOk = true) : s.refuseHost.memoryOk = true := memoryOk_answerWith h

theorem State.keeps_inTurn {s : State} {p qp i k} (h : s.memoryOk = true)
    (hk : ∀ (a : State), a.memoryOk = true → (k a).Keeps) : (s.inTurn p qp i k).Keeps := Out.keeps_ite
      (Out.keeps_next (memoryOk_await h)) (hk _ h)

theorem keeps_execHostWindowRead {part qp va len} {s : State} (h : s.memoryOk = true) :
    (execHostWindowRead part qp va len s).Keeps := by
  unfold execHostWindowRead
  refine keeps_inTurn h (fun _ h₁ => ?_)
  split
  · exact Out.keeps_next (memoryOk_refuseHost h₁)
  · exact Out.keeps_ite (Out.keeps_next (memoryOk_await (memoryOk_foldl h₁ (fun _ _ h₂ => memoryOk_wakeDie h₂))))
      (Out.keeps_ite (Out.keeps_next (memoryOk_refuseHost (memoryOk_foldl h₁ (fun _ _ h₃ => memoryOk_accessNow h₃))))
        (Out.keeps_next (memoryOk_complete (memoryOk_foldl h₁ (fun _ _ h₄ => memoryOk_accessNow h₄)))))

theorem keeps_execHostWindowWrite {part qp va bytes} {s : State} (h : s.memoryOk = true) :
    (execHostWindowWrite part qp va bytes s).Keeps := by
  unfold execHostWindowWrite
  refine keeps_inTurn h (fun _ h₁ => ?_)
  split
  · exact Out.keeps_next (memoryOk_refuseHost h₁)
  · split
    · exact Out.keeps_next (memoryOk_await (memoryOk_foldl h₁ (fun _ _ h₂ => memoryOk_wakeDie h₂)))
    · extract_lets b₁ s₃
      have hs₃ : s₃.memoryOk = true := memoryOk_foldl (memoryOk_storeNow h₁) (fun _ _ h₃ => memoryOk_underKey h₃)
      exact Out.keeps_next (memoryOk_complete (memoryOk_of_mem hs₃ (Mem.wf_store _ (wf_mem hs₃)) rfl))

theorem Mailbox.wf_announce {m : Mailbox} {slot} (hm : m.bytes.wf = true) : (m.announce slot).bytes.wf = true := by
  unfold Mailbox.announce
  exact hm

theorem State.memoryOk_doorbell {s : State} {p i q} (h : s.memoryOk = true) : (s.doorbell p i q).memoryOk = true := by
  unfold State.doorbell
  extract_lets m₁ s₁ m₂
  have hs₁ : s₁.memoryOk = true := memoryOk_validate h
  exact memoryOk_ite h (memoryOk_ite (memoryOk_ite h (memoryOk_ite (memoryOk_validate h)
    (memoryOk_ite (memoryOk_setMailbox hs₁ (Mailbox.wf_announce (wf_mailbox hs₁))) hs₁)))
      (memoryOk_ite (memoryOk_setMailbox h (Mailbox.wf_announce (wf_mailbox h))) h))

theorem State.memoryOk_windowWrite {s : State} {p i off bytes} (h : s.memoryOk = true) :
    (s.windowWrite p i off bytes).memoryOk = true := by
  unfold State.windowWrite
  extract_lets m₁ inSlot₁ l₁ touches₁ s₁ stamp₁ announced₁ s₂ bell₁
  have hs₁ : s₁.memoryOk = true := memoryOk_setMailbox h (Mem.wf_store _ (wf_mailbox h))
  have hs₂ : s₂.memoryOk = true := memoryOk_ite (memoryOk_validate hs₁) hs₁
  exact memoryOk_ite h (memoryOk_ite (memoryOk_doorbell hs₂) hs₂)

theorem keeps_execMailboxSlotWrite {part qp mbx off bytes} {s : State} (h : s.memoryOk = true) :
    (execMailboxSlotWrite part qp mbx off bytes s).Keeps := keeps_inTurn h
      (fun _ h₁ => Out.keeps_ite (Out.keeps_next (memoryOk_complete (memoryOk_windowWrite h₁)))
        (Out.keeps_next (memoryOk_refuseHost h₁)))

theorem keeps_execMailboxSlotRead {part qp mbx off len} {s : State} (h : s.memoryOk = true) :
    (execMailboxSlotRead part qp mbx off len s).Keeps := keeps_inTurn h
      (fun _ h₁ => Out.keeps_ite (Out.keeps_next (memoryOk_complete h₁)) (Out.keeps_next (memoryOk_refuseHost h₁)))

theorem keeps_execDoorbellWrite {part qp mbx off bytes} {s : State} (h : s.memoryOk = true) :
    (execDoorbellWrite part qp mbx off bytes s).Keeps := keeps_inTurn h
      (fun _ h₁ => Out.keeps_ite (Out.keeps_next (memoryOk_complete (memoryOk_windowWrite h₁)))
        (Out.keeps_next (memoryOk_refuseHost h₁)))

theorem keeps_execMailboxFault {part mbx} {s : State} (h : s.memoryOk = true) : (execMailboxFault part mbx s).Keeps :=
  Out.keeps_next (memoryOk_sendFault h)

theorem State.memoryOk_giveMisses {s : State} {q : Partition} (h : s.memoryOk = true) : (s.giveMisses q).memoryOk = true :=
  memoryOk_foldl h (fun _ _ h₁ => memoryOk_foldl h₁ (fun _ _ h₂ => memoryOk_giveMiss h₂))

theorem State.memoryOk_readyAll {s : State} {p} (h : s.memoryOk = true) : (s.readyAll p).memoryOk = true :=
  memoryOk_foldl h (fun _ _ h₁ => memoryOk_readyKept h₁)

theorem State.memoryOk_resume {s : State} {p} (h : s.memoryOk = true) : (s.resume p).memoryOk = true := by
  unfold State.resume
  extract_lets q₁ s₁ s₂ s₃
  have hs₁ : s₁.memoryOk = true := memoryOk_giveMisses (memoryOk_setPartition h (memoryOk_partition h))
  have hs₂ : s₂.memoryOk = true := memoryOk_readyAll hs₁
  have hs₃ : s₃.memoryOk = true := by
    unfold s₃
    refine memoryOk_foldl hs₂ (fun _ _ h₁ => ?_)
    split
    · exact memoryOk_pushRecord h₁
    · exact h₁
  exact memoryOk_foldl hs₃ (fun _ _ h₂ => memoryOk_ite (memoryOk_validate h₂) h₂)

theorem State.memoryOk_pushHeld {s : State} {p i rest} (h : s.memoryOk = true) : (s.pushHeld p i rest).memoryOk = true :=
  memoryOk_validate (memoryOk_trigger (memoryOk_setPartition h (memoryOk_partition h)) (wf_mailbox h))

theorem keeps_execHeldSlotPush {part} {s : State} (h : s.memoryOk = true) : (execHeldSlotPush part s).Keeps := by
  unfold execHeldSlotPush
  extract_lets q₁ full₁
  split
  · exact Out.keeps_next (memoryOk_ite h (memoryOk_pushHeld h))
  · exact Out.keeps_next h
  · exact Out.keeps_next (memoryOk_ite h (memoryOk_ite (memoryOk_resume h) (memoryOk_pushHeld h)))
  · exact Out.keeps_next (memoryOk_ite h (memoryOk_resume h))
  · exact Out.keeps_next h

theorem keeps_execServiceMessageArrival {die core msg} {s : State} (h : s.memoryOk = true) :
    (execServiceMessageArrival die core msg s).Keeps := Out.keeps_next (memoryOk_serve h)

theorem keeps_execTurnpikeArrival {packet} {s : State} (h : s.memoryOk = true) : (execTurnpikeArrival packet s).Keeps := by
  unfold execTurnpikeArrival
  extract_lets wait above write
  have hwait : ∀ l, (wait l).Keeps := fun l =>
    Out.keeps_next (memoryOk_await (memoryOk_foldl h fun _ _ h => memoryOk_wakeDie h))
  have habove : above.Keeps := Out.keeps_next (memoryOk_answerWith h)
  have hwrite : ∀ bytes half bad, (write bytes half bad).Keeps := by
    intro bytes half bad
    have hm := Mem.wf_storeBoth bytes half (wf_mem (memoryOk_storeNow (bytes := bytes) (half := half) h))
    exact Out.keeps_ite habove (Out.keeps_ite (hwait _) (Out.keeps_next (memoryOk_answerWith
      (memoryOk_of_mem (memoryOk_storeNow h) (Mem.wf_ite (Mem.wf_foldl hm fun _ _ h => Mem.wf_mark _ h) hm) rfl))))
  clear_value wait above write
  refine Out.keeps_ite (hwait _) ?_
  split
  · exact hwrite _ _ _
  · exact hwrite _ _ _
  · exact hwrite _ _ _
  · exact Out.keeps_ite habove (Out.keeps_ite (hwrite _ _ _) (Out.keeps_ite (hwait _)
      (Out.keeps_next (memoryOk_answerWith (memoryOk_addSignal (memoryOk_touchDie h))))))
  · exact Out.keeps_next (memoryOk_answerWith (memoryOk_deliver h))
  · exact Out.keeps_ite (Out.keeps_next h) (Out.keeps_next (memoryOk_modHart (memoryOk_ite (memoryOk_drop h) h)))
  · exact Out.keeps_next (memoryOk_flitAnswered h)
  · exact Out.keeps_next (memoryOk_commandAnswered h)
  · exact Out.keeps_next (memoryOk_launchAnswered h)
  · exact Out.keeps_next (memoryOk_ite h (memoryOk_drop h))

end Sys2Proof.Machine
end

section
/-! PROOF. What keeps every memory canonical: system instructions. -/

namespace Sys2Proof.Machine

open Sys2Proof State

theorem State.keeps_atLevel {s : State} {n gd k} (h : s.memoryOk = true)
    (hk : ∀ (a : State), a.memoryOk = true → (k a).Keeps) : (s.atLevel n gd k).Keeps := Out.keeps_ite
      (Out.keeps_next (memoryOk_raise h)) (keeps_guarded h (fun _ h₁ => hk _ h₁))

theorem State.keeps_sysDone {s : State} {d x2} (h : s.memoryOk = true) : (s.sysDone d x2).Keeps :=
  keeps_finish (memoryOk_endRegion (memoryOk_setS h))

theorem keeps_execTrap {f} {s : State} (h : s.memoryOk = true) : (execTrap f s).Keeps :=
  keeps_guarded h (fun _ h₁ => Out.keeps_next (memoryOk_trap h₁))

theorem keeps_execCtrlr {f} {s : State} (h : s.memoryOk = true) : (execCtrlr f s).Keeps :=
  keeps_atLevel h (fun _ h₁ => keeps_finish (memoryOk_setS h₁))

theorem keeps_writeChecked {ok} {s : State} {t : State} (h : s.memoryOk = true) (ht : t.memoryOk = true) :
    (writeChecked ok s t).Keeps := Out.keeps_ite (keeps_finish (memoryOk_endRegion ht)) (Out.keeps_next (memoryOk_raise h))

theorem State.memoryOk_modMyPart {s : State} {f} (h : s.memoryOk = true)
    (hf : ∀ (a : Partition), a.memoryOk = true → (f a).memoryOk = true) : (s.modMyPart f).memoryOk = true := by
  unfold State.modMyPart
  split
  · rename_i _ c₁ e₁
    have h₁ := Table.all_find e₁ (all_partitions h)
    exact memoryOk_setPartition h (hf _ h₁)
  · exact h

theorem keeps_execCtrlw {f} {s : State} (h : s.memoryOk = true) : (execCtrlw f s).Keeps := by
  unfold execCtrlw
  refine keeps_atLevel h (fun _ h₁ => ?_)
  extract_lets x₁ n₁ system₁ detour₁
  split
  · exact keeps_writeChecked h₁ (memoryOk_modMe h₁)
  · split
    · exact keeps_finish (memoryOk_endRegion h₁)
    · split
      · exact keeps_writeChecked h₁ (memoryOk_modMyPart h₁ (fun _ h₂ => h₂))
      · exact keeps_writeChecked h₁ (memoryOk_modMyPart h₁ (fun _ h₃ => h₃))
      · exact keeps_writeChecked h₁ (memoryOk_detourIf h₁)
      · exact keeps_writeChecked h₁ (memoryOk_detourIf h₁)
      · exact keeps_writeChecked h₁ (memoryOk_detourIf h₁)
      · exact keeps_finish (memoryOk_endRegion h₁)

theorem keeps_execQuotaWrite {f} {s : State} (h : s.memoryOk = true) : (execQuotaWrite f s).Keeps :=
  keeps_guarded h (fun _ h₁ => Out.keeps_ite (keeps_finish (memoryOk_endRegion h₁))
    (keeps_writeChecked h₁ (memoryOk_modMyPart h₁ (fun _ h₂ => h₂))))

theorem keeps_execVxfAccess {write f} {s : State} (h : s.memoryOk = true) : (execVxfAccess write f s).Keeps :=
  keeps_guarded h (fun _ h₁ => Out.keeps_ite (Out.keeps_next (memoryOk_stall h₁))
    (Out.keeps_ite (keeps_finish (memoryOk_setS (memoryOk_modMe h₁))) (keeps_writeChecked (memoryOk_modMe h₁)
      (memoryOk_modMe (memoryOk_modMe h₁)))))

theorem State.memoryOk_freeMiss {s : State} {k e} (h : s.memoryOk = true) : (s.freeMiss k e).memoryOk = true :=
  memoryOk_foldl (memoryOk_foldl (memoryOk_setCluster h (wf_cluster h)) (fun _ _ h₁ => memoryOk_readyKept h₁))
    (fun _ _ h₂ => memoryOk_readyRecord h₂)

theorem State.memoryOk_endRequester {s : State} {status x2} (h : s.memoryOk = true) :
    (s.endRequester status x2).memoryOk = true := by
  unfold State.endRequester
  split
  · exact memoryOk_modHart h
  · exact memoryOk_failCommand h
  · split
    · exact memoryOk_failDecrement h
    · exact h

theorem State.memoryOk_termMiss {s : State} {k e status} (h : s.memoryOk = true) : (s.termMiss k e status).memoryOk = true := by
  unfold State.termMiss
  extract_lets c₁ s₁ s₂ s₃
  have hs₁ : s₁.memoryOk = true := memoryOk_setCluster h (wf_cluster h)
  have hs₂ : s₂.memoryOk = true := memoryOk_foldl hs₁ (fun _ _ h₁ => memoryOk_endRequester h₁)
  have hs₃ : s₃.memoryOk = true := memoryOk_foldl hs₂ (fun _ _ h₂ => memoryOk_trapAt (memoryOk_modHart h₂))
  refine memoryOk_foldl hs₃ (fun _ _ h₃ => ?_)
  split
  · exact memoryOk_endTrapped h₃
  · exact h₃

theorem State.memoryOk_deferMiss {s : State} {k e} (h : s.memoryOk = true) : (s.deferMiss k e).memoryOk = true :=
  memoryOk_setCluster h (wf_cluster h)

theorem State.keeps_onTsc {s : State} {gd k} (h : s.memoryOk = true) (hk : ∀ (a : ℕ) (a_1 : State), a_1.memoryOk = true
    → (k a a_1).Keeps) : (s.onTsc gd k).Keeps := by
  unfold State.onTsc
  split
  · exact keeps_guarded h (fun _ h₁ => hk _ _ h₁)
  · exact Out.keeps_next (memoryOk_raise h)

theorem keeps_execTretTake {f} {s : State} (h : s.memoryOk = true) : (execTretTake f s).Keeps := by
  unfold execTretTake
  refine keeps_onTsc h (fun _ _ h₁ => ?_)
  split
  · exact Out.keeps_next (memoryOk_stall h₁)
  · exact Res.keeps_run (keeps_writeV h₁) (fun _ _ h₂ => keeps_finish (memoryOk_endRegion
      (memoryOk_setCluster h₂ (wf_cluster h₂))))

theorem keeps_execTretDefer {f} {s : State} (h : s.memoryOk = true) : (execTretDefer f s).Keeps := by
  unfold execTretDefer
  refine keeps_onTsc h (fun _ _ h₁ => ?_)
  split
  · exact keeps_finish (memoryOk_endRegion (memoryOk_ite h₁ (memoryOk_deferMiss h₁)))
  · exact keeps_finish (memoryOk_endRegion h₁)

theorem keeps_execTretTerm {f} {s : State} (h : s.memoryOk = true) : (execTretTerm f s).Keeps := by
  unfold execTretTerm
  refine keeps_onTsc h (fun _ _ h₁ => ?_)
  split
  · exact Out.keeps_ite (Out.keeps_next (memoryOk_stall h₁)) (keeps_finish (memoryOk_endRegion (memoryOk_termMiss h₁)))
  · exact keeps_finish (memoryOk_endRegion h₁)

theorem keeps_execTretRelease {f} {s : State} (h : s.memoryOk = true) : (execTretRelease f s).Keeps := by
  unfold execTretRelease
  refine keeps_onTsc h (fun _ _ h₁ => ?_)
  split
  · exact keeps_finish (memoryOk_endRegion (memoryOk_freeMiss h₁))
  · exact keeps_finish (memoryOk_endRegion h₁)

theorem State.memoryOk_purge {s : State} {gone} (h : s.memoryOk = true) : (s.purge gone).memoryOk = true :=
  memoryOk_mk (wf_mem h) (Table.all_update (all_clusters h) (fun _ _ h₁ => h₁))
    (Table.all_update (all_cores h) (fun _ _ h₂ => h₂)) (all_partitions h) (all_clearings h) (savesOk_saves h)

theorem State.memoryOk_answerMisses {s : State} {k e} (h : s.memoryOk = true) : (s.answerMisses k e).memoryOk = true :=
  memoryOk_foldl h (fun _ _ h₁ => memoryOk_freeMiss h₁)

theorem State.memoryOk_writeCluster {s : State} {k e} (h : s.memoryOk = true) : (s.writeCluster k e).memoryOk = true := by
  unfold State.writeCluster
  extract_lets keep₁ s₁ s₂ b₁ s₃
  have hs₁ : s₁.memoryOk = true := memoryOk_anchorJoins h
  have hs₂ : s₂.memoryOk = true := memoryOk_mk (wf_mem hs₁) (all_clusters hs₁)
    (Table.all_update (all_cores hs₁) (fun _ _ h₁ => Core.memoryOk_ite h₁ h₁)) (all_partitions hs₁) (all_clearings hs₁)
      (savesOk_saves hs₁)
  have hs₃ : s₃.memoryOk = true := memoryOk_setCluster hs₂ (wf_cluster hs₂)
  exact memoryOk_answerMisses (memoryOk_fillCluster hs₃)

theorem State.memoryOk_writeDie {s : State} {d e} (h : s.memoryOk = true) : (s.writeDie d e).memoryOk = true :=
  memoryOk_foldl (memoryOk_installDie h) (fun _ _ h₁ => memoryOk_answerMisses h₁)

theorem State.keeps_drainEvery {s : State} (h : s.memoryOk = true) : s.drainEvery.Keeps :=
  Res.keeps_bind (keeps_awaitStores h) (fun _ _ h₁ => Res.keeps_ok (memoryOk_foldl h₁ (fun _ _ h₂ => memoryOk_drainAll h₂)))

theorem keeps_execTlbw {f} {s : State} (h : s.memoryOk = true) : (execTlbw f s).Keeps := by
  unfold execTlbw
  refine keeps_atLevel h (fun _ h₁ => ?_)
  refine Res.keeps_run (keeps_publish h₁) (fun _ _ h₂ => ?_)
  extract_lets e₁
  split
  · exact keeps_sysDone h₂
  · split
    · exact keeps_sysDone (memoryOk_writeDie h₂)
    · exact keeps_sysDone (memoryOk_writeCluster h₂)

theorem keeps_tlbi {gone} {s : State} (h : s.memoryOk = true) : (tlbi gone s).Keeps :=
  Res.keeps_run (keeps_drainEvery h) (fun _ _ h₁ => keeps_finish (memoryOk_endRegion (memoryOk_purge h₁)))

theorem keeps_execTlbiPage {f} {s : State} (h : s.memoryOk = true) : (execTlbiPage f s).Keeps :=
  keeps_atLevel h (fun _ h₁ => Res.keeps_run (keeps_check h₁) (fun _ _ h₂ => keeps_tlbi h₂))

theorem keeps_execTlbiAsid {f} {s : State} (h : s.memoryOk = true) : (execTlbiAsid f s).Keeps :=
  keeps_atLevel h (fun _ h₁ => Res.keeps_run (keeps_check h₁) (fun _ _ h₂ => keeps_tlbi h₂))

theorem keeps_execTlbiAll {f} {s : State} (h : s.memoryOk = true) : (execTlbiAll f s).Keeps :=
  keeps_atLevel h (fun _ h₁ => keeps_tlbi h₁)

theorem State.memoryOk_bind {s : State} {p i b o entry} (h : s.memoryOk = true) : (s.bind p i b o entry).1.memoryOk = true := by
  unfold State.bind
  extract_lets q₁ gen₁ depth₁ m₁
  exact memoryOk_setMailbox (memoryOk_unbindMailbox h) Mem.wf_empty

theorem keeps_execMbind {f} {s : State} (h : s.memoryOk = true) : (execMbind f s).Keeps := by
  unfold execMbind
  refine keeps_guarded h (fun _ h₁ => ?_)
  extract_lets i₁ a₁
  split
  · exact keeps_sysDone h₁
  · refine Res.keeps_run (keeps_checkAt h₁) (fun _ _ h₂ => ?_)
    refine Res.keeps_run (Res.keeps_collect h₂ (fun _ _ h₃ => keeps_loadBytes h₃)) (fun _ _ h₄ => ?_)
    extract_lets b₁ p₁ q₁
    split
    · exact keeps_sysDone h₄
    · split
      · exact keeps_sysDone h₄
      · split
        · exact keeps_sysDone h₄
        · split
          · exact keeps_sysDone h₄
          · split
            · exact keeps_sysDone h₄
            · exact Out.keeps_ite (keeps_sysDone h₄) (keeps_sysDone (memoryOk_bind h₄))

theorem keeps_execMbindUn {f} {s : State} (h : s.memoryOk = true) : (execMbindUn f s).Keeps :=
  keeps_guarded h (fun _ h₁ => Out.keeps_ite (keeps_sysDone (memoryOk_unbindMailbox h₁)) (keeps_sysDone h₁))

theorem keeps_execReprwGet {f} {s : State} (h : s.memoryOk = true) : (execReprwGet f s).Keeps :=
  keeps_atLevel h (fun _ h₁ => keeps_sysDone h₁)

theorem keeps_execReprwAdd {f} {s : State} (h : s.memoryOk = true) : (execReprwAdd f s).Keeps :=
  keeps_atLevel h (fun _ h₁ => keeps_sysDone (memoryOk_setDie h₁))

theorem State.memoryOk_copyRow {s : State} {d row} (h : s.memoryOk = true) : (s.copyRow d row).memoryOk = true := by
  unfold State.copyRow
  refine memoryOk_foldl h (fun _ _ h₁ => ?_)
  split
  · exact memoryOk_meetArray h₁
  · split
    · exact memoryOk_ite (memoryOk_meetErrors h₁) h₁
    · exact memoryOk_ite (memoryOk_meetErrors h₁) h₁
    · exact h₁

theorem keeps_execReprwApply {f} {s : State} (h : s.memoryOk = true) : (execReprwApply f s).Keeps := by
  unfold execReprwApply
  refine keeps_atLevel h (fun _ h₁ => ?_)
  extract_lets d₁ x₁ i₁ spare₁
  split
  · exact keeps_sysDone h₁
  · exact Out.keeps_ite (keeps_sysDone h₁) (keeps_sysDone (memoryOk_setDie (memoryOk_ite (memoryOk_copyRow h₁) h₁)))

theorem keeps_execReprwClr {f} {s : State} (h : s.memoryOk = true) : (execReprwClr f s).Keeps :=
  keeps_atLevel h (fun _ h₁ => keeps_finish (memoryOk_endRegion (memoryOk_setDie h₁)))

theorem keeps_execReprwSum {f} {s : State} (h : s.memoryOk = true) : (execReprwSum f s).Keeps :=
  keeps_atLevel h (fun _ h₁ => keeps_sysDone h₁)

theorem State.memoryOk_mapFor {s : State} {x e} (h : s.memoryOk = true) : (s.mapFor x e).memoryOk = true := by
  unfold State.mapFor
  split
  · exact memoryOk_writeDie h
  · exact memoryOk_writeCluster h

theorem State.memoryOk_placeFirmware {s : State} {x i} (h : s.memoryOk = true) : (s.placeFirmware x i).memoryOk = true :=
  memoryOk_foldl h (fun _ _ h₁ => memoryOk_mapFor (memoryOk_freshFrame (memoryOk_of_mem h₁ (Mem.wf_fillPage _ _ (wf_mem h₁))
    rfl)))

theorem State.memoryOk_startFirmware {s : State} {x entry system} (h : s.memoryOk = true) :
    (s.startFirmware x entry system).memoryOk = true := memoryOk_modHart h

theorem State.memoryOk_startStage {s : State} {stage image} (h : s.memoryOk = true) :
    (s.startStage stage image).memoryOk = true := memoryOk_foldl h (fun _ _ h₁ => memoryOk_startFirmware
      (memoryOk_placeFirmware h₁))

theorem State.memoryOk_setSpare {s : State} {x1} (h : s.memoryOk = true) : (s.setSpare x1).memoryOk = true := memoryOk_ite h h

theorem State.memoryOk_startUpdate {s : State} (h : s.memoryOk = true) : s.startUpdate.memoryOk = true := memoryOk_startStage h

theorem State.memoryOk_rollBack {s : State} (h : s.memoryOk = true) : s.rollBack.memoryOk = true :=
  memoryOk_startStage (memoryOk_setSpare h)

theorem keeps_execHalt {f} {s : State} (h : s.memoryOk = true) : (execHalt f s).Keeps := by
  unfold execHalt
  split
  · exact Out.keeps_next (memoryOk_ite (memoryOk_startUpdate (memoryOk_raise h)) (memoryOk_rollBack (memoryOk_raise h)))
  · refine keeps_atLevel h (fun _ h₁ => ?_)
    split
    · exact Out.keeps_next (memoryOk_stall (memoryOk_modMe h₁))
    · exact keeps_finish (memoryOk_endRegion (memoryOk_modMe h₁))

theorem keeps_execCinvI {f} {s : State} (h : s.memoryOk = true) : (execCinvI f s).Keeps :=
  keeps_atLevel h (fun _ h₁ => keeps_finish (memoryOk_endRegion (memoryOk_mk (wf_mem h₁) (all_clusters h₁)
    (Table.all_update (all_cores h₁) (fun _ _ h₂ => Core.memoryOk_ite h₂ h₂)) (all_partitions h₁) (all_clearings h₁)
      (savesOk_saves h₁))))

theorem keeps_execCinvD {f} {s : State} (h : s.memoryOk = true) : (execCinvD f s).Keeps := by
  unfold execCinvD
  refine keeps_atLevel h (fun _ h₁ => ?_)
  extract_lets unit₁ ok₁ keep₁
  exact Res.keeps_run (keeps_checkAt h₁) (fun _ _ h₂ => Res.keeps_run (keeps_drainEvery h₂)
    (fun _ _ h₃ => keeps_finish (memoryOk_endRegion (memoryOk_mk (wf_mem h₃) (all_clusters h₃)
      (Table.all_update (all_cores h₃) (fun _ _ h₄ => h₄)) (all_partitions h₃) (all_clearings h₃) (savesOk_saves h₃)))))

end Sys2Proof.Machine
end

section
/-! PROOF. What keeps every memory canonical: `qsave` and `qrest`. -/

namespace Sys2Proof.Machine

open Sys2Proof State

theorem State.memoryOk_foldl_mem {α : Type} {f : State → α → State} {l : List α} {s : State} (h : s.memoryOk = true)
    (hf : ∀ s, ∀ x ∈ l, s.memoryOk = true → (f s x).memoryOk = true) : (l.foldl f s).memoryOk = true := by
  induction l generalizing s with
  | nil => exact h
  | cons x t ih => exact ih (hf s x List.mem_cons_self h) fun s y hy => hf s y (List.mem_cons_of_mem x hy)

theorem State.keeps_storeRange {va : Word} {l : List (List Byte)} {s : State} (h : s.memoryOk = true) :
    (State.storeRange va l s).Keeps := by
  induction l generalizing va s with
  | nil => exact Res.keeps_ok h
  | cons b t ih => exact Res.keeps_bind (keeps_storeBytes h) fun _ _ h => ih h

theorem State.keeps_loadRange {s : State} {va n} (h : s.memoryOk = true) : (s.loadRange va n).Keeps :=
  Res.keeps_bind (Res.keeps_collect h (fun _ _ h₁ => keeps_loadBytes h₁)) (fun _ _ h₂ => Res.keeps_ok h₂)

theorem State.memoryOk_snapshot {s : State} {q : Partition} {n area} (h : s.memoryOk = true) (hq : q.memoryOk = true) :
    (s.snapshot q n area).memoryOk = true := by
  refine Save.memoryOk_iff.2 ⟨hq, fun k hk => ?_, fun k hk => ?_⟩
  · obtain ⟨i, -, rfl⟩ := List.mem_map.1 hk
    exact wf_cluster h
  · obtain ⟨l, hl, hk⟩ := List.mem_flatten.1 hk
    obtain ⟨c, -, rfl⟩ := List.mem_map.1 hl
    obtain ⟨i, -, rfl⟩ := List.mem_map.1 hk
    exact memoryOk_core h

theorem SavesOk.append {l : List Save} {v : Save} (h : SavesOk l) (hv : v.memoryOk = true) : SavesOk (l ++ [v]) := by
  intro x hx
  rcases List.mem_append.1 hx with hx | hx
  · exact h x hx
  · exact List.mem_singleton.1 hx ▸ hv

theorem keeps_execQsave {f} {s : State} (h : s.memoryOk = true) : (execQsave f s).Keeps := by
  refine keeps_atLevel h fun s h => ?_
  extract_lets p va
  refine Out.keeps_ite (Out.keeps_next (memoryOk_stall h)) (Res.keeps_run (keeps_checkAt h) fun _ s h => ?_)
  split
  · exact keeps_sysDone h
  · rename_i q e
    have hq : q.memoryOk = true := Table.all_find (P := fun q : Partition => q.memoryOk = true) e (all_partitions h)
    extract_lets n area v
    have hv : v.memoryOk = true := memoryOk_snapshot h hq
    refine Out.keeps_ite (keeps_sysDone h) (Out.keeps_ite (keeps_sysDone h)
      (Res.keeps_run (keeps_storeRange h) fun _ s h => ?_))
    exact keeps_sysDone (memoryOk_setPartition (memoryOk_mk (wf_mem h) (all_clusters h) (all_cores h) (all_partitions h)
      (all_clearings h) ((savesOk_saves h).append hv)) hq)

theorem Move.wf_mailbox {m : Move} {b : Mailbox} (hb : b.bytes.wf = true) : (m.mailbox b).bytes.wf = true := by
  unfold Move.mailbox
  exact hb

theorem Move.wf_cluster {m : Move} {k : Cluster} (hk : k.mem.wf = true) : (m.cluster k).mem.wf = true := by
  unfold Move.cluster
  extract_lets live
  exact hk

theorem Move.memoryOk_intoCore {m : Move} {old : Core} {new : Core} (hold : old.memoryOk = true) (hnew : new.memoryOk = true) :
    (m.intoCore old new).memoryOk = true := Core.memoryOk_mk (Core.wf_w hnew) (Core.wf_a hnew) (Core.wf_c hnew)
      (Core.wf_sbuf hold)

theorem Move.memoryOk_partition {m : Move} {q : Partition} {slice} (hq : q.memoryOk = true) :
    (m.partition q slice).memoryOk = true := Partition.memoryOk_mk (Table.all_update (Partition.all_mailboxes hq)
      (fun _ _ h₁ => Move.wf_mailbox h₁))

theorem Cluster.wf_handedTo {old new : Cluster} (hnew : new.mem.wf = true) :
    (old.handedTo new).mem.wf = true := by
  unfold Cluster.handedTo
  exact hnew

theorem State.memoryOk_clearCluster {s : State} {k owner} (h : s.memoryOk = true) :
    (s.clearCluster k owner).memoryOk = true := by
  unfold State.clearCluster
  extract_lets s₁ cores s₂
  have hs₁ : s₁.memoryOk = true := memoryOk_setCluster h (Cluster.wf_handedTo (Cluster.wf_mk Mem.wf_empty))
  have hs₂ : s₂.memoryOk = true := memoryOk_foldl hs₁ fun _ _ h =>
    memoryOk_setCore h (Core.memoryOk_mk Mem.wf_empty Mem.wf_empty Mem.wf_empty Mem.wf_empty)
  clear_value s₂
  exact memoryOk_of_eq hs₂ rfl

theorem State.memoryOk_moveClearings {s : State} {p tsc} (h : s.memoryOk = true) : (s.moveClearings p tsc).memoryOk = true := by
  refine memoryOk_mk (wf_mem h) (all_clusters h) (all_cores h) (all_partitions h)
    (Table.all_update (all_clearings h) fun _ c hc => ?_) (savesOk_saves h)
  split
  · exact Clearing.wf_mk hc
  · exact hc

theorem State.memoryOk_freeSaved {s : State} {clusters} (h : s.memoryOk = true) : (s.freeSaved clusters).memoryOk = true := by
  unfold State.freeSaved
  extract_lets loses₁
  exact memoryOk_foldl h (fun _ _ h₁ => memoryOk_moveClearings (memoryOk_setPartition
    (memoryOk_of_eq (memoryOk_foldl h₁ (fun _ _ h₂ => memoryOk_clearCluster h₂)) rfl)
      (Partition.memoryOk_mk (Partition.all_mailboxes (memoryOk_partition h)))))

theorem State.memoryOk_restore {s : State} {p} {v : Save} {slice} (h : s.memoryOk = true) (hv : v.memoryOk = true) :
    (s.restore p v slice).memoryOk = true := by
  obtain ⟨hq, hk, hc⟩ := Save.memoryOk_iff.1 hv
  unfold State.restore
  extract_lets at_ new m live q s₁ s₂ s₃ s₄ s₅ s₆
  have hm : q.memoryOk = true := Move.memoryOk_partition hq
  have h₁ : s₁.memoryOk = true :=
    memoryOk_moveClearings (memoryOk_setPartition h (Partition.memoryOk_mk (Partition.all_mailboxes hm)))
  have h₂ : s₂.memoryOk = true := memoryOk_of_eq h₁ rfl
  have h₃ : s₃.memoryOk = true := memoryOk_foldl_mem h₂ fun s e he h =>
    memoryOk_setCluster h (Cluster.wf_handedTo (Move.wf_cluster (hk _ (List.of_mem_zip he).2)))
  have h₄ : s₄.memoryOk = true := memoryOk_foldl_mem h₃ fun s e he h =>
    memoryOk_setCore h (Move.memoryOk_intoCore (hc _ (List.fst_mem_of_mem_zipIdx he)) (memoryOk_core h))
  have h₅ : s₅.memoryOk = true := memoryOk_foldl h₄ fun _ _ h => memoryOk_setHart h
  have h₆ : s₆.memoryOk = true := memoryOk_foldl h₅ fun _ _ h => memoryOk_of_eq h rfl
  exact memoryOk_foldl h₆ fun _ _ h => memoryOk_setDie h

theorem keeps_execQrest {f} {s : State} (h : s.memoryOk = true) : (execQrest f s).Keeps := by
  refine keeps_atLevel h fun s h => ?_
  extract_lets p va n
  refine Out.keeps_ite (Out.keeps_next (memoryOk_stall h)) (Res.keeps_run (keeps_checkAt h) fun _ s h => ?_)
  refine Out.keeps_ite (keeps_sysDone h) (Res.keeps_run (keeps_loadBytes h) fun b s h => ?_)
  extract_lets size
  refine Out.keeps_ite (keeps_sysDone h) (Res.keeps_run (keeps_loadRange h) fun area s h => ?_)
  refine Out.keeps_ite (keeps_sysDone h) (Out.keeps_ite (keeps_sysDone h) ?_)
  split
  · exact keeps_sysDone h
  · rename_i v e
    have hv : v.memoryOk = true := savesOk_saves h v (List.mem_of_find?_eq_some e)
    refine Out.keeps_ite (keeps_sysDone h) ?_
    extract_lets free
    split
    · exact keeps_sysDone h
    · exact keeps_sysDone (memoryOk_restore (memoryOk_freeSaved h) hv)

end Sys2Proof.Machine
end

section
/-! PROOF. What keeps every memory canonical: scheduling and partitions. -/

namespace Sys2Proof.Machine

open Sys2Proof State

theorem keeps_execLongLatencyComplete {x} {s : State} (h : s.memoryOk = true) : (execLongLatencyComplete x s).Keeps :=
  Out.keeps_next (memoryOk_landClosed (memoryOk_modHart h))

theorem keeps_execWatchdogExpire {core slot} {s : State} (h : s.memoryOk = true) : (execWatchdogExpire core slot s).Keeps :=
  Out.keeps_ite (Out.keeps_next (memoryOk_watchdogTrap h)) (Out.keeps_next h)

theorem keeps_execMissQueueAdmit {cluster} {s : State} (h : s.memoryOk = true) : (execMissQueueAdmit cluster s).Keeps := by
  unfold execMissQueueAdmit
  extract_lets k₁
  split
  · exact Out.keeps_next h
  · extract_lets gone₁
    have hgone₁ : gone₁.memoryOk = true := memoryOk_setCluster h (wf_cluster h)
    split
    · exact Out.keeps_next hgone₁
    · split
      · exact Out.keeps_next (memoryOk_joinMiss hgone₁)
      · exact Out.keeps_next (memoryOk_admitMiss h)

theorem State.memoryOk_forStream {s : State} {x f} (h : s.memoryOk = true)
    (hf : ∀ (a : State), a.memoryOk = true → (f a).Keeps) : (s.forStream x f).memoryOk = true := by
  unfold State.forStream
  split
  · rename_i _ _ s₁ e₁
    have h₁ : s₁.memoryOk = true := Res.memoryOk_of_ok e₁ (hf _ h)
    exact h₁
  · exact memoryOk_ite h h

theorem keeps_execStreamFill {x r} {s : State} (h : s.memoryOk = true) : (execStreamFill x r s).Keeps :=
  Out.keeps_next (memoryOk_forStream h (fun _ h₁ => keeps_fillStream h₁))

theorem keeps_execStreamDrain {x r} {s : State} (h : s.memoryOk = true) : (execStreamDrain x r s).Keeps :=
  Out.keeps_next (memoryOk_forStream h (fun _ h₁ => keeps_drainStream h₁))

theorem keeps_execTimeSliceEnd {part} {s : State} (h : s.memoryOk = true) : (execTimeSliceEnd part s).Keeps := by
  unfold execTimeSliceEnd
  split
  · exact Out.keeps_next h
  · rename_i _ c₁ e₁
    have h₁ := Table.all_find e₁ (all_partitions h)
    exact Out.keeps_ite (Out.keeps_next (memoryOk_await h)) (Out.keeps_ite (Out.keeps_next (memoryOk_setPartition h h₁))
      (Out.keeps_next h))

theorem State.memoryOk_retryWaiting {ex} {s : State} (hex : KeepsAll ex) (h : s.memoryOk = true) :
    (State.retryWaiting ex s).memoryOk = true := by
  unfold State.retryWaiting
  refine memoryOk_foldl h (fun _ _ h₁ => ?_)
  split
  · rename_i _ s₂ e₁
    exact Out.memoryOk_of_next e₁ (hex _ h₁)
  · exact h₁

theorem State.memoryOk_unitTurn {ex} {s : State} {c} (hex : KeepsAll ex) (h : s.memoryOk = true) :
    (State.unitTurn ex s c).memoryOk = true := by
  unfold State.unitTurn
  extract_lets s₁
  have hs₁ : s₁.memoryOk = true := memoryOk_ite (memoryOk_retryWaiting hex h) h
  refine memoryOk_foldl hs₁ (fun _ _ h₂ => ?_)
  split
  · rename_i _ s₄ e₁
    exact Out.memoryOk_of_next e₁ (hex _ h₂)
  · exact h₂

end Sys2Proof.Machine
end

section
/-! PROOF. What keeps every memory canonical: the platform and its ports. -/

namespace Sys2Proof.Machine

open Sys2Proof State

theorem State.memoryOk_setMr {s : State} {n b} (h : s.memoryOk = true) : (s.setMr n b).memoryOk = true := h

theorem State.memoryOk_extendMr {s : State} {n d} (h : s.memoryOk = true) : (s.extendMr n d).memoryOk = true := memoryOk_setMr h

theorem State.memoryOk_setBoot {s : State} {fail dies stage full} (h : s.memoryOk = true) :
    (s.setBoot fail dies stage full).memoryOk = true := h

theorem State.memoryOk_reset : State.reset.memoryOk = true := rfl

/-- What a package reset keeps of the memories: the saves. -/
theorem State.memoryOk_reboot {s : State} (h : s.memoryOk = true) : s.reboot.memoryOk = true := by
  unfold State.reboot
  extract_lets kept lost r
  have hr : r.memoryOk = true := memoryOk_reset
  refine memoryOk_mk (wf_mem hr) (all_clusters hr) (fun e he => ?_) (all_partitions hr) (all_clearings hr) (savesOk_saves h)
  obtain ⟨c, -, rfl⟩ := List.mem_map.1 he
  exact Core.memoryOk_mk Mem.wf_empty Mem.wf_empty Mem.wf_empty Mem.wf_empty

theorem keeps_execPackageReset {s : State} (h : s.memoryOk = true) : (execPackageReset s).Keeps :=
  Out.keeps_next (memoryOk_reboot h)

theorem State.memoryOk_mapLogs {s : State} {d} (h : s.memoryOk = true) : (s.mapLogs d).memoryOk = true :=
  memoryOk_foldl (memoryOk_setDie h) (fun _ _ h₁ => memoryOk_mapFor h₁)

theorem State.memoryOk_handOff {s : State} {stage b} (h : s.memoryOk = true) : (s.handOff stage b).memoryOk = true := by
  unfold State.handOff
  extract_lets d s₁ s₂ s₃ s₄
  have h₂ : s₂.memoryOk = true := memoryOk_extendMr (memoryOk_ite (memoryOk_setMr h) h)
  have h₃ : s₃.memoryOk = true := by
    unfold s₃
    clear_value s₂
    split
    · exact memoryOk_setMr (memoryOk_ite (memoryOk_of_eq h₂ rfl) h₂)
    · exact memoryOk_setMr (memoryOk_foldl h₂ fun _ _ h => memoryOk_mapLogs h)
    · refine memoryOk_mk (wf_mem h₂) (fun e he => ?_) (all_cores h₂) (all_partitions h₂) (all_clearings h₂) (savesOk_saves h₂)
      obtain ⟨k, -, rfl⟩ := List.mem_map.1 he
      exact Cluster.wf_mk (wf_cluster h₂)
    · exact h₂
  clear_value s₃
  exact memoryOk_setBoot (memoryOk_startStage (memoryOk_of_eq h₃ rfl))

theorem keeps_execBootStageHandoff {primary secondary} {s : State} (h : s.memoryOk = true) :
    (execBootStageHandoff primary secondary s).Keeps := by
  unfold execBootStageHandoff
  extract_lets stage₁ first₁
  split
  · exact Out.keeps_next h
  · split
    · exact Out.keeps_next (memoryOk_handOff h)
    · split
      · exact Out.keeps_next (memoryOk_handOff h)
      · exact Out.keeps_next (memoryOk_setBoot h)

theorem keeps_execTscFirmwareStart {x entry system} {s : State} (h : s.memoryOk = true) :
    (execTscFirmwareStart x entry system s).Keeps := by
  unfold execTscFirmwareStart
  split
  · exact Out.keeps_next h
  · extract_lets s₁ s₂
    have hs₁ : s₁.memoryOk = true := memoryOk_placeFirmware h
    have hs₂ : s₂.memoryOk = true := by
      unfold s₂
      split
      · exact memoryOk_ite hs₁ (memoryOk_setCluster hs₁ (wf_cluster hs₁))
      · exact hs₁
    exact Out.keeps_next (memoryOk_startFirmware hs₂)

theorem keeps_execMarchTestComplete {die rows unusable} {s : State} (h : s.memoryOk = true) :
    (execMarchTestComplete die rows unusable s).Keeps := by
  unfold execMarchTestComplete
  extract_lets r₁ d₁ unrep₁ sum₁ s₁ mine₁ s₂
  have hs₁ : s₁.memoryOk = true := memoryOk_setDie h
  have hs₂ : s₂.memoryOk = true := memoryOk_foldl hs₁ (fun _ _ h₁ => memoryOk_setCluster h₁ (wf_cluster h₁))
  exact Out.keeps_ite (Out.keeps_next (memoryOk_setBoot hs₂)) (Out.keeps_next (memoryOk_setBoot hs₂))

theorem keeps_execFullServiceSwitch {s : State} (h : s.memoryOk = true) : (execFullServiceSwitch s).Keeps :=
  Out.keeps_ite (Out.keeps_next h) (Out.keeps_next (memoryOk_setBoot (memoryOk_extendMr h)))

theorem keeps_execClockStepDown {milliwatts deciCelsius} {s : State} (h : s.memoryOk = true) :
    (execClockStepDown milliwatts deciCelsius s).Keeps := Out.keeps_ite (Out.keeps_next h) (Out.keeps_next h)

theorem keeps_execClockStepUp {clearMicroseconds} {s : State} (h : s.memoryOk = true) :
    (execClockStepUp clearMicroseconds s).Keeps := Out.keeps_ite (Out.keeps_next h) (Out.keeps_next h)

theorem State.memoryOk_made {s : State} {r clusters pairs} :
    (s.made r clusters pairs).memoryOk = true := Partition.memoryOk_mk Table.all_nil

theorem keeps_execPartitionCreate {record clusters} {s : State} (h : s.memoryOk = true) :
    (execPartitionCreate record clusters s).Keeps := by
  unfold execPartitionCreate
  split
  · exact Out.keeps_next (memoryOk_await h)
  · split
    · exact Out.keeps_next (memoryOk_answerWith h)
    · extract_lets q₁ s₁ s₂ s₃ s₄
      have hs₁ : s₁.memoryOk = true := memoryOk_freeSaved h
      have hs₂ : s₂.memoryOk = true := memoryOk_foldl hs₁ (fun _ _ h₁ => memoryOk_clearCluster h₁)
      have hs₃ : s₃.memoryOk = true := memoryOk_of_mem hs₂ (Mem.wf_foldl (wf_mem hs₂) (fun _ _ h₂ => Mem.wf_wipe _ _ h₂)) rfl
      have hs₄ : s₄.memoryOk = true := memoryOk_foldl hs₃ (fun _ _ h₃ => memoryOk_freshFrame h₃)
      exact Out.keeps_next (memoryOk_answerWith (memoryOk_setPartition hs₄ memoryOk_made))

theorem State.memoryOk_failUses {s : State} {gone} (h : s.memoryOk = true) : (s.failUses gone).memoryOk = true :=
  memoryOk_foldl h (fun _ _ h₁ => memoryOk_failUse h₁)

theorem State.memoryOk_stopTasks {s : State} {p} (h : s.memoryOk = true) : (s.stopTasks p).memoryOk = true :=
  memoryOk_failUses (memoryOk_foldl (memoryOk_setPartition h (memoryOk_partition h)) (fun _ _ h₁ => memoryOk_setDie h₁))

theorem State.memoryOk_destroy {s : State} {p} {q : Partition} (h : s.memoryOk = true) : (s.destroy p q).memoryOk = true := by
  unfold State.destroy
  extract_lets gone₁ s₁ s₂
  have hs₁ : s₁.memoryOk = true := memoryOk_foldl h (fun _ _ h₁ => memoryOk_clearCluster h₁)
  have hs₂ : s₂.memoryOk = true := memoryOk_mk (wf_mem hs₁) (all_clusters hs₁) (all_cores hs₁)
    (Table.all_erase (all_partitions hs₁)) (Table.all_filter (all_clearings hs₁)) (savesOk_saves hs₁)
  exact memoryOk_failUses (memoryOk_purge hs₂)

theorem keeps_execPartitionDestroy {part} {s : State} (h : s.memoryOk = true) : (execPartitionDestroy part s).Keeps := by
  unfold execPartitionDestroy
  split
  · exact Out.keeps_next (memoryOk_await h)
  · split
    · exact Out.keeps_next (memoryOk_answerWith h)
    · exact Out.keeps_ite (Out.keeps_next (memoryOk_await (memoryOk_stopTasks h)))
        (Out.keeps_next (memoryOk_answerWith (memoryOk_destroy h)))

theorem keeps_execKeySlotFree {slot} {s : State} (h : s.memoryOk = true) : (execKeySlotFree slot s).Keeps := by
  unfold execKeySlotFree
  split
  · exact Out.keeps_next (memoryOk_mk (wf_mem h) (all_clusters h) (Table.all_update (all_cores h) (fun _ _ h₁ => h₁))
      (all_partitions h) (all_clearings h) (savesOk_saves h))
  · exact Out.keeps_next h

theorem keeps_execFirmwareStage {image} {s : State} (h : s.memoryOk = true) : (execFirmwareStage image s).Keeps :=
  Out.keeps_ite (Out.keeps_next (memoryOk_await h)) (Out.keeps_ite (Out.keeps_next (memoryOk_answerWith h))
    (Out.keeps_next (memoryOk_answerWith (memoryOk_setSpare h))))

theorem keeps_execSvnRaise {stage value} {s : State} (h : s.memoryOk = true) : (execSvnRaise stage value s).Keeps :=
  Out.keeps_ite (Out.keeps_next (memoryOk_await h)) (Out.keeps_ite (Out.keeps_next (memoryOk_answerWith h))
    (Out.keeps_next (memoryOk_answerWith h)))

theorem keeps_execUpdateRequest {s : State} (h : s.memoryOk = true) : (execUpdateRequest s).Keeps :=
  Out.keeps_ite (Out.keeps_next (memoryOk_await h)) (Out.keeps_ite (Out.keeps_next h) (Out.keeps_next h))

theorem keeps_execHeartbeat {s : State} (h : s.memoryOk = true) : (execHeartbeat s).Keeps := by
  unfold execHeartbeat
  split
  · exact Out.keeps_ite (Out.keeps_next h) (Out.keeps_ite (Out.keeps_next (memoryOk_rollBack h))
      (Out.keeps_next (memoryOk_setMr h)))
  · exact Out.keeps_next h

theorem keeps_execHeartbeatTimeout {s : State} (h : s.memoryOk = true) : (execHeartbeatTimeout s).Keeps := by
  unfold execHeartbeatTimeout
  split
  · exact Out.keeps_ite (Out.keeps_next (memoryOk_rollBack h)) (Out.keeps_next h)
  · exact Out.keeps_next h

theorem keeps_portStep {op input output i queue out} {s : State} (h : s.memoryOk = true) :
    (portStep op input output i queue out s).Keeps := by
  unfold portStep
  extract_lets z wait asleep s₁ q n d off b opc len addr arg tag known block bad moves data done status c fill places t₀ counts
    t₁ t m₀ m₁ m₂
  have hz : ∀ s a n, s.memoryOk = true → (z s a n).memoryOk = true := fun _ _ _ h => memoryOk_underKey h
  have hwait : ∀ l, (wait l).Keeps := fun l =>
    Out.keeps_next (memoryOk_await (memoryOk_foldl h fun _ _ h => memoryOk_wakeDie h))
  have hs₁ : s₁.memoryOk = true := memoryOk_accessNow h
  have hb : b.memoryOk = true := hz _ _ _ (memoryOk_accessNow (hz _ _ _ hs₁))
  have ht₀ : t₀.memoryOk = true := hz _ _ _ (memoryOk_ite (hz _ _ _ (memoryOk_ite (memoryOk_accessNow hb) hb)) hb)
  have ht₁ : t₁.memoryOk = true := memoryOk_storeNow ht₀
  have ht : t.memoryOk = true := memoryOk_ite (memoryOk_answerWith ht₁) ht₁
  have hm₀ : m₀.wf = true := Mem.wf_ite (Mem.wf_storeBytes _ _ (wf_mem ht)) (wf_mem ht)
  have hm₂ : m₂.wf = true := Mem.wf_storeNat _ _ _ (Mem.wf_storeBytes _ _ hm₀)
  clear_value wait s₁ b t m₂
  exact Out.keeps_ite (hwait _) (Out.keeps_ite (Out.keeps_next hs₁) (Out.keeps_ite (hwait _)
    (Out.keeps_ite (Out.keeps_next hs₁) (Out.keeps_ite (hwait _)
      (Out.keeps_next (memoryOk_of_mem ht (Mem.wf_storeNat _ _ _ hm₂) rfl))))))

theorem keeps_execPortTransmit {queue out} {s : State} (h : s.memoryOk = true) : (execPortTransmit queue out s).Keeps :=
  keeps_portStep h

theorem keeps_execPortReceive {queue out} {s : State} (h : s.memoryOk = true) : (execPortReceive queue out s).Keeps :=
  keeps_portStep h

theorem keeps_execPortReadBlock {queue out} {s : State} (h : s.memoryOk = true) : (execPortReadBlock queue out s).Keeps :=
  keeps_portStep h

theorem keeps_execPortWriteBlock {queue out} {s : State} (h : s.memoryOk = true) : (execPortWriteBlock queue out s).Keeps :=
  keeps_portStep h

theorem keeps_execPortFlush {queue out} {s : State} (h : s.memoryOk = true) : (execPortFlush queue out s).Keeps :=
  keeps_portStep h

end Sys2Proof.Machine
end

section
/-! PROOF. What keeps every memory canonical: attestation and the key store. -/

namespace Sys2Proof.Machine

open Sys2Proof State

theorem State.memoryOk_setEndpoint {s : State} {ep x2} (h : s.memoryOk = true) : (s.setEndpoint ep x2).memoryOk = true :=
  memoryOk_ite h (memoryOk_setPartition h (memoryOk_partition h))

theorem State.memoryOk_spdmError {s : State} (h : s.memoryOk = true) : s.spdmError.memoryOk = true := memoryOk_answerWith h

theorem State.keeps_atStage {s : State} {ep ok k} (h : s.memoryOk = true) (hk : ∀ (a : Spdm), (k a).memoryOk = true) :
    (s.atStage ep ok k).Keeps := by
  unfold State.atStage
  split
  · exact Out.keeps_next h
  · exact Out.keeps_ite (Out.keeps_next (hk _)) (Out.keeps_next (memoryOk_spdmError h))

theorem State.memoryOk_answerSigned {s : State} {body nonce} (h : s.memoryOk = true) :
    (s.answerSigned body nonce).memoryOk = true := memoryOk_answerWith h

theorem keeps_execGetVersion {ep} {s : State} (h : s.memoryOk = true) : (execGetVersion ep s).Keeps :=
  keeps_atStage h (fun _ => memoryOk_answerWith (memoryOk_setEndpoint h))

theorem keeps_execGetCapabilities {ep} {s : State} (h : s.memoryOk = true) : (execGetCapabilities ep s).Keeps :=
  keeps_atStage h (fun _ => memoryOk_answerWith (memoryOk_setEndpoint h))

theorem keeps_execNegotiateAlgorithms {ep choice} {s : State} (h : s.memoryOk = true) :
    (execNegotiateAlgorithms ep choice s).Keeps := keeps_atStage h (fun _ => memoryOk_ite
      (memoryOk_answerWith (memoryOk_setEndpoint h)) (memoryOk_spdmError h))

theorem keeps_execGetDigests {ep} {s : State} (h : s.memoryOk = true) : (execGetDigests ep s).Keeps :=
  keeps_atStage h (fun _ => memoryOk_answerWith h)

theorem keeps_execGetCertificate {ep} {s : State} (h : s.memoryOk = true) : (execGetCertificate ep s).Keeps :=
  keeps_atStage h (fun _ => memoryOk_answerWith h)

theorem keeps_execChallenge {ep nonce} {s : State} (h : s.memoryOk = true) : (execChallenge ep nonce s).Keeps :=
  keeps_atStage h (fun _ => memoryOk_answerSigned h)

theorem keeps_execGetMeasurements {ep index nonce} {s : State} (h : s.memoryOk = true) :
    (execGetMeasurements ep index nonce s).Keeps := keeps_atStage h (fun _ => memoryOk_ite (memoryOk_spdmError h)
      (memoryOk_answerSigned h))

theorem keeps_execKeyExchange {ep exchange} {s : State} (h : s.memoryOk = true) : (execKeyExchange ep exchange s).Keeps :=
  keeps_atStage h (fun _ => memoryOk_answerSigned (memoryOk_setEndpoint h))

theorem keeps_execFinish {ep mac} {s : State} (h : s.memoryOk = true) : (execFinish ep mac s).Keeps := by
  unfold execFinish
  refine keeps_atStage h (fun _ => ?_)
  split
  · exact memoryOk_spdmError h
  · exact memoryOk_ite (memoryOk_answerWith (memoryOk_setEndpoint h)) (memoryOk_spdmError h)

theorem keeps_execEndSession {ep} {s : State} (h : s.memoryOk = true) : (execEndSession ep s).Keeps :=
  keeps_atStage h (fun _ => memoryOk_ite (memoryOk_answerWith (memoryOk_setEndpoint h)) (memoryOk_spdmError h))

theorem State.keeps_keyStore {s : State} {ep k} (h : s.memoryOk = true)
    (hk : ∀ q, q.memoryOk = true → (k q).memoryOk = true) : (s.keyStore ep k).Keeps :=
  keeps_atStage h fun _ => memoryOk_ite (hk _ (memoryOk_partition h)) (memoryOk_spdmError h)

theorem keeps_execKeyStoreSet {ep index p384 hss} {s : State} (h : s.memoryOk = true) :
    (execKeyStoreSet ep index p384 hss s).Keeps := by
  refine keeps_keyStore h fun q hq => ?_
  extract_lets ok
  exact memoryOk_ite (memoryOk_answerWith (memoryOk_setPartition h (Partition.memoryOk_mk (Partition.all_mailboxes hq))))
    (memoryOk_spdmError h)

theorem keeps_execKeyStoreDisable {ep index} {s : State} (h : s.memoryOk = true) : (execKeyStoreDisable ep index s).Keeps :=
  keeps_keyStore h fun _ hq => memoryOk_ite
    (memoryOk_answerWith (memoryOk_setPartition h (Partition.memoryOk_mk (Partition.all_mailboxes hq)))) (memoryOk_spdmError h)

theorem keeps_execKeyStoreStatus {ep} {s : State} (h : s.memoryOk = true) : (execKeyStoreStatus ep s).Keeps :=
  keeps_keyStore h fun _ _ => memoryOk_answerWith h

end Sys2Proof.Machine
end

section
/-! PROOF. What keeps every memory canonical: scalar instructions. -/

namespace Sys2Proof.Machine

open Sys2Proof State

theorem keeps_scalarOp {f x1} {s : State} (h : s.memoryOk = true) : (scalarOp f x1 s).Keeps :=
  keeps_guarded h (fun _ h₁ => keeps_finish (memoryOk_setS h₁))

theorem keeps_scalarLate {f cycles x2} {s : State} (h : s.memoryOk = true) : (scalarLate f cycles x2 s).Keeps :=
  keeps_guarded h (fun _ h₁ => keeps_finish (memoryOk_later h₁))

theorem keeps_scalarImm {f x1} {s : State} (h : s.memoryOk = true) : (scalarImm f x1 s).Keeps :=
  keeps_guarded h (fun _ h₁ => keeps_finish (memoryOk_setS h₁))

theorem keeps_execAdd {f} {s : State} (h : s.memoryOk = true) : (execAdd f s).Keeps := keeps_scalarOp h

theorem keeps_execAddi {f} {s : State} (h : s.memoryOk = true) : (execAddi f s).Keeps := keeps_scalarImm h

theorem keeps_execSub {f} {s : State} (h : s.memoryOk = true) : (execSub f s).Keeps := keeps_scalarOp h

theorem keeps_execMul {f} {s : State} (h : s.memoryOk = true) : (execMul f s).Keeps := keeps_scalarLate h

theorem keeps_execMulh {f} {s : State} (h : s.memoryOk = true) : (execMulh f s).Keeps := keeps_scalarLate h

theorem keeps_execDiv {f} {s : State} (h : s.memoryOk = true) : (execDiv f s).Keeps := keeps_scalarLate h

theorem keeps_execRem {f} {s : State} (h : s.memoryOk = true) : (execRem f s).Keeps := keeps_scalarLate h

theorem keeps_execAnd {f} {s : State} (h : s.memoryOk = true) : (execAnd f s).Keeps := keeps_scalarOp h

theorem keeps_execAndi {f} {s : State} (h : s.memoryOk = true) : (execAndi f s).Keeps := keeps_scalarImm h

theorem keeps_execOr {f} {s : State} (h : s.memoryOk = true) : (execOr f s).Keeps := keeps_scalarOp h

theorem keeps_execOri {f} {s : State} (h : s.memoryOk = true) : (execOri f s).Keeps := keeps_scalarImm h

theorem keeps_execXor {f} {s : State} (h : s.memoryOk = true) : (execXor f s).Keeps := keeps_scalarOp h

theorem keeps_execXori {f} {s : State} (h : s.memoryOk = true) : (execXori f s).Keeps := keeps_scalarImm h

theorem keeps_execShl {f} {s : State} (h : s.memoryOk = true) : (execShl f s).Keeps := keeps_scalarOp h

theorem keeps_execShli {f} {s : State} (h : s.memoryOk = true) : (execShli f s).Keeps := keeps_scalarImm h

theorem keeps_execShr {f} {s : State} (h : s.memoryOk = true) : (execShr f s).Keeps := keeps_scalarOp h

theorem keeps_execShri {f} {s : State} (h : s.memoryOk = true) : (execShri f s).Keeps := keeps_scalarImm h

theorem keeps_execSra {f} {s : State} (h : s.memoryOk = true) : (execSra f s).Keeps := keeps_scalarOp h

theorem keeps_execSrai {f} {s : State} (h : s.memoryOk = true) : (execSrai f s).Keeps := keeps_scalarImm h

theorem keeps_execMin {f} {s : State} (h : s.memoryOk = true) : (execMin f s).Keeps := keeps_scalarOp h

theorem keeps_execMax {f} {s : State} (h : s.memoryOk = true) : (execMax f s).Keeps := keeps_scalarOp h

theorem keeps_execClz {f} {s : State} (h : s.memoryOk = true) : (execClz f s).Keeps := keeps_scalarOp h

theorem keeps_execCtz {f} {s : State} (h : s.memoryOk = true) : (execCtz f s).Keeps := keeps_scalarOp h

theorem keeps_execPopc {f} {s : State} (h : s.memoryOk = true) : (execPopc f s).Keeps := keeps_scalarOp h

theorem keeps_execCset {f} {s : State} (h : s.memoryOk = true) : (execCset f s).Keeps :=
  keeps_guarded h (fun _ h₁ => keeps_finish (memoryOk_setS h₁))

theorem State.memoryOk_writeGuard {s : State} {d x2} (h : s.memoryOk = true) : (s.writeGuard d x2).memoryOk = true :=
  memoryOk_modMe h

theorem keeps_execGset {f} {s : State} (h : s.memoryOk = true) : (execGset f s).Keeps :=
  keeps_guarded h (fun _ h₁ => keeps_finish (memoryOk_writeGuard h₁))

theorem keeps_execGclr {f} {s : State} (h : s.memoryOk = true) : (execGclr f s).Keeps :=
  keeps_guarded h (fun _ h₁ => keeps_finish (memoryOk_writeGuard h₁))

theorem keeps_execCsel {f} {s : State} (h : s.memoryOk = true) : (execCsel f s).Keeps :=
  keeps_guarded h (fun _ h₁ => keeps_finish (memoryOk_setS h₁))

theorem keeps_execBext {f} {s : State} (h : s.memoryOk = true) : (execBext f s).Keeps :=
  keeps_guarded h (fun _ h₁ => keeps_finish (memoryOk_setS h₁))

theorem keeps_execBins {f} {s : State} (h : s.memoryOk = true) : (execBins f s).Keeps :=
  keeps_guarded h (fun _ h₁ => keeps_finish (memoryOk_setS h₁))

theorem keeps_execLi {f} {s : State} (h : s.memoryOk = true) : (execLi f s).Keeps :=
  keeps_guarded h (fun _ h₁ => keeps_finish (memoryOk_setS h₁))

theorem keeps_execLih {f} {s : State} (h : s.memoryOk = true) : (execLih f s).Keeps :=
  keeps_guarded h (fun _ h₁ => keeps_finish (memoryOk_setS h₁))

theorem keeps_execAddpc {f} {s : State} (h : s.memoryOk = true) : (execAddpc f s).Keeps :=
  keeps_guarded h (fun _ h₁ => keeps_finish (memoryOk_setS h₁))

end Sys2Proof.Machine
end

section
/-! PROOF. What keeps every memory canonical: view instructions. -/

namespace Sys2Proof.Machine

open Sys2Proof State

theorem keeps_execWset {f} {s : State} (h : s.memoryOk = true) : (execWset f s).Keeps :=
  keeps_guarded h (fun _ h₁ => Res.keeps_run (keeps_check h₁) (fun _ _ h₂ => keeps_finish (memoryOk_setW h₂)))

theorem keeps_execWsetDim {f} {s : State} (h : s.memoryOk = true) : (execWsetDim f s).Keeps :=
  keeps_guarded h (fun _ h₁ => Res.keeps_run (keeps_check h₁) (fun _ _ h₂ => keeps_finish (memoryOk_setW h₂)))

theorem keeps_execWsetScl {f} {s : State} (h : s.memoryOk = true) : (execWsetScl f s).Keeps :=
  keeps_guarded h (fun _ h₁ => Res.keeps_run (keeps_check h₁) (fun _ _ h₂ => keeps_finish (memoryOk_setW h₂)))

theorem keeps_execWsetSreg {f} {s : State} (h : s.memoryOk = true) : (execWsetSreg f s).Keeps :=
  keeps_guarded h (fun _ h₁ => Res.keeps_run (keeps_check h₁) (fun _ _ h₂ => keeps_finish (memoryOk_setW (memoryOk_free h₂))))

theorem State.memoryOk_enterView {s : State} {d v mode scope} (h : s.memoryOk = true) :
    (s.enterView d v mode scope).memoryOk = true := memoryOk_setW (memoryOk_ite (memoryOk_setCluster h (wf_myCluster h)) h)

theorem Core.memoryOk_of_openS {k l : Core} {h name size offset} (e : k.openS h name size = .held offset l)
    (hk : k.memoryOk = true) : l.memoryOk = true := by
  unfold Core.openS at e
  split at e
  · split at e
    · exact nomatch e
    · split at e
      · exact nomatch e
      · injection e with _ e
        exact e ▸ hk
  · split at e
    · exact nomatch e
    · split at e
      · exact nomatch e
      · injection e with _ e
        exact e ▸ Core.memoryOk_mk (Core.wf_w hk) (Core.wf_a hk) (Core.wf_c hk) (Mem.wf_store _ (Core.wf_sbuf hk))

theorem keeps_execWopen {f} {s : State} (h : s.memoryOk = true) : (execWopen f s).Keeps := by
  refine keeps_guarded h fun s h => ?_
  extract_lets v
  refine Res.keeps_run (keeps_check h) fun _ s h => ?_
  split
  · exact Res.keeps_run (keeps_checkView h) fun _ _ h => keeps_finish (memoryOk_enterView h)
  · refine Res.keeps_run (keeps_checkView h) fun _ s h => Res.keeps_run (keeps_check h) fun _ s h =>
      Res.keeps_run (keeps_useBank h) fun _ s h => ?_
    split
    · exact keeps_finish h
    · exact Out.keeps_next (memoryOk_raise h)
    · rename_i e
      extract_lets grown s₁ s₂
      have h₁ : s₁.memoryOk = true := memoryOk_setMyCore h (Core.memoryOk_of_openS e (memoryOk_myCore h))
      exact keeps_finish (memoryOk_enterView (memoryOk_ite (memoryOk_reclaim h₁) h₁))

theorem State.memoryOk_endStream {s : State} {i} (h : s.memoryOk = true) : (s.endStream i).memoryOk = true := by
  unfold State.endStream
  split
  · exact h
  · exact memoryOk_modMe h

theorem State.memoryOk_retireStream {s : State} {w} (h : s.memoryOk = true) : (s.retireStream w).memoryOk = true := by
  unfold State.retireStream
  split
  · exact h
  · exact memoryOk_modMe h

theorem State.memoryOk_dropView {s : State} {d} (h : s.memoryOk = true) : (s.dropView d).memoryOk = true :=
  memoryOk_setW (memoryOk_setCluster (memoryOk_retireStream h) (wf_myCluster (memoryOk_retireStream h)))

theorem State.memoryOk_leaveRegion {s : State} {name free} (h : s.memoryOk = true) :
    (s.leaveRegion name free).memoryOk = true := memoryOk_setMyCore h (memoryOk_myCore h)

theorem keeps_execWretire {f} {s : State} (h : s.memoryOk = true) : (execWretire f s).Keeps := by
  unfold execWretire
  refine keeps_guarded h (fun _ h₁ => ?_)
  extract_lets v₁
  split
  · exact keeps_finish (memoryOk_endRegion h₁)
  · refine Res.keeps_run (keeps_check h₁) (fun _ _ h₂ => ?_)
    split
    · exact Out.keeps_next (memoryOk_stall h₂)
    · refine Res.keeps_run ?_ (fun _ _ h₄ => ?_)
      · split
        · exact Res.keeps_ok h₂
        · exact Res.keeps_bind (keeps_flushStream h₂) (fun _ _ h₃ => Res.keeps_ok (memoryOk_endStream h₃))
      · refine Res.keeps_run (keeps_publish h₄) (fun _ _ h₅ => ?_)
        extract_lets s₆
        have hs₆ : s₆.memoryOk = true := by
          unfold s₆
          split
          · exact memoryOk_leaveRegion h₅
          · exact h₅
        exact keeps_finish (memoryOk_endRegion (memoryOk_dropView hs₆))

theorem keeps_execWbind {f} {s : State} (h : s.memoryOk = true) : (execWbind f s).Keeps :=
  keeps_guarded h (fun _ h₁ => Res.keeps_run (keeps_check h₁) (fun _ _ h₂ => keeps_finish (memoryOk_modMe (memoryOk_setW h₂))))

theorem keeps_execWeos {f} {s : State} (h : s.memoryOk = true) : (execWeos f s).Keeps :=
  keeps_guarded h (fun _ h₁ => keeps_finish (memoryOk_endStream h₁))

theorem keeps_execWunbind {f} {s : State} (h : s.memoryOk = true) : (execWunbind f s).Keeps := by
  unfold execWunbind
  refine keeps_guarded h (fun _ h₁ => ?_)
  extract_lets i₁
  split
  · exact keeps_finish h₁
  · exact Res.keeps_run (keeps_flushStream h₁) (fun _ _ h₂ => keeps_finish
      (memoryOk_modMe (memoryOk_ite (memoryOk_setW h₂) h₂)))

theorem keeps_execWsub {f} {s : State} (h : s.memoryOk = true) : (execWsub f s).Keeps :=
  keeps_guarded h (fun _ h₁ => Res.keeps_run (keeps_check h₁) (fun _ _ h₂ => keeps_finish (memoryOk_setW h₂)))

theorem keeps_execWtest {f} {s : State} (h : s.memoryOk = true) : (execWtest f s).Keeps :=
  keeps_guarded h (fun _ h₁ => keeps_finish (memoryOk_setS h₁))

end Sys2Proof.Machine
end

section
/-! PROOF. What keeps every memory canonical: issue and the turns of agents. -/

namespace Sys2Proof.Machine

open Sys2Proof State

theorem State.memoryOk_settle {s : State} (h : s.memoryOk = true) : s.settle.memoryOk = true :=
  memoryOk_landClosed (memoryOk_modMe h)

theorem State.keeps_beginRegion {s : State} (h : s.memoryOk = true) : s.beginRegion.Keeps :=
  Res.keeps_ite (Res.keeps_ok h) (Res.keeps_ite (Res.keeps_stop (memoryOk_stall h)) (Res.keeps_ok (memoryOk_modMe h)))

theorem State.keeps_windowOver {s : State} (h : s.memoryOk = true) : s.windowOver.Keeps :=
  Res.keeps_ite (Res.keeps_stop (memoryOk_stall h)) (Res.keeps_ok h)

theorem State.memoryOk_registerPoison {s : State} {checkpoint} (h : s.memoryOk = true) :
    (s.registerPoison checkpoint).memoryOk = true := memoryOk_ite (memoryOk_raise (memoryOk_ite (memoryOk_logBad h) h))
      (memoryOk_parkReady (memoryOk_ite (memoryOk_logBad h) h))

theorem State.keeps_checkRegisters {s : State} {word} (h : s.memoryOk = true) : (s.checkRegisters word).Keeps :=
  Res.keeps_ite (Res.keeps_ok h) (Res.keeps_ite (Res.keeps_stop (memoryOk_registerPoison h))
    (Res.keeps_ite (Res.keeps_stop (memoryOk_parking (memoryOk_modMe h)
      (fun _ h₁ => memoryOk_registerPoison (memoryOk_modMe h₁)))) (Res.keeps_ok h)))

theorem State.keeps_checkBlock {s : State} {signed w} (h : s.memoryOk = true) : (s.checkBlock signed w).Keeps :=
  Res.keeps_ite (Res.keeps_ok h) (Res.keeps_ite (Res.keeps_ite (Res.keeps_stop (memoryOk_stall (memoryOk_wakeFor h)))
    (Res.keeps_stop (memoryOk_mismatch h))) (Res.keeps_ok (memoryOk_modMe h)))

theorem keeps_runInstr {ex i word} {s : State} (hex : KeepsAll ex) (h : s.memoryOk = true) : (runInstr ex i word s).Keeps := by
  unfold runInstr
  split
  · rename_i _ s₁ e₁
    have h₁ : s₁.memoryOk = true := Out.memoryOk_of_next e₁ (hex _ (memoryOk_modMe h))
    exact Out.keeps_next (memoryOk_ite (memoryOk_modHart h₁) h₁)
  · exact hex _ (memoryOk_modMe h)

theorem keeps_issueWord {ex word} {s : State} (hex : KeepsAll ex) (h : s.memoryOk = true) : (issueWord ex word s).Keeps := by
  unfold issueWord
  split
  · exact Out.keeps_next (memoryOk_raise h)
  · exact Res.keeps_run (Res.keeps_ite (Res.keeps_ok h) (keeps_checkRegisters h))
      (fun _ _ h₁ => keeps_runInstr hex h₁)

theorem keeps_fetchAndRun {ex} {s : State} (hex : KeepsAll ex) (h : s.memoryOk = true) : (fetchAndRun ex s).Keeps := by
  unfold fetchAndRun
  extract_lets note₁ first₁ held₁
  split
  · exact Out.keeps_next (memoryOk_raiseAt h)
  · split
    · exact keeps_issueWord hex (memoryOk_modMe (memoryOk_modMe h))
    · exact Res.keeps_run (keeps_checkBlock (memoryOk_modMe h)) (fun _ _ h₂ => keeps_issueWord hex h₂)
    · exact Res.keeps_run (keeps_fetchWord (memoryOk_modMe h)) (fun _ _ h₄ => Res.keeps_run
        (keeps_checkBlock (memoryOk_modMe h₄)) (fun _ _ h₅ => keeps_issueWord hex h₅))

theorem keeps_attempt {ex id} {s : State} (hex : KeepsAll ex) (h : s.memoryOk = true) : (attempt ex id s).Keeps := by
  unfold attempt
  extract_lets s₁
  have hs₁ : s₁.memoryOk = true := memoryOk_modMe h
  exact Out.keeps_ite (Out.keeps_next (memoryOk_takeVerdict hs₁)) (Res.keeps_run (keeps_beginRegion (memoryOk_settle hs₁))
    (fun _ _ h₁ => Res.keeps_run (keeps_windowOver h₁) (fun _ _ h₂ => keeps_fetchAndRun hex h₂)))

theorem keeps_trySlots {ex c l} {s : State} (hex : KeepsAll ex) (h : s.memoryOk = true) : (trySlots ex c l s).Keeps := by
  induction l generalizing s with
  | nil => exact Out.keeps_next h
  | cons n t ih =>
    unfold trySlots
    extract_lets id
    refine Out.keeps_ite (ih h) (Out.keeps_ite (ih (memoryOk_watchdogTrap h)) ?_)
    split
    · rename_i u e
      have hu : u.memoryOk = true := Out.memoryOk_of_next e (keeps_attempt hex h)
      exact Out.keeps_ite (ih hu) (Out.keeps_next (memoryOk_setCore hu (Core.memoryOk_issued (memoryOk_core hu))))
    · exact keeps_attempt hex h

theorem State.memoryOk_endCycle {s : State} {id} (h : s.memoryOk = true) : (s.endCycle id).memoryOk = true :=
  memoryOk_ite h (memoryOk_ite (memoryOk_resolveGuards h) (memoryOk_modHart (memoryOk_resolveGuards h)))

theorem keeps_coreTurn {ex c} {s : State} (hex : KeepsAll ex) (h : s.memoryOk = true) : (coreTurn ex c s).Keeps := by
  unfold coreTurn
  split
  · rename_i _ s₁ e₁
    have h₂ : s₁.memoryOk = true := Out.memoryOk_of_next e₁ (keeps_trySlots hex h)
    exact Out.keeps_next (memoryOk_foldl h₂ (fun _ _ h₃ => memoryOk_endCycle h₃))
  · exact keeps_trySlots hex h

theorem keeps_firmwareTurn {ex id} {s : State} (hex : KeepsAll ex) (h : s.memoryOk = true) : (firmwareTurn ex id s).Keeps := by
  unfold firmwareTurn
  split
  · exact Out.keeps_next h
  · split
    · rename_i _ s₁ e₁
      have h₂ : s₁.memoryOk = true := Out.memoryOk_of_next e₁ (keeps_attempt hex h)
      exact Out.keeps_next (memoryOk_resolveGuards h₂)
    · exact keeps_attempt hex h

theorem keeps_clearingTurn {ex k} {s : State} (hex : KeepsAll ex) (h : s.memoryOk = true) : (clearingTurn ex k s).Keeps := by
  unfold clearingTurn
  split
  · exact Out.keeps_next h
  · rename_i _ c₁ e₁
    have h₁ := Table.all_find e₁ (all_clearings h)
    extract_lets s₁ s₂
    have hs₁ : s₁.memoryOk = true := h
    have hs₂ : s₂.memoryOk = true := memoryOk_setHere hs₁ h₁
    split
    · exact Out.keeps_next hs₁
    · split
      · exact keeps_execBudgetExhausted hs₁
      · split
        · exact hex _ hs₂
        · exact Out.keeps_next (memoryOk_abortTranslation hs₂)

theorem State.memoryOk_passTurn {s : State} (h : s.memoryOk = true) : s.passTurn.memoryOk = true := by
  unfold State.passTurn
  split <;> exact h

theorem keeps_takeTurn {ex} {s : State} (hex : KeepsAll ex) (h : s.memoryOk = true) : (takeTurn ex s).Keeps := by
  unfold takeTurn
  extract_lets s₁
  have hs₁ : s₁.memoryOk = true := memoryOk_arrayErrors h
  split
  · exact keeps_coreTurn hex hs₁
  · exact Out.keeps_next (memoryOk_unitTurn hex hs₁)
  · exact keeps_firmwareTurn hex hs₁
  · exact keeps_firmwareTurn hex hs₁
  · exact keeps_clearingTurn hex hs₁

theorem keeps_runTurn {ex} {s : State} (hex : KeepsAll ex) (h : s.memoryOk = true) : (runTurn ex s).Keeps := by
  unfold runTurn
  split
  · exact Out.keeps_fault
  · split
    · rename_i _ s₁ e₁
      have h₂ : s₁.memoryOk = true := Out.memoryOk_of_next e₁ (keeps_takeTurn hex h)
      exact Out.keeps_next (memoryOk_passTurn h₂)
    · exact keeps_takeTurn hex h

theorem keeps_runNext {ex} {s : State} (hex : KeepsAll ex) (h : s.memoryOk = true) : (runNext ex s).Keeps := by
  unfold runNext
  split
  · exact keeps_runTurn hex h
  · exact Out.keeps_ite (hex _ h) Out.keeps_refused

end Sys2Proof.Machine
end

section
/-! PROOF. What keeps every memory canonical: one step. -/

namespace Sys2Proof.Machine

open Sys2Proof State

theorem keeps_exec {i} {s : State} (h : s.memoryOk = true) : Out.Keeps (exec i s) := by
  cases i with
  | add _ => exact keeps_execAdd h
  | addi _ => exact keeps_execAddi h
  | sub _ => exact keeps_execSub h
  | mul _ => exact keeps_execMul h
  | mulh _ => exact keeps_execMulh h
  | div _ => exact keeps_execDiv h
  | rem _ => exact keeps_execRem h
  | and _ => exact keeps_execAnd h
  | andi _ => exact keeps_execAndi h
  | or _ => exact keeps_execOr h
  | ori _ => exact keeps_execOri h
  | xor _ => exact keeps_execXor h
  | xori _ => exact keeps_execXori h
  | shl _ => exact keeps_execShl h
  | shli _ => exact keeps_execShli h
  | shr _ => exact keeps_execShr h
  | shri _ => exact keeps_execShri h
  | sra _ => exact keeps_execSra h
  | srai _ => exact keeps_execSrai h
  | min _ => exact keeps_execMin h
  | max _ => exact keeps_execMax h
  | cset _ => exact keeps_execCset h
  | csel _ => exact keeps_execCsel h
  | clz _ => exact keeps_execClz h
  | ctz _ => exact keeps_execCtz h
  | popc _ => exact keeps_execPopc h
  | bext _ => exact keeps_execBext h
  | bins _ => exact keeps_execBins h
  | li _ => exact keeps_execLi h
  | lih _ => exact keeps_execLih h
  | addpc _ => exact keeps_execAddpc h
  | br _ => exact keeps_execBr h
  | jmp _ => exact keeps_execJmp h
  | jr _ => exact keeps_execJr h
  | call _ => exact keeps_execCall h
  | callr _ => exact keeps_execCallr h
  | rep _ => exact keeps_execRep h
  | gset _ => exact keeps_execGset h
  | gclr _ => exact keeps_execGclr h
  | rgn _ => exact keeps_execRgn h
  | taskEnd _ => exact keeps_execTaskEnd h
  | nop _ => exact keeps_execNop h
  | brk _ => exact keeps_execBrk h
  | ld _ => exact keeps_execLd h
  | st _ => exact keeps_execSt h
  | wld _ => exact keeps_execWld h
  | wst _ => exact keeps_execWst h
  | pf _ => exact keeps_execPf h
  | bld _ => exact keeps_execBld h
  | bst _ => exact keeps_execBst h
  | cln _ => exact keeps_execCln h
  | amo _ => exact keeps_execAmo h
  | cas _ => exact keeps_execCas h
  | cas2 _ => exact keeps_execCas2 h
  | fence _ => exact keeps_execFence h
  | barr _ => exact keeps_execBarr h
  | wfv _ => exact keeps_execWfv h
  | vadd _ => exact keeps_execVadd h
  | vsub _ => exact keeps_execVsub h
  | vmul _ => exact keeps_execVmul h
  | vfma _ => exact keeps_execVfma h
  | vfms _ => exact keeps_execVfms h
  | vmin _ => exact keeps_execVmin h
  | vmax _ => exact keeps_execVmax h
  | vabs _ => exact keeps_execVabs h
  | vneg _ => exact keeps_execVneg h
  | vand _ => exact keeps_execVand h
  | vor _ => exact keeps_execVor h
  | vxor _ => exact keeps_execVxor h
  | vshl _ => exact keeps_execVshl h
  | vshr _ => exact keeps_execVshr h
  | vsra _ => exact keeps_execVsra h
  | vcmp _ => exact keeps_execVcmp h
  | vsel _ => exact keeps_execVsel h
  | vcvt _ => exact keeps_execVcvt h
  | vred _ => exact keeps_execVred h
  | vscan _ => exact keeps_execVscan h
  | vperm _ => exact keeps_execVperm h
  | vperm2 _ => exact keeps_execVperm2 h
  | vbcast _ => exact keeps_execVbcast h
  | vext _ => exact keeps_execVext h
  | vins _ => exact keeps_execVins h
  | vrcp _ => exact keeps_execVrcp h
  | vrsqrt _ => exact keeps_execVrsqrt h
  | vexp2 _ => exact keeps_execVexp2 h
  | vlog2 _ => exact keeps_execVlog2 h
  | vsqrt _ => exact keeps_execVsqrt h
  | vdiv _ => exact keeps_execVdiv h
  | vdot _ => exact keeps_execVdot h
  | vmov _ => exact keeps_execVmov h
  | vld _ => exact keeps_execVld h
  | vst _ => exact keeps_execVst h
  | vgath _ => exact keeps_execVgath h
  | vscat _ => exact keeps_execVscat h
  | vbld _ => exact keeps_execVbld h
  | vbst _ => exact keeps_execVbst h
  | kop _ => exact keeps_execKop h
  | vclass _ => exact keeps_execVclass h
  | vwld _ => exact keeps_execVwld h
  | vwst _ => exact keeps_execVwst h
  | tcfg _ => exact keeps_execTcfg h
  | tcfgGet _ => exact keeps_execTcfgGet h
  | tclaim _ => exact keeps_execTclaim h
  | tfree _ => exact keeps_execTfree h
  | tld _ => exact keeps_execTld h
  | tst _ => exact keeps_execTst h
  | tzero _ => exact keeps_execTzero h
  | mma _ => exact keeps_execMma h
  | mmg _ => exact keeps_execMmg h
  | dmma _ => exact keeps_execDmma h
  | tscl _ => exact keeps_execTscl h
  | ttr _ => exact keeps_execTtr h
  | cread _ => exact keeps_execCread h
  | wset _ => exact keeps_execWset h
  | wsetDim _ => exact keeps_execWsetDim h
  | wsetScl _ => exact keeps_execWsetScl h
  | wsetSreg _ => exact keeps_execWsetSreg h
  | wopen _ => exact keeps_execWopen h
  | wretire _ => exact keeps_execWretire h
  | wbind _ => exact keeps_execWbind h
  | wunbind _ => exact keeps_execWunbind h
  | weos _ => exact keeps_execWeos h
  | wsub _ => exact keeps_execWsub h
  | wtest _ => exact keeps_execWtest h
  | cpy _ => exact keeps_execCpy h
  | cpys _ => exact keeps_execCpys h
  | coll _ => exact keeps_execColl h
  | twany _ => exact keeps_execTwany h
  | twall _ => exact keeps_execTwall h
  | tfirst _ => exact keeps_execTfirst h
  | tclr _ => exact keeps_execTclr h
  | cfill _ => exact keeps_execCfill h
  | fork _ => exact keeps_execFork h
  | forkc _ => exact keeps_execForkc h
  | forkg _ => exact keeps_execForkg h
  | join _ => exact keeps_execJoin h
  | send _ => exact keeps_execSend h
  | spawn _ => exact keeps_execSpawn h
  | qinfo _ => exact keeps_execQinfo h
  | trap _ => exact keeps_execTrap h
  | ctrlr _ => exact keeps_execCtrlr h
  | ctrlw _ => exact keeps_execCtrlw h
  | vxfAccess _ _ => exact keeps_execVxfAccess h
  | quotaWrite _ => exact keeps_execQuotaWrite h
  | tretTake _ => exact keeps_execTretTake h
  | tretDefer _ => exact keeps_execTretDefer h
  | tretTerm _ => exact keeps_execTretTerm h
  | tretRelease _ => exact keeps_execTretRelease h
  | tlbw _ => exact keeps_execTlbw h
  | tlbiPage _ => exact keeps_execTlbiPage h
  | tlbiAsid _ => exact keeps_execTlbiAsid h
  | tlbiAll _ => exact keeps_execTlbiAll h
  | mbind _ => exact keeps_execMbind h
  | mbindUn _ => exact keeps_execMbindUn h
  | qsave _ => exact keeps_execQsave h
  | qrest _ => exact keeps_execQrest h
  | reprwGet _ => exact keeps_execReprwGet h
  | reprwAdd _ => exact keeps_execReprwAdd h
  | reprwApply _ => exact keeps_execReprwApply h
  | reprwClr _ => exact keeps_execReprwClr h
  | reprwSum _ => exact keeps_execReprwSum h
  | halt _ => exact keeps_execHalt h
  | cinvI _ => exact keeps_execCinvI h
  | cinvD _ => exact keeps_execCinvD h
  | msHalt f => exact keeps_execMsHalt (f := f) h
  | msLdi _ => exact keeps_execMsLdi h
  | msLdh _ => exact keeps_execMsLdh h
  | msMov _ => exact keeps_execMsMov h
  | msAdd _ => exact keeps_execMsAdd h
  | msAddi _ => exact keeps_execMsAddi h
  | msSub _ => exact keeps_execMsSub h
  | msAnd _ => exact keeps_execMsAnd h
  | msOr _ => exact keeps_execMsOr h
  | msXor _ => exact keeps_execMsXor h
  | msShl _ => exact keeps_execMsShl h
  | msShr _ => exact keeps_execMsShr h
  | msInb _ => exact keeps_execMsInb h
  | msInw _ => exact keeps_execMsInw h
  | msLds _ => exact keeps_execMsLds h
  | msSts _ => exact keeps_execMsSts h
  | msBeq _ => exact keeps_execMsBeq h
  | msBne _ => exact keeps_execMsBne h
  | msBlt _ => exact keeps_execMsBlt h
  | msJmp _ => exact keeps_execMsJmp h
  | msWay _ => exact keeps_execMsWay h
  | msEmit _ => exact keeps_execMsEmit h
  | budgetExhausted _ => exact keeps_execBudgetExhausted h
  | loadRequest _ _ _ => exact keeps_execLoadRequest h
  | cairnWaitResolve _ _ => exact keeps_execCairnWaitResolve h
  | pageHashCheck _ _ _ => exact keeps_execPageHashCheck h
  | revocationNotice _ _ => exact keeps_execRevocationNotice h
  | hostWindowRead _ _ _ _ => exact keeps_execHostWindowRead h
  | hostWindowWrite _ _ _ _ => exact keeps_execHostWindowWrite h
  | mailboxSlotWrite _ _ _ _ _ => exact keeps_execMailboxSlotWrite h
  | mailboxSlotRead _ _ _ _ _ => exact keeps_execMailboxSlotRead h
  | doorbellWrite _ _ _ _ _ => exact keeps_execDoorbellWrite h
  | mailboxFault _ _ => exact keeps_execMailboxFault h
  | heldSlotPush _ => exact keeps_execHeldSlotPush h
  | taskStart _ _ => exact keeps_execTaskStart h
  | gangPlace _ => exact keeps_execGangPlace h
  | taskReplay _ _ => exact keeps_execTaskReplay h
  | instructionCacheFill _ => exact keeps_execInstructionCacheFill h
  | longLatencyComplete _ => exact keeps_execLongLatencyComplete h
  | guardResolve _ => exact keeps_execGuardResolve h
  | storeDrain _ => exact keeps_execStoreDrain h
  | watchdogExpire _ _ => exact keeps_execWatchdogExpire h
  | missQueueAdmit _ => exact keeps_execMissQueueAdmit h
  | counterDecrementPerform _ => exact keeps_execCounterDecrementPerform h
  | launchCompletionRetry _ _ => exact keeps_execLaunchCompletionRetry h
  | matrixSliceStart _ => exact keeps_execMatrixSliceStart h
  | tileClaimGrant _ => exact keeps_execTileClaimGrant h
  | gangwaitExpire _ => exact keeps_execGangwaitExpire h
  | commandKick _ => exact keeps_execCommandKick h
  | granuleComplete _ _ => exact keeps_execGranuleComplete h
  | completionMessageRetry _ _ => exact keeps_execCompletionMessageRetry h
  | streamFill _ _ => exact keeps_execStreamFill h
  | streamDrain _ _ => exact keeps_execStreamDrain h
  | retentionEnter _ => exact keeps_execRetentionEnter h
  | retentionEntryDone _ => exact keeps_execRetentionEntryDone h
  | retentionExitDone _ _ _ => exact keeps_execRetentionExitDone h
  | histogramFlush _ => exact keeps_execHistogramFlush h
  | timeSliceEnd _ => exact keeps_execTimeSliceEnd h
  | serviceMessageArrival _ _ _ => exact keeps_execServiceMessageArrival h
  | retirementRequest _ => exact keeps_execRetirementRequest h
  | retirementCancel _ => exact keeps_execRetirementCancel h
  | sweepStart => exact keeps_execSweepStart h
  | retirementCommit => exact keeps_execRetirementCommit h
  | sweepPause => exact keeps_execSweepPause h
  | sweepResume => exact keeps_execSweepResume h
  | sweepLineCopy => exact keeps_execSweepLineCopy h
  | sweepUnitComplete => exact keeps_execSweepUnitComplete h
  | requestReplay => exact keeps_execRequestReplay h
  | packageReset => exact keeps_execPackageReset h
  | bootStageHandoff _ _ => exact keeps_execBootStageHandoff h
  | marchTestComplete _ _ _ => exact keeps_execMarchTestComplete h
  | fullServiceSwitch => exact keeps_execFullServiceSwitch h
  | clockStepDown _ _ => exact keeps_execClockStepDown h
  | clockStepUp _ => exact keeps_execClockStepUp h
  | partitionCreate _ _ => exact keeps_execPartitionCreate h
  | partitionDestroy _ => exact keeps_execPartitionDestroy h
  | keySlotFree _ => exact keeps_execKeySlotFree h
  | firmwareStage _ => exact keeps_execFirmwareStage h
  | svnRaise _ _ => exact keeps_execSvnRaise h
  | updateRequest => exact keeps_execUpdateRequest h
  | heartbeat => exact keeps_execHeartbeat h
  | heartbeatTimeout => exact keeps_execHeartbeatTimeout h
  | getVersion _ => exact keeps_execGetVersion h
  | getCapabilities _ => exact keeps_execGetCapabilities h
  | negotiateAlgorithms _ _ => exact keeps_execNegotiateAlgorithms h
  | getDigests _ => exact keeps_execGetDigests h
  | getCertificate _ => exact keeps_execGetCertificate h
  | challenge _ _ => exact keeps_execChallenge h
  | getMeasurements _ _ _ => exact keeps_execGetMeasurements h
  | keyExchange _ _ => exact keeps_execKeyExchange h
  | finish _ _ => exact keeps_execFinish h
  | endSession _ => exact keeps_execEndSession h
  | keyStoreSet _ _ _ _ => exact keeps_execKeyStoreSet h
  | keyStoreDisable _ _ => exact keeps_execKeyStoreDisable h
  | keyStoreStatus _ => exact keeps_execKeyStoreStatus h
  | portTransmit _ _ => exact keeps_execPortTransmit h
  | portReceive _ _ => exact keeps_execPortReceive h
  | portReadBlock _ _ => exact keeps_execPortReadBlock h
  | portWriteBlock _ _ => exact keeps_execPortWriteBlock h
  | portFlush _ _ => exact keeps_execPortFlush h
  | turnpikeArrival _ => exact keeps_execTurnpikeArrival h
  | tscFirmwareStart _ _ _ => exact keeps_execTscFirmwareStart h
  | imageUnload _ _ => exact keeps_execImageUnload h
  | orderlyShutdown => exact keeps_execOrderlyShutdown h

/-- Settles O59: every step is an event of the agenda or the turn of an agent, and each of the functions these are made of keeps
every memory in canonical form. -/
theorem everyStepKeepsMemoryCanonical : Obligations.EveryStepKeepsMemoryCanonical := by
  unfold Obligations.EveryStepKeepsMemoryCanonical
  intro s t h e
  exact keeps_runNext (fun _ _ => keeps_exec) h t e

end Sys2Proof.Machine
end

section
/-! PROOF. The round trips of words and bytes (02 R18 to R32, R50; 03 R71): every well-formed instruction is what its bytes decode
to, every word that decodes is the word of its instruction, and the opcode map is the one that the decoder follows. -/

namespace Sys2Proof.Laws.RoundTrip

open Sys2Proof

set_option Elab.async false

/-- The word of every instruction, of either set, decodes to the instruction; an event has no word. -/
theorem statement_all (i : Instr) : Statement i := by
  cases i with
  | add f => exact add f
  | addi f => exact addi f
  | sub f => exact sub f
  | mul f => exact mul f
  | mulh f => exact mulh f
  | div f => exact div f
  | rem f => exact rem f
  | and f => exact and f
  | andi f => exact andi f
  | or f => exact or f
  | ori f => exact ori f
  | xor f => exact xor f
  | xori f => exact xori f
  | shl f => exact shl f
  | shli f => exact shli f
  | shr f => exact shr f
  | shri f => exact shri f
  | sra f => exact sra f
  | srai f => exact srai f
  | min f => exact min f
  | max f => exact max f
  | cset f => exact cset f
  | csel f => exact csel f
  | clz f => exact clz f
  | ctz f => exact ctz f
  | popc f => exact popc f
  | bext f => exact bext f
  | bins f => exact bins f
  | li f => exact li f
  | lih f => exact lih f
  | addpc f => exact addpc f
  | br f => exact br f
  | jmp f => exact jmp f
  | jr f => exact jr f
  | call f => exact call f
  | callr f => exact callr f
  | rep f => exact rep f
  | gset f => exact gset f
  | gclr f => exact gclr f
  | rgn f => exact rgn f
  | taskEnd f => exact taskEnd f
  | nop f => exact nop f
  | brk f => exact brk f
  | ld f => exact ld f
  | st f => exact st f
  | wld f => exact wld f
  | wst f => exact wst f
  | pf f => exact pf f
  | bld f => exact bld f
  | bst f => exact bst f
  | cln f => exact cln f
  | amo f => exact amo f
  | cas f => exact cas f
  | cas2 f => exact cas2 f
  | fence f => exact fence f
  | barr f => exact barr f
  | wfv f => exact wfv f
  | vadd f => exact vadd f
  | vsub f => exact vsub f
  | vmul f => exact vmul f
  | vfma f => exact vfma f
  | vfms f => exact vfms f
  | vmin f => exact vmin f
  | vmax f => exact vmax f
  | vabs f => exact vabs f
  | vneg f => exact vneg f
  | vand f => exact vand f
  | vor f => exact vor f
  | vxor f => exact vxor f
  | vshl f => exact vshl f
  | vshr f => exact vshr f
  | vsra f => exact vsra f
  | vcmp f => exact vcmp f
  | vsel f => exact vsel f
  | vcvt f => exact vcvt f
  | vred f => exact vred f
  | vscan f => exact vscan f
  | vperm f => exact vperm f
  | vperm2 f => exact vperm2 f
  | vbcast f => exact vbcast f
  | vext f => exact vext f
  | vins f => exact vins f
  | vrcp f => exact vrcp f
  | vrsqrt f => exact vrsqrt f
  | vexp2 f => exact vexp2 f
  | vlog2 f => exact vlog2 f
  | vsqrt f => exact vsqrt f
  | vdiv f => exact vdiv f
  | vdot f => exact vdot f
  | vmov f => exact vmov f
  | vld f => exact vld f
  | vst f => exact vst f
  | vgath f => exact vgath f
  | vscat f => exact vscat f
  | vbld f => exact vbld f
  | vbst f => exact vbst f
  | kop f => exact kop f
  | vclass f => exact vclass f
  | vwld f => exact vwld f
  | vwst f => exact vwst f
  | tcfg f => exact tcfg f
  | tcfgGet f => exact tcfgGet f
  | tclaim f => exact tclaim f
  | tfree f => exact tfree f
  | tld f => exact tld f
  | tst f => exact tst f
  | tzero f => exact tzero f
  | mma f => exact mma f
  | mmg f => exact mmg f
  | dmma f => exact dmma f
  | tscl f => exact tscl f
  | ttr f => exact ttr f
  | cread f => exact cread f
  | wset f => exact wset f
  | wsetDim f => exact wsetDim f
  | wsetScl f => exact wsetScl f
  | wsetSreg f => exact wsetSreg f
  | wopen f => exact wopen f
  | wretire f => exact wretire f
  | wbind f => exact wbind f
  | wunbind f => exact wunbind f
  | weos f => exact weos f
  | wsub f => exact wsub f
  | wtest f => exact wtest f
  | cpy f => exact cpy f
  | cpys f => exact cpys f
  | coll f => exact coll f
  | twany f => exact twany f
  | twall f => exact twall f
  | tfirst f => exact tfirst f
  | tclr f => exact tclr f
  | cfill f => exact cfill f
  | fork f => exact fork f
  | forkc f => exact forkc f
  | forkg f => exact forkg f
  | join f => exact join f
  | send f => exact send f
  | spawn f => exact spawn f
  | qinfo f => exact qinfo f
  | trap f => exact trap f
  | ctrlr f => exact ctrlr f
  | ctrlw f => exact ctrlw f
  | vxfAccess write f => exact vxfAccess write f
  | quotaWrite f => exact quotaWrite f
  | tretTake f => exact tretTake f
  | tretDefer f => exact tretDefer f
  | tretTerm f => exact tretTerm f
  | tretRelease f => exact tretRelease f
  | tlbw f => exact tlbw f
  | tlbiPage f => exact tlbiPage f
  | tlbiAsid f => exact tlbiAsid f
  | tlbiAll f => exact tlbiAll f
  | mbind f => exact mbind f
  | mbindUn f => exact mbindUn f
  | qsave f => exact qsave f
  | qrest f => exact qrest f
  | reprwGet f => exact reprwGet f
  | reprwAdd f => exact reprwAdd f
  | reprwApply f => exact reprwApply f
  | reprwClr f => exact reprwClr f
  | reprwSum f => exact reprwSum f
  | halt f => exact halt f
  | cinvI f => exact cinvI f
  | cinvD f => exact cinvD f
  | msHalt f => exact msHalt f
  | msLdi f => exact msLdi f
  | msLdh f => exact msLdh f
  | msMov f => exact msMov f
  | msAdd f => exact msAdd f
  | msAddi f => exact msAddi f
  | msSub f => exact msSub f
  | msAnd f => exact msAnd f
  | msOr f => exact msOr f
  | msXor f => exact msXor f
  | msShl f => exact msShl f
  | msShr f => exact msShr f
  | msInb f => exact msInb f
  | msInw f => exact msInw f
  | msLds f => exact msLds f
  | msSts f => exact msSts f
  | msBeq f => exact msBeq f
  | msBne f => exact msBne f
  | msBlt f => exact msBlt f
  | msJmp f => exact msJmp f
  | msWay f => exact msWay f
  | msEmit f => exact msEmit f
  | budgetExhausted k => exact budgetExhausted k
  | loadRequest part object base => exact loadRequest part object base
  | cairnWaitResolve part load => exact cairnWaitResolve part load
  | pageHashCheck part obj page => exact pageHashCheck part obj page
  | revocationNotice core obj => exact revocationNotice core obj
  | hostWindowRead part qp va len => exact hostWindowRead part qp va len
  | hostWindowWrite part qp va bytes => exact hostWindowWrite part qp va bytes
  | mailboxSlotWrite part qp mbx off bytes => exact mailboxSlotWrite part qp mbx off bytes
  | mailboxSlotRead part qp mbx off len => exact mailboxSlotRead part qp mbx off len
  | doorbellWrite part qp mbx off bytes => exact doorbellWrite part qp mbx off bytes
  | mailboxFault part mbx => exact mailboxFault part mbx
  | heldSlotPush part => exact heldSlotPush part
  | taskStart core slot => exact taskStart core slot
  | gangPlace cluster => exact gangPlace cluster
  | taskReplay core slot => exact taskReplay core slot
  | instructionCacheFill h => exact instructionCacheFill h
  | longLatencyComplete h => exact longLatencyComplete h
  | guardResolve h => exact guardResolve h
  | storeDrain h => exact storeDrain h
  | watchdogExpire core slot => exact watchdogExpire core slot
  | missQueueAdmit cluster => exact missQueueAdmit cluster
  | counterDecrementPerform part => exact counterDecrementPerform part
  | launchCompletionRetry part launch => exact launchCompletionRetry part launch
  | matrixSliceStart core => exact matrixSliceStart core
  | tileClaimGrant core => exact tileClaimGrant core
  | gangwaitExpire gang => exact gangwaitExpire gang
  | commandKick site => exact commandKick site
  | granuleComplete site i => exact granuleComplete site i
  | completionMessageRetry site i => exact completionMessageRetry site i
  | streamFill h r => exact streamFill h r
  | streamDrain h r => exact streamDrain h r
  | retentionEnter bank => exact retentionEnter bank
  | retentionEntryDone bank => exact retentionEntryDone bank
  | retentionExitDone bank corrected bad => exact retentionExitDone bank corrected bad
  | histogramFlush die => exact histogramFlush die
  | timeSliceEnd part => exact timeSliceEnd part
  | serviceMessageArrival die core msg => exact serviceMessageArrival die core msg
  | portTransmit queue out => exact portTransmit queue out
  | portReceive queue out => exact portReceive queue out
  | portReadBlock queue out => exact portReadBlock queue out
  | portWriteBlock queue out => exact portWriteBlock queue out
  | portFlush queue out => exact portFlush queue out
  | turnpikeArrival packet => exact turnpikeArrival packet
  | retirementRequest stack => exact retirementRequest stack
  | retirementCancel stack => exact retirementCancel stack
  | sweepStart => exact sweepStart
  | retirementCommit => exact retirementCommit
  | sweepPause => exact sweepPause
  | sweepResume => exact sweepResume
  | sweepLineCopy => exact sweepLineCopy
  | sweepUnitComplete => exact sweepUnitComplete
  | requestReplay => exact requestReplay
  | packageReset => exact packageReset
  | partitionCreate record clusters => exact partitionCreate record clusters
  | partitionDestroy part => exact partitionDestroy part
  | keySlotFree slot => exact keySlotFree slot
  | firmwareStage image => exact firmwareStage image
  | svnRaise stage value => exact svnRaise stage value
  | updateRequest => exact updateRequest
  | heartbeat => exact heartbeat
  | heartbeatTimeout => exact heartbeatTimeout
  | getVersion ep => exact getVersion ep
  | getCapabilities ep => exact getCapabilities ep
  | negotiateAlgorithms ep choice => exact negotiateAlgorithms ep choice
  | getDigests ep => exact getDigests ep
  | getCertificate ep => exact getCertificate ep
  | challenge ep nonce => exact challenge ep nonce
  | getMeasurements ep index nonce => exact getMeasurements ep index nonce
  | keyExchange ep exchange => exact keyExchange ep exchange
  | finish ep mac => exact finish ep mac
  | endSession ep => exact endSession ep
  | keyStoreSet ep index p384 hss => exact keyStoreSet ep index p384 hss
  | keyStoreDisable ep index => exact keyStoreDisable ep index
  | keyStoreStatus ep => exact keyStoreStatus ep
  | tscFirmwareStart h entry system => exact tscFirmwareStart h entry system
  | imageUnload part obj => exact imageUnload part obj
  | orderlyShutdown => exact orderlyShutdown
  | bootStageHandoff primary secondary => exact bootStageHandoff primary secondary
  | marchTestComplete die rows unusable => exact marchTestComplete die rows unusable
  | fullServiceSwitch => exact fullServiceSwitch
  | clockStepDown milliwatts deciCelsius => exact clockStepDown milliwatts deciCelsius
  | clockStepUp clearMicroseconds => exact clockStepUp clearMicroseconds

/-! ### From an instruction to its bytes -/

/-- The word of a Ronid instruction has 64 bits. -/
theorem encodeRonid_lt {i : Instr} {w : Nat} (h : encodeRonid i = some w) : w < 2 ^ 64 := by
  cases i
  case add f | sub f | mul f | mulh f | div f | rem f | and f | or f | xor f | shl f | shr f | sra f | min f | max f |
      cset f | csel f | clz f | ctz f | popc f | bext f | bins f | jr f | callr f | gset f | gclr f | rgn f | taskEnd f |
      nop f | fence f | vadd f | vsub f | vmul f | vfma f | vfms f | vmin f | vmax f | vabs f | vneg f | vand f | vor f |
      vxor f | vshl f | vshr f | vsra f | vcmp f | vsel f | vcvt f | vred f | vscan f | vperm f | vperm2 f | vbcast f |
      vext f | vins f | vrcp f | vrsqrt f | vexp2 f | vlog2 f | vsqrt f | vdiv f | vdot f | vmov f | kop f | vclass f |
      send f | qinfo f =>
    cases h; exact FmtA.word_lt (by decide) f
  case addi f | andi f | ori f | xori f | shli f | shri f | srai f | li f | lih f | addpc f | rep f | brk f | twany f |
      twall f | tfirst f | tclr f =>
    cases h; exact FmtI.word_lt (by decide) f
  case ld f | st f | wld f | wst f | pf f | bld f | bst f | cln f | amo f | cas f | cas2 f | barr f | wfv f | vld f | vst f |
      vgath f | vscat f | vbld f | vbst f | vwld f | vwst f =>
    cases h; exact FmtM.word_lt (by decide) f
  case br f | jmp f | call f | fork f | forkc f | forkg f | join f | spawn f =>
    cases h; exact FmtB.word_lt (by decide) f
  case tcfg f | tcfgGet f | tclaim f | tfree f | tld f | tst f | tzero f | mma f | mmg f | dmma f | tscl f | ttr f |
      cread f =>
    cases h; exact FmtT.word_lt (by decide) f
  case wset f | wsetDim f | wsetScl f | wsetSreg f | wopen f | wretire f | wbind f | wunbind f | weos f | wsub f | wtest f =>
    cases h; exact FmtW.word_lt (by decide) f
  case cpy f | cpys f | coll f | cfill f =>
    cases h; exact FmtE.word_lt (by decide) f
  case trap f | ctrlr f | ctrlw f | quotaWrite f | tretTake f | tretDefer f | tretTerm f | tretRelease f | tlbw f |
      tlbiPage f | tlbiAsid f | tlbiAll f | mbind f | mbindUn f | qsave f | qrest f | reprwGet f | reprwAdd f |
      reprwApply f | reprwClr f | reprwSum f | halt f | cinvI f | cinvD f =>
    cases h; exact FmtS.word_lt (by decide) f
  case vxfAccess write f =>
    cases h; exact FmtS.word_lt (by cases write <;> decide) f
  all_goals cases h

/-- The word of a Milestone instruction has 32 bits. -/
theorem encodeMilestone_lt {i : Instr} {w : Nat} (h : encodeMilestone i = some w) : w < 2 ^ 32 := by
  cases i
  case msHalt f | msLdi f | msLdh f | msMov f | msAdd f | msAddi f | msSub f | msAnd f | msOr f | msXor f | msShl f |
      msShr f | msInb f | msInw f | msLds f | msSts f | msBeq f | msBne f | msBlt f | msJmp f | msWay f | msEmit f =>
    cases h; exact FmtMs.word_lt (by decide) f
  all_goals cases h

/-- The first n bytes of a value that fits in them are the value. -/
theorem leNat_take_leBytes {n w : Nat} (rest : List Byte) (h : w < 256 ^ n) : leNat ((leBytes n w ++ rest).take n) = w := by
  rw [List.take_left' (leBytes_length n w), leNat_leBytes, Nat.mod_eq_of_lt h]

theorem decode_leBytes {i : Instr} {w : Nat} (rest : List Byte) (hw : w < 2 ^ 64) (h : decodeRonid w = .ok i) :
    decode (leBytes 8 w ++ rest) = .ok (i, rest) := by
  have long : ¬ (leBytes 8 w ++ rest).length < 8 := by rw [List.length_append, leBytes_length]; omega
  rw [decode, if_neg long]
  simp [leNat_take_leBytes rest (n := 8) hw, h, List.drop_left' (leBytes_length 8 w)]

theorem decodeMilestoneBytes_leBytes {i : Instr} {w : Nat} (rest : List Byte) (hw : w < 2 ^ 32)
    (h : decodeMilestone w = .ok i) : decodeMilestoneBytes (leBytes 4 w ++ rest) = .ok (i, rest) := by
  have long : ¬ (leBytes 4 w ++ rest).length < 4 := by rw [List.length_append, leBytes_length]; omega
  rw [decodeMilestoneBytes, if_neg long]
  simp [leNat_take_leBytes rest (n := 4) hw, h, List.drop_left' (leBytes_length 4 w)]

/-- Settles O2: by the round trip of each constructor's word, and of a word's bytes. -/
theorem bytesOfAnInstructionDecodeToIt : Obligations.BytesOfAnInstructionDecodeToIt := by
  unfold Obligations.BytesOfAnInstructionDecodeToIt
  intro i w rest wf
  obtain ⟨ronid, milestone⟩ := statement_all i wf
  exact ⟨fun h => decode_leBytes rest (encodeRonid_lt h) (ronid w h),
    fun h => decodeMilestoneBytes_leBytes rest (encodeMilestone_lt h) (milestone w h)⟩

/-! ### From a word to its instruction -/

theorem accept_ok {i j : Instr} (h : accept i = .ok j) : j.wf = true ∧ j = i := by
  unfold accept at h
  split at h
  · cases h; exact ⟨‹_›, rfl⟩
  · cases h

theorem acceptIf_ok {r : Bool} {i j : Instr} (h : acceptIf r i = .ok j) : r = true ∧ j.wf = true ∧ j = i := by
  unfold acceptIf at h
  split at h
  · exact ⟨‹_›, accept_ok h⟩
  · cases h

theorem accept_ne_unassigned (i : Instr) : accept i ≠ .error .unassignedOpcode := by
  unfold accept; split <;> nofun

theorem acceptIf_ne_unassigned (r : Bool) (i : Instr) : acceptIf r i ≠ .error .unassignedOpcode := by
  unfold acceptIf
  split
  · exact accept_ne_unassigned i
  · nofun

/-- An opcode that the map of R50 assigns. -/
def assigned (op : Nat) : Bool :=
  (0x01 ≤ op && op ≤ 0x1F) || (0x30 ≤ op && op ≤ 0x3B) || (0x40 ≤ op && op ≤ 0x47) || (0x50 ≤ op && op ≤ 0x55)
    || (0x60 ≤ op && op ≤ 0x89) || (0x90 ≤ op && op ≤ 0x9B) || (0xA0 ≤ op && op ≤ 0xA7) || (0xB0 ≤ op && op ≤ 0xB7)
    || (0xC0 ≤ op && op ≤ 0xC6) || (0xD0 ≤ op && op ≤ 0xDB)

/-- A word is read in a format, as a row that encodes with the word's opcode. -/
inductive ReadsRow (w : Nat) : Except Reject Instr → Prop
  | a {op k} (h : bits w 0 8 = op) (g : assigned op = true) (e : ∀ f, encodeRonid (k f) = some (FmtA.word op f)) :
      ReadsRow w (decodeA w k)
  | i {op k} (h : bits w 0 8 = op) (g : assigned op = true) (e : ∀ f, encodeRonid (k f) = some (FmtI.word op f)) :
      ReadsRow w (decodeI w k)
  | m {op k} (h : bits w 0 8 = op) (g : assigned op = true) (e : ∀ f, encodeRonid (k f) = some (FmtM.word op f)) :
      ReadsRow w (decodeM w k)
  | b {op k} (h : bits w 0 8 = op) (g : assigned op = true) (e : ∀ f, encodeRonid (k f) = some (FmtB.word op f)) :
      ReadsRow w (decodeB w k)
  | t {op k} (h : bits w 0 8 = op) (g : assigned op = true) (e : ∀ f, encodeRonid (k f) = some (FmtT.word op f)) :
      ReadsRow w (decodeT w k)
  | w {op k} (h : bits w 0 8 = op) (g : assigned op = true) (e : ∀ f, encodeRonid (k f) = some (FmtW.word op f)) :
      ReadsRow w (decodeW w k)
  | e {op k} (h : bits w 0 8 = op) (g : assigned op = true) (e : ∀ f, encodeRonid (k f) = some (FmtE.word op f)) :
      ReadsRow w (decodeE w k)
  | s {op k} (h : bits w 0 8 = op) (g : assigned op = true) (e : ∀ f, encodeRonid (k f) = some (FmtS.word op f)) :
      ReadsRow w (decodeS w k)

namespace ReadsRow

variable {w : Nat} {r : Except Reject Instr}

theorem opcode_assigned (h : ReadsRow w r) : assigned (bits w 0 8) = true := by
  cases h with
  | _ h g => rw [h, g]

theorem ne_unassigned (h : ReadsRow w r) : r ≠ .error .unassignedOpcode := by
  cases h with
  | m | b => exact accept_ne_unassigned _
  | _ => exact acceptIf_ne_unassigned _ _

/-- What a row reads is well-formed, and its word is put together again from the fields and the reserved bits. -/
theorem ok {i : Instr} (h : ReadsRow w r) (hw : w < 2 ^ 64) (hr : r = .ok i) : i.wf = true ∧ encodeRonid i = some w := by
  cases h with
  | a h _ e =>
    obtain ⟨reserved, wf, rfl⟩ := acceptIf_ok hr
    exact ⟨wf, by rw [e, ← h, FmtA.word_ofWord hw (by simpa using reserved)]⟩
  | i h _ e =>
    obtain ⟨reserved, wf, rfl⟩ := acceptIf_ok hr
    exact ⟨wf, by rw [e, ← h, FmtI.word_ofWord hw (by simpa using reserved)]⟩
  | m h _ e =>
    obtain ⟨wf, rfl⟩ := accept_ok hr
    exact ⟨wf, by rw [e, ← h, FmtM.word_ofWord hw]⟩
  | b h _ e =>
    obtain ⟨wf, rfl⟩ := accept_ok hr
    exact ⟨wf, by rw [e, ← h, FmtB.word_ofWord hw]⟩
  | t h _ e =>
    obtain ⟨reserved, wf, rfl⟩ := acceptIf_ok hr
    simp only [Bool.and_eq_true, beq_iff_eq] at reserved
    exact ⟨wf, by rw [e, ← h, FmtT.word_ofWord hw reserved.1 reserved.2]⟩
  | w h _ e =>
    obtain ⟨reserved, wf, rfl⟩ := acceptIf_ok hr
    exact ⟨wf, by rw [e, ← h, FmtW.word_ofWord hw (by simpa using reserved)]⟩
  | e h _ e =>
    obtain ⟨reserved, wf, rfl⟩ := acceptIf_ok hr
    exact ⟨wf, by rw [e, ← h, FmtE.word_ofWord hw (by simpa using reserved)]⟩
  | s h _ e =>
    obtain ⟨reserved, wf, rfl⟩ := acceptIf_ok hr
    exact ⟨wf, by rw [e, ← h, FmtS.word_ofWord hw (by simpa using reserved)]⟩

end ReadsRow

/-- The map of R50: a word is read as a row of its opcode, or its opcode is none of the map's. -/
theorem decodeRonid_row (w : Nat) :
    ReadsRow w (decodeRonid w) ∨ decodeRonid w = .error .unassignedOpcode ∧ assigned (bits w 0 8) = false := by
  unfold decodeRonid
  split
  case h_147 =>
    refine .inr ⟨rfl, ?_⟩
    simp only [assigned, Bool.or_eq_false_iff, Bool.and_eq_false_iff, decide_eq_false_iff_not]
    simp only [imp_false] at *
    omega
  all_goals
    left; repeat' split
  all_goals
    constructor; assumption; rfl; exact fun _ => rfl

/-- The same of a Milestone word: it is read as a row that encodes with the word's opcode, or is refused. -/
theorem decodeMilestone_ok {w : Nat} {i : Instr} (hw : w < 2 ^ 32) (h : decodeMilestone w = .ok i) :
    i.wf = true ∧ encodeMilestone i = some w := by
  have row : ∀ {op : Nat} {k : FmtMs → Instr}, bits w 0 6 = op → (∀ f, encodeMilestone (k f) = some (f.word op)) →
      accept (k (.ofWord w)) = .ok i → i.wf = true ∧ encodeMilestone i = some w := by
    intro op k hop e ha
    obtain ⟨wf, rfl⟩ := accept_ok ha
    exact ⟨wf, by rw [e, ← hop, FmtMs.word_ofWord hw]⟩
  unfold decodeMilestone at h
  split at h
  case h_23 => cases h
  all_goals exact row ‹_› (fun _ => rfl) h

/-- Settles O3: a word that decodes is read as a row of its opcode, whose encoder puts the word together again. -/
theorem everyBitOfAWordCounts : Obligations.EveryBitOfAWordCounts := by
  unfold Obligations.EveryBitOfAWordCounts
  refine ⟨fun w i hw h => ?_, fun w i hw h => decodeMilestone_ok hw h⟩
  rcases decodeRonid_row w with row | ⟨refused, _⟩
  · exact row.ok hw h
  · rw [refused] at h; cases h

/-- Settles O4: a word is read as a row exactly where the map assigns its opcode. -/
theorem theMapAssigns146Opcodes : Obligations.TheMapAssigns146Opcodes := by
  unfold Obligations.TheMapAssigns146Opcodes
  refine ⟨by decide +kernel, fun w => ?_⟩
  have low : bits w 0 8 = w % 256 := by simp [bits]
  show _ ↔ assigned (w % 256) = false
  rw [← low]
  rcases decodeRonid_row w with row | ⟨refused, unassigned⟩
  · simp [row.ne_unassigned, row.opcode_assigned]
  · simp [refused, unassigned]

end Sys2Proof.Laws.RoundTrip
end

section
/-! PROOF. The state after reset (02 R46; 17 R365 to R368; 19 R379, R382), the registers that are fixed (02 R42, R43), and the
control transfers (06 R151, R152, R156). -/

namespace Sys2Proof.Machine

open Sys2Proof

set_option Elab.async false

/-! ### The registers of a new hart -/

namespace Regs

@[simp] theorem getS_empty (n : BitVec 5) : ({} : Regs).getS n = 0 := by
  unfold getS
  split
  · rfl
  · exact Vector.getElem_replicate ..
@[simp] theorem getV_empty (n : BitVec 5) : ({} : Regs).getV n = 0 := Vector.getElem_replicate ..
theorem getK_empty {n : BitVec 3} (h : n ≠ 0) : ({} : Regs).getK n = 0 :=
  (if_neg h).trans (Vector.getElem_replicate ..)
theorem guard_empty {n : BitVec 3} (h : n ≠ 0) : ({} : Regs).guard n = false :=
  (if_neg h).trans (Vector.getElem_replicate ..)
@[simp] theorem getW_empty (n : BitVec 4) : ({} : Regs).getW n = {} := Vector.getElem_replicate ..

end Regs

@[simp] theorem State.hart_reset (id : HartId) : State.reset.hart id = {} := rfl

theorem Hart.ready_empty (id : HartId) : ({} : Hart).ready id = false := by
  unfold Hart.ready; split <;> rfl

/-- Settles O58: the state after reset is the one whose tables are empty, and each register of an unlisted hart is 0. -/
theorem resetLeavesTheMachineEmpty : Obligations.ResetLeavesTheMachineEmpty := by
  unfold Obligations.ResetLeavesTheMachineEmpty
  refine ⟨State.memoryOk_reset, fun _ => rfl, rfl, fun id => ?_, fun _ => ⟨rfl, rfl⟩, fun _ => ⟨rfl, rfl⟩, fun _ => ⟨rfl, rfl⟩,
    rfl, fun _ => Vector.getElem_replicate .., rfl, rfl, rfl, rfl, by decide, rfl, rfl⟩
  exact ⟨Hart.ready_empty id, rfl, rfl, rfl, rfl, rfl, rfl, Regs.getS_empty, Regs.getV_empty,
    fun _ hn => ⟨Regs.getK_empty hn, Regs.guard_empty hn⟩, fun n => congrArg View.state (Regs.getW_empty n)⟩

/-! ### Registers that are fixed -/

theorem Regs.getK_setK (r : Regs) (d n : BitVec 3) (x : BitVec 16) :
    (r.setK d x).getK n = if n = d ∧ d ≠ 0 then x else r.getK n := by
  by_cases hn : n = d
  · subst hn
    by_cases hz : n = 0
    · subst hz; rfl
    · rw [if_pos ⟨rfl, hz⟩, Regs.getK_setK_same _ _ hz]
  · rw [if_neg fun h => hn h.1, Regs.getK_setK_other _ _ hn]

theorem Regs.guard_setG (r : Regs) (d n : BitVec 3) (x : Bool) :
    (r.setG d x).guard n = if n = d ∧ d ≠ 0 then x else r.guard n := by
  by_cases hn : n = d
  · subst hn
    by_cases hz : n = 0
    · subst hz; rfl
    · rw [if_pos ⟨rfl, hz⟩, Regs.guard_setG_same _ _ hz]
  · rw [if_neg fun h => hn h.1, Regs.guard_setG_other _ _ hn]

theorem State.getS_setS (s : State) (d n : BitVec 5) (x : Word) :
    (s.setS d x).getS n = if n = d ∧ d ≠ 0 then x else s.getS n := by
  by_cases hn : n = d
  · subst hn
    by_cases hz : n = 0
    · subst hz; rfl
    · rw [if_pos ⟨rfl, hz⟩, State.getS_setS_same _ _ hz]
  · rw [if_neg fun h => hn h.1, State.getS_setS_other _ _ hn]

/-- Settles O8: a read after a write, by whether it names the register written and whether that one is fixed. -/
theorem fixedRegistersDiscardWrites : Obligations.FixedRegistersDiscardWrites := by
  unfold Obligations.FixedRegistersDiscardWrites
  intro s
  exact ⟨fun _ => ⟨rfl, rfl⟩, fun _ => ⟨rfl, rfl⟩, fun d x n => s.getS_setS d n x, fun d n x => s.me.regs.getK_setK d n x, rfl,
    fun _ => rfl, fun d n x => s.me.regs.guard_setG d n x⟩

/-! ### Control transfers -/

theorem jumpVia_aligned {s : State} {t : Word} (link : State → State) (h : t.toNat % 8 = 0) :
    jumpVia s t link = .next ((link s).jumpTo t) := by
  rw [jumpVia, checkAt_ok _ _ _ (beq_iff_eq.2 h), Res.run_ok]

theorem jumpVia_unaligned {s : State} {t : Word} (link : State → State) (h : t.toNat % 8 ≠ 0) :
    jumpVia s t link = .next (s.raiseAt .alignment t) := by
  rw [jumpVia, checkAt_stop _ _ _ (beq_eq_false_iff_ne.2 h), Res.run_stop]

section
variable {s : State}

theorem exec_br {f : FmtB} (h : s.runs f.gd = true) : exec (.br f) s = .next (s.jumpTo (target24 s.me.pc f.offs)) := by
  show execBr f s = _; rw [execBr, State.guarded_of_runs _ h]
theorem exec_jmp {f : FmtB} (h : s.runs f.gd = true) :
    exec (.jmp f) s = .next (s.jumpTo (target24 s.me.pc f.offs)).endRegion := by
  show execJmp f s = _; rw [execJmp, State.guarded_of_runs _ h]
theorem exec_call {f : FmtB} (h : s.runs f.gd = true) :
    exec (.call f) s = jumpVia s (target24 s.me.pc f.offs) fun s => s.setS f.d (s.me.pc + 8) := by
  show execCall f s = _; rw [execCall, State.guarded_of_runs _ h]
theorem exec_jr {f : FmtA} (h : s.runs f.gd = true) : exec (.jr f) s = jumpVia s (s.getS f.a) id := by
  show execJr f s = _; rw [execJr, State.guarded_of_runs _ h]
theorem exec_callr {f : FmtA} (h : s.runs f.gd = true) :
    exec (.callr f) s = jumpVia s (s.getS f.a) fun s => s.setS f.d (s.me.pc + 8) := by
  show execCallr f s = _; rw [execCallr, State.guarded_of_runs _ h]
theorem exec_nop {f : FmtA} (h : s.runs f.gd = true) : exec (.nop f) s = s.finish := by
  show execNop f s = _; rw [execNop, State.guarded_of_runs _ h]
theorem exec_rgn {f : FmtA} (h : s.runs f.gd = true) : exec (.rgn f) s = s.endRegion.finish := by
  show execRgn f s = _; rw [execRgn, State.guarded_of_runs _ h]

end

/-- Settles O10: what each control transfer does under a guard that holds, by the alignment of its target. -/
theorem controlTransfers : Obligations.ControlTransfers := by
  unfold Obligations.ControlTransfers
  refine ⟨fun f s h => ⟨exec_br h, ?_, fun aligned => ?_, fun unaligned => ?_⟩,
    fun f s h => ⟨fun aligned => ⟨?_, ?_⟩, fun unaligned => ⟨?_, ?_⟩, exec_nop h, exec_rgn h⟩⟩
  · rw [exec_jmp h]
    exact congrArg Host.Outcome.next (State.modMe_modMe ..)
  · exact (exec_call h).trans (jumpVia_aligned _ aligned)
  · exact (exec_call h).trans (jumpVia_unaligned _ unaligned)
  · exact (exec_jr h).trans (jumpVia_aligned _ aligned)
  · exact (exec_callr h).trans (jumpVia_aligned _ aligned)
  · exact (exec_jr h).trans (jumpVia_unaligned _ unaligned)
  · exact (exec_callr h).trans (jumpVia_unaligned _ unaligned)

end Sys2Proof.Machine
end

section
/-! PROOF. What comes before an instruction's own meaning: its privilege (02 R20, R45, R46, R51; 15 R333, R340) and its guard (02 R22;
06 R134 to R136). -/

namespace Sys2Proof.Machine

open Sys2Proof

set_option Elab.async false

/-! ### Privilege -/

/-- The level below which an instruction takes the privilege trap (R46, R51), where it is more than a task's; `halt`, which is a step of
an update as well, and the forms of `tret`, which are a TSC's alone, stand apart. -/
def levelOf : Instr → Option Nat
  | .ctrlr f | .ctrlw f => some (if packageReg f.sel then 1 else 0)
  | .tlbw _ | .tlbiPage _ | .tlbiAsid _ | .tlbiAll _ | .cinvI _ | .cinvD _ => some 1
  | .qsave _ | .qrest _ | .reprwGet _ | .reprwAdd _ | .reprwApply _ | .reprwClr _ | .reprwSum _ => some 2
  | _ => none

/-- The forms of `tret` (R333, R334). -/
def isTret : Instr → Bool
  | .tretTake _ | .tretDefer _ | .tretTerm _ | .tretRelease _ => true
  | _ => false

namespace State

variable {s : State}

theorem atLevel_of_le {n : Nat} {gd : BitVec 3} (k : State → Out) (h : n ≤ s.level s.cur) : s.atLevel n gd k = s.guarded gd k :=
  if_neg (Nat.not_lt.2 h)

theorem atLevel_of_lt {n : Nat} {gd : BitVec 3} (k : State → Out) (h : s.level s.cur < n) :
    s.atLevel n gd k = .next (s.raise .privilege) := if_pos h

theorem onTsc_of_tsc {j : Nat} {gd : BitVec 3} (k : Nat → State → Out) (h : s.cur = .tsc j) :
    s.onTsc gd k = s.guarded gd (k j) := by unfold onTsc; rw [h]

theorem onTsc_of_not_tsc {gd : BitVec 3} (k : Nat → State → Out) (h : ∀ j, s.cur ≠ .tsc j) :
    s.onTsc gd k = .next (s.raise .privilege) := by
  unfold onTsc
  split
  · rename_i hc; exact absurd hc (h _)
  · rfl

theorem privileged_of_levelOf {i : Instr} {n : Nat} (h : levelOf i = some n) : s.privileged i = decide (n ≤ s.level s.cur) := by
  cases i
  case ctrlr f | ctrlw f =>
    cases h
    simp only [privileged, packageReg, decide_eq_true_eq]
    split <;> simp <;> omega
  case tlbw | tlbiPage | tlbiAsid | tlbiAll | cinvI | cinvD => cases h; rfl
  case qsave | qrest | reprwGet | reprwAdd | reprwApply | reprwClr | reprwSum =>
    cases h
    have most : s.level s.cur ≤ 2 := by unfold level; split <;> (try split) <;> omega
    simp only [privileged, Bool.beq_eq_decide_eq]
    exact decide_eq_decide.2 (by omega)
  all_goals cases h

theorem privileged_of_isTret {i : Instr} (h : isTret i = true) : s.privileged i = true ↔ ∃ j, s.cur = .tsc j := by
  cases i
  case tretTake | tretDefer | tretTerm | tretRelease =>
    unfold privileged
    cases s.cur <;> simp
  all_goals cases h

end State

section
variable {i : Instr} {s : State} {gd : BitVec 3}

/-- An instruction with a level is made under it. -/
theorem exec_of_levelOf {n : Nat} (h : levelOf i = some n) : ∃ gd k, exec i s = s.atLevel n gd k ∧ guardField i = some gd := by
  cases i
  case ctrlr f | ctrlw f | tlbw f | tlbiPage f | tlbiAsid f | tlbiAll f | cinvI f | cinvD f | qsave f | qrest f | reprwGet f
      | reprwAdd f | reprwApply f | reprwClr f | reprwSum f =>
    cases h
    exact ⟨f.gd, _, by unfold exec; rfl, rfl⟩
  all_goals cases h

theorem exec_of_isTret (h : isTret i = true) : ∃ gd k, exec i s = s.onTsc gd k ∧ guardField i = some gd := by
  cases i
  case tretTake f | tretDefer f | tretTerm f | tretRelease f => exact ⟨f.gd, _, by unfold exec; rfl, rfl⟩
  all_goals cases h

/-- Any other core instruction but `halt` is made under its guard alone. -/
theorem exec_of_plain (h : guardField i = some gd) (hc : isCommand i = false) (hl : levelOf i = none) (ht : isTret i = false)
    (hh : ∀ f, i ≠ .halt f) : ∃ k, exec i s = s.guarded gd k := by
  cases i
  case halt f => exact absurd rfl (hh f)
  case cpy | cpys | coll | cfill => cases hc
  case tretTake | tretDefer | tretTerm | tretRelease => cases ht
  case ctrlr | ctrlw | tlbw | tlbiPage | tlbiAsid | tlbiAll | cinvI | cinvD | qsave | qrest | reprwGet | reprwAdd | reprwApply
      | reprwClr | reprwSum => cases hl
  all_goals cases h
  all_goals exact ⟨_, by unfold exec; rfl⟩

/-- Only an instruction with a level, a `tret` and `halt` can be refused for its privilege. -/
theorem privileged_of_plain (hl : levelOf i = none) (ht : isTret i = false) (hh : ∀ f, i ≠ .halt f) : s.privileged i = true := by
  cases i
  case halt f => exact absurd rfl (hh f)
  case tretTake | tretDefer | tretTerm | tretRelease => cases ht
  case ctrlr | ctrlw | tlbw | tlbiPage | tlbiAsid | tlbiAll | cinvI | cinvD | qsave | qrest | reprwGet | reprwAdd | reprwApply
      | reprwClr | reprwSum => cases hl
  all_goals rfl

end

/-- `halt` outside an update of the firmware that issues it. -/
theorem exec_halt {f : FmtS} {s : State} (h : s.firmwareCore = false ∨ s.update = .running) :
    ∃ k, exec (.halt f) s = s.atLevel 2 f.gd k := by
  have outside : ¬ (s.firmwareCore && s.update != .running) = true := by rcases h with h | h <;> simp [h]
  exact ⟨_, (show execHalt f s = _ by unfold execHalt; exact if_neg outside)⟩

/-- The scheduler firmware runs at service level. -/
theorem State.firmwareCore_of_system {s : State} (h : s.level s.cur = 2) : s.firmwareCore = false := by
  unfold State.firmwareCore
  split
  · rw [h]; rfl
  · rfl

theorem privilege_of_unprivileged {i : Instr} {s : State} (h : s.privileged i = false)
    (hu : (∃ f, i = .halt f) → s.firmwareCore = false ∨ s.update = .running) : exec i s = .next (s.raise .privilege) := by
  by_cases hh : ∃ f, i = .halt f
  · obtain ⟨f, rfl⟩ := hh
    obtain ⟨k, e⟩ := exec_halt (f := f) (hu ⟨f, rfl⟩)
    have most : s.level s.cur < 2 := by
      have below : (s.level s.cur == 2) = false := h
      have := beq_eq_false_iff_ne.1 below
      unfold State.level at *; split <;> (try split) <;> simp_all
    rw [e, State.atLevel_of_lt _ most]
  rw [not_exists] at hh
  cases hl : levelOf i with
  | some n =>
    obtain ⟨gd, k, e, -⟩ := exec_of_levelOf (s := s) hl
    rw [State.privileged_of_levelOf hl, decide_eq_false_iff_not] at h
    rw [e, State.atLevel_of_lt _ (by omega)]
  | none =>
    cases ht : isTret i with
    | true =>
      obtain ⟨gd, k, e, -⟩ := exec_of_isTret (s := s) ht
      have other : ∀ j, s.cur ≠ .tsc j := fun j hj => by
        rw [(State.privileged_of_isTret ht).2 ⟨j, hj⟩] at h; cases h
      rw [e, State.onTsc_of_not_tsc _ other]
    | false => rw [privileged_of_plain hl ht hh] at h; cases h

/-- What a task may not run (R45, R46, R51). -/
theorem unprivileged_of_slot {s : State} {c n : Nat} (h : s.cur = .slot c n) (i : Instr) :
    s.privileged i = false ↔ (match i with
      | .tlbw _ | .tlbiPage _ | .tlbiAsid _ | .tlbiAll _ | .cinvI _ | .cinvD _ | .qsave _ | .qrest _ | .reprwGet _ | .reprwAdd _
        | .reprwApply _ | .reprwClr _ | .reprwSum _ | .halt _ | .tretTake _ | .tretDefer _ | .tretTerm _ | .tretRelease _ => True
      | .ctrlr f | .ctrlw f => 0x100 ≤ f.sel.toNat
      | _ => False) := by
  have level : s.level s.cur = 0 := by rw [h]; rfl
  cases i
  case ctrlr f | ctrlw f => simp [State.privileged, level]
  case tretTake | tretDefer | tretTerm | tretRelease => simp [State.privileged, h]
  case tlbw | tlbiPage | tlbiAsid | tlbiAll | cinvI | cinvD | qsave | qrest | reprwGet | reprwAdd | reprwApply | reprwClr | reprwSum
      | halt => simp [State.privileged, level]
  all_goals exact iff_of_false nofun id

/-- Settles O40: an instruction below its privilege takes the trap, and a task is at level 0. -/
theorem privilegeComesFirst : Obligations.PrivilegeComesFirst := by
  unfold Obligations.PrivilegeComesFirst
  exact ⟨fun i s h hu => privilege_of_unprivileged h hu,
    fun s c n h => ⟨by rw [h]; rfl, fun i => unprivileged_of_slot h i⟩⟩

/-! ### Guards -/

/-- A core instruction at a level that may run it is made under its guard. -/
theorem exec_guarded {i : Instr} {s : State} {gd : BitVec 3} (h : guardField i = some gd) (hp : s.privileged i = true)
    (hc : isCommand i = false) : ∃ k, exec i s = s.guarded gd k := by
  by_cases hh : ∃ f, i = .halt f
  · obtain ⟨f, rfl⟩ := hh
    cases h
    have system : s.level s.cur = 2 := by simpa [State.privileged] using hp
    obtain ⟨k, e⟩ := exec_halt (f := f) (.inl (State.firmwareCore_of_system system))
    exact ⟨k, by rw [e, State.atLevel_of_le _ (by omega)]⟩
  rw [not_exists] at hh
  cases hl : levelOf i with
  | some n =>
    obtain ⟨gd', k, e, hg⟩ := exec_of_levelOf (s := s) hl
    cases h.symm.trans hg
    rw [State.privileged_of_levelOf hl, decide_eq_true_eq] at hp
    exact ⟨k, by rw [e, State.atLevel_of_le _ hp]⟩
  | none =>
    cases ht : isTret i with
    | true =>
      obtain ⟨gd', k, e, hg⟩ := exec_of_isTret (s := s) ht
      cases h.symm.trans hg
      obtain ⟨j, hj⟩ := (State.privileged_of_isTret ht).1 hp
      exact ⟨k j, by rw [e, State.onTsc_of_tsc _ hj]⟩
    | false => exact exec_of_plain h hc hl ht hh

/-- An engine command under its guard: a no-op, or held, or checked and queued. -/
theorem exec_command {i : Instr} {s : State} {gd : BitVec 3} (h : guardField i = some gd) (hc : isCommand i = true) :
    ∃ f op src aux, exec i s = issueCommand f op src aux s ∧ f.gd = gd := by
  cases i
  case cpy f | cpys f | coll f | cfill f => cases h; exact ⟨f, _, _, _, by unfold exec; rfl, rfl⟩
  all_goals cases hc

theorem State.me_modLaunch (s : State) (p l : Nat) (f : Launch → Launch) : (s.modLaunch p l f).me = s.me := by
  unfold State.modLaunch; split <;> rfl

theorem State.me_enterQueue (s : State) (c : Command) : (s.enterQueue c).me = { s.me with queue := s.me.queue ++ [c] } := by
  have me : ((s.modLaunch c.part c.launch fun x => { x with commands := x.commands + 1 })).me = s.me := s.me_modLaunch ..
  simp only [State.enterQueue, State.me_modMe]
  exact congrArg (fun h : Hart => { h with queue := h.queue ++ [c] }) me

theorem Hart.advance_pc_queue (h : Hart) (q : List Command) : ({ h with queue := q } : Hart).advance.pc = h.advance.pc := by
  unfold Hart.advance
  cases h.regs.rep with
  | none => rfl
  | some r => (repeat' split) <;> rfl

theorem Hart.advance_boundary (h : Hart) : h.advance.boundary = h.boundary := by unfold Hart.advance; (repeat' split) <;> rfl

theorem issueCommand_of_false {f : FmtE} {op : CommandOp} {src : View} {aux : Word} {s : State} (ho : s.guardOpen f.gd = false)
    (hg : s.me.regs.guard f.gd = false) : issueCommand f op src aux s = s.finish := by simp [issueCommand, ho, hg]

theorem issueCommand_of_open {f : FmtE} {op : CommandOp} {src : View} {aux : Word} {s : State} (ho : s.guardOpen f.gd = true)
    (hq : s.me.queue.length < 16) : issueCommand f op src aux s = (s.enterQueue (s.command f op src aux)).finish := by
  simp [issueCommand, ho, Nat.not_le.2 hq]

/-- Settles O39: a core instruction is made under its guard, and a command that a guard holds takes its entry. -/
theorem guardedInstructionsWaitOrPass : Obligations.GuardedInstructionsWaitOrPass := by
  unfold Obligations.GuardedInstructionsWaitOrPass
  intro i gd s h hp
  refine ⟨rfl, rfl, fun ho hc => ?_, fun ho hg => ?_, fun ho hc hq => ?_⟩
  · obtain ⟨k, e⟩ := exec_guarded h hp hc
    rw [e, State.guarded_of_open _ ho]
  · cases hc : isCommand i with
    | false =>
      obtain ⟨k, e⟩ := exec_guarded h hp hc
      rw [e, State.guarded_of_false _ ho hg]; rfl
    | true =>
      obtain ⟨f, op, src, aux, e, rfl⟩ := exec_command (s := s) h hc
      rw [e, issueCommand_of_false ho hg]; rfl
  · obtain ⟨f, op, src, aux, e, rfl⟩ := exec_command (s := s) h hc
    refine ⟨_, s.command f op src aux, by rw [e, issueCommand_of_open ho hq]; rfl, ?_, ?_, ?_, ?_⟩
    · rw [State.me_advance, Hart.advance_queue, State.me_enterQueue]
    · simp [State.command, ho]
    · rw [State.me_advance, State.me_enterQueue, Hart.advance_pc_queue]
    · rw [State.me_advance, Hart.advance_boundary, State.me_enterQueue]

end Sys2Proof.Machine
end

section
/-! PROOF. The control registers (02 R46 to R49; 05 R104; 15 R332; 17 R366 to R369): what each read gives, and what each write comes to
by the register, the level and the register's map. -/

namespace Sys2Proof.Machine

open Sys2Proof State

set_option Elab.async false

section
variable {f : FmtS} {s : State}

theorem level_of_packageReg {n : Nat} (h : packageReg f.sel = true → n ≤ s.level s.cur) :
    (if packageReg f.sel then n else 0) ≤ s.level s.cur := by
  split
  · exact h ‹_›
  · exact Nat.zero_le _

theorem packageReg_of_lt {sel : BitVec 12} (h : sel.toNat < 0x100) : packageReg sel = false :=
  decide_eq_false (Nat.not_le.2 h)

/-! ### Reads -/

/-- A read at a level that may make it. -/
theorem exec_ctrlr (h : s.runs f.gd = true) (hl : packageReg f.sel = true → 1 ≤ s.level s.cur) :
    exec (.ctrlr f) s = .next (s.setS f.d (ctrlValue s f.sel)).advance := by
  show execCtrlr f s = _
  rw [execCtrlr, atLevel_of_le _ (level_of_packageReg hl), guarded_of_runs _ h]; rfl

theorem exec_ctrlr_refused (hl : s.level s.cur = 0) (hp : 0x100 ≤ f.sel.toNat) :
    exec (.ctrlr f) s = .next (s.raise .privilege) := by
  show execCtrlr f s = _
  rw [execCtrlr, atLevel_of_lt]
  simp [packageReg, hp, hl]

theorem bit_mul (b : Bool) (n : Nat) : bit b * n = if b then n else 0 := by cases b <;> simp [bit]

/-- `SWEEP` as it reads (R368). -/
theorem Detour.sweep_eq (d : Detour) : d.sweep = BitVec.ofNat 64 ((if d.done then 2 ^ 63 else 0) + (if d.pause then 2 ^ 62 else 0)
    + d.pointer / 65536 % 2 ^ 36 * 65536) := by
  simp only [Detour.sweep, bit_mul]
  exact congrArg (BitVec.ofNat 64) (by omega)

/-- `LIVESTACKS` as it reads (R366). -/
theorem Detour.liveStacks_eq (d : Detour) : d.liveStacks = BitVec.ofNat 64 (d.retire.toNat * 2 ^ 44 + (if d.pend then 2 ^ 40 else 0)
    + ((List.range 16).filter fun i => d.live.getLsbD i).length * 2 ^ 32 + d.live.toNat) := by
  have count : d.count = ((List.range 16).filter fun i => d.live.getLsbD i).length := rfl
  simp only [Detour.liveStacks, bit_mul, ← count]
  exact congrArg (BitVec.ofNat 64) (by omega)

/-! ### Writes -/

theorem writeChecked_ok {ok : Bool} (s t : State) (h : ok = true) : writeChecked ok s t = .next t.endRegion.advance := if_pos h
theorem writeChecked_refused {ok : Bool} (s t : State) (h : ok = false) : writeChecked ok s t = .next (s.raise .illegal) := by
  simp [writeChecked, h]

theorem modMyPart_of_find {q : Partition} (g : Partition → Partition) (h : s.partitions.find (s.partOf s.cur) = some q) :
    s.modMyPart g = s.setPartition (s.partOf s.cur) (g q) := by unfold modMyPart; rw [h]

/-- A write of `rmode`, at any level. -/
theorem exec_ctrlw_rmode (h : s.runs f.gd = true) (hs : f.sel = 7) : exec (.ctrlw f) s =
    writeChecked ((s.getS f.a).toNat ≤ 4) s (s.modMe (·.modRegs fun r => { r with rmode := (s.getS f.a).setWidth 3 })) := by
  show execCtrlw f s = _
  rw [execCtrlw, atLevel_of_le _ (level_of_packageReg (by rw [hs]; nofun)), guarded_of_runs _ h]
  exact if_pos hs

/-- Below the system level a write of another register has no effect. -/
theorem exec_ctrlw_below (h : s.runs f.gd = true) (hs : f.sel ≠ 7) (hp : f.sel.toNat < 0x100) (hl : s.level s.cur ≠ 2) :
    exec (.ctrlw f) s = .next s.endRegion.advance := by
  show execCtrlw f s = _
  rw [execCtrlw, atLevel_of_le _ (level_of_packageReg (by simp [packageReg_of_lt hp])), guarded_of_runs _ h]
  simp only [if_neg (show ¬ f.sel = 0x007 from hs), hl, decide_false, Bool.not_false, if_true]; rfl

/-! At system level the register's range or map decides. -/

section
variable (h : s.runs f.gd = true) (hl : s.level s.cur = 2)
include h hl

theorem exec_ctrlw_wdlimit (hs : f.sel = 10) : exec (.ctrlw f) s =
    writeChecked (65536 ≤ (s.getS f.a).toNat && (s.getS f.a).toNat < 2 ^ 32) s
      (s.modMyPart fun q => { q with wdlimit := (s.getS f.a).toNat }) := by
  show execCtrlw f s = _
  rw [execCtrlw, atLevel_of_le _ (level_of_packageReg fun _ => by omega), guarded_of_runs _ h]
  simp [hs, hl]

theorem exec_ctrlw_gangwait (hs : f.sel = 11) : exec (.ctrlw f) s =
    writeChecked (1024 ≤ (s.getS f.a).toNat && (s.getS f.a).toNat < 2 ^ 32) s
      (s.modMyPart fun q => { q with gangwait := (s.getS f.a).toNat }) := by
  show execCtrlw f s = _
  rw [execCtrlw, atLevel_of_le _ (level_of_packageReg fun _ => by omega), guarded_of_runs _ h]
  simp [hs, hl]

theorem exec_ctrlw_phase (hs : f.sel = 0x101) : exec (.ctrlw f) s =
    writeChecked (s.detour.writePhase (s.getS f.a).toNat).isSome s (s.detourIf (s.detour.writePhase (s.getS f.a).toNat)) := by
  show execCtrlw f s = _
  rw [execCtrlw, atLevel_of_le _ (level_of_packageReg fun _ => by omega), guarded_of_runs _ h]
  simp [hs, hl]

theorem exec_ctrlw_sweep (hs : f.sel = 0x102) : exec (.ctrlw f) s =
    writeChecked (s.detour.writeSweep (s.getS f.a).toNat).isSome s (s.detourIf (s.detour.writeSweep (s.getS f.a).toNat)) := by
  show execCtrlw f s = _
  rw [execCtrlw, atLevel_of_le _ (level_of_packageReg fun _ => by omega), guarded_of_runs _ h]
  simp [hs, hl]

theorem exec_ctrlw_live (hs : f.sel = 0x103) : exec (.ctrlw f) s =
    writeChecked (s.detour.writeLive (s.getS f.a).toNat).isSome s (s.detourIf (s.detour.writeLive (s.getS f.a).toNat)) := by
  show execCtrlw f s = _
  rw [execCtrlw, atLevel_of_le _ (level_of_packageReg fun _ => by omega), guarded_of_runs _ h]
  simp [hs, hl]

end

theorem exec_quotaWrite_task (h : s.runs f.gd = true) (hl : s.level s.cur = 0) :
    exec (.quotaWrite f) s = .next s.endRegion.advance := by
  show execQuotaWrite f s = _
  rw [execQuotaWrite, guarded_of_runs _ h]
  exact if_pos hl

theorem exec_quotaWrite (h : s.runs f.gd = true) (hl : 1 ≤ s.level s.cur) : exec (.quotaWrite f) s =
    writeChecked (64 ≤ (s.getS f.a).toNat && (s.getS f.a).toNat < 2 ^ 24) s
      (s.modMyPart fun q => { q with quota := (s.getS f.a).toNat }) := by
  show execQuotaWrite f s = _
  rw [execQuotaWrite, guarded_of_runs _ h]
  exact if_neg (by omega)

end

/-! ### The maps of the Detour registers -/

theorem bits_toNat {n : Nat} (x : BitVec n) (lo len : Nat) : bits x.toNat lo len = (x.extractLsb' lo len).toNat := by
  rw [BitVec.extractLsb'_toNat, Nat.shiftRight_eq_div_pow, bits]

theorem bits_eq_zero {n : Nat} (x : BitVec n) (lo len : Nat) : bits x.toNat lo len = 0 ↔ x.extractLsb' lo len = 0 := by
  rw [bits_toNat]
  exact ⟨fun h => BitVec.eq_of_toNat_eq h, fun h => by rw [h]; rfl⟩

theorem Detour.odd_iff (d : Detour) : d.odd = d.phase.getLsbD 0 := by
  simp [Detour.odd, BitVec.getLsbD, Nat.testBit_zero, Bool.beq_eq_decide_eq]
theorem Detour.odd_of {d : Detour} (h : d.phase.getLsbD 0 = true) : d.odd = true := d.odd_iff.trans h
theorem Detour.not_odd_of {d : Detour} (h : ¬ d.phase.getLsbD 0 = true) : d.odd = false := d.odd_iff.trans (Bool.eq_false_of_not_eq_true h)

/-- The next value of `PHASE` as a register holds it. -/
theorem eq_next_phase (d : Detour) (x : Word) : x = (d.phase + 1).setWidth 64 ↔ x.toNat = (d.phase + 1).toNat := by
  have low : (d.phase + 1).toNat < 2 ^ 64 := Nat.lt_trans (d.phase + 1).isLt (by decide)
  rw [← BitVec.toNat_inj, BitVec.toNat_setWidth, Nat.mod_eq_of_lt low]

section
variable {d : Detour} {x : Word}

theorem Detour.writePhase_start (hx : x = (d.phase + 1).setWidth 64) (odd : ¬ d.phase.getLsbD 0 = true) (hp : d.pend = true) :
    d.writePhase x.toNat = some { d with phase := d.phase + 1, pointer := d.smaller, done := false, moving := false, copied := 0 } := by
  simp [writePhase, (eq_next_phase d x).1 hx, not_odd_of odd, hp]

theorem Detour.writePhase_commit (hx : x = (d.phase + 1).setWidth 64) (odd : d.phase.getLsbD 0 = true) (hd : d.done = true) :
    d.writePhase x.toNat = some { d with
      phase := d.phase + 1, live := d.live &&& ~~~BitVec.ofNat 16 (2 ^ d.retire.toNat), capacity := d.smaller, pend := false,
      done := false } := by
  simp [writePhase, (eq_next_phase d x).1 hx, odd_of odd, hd]

theorem Detour.writePhase_refused (h : x ≠ (d.phase + 1).setWidth 64 ∨ (¬ d.phase.getLsbD 0 = true ∧ d.pend = false) ∨
    (d.phase.getLsbD 0 = true ∧ d.done = false)) : d.writePhase x.toNat = none := by
  rw [ne_eq, eq_next_phase] at h
  unfold writePhase
  split
  · rfl
  · rcases h with h | ⟨odd, hp⟩ | ⟨odd, hd⟩
    · exact absurd h ‹_›
    · simp [not_odd_of odd, hp]
    · simp [odd_of odd, hd]

theorem Detour.writeSweep_some (h : x.extractLsb' 52 10 = 0) : d.writeSweep x.toNat = some { d with pause := x.getLsbD 62 } :=
  if_neg fun g => g ((bits_eq_zero x 52 10).2 h)

theorem Detour.writeSweep_refused (h : x.extractLsb' 52 10 ≠ 0) : d.writeSweep x.toNat = none :=
  if_pos fun g => h ((bits_eq_zero x 52 10).1 g)

/-- The bits of a write of `LIVESTACKS` that the map wants 0 (R366). -/
def liveClear (x : Word) : Prop :=
  x.extractLsb' 48 16 = 0 ∧ x.extractLsb' 41 3 = 0 ∧ x.extractLsb' 37 3 = 0 ∧ x.extractLsb' 16 16 = 0

theorem Detour.writeLive_reserved (h : ¬ liveClear x) : d.writeLive x.toNat = none := by
  simp only [liveClear, ← bits_eq_zero] at h
  simp only [writeLive, Bool.or_eq_true, decide_eq_true_eq]
  exact if_pos (by tauto)

/-- A write of `LIVESTACKS` whose reserved bits are 0. -/
theorem Detour.writeLive_clear (h : liveClear x) : d.writeLive x.toNat =
    (if x.getLsbD 40 = d.pend ∧ x.extractLsb' 44 4 = d.retire then some d
     else if ¬ d.phase.getLsbD 0 = true ∧ d.pend = false then
       if x.getLsbD 40 = true ∧ 2 ≤ ((List.range 16).filter fun i => d.live.getLsbD i).length
           ∧ d.live.getLsbD (x.extractLsb' 44 4).toNat = true
       then some { d with pend := true, retire := x.extractLsb' 44 4 } else none
     else if ¬ d.phase.getLsbD 0 = true ∧ x.getLsbD 40 = false then some { d with pend := false, retire := x.extractLsb' 44 4 }
     else none) := by
  obtain ⟨h48, h41, h37, h16⟩ := h
  simp only [← bits_eq_zero] at h48 h41 h37 h16
  have retire : BitVec.ofNat 4 (bits x.toNat 44 4) = x.extractLsb' 44 4 := by rw [bits_toNat, BitVec.ofNat_toNat]; rfl
  have count : d.count = ((List.range 16).filter fun i => d.live.getLsbD i).length := rfl
  have pend : x.toNat.testBit 40 = x.getLsbD 40 := rfl
  have live (i : Nat) : d.live.toNat.testBit i = d.live.getLsbD i := rfl
  simp only [writeLive, h48, h41, h37, h16, ne_eq, not_true_eq_false, decide_false, Bool.or_false, Bool.false_eq_true, if_false,
    retire, pend, live, ← count, odd_iff, Bool.and_eq_true, Bool.not_eq_true', beq_iff_eq, Bool.not_eq_true, decide_eq_true_eq, and_assoc]

end

section
variable {f : FmtS} {s : State} {d : Option Detour}

/-- A write of a Detour register that its map allows. -/
theorem detour_becomes {y : Detour} (e : exec (.ctrlw f) s = writeChecked d.isSome s (s.detourIf d)) (h : d = some y) :
    exec (.ctrlw f) s = .next (State.advance (State.endRegion { s with detour := y })) := by
  subst h; exact e.trans (writeChecked_ok _ _ rfl)

/-- A write of a Detour register that its map refuses. -/
theorem detour_refused (e : exec (.ctrlw f) s = writeChecked d.isSome s (s.detourIf d)) (h : d = none) :
    exec (.ctrlw f) s = .next (s.raise .illegal) := by
  subst h; exact e.trans (writeChecked_refused _ _ rfl)

/-- A limit is written within its range, and refused outside it. -/
theorem limit_written {o : Out} {q : Partition} {g : Partition → Partition} {n lo hi : Nat}
    (e : o = writeChecked (lo ≤ n && n < hi) s (s.modMyPart g)) (hq : s.partitions.find (s.partOf s.cur) = some q) :
    (lo ≤ n → n < hi → o = .next (s.setPartition (s.partOf s.cur) (g q)).endRegion.advance) ∧
      (n < lo ∨ hi ≤ n → o = .next (s.raise .illegal)) := by
  rw [e, modMyPart_of_find g hq]
  exact ⟨fun h1 h2 => writeChecked_ok _ _ (by simp [h1, h2]), fun h => writeChecked_refused _ _ (by simp; omega)⟩

/-! ### The flags -/

theorem exec_vxfAccess_waits (h : s.runs f.gd = true) (hp : ∃ p ∈ s.me.pend, p.sets = true ∧ p.complete s.now = false) (w : Bool) :
    exec (.vxfAccess w f) s = .next (s.stall .flags) := by
  have any : (s.me.pend.any fun p => p.sets && !p.complete s.now) = true := by
    obtain ⟨p, hm, hs, hc⟩ := hp
    exact List.any_eq_true.2 ⟨p, hm, by simp [hs, hc]⟩
  show execVxfAccess w f s = _
  rw [execVxfAccess, guarded_of_runs _ h]
  exact if_pos any

/-- With no result outstanding there are no flags to come. -/
theorem settleFlags_of_none {h : Hart} (hp : h.pend = []) : h.settleFlags = h := by
  obtain ⟨⟩ := h
  simp only at hp
  subst hp
  rfl

/-- With no result outstanding `vxf` is read as it stands. -/
theorem exec_vxfRead (h : s.runs f.gd = true) (hp : s.me.pend = []) :
    exec (.vxfAccess false f) s = .next (s.setS f.d (ctrlValue (s.modMe Hart.settleFlags) f.sel)).advance := by
  show execVxfAccess false f s = _
  rw [execVxfAccess, guarded_of_runs _ h]
  simp only [hp, List.any_nil, Bool.false_eq_true, if_false, Bool.not_false, if_true, State.finish]
  refine congrArg (fun t : State => Host.Outcome.next t.advance) ?_
  exact (modMe_modMe ..).trans (modMe_congr s (by rw [settleFlags_of_none hp]))

theorem exec_vxfWrite (h : s.runs f.gd = true) (hp : s.me.pend = []) : exec (.vxfAccess true f) s =
    writeChecked ((s.getS f.a).toNat < 2 ^ 40) (s.modMe Hart.settleFlags)
      (s.modMe fun h => if f.sel = 5 then { h with vxfLo := s.getS f.a } else { h with vxfHi := s.getS f.a }) := by
  have same : (s.modMe Hart.settleFlags).getS f.a = s.getS f.a := by
    simp only [State.getS, me_modMe, settleFlags_of_none hp]
  show execVxfAccess true f s = _
  rw [execVxfAccess, guarded_of_runs _ h]
  simp only [hp, List.any_nil, Bool.false_eq_true, if_false, Bool.not_true, same]
  refine congrArg (writeChecked _ _) ?_
  exact (modMe_modMe ..).trans (modMe_congr s (by rw [settleFlags_of_none hp]))

end

/-! ### The statement -/

/-- What identifies a slot (R46). -/
theorem ctrlValue_slot {s : State} {c n : Nat} (hc : s.cur = .slot c n) :
    ctrlValue s 0 = BitVec.ofNat 64 n ∧ ctrlValue s 1 = BitVec.ofNat 64 (c % 32) ∧
      ctrlValue s 2 = BitVec.ofNat 64 (s.logicalCore (s.partOf s.cur) c / 32) := by
  refine ⟨?_, ?_, ?_⟩
  · show (match s.cur with | .slot _ n => BitVec.ofNat 64 n | _ => 0) = _
    rw [hc]
  · show (match s.cur with | .sys _ n => BitVec.ofNat 64 n | _ => BitVec.ofNat 64 (hartCore s.cur % 32)) = _
    rw [hc]; rfl
  · show (match s.cur with | .sys _ _ => 0 | _ => BitVec.ofNat 64 (s.logicalCore (s.partOf s.cur) (hartCore s.cur) / 32)) = _
    rw [hc]; rfl

/-- Settles O46: what each control register reads, and what a write of it comes to by its range or map. -/
theorem controlRegisters : Obligations.ControlRegisters := by
  unfold Obligations.ControlRegisters
  refine ⟨fun f s c n hc h => ?_, fun f s h => ⟨fun hs => ⟨fun hx => ?_, fun hx => ?_⟩, fun q hq => ⟨fun hl => ?_, fun hl => ⟨fun hs => ?_,
    fun hs => ?_⟩⟩, fun hl => ⟨?_, ?_, ?_, ?_⟩, fun hl => ⟨?_, ?_, ?_⟩, exec_vxfAccess_waits h, fun hp hs => ⟨?_, fun hx => ?_,
    fun hx => ?_⟩⟩⟩
  · have level : s.level s.cur = 0 := by rw [hc]; rfl
    obtain ⟨slotid, coreid, clusterid⟩ := ctrlValue_slot hc
    have reads {sel : BitVec 12} {x : Word} (low : sel.toNat < 0x100) (value : ctrlValue s sel = x) (hs : f.sel = sel) :
        exec (.ctrlr f) s = .next (s.setS f.d x).advance := by
      subst hs
      rw [exec_ctrlr h (by simp [packageReg_of_lt low]), value]
    exact ⟨reads (by decide) slotid, reads (by decide) coreid, reads (by decide) clusterid, reads (by decide) rfl,
      reads (by decide) rfl, reads (by decide) rfl, reads (by decide) rfl, reads (by decide) rfl, reads (by decide) rfl,
      reads (by decide) rfl, exec_ctrlr_refused level, fun hs hp => exec_ctrlw_below h hs hp (by omega), exec_quotaWrite_task h level⟩
  · rw [exec_ctrlw_rmode h hs, writeChecked_ok _ _ (by simp [hx])]; rfl
  · rw [exec_ctrlw_rmode h hs, writeChecked_refused _ _ (by simp [hx])]
  · exact limit_written (exec_quotaWrite h hl) hq
  · exact limit_written (exec_ctrlw_wdlimit h hl hs) hq
  · exact limit_written (exec_ctrlw_gangwait h hl hs) hq
  · intro hs; rw [exec_ctrlr h fun _ => hl, hs]; rfl
  · intro hs; rw [exec_ctrlr h fun _ => hl, hs]; rfl
  · intro hs; rw [exec_ctrlr h fun _ => hl, hs, ← Detour.sweep_eq]; rfl
  · intro hs; rw [exec_ctrlr h fun _ => hl, hs, ← Detour.liveStacks_eq]; rfl
  · intro hs
    have e := exec_ctrlw_phase h hl hs
    exact ⟨fun hx odd hp => detour_becomes e (Detour.writePhase_start hx odd hp),
      fun hx odd hd => detour_becomes e (Detour.writePhase_commit hx odd hd),
      fun hx => detour_refused e (Detour.writePhase_refused hx)⟩
  · intro hs
    have e := exec_ctrlw_sweep h hl hs
    exact ⟨fun hx => detour_becomes e (Detour.writeSweep_some hx), fun hx => detour_refused e (Detour.writeSweep_refused hx)⟩
  · intro hs
    have e := exec_ctrlw_live h hl hs
    refine ⟨fun hx => detour_refused e (Detour.writeLive_reserved hx), fun hx => ?_⟩
    rw [Detour.writeLive_clear hx] at e
    refine ⟨fun hp hr => detour_becomes e (if_pos ⟨hp, hr⟩), fun differs => ?_⟩
    have differs : ¬ ((s.getS f.a).getLsbD 40 = s.detour.pend ∧ (s.getS f.a).extractLsb' 44 4 = s.detour.retire) := by tauto
    rw [if_neg differs] at e
    refine ⟨fun odd hp set hn live => detour_becomes e ?_, fun odd hp set => detour_becomes e ?_, fun bad => detour_refused e ?_⟩
    · rw [if_pos ⟨odd, hp⟩, if_pos ⟨set, hn, live⟩]
    · rw [if_neg (by simp [hp]), if_pos ⟨odd, set⟩]
    · rcases bad with odd | ⟨hp, set⟩ | ⟨hp, bad⟩
      · rw [if_neg fun g => g.1 odd, if_neg fun g => g.1 odd]
      · rw [if_neg (by simp [hp]), if_neg (by simp [set])]
      · by_cases odd : s.detour.phase.getLsbD 0 = true
        · rw [if_neg fun g => g.1 odd, if_neg fun g => g.1 odd]
        · refine (if_pos ⟨odd, hp⟩).trans (if_neg ?_)
          rintro ⟨set, hn, live⟩
          rcases bad with clear | few | dead
          · rw [set] at clear; cases clear
          · exact absurd hn (Nat.not_le.2 few)
          · rw [live] at dead; cases dead
  · have me : (s.modMe Hart.settleFlags).me = s.me := by rw [me_modMe, settleFlags_of_none hp]
    have value : ctrlValue (s.modMe Hart.settleFlags) f.sel = if f.sel = 5 then s.me.vxfLo else s.me.vxfHi := by
      rcases hs with hs | hs <;> rw [hs]
      · exact congrArg Hart.vxfLo me
      · exact congrArg Hart.vxfHi me
    rw [exec_vxfRead h hp, value]
  · rw [exec_vxfWrite h hp, writeChecked_ok _ _ (by simpa using hx)]
    rcases hs with hs | hs <;> simp only [hs] <;> rfl
  · rw [exec_vxfWrite h hp, writeChecked_refused _ _ (by simpa using hx)]

end Sys2Proof.Machine
end

section
/-! PROOF. The immediate forms, comparison, selection, bit fields and constants (02 R37; 06 R144 to R150). -/

namespace Sys2Proof.Machine

open Sys2Proof

set_option Elab.async false

/-! ### Operands and results of the immediate forms -/

/-- An integer cut to a width may pass a wider one. -/
theorem setWidth_ofInt {v w : Nat} (h : w ≤ v) (z : Int) : (BitVec.ofInt v z).setWidth w = BitVec.ofInt w z := by
  apply BitVec.eq_of_toNat_eq
  have cut : z % ((2 ^ v : Nat) : Int) % ((2 ^ w : Nat) : Int) = z % ((2 ^ w : Nat) : Int) :=
    Int.emod_emod_of_dvd z (Int.natCast_dvd_natCast.2 (Nat.pow_dvd_pow 2 h))
  have nonneg : 0 ≤ z % ((2 ^ v : Nat) : Int) := Int.emod_nonneg _ (Int.natCast_ne_zero.2 (Nat.two_pow_pos v).ne')
  rw [BitVec.toNat_setWidth, BitVec.toNat_ofInt, BitVec.toNat_ofInt, ← cut, Int.toNat_emod nonneg (Int.natCast_nonneg _)]
  rfl

/-- An immediate as an operand of a width is extended, then cut. -/
theorem ofInt_imm {w : Nat} (h : w ≤ 64) (x : BitVec 32) : BitVec.ofInt w x.toInt = (x.signExtend 64).setWidth w :=
  (setWidth_ofInt h _).symm

theorem ofInt_operand (ty : BitVec 4) (x : Word) : BitVec.ofInt (tyWidth ty) (operand ty x) = x.setWidth (tyWidth ty) := by
  rw [operand_eq]
  split
  · exact BitVec.ofInt_toInt
  · rw [BitVec.ofInt_natCast, BitVec.ofNat_toNat, BitVec.setWidth_eq]

/-- A result without SAT is the pattern of the operation's width, extended. -/
theorem result_ofInt (ty : BitVec 4) (z : Int) : result ty false z =
    if tySigned ty then (BitVec.ofInt (tyWidth ty) z).signExtend 64 else (BitVec.ofInt (tyWidth ty) z).setWidth 64 := by
  rw [result_eq]; rfl

/-- A bitwise operation on integers is the one on their patterns. -/
theorem ofInt_pattern {ty : BitVec 4} {op : Nat → Nat → Nat} (f : BitVec (tyWidth ty) → BitVec (tyWidth ty) → BitVec (tyWidth ty))
    (h : ∀ x y, (f x y).toNat = op x.toNat y.toNat) (a b : Int) : BitVec.ofInt (tyWidth ty) (pattern ty op a b) =
    f (BitVec.ofInt (tyWidth ty) a) (BitVec.ofInt (tyWidth ty) b) := by
  rw [pattern, wrapInt_ofInt, wrapInt_ofInt, ← h, BitVec.ofInt_natCast, BitVec.ofNat_toNat, BitVec.setWidth_eq]

/-- An immediate that is a shift amount is not negative. -/
theorem toInt_amount {i : BitVec 32} (h : i.toNat < 64) : i.toInt.toNat = i.toNat := by
  rw [BitVec.toInt_eq_toNat_of_lt (by omega), Int.toNat_natCast]

theorem ofInt_two_pow (w n : Nat) : BitVec.ofInt w (2 ^ n) = BitVec.twoPow w n := by
  apply BitVec.eq_of_toNat_eq
  rw [BitVec.toNat_twoPow, ← BitVec.toNat_ofNat, ← BitVec.ofInt_natCast]
  norm_cast

theorem ofInt_mul_two_pow (w : Nat) (z : Int) (n : Nat) : BitVec.ofInt w (z * 2 ^ n) = BitVec.ofInt w z <<< n := by
  rw [BitVec.ofInt_mul, BitVec.shiftLeft_eq_mul_twoPow, ofInt_two_pow]

theorem ofInt_div_two_pow_unsigned {ty : BitVec 4} (h : tySigned ty = false) (x : Word) (n : Nat) :
    BitVec.ofInt (tyWidth ty) (operand ty x / 2 ^ n) = x.setWidth (tyWidth ty) >>> n := by
  have low : operand ty x / 2 ^ n = (((x.setWidth (tyWidth ty)).toNat / 2 ^ n : Nat) : Int) := by
    simp only [operand_eq, h, Bool.false_eq_true, if_false, Int.natCast_ediv, Int.natCast_pow, Nat.cast_ofNat]
  apply BitVec.eq_of_toNat_eq
  rw [low, BitVec.ofInt_natCast, BitVec.toNat_ofNat, BitVec.toNat_ushiftRight, Nat.shiftRight_eq_div_pow,
    Nat.mod_eq_of_lt (Nat.lt_of_le_of_lt (Nat.div_le_self ..) (BitVec.isLt _))]

theorem ofInt_div_two_pow_signed {ty : BitVec 4} (h : tySigned ty = true) (x : Word) (n : Nat) :
    BitVec.ofInt (tyWidth ty) (operand ty x / 2 ^ n) = (x.setWidth (tyWidth ty)).sshiftRight n := by
  rw [operand_eq, if_pos h, BitVec.sshiftRight, Int.shiftRight_eq_div_pow]
  rfl

section
variable {s : State}

theorem scalarImm_of_runs {f : FmtI} (op : Int → Int → Int) (h : s.runs f.gd = true) :
    scalarImm f op s = .next (s.setS f.d (result f.ty false (op (operand f.ty (s.getS f.a)) f.imm.toInt))).advance :=
  State.guarded_of_runs _ h

/-- An immediate form whose result has the pattern `x`. -/
theorem scalarImm_eq {f : FmtI} {op : Int → Int → Int} {x : BitVec (tyWidth f.ty)} (h : s.runs f.gd = true)
    (hx : BitVec.ofInt (tyWidth f.ty) (op (operand f.ty (s.getS f.a)) f.imm.toInt) = x) :
    scalarImm f op s = .next (s.setS f.d (if tySigned f.ty then x.signExtend 64 else x.setWidth 64)).advance := by
  rw [scalarImm_of_runs op h, result_ofInt, hx]

/-! ### Comparisons -/

theorem scaled_ofInt (z : Int) : scaled (decide (z < 0)) z.natAbs 0 0 = z := by
  simp only [scaled, sub_self, Int.toNat_zero, pow_zero, mul_one, decide_eq_true_eq]
  omega

theorem Num.cmp_ofInt (a b : Int) : (Num.ofInt a).cmp (Num.ofInt b) = some (if a < b then .lt else if a = b then .eq else .gt) := by
  simp only [Num.ofInt, Num.cmp, min_self, scaled_ofInt]

/-- A comparison of two values that are ordered as `less` and `greater` say (R37). -/
def orderHolds (cond : BitVec 4) (less greater unordered : Bool) : Bool :=
  match cond.toNat with
  | 0 => !(less || greater || unordered) | 1 => less || greater || unordered | 2 => less | 3 => !greater && !unordered
  | 4 => greater | 5 => !less && !unordered | 6 => unordered | 7 => !unordered | _ => false

theorem condHolds_eq (cond : BitVec 4) (a b : Num) :
    condHolds cond a b = orderHolds cond (a.cmp b == some .lt) (a.cmp b == some .gt) (a.cmp b == none) := by
  unfold condHolds orderHolds
  rcases a.cmp b with - | - | - | - <;> split <;> simp [*]

/-- The order of two values as the statements write it. -/
def numLess (x y : Num) : Bool :=
  match x, y with
  | .fin n m e, .fin n' m' e' => scaled n m e (min e e') < scaled n' m' e' (min e e')
  | .inf n, .inf n' => n && !n'
  | .inf n, .fin _ _ _ => n
  | .fin _ _ _, .inf n => !n
  | _, _ => false

theorem numLess_eq (a b : Num) : numLess a b = (a.cmp b == some .lt) := by
  rcases a with - | n | ⟨n, m, e⟩ <;> rcases b with - | n' | ⟨n', m', e'⟩
  case fin.fin =>
    simp only [numLess, Num.cmp]
    split
    · next h => simp [h]
    · next h => simp only [h, decide_false]; split <;> rfl
  case inf.inf => cases n <;> cases n' <;> rfl
  case inf.fin => cases n <;> rfl
  case fin.inf => cases n' <;> rfl
  all_goals rfl

theorem numLess_swap (a b : Num) : numLess b a = (a.cmp b == some .gt) := by
  rcases a with - | n | ⟨n, m, e⟩ <;> rcases b with - | n' | ⟨n', m', e'⟩
  case fin.fin =>
    simp only [numLess, Num.cmp, min_comm e' e]
    rcases lt_trichotomy (scaled n m e (min e e')) (scaled n' m' e' (min e e')) with h | h | h
    · simp [h, h.le]
    · simp [h]
    · simp [h, h.ne', h.le]
  case inf.inf => cases n <;> cases n' <;> rfl
  case inf.fin => cases n <;> rfl
  case fin.inf => cases n' <;> rfl
  all_goals rfl

theorem anyNan_pair (a b : Num) : anyNan [a, b] = (a.cmp b == none) := by
  rcases a with - | n | ⟨n, m, e⟩ <;> rcases b with - | n' | ⟨n', m', e'⟩ <;> rfl

theorem compareBy_int {cond ty : BitVec 4} (h : tyInt ty = true) (a b : Word) : compareBy cond ty a.toNat b.toNat =
    orderHolds cond (operand ty a < operand ty b) (operand ty b < operand ty a) false := by
  have value (x : Word) : comparand ty x.toNat = Num.ofInt (operand ty x) := by rw [comparand, if_pos h]; rfl
  rw [compareBy, value, value, condHolds_eq, Num.cmp_ofInt]
  rcases lt_trichotomy (operand ty a) (operand ty b) with o | o | o
  · simp [o, o.not_gt]
  · simp [o]
  · simp [o, o.ne', o.not_gt]

theorem compareBy_values (cond ty : BitVec 4) (a b : Nat) : compareBy cond ty a b =
    orderHolds cond (numLess (comparand ty a) (comparand ty b)) (numLess (comparand ty b) (comparand ty a))
      (anyNan [comparand ty a, comparand ty b]) := by
  rw [numLess_eq, numLess_swap, anyNan_pair]
  exact condHolds_eq ..

theorem tyInt_of_tyIeee {ty : BitVec 4} (h : tyIeee ty = true) : tyInt ty = false := by
  revert ty; decide

/-! ### The instructions -/

variable {f : FmtA}

theorem exec_cset (h : s.runs f.gd = true) : exec (.cset f) s =
    .next (s.setS f.d (if compareBy f.fn f.ty (s.getS f.a).toNat (s.getS f.b).toNat then 1 else 0)).advance := by
  show execCset f s = _
  exact State.guarded_of_runs _ h

theorem exec_csel (h : s.runs f.gd = true) : exec (.csel f) s =
    .next (s.setS f.d (if s.getS f.c = 0 then s.getS f.b else s.getS f.a)).advance := by
  show execCsel f s = _
  refine (State.guarded_of_runs _ h).trans ?_
  rw [ite_not]; rfl

theorem exec_bext (h : s.runs f.gd = true) (lsb w : Nat) (hl : ((s.getS f.b).extractLsb' 0 6).toNat = lsb)
    (hw : ((s.getS f.b).extractLsb' 8 6).toNat + 1 = w) : exec (.bext f) s =
    .next (s.setS f.d (if f.fn = 1 then ((s.getS f.a >>> lsb).setWidth w).signExtend 64
      else ((s.getS f.a >>> lsb).setWidth w).setWidth 64)).advance := by
  have field : (s.getS f.a).toNat / 2 ^ lsb % 2 ^ w = ((s.getS f.a >>> lsb).setWidth w).toNat := by
    rw [BitVec.toNat_setWidth, BitVec.toNat_ushiftRight, Nat.shiftRight_eq_div_pow]
  show execBext f s = _
  refine (State.guarded_of_runs _ h).trans ?_
  simp only [bits_toNat, hl, hw, field, signedOf_toInt, BitVec.ofNat_toNat]
  rfl

theorem exec_bins (h : s.runs f.gd = true) (lsb w : Nat) (m : Word) (hl : ((s.getS f.b).extractLsb' 0 6).toNat = lsb)
    (hw : ((s.getS f.b).extractLsb' 8 6).toNat + 1 = w) (hm : BitVec.ofNat 64 ((2 ^ w - 1) <<< lsb) = m) : exec (.bins f) s =
    .next (s.setS f.d ((s.getS f.d &&& ~~~m) ||| (s.getS f.a <<< lsb &&& m))).advance := by
  show execBins f s = _
  refine (State.guarded_of_runs _ h).trans ?_
  simp only [bits_toNat, hl, hw, ← Nat.shiftLeft_eq, hm]
  rfl

variable {f : FmtI}

theorem exec_li (h : s.runs f.gd = true) : exec (.li f) s = .next (s.setS f.d (f.imm.signExtend 64)).advance := by
  show execLi f s = _
  exact State.guarded_of_runs _ h

theorem exec_lih (h : s.runs f.gd = true) :
    exec (.lih f) s = .next (s.setS f.d (f.imm ++ (s.getS f.d).extractLsb' 0 32)).advance := by
  show execLih f s = _
  rw [← BitVec.setWidth_eq_extractLsb' (by decide)]
  exact State.guarded_of_runs _ h

theorem exec_addpc (h : s.runs f.gd = true) : exec (.addpc f) s = .next (s.setS f.d (s.me.pc + f.imm.signExtend 64)).advance := by
  show execAddpc f s = _
  exact State.guarded_of_runs _ h

end

/-- Settles O7: an immediate form's result has the pattern that the operation on patterns gives, and a comparison goes by the order
of its two values. -/
theorem scalarImmediatesAndFields : Obligations.ScalarImmediatesAndFields := by
  unfold Obligations.ScalarImmediatesAndFields
  refine ⟨fun f s hr hi => ?_, fun f s hr => ⟨fun hi => ?_, fun hi => ?_, exec_csel hr, exec_bext hr _ _ rfl rfl,
    exec_bins hr _ _ _ rfl rfl rfl⟩, fun f s hr => ⟨exec_li hr, exec_lih hr, exec_addpc hr⟩⟩
  · have left := ofInt_operand f.ty (s.getS f.a)
    have right := ofInt_imm (tyWidth_le hi) f.imm
    have bitwise {op : Nat → Nat → Nat} (g) (hg : ∀ x y, (g x y).toNat = op x.toNat y.toNat) :=
      scalarImm_eq (s := s) hr ((ofInt_pattern g hg _ _).trans (congrArg₂ g left right))
    refine ⟨?_, bitwise (· &&& ·) BitVec.toNat_and, bitwise (· ||| ·) BitVec.toNat_or, bitwise (· ^^^ ·) BitVec.toNat_xor, fun hn => ?_⟩
    · exact scalarImm_eq (op := (· + ·)) hr ((BitVec.ofInt_add ..).trans (congrArg₂ _ left right))
    · have amount := toInt_amount (Nat.lt_of_lt_of_le hn (tyWidth_le hi))
      refine ⟨?_, fun hs => ?_, fun hs => ?_⟩
      · refine scalarImm_eq (op := fun a b => a * 2 ^ b.toNat) hr ?_
        rw [amount, ofInt_mul_two_pow, left]
      · refine scalarImm_eq (op := fun a b => a / 2 ^ b.toNat) hr ?_
        rw [amount, ofInt_div_two_pow_unsigned hs]
      · refine scalarImm_eq (op := fun a b => a / 2 ^ b.toNat) hr ?_
        rw [amount, ofInt_div_two_pow_signed hs]
  · rw [exec_cset hr, compareBy_int hi, operand_eq, operand_eq]
    rfl
  · rw [exec_cset hr, compareBy_values]
    simp only [comparand, tyInt_of_tyIeee hi, Bool.false_eq_true, if_false]
    rfl

end Sys2Proof.Machine
end

section
/-! PROOF. The elements of a vector register (08 R186, R187) and the loads (02 R40; 08 R206, R207; 09 R235, R238; 13 R315). -/

namespace Sys2Proof.Machine

open Sys2Proof

set_option Elab.async false

/-! ### Elements of a vector register -/

/-- Numbers side by side, the first lowest: what `ofElems` puts into its register. -/
theorem bits_foldr (w : Nat) (l : List Nat) {e : Nat} (he : e < l.length) :
    bits (l.foldr (fun x acc => x % 2 ^ w + 2 ^ w * acc) 0) (w * e) w = l[e] % 2 ^ w := by
  induction l generalizing e with
  | nil => exact absurd he (Nat.not_lt_zero _)
  | cons x t ih =>
    have pos := Nat.two_pow_pos w
    cases e with
    | zero => simp [bits]
    | succ e =>
      have he' : e < t.length := Nat.lt_of_succ_lt_succ he
      rw [← show _ = (x :: t)[e + 1] % 2 ^ w from ih he', bits, bits, List.foldr_cons, Nat.mul_succ, Nat.add_comm (w * e), pow_add,
        ← Nat.div_div_eq_div_mul, Nat.add_mul_div_left _ _ pos, Nat.div_eq_of_lt (Nat.mod_lt _ pos), Nat.zero_add]

theorem bits_ofNat {n x lo len : Nat} (h : lo + len ≤ n) : bits (BitVec.ofNat n x).toNat lo len = bits x lo len := by
  have hn : 2 ^ n = 2 ^ lo * 2 ^ (n - lo) := by rw [← pow_add]; congr 1; omega
  rw [BitVec.toNat_ofNat, bits, bits, hn, Nat.mod_mul_right_div_self, Nat.mod_mod_of_dvd _ (Nat.pow_dvd_pow 2 (by omega))]

theorem place_le {w e : Nat} (he : e < 512 / w) : w * e + w ≤ 512 :=
  calc w * e + w = w * (e + 1) := rfl
    _ ≤ w * (512 / w) := Nat.mul_le_mul_left w he
    _ ≤ 512 := Nat.mul_div_le 512 w

theorem elem_ofElems {w e : Nat} {l : List Nat} (he : e < l.length) (hp : w * e + w ≤ 512) : elem w (ofElems w l) e = l[e] % 2 ^ w := by
  rw [elem, ofElems, bits_ofNat hp, bits_foldr w l he]

theorem elem_eq_toNat (w : Nat) (x : BitVec 512) (e : Nat) : elem w x e = (x.extractLsb' (w * e) w).toNat := bits_toNat ..

/-- A merged register by element. -/
theorem extract_merge {w e : Nat} (k : BitVec 16) (old : BitVec 512) (g : Nat → Nat) (he : e < 512 / w) :
    (merge w k old g).extractLsb' (w * e) w =
      if active w k e then BitVec.ofNat w (g e) else old.extractLsb' (w * e) w := by
  apply BitVec.eq_of_toNat_eq
  rw [← elem_eq_toNat, merge, elem_ofElems (by simpa using he) (place_le he)]
  simp only [List.getElem_map, List.getElem_range]
  split
  · rw [BitVec.toNat_ofNat]
  · rw [elem_eq_toNat, Nat.mod_eq_of_lt (BitVec.isLt _)]

/-! ### Bytes of a word -/

theorem length_bytes (m : Mem) (a n : Nat) : (m.bytes a n).length = n := by
  induction n generalizing a with
  | zero => rfl
  | succ n ih => exact congrArg (· + 1) (ih (a + 1))

theorem leNat_lt (l : List Byte) : leNat l < 2 ^ (8 * l.length) := by
  induction l with
  | nil => decide
  | cons b t ih =>
    have hb := b.isLt
    rw [leNat, List.length_cons, Nat.mul_succ, pow_add]
    omega

theorem Mem.nat_lt (m : Mem) (a n : Nat) : m.nat a n < 2 ^ (8 * n) := by
  have h := leNat_lt (m.bytes a n)
  rwa [length_bytes] at h

theorem Mem.bits_nat (m : Mem) {a n i : Nat} (hi : i < n) : bits (m.nat a n) (8 * i) 8 = (m.byte (a + i)).toNat := by
  induction n generalizing a i with
  | zero => exact absurd hi (Nat.not_lt_zero _)
  | succ n ih =>
    have head : m.nat a (n + 1) = (m.byte a).toNat + 256 * m.nat (a + 1) n := rfl
    have hb := (m.byte a).isLt
    cases i with
    | zero => rw [head, bits]; simp; omega
    | succ i =>
      have place : a + (i + 1) = a + 1 + i := by omega
      rw [place, ← ih (Nat.lt_of_succ_lt_succ hi), head, bits, bits, Nat.mul_succ, Nat.add_comm (8 * i), pow_add,
        ← Nat.div_div_eq_div_mul]
      congr 2
      omega

/-- A word read from memory has the bytes that lie there. -/
theorem Mem.extract_nat (m : Mem) {w a i : Nat} (hi : i < w / 8) :
    (BitVec.ofNat w (m.nat a (w / 8))).extractLsb' (8 * i) 8 = m.byte (a + i) := by
  apply BitVec.eq_of_toNat_eq
  have hw : 8 * i + 8 ≤ w := by omega
  rw [← bits_toNat, bits_ofNat hw, Mem.bits_nat m hi]

/-! ### Reads of several places -/

namespace State

@[simp] theorem me_touchedAt (s : State) (l : List Nat) (n : Nat) : (s.touchedAt l n).me = s.me := by
  induction l generalizing s with
  | nil => rfl
  | cons a t ih => exact (ih (s.touchDie a n)).trans (me_touchDie ..)

@[simp] theorem unbound_touchedAt (s : State) (l : List Nat) (n : Nat) (r : BitVec 5) :
    (s.touchedAt l n).unbound r = s.unbound r := by simp only [unbound, streamOf, me_touchedAt]

@[simp] theorem getK_touchedAt (s : State) (l : List Nat) (n : Nat) (k : BitVec 5) : (s.touchedAt l n).getK k = s.getK k := by
  simp only [getK, me_touchedAt]

theorem readable_touchDie (s : State) (pa m : Nat) (va : Word) (n : Nat) (e : TlbEntry) :
    (s.touchDie pa m).readable va n e = s.readable va n e := rfl

end State

/-- Elements whose places the hart can read are what lies there. -/
theorem loadAt_of_readable {n : Nat} (va : Nat → Word) (page : Nat → TlbEntry) {s : State} (es : List Nat)
    (h : ∀ e ∈ es, (va e).toNat % n = 0 ∧ s.readable (va e) n (page e) = true) :
    loadAt n (es.map va) s = .ok (es.map fun e => (s.globalFor s.cur).nat ((page e).physical (va e).toNat) n)
      (s.touchedAt (es.map fun e => (page e).physical (va e).toNat) n) := by
  induction es generalizing s with
  | nil => rfl
  | cons e t ih =>
    obtain ⟨aligned, readable⟩ := h e (List.mem_cons_self ..)
    have rest := ih (s := s.touchDie ((page e).physical (va e).toNat) n) fun x hx => h x (List.mem_cons_of_mem _ hx)
    unfold loadAt at rest ⊢
    rw [List.map_cons, Res.collect, checkAt_ok _ _ _ (by simp [aligned])]
    simp only [Res.bind_ok, State.loadBytes_of_readable 0 readable, rest]
    rfl

theorem get_zip_map {g : Nat → Nat} {es : List Nat} {e : Nat} (he : e ∈ es) :
    Table.get ((es.zip (es.map g) : Table Nat Nat)) e 0 = g e := by
  induction es with
  | nil => cases he
  | cons x t ih =>
    by_cases hx : x = e
    · subst hx; simp [Table.get, Table.find]
    · rw [← ih ((List.mem_cons.1 he).resolve_left (Ne.symm hx))]
      simp [Table.get, Table.find, hx]

/-! ### The loads -/

section
variable {f : FmtM} {s : State}

theorem ea_eq (f : FmtM) (s : State) : s.ea f = s.getS f.a + f.offs.signExtend 64 := rfl

theorem exec_ld {e : TlbEntry} (hr : s.runs f.gd = true) (ha : (s.ea f).toNat % sizeBytes f.size = 0)
    (h : s.readable (s.ea f) (sizeBytes f.size) e = true) : exec (.ld f) s =
    .next ((s.touchDie (e.physical (s.ea f).toNat) (sizeBytes f.size)).later f.la 5 (destS f.d
      (extend f.ty ((s.globalFor s.cur).nat (e.physical (s.ea f).toNat) (sizeBytes f.size)))) (0, 0)).advance := by
  show execLd f s = _
  rw [execLd, State.guarded_of_runs _ hr]
  dsimp only
  rw [checkAt_ok _ _ _ (beq_iff_eq.2 ha), Res.run_ok, State.loadBytes_of_readable 0 h, Res.run_ok]
  rfl

theorem exec_wfv {e : TlbEntry} (hr : s.runs f.gd = true) (ha : (s.ea f).toNat % sizeBytes f.size = 0)
    (h : s.readable (s.ea f) (sizeBytes f.size) e = true) : exec (.wfv f) s =
    let x := (s.globalFor s.cur).nat (e.physical (s.ea f).toNat) (sizeBytes f.size)
    let u := s.touchDie (e.physical (s.ea f).toNat) (sizeBytes f.size)
    .next (if compareBy (f.c.setWidth 4) f.ty x (s.getS f.b).toNat then (u.later f.la 0 (destS f.d (extend f.ty x)) (0, 0)).advance
      else u.stall .value) := by
  show execWfv f s = _
  rw [execWfv, State.guarded_of_runs _ hr]
  dsimp only
  rw [checkAt_ok _ _ _ (beq_iff_eq.2 ha), Res.run_ok, State.loadBytes_of_readable 0 h, Res.run_ok]
  exact (apply_ite Host.Outcome.next ..).symm

/-- What `putLoaded` leaves to land: what was read in the active elements, the old register's elsewhere. -/
theorem putLoaded_eq {w cycles : Nat} {g : Nat → Nat} (h : s.unbound f.d = true) :
    putLoaded f w cycles (activeList w (s.getK f.c)) ((activeList w (s.getK f.c)).map g) s =
      .next (s.later f.la cycles [.v f.d.toNat (merge w (s.getK f.c) (s.me.regs.getV f.d)
        fun e => Table.get (((activeList w (s.getK f.c)).zip ((activeList w (s.getK f.c)).map g) : Table Nat Nat)) e 0)] (0, 0)).advance := by
  rw [putLoaded, State.putV_of_unbound _ _ _ _ _ _ h]
  rfl

theorem sizeBytes_tySize {ty : BitVec 4} (h : tyPlain ty = true) : sizeBytes (tySize ty) = tyWidth ty / 8 := by
  revert ty; decide

/-- The elements that a masked load has put together. -/
def loadedV (s : State) (f : FmtM) (va : Nat → Word) (page : Nat → TlbEntry) : BitVec 512 :=
  merge (tyWidth f.ty) (s.getK f.c) (s.me.regs.getV f.d) fun e =>
    (s.globalFor s.cur).nat ((page e).physical (va e).toNat) (tyWidth f.ty / 8)

theorem merge_congr {w : Nat} {k : BitVec 16} (old : BitVec 512) {g h : Nat → Nat} (hg : ∀ e ∈ activeList w k, g e = h e) :
    merge w k old g = merge w k old h := by
  refine congrArg (ofElems w) (List.map_congr_left fun e he => ?_)
  split
  · next ha => exact hg e (List.mem_filter.2 ⟨he, ha⟩)
  · rfl

/-- A vector load of readable elements: `vld` and `vgath` after their own checks. -/
theorem putLoaded_of_readable (va : Nat → Word) (page : Nat → TlbEntry) (hd : s.unbound f.d = true)
    (h : ∀ e ∈ activeList (tyWidth f.ty) (s.getK f.c), (va e).toNat % (tyWidth f.ty / 8) = 0 ∧
      s.readable (va e) (tyWidth f.ty / 8) (page e) = true) :
    ((loadAt (tyWidth f.ty / 8) ((activeList (tyWidth f.ty) (s.getK f.c)).map va) s).run fun xs s' =>
      putLoaded f (tyWidth f.ty) 5 (activeList (tyWidth f.ty) (s.getK f.c)) xs s') =
    .next ((s.touchedAt ((activeList (tyWidth f.ty) (s.getK f.c)).map fun e => (page e).physical (va e).toNat) (tyWidth f.ty / 8)).later
      f.la 5 [.v f.d.toNat (loadedV s f va page)] (0, 0)).advance := by
  rw [loadAt_of_readable va page _ h, Res.run_ok]
  generalize ht : s.touchedAt _ _ = t
  have hk : s.getK f.c = t.getK f.c := by rw [← ht, State.getK_touchedAt]
  have hm : s.me = t.me := by rw [← ht, State.me_touchedAt]
  rw [loadedV, hk, hm, putLoaded_eq (by rw [← ht, State.unbound_touchedAt, hd]), merge_congr _ fun e he => get_zip_map he]

theorem exec_vld (va : Nat → Word) (page : Nat → TlbEntry) (hr : s.runs f.gd = true) (hd : s.unbound f.d = true)
    (ha : (s.ea f).toNat % (tyWidth f.ty / 8) = 0) (hva : va = fun e => s.ea f + BitVec.ofNat 64 (e * (tyWidth f.ty / 8)))
    (h : ∀ e ∈ activeList (tyWidth f.ty) (s.getK f.c), (va e).toNat % (tyWidth f.ty / 8) = 0 ∧
      s.readable (va e) (tyWidth f.ty / 8) (page e) = true) : exec (.vld f) s =
    .next ((s.touchedAt ((activeList (tyWidth f.ty) (s.getK f.c)).map fun e => (page e).physical (va e).toNat) (tyWidth f.ty / 8)).later
      f.la 5 [.v f.d.toNat (loadedV s f va page)] (0, 0)).advance := by
  show execVld f s = _
  rw [execVld, State.guarded_of_runs _ hr]
  dsimp only
  rw [checkAt_ok _ _ _ (beq_iff_eq.2 ha), Res.run_ok, ← putLoaded_of_readable va page hd h, hva]

/-- An index of `vgath` is the element, signed. -/
theorem indexed_eq (w : Nat) (base : Word) (v : BitVec 512) :
    indexed w base v = fun e => base + (v.extractLsb' (w * e) w).signExtend 64 := by
  funext e
  rw [indexed, elem_eq_toNat, signedOf_toInt]
  rfl

theorem exec_vgath (va : Nat → Word) (page : Nat → TlbEntry) (hr : s.runs f.gd = true) (hd : s.unbound f.d = true)
    (hb : s.unbound f.b = true)
    (hva : va = fun e => s.ea f + ((s.me.regs.getV f.b).extractLsb' (tyWidth f.ty * e) (tyWidth f.ty)).signExtend 64)
    (h : ∀ e ∈ activeList (tyWidth f.ty) (s.getK f.c), (va e).toNat % (tyWidth f.ty / 8) = 0 ∧
      s.readable (va e) (tyWidth f.ty / 8) (page e) = true) : exec (.vgath f) s =
    .next ((s.touchedAt ((activeList (tyWidth f.ty) (s.getK f.c)).map fun e => (page e).physical (va e).toNat) (tyWidth f.ty / 8)).later
      f.la 5 [.v f.d.toNat (loadedV s f va page)] (0, 0)).advance := by
  show execVgath f s = _
  rw [execVgath, State.guarded_of_runs _ hr]
  dsimp only
  rw [State.sources_of_unbound _ (by simpa using hb), Res.run_ok, ← putLoaded_of_readable va page hd h, hva]
  simp only [List.map_cons, List.getD_cons_zero, indexed_eq]

/-- The bytes of a loaded register are those that lie at its active elements' places; the other elements stay. -/
theorem extract_loadedV (va : Nat → Word) (page : Nat → TlbEntry) {e : Nat} (he : e < 512 / tyWidth f.ty) :
    if active (tyWidth f.ty) (s.getK f.c) e then
      ∀ i < tyWidth f.ty / 8, ((loadedV s f va page).extractLsb' (tyWidth f.ty * e) (tyWidth f.ty)).extractLsb' (8 * i) 8 =
        (s.globalFor s.cur).byte ((page e).physical (va e).toNat + i)
    else (loadedV s f va page).extractLsb' (tyWidth f.ty * e) (tyWidth f.ty) =
      (s.me.regs.getV f.d).extractLsb' (tyWidth f.ty * e) (tyWidth f.ty) := by
  rw [loadedV, extract_merge _ _ _ he]
  split
  · next on => exact fun i hi => Mem.extract_nat _ hi
  · rfl

end

theorem tyWidth_of_plain {ty : BitVec 4} (h : tyPlain ty = true) : 8 * (tyWidth ty / 8) = tyWidth ty := by
  revert ty; decide

/-- Settles O21: what a load leaves to land is the number whose bytes lie in memory at the place that the page's entry gives; reads
only note that they used their lines, so that the elements of a vector load are as the hart sees them before it. -/
theorem loadsReadTheirBytes : Obligations.LoadsReadTheirBytes := by
  unfold Obligations.LoadsReadTheirBytes
  intro f s page hr
  refine ⟨fun hp hsize ha h => ?_, fun hd => ⟨fun hp ha h => ?_, fun hw hb h => ?_⟩⟩
  · have hn := sizeBytes_tySize hp
    rw [← hsize] at hn
    rw [← hn] at ha h
    have hlt := Mem.nat_lt (s.globalFor s.cur) ((page 0).physical (s.ea f).toNat) (tyWidth f.ty / 8)
    rw [tyWidth_of_plain hp] at hlt
    refine ⟨BitVec.ofNat _ ((s.globalFor s.cur).nat ((page 0).physical (s.ea f).toNat) (tyWidth f.ty / 8)),
      fun i hi => Mem.extract_nat _ hi, ?_, fun _ => ?_⟩
    · rw [exec_ld hr ha h, hn, extend_eq]
      rfl
    · rw [exec_wfv hr ha h, hn]
      dsimp only
      rw [extend_eq, BitVec.toNat_ofNat, Nat.mod_eq_of_lt hlt]
      rfl
  · exact ⟨_, exec_vld _ page hr hd ha rfl fun e he => h e (List.mem_range.1 (List.mem_filter.1 he).1) (List.mem_filter.1 he).2,
      fun e he => extract_loadedV _ page he⟩
  · exact ⟨_, exec_vgath _ page hr hd hb rfl fun e he => h e (List.mem_range.1 (List.mem_filter.1 he).1) (List.mem_filter.1 he).2,
      fun e he => extract_loadedV _ page he⟩

end Sys2Proof.Machine
end

section
/-! PROOF. One rounding (02 R35; 07 R161, R171 to R174) over the rational numbers: the value of a code, the two codes next to an exact
magnitude, and the choice of a mode between them. -/

namespace Sys2Proof.Machine

open Sys2Proof

set_option Elab.async false

/-! ### Dyadic numbers -/

/-- The number m 2^e. -/
def dyadic (m : Nat) (e : Int) : ℚ := m * 2 ^ e

/-- The same with its sign. -/
def signedDyadic (neg : Bool) (m : Nat) (e : Int) : ℚ := if neg then -dyadic m e else dyadic m e

theorem two_zpow_pos (e : Int) : (0 : ℚ) < 2 ^ e := zpow_pos (by norm_num) e

theorem two_pow_toNat {z : Int} (h : 0 ≤ z) : ((2 ^ z.toNat : Nat) : ℚ) = 2 ^ z := by
  conv_rhs => rw [← Int.toNat_of_nonneg h]
  push_cast
  rw [zpow_natCast]

theorem two_zpow_sub (a b : Int) : (2 : ℚ) ^ (a - b) = 2 ^ a / 2 ^ b := zpow_sub₀ (by norm_num) a b

theorem two_zpow_add (a b : Int) : (2 : ℚ) ^ (a + b) = 2 ^ a * 2 ^ b := zpow_add₀ (by norm_num) a b

theorem two_zpow_add_one (a : Int) : (2 : ℚ) ^ (a + 1) = 2 * 2 ^ a := by rw [two_zpow_add, zpow_one, mul_comm]

theorem two_zpow_natCast (n : Nat) : (2 : ℚ) ^ (n : Int) = ((2 ^ n : Nat) : ℚ) := by push_cast; exact zpow_natCast ..

theorem two_zpow_le {a b : Int} : (2 : ℚ) ^ a ≤ 2 ^ b ↔ a ≤ b := zpow_le_zpow_iff_right₀ (by norm_num)
theorem two_zpow_lt {a b : Int} : (2 : ℚ) ^ a < 2 ^ b ↔ a < b := zpow_lt_zpow_iff_right₀ (by norm_num)

theorem dyadic_nonneg (m : Nat) (e : Int) : 0 ≤ dyadic m e := mul_nonneg (Nat.cast_nonneg m) (two_zpow_pos e).le

theorem dyadic_shift {e lo : Int} (m : Nat) (h : lo ≤ e) : ((m * 2 ^ (e - lo).toNat : Nat) : ℚ) = dyadic m e / 2 ^ lo := by
  rw [Nat.cast_mul, two_pow_toNat (Int.sub_nonneg.2 h), two_zpow_sub, dyadic, mul_div_assoc]

/-- What the statements count in units of 2^lo is the number itself over that unit. -/
theorem cast_scaled {e lo : Int} (neg : Bool) (m : Nat) (h : lo ≤ e) :
    ((scaled neg m e lo : Int) : ℚ) = signedDyadic neg m e / 2 ^ lo := by
  have shift := dyadic_shift m h
  cases neg
  · exact shift
  · rw [scaled, if_pos rfl, signedDyadic, if_pos rfl, neg_div, ← shift, Int.cast_neg, Int.cast_natCast]

theorem scaled_le {n n' : Bool} {m m' : Nat} {e e' lo : Int} (h : lo ≤ e) (h' : lo ≤ e') :
    scaled n m e lo ≤ scaled n' m' e' lo ↔ signedDyadic n m e ≤ signedDyadic n' m' e' := by
  rw [← Int.cast_le (R := ℚ), cast_scaled _ _ h, cast_scaled _ _ h', div_le_div_iff_of_pos_right (two_zpow_pos lo)]

theorem scaled_lt {n n' : Bool} {m m' : Nat} {e e' lo : Int} (h : lo ≤ e) (h' : lo ≤ e') :
    scaled n m e lo < scaled n' m' e' lo ↔ signedDyadic n m e < signedDyadic n' m' e' := by
  rw [← Int.cast_lt (R := ℚ), cast_scaled _ _ h, cast_scaled _ _ h', div_lt_div_iff_of_pos_right (two_zpow_pos lo)]

/-- The order of a magnitude and another number. -/
theorem Mag.compare_gt {m m' : Nat} {e e' : Int} : Mag.compare ⟨m, e, false⟩ m' e' = .gt ↔ dyadic m' e' < dyadic m e := by
  have left := dyadic_shift m (min_le_left e e')
  have right := dyadic_shift m' (min_le_right e e')
  rw [← div_lt_div_iff_of_pos_right (two_zpow_pos (min e e')), ← left, ← right, Nat.cast_lt]
  simp only [Mag.compare, Bool.false_eq_true, if_false]
  split
  · next h => simp [h.le]
  · split
    · next h => simp [h]
    · next h h' => simp; omega

theorem Mag.compare_lt {m m' : Nat} {e e' : Int} : Mag.compare ⟨m, e, false⟩ m' e' = .lt ↔ dyadic m e < dyadic m' e' := by
  have left := dyadic_shift m (min_le_left e e')
  have right := dyadic_shift m' (min_le_right e e')
  rw [← div_lt_div_iff_of_pos_right (two_zpow_pos (min e e')), ← left, ← right, Nat.cast_lt]
  simp only [Mag.compare, Bool.false_eq_true, if_false]
  split
  · next h => simp [h]
  · next h =>
    simp only [h, iff_false]
    split <;> simp

/-! ### The two neighbours of a number, and the choice between them -/

/-- A number from one neighbour up to the next, with the bits that decide a rounding: whether it is at least half way, and whether
anything lies below that bit. -/
structure Between (v a b : ℚ) (half rest : Bool) : Prop where
  le : a ≤ v
  lt : v < b
  half_iff : half = true ↔ a + b ≤ 2 * v
  inexact_iff : (half || rest) = true ↔ v ≠ a
  rest_iff : half = true → (rest = true ↔ a + b ≠ 2 * v)

namespace Between

variable {v a b : ℚ} {half rest : Bool}

theorem scale (h : Between v a b half rest) {c : ℚ} (hc : 0 < c) : Between (v * c) (a * c) (b * c) half rest where
  le := mul_le_mul_of_nonneg_right h.le hc.le
  lt := mul_lt_mul_of_pos_right h.lt hc
  half_iff := by rw [h.half_iff, ← add_mul, ← mul_assoc, mul_le_mul_iff_of_pos_right hc]
  inexact_iff := by rw [h.inexact_iff, ne_eq, ne_eq, mul_left_inj' hc.ne']
  rest_iff g := by rw [h.rest_iff g, ← add_mul, ← mul_assoc, ne_eq, ne_eq, mul_left_inj' hc.ne']

end Between

/-- A whole number of units lies at its lower neighbour. -/
theorem Between.of_exact (n : Nat) : Between (n : ℚ) n (n + 1) false false where
  le := le_refl _
  lt := lt_add_one _
  half_iff := by simp; linarith
  inexact_iff := by simp
  rest_iff := nofun

/-- The quotient of a number by an even one, with the bit below and what lies under it. -/
theorem Between.of_div (m : Nat) {d : Nat} (hd : 0 < d) :
    Between ((m : ℚ) / (2 * d : Nat)) (m / (2 * d) : Nat) ((m / (2 * d) : Nat) + 1) (m / d % 2 == 1) (m % d != 0) := by
  have pos : (0 : ℚ) < ((2 * d : Nat) : ℚ) := Nat.cast_pos.2 (by omega)
  have low : m % d < d := Nat.mod_lt _ hd
  have parts : m = 2 * (d * (m / (2 * d))) + d * (m / d % 2) + m % d := by
    rw [Nat.mul_comm 2 d, ← Nat.div_div_eq_div_mul]
    calc m = d * (m / d) + m % d := (Nat.div_add_mod m d).symm
      _ = d * (2 * (m / d / 2) + m / d % 2) + m % d := by rw [Nat.div_add_mod (m / d) 2]
      _ = _ := by ring
  suffices key : Between (m : ℚ) ((2 * (d * (m / (2 * d))) : Nat) : ℚ) ((2 * (d * (m / (2 * d))) + 2 * d : Nat) : ℚ)
      (m / d % 2 == 1) (m % d != 0) by
    have scaled := key.scale (inv_pos.2 pos)
    rw [← div_eq_mul_inv, ← div_eq_mul_inv, ← div_eq_mul_inv] at scaled
    convert scaled using 1
    · rw [eq_div_iff pos.ne']; push_cast; ring
    · rw [eq_div_iff pos.ne']; push_cast; ring
  generalize d * (m / (2 * d)) = p at parts ⊢
  generalize m % d = r at low parts ⊢
  rcases Nat.mod_two_eq_zero_or_one (m / d) with c | c <;> rw [c] at parts ⊢
  · exact ⟨Nat.cast_le.2 (by omega), Nat.cast_lt.2 (by omega), by norm_cast; simp; omega, by norm_cast; simp; omega, nofun⟩
  · exact ⟨Nat.cast_le.2 (by omega), Nat.cast_lt.2 (by omega), by norm_cast; simp; omega, by norm_cast; simp; omega,
      fun _ => by norm_cast; simp; omega⟩

/-- A magnitude cut at a unit 2^q lies between two numbers of units. -/
theorem Mag.split_between (m : Nat) (e q : Int) : Between (dyadic m e / 2 ^ q) ((Mag.split ⟨m, e, false⟩ q).1 : Nat)
    ((Mag.split ⟨m, e, false⟩ q).1 + 1) (Mag.split ⟨m, e, false⟩ q).2.1 (Mag.split ⟨m, e, false⟩ q).2.2 := by
  unfold Mag.split
  by_cases he : e ≤ q
  · simp only [if_pos he, Bool.false_or]
    split
    · next hk =>
      have : e = q := by omega
      subst this
      rw [dyadic, mul_div_cancel_right₀ _ (two_zpow_pos e).ne']
      exact Between.of_exact m
    · next hk =>
      have unit : (2 : ℚ) ^ e / 2 ^ q = (((2 * 2 ^ ((q - e).toNat - 1) : Nat) : ℚ))⁻¹ := by
        rw [← Nat.pow_succ', Nat.succ_eq_add_one, Nat.sub_add_cancel (Nat.pos_of_ne_zero hk), two_pow_toNat (by omega), two_zpow_sub,
          inv_div]
      have power : 2 ^ (q - e).toNat = 2 * 2 ^ ((q - e).toNat - 1) := by
        rw [← Nat.pow_succ', Nat.succ_eq_add_one, Nat.sub_add_cancel (Nat.pos_of_ne_zero hk)]
      rw [dyadic, mul_div_assoc, unit, power, ← div_eq_mul_inv]
      exact Between.of_div m (Nat.two_pow_pos _)
  · simp only [if_neg he]
    rw [← dyadic_shift m (not_le.1 he).le]
    exact Between.of_exact _

/-- Whether a mode takes the upper of two neighbours (R171): `odd` is the parity of the lower one's code. -/
theorem Mode.up_iff {md : Mode} {neg half rest odd : Bool} {v a b : ℚ} (h : Between v a b half rest) :
    md.up neg half rest odd = true ↔ match md with
      | .rne => a + b < 2 * v ∨ a + b = 2 * v ∧ odd = true
      | .rmm => a + b ≤ 2 * v
      | .rtz => False
      | .rdn => neg = true ∧ v ≠ a
      | .rup => neg = false ∧ v ≠ a := by
  cases md with
  | rne =>
    simp only [Mode.up, Bool.and_eq_true, Bool.or_eq_true]
    constructor
    · rintro ⟨hh, hr | ho⟩
      · exact .inl (lt_of_le_of_ne (h.half_iff.1 hh) ((h.rest_iff hh).1 hr))
      · exact (h.half_iff.1 hh).lt_or_eq.imp id fun e => ⟨e, ho⟩
    · rintro (hl | ⟨he, ho⟩)
      · have hh := h.half_iff.2 hl.le
        exact ⟨hh, .inl ((h.rest_iff hh).2 hl.ne)⟩
      · exact ⟨h.half_iff.2 he.le, .inr ho⟩
  | rmm => exact h.half_iff
  | rtz => simp [Mode.up]
  | rdn => rw [Mode.up, Bool.and_eq_true, h.inexact_iff]
  | rup => rw [Mode.up, Bool.and_eq_true, h.inexact_iff, Bool.not_eq_true']

/-- The neighbour that a mode takes. -/
def Mode.pick (md : Mode) (neg half rest odd : Bool) (a b : ℚ) : ℚ := if md.up neg half rest odd then b else a

namespace Mode

variable {md : Mode} {neg half rest odd : Bool} {v a b : ℚ}

theorem pick_of_up (h : md.up neg half rest odd = true) : md.pick neg half rest odd a b = b := if_pos h
theorem pick_of_not_up (h : ¬ md.up neg half rest odd = true) : md.pick neg half rest odd a b = a := if_neg h

/-- An exact number has no upper neighbour to take. -/
theorem inexact_of_up (h : md.up neg half rest odd = true) : (half || rest) = true := by
  cases md <;> simp [up] at h ⊢ <;> simp [h]

/-- A rounding changes the number exactly when something lies between it and its lower neighbour. -/
theorem pick_ne_iff (h : Between v a b half rest) : md.pick neg half rest odd a b ≠ v ↔ (half || rest) = true := by
  by_cases hu : md.up neg half rest odd = true
  · rw [pick_of_up hu]
    exact iff_of_true h.lt.ne' (inexact_of_up hu)
  · rw [pick_of_not_up hu, h.inexact_iff]
    exact ne_comm

/-- Toward the lower neighbour: the modes that round inward. -/
theorem pick_inward (hm : md = .rtz ∨ md = .rdn ∧ neg = false ∨ md = .rup ∧ neg = true) : md.pick neg half rest odd a b = a := by
  refine pick_of_not_up ?_
  rcases hm with rfl | ⟨rfl, rfl⟩ | ⟨rfl, rfl⟩ <;> simp [up]

/-- Away from zero: the number itself, or the upper neighbour. -/
theorem pick_outward (h : Between v a b half rest) (hm : md = .rdn ∧ neg = true ∨ md = .rup ∧ neg = false) :
    md.pick neg half rest odd a b = if v = a then a else b := by
  have hu : md.up neg half rest odd = true ↔ v ≠ a := by
    rw [up_iff h]
    rcases hm with ⟨rfl, rfl⟩ | ⟨rfl, rfl⟩ <;> simp
  by_cases hv : v = a
  · rw [if_pos hv, pick_of_not_up fun g => hu.1 g hv]
  · rw [if_neg hv, pick_of_up (hu.2 hv)]

theorem pick_nearest (h : Between v a b half rest) (hm : md = .rne ∨ md = .rmm) :
    2 * |md.pick neg half rest odd a b - v| ≤ b - a := by
  have hu := up_iff (md := md) (neg := neg) (odd := odd) h
  have hl := h.lt
  have hle := h.le
  by_cases g : md.up neg half rest odd = true
  · have above : a + b ≤ 2 * v := by
      rcases hm with rfl | rfl
      · exact (hu.1 g).elim le_of_lt fun e => e.1.le
      · exact hu.1 g
    rw [pick_of_up g, abs_of_nonneg (by linarith)]
    linarith
  · have below : 2 * v ≤ a + b := by
      rcases hm with rfl | rfl
      · exact not_lt.1 fun c => g (hu.2 (.inl c))
      · exact (not_le.1 fun c => g (hu.2 c)).le
    rw [pick_of_not_up g, abs_of_nonpos (by linarith)]
    linarith

/-- Half way, `rne` takes the neighbour whose code is even and `rmm` the upper one. -/
theorem pick_tie (h : Between v a b half rest) (ht : a + b = 2 * v) :
    (md = .rne → md.up neg half rest odd = odd) ∧ (md = .rmm → md.up neg half rest odd = true) := by
  constructor
  · rintro rfl
    rw [Bool.eq_iff_iff, up_iff h]
    simp [ht]
  · rintro rfl
    exact (up_iff h).2 ht.le

end Mode

/-! ### A rounding with its sign -/

/-- A number with a sign. -/
def signedRat (neg : Bool) (v : ℚ) : ℚ := if neg then -v else v

theorem signedDyadic_eq (neg : Bool) (m : Nat) (e : Int) : signedDyadic neg m e = signedRat neg (dyadic m e) := rfl

@[simp] theorem abs_signedRat (neg : Bool) (v : ℚ) : |signedRat neg v| = |v| := by cases neg <;> simp [signedRat]

theorem signedRat_sub (neg : Bool) (v w : ℚ) : signedRat neg v - signedRat neg w = signedRat neg (v - w) := by
  cases neg <;> simp [signedRat]; ring

theorem signedRat_inj {neg : Bool} {v w : ℚ} : signedRat neg v = signedRat neg w ↔ v = w := by cases neg <;> simp [signedRat]

/-- A set of magnitudes leaves the gap between two neighbours free. -/
def Apart (a b z : ℚ) : Prop := z ≤ a ∨ b ≤ z

/-- What a mode makes of a number x, among numbers whose magnitudes keep apart from the gap that x lies in (R35, R171). -/
structure RoundedTo (md : Mode) (a b x y : ℚ) : Prop where
  inward : md = .rtz → |y| ≤ |x|
  down : md = .rdn → y ≤ x
  up : md = .rup → x ≤ y
  nearest : md = .rne ∨ md = .rmm → ∀ z, Apart a b |z| → |y - x| ≤ |z - x|
  inward_least : md = .rtz → ∀ z, Apart a b |z| → |z| ≤ |x| → |z| ≤ |y|
  down_least : md = .rdn → ∀ z, Apart a b |z| → z ≤ x → z ≤ y
  up_least : md = .rup → ∀ z, Apart a b |z| → x ≤ z → y ≤ z

section
variable {md : Mode} {neg half rest odd : Bool} {v a b : ℚ}

theorem Apart.le_of_le {z : ℚ} (h : Between v a b half rest) (hz : Apart a b z) (hle : z ≤ v) : z ≤ a :=
  hz.resolve_right fun g => absurd (g.trans hle) (not_le.2 h.lt)

theorem Apart.ge_of_ge {z : ℚ} (h : Between v a b half rest) (hz : Apart a b z) (hge : v ≤ z) : (if v = a then a else b) ≤ z := by
  split
  · next e => exact e ▸ hge
  · next ne => exact hz.resolve_left fun g => ne (le_antisymm (hge.trans g) h.le)

theorem Mode.pick_eq_or (md : Mode) (neg half rest odd : Bool) (a b : ℚ) :
    md.pick neg half rest odd a b = a ∨ md.pick neg half rest odd a b = b := by
  unfold Mode.pick; split <;> simp

theorem Mode.pick_dist_le (h : Between v a b half rest) (hm : md = .rne ∨ md = .rmm) {z : ℚ} (hz : Apart a b z) :
    |md.pick neg half rest odd a b - v| ≤ |z - v| := by
  have near := Mode.pick_nearest (neg := neg) (odd := odd) h hm
  have hle := h.le
  have hl := h.lt
  have left : v - a ≤ |z - v| ∨ b - v ≤ |z - v| := hz.imp (fun g => by rw [abs_sub_comm]; exact le_abs.2 (.inl (by linarith)))
    fun g => le_abs.2 (.inl (by linarith))
  rcases Mode.pick_eq_or md neg half rest odd a b with e | e <;> rw [e] at near ⊢
  · rw [abs_of_nonpos (by linarith)] at near ⊢
    rcases left with g | g <;> linarith
  · rw [abs_of_nonneg (by linarith)] at near ⊢
    rcases left with g | g <;> linarith

/-- Another number as near is the other neighbour, and the number lies half way. -/
theorem Mode.tie_of_dist_eq (h : Between v a b half rest) (hm : md = .rne ∨ md = .rmm) {z : ℚ} (hz : Apart a b z)
    (hne : z ≠ md.pick neg half rest odd a b) (he : |md.pick neg half rest odd a b - v| = |z - v|) : a + b = 2 * v := by
  have near := Mode.pick_nearest (neg := neg) (odd := odd) h hm
  have hle := h.le
  have hl := h.lt
  rcases Mode.pick_eq_or md neg half rest odd a b with e | e <;> rw [e] at near hne he
  · rw [abs_of_nonpos (by linarith)] at near he
    rcases hz with g | g
    · rw [abs_of_nonpos (by linarith)] at he
      exact absurd (by linarith) hne
    · rw [abs_of_nonneg (by linarith)] at he
      linarith
  · rw [abs_of_nonneg (by linarith)] at near he
    rcases hz with g | g
    · rw [abs_of_nonpos (by linarith)] at he
      linarith
    · rw [abs_of_nonneg (by linarith)] at he
      exact absurd (by linarith) hne

theorem abs_dist_le {x : ℚ} (neg : Bool) (hv : 0 ≤ v) (hx : x = signedRat neg v) (z : ℚ) : |(|z| - v)| ≤ |z - x| := by
  have hax : |x| = v := by rw [hx, abs_signedRat, abs_of_nonneg hv]
  rw [← hax]
  exact abs_abs_sub_abs_le ..

theorem dist_signedRat (neg : Bool) (p v : ℚ) : |signedRat neg p - signedRat neg v| = |p - v| := by
  rw [signedRat_sub, abs_signedRat]

theorem roundedTo_pick (h : Between v a b half rest) (ha : 0 ≤ a) :
    RoundedTo md a b (signedRat neg v) (signedRat neg (md.pick neg half rest odd a b)) := by
  have hv : 0 ≤ v := ha.trans h.le
  have hb : 0 ≤ b := hv.trans h.lt.le
  have inside {z : ℚ} (hz : Apart a b |z|) (hle : |z| ≤ v) : |z| ≤ a := hz.le_of_le h hle
  have beyond {z : ℚ} (hz : Apart a b |z|) (hge : v ≤ |z|) := hz.ge_of_ge h hge
  have outward : v ≤ if v = a then a else b := by split <;> [exact le_of_eq ‹_›; exact h.lt.le]
  have below {z : ℚ} (hz : Apart a b |z|) (hle : z ≤ v) : z ≤ a := by
    rcases le_total 0 z with g | g
    · exact (le_abs_self z).trans (inside hz (by rwa [abs_of_nonneg g]))
    · exact g.trans ha
  have above {z : ℚ} (hz : Apart a b |z|) (hge : v ≤ z) : (if v = a then a else b) ≤ z := by
    have hz0 : |z| = z := abs_of_nonneg (hv.trans hge)
    exact hz0 ▸ beyond hz (hz0.symm ▸ hge)
  refine ⟨?_, ?_, ?_, fun hm z hz => ?_, ?_, ?_, ?_⟩
  · rintro rfl
    rw [Mode.pick_inward (.inl rfl), abs_signedRat, abs_signedRat, abs_of_nonneg ha, abs_of_nonneg hv]
    exact h.le
  · rintro rfl
    cases neg
    · rw [Mode.pick_inward (.inr (.inl ⟨rfl, rfl⟩))]
      exact h.le
    · rw [Mode.pick_outward h (.inl ⟨rfl, rfl⟩)]
      exact neg_le_neg outward
  · rintro rfl
    cases neg
    · rw [Mode.pick_outward h (.inr ⟨rfl, rfl⟩)]
      exact outward
    · rw [Mode.pick_inward (.inr (.inr ⟨rfl, rfl⟩))]
      exact neg_le_neg h.le
  · rw [dist_signedRat]
    exact (Mode.pick_dist_le h hm hz).trans (abs_dist_le neg hv rfl z)
  · rintro rfl z hz hle
    rw [Mode.pick_inward (.inl rfl), abs_signedRat, abs_of_nonneg ha]
    rw [abs_signedRat, abs_of_nonneg hv] at hle
    exact inside hz hle
  · rintro rfl z hz hle
    cases neg
    · rw [Mode.pick_inward (.inr (.inl ⟨rfl, rfl⟩))]
      exact below hz hle
    · rw [Mode.pick_outward h (.inl ⟨rfl, rfl⟩)]
      exact le_neg.2 (above (by rwa [abs_neg]) (le_neg.2 hle))
  · rintro rfl z hz hge
    cases neg
    · rw [Mode.pick_outward h (.inr ⟨rfl, rfl⟩)]
      exact above hz hge
    · rw [Mode.pick_inward (.inr (.inr ⟨rfl, rfl⟩))]
      exact neg_le.1 (below (by rwa [abs_neg]) (neg_le.1 hge))

/-- The tie of a nearest mode: the parity of the code that it takes, and its side. -/
theorem tie_pick (h : Between v a b half rest) (ha : 0 ≤ a) (hv : 0 < v) (hm : md = .rne ∨ md = .rmm) {z : ℚ} (hz : Apart a b |z|)
    (hne : z ≠ signedRat neg (md.pick neg half rest odd a b))
    (he : |signedRat neg (md.pick neg half rest odd a b) - signedRat neg v| = |z - signedRat neg v|) :
    (md = .rne → md.up neg half rest odd = odd) ∧ (md = .rmm → |signedRat neg v| < |signedRat neg (md.pick neg half rest odd a b)|) := by
  have hb : 0 ≤ b := (hv.trans h.lt).le
  have hp : 0 ≤ md.pick neg half rest odd a b := by
    rcases Mode.pick_eq_or md neg half rest odd a b with e | e <;> rw [e] <;> assumption
  rw [dist_signedRat] at he
  have same : |md.pick neg half rest odd a b - v| = |(|z| - v)| :=
    le_antisymm (Mode.pick_dist_le h hm hz) (he ▸ abs_dist_le neg hv.le rfl z)
  have other : |z| ≠ md.pick neg half rest odd a b := by
    intro hz'
    have opposite : z = signedRat neg (-md.pick neg half rest odd a b) := by
      cases neg <;> simp only [signedRat, Bool.false_eq_true, if_true, if_false, neg_neg] at hne ⊢
      · exact (eq_or_eq_neg_of_abs_eq hz').resolve_left hne
      · exact (eq_or_eq_neg_of_abs_eq hz').resolve_right hne
    rw [opposite, dist_signedRat, ← abs_neg (-_ - v), neg_sub, sub_neg_eq_add, abs_of_pos (a := v + _) (by linarith)] at he
    have zero : md.pick neg half rest odd a b = 0 := by
      rcases abs_cases (md.pick neg half rest odd a b - v) with c | c <;> linarith
    exact hne (by rw [opposite, zero, neg_zero])
  have tie := Mode.tie_of_dist_eq h hm hz other same
  have choice := Mode.pick_tie (md := md) (neg := neg) (odd := odd) h tie
  refine ⟨choice.1, fun hr => ?_⟩
  rw [abs_signedRat, abs_signedRat, Mode.pick_of_up (choice.2 hr), abs_of_nonneg hv.le, abs_of_nonneg hb]
  exact h.lt

end

end Sys2Proof.Machine
end

section
/-! PROOF. The codes of the floating formats (07 R160 to R167) by the size of their values, and one rounding into a format (07 R171 to
R174). -/

namespace Sys2Proof.Machine

open Sys2Proof

set_option Elab.async false

namespace NumFmt

/-- The formats of 07 that have more than one exponent: what the TYPE codes name that are not integers'. -/
def Floating : NumFmt → Prop
  | .int _ _ => False
  | .ieee w t => 0 < t ∧ t + 2 ≤ w
  | .f4 => True
  | .b8 p _ _ => 1 ≤ p ∧ p ≤ 7

/-- A format of one sign only (R166). -/
def oneSigned : NumFmt → Bool
  | .b8 _ u _ => u
  | _ => false

/-- The magnitude of a code as a number. -/
def mag (f : NumFmt) (c : Nat) : ℚ := dyadic (f.magnitude c).1 (f.magnitude c).2

variable {f : NumFmt}

theorem magnitude_subnormal {c : Nat} (h : c / 2 ^ f.trail = 0) : f.magnitude c = (c % 2 ^ f.trail, 1 - f.bias - f.trail) := if_pos h

theorem magnitude_normal {c : Nat} (h : c / 2 ^ f.trail ≠ 0) :
    f.magnitude c = (2 ^ f.trail + c % 2 ^ f.trail, (c / 2 ^ f.trail : Nat) - f.bias - f.trail) := if_neg h

/-- The exponent of a code's last bit. -/
theorem magnitude_exp (f : NumFmt) (c : Nat) : (f.magnitude c).2 = ((c / 2 ^ f.trail - 1 : Nat) : Int) + 1 - f.bias - f.trail := by
  by_cases h : c / 2 ^ f.trail = 0
  · rw [magnitude_subnormal h, h]; rfl
  · rw [magnitude_normal h]
    dsimp only
    generalize c / 2 ^ f.trail = e at h
    omega

/-- A code's significand: the code, less one whole exponent's codes for each exponent below its own. -/
theorem magnitude_significand (f : NumFmt) (c : Nat) : (f.magnitude c).1 + (c / 2 ^ f.trail - 1) * 2 ^ f.trail = c := by
  have hc := Nat.div_add_mod c (2 ^ f.trail)
  rw [Nat.mul_comm] at hc
  by_cases h : c / 2 ^ f.trail = 0
  · rw [magnitude_subnormal h]
    rw [h] at hc ⊢
    omega
  · obtain ⟨e, he⟩ := Nat.exists_eq_succ_of_ne_zero h
    rw [magnitude_normal h]
    rw [he, Nat.succ_mul] at hc
    rw [he, Nat.succ_sub_one]
    dsimp only
    omega

/-- A code's exponent goes up by one, or stays, at the next code. -/
theorem exponent_succ (t c : Nat) : (c + 1) / 2 ^ t - 1 = c / 2 ^ t - 1 ∨
    (c + 1) / 2 ^ t - 1 = c / 2 ^ t - 1 + 1 ∧ c + 1 = (c / 2 ^ t - 1 + 2) * 2 ^ t := by
  rw [Nat.succ_div]
  split
  · next h =>
    by_cases z : c / 2 ^ t = 0
    · left; rw [z]
    · right
      have whole := Nat.div_mul_cancel h
      rw [Nat.succ_div_of_dvd h] at whole
      generalize c / 2 ^ t = e at z whole
      exact ⟨by omega, by rw [← whole]; congr 1; omega⟩
  · left; rfl

/-- The next code's value is one unit in the last place greater, at the step to the next exponent too. -/
theorem mag_succ (f : NumFmt) (c : Nat) : f.mag (c + 1) = f.mag c + 2 ^ (f.magnitude c).2 := by
  have here := magnitude_significand f c
  have next := magnitude_significand f (c + 1)
  rw [mag, mag, dyadic, dyadic]
  rcases exponent_succ f.trail c with same | ⟨more, whole⟩
  · rw [same] at next
    have exp : (f.magnitude (c + 1)).2 = (f.magnitude c).2 := by rw [magnitude_exp, magnitude_exp, same]
    have sig : (f.magnitude (c + 1)).1 = (f.magnitude c).1 + 1 := by omega
    rw [exp, sig]
    push_cast
    ring
  · have exp : (f.magnitude (c + 1)).2 = (f.magnitude c).2 + 1 := by rw [magnitude_exp, magnitude_exp, more]; push_cast; ring
    rw [more] at next
    have sig : 2 * (f.magnitude (c + 1)).1 = (f.magnitude c).1 + 1 := by
      rw [Nat.add_mul] at whole next
      omega
    have sig' : (2 : ℚ) * (f.magnitude (c + 1)).1 = (f.magnitude c).1 + 1 := by exact_mod_cast sig
    rw [exp, two_zpow_add_one]
    linear_combination (2 ^ (f.magnitude c).2 : ℚ) * sig'

theorem mag_strictMono (f : NumFmt) : StrictMono f.mag :=
  strictMono_nat_of_lt_succ fun c => by rw [mag_succ]; exact lt_add_of_pos_right _ (two_zpow_pos _)

theorem mag_zero (f : NumFmt) : f.mag 0 = 0 := by
  rw [mag, magnitude_subnormal (Nat.zero_div _), Nat.zero_mod, dyadic, Nat.cast_zero, zero_mul]

theorem mag_nonneg (f : NumFmt) (c : Nat) : 0 ≤ f.mag c := dyadic_nonneg ..

theorem mag_le_iff {c c' : Nat} : f.mag c ≤ f.mag c' ↔ c ≤ c' := (mag_strictMono f).le_iff_le
theorem mag_lt_iff {c c' : Nat} : f.mag c < f.mag c' ↔ c < c' := (mag_strictMono f).lt_iff_lt

/-- No code's value lies between those of two codes one apart. -/
theorem apart_mag (f : NumFmt) (c k : Nat) : Apart (f.mag c) (f.mag (c + 1)) (f.mag k) := by
  rw [Apart, mag_le_iff, mag_le_iff]
  omega

end NumFmt

/-! ### The codes next to an exact magnitude -/

/-- The leading one of a magnitude. -/
theorem Mag.top_spec {m : Nat} (e : Int) (hm : m ≠ 0) :
    (2 : ℚ) ^ (Mag.top ⟨m, e, false⟩) ≤ dyadic m e ∧ dyadic m e < 2 ^ (Mag.top ⟨m, e, false⟩ + 1) := by
  have low : ((2 ^ Nat.log2 m : Nat) : ℚ) ≤ m := Nat.cast_le.2 (Nat.log2_self_le hm)
  have high : (m : ℚ) < ((2 ^ (Nat.log2 m + 1) : Nat) : ℚ) := Nat.cast_lt.2 Nat.lt_log2_self
  rw [← two_zpow_natCast] at low high
  have top : Mag.top ⟨m, e, false⟩ = (Nat.log2 m : Int) + e := Int.add_comm ..
  rw [top, dyadic, Int.add_right_comm, two_zpow_add, two_zpow_add _ e]
  exact ⟨mul_le_mul_of_nonneg_right low (two_zpow_pos e).le, mul_lt_mul_of_pos_right (by exact_mod_cast high) (two_zpow_pos e)⟩

namespace NumFmt

variable {f : NumFmt}

/-- The unit of the codes next to a magnitude. -/
def unitExp (f : NumFmt) (x : Mag) : Int := max (x.top - f.trail) (1 - f.bias - f.trail)

/-- The lower code by the number of units. -/
theorem lower_eq (f : NumFmt) (x : Mag) : f.lower x =
    (if (x.split (f.unitExp x)).1 < 2 ^ f.trail then (x.split (f.unitExp x)).1
      else (f.unitExp x + f.trail + f.bias).toNat * 2 ^ f.trail + ((x.split (f.unitExp x)).1 - 2 ^ f.trail),
      (x.split (f.unitExp x)).2.1, (x.split (f.unitExp x)).2.2) := rfl

/-- The number of units is the significand of the lower code, whose exponent is the unit. -/
theorem magnitude_lower {m : Nat} {e : Int} (hm : m ≠ 0) :
    f.magnitude (f.lower ⟨m, e, false⟩).1 = ((Mag.split ⟨m, e, false⟩ (f.unitExp ⟨m, e, false⟩)).1, f.unitExp ⟨m, e, false⟩) := by
  obtain ⟨low, high⟩ := Mag.top_spec e hm
  have cut := Mag.split_between m e (f.unitExp ⟨m, e, false⟩)
  have pos := Nat.two_pow_pos f.trail
  rw [lower_eq]
  dsimp only
  have hq : f.unitExp ⟨m, e, false⟩ = max (Mag.top ⟨m, e, false⟩ - f.trail) (1 - f.bias - f.trail) := rfl
  generalize f.unitExp ⟨m, e, false⟩ = q at cut hq
  generalize (Mag.split ⟨m, e, false⟩ q).1 = k at cut
  generalize Mag.top ⟨m, e, false⟩ = top at low high hq
  have units : k < 2 * 2 ^ f.trail := by
    have bound : dyadic m e / 2 ^ q < ((2 * 2 ^ f.trail : Nat) : ℚ) := by
      rw [div_lt_iff₀ (two_zpow_pos q), ← Nat.pow_succ', ← two_zpow_natCast, ← two_zpow_add]
      exact high.trans_le (two_zpow_le.2 (by push_cast; omega))
    exact Nat.cast_lt.1 (cut.le.trans_lt bound)
  have full : 1 - f.bias - f.trail < q → 2 ^ f.trail ≤ k := by
    intro g
    have bound : ((2 ^ f.trail : Nat) : ℚ) ≤ dyadic m e / 2 ^ q := by
      rw [le_div_iff₀ (two_zpow_pos q), ← two_zpow_natCast, ← two_zpow_add]
      exact (two_zpow_le.2 (by omega)).trans low
    exact Nat.le_of_lt_succ (Nat.cast_lt.1 (bound.trans_lt (by push_cast; exact cut.lt)))
  split
  · next small =>
    have hq' : q = 1 - f.bias - f.trail := le_antisymm (not_lt.1 fun g => absurd (full g) (not_le.2 small)) (hq ▸ le_max_right ..)
    rw [magnitude_subnormal (Nat.div_eq_of_lt small), Nat.mod_eq_of_lt small, hq']
  · next large =>
    have rest : k - 2 ^ f.trail < 2 ^ f.trail := by omega
    have quot : ((q + f.trail + f.bias).toNat * 2 ^ f.trail + (k - 2 ^ f.trail)) / 2 ^ f.trail = (q + f.trail + f.bias).toNat := by
      rw [Nat.mul_comm, Nat.mul_add_div pos, Nat.div_eq_of_lt rest, Nat.add_zero]
    have rem : ((q + f.trail + f.bias).toNat * 2 ^ f.trail + (k - 2 ^ f.trail)) % 2 ^ f.trail = k - 2 ^ f.trail := by
      rw [Nat.mul_comm, Nat.mul_add_mod, Nat.mod_eq_of_lt rest]
    have least : 1 - f.bias - f.trail ≤ q := hq ▸ le_max_right ..
    rw [magnitude_normal (by rw [quot]; omega), quot, rem]
    exact Prod.ext (by dsimp only; omega) (by dsimp only; omega)

/-- An exact magnitude lies from its lower code's value up to the next code's. -/
theorem lower_between (f : NumFmt) {m : Nat} {e : Int} (hm : m ≠ 0) :
    Between (dyadic m e) (f.mag (f.lower ⟨m, e, false⟩).1) (f.mag ((f.lower ⟨m, e, false⟩).1 + 1)) (f.lower ⟨m, e, false⟩).2.1
      (f.lower ⟨m, e, false⟩).2.2 := by
  have cut := (Mag.split_between m e (f.unitExp ⟨m, e, false⟩)).scale (two_zpow_pos (f.unitExp ⟨m, e, false⟩))
  rw [div_mul_cancel₀ _ (two_zpow_pos _).ne', add_mul, one_mul] at cut
  rw [mag_succ, mag, magnitude_lower hm]
  exact cut

/-- The code that a rounding takes where the magnitude is no greater than the largest value. -/
def pickCode (f : NumFmt) (md : Mode) (neg : Bool) (x : Mag) : Nat :=
  if md.up neg (f.lower x).2.1 (f.lower x).2.2 ((f.lower x).1 % 2 == 1) then (f.lower x).1 + 1 else (f.lower x).1

theorem mag_pickCode (f : NumFmt) (md : Mode) (neg : Bool) (x : Mag) : f.mag (f.pickCode md neg x) =
    md.pick neg (f.lower x).2.1 (f.lower x).2.2 ((f.lower x).1 % 2 == 1) (f.mag (f.lower x).1) (f.mag ((f.lower x).1 + 1)) :=
  apply_ite f.mag ..

theorem pickCode_le {md : Mode} {neg : Bool} {m : Nat} {e : Int} (hm : m ≠ 0) (h : dyadic m e ≤ f.mag f.maxCode) :
    f.pickCode md neg ⟨m, e, false⟩ ≤ f.maxCode := by
  have near := lower_between f (e := e) hm
  unfold pickCode
  split
  · next up =>
    have ne := near.inexact_iff.1 (Mode.inexact_of_up up)
    exact mag_lt_iff.1 (lt_of_lt_of_le (lt_of_le_of_ne near.le ne.symm) h)
  · exact mag_le_iff.1 (near.le.trans h)

/-- A tie broken by the parity of the lower code leaves an even code. -/
theorem pickCode_even {md : Mode} {neg : Bool} {x : Mag}
    (h : md.up neg (f.lower x).2.1 (f.lower x).2.2 ((f.lower x).1 % 2 == 1) = ((f.lower x).1 % 2 == 1)) :
    f.pickCode md neg x % 2 = 0 := by
  unfold pickCode
  rw [h]
  by_cases odd : (f.lower x).1 % 2 = 1
  · rw [if_pos (by simpa using odd)]; omega
  · rw [if_neg (by simpa using odd)]; omega

theorem roundMag_of_le {md : Mode} {sat neg : Bool} {m : Nat} {e : Int} (h : dyadic m e ≤ f.mag f.maxCode) :
    f.roundMag md sat neg ⟨m, e, false⟩ =
      (if f.pickCode md neg ⟨m, e, false⟩ = 0 then f.zeroCode neg else f.signed neg (f.pickCode md neg ⟨m, e, false⟩),
        { nx := (f.lower ⟨m, e, false⟩).2.1 || (f.lower ⟨m, e, false⟩).2.2
          uf := ((f.lower ⟨m, e, false⟩).2.1 || (f.lower ⟨m, e, false⟩).2.2) && f.tiny md neg ⟨m, e, false⟩ }) := by
  have hc : (Mag.compare ⟨m, e, false⟩ (f.magnitude f.maxCode).1 (f.magnitude f.maxCode).2 == .gt) = false := by
    rw [beq_eq_false_iff_ne, ne_eq, Mag.compare_gt]
    exact not_lt.2 h
  unfold roundMag
  dsimp only
  rw [hc]
  rfl

/-! ### Codes and their values -/

/-- The code of a sign and a magnitude as a rounding delivers it (R173). -/
def coded (f : NumFmt) (neg : Bool) (c : Nat) : Nat := if c = 0 then f.zeroCode neg else f.signed neg c

theorem maxCode_ieee (w t : Nat) : (NumFmt.ieee w t).maxCode = (2 ^ (w - 1 - t) - 1) * 2 ^ t - 1 := rfl

theorem ieee_top_lt {w t : Nat} (h : (NumFmt.ieee w t).Floating) :
    0 < (2 ^ (w - 1 - t) - 1) * 2 ^ t ∧ (2 ^ (w - 1 - t) - 1) * 2 ^ t < 2 ^ (w - 1) := by
  obtain ⟨ht, hw⟩ : 0 < t ∧ t + 2 ≤ w := h
  have one : 2 ≤ 2 ^ (w - 1 - t) := Nat.le_self_pow (by omega) 2
  have whole : 2 ^ (w - 1) = 2 ^ (w - 1 - t) * 2 ^ t := by rw [← pow_add]; congr 1; omega
  have pos := Nat.two_pow_pos t
  exact ⟨Nat.mul_pos (by omega) pos, whole ▸ Nat.mul_lt_mul_of_pos_right (by omega) pos⟩

theorem value_ieee {w t : Nat} (hf : (NumFmt.ieee w t).Floating) (neg : Bool) {c : Nat} (hc : c < 2 ^ (w - 1)) :
    (NumFmt.ieee w t).value ((NumFmt.ieee w t).signed neg c) =
      if c = (2 ^ (w - 1 - t) - 1) * 2 ^ t then .inf neg
      else if (2 ^ (w - 1 - t) - 1) * 2 ^ t < c then .nan (c % 2 ^ t < 2 ^ (t - 1))
      else .fin neg ((NumFmt.ieee w t).magnitude c).1 ((NumFmt.ieee w t).magnitude c).2 := by
  have hw : 2 ^ w = 2 * 2 ^ (w - 1) := by
    obtain ⟨_, hw⟩ : 0 < t ∧ t + 2 ≤ w := hf
    rw [← Nat.pow_succ']; congr 1; omega
  have code : (NumFmt.ieee w t).signed neg c = (if neg then 2 ^ (w - 1) else 0) + c := by cases neg <;> simp [signed]
  have cut : (NumFmt.ieee w t).signed neg c % 2 ^ w = (if neg then 2 ^ (w - 1) else 0) + c := by
    rw [code, Nat.mod_eq_of_lt]; split <;> omega
  have low : ((if neg then 2 ^ (w - 1) else 0) + c) % 2 ^ (w - 1) = c := by
    split
    · rw [Nat.add_mod_left, Nat.mod_eq_of_lt hc]
    · rw [Nat.zero_add, Nat.mod_eq_of_lt hc]
  have sign : decide (2 ^ (w - 1) ≤ (if neg then 2 ^ (w - 1) else 0) + c) = neg := by
    cases neg
    · simpa using hc
    · simp
  simp only [value, cut, low, sign]

/-- A finite code's value has the magnitude of a code up to the greatest. -/
theorem magnitude_of_value (hf : f.Floating) {code m : Nat} {n : Bool} {e : Int} (h : f.value code = .fin n m e) :
    ∃ c ≤ f.maxCode, f.magnitude c = (m, e) := by
  cases f with
  | int => exact absurd hf id
  | ieee w t =>
    have bound := ieee_top_lt hf
    simp only [value] at h
    split at h
    · cases h
    · split at h
      · cases h
      · injection h with h1 h2 h3
        refine ⟨code % 2 ^ w % 2 ^ (w - 1), by rw [maxCode_ieee]; omega, Prod.ext h2 h3⟩
  | f4 =>
    injection h with h1 h2 h3
    exact ⟨code % 8, Nat.le_of_lt_succ (Nat.mod_lt _ (by decide)), Prod.ext h2 h3⟩
  | b8 p u x =>
    cases u
    · simp only [value] at h
      split at h
      · cases h
      · split at h
        · cases h
        · next not_inf =>
          injection h with h1 h2 h3
          refine ⟨code % 256 % 128, ?_, Prod.ext h2 h3⟩
          cases x <;> simp [maxCode] at not_inf ⊢ <;> omega
    · simp only [value] at h
      split at h
      · cases h
      · split at h
        · cases h
        · next not_nan not_inf =>
          injection h with h1 h2 h3
          refine ⟨code % 256, ?_, Prod.ext h2 h3⟩
          cases x <;> simp [maxCode] at not_nan not_inf ⊢ <;> omega

/-- A format whose one zero has no sign (R165). -/
def oneZero : NumFmt → Bool
  | .b8 _ _ _ => true
  | _ => false

theorem maxCode_pos (hf : f.Floating) : 0 < f.maxCode := by
  cases f with
  | int => exact absurd hf id
  | ieee w t =>
    obtain ⟨ht, hw⟩ : 0 < t ∧ t + 2 ≤ w := hf
    have one : 2 ≤ 2 ^ (w - 1 - t) := Nat.le_self_pow (by omega) 2
    have two : 2 ≤ 2 ^ t := Nat.le_self_pow (by omega) 2
    have : 1 * 2 ≤ (2 ^ (w - 1 - t) - 1) * 2 ^ t := Nat.mul_le_mul (by omega) two
    rw [maxCode_ieee]; omega
  | f4 => decide
  | b8 p u x => cases u <;> cases x <;> simp [maxCode]

theorem value_coded_ieee {w t : Nat} (hf : (NumFmt.ieee w t).Floating) (neg : Bool) {c : Nat} (hc : c ≤ (NumFmt.ieee w t).maxCode) :
    (NumFmt.ieee w t).value ((NumFmt.ieee w t).coded neg c) =
      .fin neg ((NumFmt.ieee w t).magnitude c).1 ((NumFmt.ieee w t).magnitude c).2 := by
  have bound := ieee_top_lt hf
  rw [maxCode_ieee] at hc
  have same : (NumFmt.ieee w t).coded neg c = (NumFmt.ieee w t).signed neg c := by
    unfold coded; split
    · next z => rw [z]; rfl
    · rfl
  rw [same, value_ieee hf neg (by omega), if_neg (by omega), if_neg (by omega)]

theorem value_coded_f4 (neg : Bool) {c : Nat} (hc : c ≤ NumFmt.f4.maxCode) :
    NumFmt.f4.value (NumFmt.f4.coded neg c) = .fin neg (NumFmt.f4.magnitude c).1 (NumFmt.f4.magnitude c).2 := by
  have small : c < 8 := Nat.lt_succ_of_le hc
  have same : NumFmt.f4.coded neg c = (if neg then 8 else 0) + c := by cases neg <;> simp [coded, signed, zeroCode]; omega
  have low : ((if neg then 8 else 0) + c) % 8 = c := by cases neg <;> simp <;> omega
  have sign : decide (8 ≤ ((if neg then 8 else 0) + c) % 16) = neg := by cases neg <;> simp <;> omega
  simp only [same, value, low, sign]

theorem value_coded_b8 (p : Nat) (x neg : Bool) {c : Nat} (hc : c ≤ (NumFmt.b8 p false x).maxCode) :
    (NumFmt.b8 p false x).value ((NumFmt.b8 p false x).coded neg c) =
      .fin (neg && !(c == 0)) ((NumFmt.b8 p false x).magnitude c).1 ((NumFmt.b8 p false x).magnitude c).2 := by
  have small : c ≤ 127 - (if x then 1 else 0) := hc
  have same : (NumFmt.b8 p false x).coded neg c = (if neg && !(c == 0) then 128 else 0) + c := by
    cases neg <;> by_cases z : c = 0 <;> simp [coded, signed, zeroCode, z]
  have whole : ((if neg && !(c == 0) then 128 else 0) + c) % 256 = (if neg && !(c == 0) then 128 else 0) + c :=
    Nat.mod_eq_of_lt (by split <;> omega)
  have low : ((if neg && !(c == 0) then 128 else 0) + c) % 128 = c := by split <;> omega
  have sign : decide (128 ≤ (if neg && !(c == 0) then 128 else 0) + c) = (neg && !(c == 0)) := by
    cases neg <;> by_cases z : c = 0 <;> simp [z]; omega
  have not_nan : ¬ (if neg && !(c == 0) then 128 else 0) + c = 0x80 := by
    cases neg <;> by_cases z : c = 0 <;> simp [z]; omega
  have not_inf : ¬ ((x && decide (c = 127)) = true) := by cases x <;> simp at small ⊢; omega
  simp only [same, value, whole, low, sign, not_nan, not_inf, if_false]
  rfl

theorem value_coded_unsigned (p : Nat) (x : Bool) {c : Nat} (hc : c ≤ (NumFmt.b8 p true x).maxCode) :
    (NumFmt.b8 p true x).value ((NumFmt.b8 p true x).coded false c) =
      .fin false ((NumFmt.b8 p true x).magnitude c).1 ((NumFmt.b8 p true x).magnitude c).2 := by
  have small : c ≤ 254 - (if x then 1 else 0) := hc
  have same : (NumFmt.b8 p true x).coded false c = c := by
    unfold coded; split
    · next z => rw [z]; rfl
    · rfl
  have whole : c % 256 = c := Nat.mod_eq_of_lt (by omega)
  have not_inf : ¬ ((x && decide (c = 254)) = true) := by cases x <;> simp at small ⊢; omega
  simp only [same, value, whole, not_inf]
  exact if_neg (by omega)

/-- A delivered code has the sign and the magnitude that it was made of; a binary8 zero is +0. -/
theorem value_coded (hf : f.Floating) {neg : Bool} {c : Nat} (hs : f.oneSigned = true → neg = false) (hc : c ≤ f.maxCode) :
    f.value (f.coded neg c) = .fin (neg && !(f.oneZero && c == 0)) (f.magnitude c).1 (f.magnitude c).2 := by
  cases f with
  | int => exact absurd hf id
  | ieee w t => simpa [oneZero] using value_coded_ieee hf neg hc
  | f4 => simpa [oneZero] using value_coded_f4 neg hc
  | b8 p u x =>
    cases u
    · simpa [oneZero] using value_coded_b8 p x neg hc
    · rw [hs rfl]
      exact value_coded_unsigned p x hc

/-! ### Underflow (R173) -/

end NumFmt

/-- A mode takes a magnitude v below the smallest normal value n up to n, where the unit below n is u; with no trailing bits the
tie stays below (log entry 71). -/
def Mode.Reaches (md : Mode) (neg : Bool) (trail : Nat) (n u v : ℚ) : Prop :=
  match md with
  | .rne => 2 * n - u < 2 * v ∨ trail ≠ 0 ∧ 2 * n - u = 2 * v
  | .rmm => 2 * n - u ≤ 2 * v
  | .rdn => neg = true ∧ n - u < v
  | .rup => neg = false ∧ n - u < v
  | .rtz => False

theorem Mode.Reaches.le {md : Mode} {neg : Bool} {trail : Nat} {n u v : ℚ} (hu : 0 < u) (h : md.Reaches neg trail n u v) :
    n - u ≤ v := by
  cases md with
  | rne => rcases h with h | ⟨_, h⟩ <;> linarith
  | rmm => have h : 2 * n - u ≤ 2 * v := h; linarith
  | rdn => exact h.2.le
  | rup => exact h.2.le
  | rtz => exact absurd h id

namespace NumFmt

variable {f : NumFmt}

/-- The parity that breaks a tie where the exponent has no bound. -/
def oddBelow (f : NumFmt) (q : Int) (k : Nat) : Bool := if f.trail = 0 then (q + f.trail + f.bias) % 2 == 1 else k % 2 == 1

/-- The magnitude rounded with an unbounded exponent, in units of 2^q. -/
def unbounded (f : NumFmt) (md : Mode) (neg : Bool) (x : Mag) (q : Int) : Nat :=
  if md.up neg (x.split q).2.1 (x.split q).2.2 (f.oddBelow q (x.split q).1) then (x.split q).1 + 1 else (x.split q).1

theorem tiny_eq (f : NumFmt) (md : Mode) (neg : Bool) (x : Mag) : f.tiny md neg x = true ↔ x.top < 1 - f.bias ∧
    dyadic (f.unbounded md neg x (x.top - f.trail)) (x.top - f.trail) < 2 ^ (1 - f.bias) := by
  unfold tiny
  dsimp only
  split
  · next h =>
    have left := dyadic_shift (f.unbounded md neg x (x.top - f.trail)) (min_le_left (x.top - f.trail) (1 - f.bias))
    have right := dyadic_shift 1 (min_le_right (x.top - f.trail) (1 - f.bias))
    rw [Nat.one_mul] at right
    have one : dyadic 1 (1 - f.bias) = 2 ^ (1 - f.bias) := by rw [dyadic, Nat.cast_one, one_mul]
    rw [decide_eq_true_iff, ← one, ← div_lt_div_iff_of_pos_right (two_zpow_pos (min (x.top - f.trail) (1 - f.bias))), ← left, ← right,
      Nat.cast_lt]
    simp only [h, true_and, unbounded, oddBelow]
    norm_cast
  · next h => simp [h]

section
variable {m : Nat} {e : Int}

/-- The upper neighbour below the smallest normal value reaches it only from the exponent next below, with all bits one. -/
theorem next_reaches_iff (hm : m ≠ 0) (ht : Mag.top ⟨m, e, false⟩ < 1 - f.bias) {k : Nat} {q : Int}
    (hq : q = Mag.top ⟨m, e, false⟩ - f.trail) (hk : k * 2 ^ q ≤ dyadic m e) :
    (2 : ℚ) ^ (1 - f.bias) ≤ k * 2 ^ q + 2 ^ q ↔ Mag.top ⟨m, e, false⟩ = -f.bias ∧ k + 1 = 2 ^ (f.trail + 1) := by
  have high := (Mag.top_spec e hm).2
  generalize Mag.top ⟨m, e, false⟩ = top at *
  have few : k + 1 ≤ 2 ^ (f.trail + 1) := by
    have bound : (k : ℚ) * 2 ^ q < ((2 ^ (f.trail + 1) : Nat) : ℚ) * 2 ^ q := by
      refine hk.trans_lt (high.trans_eq ?_)
      rw [← two_zpow_natCast, ← two_zpow_add]
      congr 1; push_cast; omega
    exact Nat.cast_lt.1 (lt_of_mul_lt_mul_right bound (two_zpow_pos q).le)
  have sum : (k : ℚ) * 2 ^ q + 2 ^ q = ((k + 1 : Nat) : ℚ) * 2 ^ q := by push_cast; ring
  rw [sum]
  constructor
  · intro h
    have upper : ((k + 1 : Nat) : ℚ) * 2 ^ q ≤ 2 ^ (top + 1) := by
      have exp : top + 1 = ((f.trail + 1 : Nat) : Int) + q := by push_cast; omega
      rw [exp, two_zpow_add, two_zpow_natCast]
      exact mul_le_mul_of_nonneg_right (Nat.cast_le.2 few) (two_zpow_pos q).le
    have htop : top = -f.bias := by
      have := two_zpow_le.1 (h.trans upper)
      omega
    refine ⟨htop, le_antisymm few ?_⟩
    have exp : 1 - f.bias = ((f.trail + 1 : Nat) : Int) + q := by push_cast; omega
    rw [exp, two_zpow_add, two_zpow_natCast] at h
    exact Nat.cast_le.1 (le_of_mul_le_mul_right h (two_zpow_pos q))
  · rintro ⟨htop, hk1⟩
    rw [hk1, ← two_zpow_natCast, ← two_zpow_add]
    exact two_zpow_le.2 (by push_cast; omega)

theorem tiny_iff (f : NumFmt) {md : Mode} {neg : Bool} (hm : m ≠ 0) : f.tiny md neg ⟨m, e, false⟩ = true ↔
    dyadic m e < 2 ^ (1 - f.bias) ∧ ¬ md.Reaches neg f.trail (2 ^ (1 - f.bias)) (2 ^ (-f.bias - f.trail)) (dyadic m e) := by
  obtain ⟨low, high⟩ := Mag.top_spec e hm
  rw [tiny_eq]
  by_cases ht : Mag.top ⟨m, e, false⟩ < 1 - f.bias
  swap
  · exact iff_of_false (fun h => ht h.1) fun h => ht (two_zpow_lt.1 (low.trans_lt h.1))
  have subnormal : dyadic m e < 2 ^ (1 - f.bias) := high.trans_le (two_zpow_le.2 (by omega))
  simp only [ht, subnormal, true_and]
  have reach {k : Nat} := next_reaches_iff (f := f) (k := k) hm ht rfl
  generalize hq : Mag.top ⟨m, e, false⟩ - f.trail = q at reach
  have cut := (Mag.split_between m e q).scale (two_zpow_pos q)
  rw [div_mul_cancel₀ _ (two_zpow_pos _).ne', add_mul, one_mul] at cut
  unfold unbounded
  generalize Mag.split ⟨m, e, false⟩ q = s at cut
  have reach := reach cut.le
  have unit : (0 : ℚ) < 2 ^ (-f.bias - f.trail) := two_zpow_pos _
  have exact_of_reaches : md.Reaches neg f.trail (2 ^ (1 - f.bias)) (2 ^ (-f.bias - f.trail)) (dyadic m e) →
      (2 : ℚ) ^ (1 - f.bias) ≤ s.1 * 2 ^ q + 2 ^ q := by
    intro h
    have above := h.le unit
    have half : (2 : ℚ) ^ (1 - f.bias) = 2 * 2 ^ (-f.bias) := by rw [← two_zpow_add_one]; congr 1; ring
    have small : (2 : ℚ) ^ (-f.bias - f.trail) ≤ 2 ^ (-f.bias) := two_zpow_le.2 (by omega)
    have htop : Mag.top ⟨m, e, false⟩ = -f.bias := by
      have : -f.bias < Mag.top ⟨m, e, false⟩ + 1 := two_zpow_lt.1 (lt_of_le_of_lt (by linarith) high)
      omega
    have exp : 1 - f.bias = ((f.trail + 1 : Nat) : Int) + q := by push_cast; omega
    have hu : -f.bias - f.trail = q := by omega
    rw [hu, exp, two_zpow_add, two_zpow_natCast] at above
    have few : ((2 ^ (f.trail + 1) : Nat) : ℚ) < ((s.1 + 1 + 1 : Nat) : ℚ) := by
      have bound : ((2 ^ (f.trail + 1) : Nat) : ℚ) * 2 ^ q < ((s.1 + 1 + 1 : Nat) : ℚ) * 2 ^ q := by
        have := cut.lt
        push_cast at above ⊢
        linarith
      exact lt_of_mul_lt_mul_right bound (two_zpow_pos q).le
    have many : ((2 ^ (f.trail + 1) : Nat) : ℚ) ≤ ((s.1 + 1 : Nat) : ℚ) := Nat.cast_le.2 (Nat.le_of_lt_succ (Nat.cast_lt.1 few))
    rw [exp, two_zpow_add, two_zpow_natCast]
    refine (mul_le_mul_of_nonneg_right many (two_zpow_pos q).le).trans_eq ?_
    push_cast; ring
  have choice : (2 : ℚ) ^ (1 - f.bias) ≤ s.1 * 2 ^ q + 2 ^ q → (md.up neg s.2.1 s.2.2 (f.oddBelow q s.1) = true ↔
      md.Reaches neg f.trail (2 ^ (1 - f.bias)) (2 ^ (-f.bias - f.trail)) (dyadic m e)) := by
    intro h
    obtain ⟨htop, hk⟩ := reach.1 h
    have exp : 1 - f.bias = ((f.trail + 1 : Nat) : Int) + q := by push_cast; omega
    have hu : -f.bias - f.trail = q := by omega
    have upper : (s.1 : ℚ) * 2 ^ q + 2 ^ q = 2 ^ (1 - f.bias) := by
      rw [exp, two_zpow_add, two_zpow_natCast, ← hk]; push_cast; ring
    have lower : (s.1 : ℚ) * 2 ^ q = 2 ^ (1 - f.bias) - 2 ^ q := eq_sub_of_add_eq upper
    have odd : f.oddBelow q s.1 = true ↔ f.trail ≠ 0 := by
      unfold oddBelow
      by_cases ht0 : f.trail = 0
      · have even : (q + f.trail + f.bias) % 2 = 0 := by
          rw [show q + f.trail + f.bias = 0 by omega]; rfl
        rw [if_pos ht0, even]
        exact iff_of_false Bool.false_ne_true fun h => h ht0
      · have := Nat.pow_succ 2 f.trail
        have odd : s.1 % 2 = 1 := by omega
        simp [ht0, odd]
    have sum : (2 : ℚ) ^ (1 - f.bias) - 2 ^ q + 2 ^ (1 - f.bias) = 2 * 2 ^ (1 - f.bias) - 2 ^ q := by ring
    have strict : dyadic m e ≠ 2 ^ (1 - f.bias) - 2 ^ q ↔ (2 : ℚ) ^ (1 - f.bias) - 2 ^ q < dyadic m e := by
      rw [← lower]
      exact ⟨fun g => lt_of_le_of_ne cut.le g.symm, ne_of_gt⟩
    rw [Mode.up_iff cut, upper, lower, hu, sum, strict, odd]
    cases md
    case rne => exact or_congr_right and_comm
    all_goals exact Iff.rfl
  by_cases hu : md.up neg s.2.1 s.2.2 (f.oddBelow q s.1) = true
  · rw [if_pos hu, ← not_le, not_iff_not]
    have sum : dyadic (s.1 + 1) q = s.1 * 2 ^ q + 2 ^ q := by rw [dyadic]; push_cast; ring
    rw [sum]
    exact ⟨fun h => (choice h).1 hu, exact_of_reaches⟩
  · rw [if_neg hu]
    exact iff_of_true (cut.le.trans_lt subnormal) fun h => hu ((choice (exact_of_reaches h)).2 h)

end

/-! ### Overflow (R172) -/

theorem coded_maxCode (hf : f.Floating) (neg : Bool) : f.coded neg f.maxCode = f.signed neg f.maxCode :=
  if_neg (maxCode_pos hf).ne'

theorem roundMag_of_gt {md : Mode} {sat neg : Bool} {m : Nat} {e : Int} (h : f.mag f.maxCode < dyadic m e) :
    f.roundMag md sat neg ⟨m, e, false⟩ = if f.overflows md neg ⟨m, e, false⟩ then (f.overflowCode sat neg, { ovf := true, nx := true })
      else (f.signed neg f.maxCode, { nx := true }) := by
  unfold roundMag
  dsimp only
  rw [if_pos (by rw [beq_iff_eq, Mag.compare_gt]; exact h)]

/-- A number above another by half their distance more, in a unit of which both are an even number. -/
theorem dyadic_half_beyond {m m' : Nat} {e e' lo : Int} (h : lo + 1 ≤ e) (h' : lo + 1 ≤ e') (lt : dyadic m' e' < dyadic m e) :
    2 * dyadic (m * 2 ^ (e - lo).toNat + (m * 2 ^ (e - lo).toNat - m' * 2 ^ (e' - lo).toNat) / 2) lo =
      2 * dyadic m e + (dyadic m e - dyadic m' e') := by
  have unit := two_zpow_pos lo
  have top : dyadic m e = ((m * 2 ^ (e - lo).toNat : Nat) : ℚ) * 2 ^ lo := by
    rw [dyadic_shift m (by omega), div_mul_cancel₀ _ unit.ne']
  have next : dyadic m' e' = ((m' * 2 ^ (e' - lo).toNat : Nat) : ℚ) * 2 ^ lo := by
    rw [dyadic_shift m' (by omega), div_mul_cancel₀ _ unit.ne']
  obtain ⟨a, ha⟩ : 2 ∣ m * 2 ^ (e - lo).toNat := Dvd.dvd.mul_left (dvd_pow_self 2 (by omega)) m
  obtain ⟨b, hb⟩ : 2 ∣ m' * 2 ^ (e' - lo).toNat := Dvd.dvd.mul_left (dvd_pow_self 2 (by omega)) m'
  rw [top, next] at lt ⊢
  rw [ha, hb] at lt ⊢
  have less : 2 * b < 2 * a := Nat.cast_lt.1 (lt_of_mul_lt_mul_right lt unit.le)
  have half : (2 * a - 2 * b) / 2 = a - b := by omega
  rw [half, dyadic]
  push_cast [Nat.cast_sub (show b ≤ a by omega)]
  ring

/-- The threshold of the nearest modes: half a unit beyond the greatest value, the unit being the distance down to the next. -/
def threshold (f : NumFmt) : Nat × Int :=
  let mx := f.magnitude f.maxCode
  let pv := f.magnitude (f.maxCode - 1)
  let lo := min mx.2 pv.2 - 1
  (mx.1 * 2 ^ (mx.2 - lo).toNat + (mx.1 * 2 ^ (mx.2 - lo).toNat - pv.1 * 2 ^ (pv.2 - lo).toNat) / 2, lo)

theorem dyadic_threshold (hf : f.Floating) : 2 * dyadic f.threshold.1 f.threshold.2 =
    2 * f.mag f.maxCode + (f.mag f.maxCode - f.mag (f.maxCode - 1)) :=
  dyadic_half_beyond (by omega) (by omega) (mag_lt_iff.2 (Nat.sub_lt (maxCode_pos hf) Nat.one_pos))

theorem overflows_nearest (hf : f.Floating) {md : Mode} {neg : Bool} {m : Nat} {e : Int} (hm : md = .rne ∨ md = .rmm) :
    f.overflows md neg ⟨m, e, false⟩ = true ↔ 2 * f.mag f.maxCode + (f.mag f.maxCode - f.mag (f.maxCode - 1)) ≤ 2 * dyadic m e := by
  have test : f.overflows md neg ⟨m, e, false⟩ = true ↔ ¬ Mag.compare ⟨m, e, false⟩ f.threshold.1 f.threshold.2 = .lt := by
    rcases hm with rfl | rfl <;> exact bne_iff_ne
  rw [test, Mag.compare_lt, not_lt, ← dyadic_threshold hf, mul_le_mul_iff_of_pos_left two_pos]

theorem overflows_directed {neg : Bool} {m : Nat} {e : Int} (h : f.mag f.maxCode < dyadic m e) :
    (f.overflows .rup neg ⟨m, e, false⟩ = !neg) ∧ (f.overflows .rdn neg ⟨m, e, false⟩ = neg) ∧
      f.overflows .rtz neg ⟨m, e, false⟩ = false := by
  have above : (Mag.compare ⟨m, e, false⟩ (f.magnitude f.maxCode).1 (f.magnitude f.maxCode).2 == .gt) = true := by
    rw [beq_iff_eq, Mag.compare_gt]; exact h
  simp only [overflows, above, Bool.and_true, true_and]

theorem value_infinity_ieee {w t : Nat} (hf : (NumFmt.ieee w t).Floating) (neg : Bool) :
    (NumFmt.ieee w t).value ((NumFmt.ieee w t).signed neg ((2 ^ (w - 1 - t) - 1) * 2 ^ t)) = .inf neg := by
  rw [value_ieee hf neg (ieee_top_lt hf).2, if_pos rfl]

theorem value_infinity_b8 (p : Nat) (u : Bool) {neg : Bool} (h : u = true → neg = false) :
    (NumFmt.b8 p u true).value ((NumFmt.b8 p u true).signed neg ((NumFmt.b8 p u true).maxCode + 1)) = .inf neg := by
  cases u
  · cases neg <;> simp [value, signed, maxCode]
  · rw [h rfl]; rfl

theorem value_nanCode_ieee {w t : Nat} (hf : (NumFmt.ieee w t).Floating) :
    (NumFmt.ieee w t).value (NumFmt.ieee w t).nanCode = .nan false := by
  have bound := ieee_top_lt hf
  obtain ⟨ht, hw⟩ : 0 < t ∧ t + 2 ≤ w := hf
  have half : 2 ^ t = 2 * 2 ^ (t - 1) := by rw [← Nat.pow_succ']; congr 1; omega
  have pos := Nat.two_pow_pos (t - 1)
  have whole : 2 ^ (w - 1) = (2 ^ (w - 1 - t) - 1) * 2 ^ t + 2 ^ t := by
    rw [← Nat.succ_mul, Nat.succ_eq_add_one, Nat.sub_add_cancel (Nat.one_le_two_pow), ← pow_add]; congr 1; omega
  have quiet : ((2 ^ (w - 1 - t) - 1) * 2 ^ t + 2 ^ (t - 1)) % 2 ^ t = 2 ^ (t - 1) := by
    rw [Nat.mul_comm, Nat.mul_add_mod, Nat.mod_eq_of_lt (by omega)]
  have spelled := value_ieee (w := w) (t := t) ⟨ht, hw⟩ false (c := (2 ^ (w - 1 - t) - 1) * 2 ^ t + 2 ^ (t - 1)) (by omega)
  rw [if_neg (by omega), if_pos (by omega), quiet] at spelled
  exact spelled.trans (by simp)

theorem value_nanCode_b8 (p : Nat) (u x : Bool) : (NumFmt.b8 p u x).value (NumFmt.b8 p u x).nanCode = .nan false := by
  cases u <;> rfl

end NumFmt

end Sys2Proof.Machine
end

section
/-! PROOF. What a rounding delivers, in the units that the statements count in (02 R35; 07 R171 to R174). -/

namespace Sys2Proof.Machine

open Sys2Proof

set_option Elab.async false

/-! ### Numbers counted in a unit -/

/-- An integer counts a number in units of u. -/
def Counts (u : ℚ) (x : Int) (v : ℚ) : Prop := x * u = v

namespace Counts

variable {u v w : ℚ} {x y : Int}

theorem of_scaled {e lo : Int} (neg : Bool) (m : Nat) (h : lo ≤ e) : Counts (2 ^ lo) (scaled neg m e lo) (signedDyadic neg m e) := by
  rw [Counts, cast_scaled neg m h, div_mul_cancel₀ _ (two_zpow_pos lo).ne']

theorem of_power {e lo : Int} (h : lo ≤ e) : Counts (2 ^ lo) (scaled false 1 e lo) (2 ^ e) := by
  have := of_scaled false 1 h
  rwa [signedDyadic, if_neg Bool.false_ne_true, dyadic, Nat.cast_one, one_mul] at this

theorem sub (hx : Counts u x v) (hy : Counts u y w) : Counts u (x - y) (v - w) := by
  rw [Counts, Int.cast_sub, sub_mul, hx, hy]

theorem add (hx : Counts u x v) (hy : Counts u y w) : Counts u (x + y) (v + w) := by
  rw [Counts, Int.cast_add, add_mul, hx, hy]

theorem double (hx : Counts u x v) : Counts u (2 * x) (2 * v) := by
  rw [Counts, ← hx]; push_cast; ring

theorem natAbs (hu : 0 < u) (hx : Counts u x v) : Counts u x.natAbs |v| := by
  rw [Counts, ← hx, abs_mul, abs_of_pos hu, Int.natCast_natAbs, Int.cast_abs]

theorem le_iff (hu : 0 < u) (hx : Counts u x v) (hy : Counts u y w) : x ≤ y ↔ v ≤ w := by
  rw [← hx, ← hy, mul_le_mul_iff_of_pos_right hu, Int.cast_le]

theorem lt_iff (hu : 0 < u) (hx : Counts u x v) (hy : Counts u y w) : x < y ↔ v < w := by
  rw [← hx, ← hy, mul_lt_mul_iff_of_pos_right hu, Int.cast_lt]

theorem eq_iff (hu : 0 < u) (hx : Counts u x v) (hy : Counts u y w) : x = y ↔ v = w := by
  rw [← hx, ← hy, mul_left_inj' hu.ne', Int.cast_inj]

theorem natAbs_le_iff (hu : 0 < u) (hx : Counts u x v) (hy : Counts u y w) : x.natAbs ≤ y.natAbs ↔ |v| ≤ |w| := by
  rw [← le_iff hu (hx.natAbs hu) (hy.natAbs hu), Int.ofNat_le]

theorem natAbs_lt_iff (hu : 0 < u) (hx : Counts u x v) (hy : Counts u y w) : x.natAbs < y.natAbs ↔ |v| < |w| := by
  rw [← lt_iff hu (hx.natAbs hu) (hy.natAbs hu), Int.ofNat_lt]

theorem natAbs_eq_iff (hu : 0 < u) (hx : Counts u x v) (hy : Counts u y w) : x.natAbs = y.natAbs ↔ |v| = |w| := by
  rw [← eq_iff hu (hx.natAbs hu) (hy.natAbs hu), Int.natCast_inj]

end Counts

/-! ### The formats that TYPE codes name -/

theorem floating_types {ty : BitVec 4} {b8 : BitVec 5} (h : (NumFmt.ofTy ty b8).isFloat = true) :
    ty = 8 ∨ ty = 9 ∨ ty = 10 ∨ ty = 11 ∨ ty = 12 ∨ ty = 14 := by
  revert ty b8; decide

namespace NumFmt

theorem floating_ofTy {ty : BitVec 4} {b8 : BitVec 5} (h : (ofTy ty b8).isFloat = true) : (ofTy ty b8).Floating := by
  rcases floating_types h with rfl | rfl | rfl | rfl | rfl | rfl
  case inr.inr.inr.inr.inr => exact ⟨Nat.succ_pos _, Nat.succ_le_of_lt (Nat.mod_lt _ (by decide))⟩
  case inr.inr.inr.inr.inl => trivial
  all_goals exact ⟨by decide, by decide⟩

/-- The binary8 formats from code 18 on have no negative values (R34, R166). -/
theorem oneSigned_ofTy (ty : BitVec 4) (b8 : BitVec 5) : (ofTy ty b8).oneSigned = (ty == 14 && decide (18 ≤ b8.toNat)) := by
  revert ty b8; decide

theorem oneZero_ofTy (ty : BitVec 4) (b8 : BitVec 5) : (ofTy ty b8).oneZero = (ty == 14) := by
  revert ty b8; decide

theorem ieee_ofTy {ty : BitVec 4} {b8 : BitVec 5} (h : tyIeee ty = true) : ∃ w t, ofTy ty b8 = .ieee w t := by
  have : ty = 8 ∨ ty = 9 ∨ ty = 10 ∨ ty = 11 := by revert ty; decide
  rcases this with rfl | rfl | rfl | rfl <;> exact ⟨_, _, rfl⟩

/-- A binary8 format without infinities (R165, R166). -/
def finiteOnly : NumFmt → Bool
  | .b8 _ _ x => !x
  | _ => false

theorem finiteOnly_ofTy (ty : BitVec 4) (b8 : BitVec 5) :
    (ofTy ty b8).finiteOnly = true ↔ ty = 14 ∧ (b8.toNat - 4) / 7 % 2 = 0 := by
  revert ty b8; decide

theorem ofTy_eq_f4 (ty : BitVec 4) (b8 : BitVec 5) : ofTy ty b8 = .f4 ↔ ty = 12 := by
  revert ty b8; decide

/-- The bias of a binary8 format by its code (R34, R165, R166). -/
theorem bias_binary8 (b8 : BitVec 5) : (if b8.toNat < 18 then (2 : Int) ^ (6 - (b8.toNat - 4) % 7) else 2 ^ (7 - (b8.toNat - 4) % 7)) =
    (ofTy 14 b8).bias := by
  revert b8; decide

variable {f : NumFmt}

/-! ### A rounding within the finite range -/

theorem deliver_mag {neg : Bool} (hs : f.oneSigned = true → neg = false) (md : Mode) (sat : Bool) (x : Mag) :
    f.deliver md sat (.mag neg x) = f.roundMag md sat neg x := by
  cases f with
  | b8 p u y =>
    cases u
    · rfl
    · rw [hs rfl]; rfl
  | int | ieee | f4 => rfl

theorem mag_eq_zero {c : Nat} : f.mag c = 0 ↔ c = 0 := by
  rw [← mag_zero f, (mag_strictMono f).injective.eq_iff]

theorem magnitude_eq_zero {c : Nat} (h : (f.magnitude c).1 = 0) : c = 0 := by
  rw [← mag_eq_zero (f := f), mag, h, dyadic, Nat.cast_zero, zero_mul]

/-- The value of a delivered code as a number. -/
theorem signedDyadic_coded (f : NumFmt) (neg : Bool) (c : Nat) :
    signedDyadic (neg && !(f.oneZero && c == 0)) (f.magnitude c).1 (f.magnitude c).2 = signedRat neg (f.mag c) := by
  by_cases hc : c = 0
  · have zero : dyadic (f.magnitude c).1 (f.magnitude c).2 = 0 := mag_eq_zero.2 hc
    rw [mag, signedDyadic_eq, zero]
    cases neg <;> cases f.oneZero <;> simp [signedRat]
  · have nz : (c == 0) = false := by simpa using hc
    rw [nz, Bool.and_false, Bool.not_false, Bool.and_true]
    rfl

/-- Every finite value keeps apart from two neighbouring codes'. -/
theorem apart_value (hf : f.Floating) {code m : Nat} {n : Bool} {e : Int} (h : f.value code = .fin n m e) (c : Nat) :
    Apart (f.mag c) (f.mag (c + 1)) |signedDyadic n m e| := by
  obtain ⟨k, -, hk⟩ := magnitude_of_value hf h
  have same : |signedDyadic n m e| = f.mag k := by
    rw [signedDyadic_eq, abs_signedRat, abs_of_nonneg (dyadic_nonneg ..), mag, hk]
  rw [same]
  exact apart_mag f c k

/-- Signs and zeros keep a code's parity. -/
theorem coded_even (hf : f.Floating) (neg : Bool) {c : Nat} (h : c % 2 = 0) : f.coded neg c % 2 = 0 := by
  cases f with
  | int => exact absurd hf id
  | ieee w t =>
    obtain ⟨ht, hw⟩ : 0 < t ∧ t + 2 ≤ w := hf
    have even : 2 ^ (w - 1) % 2 = 0 := by
      rw [show w - 1 = w - 2 + 1 by omega, Nat.pow_succ, Nat.mul_mod_left]
    cases neg <;> simp [coded, signed, zeroCode] <;> split <;> omega
  | f4 => cases neg <;> simp [coded, signed, zeroCode] <;> split <;> omega
  | b8 p u x => cases u <;> cases neg <;> simp [coded, signed, zeroCode] <;> split <;> omega

/-- What a rounding of a magnitude up to the largest value delivers, by the code that the mode takes. -/
theorem deliver_of_le {md : Mode} {sat neg : Bool} {m : Nat} {e : Int} (hs : f.oneSigned = true → neg = false)
    (hle : dyadic m e ≤ f.mag f.maxCode) : f.deliver md sat (.mag neg ⟨m, e, false⟩) =
      (f.coded neg (f.pickCode md neg ⟨m, e, false⟩),
        { nx := (f.lower ⟨m, e, false⟩).2.1 || (f.lower ⟨m, e, false⟩).2.2
          uf := ((f.lower ⟨m, e, false⟩).2.1 || (f.lower ⟨m, e, false⟩).2.2) && f.tiny md neg ⟨m, e, false⟩ }) := by
  rw [deliver_mag hs, roundMag_of_le hle]
  rfl

end NumFmt

/-- How a delivered number stands to the exact one and to another value of the format, all counted in one unit. -/
structure Nearest (md : Mode) (code : Nat) (x y z : Int) : Prop where
  nearest : md = .rne ∨ md = .rmm → (y - x).natAbs ≤ (z - x).natAbs
  tie : z ≠ y → (y - x).natAbs = (z - x).natAbs → (md = .rne → code % 2 = 0) ∧ (md = .rmm → x.natAbs < y.natAbs)
  inward : md = .rtz → z.natAbs ≤ x.natAbs → z.natAbs ≤ y.natAbs
  down : md = .rdn → z ≤ x → z ≤ y
  up : md = .rup → x ≤ z → y ≤ z

section
variable {f : NumFmt} {md : Mode} {neg : Bool} {m : Nat} {e : Int} {u : ℚ} {x y z : Int}

theorem roundedTo_pickCode (md : Mode) (neg : Bool) (hm : m ≠ 0) (e : Int) :
    RoundedTo md (f.mag (f.lower ⟨m, e, false⟩).1) (f.mag ((f.lower ⟨m, e, false⟩).1 + 1)) (signedDyadic neg m e)
      (signedRat neg (f.mag (f.pickCode md neg ⟨m, e, false⟩))) := by
  rw [NumFmt.mag_pickCode]
  exact roundedTo_pick (NumFmt.lower_between f hm) (NumFmt.mag_nonneg ..)

theorem dyadic_pos (hm : m ≠ 0) (e : Int) : 0 < dyadic m e := mul_pos (Nat.cast_pos.2 (Nat.pos_of_ne_zero hm)) (two_zpow_pos e)

/-- A value of the format against the delivered one. -/
theorem nearest_pickCode (hf : f.Floating) (hm : m ≠ 0) (hu : 0 < u) {code n2 : Nat} {s2 : Bool} {e2 : Int}
    (h : f.value code = .fin s2 n2 e2) (hx : Counts u x (signedDyadic neg m e))
    (hy : Counts u y (signedRat neg (f.mag (f.pickCode md neg ⟨m, e, false⟩)))) (hz : Counts u z (signedDyadic s2 n2 e2)) :
    Nearest md (f.coded neg (f.pickCode md neg ⟨m, e, false⟩)) x y z := by
  have apart := NumFmt.apart_value hf h (f.lower ⟨m, e, false⟩).1
  have rounded := roundedTo_pickCode (f := f) md neg hm e
  have between := NumFmt.lower_between f (e := e) hm
  refine ⟨fun h => ?_, fun hne he => ?_, fun h hle => ?_, fun h hle => ?_, fun h hle => ?_⟩
  · exact ((hy.sub hx).natAbs_le_iff hu (hz.sub hx)).2 (rounded.nearest h _ apart)
  · have he' := ((hy.sub hx).natAbs_eq_iff hu (hz.sub hx)).1 he
    have hne' := fun g => hne ((hz.eq_iff hu hy).2 g)
    rw [NumFmt.mag_pickCode] at he' hne'
    have tie (hmd) := tie_pick (md := md) (neg := neg) between (NumFmt.mag_nonneg ..) (dyadic_pos hm e) hmd apart hne' he'
    refine ⟨fun h => NumFmt.coded_even hf neg (NumFmt.pickCode_even ((tie (.inl h)).1 h)), fun h => ?_⟩
    rw [hx.natAbs_lt_iff hu hy, NumFmt.mag_pickCode]
    exact (tie (.inr h)).2 h
  · rw [hz.natAbs_le_iff hu hx] at hle
    exact (hz.natAbs_le_iff hu hy).2 (rounded.inward_least h _ apart hle)
  · exact (hz.le_iff hu hy).2 (rounded.down_least h _ apart ((hz.le_iff hu hx).1 hle))
  · exact (hy.le_iff hu hz).2 (rounded.up_least h _ apart ((hx.le_iff hu hz).1 hle))

/-- The inexact flag says whether the value changed. -/
theorem inexact_iff_ne (hm : m ≠ 0) (hu : 0 < u) (hx : Counts u x (signedDyadic neg m e))
    (hy : Counts u y (signedRat neg (f.mag (f.pickCode md neg ⟨m, e, false⟩)))) :
    ((f.lower ⟨m, e, false⟩).2.1 || (f.lower ⟨m, e, false⟩).2.2) = true ↔ y ≠ x := by
  rw [ne_eq, hy.eq_iff hu hx, signedDyadic_eq, signedRat_inj, NumFmt.mag_pickCode]
  exact (Mode.pick_ne_iff (NumFmt.lower_between f hm)).symm

/-- The underflow flag says that a changed value lies below the smallest normal one after rounding. -/
theorem underflow_iff (hm : m ≠ 0) (hu : 0 < u) (hx : Counts u x (signedDyadic neg m e))
    (hy : Counts u y (signedRat neg (f.mag (f.pickCode md neg ⟨m, e, false⟩)))) {normal : Int}
    (hn : Counts u normal (2 ^ (1 - f.bias))) :
    (((f.lower ⟨m, e, false⟩).2.1 || (f.lower ⟨m, e, false⟩).2.2) && f.tiny md neg ⟨m, e, false⟩) = true ↔
      y ≠ x ∧ (x.natAbs : Int) < normal ∧
        ¬ md.Reaches neg f.trail (2 ^ (1 - f.bias)) (2 ^ (-f.bias - f.trail)) (dyadic m e) := by
  have size : |signedDyadic neg m e| = dyadic m e := by
    rw [signedDyadic_eq, abs_signedRat, abs_of_nonneg (dyadic_nonneg ..)]
  rw [Bool.and_eq_true, inexact_iff_ne hm hu hx hy, NumFmt.tiny_iff f hm, (hx.natAbs hu).lt_iff hu hn, size]

end

namespace NumFmt

variable {f : NumFmt}

/-! ### A rounding beyond the finite range -/

theorem value_maxCode (hf : f.Floating) {neg : Bool} (hs : f.oneSigned = true → neg = false) :
    f.value (f.signed neg f.maxCode) = .fin neg (f.magnitude f.maxCode).1 (f.magnitude f.maxCode).2 := by
  have nz : (f.maxCode == 0) = false := by simpa using (maxCode_pos hf).ne'
  rw [← coded_maxCode hf, value_coded hf hs le_rfl, nz, Bool.and_false, Bool.not_false, Bool.and_true]

/-- What an overflow delivers (R172). -/
theorem value_overflowCode (hf : f.Floating) {neg : Bool} (hs : f.oneSigned = true → neg = false) (sat : Bool) :
    f.value (f.overflowCode sat neg) = if sat = true ∨ f = .f4 then .fin neg (f.magnitude f.maxCode).1 (f.magnitude f.maxCode).2
      else if f.finiteOnly = true then .nan false else .inf neg := by
  cases sat
  · cases f with
    | int => exact absurd hf id
    | ieee w t => simpa [overflowCode, infCode, finiteOnly] using value_infinity_ieee hf neg
    | f4 => simpa [overflowCode, infCode, finiteOnly] using value_maxCode hf hs
    | b8 p u x =>
      cases x
      · simpa [overflowCode, infCode, finiteOnly] using value_nanCode_b8 p u false
      · have code : (NumFmt.b8 p u true).overflowCode false neg = (NumFmt.b8 p u true).signed neg ((NumFmt.b8 p u true).maxCode + 1) := by
          cases u
          · rfl
          · rw [hs rfl]; rfl
        simpa [code, finiteOnly] using value_infinity_b8 p u hs
  · rw [if_pos (.inl rfl)]
    exact value_maxCode hf hs

theorem magnitude_exp_mono (f : NumFmt) {c c' : Nat} (h : c ≤ c') : (f.magnitude c).2 ≤ (f.magnitude c').2 := by
  have := Nat.sub_le_sub_right (Nat.div_le_div_right (c := 2 ^ f.trail) h) 1
  rw [magnitude_exp, magnitude_exp]
  omega

/-- The greatest value and the one below it, by what the statements know of them: no value lies above the one, none between. -/
theorem magnitude_of_greatest (hf : f.Floating) {c c' cm cm' : Nat} {ce ce' lo : Int} (h : f.value c = .fin false cm ce)
    (h' : f.value c' = .fin false cm' ce') (hlo : lo ≤ ce) (hlo' : lo ≤ ce') (lt : scaled false cm' ce' lo < scaled false cm ce lo)
    (greatest : ∀ code n2 m2 e2, f.value code = .fin n2 m2 e2 → lo ≤ e2 →
      scaled n2 m2 e2 lo ≤ scaled false cm ce lo ∧
        (scaled n2 m2 e2 lo < scaled false cm ce lo → scaled n2 m2 e2 lo ≤ scaled false cm' ce' lo)) :
    f.magnitude f.maxCode = (cm, ce) ∧ f.magnitude (f.maxCode - 1) = (cm', ce') := by
  obtain ⟨k, hk, hmag⟩ := magnitude_of_value hf h
  obtain ⟨k', -, hmag'⟩ := magnitude_of_value hf h'
  have exp : (f.magnitude k).2 = ce := by rw [hmag]
  have exp' : (f.magnitude k').2 = ce' := by rw [hmag']
  have value {j : Nat} (hj : j ≤ f.maxCode) : f.value (f.coded false j) = .fin false (f.magnitude j).1 (f.magnitude j).2 :=
    value_coded hf (fun _ => rfl) hj
  have order {i j : Nat} (hi : lo ≤ (f.magnitude i).2) (hj : lo ≤ (f.magnitude j).2) :
      scaled false (f.magnitude i).1 (f.magnitude i).2 lo ≤ scaled false (f.magnitude j).1 (f.magnitude j).2 lo ↔ i ≤ j :=
    (scaled_le hi hj).trans mag_le_iff
  have low : lo ≤ (f.magnitude k).2 := exp ▸ hlo
  have low' : lo ≤ (f.magnitude k').2 := exp' ▸ hlo'
  have pair : (cm, ce) = f.magnitude k := hmag.symm
  have pair' : (cm', ce') = f.magnitude k' := hmag'.symm
  obtain ⟨rfl, rfl⟩ : cm = (f.magnitude k).1 ∧ ce = (f.magnitude k).2 := ⟨congrArg Prod.fst pair, congrArg Prod.snd pair⟩
  obtain ⟨rfl, rfl⟩ : cm' = (f.magnitude k').1 ∧ ce' = (f.magnitude k').2 := ⟨congrArg Prod.fst pair', congrArg Prod.snd pair'⟩
  have top : k = f.maxCode := by
    have lowTop := low.trans (magnitude_exp_mono f hk)
    exact le_antisymm hk ((order lowTop low).1 (greatest _ _ _ _ (value le_rfl) lowTop).1)
  subst top
  have below : k' ≤ f.maxCode - 1 := by
    have : k' < f.maxCode := not_le.1 fun g => absurd lt (not_lt.2 ((order low low').2 g))
    omega
  have lowNext := low'.trans (magnitude_exp_mono f below)
  have less : scaled false (f.magnitude (f.maxCode - 1)).1 (f.magnitude (f.maxCode - 1)).2 lo <
      scaled false (f.magnitude f.maxCode).1 (f.magnitude f.maxCode).2 lo :=
    not_le.1 fun g => absurd ((order low lowNext).1 g) (by have := maxCode_pos hf; omega)
  have next := (order lowNext low').1 ((greatest _ _ _ _ (value (Nat.sub_le ..)) lowNext).2 less)
  exact ⟨rfl, by rw [le_antisymm next below]⟩

/-- Whether a mode overflows at a magnitude above the largest value, counted in a unit. -/
theorem overflows_counted (hf : f.Floating) {md : Mode} {neg : Bool} {m : Nat} {e : Int} {u : ℚ} {x top next : Int} (hu : 0 < u)
    (h : f.mag f.maxCode < dyadic m e) (hx : Counts u x (dyadic m e)) (ht : Counts u top (f.mag f.maxCode))
    (hn : Counts u next (f.mag (f.maxCode - 1))) (ans : Bool)
    (nearest : md = .rne ∨ md = .rmm → (ans = true ↔ 2 * top + (top - next) ≤ 2 * x)) (up : md = .rup → ans = !neg)
    (down : md = .rdn → ans = neg) (inward : md = .rtz → ans = false) : f.overflows md neg ⟨m, e, false⟩ = ans := by
  obtain ⟨dirUp, dirDown, dirIn⟩ := overflows_directed (neg := neg) h
  have near (hmd : md = .rne ∨ md = .rmm) : f.overflows md neg ⟨m, e, false⟩ = ans := by
    rw [Bool.eq_iff_iff, overflows_nearest hf hmd, nearest hmd, (ht.double.add (ht.sub hn)).le_iff hu hx.double]
  cases md with
  | rne => exact near (.inl rfl)
  | rmm => exact near (.inr rfl)
  | rup => rw [dirUp, up rfl]
  | rdn => rw [dirDown, down rfl]
  | rtz => rw [dirIn, inward rfl]

end NumFmt

/-- Settles O17: an exact magnitude lies between the values of two codes one apart, and no other value of the format lies between
them; a mode takes one of the two by the bits below the lower one's last. Counted in the statement's unit, each clause is a comparison
of rational numbers. -/
theorem roundingIsNearestOrDirected : Obligations.RoundingIsNearestOrDirected := by
  unfold Obligations.RoundingIsNearestOrDirected
  intro ty b8 md sat neg m e f r t bias hfl hb8
  have hf : f.Floating := NumFmt.floating_ofTy hfl
  have hs : f.oneSigned = true → neg = false := by
    intro h
    obtain ⟨h1, h2⟩ : ty = 14 ∧ 18 ≤ b8.toNat := by simpa [f, NumFmt.oneSigned_ofTy] using h
    cases neg
    · rfl
    · exact absurd ((hb8 h1).2 rfl) (by omega)
  have hz : f.oneZero = (ty == 14) := NumFmt.oneZero_ofTy ty b8
  have ht : t = f.trail := by
    rcases floating_types hfl with h | h | h | h | h | h <;> simp only [t, f, h] <;> rfl
  have hb : bias = f.bias := by
    rcases floating_types hfl with h | h | h | h | h | h <;> simp only [bias, f, h]
    case inr.inr.inr.inr.inr =>
      simp only [t, h]
      exact NumFmt.bias_binary8 b8
    all_goals rfl
  refine ⟨fun hm hle => ?_, fun c c' cm cm' ce ce' lo hc hc' hlo hloc hloc' => ?_, fun hi fl => ?_⟩
  · rw [ne_eq, Mag.compare_gt, not_lt] at hle
    have hr : r = _ := NumFmt.deliver_of_le hs hle
    have hp : f.pickCode md neg ⟨m, e, false⟩ ≤ f.maxCode := NumFmt.pickCode_le hm hle
    refine ⟨_, _, _, by rw [hr]; exact NumFmt.value_coded hf hs hp, ?_, by rw [hr], by rw [hr], by rw [hr], ?_⟩
    · intro hzero
      rw [NumFmt.magnitude_eq_zero hzero, hz, beq_self_eq_true, Bool.and_true]
      rfl
    · intro lo hlo hlo' x y
      have unit := two_zpow_pos lo
      have hx : Counts (2 ^ lo) x (signedDyadic neg m e) := .of_scaled neg m hlo
      have hy : Counts (2 ^ lo) y (signedRat neg (f.mag (f.pickCode md neg ⟨m, e, false⟩))) := by
        rw [← NumFmt.signedDyadic_coded]
        exact .of_scaled _ _ hlo'
      have rounded := roundedTo_pickCode (f := f) md neg hm e
      refine ⟨?_, fun h => (hy.natAbs_le_iff unit hx).2 (rounded.inward h), fun h => (hy.le_iff unit hx).2 (rounded.down h),
        fun h => (hx.le_iff unit hy).2 (rounded.up h), fun code n2 m2 e2 h2 hlo2 => ?_, fun hlow => ?_⟩
      · rw [hr]
        exact inexact_iff_ne hm unit hx hy
      · have near := nearest_pickCode (md := md) hf hm unit h2 hx hy (.of_scaled n2 m2 hlo2)
        rw [hr]
        exact ⟨near.nearest, near.tie, fun h hle _ => near.inward h hle, near.down, near.up⟩
      · intro normal u reaches
        have hn : Counts (2 ^ lo) normal (2 ^ (1 - f.bias)) := by rw [← hb]; exact .of_power (by omega)
        have hu : Counts (2 ^ lo) u (2 ^ (-f.bias - f.trail)) := by rw [← hb, ← ht]; exact .of_power hlow
        have hv : Counts (2 ^ lo) x.natAbs (dyadic m e) := by
          have := hx.natAbs unit
          rwa [signedDyadic_eq, abs_signedRat, abs_of_nonneg (dyadic_nonneg ..)] at this
        have hreach : reaches ↔ md.Reaches neg f.trail (2 ^ (1 - f.bias)) (2 ^ (-f.bias - f.trail)) (dyadic m e) := by
          cases md
          case rne =>
            have same : t ≠ 0 ↔ f.trail ≠ 0 := by rw [ht]
            exact or_congr ((hn.double.sub hu).lt_iff unit hv.double) (and_congr same ((hn.double.sub hu).eq_iff unit hv.double))
          case rtz => exact Iff.rfl
          case rdn => exact and_congr Iff.rfl ((hn.sub hu).lt_iff unit hv)
          case rup => exact and_congr Iff.rfl ((hn.sub hu).lt_iff unit hv)
          case rmm => exact (hn.double.sub hu).le_iff unit hv.double
        rw [hr, hreach]
        exact underflow_iff hm unit hx hy hn
  · intro top next x hnext htop greatest overflows
    have unit := two_zpow_pos lo
    obtain ⟨hM, hP⟩ := NumFmt.magnitude_of_greatest hf hc hc' hloc hloc' hnext greatest
    have hx : Counts (2 ^ lo) x (dyadic m e) := .of_scaled false m hlo
    have ht' : Counts (2 ^ lo) top (f.mag f.maxCode) := by rw [NumFmt.mag, hM]; exact .of_scaled false cm hloc
    have hn : Counts (2 ^ lo) next (f.mag (f.maxCode - 1)) := by rw [NumFmt.mag, hP]; exact .of_scaled false cm' hloc'
    have hgt : f.mag f.maxCode < dyadic m e := (ht'.lt_iff unit hx).1 htop
    have hover : f.overflows md neg ⟨m, e, false⟩ = overflows := by
      refine NumFmt.overflows_counted hf unit hgt hx ht' hn _ ?_ ?_ ?_ ?_
      · rintro (rfl | rfl) <;> exact decide_eq_true_iff
      all_goals rintro rfl; rfl
    have hr : r = _ := (NumFmt.deliver_mag hs md sat _).trans (NumFmt.roundMag_of_gt hgt)
    rw [hover] at hr
    have hM1 : (f.magnitude f.maxCode).1 = cm := by rw [hM]
    have hM2 : (f.magnitude f.maxCode).2 = ce := by rw [hM]
    rw [hr]
    cases overflows with
    | false => exact ⟨rfl, (NumFmt.value_maxCode hf hs).trans (by rw [if_pos (.inl rfl), hM1, hM2])⟩
    | true =>
      refine ⟨rfl, (NumFmt.value_overflowCode hf hs sat).trans ?_⟩
      have only : f.finiteOnly = true ↔ ty = 14 ∧ (b8.toNat - 4) / 7 % 2 = 0 := NumFmt.finiteOnly_ofTy ty b8
      have four : f = .f4 ↔ ty = 12 := NumFmt.ofTy_eq_f4 ty b8
      simp only [hM1, hM2, four, only, Bool.true_eq_false, false_or]
  · rcases NumFmt.ieee_ofTy hi with ⟨w, t', h⟩
    have hf' : (NumFmt.ieee w t').Floating := h ▸ hf
    have : f = .ieee w t' := h
    rw [this]
    refine ⟨rfl, NumFmt.value_nanCode_ieee hf', ⟨_, rfl, NumFmt.value_infinity_ieee hf' neg⟩, _, ((NumFmt.ieee w t').magnitude 0).2, rfl, ?_⟩
    exact (NumFmt.value_coded_ieee hf' neg (Nat.zero_le _)).trans
      (congrArg (Num.fin neg · _) (by rw [NumFmt.magnitude_subnormal (Nat.zero_div _), Nat.zero_mod]))

end Sys2Proof.Machine
end

section
/-! PROOF. Vector comparisons and conversions (02 R37; 07 R172, R175 to R177; 08 R188, R195, R200, R201). -/

namespace Sys2Proof.Machine

open Sys2Proof

set_option Elab.async false

/-! ### Bits put together one by one -/

theorem sum_bits_lt (b : Nat → Bool) (n : Nat) : ((List.range n).map fun i => if b i then 2 ^ i else 0).sum < 2 ^ n := by
  induction n with
  | zero => exact Nat.one_pos
  | succ n ih =>
    rw [List.range_succ, List.map_append, List.sum_append, Nat.pow_succ]
    simp only [List.map_cons, List.map_nil, List.sum_cons, List.sum_nil, Nat.add_zero]
    split <;> omega

theorem testBit_sum_bits (b : Nat → Bool) {n i : Nat} (hi : i < n) :
    (((List.range n).map fun i => if b i then 2 ^ i else 0).sum).testBit i = b i := by
  induction n with
  | zero => exact absurd hi (Nat.not_lt_zero _)
  | succ n ih =>
    have low := sum_bits_lt b n
    rw [List.range_succ, List.map_append, List.sum_append]
    simp only [List.map_cons, List.map_nil, List.sum_cons, List.sum_nil, Nat.add_zero]
    rcases Nat.lt_succ_iff_lt_or_eq.1 hi with h | rfl
    · rw [← ih h]
      split
      · rw [Nat.add_comm, Nat.testBit_two_pow_add_gt h]
      · rw [Nat.add_zero]
    · split
      · next hb => rw [Nat.add_comm, Nat.testBit_two_pow_add_eq, Nat.testBit_lt_two_pow low, hb]; rfl
      · next hb => rw [Nat.add_zero, Nat.testBit_lt_two_pow low]; simpa using hb

/-! ### The lanes that receive flags (R48, R188) -/

theorem Flags.code_lt (x : Flags) : x.code < 32 := by
  unfold code
  split <;> split <;> split <;> split <;> split <;> decide

/-- Where the flags of a lane stand. -/
def laneBit (fl : Word × Word) (lane b : Nat) : Bool := (if lane < 8 then fl.1 else fl.2).getLsbD (5 * (lane % 8) + b)

/-- One result's flags as they stand in their half of `vxf`. -/
theorem getLsbD_laneCode (x : Flags) {lane place b : Nat} (hlane : lane < 8) (hb : b < 5) :
    (BitVec.ofNat 64 (x.code * 2 ^ (5 * place))).getLsbD (5 * lane + b) = (place == lane && x.code.testBit b) := by
  have high : ∀ i, 5 ≤ i → x.code.testBit i = false := fun i hi =>
    Nat.testBit_lt_two_pow (x.code_lt.trans_le (Nat.pow_le_pow_right (n := 2) (by decide) hi))
  rw [BitVec.getLsbD_ofNat, Nat.testBit_mul_two_pow]
  rw [decide_eq_true (show 5 * lane + b < 64 by omega), Bool.true_and]
  rcases Nat.lt_trichotomy place lane with h | rfl | h
  · rw [high _ (by omega), Bool.and_false, beq_false_of_ne h.ne, Bool.false_and]
  · simp
  · rw [decide_eq_false (by omega), beq_false_of_ne h.ne', Bool.false_and, Bool.false_and]

/-- One result's flags over those of the results before it. -/
def laneStep (acc : Word × Word) (e : Nat × Flags) : Word × Word :=
  let c := BitVec.ofNat 64 (e.2.code * 2 ^ (5 * (e.1 % 8)))
  if e.1 < 8 then (acc.1 ||| c, acc.2) else (acc.1, acc.2 ||| c)

theorem laneFlags_eq (l : List (Nat × Flags)) : laneFlags l = l.foldl laneStep (0, 0) := rfl

theorem laneBit_step (acc : Word × Word) {e : Nat × Flags} {lane b : Nat} (he : e.1 < 16) (hlane : lane < 16) (hb : b < 5) :
    laneBit (laneStep acc e) lane b = (laneBit acc lane b || (e.1 == lane && e.2.code.testBit b)) := by
  have bit := getLsbD_laneCode e.2 (lane := lane % 8) (place := e.1 % 8) (Nat.mod_lt _ (by decide)) hb
  have same : e.1 < 8 ∧ lane < 8 ∨ ¬ e.1 < 8 ∧ ¬ lane < 8 → (e.1 % 8 == lane % 8) = (e.1 == lane) := by
    intro h
    rw [Bool.eq_iff_iff, beq_iff_eq, beq_iff_eq]
    omega
  have other : ¬ (e.1 < 8 ↔ lane < 8) → (e.1 == lane) = false := by
    intro h
    rw [beq_eq_false_iff_ne]
    omega
  unfold laneBit laneStep
  by_cases h : e.1 < 8 <;> by_cases g : lane < 8
  · simp only [h, g, if_true, BitVec.getLsbD_or, bit, same (.inl ⟨h, g⟩)]
  · simp only [h, g, if_true, if_false, other (by tauto), Bool.false_and, Bool.or_false]
  · simp only [h, g, if_true, if_false, other (by tauto), Bool.false_and, Bool.or_false]
  · simp only [h, g, if_false, BitVec.getLsbD_or, bit, same (.inr ⟨h, g⟩)]

theorem laneBit_foldl {l : List (Nat × Flags)} (acc : Word × Word) {lane b : Nat} (hl : ∀ e ∈ l, e.1 < 16) (hlane : lane < 16)
    (hb : b < 5) : laneBit (l.foldl laneStep acc) lane b = (laneBit acc lane b || l.any fun e => e.1 == lane && e.2.code.testBit b) := by
  induction l generalizing acc with
  | nil => simp
  | cons e t ih =>
    rw [List.foldl_cons, ih _ fun x hx => hl x (List.mem_cons_of_mem _ hx), laneBit_step acc (hl e (List.mem_cons_self ..)) hlane hb,
      List.any_cons, Bool.or_assoc]

theorem laneBit_laneFlags {l : List (Nat × Flags)} {lane b : Nat} (hl : ∀ e ∈ l, e.1 < 16) (hlane : lane < 16) (hb : b < 5) :
    laneBit (laneFlags l) lane b = l.any fun e => e.1 == lane && e.2.code.testBit b := by
  rw [laneFlags_eq, laneBit_foldl _ hl hlane hb]
  simp [laneBit]

/-- Under NF no lane has a flag; else an active element's flags stand in its lane, where no other element reports there. -/
theorem laneBit_flagsUnless {nf : Bool} {w : Nat} {on : List Nat} {fl : Nat → Flags} {e b : Nat} (hon : ∀ i ∈ on, laneOf w i < 16)
    (he : laneOf w e < 16) (inj : ∀ i ∈ on, laneOf w i = laneOf w e → i = e) (hb : b < 5) :
    laneBit (flagsUnless nf (on.map fun i => (laneOf w i, fl i))) (laneOf w e) b =
      (!nf && decide (e ∈ on) && (fl e).code.testBit b) := by
  cases nf
  · rw [flagsUnless, if_neg Bool.false_ne_true, laneBit_laneFlags (by simpa using hon) he hb, List.any_map, Bool.not_false,
      Bool.true_and, Bool.eq_iff_iff]
    simp only [List.any_eq_true, Function.comp, Bool.and_eq_true, beq_iff_eq, decide_eq_true_eq]
    constructor
    · rintro ⟨i, hi, lane, bit⟩
      obtain rfl := inj i hi lane
      exact ⟨hi, bit⟩
    · exact fun ⟨hi, bit⟩ => ⟨e, hi, rfl, bit⟩
  · simp [flagsUnless, laneBit]

/-! ### Vector comparisons (R195) -/

/-- An element as a comparison reads it. -/
theorem comparand_elem (ty : BitVec 4) (v : BitVec 512) (e : Nat) : comparand ty (elem (tyWidth ty) v e) =
    if tyInt ty then Num.ofInt (if tySigned ty then (v.extractLsb' (tyWidth ty * e) (tyWidth ty)).toInt
        else ((v.extractLsb' (tyWidth ty * e) (tyWidth ty)).toNat : Int))
      else (NumFmt.ofTy ty 0).value (v.extractLsb' (tyWidth ty * e) (tyWidth ty)).toNat := by
  rw [comparand, elem_eq_toNat, Nat.mod_eq_of_lt (BitVec.isLt _), signedOf_toInt]

theorem condHolds_eq_order (cond : BitVec 4) (a b : Num) :
    condHolds cond a b = orderHolds cond (numLess a b) (numLess b a) (anyNan [a, b]) := by
  rw [numLess_eq, numLess_swap, anyNan_pair]
  exact condHolds_eq ..

/-- Whether a comparison is invalid (R195). -/
def comparesInvalidly (cond ty : BitVec 4) (a b : Num) : Bool :=
  !tyInt ty && (if 2 ≤ cond.toNat && cond.toNat ≤ 5 then anyNan [a, b] else a == .nan true || b == .nan true)

theorem testBit_compareFlags (cond ty : BitVec 4) (x y : Num) {b : Nat} (hb : b < 5) :
    (compareFlags cond ty x y).code.testBit b = (comparesInvalidly cond ty x y && b == 0) := by
  have flags : compareFlags cond ty x y = if comparesInvalidly cond ty x y then Flags.invalid else {} := by
    unfold compareFlags comparesInvalidly nanFlags
    cases tyInt ty
    · simp only [Bool.false_eq_true, if_false, Bool.not_false, Bool.true_and, List.any_cons, List.any_nil, Bool.or_false]
      split <;> rfl
    · rfl
  rw [flags]
  cases comparesInvalidly cond ty x y
  · exact Nat.zero_testBit b
  · interval_cases b <;> rfl

/-- Two elements of a width of at least 32 bits report in lanes of their own. -/
theorem laneOf_wide {ty : BitVec 4} (h : tyWide ty = true) {e : Nat} (he : e < 512 / tyWidth ty) :
    laneOf (tyWidth ty) e < 16 ∧ ∀ i, laneOf (tyWidth ty) i = laneOf (tyWidth ty) e → i = e := by
  have w : tyWidth ty = 32 ∨ tyWidth ty = 64 := by clear he; revert ty; decide
  unfold laneOf
  rcases w with w | w <;> rw [w] at he ⊢ <;> exact ⟨by omega, fun i hi => by omega⟩

section
variable {f : FmtA} {s : State}

/-- The mask that a comparison leaves. -/
def comparedMask (s : State) (f : FmtA) : BitVec 16 :=
  BitVec.ofNat 16 (((List.range 16).map fun i =>
    if (if active (tyWidth f.ty) (s.getK f.c) (i * 32 / tyWidth f.ty) then
        condHolds f.fn (comparand f.ty (elem (tyWidth f.ty) (s.me.regs.getV f.a) (i * 32 / tyWidth f.ty)))
          (comparand f.ty (elem (tyWidth f.ty) (s.me.regs.getV f.b) (i * 32 / tyWidth f.ty)))
      else (s.getK f.d).getLsbD i) then 2 ^ i else 0).sum)

/-- The flags that a comparison raises. -/
def comparedFlags (s : State) (f : FmtA) : Word × Word :=
  flagsUnless f.nf ((activeList (tyWidth f.ty) (s.getK f.c)).map fun e => (laneOf (tyWidth f.ty) e,
    compareFlags f.fn f.ty (comparand f.ty (elem (tyWidth f.ty) (s.me.regs.getV f.a) e))
      (comparand f.ty (elem (tyWidth f.ty) (s.me.regs.getV f.b) e))))

theorem exec_vcmp (hr : s.runs f.gd = true) (ha : s.unbound f.a = true) (hb : s.unbound f.b = true) :
    exec (.vcmp f) s = .next ((s.setK f.d (comparedMask s f)).addFlags (comparedFlags s f)).advance := by
  show execVcmp f s = _
  rw [execVcmp, State.guarded_of_runs _ hr, State.sources_of_unbound _ (by simp [ha, hb]), Res.run_ok]
  rfl

theorem getLsbD_comparedMask {i : Nat} (hi : i < 16) : (comparedMask s f).getLsbD i =
    if active (tyWidth f.ty) (s.getK f.c) (i * 32 / tyWidth f.ty) then
      condHolds f.fn (comparand f.ty (elem (tyWidth f.ty) (s.me.regs.getV f.a) (i * 32 / tyWidth f.ty)))
        (comparand f.ty (elem (tyWidth f.ty) (s.me.regs.getV f.b) (i * 32 / tyWidth f.ty)))
    else (s.getK f.d).getLsbD i := by
  rw [comparedMask, BitVec.getLsbD_ofNat, decide_eq_true hi, Bool.true_and]
  exact testBit_sum_bits _ hi

theorem laneBit_comparedFlags (hw : tyWide f.ty = true) {e b : Nat} (he : e < 512 / tyWidth f.ty) (hb : b < 5) :
    laneBit (comparedFlags s f) (laneOf (tyWidth f.ty) e) b = (!f.nf && active (tyWidth f.ty) (s.getK f.c) e &&
      comparesInvalidly f.fn f.ty (comparand f.ty (elem (tyWidth f.ty) (s.me.regs.getV f.a) e))
        (comparand f.ty (elem (tyWidth f.ty) (s.me.regs.getV f.b) e)) && b == 0) := by
  have lane := laneOf_wide hw he
  have on : decide (e ∈ activeList (tyWidth f.ty) (s.getK f.c)) = active (tyWidth f.ty) (s.getK f.c) e := by
    simp [activeList, he]
  have lanes : ∀ i ∈ activeList (tyWidth f.ty) (s.getK f.c), laneOf (tyWidth f.ty) i < 16 := fun i hi =>
    (laneOf_wide hw (List.mem_range.1 (List.mem_filter.1 hi).1)).1
  rw [comparedFlags, laneBit_flagsUnless lanes lane.1 (fun i _ => lane.2 i) hb, on, testBit_compareFlags _ _ _ _ hb, ← Bool.and_assoc]

/-! ### Vector conversions (R200, R201) -/

/-- An element of a conversion: its source, and whether it takes part. -/
def converted (s : State) (f : FmtA) (e : Nat) : Nat × Flags :=
  convert (NumFmt.ofTy f.fn f.b) (NumFmt.ofTy f.ty f.b) (s.mode f.rnd) f.sat (elem (tyWidth f.fn) (s.me.regs.getV f.a) e)

def converts (s : State) (f : FmtA) (e : Nat) : Bool :=
  tyWidth f.fn ≠ tyWidth f.ty || active (tyWidth f.ty) (s.getK f.c) e

/-- The register that a conversion leaves. -/
def convertedV (s : State) (f : FmtA) : BitVec 512 :=
  merge (tyWidth f.ty) (if tyWidth f.fn = tyWidth f.ty then s.getK f.c else 0xFFFF) (s.me.regs.getV f.d) fun e =>
    if e < 512 / max (tyWidth f.fn) (tyWidth f.ty) then (converted s f e).1 else 0

theorem exec_vcvt (hr : s.runs f.gd = true) (ha : s.unbound f.a = true) (hd : s.unbound f.d = true) :
    exec (.vcvt f) s = .next ((s.setV f.d (convertedV s f)).addFlags (flagsUnless f.nf
      (((List.range (512 / max (tyWidth f.fn) (tyWidth f.ty))).filter (converts s f)).map fun e =>
        (laneOf (max (tyWidth f.fn) (tyWidth f.ty)) e, (converted s f e).2)))).advance := by
  show execVcvt f s = _
  rw [execVcvt, State.guarded_of_runs _ hr, State.sources_of_unbound _ (by simpa using ha), Res.run_ok]
  dsimp only
  rw [State.putV_of_unbound _ _ _ _ _ _ hd, Res.run_ok]
  rfl

theorem extract_convertedV {e : Nat} (he : e < 512 / tyWidth f.ty) :
    ((convertedV s f).extractLsb' (tyWidth f.ty * e) (tyWidth f.ty)).toNat =
      if 512 / max (tyWidth f.fn) (tyWidth f.ty) ≤ e then 0
      else if converts s f e then (converted s f e).1 % 2 ^ tyWidth f.ty
      else ((s.me.regs.getV f.d).extractLsb' (tyWidth f.ty * e) (tyWidth f.ty)).toNat := by
  rw [convertedV, extract_merge _ _ _ he]
  by_cases hw : tyWidth f.fn = tyWidth f.ty
  · have within : ¬ 512 / max (tyWidth f.fn) (tyWidth f.ty) ≤ e := by rw [hw, max_self]; exact not_le.2 he
    have on : converts s f e = active (tyWidth f.ty) (s.getK f.c) e := by simp [converts, hw]
    rw [if_pos hw, if_neg within, on, if_pos (not_le.1 within)]
    split
    · exact BitVec.toNat_ofNat ..
    · rfl
  · have on : converts s f e = true := by simp [converts, hw]
    have all : active (tyWidth f.ty) 0xFFFF e = true := by
      have place := place_le he
      rw [Nat.mul_comm] at place
      rw [active, show (0xFFFF : BitVec 16) = BitVec.allOnes 16 from rfl, BitVec.getLsbD_allOnes, decide_eq_true_iff]
      have := Nat.pos_of_ne_zero fun z : tyWidth f.ty = 0 => by simp [z] at he
      omega
    rw [if_neg hw, all, if_pos rfl, on, if_pos rfl, BitVec.toNat_ofNat]
    split <;> split
    · omega
    · rfl
    · exact Nat.zero_mod _
    · omega

end

/-! ### Conversions between integers (R177) -/

theorem int_ofTy {ty : BitVec 4} {b8 : BitVec 5} (hty : ty.toNat ≤ 14) (h : (NumFmt.ofTy ty b8).isFloat = false) :
    NumFmt.ofTy ty b8 = .int (NumFmt.ofTy ty b8).width (ty == 13 || tySigned ty) := by
  revert ty b8; decide

theorem signedOf_ofNat (w code : Nat) : signedOf w code = (BitVec.ofNat w code).toInt := by
  rw [← signedOf_toInt, BitVec.toNat_ofNat, signedOf, signedOf, Nat.mod_mod]

theorem convert_int (w w' : Nat) (sg sg' : Bool) (md : Mode) (sat : Bool) (code : Nat) : convert (.int w sg) (.int w' sg') md sat code =
    ((BitVec.ofInt w' (if sat then max (intMin w' sg') (min (if sg then (BitVec.ofNat w code).toInt else (BitVec.ofNat w code).toNat)
      (intMax w' sg')) else if sg then (BitVec.ofNat w code).toInt else (BitVec.ofNat w code).toNat)).toNat, {}) := by
  simp only [convert, wrapInt_ofInt, clampInt, signedOf_ofNat, BitVec.toNat_ofNat, min_comm (intMax w' sg')]

/-! ### Conversions to integers (R176) -/

/-- An out-of-range result. -/
theorem intOut_eq (w : Nat) (sg sat below : Bool) : intOut w sg sat below =
    if sat then (BitVec.ofInt w (if below then intMin w sg else intMax w sg)).toNat else if sg then 2 ^ (w - 1) else 2 ^ w - 1 := by
  rw [intOut, wrapInt_ofInt]

/-- A value rounded to an integer by a mode. -/
def roundedInt (md : Mode) (neg : Bool) (x : Mag) : Int :=
  let r : Int := if md.up neg (x.split 0).2.1 (x.split 0).2.2 ((x.split 0).1 % 2 == 1) then (x.split 0).1 + 1 else (x.split 0).1
  if neg then -r else r

theorem toInt_mag (w : Nat) (sg : Bool) (md : Mode) (sat neg : Bool) (x : Mag) : toInt w sg md sat (.mag neg x) =
    if roundedInt md neg x < intMin w sg then (intOut w sg sat true, Flags.invalid)
    else if intMax w sg < roundedInt md neg x then (intOut w sg sat false, Flags.invalid)
    else (wrapInt w (roundedInt md neg x), { nx := (x.split 0).2.1 || (x.split 0).2.2 }) := rfl

section
variable {m : Nat} {e : Int} {md : Mode} {neg : Bool}

theorem split_zero_between (m : Nat) (e : Int) : Between (dyadic m e) ((Mag.split ⟨m, e, false⟩ 0).1 : Nat)
    ((Mag.split ⟨m, e, false⟩ 0).1 + 1) (Mag.split ⟨m, e, false⟩ 0).2.1 (Mag.split ⟨m, e, false⟩ 0).2.2 := by
  have cut := Mag.split_between m e 0
  rwa [zpow_zero, div_one] at cut

theorem cast_roundedInt (md : Mode) (neg : Bool) (x : Mag) : ((roundedInt md neg x : Int) : ℚ) =
    signedRat neg (md.pick neg (x.split 0).2.1 (x.split 0).2.2 ((x.split 0).1 % 2 == 1) ((x.split 0).1 : Nat) ((x.split 0).1 + 1)) := by
  unfold roundedInt Mode.pick signedRat
  cases neg <;> split <;> simp

/-- What a rounding to an integer is to its exact number, counted in a unit of which one is `one`. -/
structure RoundedToInt (md : Mode) (x one z : Int) (inexact : Bool) : Prop where
  near : (z * one - x).natAbs < one
  inward : md = .rtz → (z * one).natAbs ≤ x.natAbs
  down : md = .rdn → z * one ≤ x
  up : md = .rup → x ≤ z * one
  nearest : md = .rne ∨ md = .rmm → 2 * (z * one - x).natAbs ≤ one
  tie : 2 * ((z * one - x).natAbs : Int) = one → (md = .rne → z % 2 = 0) ∧ (md = .rmm → x.natAbs < (z * one).natAbs)
  inexact_iff : inexact = decide (z * one ≠ x)

theorem Counts.of_one {lo : Int} (h : lo ≤ 0) : Counts (2 ^ lo) (2 ^ (-lo).toNat) 1 := by
  have power := two_pow_toNat (z := -lo) (by omega)
  rw [zpow_neg] at power
  push_cast at power
  rw [Counts, Int.cast_pow, Int.cast_ofNat, power]
  exact inv_mul_cancel₀ (two_zpow_pos lo).ne'

theorem Counts.whole {u : ℚ} {one : Int} (h : Counts u one 1) (z : Int) : Counts u (z * one) z := by
  rw [Counts, Int.cast_mul, mul_assoc, h, mul_one]

/-- A picked integer lies within one, and half way the parity decides. -/
theorem pick_within {v : ℚ} {k : Nat} {half rest odd : Bool} (h : Between v k (k + 1) half rest) :
    |md.pick neg half rest odd (k : ℚ) (k + 1) - v| < 1 := by
  have hl := h.lt
  have hle := h.le
  by_cases hu : md.up neg half rest odd = true
  · have ne := h.inexact_iff.1 (Mode.inexact_of_up hu)
    have lt : (k : ℚ) < v := lt_of_le_of_ne hle ne.symm
    rw [Mode.pick_of_up hu, abs_of_nonneg (by linarith)]
    linarith
  · rw [Mode.pick_of_not_up hu, abs_of_nonpos (by linarith)]
    linarith

theorem tie_of_half {v : ℚ} {k : Nat} {half rest odd : Bool} (h : Between v k (k + 1) half rest)
    (ht : 2 * |md.pick neg half rest odd (k : ℚ) (k + 1) - v| = 1) : (k : ℚ) + (k + 1) = 2 * v := by
  have hl := h.lt
  have hle := h.le
  rcases Mode.pick_eq_or md neg half rest odd (k : ℚ) (k + 1) with e | e <;> rw [e] at ht
  · rw [abs_of_nonpos (by linarith)] at ht
    linarith
  · rw [abs_of_nonneg (by linarith)] at ht
    linarith

theorem roundedInt_even {x : Mag}
    (h : md.up neg (x.split 0).2.1 (x.split 0).2.2 ((x.split 0).1 % 2 == 1) = ((x.split 0).1 % 2 == 1)) :
    roundedInt md neg x % 2 = 0 := by
  unfold roundedInt
  rw [h]
  by_cases odd : (x.split 0).1 % 2 = 1
  · cases neg <;> simp only [odd, beq_self_eq_true, Bool.false_eq_true, if_true, if_false] <;> omega
  · cases neg <;> simp only [beq_false_of_ne odd, Bool.false_eq_true, if_true, if_false] <;> omega

theorem roundedToInt {lo : Int} (hlo : lo ≤ e) (h0 : lo ≤ 0) :
    RoundedToInt md (scaled neg m e lo) (2 ^ (-lo).toNat) (roundedInt md neg ⟨m, e, false⟩)
      ((Mag.split ⟨m, e, false⟩ 0).2.1 || (Mag.split ⟨m, e, false⟩ 0).2.2) := by
  have unit := two_zpow_pos lo
  have between := split_zero_between m e
  have hx : Counts (2 ^ lo) (scaled neg m e lo) (signedRat neg (dyadic m e)) := .of_scaled neg m hlo
  have hone := Counts.of_one h0
  have hz := hone.whole (roundedInt md neg ⟨m, e, false⟩)
  rw [cast_roundedInt] at hz
  have even := roundedInt_even (md := md) (neg := neg) (x := ⟨m, e, false⟩)
  generalize roundedInt md neg ⟨m, e, false⟩ = z at hz even ⊢
  generalize Mag.split ⟨m, e, false⟩ 0 = s at between hz even ⊢
  have rounded := roundedTo_pick (md := md) (neg := neg) (odd := s.1 % 2 == 1) between (Nat.cast_nonneg _)
  have size : |signedRat neg (dyadic m e)| = dyadic m e := by rw [abs_signedRat, abs_of_nonneg (dyadic_nonneg ..)]
  have dist := (hz.sub hx).natAbs unit
  rw [dist_signedRat] at dist
  refine ⟨?_, fun h => (hz.natAbs_le_iff unit hx).2 (rounded.inward h), fun h => (hz.le_iff unit hx).2 (rounded.down h),
    fun h => (hx.le_iff unit hz).2 (rounded.up h), fun h => ?_, fun h => ?_, ?_⟩
  · exact (dist.lt_iff unit hone).2 (pick_within between)
  · have := Mode.pick_nearest (neg := neg) (odd := s.1 % 2 == 1) between h
    rw [add_sub_cancel_left] at this
    exact (dist.double.le_iff unit hone).2 this
  · have tie := tie_of_half between ((dist.double.eq_iff unit hone).1 h)
    have choice := Mode.pick_tie (md := md) (neg := neg) (odd := s.1 % 2 == 1) between tie
    refine ⟨fun hr => even (choice.1 hr), fun hr => (hx.natAbs_lt_iff unit hz).2 ?_⟩
    rw [size, abs_signedRat, Mode.pick_of_up (choice.2 hr), abs_of_nonneg (by positivity)]
    exact between.lt
  · rw [Bool.eq_iff_iff, decide_eq_true_iff, ← Mode.pick_ne_iff (md := md) (neg := neg) (odd := s.1 % 2 == 1) between, ne_eq, ne_eq,
      hz.eq_iff unit hx, signedRat_inj]

end

/-- A zero rounds to 0. -/
theorem split_zero (e : Int) : Mag.split ⟨0, e, false⟩ 0 = (0, false, false) := by
  unfold Mag.split
  dsimp only
  split
  · split <;> simp
  · simp

theorem roundedInt_zero (md : Mode) (neg : Bool) (e : Int) : roundedInt md neg ⟨0, e, false⟩ = 0 := by
  unfold roundedInt
  rw [split_zero]
  cases md <;> cases neg <;> rfl

theorem intMin_le_zero (w : Nat) (sg : Bool) : intMin w sg ≤ 0 := by
  have : (0 : Int) < 2 ^ (w - 1) := by positivity
  unfold intMin; split <;> omega

theorem zero_le_intMax (w : Nat) (sg : Bool) : 0 ≤ intMax w sg := by
  have : (0 : Int) < 2 ^ (w - 1) := by positivity
  have : (0 : Int) < 2 ^ w := by positivity
  unfold intMax; split <;> omega

/-- What a finite value comes to as an integer. -/
theorem toInt_finite (w : Nat) (sg : Bool) (md : Mode) (sat neg : Bool) (m : Nat) (e : Int) :
    toInt w sg md sat (Num.fin neg m e).exact =
      if roundedInt md neg ⟨m, e, false⟩ < intMin w sg then (intOut w sg sat true, Flags.invalid)
      else if intMax w sg < roundedInt md neg ⟨m, e, false⟩ then (intOut w sg sat false, Flags.invalid)
      else (wrapInt w (roundedInt md neg ⟨m, e, false⟩), { nx := (Mag.split ⟨m, e, false⟩ 0).2.1 || (Mag.split ⟨m, e, false⟩ 0).2.2 }) := by
  by_cases hm : m = 0
  · subst hm
    rw [roundedInt_zero, if_neg (not_lt.2 (intMin_le_zero w sg)), if_neg (not_lt.2 (zero_le_intMax w sg)), split_zero]
    simp [Num.exact, toInt, wrapInt]
  · rw [Num.exact, if_neg hm, toInt_mag]

/-! ### Conversions to floating formats (R172, R175) -/

namespace NumFmt

variable {f g : NumFmt} {md : Mode} {sat : Bool}

theorem convert_to_float (h : f.isFloat = true) (md : Mode) (sat : Bool) (code : Nat) :
    convert g f md sat code = f.deliver md sat (g.value code).exact := by
  cases f
  case int => cases h
  all_goals cases g <;> rfl

theorem convert_to_int (h : g.isFloat = true) (w : Nat) (sg : Bool) (md : Mode) (sat : Bool) (code : Nat) :
    convert g (.int w sg) md sat code = toInt w sg md sat (g.value code).exact := by
  cases g
  case int => cases h
  all_goals rfl

theorem deliver_nan (hf : f.Floating) (h4 : f ≠ .f4) (fl : Flags) :
    f.deliver md sat (.nan fl) = (f.nanCode, fl) ∧ f.value f.nanCode = .nan false := by
  cases f with
  | int => exact absurd hf id
  | ieee w t => exact ⟨rfl, value_nanCode_ieee hf⟩
  | f4 => exact absurd rfl h4
  | b8 p u x => exact ⟨rfl, value_nanCode_b8 p u x⟩

/-- A negative infinity, and any negative value but a zero, into an unsigned format (R175). -/
theorem deliver_negative (p : Nat) (x : Bool) (m : Mag) :
    (b8 p true x).deliver md sat (.inf true {}) = (if sat then (0, { nx := true }) else (0xFF, { nv := true })) ∧
      (b8 p true x).deliver md sat (.mag true m) = (if sat then (0, { nx := true }) else (0xFF, { nv := true })) :=
  ⟨rfl, rfl⟩

theorem deliver_inf_finiteOnly (p : Nat) (u : Bool) {neg : Bool} (h : u = true → neg = false) :
    (b8 p u false).deliver md sat (.inf neg {}) =
      (if sat then (b8 p u false).signed neg (b8 p u false).maxCode else if u then 0xFF else 0x80, { nv := true }) := by
  cases u
  · rfl
  · rw [h rfl]; rfl

theorem deliver_inf_b8 (p : Nat) (u : Bool) {neg : Bool} (h : u = true → neg = false) :
    (b8 p u true).deliver md sat (.inf neg {}) = ((b8 p u true).signed neg ((b8 p u true).maxCode + 1), {}) := by
  cases u
  · rfl
  · rw [h rfl]; rfl

theorem ieee_of_float {ty : BitVec 4} {b8 : BitVec 5} (h : (ofTy ty b8).isFloat = true) (h12 : ty ≠ 12) (h14 : ty ≠ 14) :
    tyIeee ty = true := by
  rcases floating_types h with rfl | rfl | rfl | rfl | rfl | rfl
  case inr.inr.inr.inr.inl => exact absurd rfl h12
  case inr.inr.inr.inr.inr => exact absurd rfl h14
  all_goals rfl

/-- A binary8 format by its code (R34). -/
theorem binary8_ofTy {b8 : BitVec 5} (h : 4 ≤ b8.toNat) : ∃ p, ofTy 14 b8 = .b8 p (decide (18 ≤ b8.toNat)) ((b8.toNat - 4) / 7 % 2 == 1) :=
  ⟨_, congrArg (NumFmt.b8 _ · _) (decide_eq_decide.2 (by omega))⟩

/-- A NaN by the destination (R175). -/
theorem deliver_nan_ofTy {dst : BitVec 4} {b8 : BitVec 5} (h : (ofTy dst b8).isFloat = true) (q : Bool) :
    ((ofTy dst b8).deliver md sat (Num.nan q).exact).2 = { nv := q || dst == 12 } ∧
      if dst = 12 then ((ofTy dst b8).deliver md sat (Num.nan q).exact).1 = 0
      else (ofTy dst b8).value ((ofTy dst b8).deliver md sat (Num.nan q).exact).1 = .nan false := by
  by_cases h12 : dst = 12
  · subst h12
    cases q <;> exact ⟨rfl, rfl⟩
  · obtain ⟨code, value⟩ := deliver_nan (md := md) (sat := sat) (floating_ofTy h) (fun g => h12 ((ofTy_eq_f4 dst b8).1 g))
      (if q then Flags.invalid else {})
    rw [Num.exact, code, if_neg h12, beq_false_of_ne h12, Bool.or_false]
    exact ⟨by cases q <;> rfl, value⟩

/-- A negative value into an unsigned format (R175). -/
theorem deliver_negative_ofTy {b8 : BitVec 5} (h : 18 ≤ b8.toNat) (m : Mag) :
    (ofTy 14 b8).deliver md sat (.inf true {}) = (if sat then (0, { nx := true }) else (0xFF, { nv := true })) ∧
      (ofTy 14 b8).deliver md sat (.mag true m) = (if sat then (0, { nx := true }) else (0xFF, { nv := true })) := by
  obtain ⟨p, hp⟩ := binary8_ofTy (b8 := b8) (by omega)
  rw [hp, decide_eq_true h]
  exact deliver_negative p _ m

theorem deliver_zero_ofTy {dst : BitVec 4} {b8 : BitVec 5} (h : (ofTy dst b8).isFloat = true) (neg : Bool) :
    (ofTy dst b8).deliver md sat (.zero neg) = (if neg = true ∧ dst ≠ 14 then 2 ^ ((ofTy dst b8).width - 1) else 0, {}) := by
  rcases floating_types h with rfl | rfl | rfl | rfl | rfl | rfl <;> cases neg <;> rfl

/-- What lies beyond the largest value by the destination (R172). -/
theorem value_overflow_ofTy {dst : BitVec 4} {b8 : BitVec 5} (h : (ofTy dst b8).isFloat = true) {neg : Bool}
    (hs : (ofTy dst b8).oneSigned = true → neg = false) :
    if sat then (ofTy dst b8).overflowCode sat neg = (ofTy dst b8).signed neg (ofTy dst b8).maxCode
    else if dst = 12 then (ofTy dst b8).value ((ofTy dst b8).overflowCode sat neg) = .fin neg 3 1
    else if dst = 14 ∧ (b8.toNat - 4) / 7 % 2 = 0 then (ofTy dst b8).value ((ofTy dst b8).overflowCode sat neg) = .nan false
    else (ofTy dst b8).value ((ofTy dst b8).overflowCode sat neg) = .inf neg := by
  have value := value_overflowCode (floating_ofTy h) hs sat
  cases sat
  · by_cases h12 : dst = 12
    · subst h12
      rw [if_neg Bool.false_ne_true, if_pos rfl]
      refine value.trans ((if_pos (.inr rfl)).trans ?_)
      show Num.fin neg (f4.magnitude f4.maxCode).1 (f4.magnitude f4.maxCode).2 = _
      rw [show f4.magnitude f4.maxCode = (3, 1) by decide]
    · have not_four : ¬ (false = true ∨ ofTy dst b8 = .f4) := by
        rintro (g | g)
        · cases g
        · exact h12 ((ofTy_eq_f4 dst b8).1 g)
      rw [if_neg not_four] at value
      have only := finiteOnly_ofTy dst b8
      rw [if_neg Bool.false_ne_true, if_neg h12]
      split
      · next hx => rw [value, if_pos (only.2 hx)]
      · next hx => rw [value, if_neg fun g => hx (only.1 g)]
  · exact if_pos rfl

/-- An infinity by the destination (R175). -/
theorem deliver_inf_ofTy {dst : BitVec 4} {b8 : BitVec 5} (h : (ofTy dst b8).isFloat = true) (h8 : dst = 14 → 4 ≤ b8.toNat)
    {neg : Bool} (hs : (ofTy dst b8).oneSigned = true → neg = false) :
    if dst = 12 then (ofTy dst b8).value ((ofTy dst b8).deliver md sat (.inf neg {})).1 = .fin neg 3 1 ∧
        ((ofTy dst b8).deliver md sat (.inf neg {})).2 = { nv := true }
      else if dst = 14 ∧ (b8.toNat - 4) / 7 % 2 = 0 then (ofTy dst b8).deliver md sat (.inf neg {}) =
        (if sat then (ofTy dst b8).signed neg (ofTy dst b8).maxCode else if 18 ≤ b8.toNat then 0xFF else 0x80, { nv := true })
      else (ofTy dst b8).value ((ofTy dst b8).deliver md sat (.inf neg {})).1 = .inf neg ∧
        ((ofTy dst b8).deliver md sat (.inf neg {})).2 = {} := by
  have hf := floating_ofTy h
  by_cases h12 : dst = 12
  · subst h12
    rw [if_pos rfl]
    exact ⟨(value_maxCode (f := .f4) hf hs).trans rfl, rfl⟩
  rw [if_neg h12]
  by_cases h14 : dst = 14
  · subst h14
    obtain ⟨p, hp⟩ := binary8_ofTy (h8 rfl)
    rw [hp] at hs ⊢
    by_cases hx : (b8.toNat - 4) / 7 % 2 = 0
    · have finite : ((b8.toNat - 4) / 7 % 2 == 1) = false := by rw [hx]; rfl
      rw [if_pos ⟨rfl, hx⟩, finite]
      have := deliver_inf_finiteOnly (md := md) (sat := sat) p (decide (18 ≤ b8.toNat)) hs
      simpa only [decide_eq_true_eq] using this
    · have infinite : ((b8.toNat - 4) / 7 % 2 == 1) = true := by rw [beq_iff_eq]; omega
      rw [if_neg fun g => hx g.2, infinite, deliver_inf_b8 p (decide (18 ≤ b8.toNat)) hs]
      exact ⟨value_infinity_b8 p (decide (18 ≤ b8.toNat)) hs, rfl⟩
  · obtain ⟨w, t, hw⟩ := ieee_ofTy (b8 := b8) (ieee_of_float h h12 h14)
    rw [if_neg fun g => h14 g.1, hw]
    exact ⟨value_infinity_ieee (hw ▸ hf) neg, rfl⟩

end NumFmt

/-- Settles O18: a comparison's bit is the order of its two numbers, and its flags stand in the lane of its element; a conversion to an
integer rounds to one of the two next integers, and one to a floating format is the delivery of the exact value. -/
theorem comparisonsAndConversions : Obligations.ComparisonsAndConversions := by
  unfold Obligations.ComparisonsAndConversions
  refine ⟨fun f s hr ha hb hw => ?_, fun f s hr ha hd hc => ?_, fun src dst b8 md sat code hsrc hdst hb8 => ?_⟩
  · refine ⟨comparedMask s f, comparedFlags s f, exec_vcmp hr ha hb, fun i hi => ?_, fun e he b hb => ?_⟩
    · rw [getLsbD_comparedMask hi, condHolds_eq_order, comparand_elem, comparand_elem]
      rfl
    · have bit := laneBit_comparedFlags (s := s) hw he hb
      rw [comparand_elem, comparand_elem] at bit
      exact bit
  · refine ⟨convertedV s f, ?_, fun e he => ?_⟩
    · rw [exec_vcvt hr ha hd]
      simp only [converted, elem_eq_toNat]
      rfl
    · rw [extract_convertedV he]
      simp only [converted, elem_eq_toNat]
      rfl
  · intro a t w signed least most pattern r unsigned8
    refine ⟨fun ha ht => ?_, fun ha ht => ?_, fun ht => ?_⟩
    · intro c z
      have hsrc' : a = .int a.width (src == 13 || tySigned src) := int_ofTy hsrc ha
      have ht' : t = .int w signed := int_ofTy hdst ht
      have hz : (if (src == 13 || tySigned src) = true then c.toInt else (c.toNat : Int)) = z := by
        simp only [Bool.or_eq_true, beq_iff_eq]; rfl
      have key := convert_int a.width w (src == 13 || tySigned src) signed md sat code
      rw [← hsrc', ← ht', hz] at key
      exact key
    · have ht' : t = .int w signed := int_ofTy hdst ht
      have hr : r = toInt w signed md sat (a.value code).exact := by
        have key := NumFmt.convert_to_int ha w signed md sat code
        rwa [← ht'] at key
      intro out
      have hout (below : Bool) : intOut w signed sat below = out below := intOut_eq w signed sat below
      refine ⟨fun q hq => ?_, fun n hn => ?_, fun n m e lo hv hlo hlow => ?_⟩
      · rw [hr, hq]; rfl
      · rw [hr, hn, ← hout]; rfl
      · intro x one
        have spec := roundedToInt (md := md) (neg := n) (m := m) hlo (by omega)
        refine ⟨roundedInt md n ⟨m, e, false⟩, spec.near, spec.inward, spec.down, spec.up, spec.nearest, spec.tie, ?_⟩
        rw [hr, hv, toInt_finite, spec.inexact_iff, hout, hout, wrapInt_ofInt]
        rfl
    · have hr : r = t.deliver md sat (a.value code).exact := NumFmt.convert_to_float ht md sat code
      have hf : t.Floating := NumFmt.floating_ofTy ht
      have h8 : t.oneSigned = unsigned8 := NumFmt.oneSigned_ofTy dst b8
      have negative_unsigned {n : Bool} (hu : (unsigned8 && n) = true) : dst = 14 ∧ 18 ≤ b8.toNat ∧ n = true := by
        simpa [unsigned8, and_assoc] using hu
      have oneSign {n : Bool} (hu : ¬ (unsigned8 && n) = true) : t.oneSigned = true → n = false := by
        rw [h8]; intro h; simpa [h] using hu
      refine ⟨fun q hq => ?_, fun n hn => ?_, fun n m e hv => ?_⟩
      · rw [hr, hq]
        exact NumFmt.deliver_nan_ofTy ht q
      · rw [hr, hn]
        by_cases hu : (unsigned8 && n) = true
        · obtain ⟨rfl, h18, rfl⟩ := negative_unsigned hu
          rw [if_pos hu]
          exact (NumFmt.deliver_negative_ofTy h18 ⟨0, 0, false⟩).1
        · rw [if_neg hu]
          exact NumFmt.deliver_inf_ofTy ht (fun h => hb8 (.inr h)) (oneSign hu)
      · intro beyond
        rw [hr, hv]
        by_cases hm : m = 0
        · subst hm
          rw [if_pos rfl]
          exact NumFmt.deliver_zero_ofTy ht n
        rw [if_neg hm, Num.exact, if_neg hm]
        by_cases hu : (unsigned8 && n) = true
        · obtain ⟨rfl, h18, rfl⟩ := negative_unsigned hu
          rw [if_pos hu]
          exact (NumFmt.deliver_negative_ofTy h18 _).2
        rw [if_neg hu]
        by_cases hgt : beyond = true
        swap
        · rw [if_pos (by simpa using hgt)]
        rw [if_neg (by simpa using hgt)]
        intro lo hlo htop hnext top next tooFar
        have unit := two_zpow_pos lo
        have gt : t.mag t.maxCode < dyadic m e := Mag.compare_gt.1 (beq_iff_eq.1 hgt)
        have far : t.overflows md n ⟨m, e, false⟩ = tooFar := by
          refine NumFmt.overflows_counted hf unit gt (.of_scaled false m hlo) (.of_scaled false _ htop) (.of_scaled false _ hnext) _
            ?_ ?_ ?_ ?_
          · rintro (rfl | rfl) <;> exact decide_eq_true_iff
          all_goals rintro rfl; rfl
        rw [NumFmt.deliver_mag (oneSign hu), NumFmt.roundMag_of_gt gt, far]
        cases tooFar with
        | false => rfl
        | true => exact ⟨rfl, NumFmt.value_overflow_ofTy ht (oneSign hu)⟩

end Sys2Proof.Machine
end

section
/-! PROOF. How a free slot takes work (02 R42; 03 R83, R84; 05 R106, R108, R117, R123; 15 R326). -/

namespace Sys2Proof.Machine

open Sys2Proof

set_option Elab.async false

namespace State

/-! ### What leaves the harts as they are -/

theorem harts_foldl {α : Type} {f : State → α → State} (h : ∀ s x, (f s x).harts = s.harts) (l : List α) (s : State) :
    (l.foldl f s).harts = s.harts := by
  induction l generalizing s with
  | nil => rfl
  | cons x t ih => exact (ih (f s x)).trans (h s x)

theorem harts_meetErrors (s : State) (pa n : Nat) : (s.meetErrors pa n).harts = s.harts := by
  unfold meetErrors
  split
  · rfl
  refine harts_foldl (fun s u => ?_) _ s
  dsimp only
  split
  · split <;> rfl
  · split <;> rfl
  · rfl

theorem harts_meetStore (s : State) (bytes : List (Nat × Byte)) (half : List (Nat × Bool × Nat)) :
    (s.meetStore bytes half).harts = s.harts := by
  unfold meetStore
  split
  · rfl
  · exact harts_foldl (fun s a => harts_meetErrors s a 1) _ _

theorem harts_rekey (s : State) (slot pa n : Nat) : (s.rekey slot pa n).harts = s.harts := by
  refine harts_foldl (fun s line => ?_) _ s
  unfold rekeyLine
  split
  · rfl
  · split <;> rfl

theorem harts_perform (s : State) (st : Store) : (s.perform st).harts = s.harts := by
  unfold perform
  split
  · rfl
  · refine (harts_foldl (fun s a => ?_) _ _).trans ((harts_meetStore ..).trans (harts_foldl (f := fun s a => s.touchDie a 1) (fun _ _ => rfl) _ s))
    split
    · exact harts_rekey ..
    · rfl

theorem harts_leaveStores (s : State) (l : List Store) : (s.leaveStores l).harts = s.harts := by
  refine (harts_foldl harts_perform _ _).trans ?_
  split
  · exact harts_meetErrors ..
  · rfl

theorem harts_modLaunch (s : State) (p l : Nat) (f : Launch → Launch) : (s.modLaunch p l f).harts = s.harts := by
  unfold modLaunch; split <;> rfl

theorem harts_leaveGang (s : State) (t : Task) : (s.leaveGang t).harts = s.harts := by
  unfold leaveGang
  split
  · rfl
  · split
    · rfl
    · dsimp only; split <;> rfl

theorem harts_push (s : State) (c : Nat) (urgent : Bool) (w : Work) : (s.push c urgent w).harts = s.harts := by
  unfold push; dsimp only; split <;> rfl

theorem harts_validate (p i n : Nat) (s : State) : (validate p i n s).harts = s.harts := by
  induction n generalizing s with
  | zero => rfl
  | succ n ih =>
    unfold validate
    dsimp only
    split
    · rfl
    · split
      · split
        · rfl
        · exact (ih _).trans (harts_push ..)
      · split
        · split <;> rfl
        · rfl

theorem harts_deliver (s : State) (p : Nat) (handle : Word) (body : List Byte) : (s.deliver p handle body).1.harts = s.harts := by
  unfold deliver
  dsimp only
  iterate 6
    split
    · rfl
  exact harts_validate ..

theorem harts_deliverOrDrop (s : State) (p : Nat) (handle : Word) (body : List Byte) :
    (s.deliverOrDrop p handle body).harts = s.harts := by
  have delivered := harts_deliver s p handle body
  unfold deliverOrDrop
  split
  · rfl
  · split
    all_goals
      next h => rw [h] at delivered; exact delivered

theorem harts_launchAnswered (s : State) (p l answer : Nat) : (s.launchAnswered p l answer).harts = s.harts := by
  unfold launchAnswered
  split
  · rfl
  · exact harts_modLaunch ..
  · exact harts_modLaunch ..
  · rfl

theorem harts_completeLaunch (s : State) (p l : Nat) : (s.completeLaunch p l).harts = s.harts := by
  unfold completeLaunch
  split
  · rfl
  · split
    · rfl
    · split
      · rfl
      · exact (harts_launchAnswered ..).trans (harts_deliver ..)

theorem harts_taskOver (s : State) (d : Descriptor) (kind : EndKind) (core slot : Nat) (first : Word) (integrity : Bool)
    (regionpc pc insn : Word) : (s.taskOver d kind core slot first integrity regionpc pc insn).harts = s.harts := by
  unfold taskOver
  split
  · exact (harts_completeLaunch ..).trans (harts_modLaunch ..)
  · rfl

/-- A record that ends by a trap leaves every hart as it is. -/
theorem harts_endTrapped_record (s : State) (id : HartId) (h : Hart) (task : Task) (t : Trap) :
    (s.endTrapped id h task t false).harts = s.harts := by
  unfold endTrapped
  refine (harts_taskOver ..).trans ((harts_deliverOrDrop ..).trans ((harts_leaveGang ..).trans ((harts_modLaunch ..).trans ?_)))
  exact harts_leaveStores ..

end State

/-! ### A core's deque and spill area -/

theorem Core.work_eq (k : Core) (n : Nat) : (if n = 3 then (k.dequeU, k.spillU) else (k.dequeN, k.spillN)) = k.work (n == 3) := by
  unfold Core.work
  by_cases h : n = 3 <;> simp [h]

@[simp] theorem Core.work_setWork (k : Core) (urgent : Bool) (w : List Work × List Work) : (k.setWork urgent w).work urgent = w := by
  cases urgent <;> rfl

/-- An emptied deque with nothing spilled, and a deque with work in it, stay as they are. -/
theorem refill_of_settled {l m : List Work} (h : l ≠ [] ∨ m = []) : refill (l, m) = (l, m) := by
  unfold refill
  cases l with
  | nil =>
    obtain rfl : m = [] := h.resolve_left (· rfl)
    rfl
  | cons => rfl

/-- The owner takes the newest. -/
theorem popOwn_concat {l m : List Work} (w : Work) (h : l ≠ [] ∨ m = []) : popOwn (l ++ [w], m) = some (w, (l, m)) := by
  unfold popOwn
  rw [refill_of_settled (.inl (by simp))]
  simp [refill_of_settled h]

theorem popOwn_nil : popOwn ([], []) = none := rfl

theorem pushWork_of_room {l m : List Work} (w : Work) (h : l.length < 64) : pushWork l m w = (l ++ [w], m) :=
  if_neg (Nat.not_le.2 h)

namespace State

variable {s : State} {c n : Nat}

@[simp] theorem partition_push (s : State) (c : Nat) (urgent : Bool) (w : Work) (p : Nat) :
    (s.push c urgent w).partition p = s.partition p := by
  unfold push; dsimp only; split <;> rfl

@[simp] theorem hart_push (s : State) (c : Nat) (urgent : Bool) (w : Work) (h : HartId) : (s.push c urgent w).hart h = s.hart h := by
  unfold push; dsimp only; split <;> rfl

/-- A push adds at the new end of the core's own deque of the class, and leaves the other cores'. -/
theorem work_push (s : State) (c : Nat) (urgent : Bool) (w : Work) : ((s.push c urgent w).core c).work urgent =
    pushWork ((s.core c).work urgent).1 ((s.core c).work urgent).2 w := by
  unfold push
  cases urgent <;> simp [Core.work]

theorem core_push_other (s : State) {c j : Nat} (urgent : Bool) (w : Work) (h : j ≠ c) : (s.push c urgent w).core j = s.core j := by
  unfold push
  dsimp only
  split <;> exact core_setCore_other _ _ h

/-! ### Starting a descriptor -/

end State

/-- What a slot starts of a descriptor: of a range its first index, in s8. -/
def Descriptor.firstIndex (d : Descriptor) : Descriptor :=
  if d.kind = 1 then { d with payload := d.payload.set 7 (BitVec.ofNat 64 d.lo), hi := d.lo + 1 } else d

theorem Descriptor.firstIndex_other {d : Descriptor} (h : d.kind ≠ 1) : d.firstIndex = d := if_neg h

/-- Everything but the payload and the end of a range stays. -/
theorem Descriptor.firstIndex_eq (d : Descriptor) : d.firstIndex = { d with payload := d.firstIndex.payload, hi := d.firstIndex.hi } := by
  unfold firstIndex; split <;> rfl

theorem Descriptor.payload_firstIndex (d : Descriptor) {i : Nat} (h : 1 ≤ i ∧ i ≤ 8) : d.firstIndex.payload.toList.getD (i - 1) 0 =
    if d.kind = 1 ∧ i = 8 then BitVec.ofNat 64 d.lo else d.payload.toList.getD (i - 1) 0 := by
  by_cases hk : d.kind = 1
  · rw [firstIndex, if_pos hk]
    dsimp only
    rw [Vector.toList_set, List.getD_eq_getElem?_getD, List.getElem?_set]
    by_cases h8 : i = 8
    · subst h8
      simp [hk]
    · rw [if_neg (by omega), if_neg fun g => h8 g.2, List.getD_eq_getElem?_getD]
  · rw [firstIndex_other hk, if_neg fun g => hk g.1]

namespace State

variable {s : State} {c n : Nat} {d : Descriptor}

/-- The state in which what remains of a range has been pushed. -/
def pushRest (s : State) (c : Nat) (d : Descriptor) : State :=
  if d.kind = 1 && d.lo + 1 < d.hi then s.push c d.urgent (.desc { d with lo := d.lo + 1, origin := c }) else s

theorem startIn_eq (s : State) (c n : Nat) (d : Descriptor) : s.startIn c n d =
    if (s.pushRest c d).startable d.firstIndex then
      (s.pushRest c d).setHart (.slot c n) ((s.pushRest c d).prepared d.firstIndex none)
    else (s.pushRest c d).taskOver d.firstIndex .discarded d.firstIndex.origin 0 0 true d.firstIndex.entry d.firstIndex.entry 0 := rfl

@[simp] theorem partition_pushRest (s : State) (c : Nat) (d : Descriptor) (p : Nat) : (s.pushRest c d).partition p = s.partition p := by
  unfold pushRest; split <;> simp

@[simp] theorem hart_pushRest (s : State) (c : Nat) (d : Descriptor) (h : HartId) : (s.pushRest c d).hart h = s.hart h := by
  unfold pushRest; split <;> simp

theorem startable_of_find {o : Object} (h : (s.partition d.part).objects.find d.object = some o) : s.startable d = !o.revoked := by
  unfold startable; rw [h]

theorem startable_pushRest (s : State) (c : Nat) (d : Descriptor) : (s.pushRest c d).startable d.firstIndex = s.startable d := by
  rw [Descriptor.firstIndex_eq]
  unfold startable
  rw [partition_pushRest]

/-- The hart of a slot in which a descriptor has started, and every other hart as it was (R42, R117, R123). -/
def Started (s t : State) (c n : Nat) (d : Descriptor) (first : Nat) : Prop :=
  let x := t.hart (.slot c n)
  (∃ y, x = { pc := d.entry, regionpc := d.entry, boundary := true, task := some y, regs := { s := x.regs.s } } ∧
    y.desc.launch = d.launch ∧ y.desc.object = d.object ∧ y.desc.counter = d.counter ∧ y.desc.asid = d.asid ∧
    y.gang = none ∧ y.wdlimit = (s.partition d.part).wdlimit) ∧
  (∀ i : BitVec 5, x.regs.getS i = if 1 ≤ i.toNat ∧ i.toNat ≤ 8 then
    (if d.kind = 1 ∧ i = 8 then BitVec.ofNat 64 first else d.payload.toList.getD (i.toNat - 1) 0) else 0) ∧
  (∀ j, j ≠ .slot c n → t.hart j = s.hart j)

/-- Only the harts and partitions before matter. -/
theorem Started.of_eq {u t : State} {first : Nat} (h : Started u t c n d first) (harts : ∀ j, u.hart j = s.hart j)
    (partitions : ∀ p, u.partition p = s.partition p) : Started s t c n d first := by
  unfold Started at h ⊢
  simpa only [harts, partitions] using h

theorem getS_prepared (s : State) (d : Descriptor) (gang : Option Nat) (i : BitVec 5) : (s.prepared d gang).regs.getS i =
    if 1 ≤ i.toNat ∧ i.toNat ≤ 8 then d.payload.toList.getD (i.toNat - 1) 0 else 0 := by
  by_cases hi : i = 0
  · subst hi; rfl
  · have place : (s.prepared d gang).regs.getS i = (s.prepared d gang).regs.s[i.toNat]'i.isLt := if_neg hi
    rw [place]
    unfold prepared
    dsimp only
    rw [Vector.getElem_ofFn]
    simp only [Bool.and_eq_true, decide_eq_true_eq]

/-- A descriptor that may start does, and what remains of its range is the core's newest work. -/
theorem started_startIn (h : s.startable d = true) : Started s (s.startIn c n d) c n d d.lo := by
  have start : s.startIn c n d = (s.pushRest c d).setHart (.slot c n) ((s.pushRest c d).prepared d.firstIndex none) := by
    rw [startIn_eq, startable_pushRest, if_pos h]
  have here : (s.startIn c n d).hart (.slot c n) = (s.pushRest c d).prepared d.firstIndex none := by rw [start, hart_setHart]
  refine ⟨⟨{ desc := d.firstIndex, wdlimit := (s.partition d.part).wdlimit, gang := none }, ?_, ?_⟩, fun i => ?_, fun j hj => ?_⟩
  · rw [here]
    unfold prepared
    rw [partition_pushRest, Descriptor.firstIndex_eq]
  · rw [Descriptor.firstIndex_eq]
    exact ⟨rfl, rfl, rfl, rfl, rfl, rfl⟩
  · rw [here, getS_prepared]
    split
    · next hi =>
      rw [Descriptor.payload_firstIndex d hi]
      congr 1
      rw [eq_iff_iff, ← BitVec.toNat_inj]
      exact Iff.rfl
    · rfl
  · rw [start, hart_setHart_other _ _ hj, hart_pushRest]

theorem work_startIn (h : s.startable d = true) (j : Nat) (urgent : Bool) :
    ((s.startIn c n d).core j).work urgent = ((s.pushRest c d).core j).work urgent := by
  rw [startIn_eq, startable_pushRest, if_pos h, core_setHart]

/-- What remains of a range is pushed where it started. -/
theorem work_pushRest {urgent : Bool} (hu : d.kind = 1 → d.urgent = urgent) (hroom : d.kind = 1 → ((s.core c).work urgent).1.length < 64) :
    ((s.pushRest c d).core c).work urgent = (((s.core c).work urgent).1 ++
      (if d.kind = 1 ∧ d.lo + 1 < d.hi then [.desc { d with lo := d.lo + 1, origin := c }] else []), ((s.core c).work urgent).2) := by
  unfold pushRest
  by_cases hr : d.kind = 1 ∧ d.lo + 1 < d.hi
  · rw [if_pos (by simpa using hr), if_pos hr, hu hr.1, work_push, pushWork_of_room _ (hroom hr.1)]
  · rw [if_neg (by simpa using hr), if_neg hr, List.append_nil]

theorem core_pushRest_other (s : State) {c j : Nat} (d : Descriptor) (h : j ≠ c) : (s.pushRest c d).core j = s.core j := by
  unfold pushRest
  split
  · exact core_push_other s _ _ h
  · rfl

/-! ### Taking one's own work -/

theorem mayStart_of_free (hn : n < 4) (ht : (s.hart (.slot c n)).task = none) (hq : (s.core c).quarantined = false)
    (hr : n < 3 → s.reserved c = false) (ho : (s.cluster (c / 32)).owner ≠ 0)
    (hp : (s.partition (s.cluster (c / 32)).owner).preempt = .running) : s.mayStart c n = true := by
  have row : (n == 3 || !s.reserved c) = true := by
    by_cases h3 : n = 3
    · simp [h3]
    · simp [hr (by omega)]
  unfold mayStart
  dsimp only
  rw [row, ht, hq, hp, decide_eq_true hn, decide_eq_true ho]
  rfl

theorem takeWork_own {urgent : Bool} {l m : List Work} {w : Work} (hw : (s.core c).work urgent = (l ++ [w], m))
    (h : l ≠ [] ∨ m = []) : s.takeWork c urgent = some (w, s.setCore c ((s.core c).setWork urgent (l, m))) := by
  unfold takeWork
  rw [hw, popOwn_concat w h]

theorem takeWork_steal {urgent : Bool} (hw : (s.core c).work urgent = ([], [])) :
    s.takeWork c urgent = s.steal (s.cluster (c / 32)).owner c urgent := by
  unfold takeWork
  rw [hw, popOwn_nil]

theorem exec_taskStart_desc {t : State} (hm : s.mayStart c n = true) (h : s.takeWork c (n == 3) = some (.desc d, t)) :
    exec (.taskStart c n) s = .next (t.startIn c n d) ∧ exec (.taskReplay c n) s = .next s := by
  constructor
  · show execTaskStart c n s = _
    rw [execTaskStart, hm, h]; rfl
  · show execTaskReplay c n s = _
    rw [execTaskReplay, hm, h]; rfl

/-- A record as it comes to a slot: its commands are this slot's. -/
def readied (c n : Nat) (h : Hart) : Hart :=
  { h with queue := h.queue.map fun (x : Command) => { x with core := c, slot := n }, parked := none, fault := none }

theorem exec_taskReplay_record {t : State} {h : Hart} {origin : Nat} {fixed : Bool} {task : Task} (hm : s.mayStart c n = true)
    (htake : s.takeWork c (n == 3) = some (.replay h origin fixed, t)) (ht : h.task = some task) :
    exec (.taskReplay c n) s = .next (if t.startable task.desc then (t.setHart (.slot c n) (readied c n h)).enterViews (.slot c n)
      else if h.working s.now then s else t.endTrapped (.slot c n) (readied c n h) task { cls := .integrity } false) ∧
      exec (.taskStart c n) s = .next s := by
  constructor
  · have taken : exec (.taskReplay c n) s = match h.task with
        | none => .next t
        | some task =>
          if t.startable task.desc then .next ((t.setHart (.slot c n) (readied c n h)).enterViews (.slot c n))
          else .next (if (readied c n h).working s.now then s
            else t.endTrapped (.slot c n) (readied c n h) task { cls := .integrity } false) := by
      show execTaskReplay c n s = _
      rw [execTaskReplay, hm, htake]
      rfl
    rw [taken, ht]
    dsimp only
    split
    · rfl
    · rfl
  · show execTaskStart c n s = _
    rw [execTaskStart, hm, htake]; rfl

/-! ### A record's views -/

/-- Only a hart's view registers and the S regions of its core have changed. -/
def OnlyViews (c n : Nat) (s t : State) : Prop :=
  (∃ w, t.hart (.slot c n) = (s.hart (.slot c n)).modRegs fun r => { r with w }) ∧
    ∀ urgent, (t.core c).work urgent = (s.core c).work urgent

theorem OnlyViews.refl (s : State) : OnlyViews c n s s := ⟨⟨_, rfl⟩, fun _ => rfl⟩

theorem OnlyViews.trans {s t u : State} (h : OnlyViews c n s t) (g : OnlyViews c n t u) : OnlyViews c n s u := by
  obtain ⟨⟨w, hw⟩, hwork⟩ := h
  obtain ⟨⟨w', hw'⟩, hwork'⟩ := g
  exact ⟨⟨w', by rw [hw', hw]; rfl⟩, fun urgent => (hwork' urgent).trans (hwork urgent)⟩

theorem onlyViews_setCluster (s : State) (k : Nat) (x : Cluster) : OnlyViews c n s (s.setCluster k x) := ⟨⟨_, rfl⟩, fun _ => rfl⟩

theorem onlyViews_sregions (s : State) (l : List SRegion) :
    OnlyViews c n s (s.setCore c { s.core c with sregions := l }) :=
  ⟨⟨_, rfl⟩, fun urgent => by rw [core_setCore]; rfl⟩

theorem onlyViews_modViews (s : State) (f : Vector View 16 → Vector View 16) :
    OnlyViews c n s (s.modHart (.slot c n) (·.modRegs fun r => { r with w := f r.w })) :=
  ⟨⟨_, by rw [hart_modHart]; rfl⟩, fun _ => rfl⟩

theorem onlyViews_enterViews (s : State) (c n : Nat) : OnlyViews c n s (s.enterViews (.slot c n)) := by
  unfold enterViews
  generalize List.finRange 16 = l
  induction l generalizing s with
  | nil => exact .refl s
  | cons i t ih =>
    rw [List.foldl_cons]
    refine OnlyViews.trans ?_ (ih _)
    dsimp only
    split
    · exact .refl s
    · refine OnlyViews.trans ?_ (onlyViews_modViews _ fun w => w.set i.val _)
      split
      · split
        · exact onlyViews_setCluster ..
        · exact .refl s
      · refine OnlyViews.trans ?_ (onlyViews_sregions _ _)
        split
        · exact onlyViews_setCluster ..
        · exact .refl s

/-! ### What is discarded -/

/-- A discarded task that is not its launch's last is counted, and the launch goes on (R118). -/
theorem taskOver_discarded {x : Launch} {core slot : Nat} {first regionpc pc insn : Word} (hc : d.counter = 0)
    (hx : s.launch d.part d.launch = some x) (hmore : x.normal + x.trapped + x.discarded + 1 < x.born) :
    s.taskOver d .discarded core slot first true regionpc pc insn =
      s.setPartition d.part { s.partition d.part with
        launches := (s.partition d.part).launches.set d.launch { x with discarded := x.discarded + 1, integrity := true } } := by
  have unfinished : x.normal + x.trapped + (x.discarded + 1) ≠ x.born := by omega
  rw [taskOver, if_pos hc, countEnd, modLaunch, hx]
  dsimp only
  rw [completeLaunch, launch, partition_setPartition, Table.find_set_same]
  simp [unfinished]

/-! ### Stealing -/

theorem stealFrom_nothing {v : Nat} {urgent : Bool} (h : (s.core v).work urgent = ([], [])) : s.stealFrom c v urgent = none := by
  unfold stealFrom
  rw [h]
  rfl

theorem takeOldest_head {w : Work} {l : List Work} (h : s.inGlade w c = true) :
    s.takeOldest c (w :: l) = some ((s.splitWork w).1, (s.splitWork w).2.toList ++ l) := by
  simp [takeOldest, List.findIdx?_cons, h]

/-- Of a victim with nothing spilled the oldest is taken, where its glade has the thief. -/
theorem stealFrom_head {v : Nat} {urgent : Bool} {w : Work} {l : List Work} (hw : (s.core v).work urgent = (w :: l, []))
    (hg : s.inGlade w c = true) : s.stealFrom c v urgent =
      some ((s.splitWork w).1, s.setCore v ((s.core v).setWork urgent ((s.splitWork w).2.toList ++ l, []))) := by
  have spilled : s.takeOldest c [] = none := rfl
  unfold stealFrom
  rw [hw]
  dsimp only
  rw [spilled, takeOldest_head hg]
  simp [refill_of_settled]

/-- A live core of a cluster of the slice is on one of the levels. -/
theorem mem_victims {p v : Nat} (hv : v ≠ c) (hs : v / 32 ∈ (s.partition p).slice) (hq : (s.core v).quarantined = false) :
    ∃ e ∈ (s.victims p c).zipIdx, v ∈ e.1 := by
  have live : v ∈ ((s.partition p).slice.map fun k => (List.range 32).map (k * 32 + ·)).flatten.filter fun c' =>
      c' ≠ c && !(s.core c').quarantined := by
    simp only [List.mem_filter, List.mem_flatten, List.mem_map]
    exact ⟨⟨_, ⟨v / 32, hs, rfl⟩, List.mem_map.2 ⟨v % 32, by simp; omega, by omega⟩⟩, by simp [hv, hq]⟩
  have onLevel : ∃ l ∈ s.victims p c, v ∈ l := by
    unfold victims
    refine ⟨_, List.mem_map.2 ⟨if v / 8 = c / 8 then 0 else if v / 32 = c / 32 then 1 else if v / 832 = c / 832 then 2 else 3, ?_, rfl⟩,
      List.mem_filter.2 ⟨live, beq_self_eq_true _⟩⟩
    rw [List.mem_range]
    split_ifs <;> decide
  obtain ⟨l, hl, hvl⟩ := onLevel
  obtain ⟨i, hi, rfl⟩ := List.mem_iff_getElem.1 hl
  exact ⟨((s.victims p c)[i], i), List.mem_zipIdx_iff_getElem?.2 (by simp), hvl⟩

theorem mem_rotated {p v : Nat} {l : List Nat} (pointer : Option Nat) (h : v ∈ l) : v ∈ s.rotated p c l pointer := by
  have turned (i : Nat) : v ∈ l.drop i ++ l.take i := by
    rw [List.mem_append, or_comm, ← List.mem_append, List.take_append_drop]
    exact h
  exact turned _

end State

/-- Each member of a list stands before another of it, around the end. -/
theorem mem_zip_rotate {l : List Nat} {v : Nat} (h : v ∈ l) : ∃ u, (v, u) ∈ l.zip (l.drop 1 ++ l.take 1) := by
  obtain ⟨i, hi, rfl⟩ := List.mem_iff_getElem.1 h
  have long : i < (l.drop 1 ++ l.take 1).length := by simp; omega
  refine ⟨(l.drop 1 ++ l.take 1)[i], List.mem_iff_getElem.2 ⟨i, by rw [List.length_zip]; omega, List.getElem_zip⟩⟩

/-- The first result of a search all of whose results have a property, one of them there. -/
theorem exists_head?_filterMap {α β : Type} {l : List α} {f : α → Option β} {P : β → Prop}
    (all : ∀ x ∈ l, ∀ y, f x = some y → P y) (any : ∃ x ∈ l, (f x).isSome) : ∃ y, (l.filterMap f).head? = some y ∧ P y := by
  obtain ⟨x, hx, found⟩ := any
  obtain ⟨y, hy⟩ := Option.isSome_iff_exists.1 found
  cases h : l.filterMap f with
  | nil => exact absurd (List.mem_filterMap.2 ⟨x, hx, hy⟩) (by simp [h])
  | cons z t =>
    obtain ⟨x', hx', hz⟩ := List.mem_filterMap.1 (h ▸ List.mem_cons_self : z ∈ l.filterMap f)
    exact ⟨z, rfl, all x' hx' z hz⟩

namespace State

variable {s : State} {c n : Nat} {d : Descriptor}

/-- Where one core alone of the slice has work, it is the victim. -/
theorem steal_only {p v : Nat} {urgent : Bool} {w : Work} {t : State} (hv : v ≠ c) (hs : v / 32 ∈ (s.partition p).slice)
    (hq : (s.core v).quarantined = false) (others : ∀ j, j ≠ v → (s.core j).work urgent = ([], []))
    (hsteal : s.stealFrom c v urgent = some (w, t)) :
    ∃ pointers, s.steal p c urgent = some (w, t.setCore c { t.core c with pointers }) := by
  suffices first : ∃ r, s.steal p c urgent = some r ∧ ∃ pointers, r = (w, t.setCore c { t.core c with pointers }) by
    obtain ⟨r, found, pointers, rfl⟩ := first
    exact ⟨pointers, found⟩
  refine exists_head?_filterMap ?_ ?_
  · rintro ⟨level, victim, next⟩ - r hr
    by_cases h : victim = v
    · subst h
      rw [hsteal, Option.map_some] at hr
      exact ⟨_, (Option.some.inj hr).symm⟩
    · rw [stealFrom_nothing (others _ h)] at hr
      cases hr
  · obtain ⟨e, he, hve⟩ := mem_victims (c := c) hv hs hq
    obtain ⟨u, hu⟩ := mem_zip_rotate (mem_rotated (s := s) (p := p) (c := c) ((s.core c).pointers.toList.getD e.2 none) hve)
    refine ⟨(e.2, v, u), List.mem_flatten.2 ⟨_, List.mem_map.2 ⟨e, he, rfl⟩, List.mem_map.2 ⟨(v, u), hu, rfl⟩⟩, ?_⟩
    rw [hsteal]
    rfl

/-- The glade of a descriptor, counted from its origin, has a core (R106). -/
def Reaches (d : Descriptor) (c : Nat) : Prop :=
  match d.glade with
  | 1 => d.origin / 8 = c / 8
  | 2 => d.origin / 32 = c / 32
  | 3 => d.origin / 832 = c / 832
  | _ => True

theorem inGlade_desc (hc : c / 32 ∈ (s.partition d.part).slice) (ho : d.origin / 32 ∈ (s.partition d.part).slice)
    (hg : Reaches d c) : s.inGlade (.desc d) c = true := by
  have within : ((s.partition d.part).slice.contains (c / 32) && (s.partition d.part).slice.contains (d.origin / 32)) = true := by
    simp [hc, ho]
  unfold inGlade
  dsimp only
  rw [within, Bool.true_and]
  unfold Reaches at hg
  generalize d.glade = g at hg
  match g, hg with
  | 1, h => exact beq_iff_eq.2 h
  | 2, h => exact beq_iff_eq.2 h
  | 3, h => exact beq_iff_eq.2 h
  | 0, _ => rfl
  | _ + 4, _ => rfl

/-- What is taken of a range of two or more is its upper part. -/
theorem splitWork_range (hk : d.kind = 1) (hd : d.lo + 2 ≤ d.hi) : s.splitWork (.desc d) =
    (let mid := if (s.partition d.part).quota ≤ s.pending d.part then d.hi - 1 else d.lo + (d.hi - d.lo) / 2
     (.desc { d with lo := mid }, some (.desc { d with hi := mid }))) := by
  unfold splitWork
  exact if_pos (by simp [hk]; omega)

theorem splitWork_whole (h : ¬ (d.kind = 1 ∧ d.lo + 2 ≤ d.hi)) : s.splitWork (.desc d) = (.desc d, none) := by
  unfold splitWork
  exact if_neg (by simp only [Bool.and_eq_true, decide_eq_true_eq]; omega)

/-! ### The three sources of a slot's work -/

section

variable (hm : s.mayStart c n = true)

include hm

/-- A core's own newest work, a descriptor. -/
theorem start_own {o : Object} {l m : List Work} (hw : (s.core c).work (n == 3) = (l ++ [.desc d], m)) (hl : l ≠ [] ∨ m = [])
    (ho : (s.partition d.part).objects.find d.object = some o) (hr : o.revoked = false)
    (hd : d.kind ≠ 1 ∨ (d.lo < d.hi ∧ d.urgent = (n == 3) ∧ l.length < 64)) :
    ∃ t, exec (.taskStart c n) s = .next t ∧ Started s t c n d d.lo ∧
      ((t.core c).work (n == 3)).1 = l ++ (if d.kind = 1 ∧ d.lo + 1 < d.hi then [.desc { d with lo := d.lo + 1, origin := c }] else []) ∧
      exec (.taskReplay c n) s = .next s := by
  obtain ⟨start, replay⟩ := exec_taskStart_desc hm (takeWork_own hw hl)
  have able : (s.setCore c ((s.core c).setWork (n == 3) (l, m))).startable d = true := by
    rw [startable_of_find (by exact ho), hr]; rfl
  refine ⟨_, start, (started_startIn able).of_eq (fun _ => rfl) fun _ => rfl, ?_, replay⟩
  rw [work_startIn able, work_pushRest (fun hk => (hd.resolve_left (· hk)).2.1)]
  · rw [core_setCore, Core.work_setWork]
  · intro hk
    rw [core_setCore, Core.work_setWork]
    exact (hd.resolve_left (· hk)).2.2

/-- A descriptor of a revoked object is counted and starts nothing (R84). -/
theorem discard_own {o : Object} {x : Launch} {l m : List Work} (hw : (s.core c).work (n == 3) = (l ++ [.desc d], m))
    (hl : l ≠ [] ∨ m = []) (ho : (s.partition d.part).objects.find d.object = some o) (hr : o.revoked = true) (hk : d.kind ≠ 1)
    (hc : d.counter = 0) (hx : s.launch d.part d.launch = some x) (hmore : x.normal + x.trapped + x.discarded + 1 < x.born) :
    ∃ t, exec (.taskStart c n) s = .next t ∧ (∀ j, t.hart j = s.hart j) ∧ ((t.core c).work (n == 3)).1 = l ∧
      t.launch d.part d.launch = some { x with discarded := x.discarded + 1, integrity := true } := by
  obtain ⟨start, -⟩ := exec_taskStart_desc hm (takeWork_own hw hl)
  have unable : ¬ (s.setCore c ((s.core c).setWork (n == 3) (l, m))).startable d = true := by
    rw [startable_of_find (by exact ho), hr]; decide
  have no_rest : (s.setCore c ((s.core c).setWork (n == 3) (l, m))).pushRest c d = s.setCore c ((s.core c).setWork (n == 3) (l, m)) :=
    if_neg (by simp [hk])
  rw [startIn_eq, startable_pushRest, if_neg unable, no_rest, Descriptor.firstIndex_other hk,
    taskOver_discarded hc (by exact hx) hmore] at start
  refine ⟨_, start, fun j => rfl, ?_, ?_⟩
  · show (((s.setCore c _).core c).work (n == 3)).1 = l
    rw [core_setCore, Core.work_setWork]
  · rw [launch, partition_setPartition, Table.find_set_same]

/-- A core's own newest work, a record: it comes back with its registers. -/
theorem replay_own {h : Hart} {origin : Nat} {fixed : Bool} {task : Task} {o : Object} {l m : List Work}
    (hw : (s.core c).work (n == 3) = (l ++ [.replay h origin fixed], m)) (hl : l ≠ [] ∨ m = []) (ht : h.task = some task)
    (ho : (s.partition task.desc.part).objects.find task.desc.object = some o) (hr : o.revoked = false) :
    ∃ t w, exec (.taskReplay c n) s = .next t ∧ ((t.core c).work (n == 3)).1 = l ∧ exec (.taskStart c n) s = .next s ∧
      t.hart (.slot c n) = (readied c n h).modRegs fun r => { r with w } := by
  obtain ⟨replay, start⟩ := exec_taskReplay_record hm (takeWork_own hw hl) ht
  rw [if_pos (by rw [startable_of_find (by exact ho), hr]; rfl)] at replay
  obtain ⟨⟨w, entered⟩, work⟩ := onlyViews_enterViews
    ((s.setCore c ((s.core c).setWork (n == 3) (l, m))).setHart (.slot c n) (readied c n h)) c n
  refine ⟨_, w, replay, ?_, start, ?_⟩
  · rw [work, core_setHart, core_setCore, Core.work_setWork]
  · rw [entered, hart_setHart]

/-- A record of a revoked object starts nothing; while its matrix work goes on it waits. -/
theorem replay_revoked {h : Hart} {origin : Nat} {fixed : Bool} {task : Task} {o : Object} {l m : List Work}
    (hw : (s.core c).work (n == 3) = (l ++ [.replay h origin fixed], m)) (hl : l ≠ [] ∨ m = []) (ht : h.task = some task)
    (ho : (s.partition task.desc.part).objects.find task.desc.object = some o) (hr : o.revoked = true) :
    ∃ t, exec (.taskReplay c n) s = .next t ∧ t.harts = s.harts ∧ (h.working s.now = true → t = s) := by
  obtain ⟨replay, -⟩ := exec_taskReplay_record hm (takeWork_own hw hl) ht
  rw [if_neg (by rw [startable_of_find (by exact ho), hr]; decide)] at replay
  refine ⟨_, replay, ?_, fun working => if_pos working⟩
  split
  · rfl
  · exact harts_endTrapped_record ..

/-- Of the one core with work, what `splitWork` gives is started, and what it leaves stays there. -/
theorem start_stolen {v : Nat} {d' : Descriptor} {o : Object} {left : Option Work} {l : List Work}
    (hc : (s.core c).work (n == 3) = ([], [])) (hv : v ≠ c) (hvs : v / 32 ∈ (s.partition d.part).slice)
    (hcs : c / 32 ∈ (s.partition d.part).slice) (hos : d.origin / 32 ∈ (s.partition d.part).slice)
    (hq : (s.core v).quarantined = false) (hp : d.part = (s.cluster (c / 32)).owner)
    (hw : (s.core v).work (n == 3) = (.desc d :: l, [])) (others : ∀ j, j ≠ v → (s.core j).work (n == 3) = ([], []))
    (hg : Reaches d c) (hsplit : s.splitWork (.desc d) = (.desc d', left))
    (ho : (s.partition d'.part).objects.find d'.object = some o) (hr : o.revoked = false)
    (hu : d'.kind = 1 → d'.urgent = (n == 3)) :
    ∃ t, exec (.taskStart c n) s = .next t ∧ Started s t c n d' d'.lo ∧ ((t.core v).work (n == 3)).1 = left.toList ++ l ∧
      ((t.core c).work (n == 3)).1 = if d'.kind = 1 ∧ d'.lo + 1 < d'.hi then [.desc { d' with lo := d'.lo + 1, origin := c }] else [] := by
  have found := stealFrom_head hw (inGlade_desc hcs hos hg)
  rw [hsplit] at found
  obtain ⟨pointers, stolen⟩ := steal_only hv hvs hq others found
  rw [hp] at stolen
  rw [← takeWork_steal hc] at stolen
  set u := s.setCore v ((s.core v).setWork (n == 3) (left.toList ++ l, []))
  obtain ⟨start, -⟩ := exec_taskStart_desc hm stolen
  have able : (u.setCore c { u.core c with pointers }).startable d' = true := by
    rw [startable_of_find (by exact ho), hr]; rfl
  have mine : ((u.setCore c { u.core c with pointers }).core c).work (n == 3) = ([], []) := by
    rw [core_setCore]
    show (u.core c).work (n == 3) = _
    rw [core_setCore_other _ _ hv.symm, hc]
  refine ⟨_, start, (started_startIn able).of_eq (fun _ => rfl) fun _ => rfl, ?_, ?_⟩
  · rw [work_startIn able, core_pushRest_other _ _ hv, core_setCore_other _ _ hv, core_setCore, Core.work_setWork]
  · rw [work_startIn able, work_pushRest hu, mine]
    · rfl
    · rw [mine]
      exact fun _ => by decide

end

end State

/-- Settles O45: the own newest, a record, or what is stolen is the one work that the slot takes. -/
theorem slotsTakeTheNewestWork : Obligations.SlotsTakeTheNewestWork := by
  unfold Obligations.SlotsTakeTheNewestWork
  intro s c n hn _ ht hq hr ho hp
  have hm := State.mayStart_of_free hn ht hq hr ho hp
  dsimp only
  simp only [Core.work_eq]
  refine ⟨?own, ?record, ?other⟩
  case own =>
    intro d o rest hw hl hobj
    constructor
    · intro hrev hd
      obtain ⟨t, start, started, work, replay⟩ := State.start_own hm hw hl hobj hrev hd
      exact ⟨t, start, started, work, replay⟩
    · intro x hrev hk hctr hx hmore
      exact State.discard_own hm hw hl hobj hrev hk hctr hx hmore
  case record =>
    intro h origin fixed task o rest hw hl htask hobj
    constructor
    · intro hrev
      obtain ⟨t, w, replay, work, start, hart⟩ := State.replay_own hm hw hl htask hobj hrev
      refine ⟨t, replay, work, start, ?_⟩
      rw [hart]
      rfl
    · intro hrev
      obtain ⟨t, replay, harts, waits⟩ := State.replay_revoked hm hw hl htask hobj hrev
      refine ⟨t, replay, ?_, waits⟩
      rw [State.hart, harts]
      exact ht
  case other =>
    intro v d o rest hwc hv hvs hcs hos _ hqv hown hwv others hg hobj hrev hd
    constructor
    · intro hs
      obtain ⟨t, start, started, left, -⟩ := State.start_stolen hm hwc hv hvs hcs hos hqv hown hwv others hg
        (State.splitWork_whole hs) hobj hrev fun hk => (hd.resolve_left (· hk)).2
      exact ⟨t, start, started, left⟩
    · rintro ⟨hk, htwo⟩
      obtain ⟨t, start, started, left, mine⟩ := State.start_stolen hm hwc hv hvs hcs hos hqv hown hwv others hg
        (State.splitWork_range hk htwo) hobj hrev fun _ => (hd.resolve_left (· hk)).2
      refine ⟨t, start, started, left, ?_⟩
      simpa only [hk, true_and] using mine

end Sys2Proof.Machine
end

section
/-! PROOF. Milestone (03 R70, R77): admitting the output of one partition's Clearing can reach another partition, where the two share an
ASID. -/

namespace Sys2Proof.Machine

open Sys2Proof

set_option Elab.async false

/-- A Clearing of partition 1 whose output, an image of one `end`, is admitted. -/
def endClearing : Clearing := { part := 1, out := [0x39, 0], running := true }

/-- Two partitions with ASID 1: the first runs `endClearing` and has a page for its image, the second has armed a continuation whose
counter lies in the virtual page after that image, which is mapped without permissions (R63). -/
def sharedAsid : State :=
  { clearings := [(0, endClearing)]
    partitions := [(1, { slice := [0], asids := [1], framesLeft := [7, 8] }),
      (2, { asids := [1], joins := [{ counter := 0x10000, pa := 0x50000, desc := { asid := 1, part := 2 } }] })] }

theorem exec_msHalt (f : FmtMs) (s : State) : exec (.msHalt f) s = .next s.admitOutput := rfl

theorem admission_endClearing : admission sharedAsid.reducedService (endClearing.out.reverse.map (·.toNat)) = none := by decide +kernel

/-- The entry of the page after the image takes the counter of the other partition's continuation with it. -/
theorem joins_admitOutput_sharedAsid : (sharedAsid.admitOutput.partition 2).joins.map (·.pa) = [0] := by decide +kernel

/-- Refutes O52: the clause on an admitted `HALT` promises that every other partition stays as it is, whatever the ASIDs; but each entry
that installs the image anchors the continuations of its ASID anew (R115), those of `sharedAsid`'s second partition too. -/
theorem not_milestoneRunsInItsClearing : ¬ Obligations.MilestoneRunsInItsClearing := by
  unfold Obligations.MilestoneRunsInItsClearing
  intro h
  obtain ⟨-, -, -, -, -, -, -, -, -, -, -, -, -, -, -, -, -, -, -, -, -, -, -, -, -, -, halt⟩ :=
    h { d := 0, a := 0, b := 0, imm := 0 } sharedAsid endClearing rfl
  obtain ⟨t, -, run, -, -, others, -⟩ := halt admission_endClearing rfl
  rw [exec_msHalt] at run
  obtain rfl : sharedAsid.admitOutput = t := Host.Outcome.next.inj run
  have moved := joins_admitOutput_sharedAsid
  rw [others 2 (by decide)] at moved
  exact absurd moved (by decide)

end Sys2Proof.Machine
end

section
/-! PROOF. Mapping pages for a partition (03 R63; 09 R335): what the bytes of a page are afterwards, where the entry stands, and what
installing an image leaves as it is. -/

namespace Sys2Proof.Machine

open Sys2Proof

set_option Elab.async false

/-! ### Tables -/

namespace Table

variable {κ α : Type} [DecidableEq κ]

theorem find_update (t : Table κ α) (f : κ → α → α) (k : κ) : (t.update f).find k = (t.find k).map (f k) := by
  induction t with
  | nil => rfl
  | cons e t ih =>
    by_cases h : e.1 = k
    · subst h; simp [update, find]
    · simpa [update, find, h] using ih

/-- A change that leaves the default alone changes the value for every key. -/
theorem get_update (t : Table κ α) {f : κ → α → α} {k : κ} {d : α} (h : f k d = d) : (t.update f).get k d = f k (t.get k d) := by
  rw [get, get, find_update]
  cases t.find k with
  | none => exact h.symm
  | some => rfl

@[simp] theorem find_erase_same (t : Table κ α) (k : κ) : (t.erase k).find k = none := by
  induction t with
  | nil => rfl
  | cons e t ih =>
    by_cases h : e.1 = k
    · simpa [erase, h] using ih
    · simpa [erase, find, h] using ih

theorem find_erase_other (t : Table κ α) {k j : κ} (h : j ≠ k) : (t.erase k).find j = t.find j := by
  induction t with
  | nil => rfl
  | cons e t ih =>
    by_cases g : e.1 = k
    · simpa [erase, find, g, h.symm] using ih
    · simp only [erase, List.filter_cons, g, ne_eq, not_false_eq_true, decide_true, if_true, find]
      rw [← ih]; rfl

theorem mem_of_find {t : Table κ α} {k : κ} {x : α} (h : t.find k = some x) : (k, x) ∈ t := by
  induction t with
  | nil => exact nomatch h
  | cons e t ih =>
    by_cases g : e.1 = k
    · simp only [find, g, if_true, Option.some.injEq] at h
      exact List.mem_cons.2 (.inl (by rw [← g, ← h]))
    · exact List.mem_cons_of_mem _ (ih (by simpa [find, g] using h))

end Table

/-! ### The bytes of a page -/

theorem cellsGet_filter (p : Nat → Bool) (l : List (Nat × Byte)) (b : Nat) :
    cellsGet (l.filter fun e => p e.1) b = if p b then cellsGet l b else 0 := by
  induction l with
  | nil => simp [cellsGet]
  | cons e t ih =>
    by_cases hb : b = e.1
    · subst hb
      by_cases hp : p e.1
      · simp [cellsGet, hp]
      · simpa [hp] using ih
    · by_cases hp : p e.1 <;> simpa [cellsGet, hp, hb] using ih

namespace Mem

variable {m : Mem}

theorem byte_wipe (m : Mem) (a n b : Nat) : (m.wipe a n).byte b = if a ≤ b ∧ b < a + n then 0 else m.byte b := by
  have outside := cellsGet_filter (fun c => c < a || a + n ≤ c) m.cells b
  refine outside.trans ?_
  by_cases h : a ≤ b ∧ b < a + n
  · rw [if_pos h, if_neg (by simp; omega)]
  · rw [if_neg h, if_pos (by simp; omega)]; rfl

theorem byte_storeBytes (a : Nat) (l : List Byte) (b : Nat) (h : m.wf = true) :
    (m.storeBytes a l).byte b = if a ≤ b ∧ b < a + l.length then l.getD (b - a) 0 else m.byte b := by
  show ((bytesAt a l).foldl (fun m e => m.setByte e.1 e.2) m).byte b = _
  induction l generalizing m a with
  | nil => simp [bytesAt]
  | cons x t ih =>
    rw [bytesAt, List.foldl_cons, ih (a + 1) (wf_setByte a x h), byte_setByte a b x h, List.length_cons]
    by_cases hb : b = a
    · subst hb; simp
    · by_cases hl : a + 1 ≤ b ∧ b < a + 1 + t.length
      · obtain ⟨i, rfl⟩ : ∃ i, b = a + 1 + i := ⟨b - (a + 1), by omega⟩
        rw [if_pos hl, if_pos (by omega), show a + 1 + i - (a + 1) = i by omega, show a + 1 + i - a = i + 1 by omega]
        rfl
      · rw [if_neg hl, if_neg hb, if_neg (by omega)]

/-- The bytes of a filled page, and zeros behind them. -/
theorem byte_fillPage (f : Nat) {b : List Byte} {j : Nat} (h : m.wf = true) (hj : j < 65536) :
    (m.fillPage f b).byte (f * 65536 + j) = b.getD j 0 := by
  rw [fillPage, byte_storeBytes _ _ _ (wf_wipe _ _ h), byte_wipe, Nat.add_sub_cancel_left]
  by_cases hb : j < b.length
  · rw [if_pos (by omega)]
  · rw [if_neg (by omega), if_pos (by omega), List.getD_eq_default _ _ (by omega)]

theorem byte_fillPage_other {f : Nat} {b : List Byte} {a : Nat} (h : m.wf = true) (hb : b.length ≤ 65536)
    (ha : a < f * 65536 ∨ f * 65536 + 65536 ≤ a) : (m.fillPage f b).byte a = m.byte a := by
  rw [fillPage, byte_storeBytes _ _ _ (wf_wipe _ _ h), byte_wipe, if_neg (by omega), if_neg (by omega)]

end Mem

/-! ### What mapping leaves as it is -/

/-- Mapping pages answers nobody, runs no translation, and of a partition moves the counters of continuations alone. -/
structure Mapped (s t : State) : Prop where
  answers : t.answers = s.answers
  clearings : t.clearings = s.clearings
  partition : ∀ p, ∃ joins, t.partition p = { s.partition p with joins }

namespace Mapped

variable {s t u : State}

theorem refl (s : State) : Mapped s s := ⟨rfl, rfl, fun p => ⟨(s.partition p).joins, rfl⟩⟩

theorem trans (h : Mapped s t) (g : Mapped t u) : Mapped s u := by
  refine ⟨g.answers.trans h.answers, g.clearings.trans h.clearings, fun p => ?_⟩
  obtain ⟨x, hx⟩ := h.partition p
  obtain ⟨y, hy⟩ := g.partition p
  exact ⟨y, by rw [hy, hx]⟩

theorem foldl {α : Type} {f : State → α → State} (h : ∀ s x, Mapped s (f s x)) (l : List α) (s : State) : Mapped s (l.foldl f s) :=
  List.foldlRecOn (motive := Mapped s) l f (refl s) fun t ht x _ => ht.trans (h t x)

theorem ite {c : Prop} [Decidable c] (ht : Mapped s t) (hu : Mapped s u) : Mapped s (if c then t else u) := by split <;> assumption

end Mapped

namespace State

theorem mapped_installDie (s : State) (d : Nat) (e : TlbEntry) : Mapped s (s.installDie d e) := by
  refine ⟨rfl, rfl, fun p => ⟨((s.anchorJoins e).partition p).joins, ?_⟩⟩
  show (s.anchorJoins e).partition p = _
  unfold anchorJoins partition
  rw [Table.get_update _ rfl]

theorem mapped_mapPage (s : State) (p : Nat) (e : TlbEntry) : Mapped s (s.mapPage p e) :=
  Mapped.foldl (fun s d => mapped_installDie s d e) _ s

theorem mapped_freshFrame (s : State) (mem : Mem) (slot f : Nat) : Mapped s ({ s with mem }.freshFrame slot f) :=
  ⟨rfl, rfl, fun p => ⟨(s.partition p).joins, rfl⟩⟩

theorem mapped_mapRange (s : State) (p va : Nat) (frames : List Nat) (b : List Byte) (r w x : Bool) :
    Mapped s (s.mapRange p va frames b r w x) := by
  exact Mapped.foldl (fun s (f : Nat × Nat) => (mapped_freshFrame s _ _ f.1).trans (mapped_mapPage _ p _)) _ s

theorem mem_mapPage (s : State) (p : Nat) (e : TlbEntry) : (s.mapPage p e).mem = s.mem :=
  List.foldlRecOn (motive := fun t : State => t.mem = s.mem) _ _ rfl fun _ ht _ _ => ht

/-! ### Where an entry stands -/

theorem mem_insertEntry {cap : Nat} (hcap : 0 < cap) (l : List TlbEntry) (e : TlbEntry) : e ∈ (insertEntry cap l e).1 := by
  unfold insertEntry
  dsimp only
  rw [List.drop_append_of_le_length (by simp; omega)]
  simp

theorem mem_tlb_installDie (s : State) (d : Nat) (e : TlbEntry) : e ∈ ((s.installDie d e).die d).tlb := by
  unfold installDie
  rw [die_setDie]
  dsimp only
  exact mem_insertEntry (by decide) _ _

theorem die_installDie_other (s : State) {d j : Nat} (e : TlbEntry) (h : j ≠ d) : (s.installDie d e).die j = s.die j := by
  unfold installDie setDie die
  exact Table.get_set_other _ _ _ h

/-- The entry of a mapped page stands in the last-level TLB of every die of the partition's slice (R63). -/
theorem mem_tlb_mapPage {s : State} {p k : Nat} (e : TlbEntry) (h : k ∈ (s.partition p).slice) :
    e ∈ ((s.mapPage p e).die (k / 26)).tlb := by
  have installed (l : List Nat) (s : State) (d : Nat) (hd : d ∈ l ∨ e ∈ (s.die d).tlb) :
      e ∈ ((l.foldl (fun s d => s.installDie d e) s).die d).tlb := by
    induction l generalizing s with
    | nil => exact hd.resolve_left (by simp)
    | cons j l ih =>
      refine ih _ ?_
      by_cases hj : d = j
      · exact .inr (hj ▸ mem_tlb_installDie s d e)
      · rw [die_installDie_other s e hj]
        exact hd.imp_left fun hd => (List.mem_cons.1 hd).resolve_left hj
  refine installed _ s _ (.inl (List.mem_eraseDups.2 (List.mem_map.2 ⟨k, h, rfl⟩)))

end State

/-! ### Installing an image -/

/-- The pages that an image and the data sections beside it take. -/
def Image.need (g : Image) (file : List Byte) : Nat := g.pages + (((sectionsOf file).filter (·.ty == 4)).map Section.pages).sum

/-- The image's number in a status record (R60). -/
def Image.number (g : Image) : Nat := match g.native with | some x => x.index | none => 0xFFFF

/-- The object that an image becomes in a partition (R63). -/
def Image.object (g : Image) (q : Partition) (file : List Byte) (base : Word) : Object :=
  { handle := BitVec.ofNat 64 q.nextObject, asid := q.asids.headD 0, base := base + BitVec.ofNat 64 g.place, words := g.words.length,
    entries := exportsOf g.words, frames := q.framesLeft.take (g.need file), admitted := g.words, native := g.native.isSome,
    image := (match g.native with | some x => x.bytes file | none => []),
    digests := (match g.native with | some x => (pageDigests file x).2 | none => []) }

/-- A partition with the object of an image, whose pages have been drawn. -/
def Partition.withImage (q : Partition) (file : List Byte) (base : Word) (g : Image) : Partition :=
  { q with framesLeft := q.framesLeft.drop (g.need file), nextObject := q.nextObject + 1,
           objects := q.objects.set (BitVec.ofNat 64 q.nextObject) (g.object q file base) }

namespace State

variable {s : State} {p : Nat} {file : List Byte} {base : Word} {g : Image} {units route : Nat}

theorem install_of_short (h : drawable (s.partition p) < g.need file) : s.install p file base g units route =
    (s.answerWith (statusRecord units 0 6 g.number (g.need file - drawable (s.partition p))), g.need file - drawable (s.partition p)) :=
  if_pos h

/-- With pages enough, the object enters the partition, its pages are mapped, and the load is answered. -/
theorem install_of_room (h : g.need file ≤ drawable (s.partition p)) :
    ∃ u, Mapped (s.setPartition p ((s.partition p).withImage file base g)) u ∧
      s.install p file base g units route = (u.answerWith (statusRecord units route 0 g.number g.words.length), 0) := by
  unfold install
  extract_lets q datas need image frames va digests o s₁ s₂ t after mapped free s₃
  have image_mapped : Mapped s₁ s₂ := Mapped.ite (Mapped.refl s₁) (mapped_mapRange ..)
  have datas_mapped : Mapped s₁ t.1 := by
    refine List.foldlRecOn (motive := fun r : State × List Nat => Mapped s₁ r.1) datas _ image_mapped fun r hr x _ => ?_
    exact hr.trans (mapped_mapRange ..)
  exact ⟨s₃, Mapped.ite (datas_mapped.trans (mapped_mapPage ..)) datas_mapped, if_neg (Nat.not_lt.2 h)⟩

end State

end Sys2Proof.Machine
end

section
/-! PROOF. Unbinding an object's mailboxes, revoking it and unloading it (03 R83 to R85; 05 R99, R100): the messages that go out on the
way reach no mailbox that has been unbound, and no object. -/

namespace Sys2Proof.Machine

open Sys2Proof

set_option Elab.async false

/-! ### What messages leave as it is -/

/-- A mailbox with its generation alone (R99). -/
def Mailbox.cleared (m : Mailbox) : Mailbox := { gen := m.gen }

/-- The mailbox of an index. -/
def Partition.mailbox (q : Partition) (i : Nat) : Mailbox := q.mailboxes.get i {}

/-- A partition with the objects, the pages and the mailbox generations of another; what is cleared there is cleared here. -/
structure Partition.Kept (q r : Partition) : Prop where
  objects : r.objects = q.objects
  framesLeft : r.framesLeft = q.framesLeft
  gen : ∀ i, (r.mailbox i).gen = (q.mailbox i).gen
  cleared : ∀ i, q.mailbox i = (q.mailbox i).cleared → r.mailbox i = (q.mailbox i).cleared

namespace Partition.Kept

variable {q r u : Partition}

theorem of_eq (objects : r.objects = q.objects) (framesLeft : r.framesLeft = q.framesLeft) (mailboxes : r.mailboxes = q.mailboxes) :
    q.Kept r := by
  have same (i : Nat) : r.mailbox i = q.mailbox i := by rw [mailbox, mailbox, mailboxes]
  exact ⟨objects, framesLeft, fun i => by rw [same], fun i h => by rw [same, ← h]⟩

theorem refl (q : Partition) : q.Kept q := of_eq rfl rfl rfl

theorem trans (h : q.Kept r) (g : r.Kept u) : q.Kept u := by
  refine ⟨g.objects.trans h.objects, g.framesLeft.trans h.framesLeft, fun i => (g.gen i).trans (h.gen i), fun i hi => ?_⟩
  have hr := h.cleared i hi
  rw [g.cleared i (by rw [hr]; rfl), hr]; rfl

/-- One mailbox changes, to one of its generation; a cleared one to a cleared one. -/
theorem of_set {i : Nat} {m : Mailbox} (objects : r.objects = q.objects) (framesLeft : r.framesLeft = q.framesLeft)
    (mailboxes : r.mailboxes = q.mailboxes.set i m) (gen : m.gen = (q.mailbox i).gen)
    (cleared : q.mailbox i = (q.mailbox i).cleared → m = (q.mailbox i).cleared) : q.Kept r := by
  have same : r.mailbox i = m := by rw [mailbox, mailboxes, Table.get_set_same]
  have other {j : Nat} (h : j ≠ i) : r.mailbox j = q.mailbox j := by rw [mailbox, mailboxes, Table.get_set_other _ _ _ h, mailbox]
  refine ⟨objects, framesLeft, fun j => ?_, fun j hj => ?_⟩
  all_goals by_cases h : j = i
  · rw [h, same, gen]
  · rw [other h]
  · subst h; rw [same, cleared hj]
  · rw [other h, ← hj]

end Partition.Kept

/-- A bound mailbox is not a cleared one. -/
theorem Mailbox.not_cleared {m : Mailbox} (h : m.state ≠ .unbound) : m ≠ m.cleared := fun e => h (congrArg Mailbox.state e)

/-- Messages change no memory and no cluster, and keep what `Partition.Kept` says of every partition. -/
structure Posted (s t : State) : Prop where
  mem : t.mem = s.mem
  clusters : t.clusters = s.clusters
  partition : ∀ p, (s.partition p).Kept (t.partition p)

namespace Posted

variable {s t u : State}

theorem refl (s : State) : Posted s s := ⟨rfl, rfl, fun _ => .refl _⟩

theorem trans (h : Posted s t) (g : Posted t u) : Posted s u :=
  ⟨g.mem.trans h.mem, g.clusters.trans h.clusters, fun p => (h.partition p).trans (g.partition p)⟩

theorem ite {c : Prop} [Decidable c] (ht : Posted s t) (hu : Posted s u) : Posted s (if c then t else u) := by split <;> assumption

theorem fst_ite {α : Type} {c : Prop} [Decidable c] {x y : State × α} (hx : Posted s x.1) (hy : Posted s y.1) :
    Posted s (if c then x else y).1 := by split <;> assumption

theorem setPartition {p : Nat} {q : Partition} (h : (s.partition p).Kept q) : Posted s (s.setPartition p q) := by
  refine ⟨rfl, rfl, fun j => ?_⟩
  by_cases hj : j = p
  · rw [hj, State.partition_setPartition]; exact h
  · rw [State.partition_setPartition_other _ _ hj]; exact .refl _

end Posted

namespace State

variable {s : State} {p i : Nat}

theorem posted_drop (s : State) (p : Nat) : Posted s (s.drop p) := .setPartition (.of_eq rfl rfl rfl)

theorem posted_modLaunch (s : State) (p l : Nat) (f : Launch → Launch) : Posted s (s.modLaunch p l f) := by
  unfold modLaunch
  split
  · exact .setPartition (.of_eq rfl rfl rfl)
  · exact .refl s

theorem posted_push (s : State) (c : Nat) (urgent : Bool) (w : Work) : Posted s (s.push c urgent w) :=
  .ite ⟨rfl, rfl, fun _ => .refl _⟩ ⟨rfl, rfl, fun _ => .refl _⟩

/-- A bound mailbox changes within its generation. -/
theorem posted_setMailbox {m : Mailbox} (bound : (s.mailbox p i).state ≠ .unbound) (gen : m.gen = (s.mailbox p i).gen) :
    Posted s (s.setMailbox p i m) :=
  .setPartition (.of_set rfl rfl rfl gen fun h => absurd h (Mailbox.not_cleared bound))

theorem posted_trigger {b : List Byte} (bound : (s.mailbox p i).state ≠ .unbound) :
    Posted s (s.trigger p i (s.mailbox p i) b) := by
  refine .trans (.setPartition ?_) (posted_push ..)
  exact .of_set rfl rfl rfl rfl fun h => absurd h (Mailbox.not_cleared bound)

theorem posted_validate (n : Nat) (s : State) : Posted s (validate p i n s) := by
  induction n generalizing s with
  | zero => exact .refl s
  | succ n ih =>
    unfold validate
    extract_lets m s₁
    split
    · exact .refl s
    next armed =>
      have bound : (s.mailbox p i).state ≠ .unbound := fun h => armed (by rw [h]; rfl)
      have held : Posted s s₁ := posted_setMailbox bound rfl
      refine .ite (.ite ?_ ?_) (.ite (.ite ?_ ?_) (.refl s))
      · exact held.trans (.setPartition (.of_eq rfl rfl rfl))
      · exact (posted_trigger bound).trans (ih _)
      · exact posted_setMailbox bound rfl
      · exact posted_setMailbox bound rfl

theorem posted_deliver (s : State) (p : Nat) (handle : Word) (body : List Byte) : Posted s (s.deliver p handle body).1 := by
  unfold deliver
  extract_lets h node i m n slot m₁
  refine .fst_ite (.refl s) (.fst_ite ⟨rfl, rfl, fun _ => .refl _⟩ ?_)
  split
  · exact .refl s
  next known =>
    have bound : (s.mailbox p i).state ≠ .unbound := fun h => known (by simp [m, h])
    have filled : Posted s (s.setMailbox p i m₁) := posted_setMailbox bound rfl
    exact .fst_ite (.refl s) (.fst_ite (.refl s) (.fst_ite (.refl s) (filled.trans (posted_validate 256 _))))

theorem posted_deliverOrDrop (s : State) (p : Nat) (handle : Word) (body : List Byte) : Posted s (s.deliverOrDrop p handle body) := by
  have delivered := posted_deliver s p handle body
  unfold deliverOrDrop
  split
  · exact .refl s
  · split
    next h => rw [h] at delivered; exact delivered
    next h => rw [h] at delivered; exact delivered
    next h => rw [h] at delivered; exact delivered.trans (posted_drop ..)

theorem posted_sendFault (s : State) (p i : Nat) : Posted s (s.sendFault p i) := by
  unfold sendFault
  extract_lets m
  split
  · exact .refl s
  next faulted =>
    have bound : (s.mailbox p i).state ≠ .unbound := fun h => faulted (by simp [m, h])
    have paid : Posted s (s.setMailbox p i { m with owes := false }) := posted_setMailbox bound rfl
    exact paid.trans (posted_deliverOrDrop ..)

theorem posted_launchGone (s : State) (p l : Nat) : Posted s (s.launchGone p l) := .setPartition (.of_eq rfl rfl rfl)

theorem posted_launchAnswered (s : State) (p l answer : Nat) : Posted s (s.launchAnswered p l answer) := by
  unfold launchAnswered
  split
  · exact posted_launchGone ..
  · exact posted_modLaunch ..
  · exact posted_modLaunch ..
  · exact (posted_launchGone ..).trans (posted_drop ..)

theorem posted_completeLaunch (s : State) (p l : Nat) : Posted s (s.completeLaunch p l) := by
  unfold completeLaunch
  split
  · exact .refl s
  · exact .ite (.refl s) (.ite (posted_launchGone ..) ((posted_deliver ..).trans (posted_launchAnswered ..)))

theorem posted_taskOver (s : State) (d : Descriptor) (kind : EndKind) (core slot : Nat) (first : Word) (integrity : Bool)
    (regionpc pc insn : Word) : Posted s (s.taskOver d kind core slot first integrity regionpc pc insn) :=
  .ite ((posted_modLaunch ..).trans (posted_completeLaunch ..)) (.setPartition (.of_eq rfl rfl rfl))

theorem posted_leaveGang (s : State) (t : Task) : Posted s (s.leaveGang t) := by
  unfold leaveGang
  split
  · exact .refl s
  · split
    · exact .refl s
    · exact .ite ⟨rfl, rfl, fun _ => .refl _⟩ ⟨rfl, rfl, fun _ => .refl _⟩

/-! ### What a task's end leaves as it is -/

theorem partitions_foldl {α : Type} {f : State → α → State} (h : ∀ s x, (f s x).partitions = s.partitions) (l : List α)
    (s : State) : (l.foldl f s).partitions = s.partitions :=
  List.foldlRecOn (motive := fun t : State => t.partitions = s.partitions) l f rfl fun t ht x _ => (h t x).trans ht

theorem partitions_meetErrors (s : State) (pa n : Nat) : (s.meetErrors pa n).partitions = s.partitions := by
  unfold meetErrors
  split
  · rfl
  refine partitions_foldl (fun s u => ?_) _ s
  dsimp only
  split
  · split <;> rfl
  · split <;> rfl
  · rfl

theorem partitions_meetStore (s : State) (bytes : List (Nat × Byte)) (half : List (Nat × Bool × Nat)) :
    (s.meetStore bytes half).partitions = s.partitions := by
  unfold meetStore
  split
  · rfl
  · exact partitions_foldl (fun s a => partitions_meetErrors s a 1) _ _

theorem partitions_rekey (s : State) (slot pa n : Nat) : (s.rekey slot pa n).partitions = s.partitions := by
  refine partitions_foldl (fun s line => ?_) _ s
  unfold rekeyLine
  split
  · rfl
  · split <;> rfl

theorem partitions_perform (s : State) (st : Store) : (s.perform st).partitions = s.partitions := by
  unfold perform
  split
  · rfl
  · refine (partitions_foldl (fun s a => ?_) _ _).trans
      ((partitions_meetStore ..).trans (partitions_foldl (f := fun s a => s.touchDie a 1) (fun _ _ => rfl) _ s))
    split
    · exact partitions_rekey ..
    · rfl

theorem partitions_leaveStores (s : State) (l : List Store) : (s.leaveStores l).partitions = s.partitions := by
  refine (partitions_foldl partitions_perform _ _).trans ?_
  split
  · exact partitions_meetErrors ..
  · rfl

/-- A record that ends by a trap: its stores reach no partition's own state, and the rest is messages. -/
theorem kept_endTrapped_record (s : State) (id : HartId) (h : Hart) (task : Task) (t : Trap) (p : Nat) :
    (s.partition p).Kept ((s.endTrapped id h task t false).partition p) := by
  unfold endTrapped
  refine .trans (r := (s.leaveStores h.olderStores).partition p) ?_ (Posted.partition ?_ p)
  · rw [show (s.leaveStores h.olderStores).partition p = s.partition p from congrArg (·.get p {}) (partitions_leaveStores ..)]
    exact .refl _
  · exact (posted_modLaunch ..).trans ((posted_leaveGang ..).trans ((posted_deliverOrDrop ..).trans (posted_taskOver ..)))

/-! ### Unbinding -/

theorem mailbox_unbindMailbox (s : State) (p i : Nat) : (s.unbindMailbox p i).mailbox p i = (s.mailbox p i).cleared := by
  unfold unbindMailbox
  extract_lets s₁ m s₂
  have sent : m.gen = (s.mailbox p i).gen := ((posted_sendFault s p i).partition p).gen i
  have here : s₂.mailbox p i = { gen := m.gen } := by
    unfold s₂ setMailbox mailbox
    rw [partition_setPartition, Table.get_set_same]
  rw [mailbox, partition_setPartition]
  exact here.trans (congrArg (fun g => ({ gen := g } : Mailbox)) sent)

theorem posted_unbindMailbox (s : State) (p i : Nat) : Posted s (s.unbindMailbox p i) := by
  refine (posted_sendFault s p i).trans (.trans (.setPartition ?_) (.setPartition (.of_eq rfl rfl rfl)))
  exact .of_set rfl rfl rfl rfl fun _ => rfl

/-- The mailboxes that are bound to an object. -/
def boundTo (q : Partition) (obj : Word) : List Nat := (q.mailboxes.filter fun e => e.2.state != .unbound && e.2.object == obj).map (·.1)

/-- The state in which an object's mailboxes have been unbound. -/
def unbindAll (s : State) (p : Nat) (obj : Word) : State := (boundTo (s.partition p) obj).foldl (fun s i => s.unbindMailbox p i) s

theorem posted_unbindAll (s : State) (p : Nat) (obj : Word) : Posted s (s.unbindAll p obj) :=
  List.foldlRecOn (motive := Posted s) _ _ (.refl s) fun t ht i _ => ht.trans (posted_unbindMailbox t p i)

/-- What is unbound on the way stays so while the others are. -/
theorem mailbox_foldl_unbindMailbox (l : List Nat) (s : State) (hi : i ∈ l ∨ s.mailbox p i = (s.mailbox p i).cleared) :
    (l.foldl (fun s i => s.unbindMailbox p i) s).mailbox p i = (s.mailbox p i).cleared := by
  induction l generalizing s with
  | nil => exact hi.resolve_left (by simp)
  | cons j l ih =>
    have kept := (posted_unbindMailbox s p j).partition p
    have gen : ((s.unbindMailbox p j).mailbox p i).cleared = (s.mailbox p i).cleared :=
      congrArg (fun g => ({ gen := g } : Mailbox)) (kept.gen i)
    rw [List.foldl_cons, ih, gen]
    by_cases hj : i = j
    · rw [hj, mailbox_unbindMailbox]; exact .inr rfl
    · rcases hi with hi | hi
      · exact .inl ((List.mem_cons.1 hi).resolve_left hj)
      · exact .inr ((kept.cleared i hi).trans gen.symm)

/-- A mailbox that was bound to the object is cleared. -/
theorem mailbox_unbindAll {obj : Word} {m : Mailbox} (h : (s.partition p).mailboxes.find i = some m) (bound : m.state ≠ .unbound)
    (mine : m.object = obj) : (s.unbindAll p obj).mailbox p i = m.cleared := by
  have here : s.mailbox p i = m := by rw [mailbox, Table.get, h]; rfl
  rw [← here]
  refine mailbox_foldl_unbindMailbox _ s (.inl (List.mem_map.2 ⟨(i, m), List.mem_filter.2 ⟨Table.mem_of_find h, ?_⟩, rfl⟩))
  simp [bound, mine]

/-! ### Revoking -/

/-- The state in which an object is marked revoked and its mailboxes are unbound. -/
def markRevoked (s : State) (p : Nat) (obj : Word) (o : Object) : State :=
  (s.setPartition p { s.partition p with objects := (s.partition p).objects.set obj { o with revoked := true } }).unbindAll p obj

variable {obj : Word} {o : Object}

theorem find_markRevoked (s : State) (p : Nat) (obj : Word) (o : Object) :
    ((s.markRevoked p obj o).partition p).objects.find obj = some { o with revoked := true } := by
  unfold markRevoked
  rw [((posted_unbindAll _ p obj).partition p).objects, partition_setPartition, Table.find_set_same]

theorem mailbox_markRevoked {m : Mailbox} (h : (s.partition p).mailboxes.find i = some m) (bound : m.state ≠ .unbound)
    (mine : m.object = obj) : (s.markRevoked p obj o).mailbox p i = m.cleared :=
  mailbox_unbindAll (by rw [partition_setPartition]; exact h) bound mine

/-- The records of an object's tasks in the miss queues. -/
def recordsOf (s : State) (p : Nat) (obj : Word) : List (Hart × HartId) :=
  (s.clusters.map fun e => (e.2.misses.map fun m => m.records.filter fun r => r.1.ofObject p obj).flatten).flatten

theorem recordsOf_eq_nil (h : ∀ e ∈ s.clusters, ∀ x ∈ e.2.misses, x.records = []) : s.recordsOf p obj = [] := by
  simp only [recordsOf, List.flatten_eq_nil_iff, List.mem_map]
  rintro l ⟨e, he, rfl⟩
  simp only [List.flatten_eq_nil_iff, List.mem_map]
  rintro l ⟨x, hx, rfl⟩
  rw [h e he x hx]; rfl

/-- The records of an object that wait in the miss queues end by their trap, and nothing else follows the marking. -/
theorem kept_revoke (h : (s.partition p).objects.find obj = some o) (live : o.revoked = false) :
    (∀ j, ((s.markRevoked p obj o).partition j).Kept ((s.revoke p obj).partition j)) ∧
      ((∀ e ∈ s.clusters, ∀ x ∈ e.2.misses, x.records = []) → (s.revoke p obj).mem = s.mem) := by
  have marked : Posted (s.setPartition p _) (s.markRevoked p obj o) := posted_unbindAll _ p obj
  unfold revoke
  rw [h]
  dsimp only
  rw [if_neg (by rw [live]; decide)]
  constructor
  · intro j
    refine List.foldlRecOn (motive := fun t : State => ((s.markRevoked p obj o).partition j).Kept (t.partition j)) _ _ (.refl _) ?_
    intro t ht r _
    split
    · exact ht.trans (kept_endTrapped_record ..)
    · exact ht
  · intro none_waits
    have none_ended : (s.markRevoked p obj o).recordsOf p obj = [] := recordsOf_eq_nil fun e he => none_waits e (marked.clusters ▸ he)
    show State.mem (((s.markRevoked p obj o).recordsOf p obj).foldl _ _) = s.mem
    rw [none_ended]
    exact marked.mem

end State

end Sys2Proof.Machine
end

section
/-! PROOF. Loading an object (03 R58 to R65, R72, R78 to R85): the checks in their order, what a load comes to, and what follows it. -/

namespace Sys2Proof.Machine

open Sys2Proof

set_option Elab.async false

/-! ### The checks of a file -/

theorem lowest_of_least {l : List Nat} {d : Nat} (h : d ∈ l) (least : ∀ e ∈ l, d ≤ e) : lowest l = some d := by
  have lowest_min : lowest l = l.min? := by cases l <;> rfl
  rw [lowest_min]
  exact List.min?_eq_some_iff.2 ⟨h, least⟩

theorem zero_mem_formatFaults {o : List Byte} (h : fileNat o 0 4 ≠ 0x4B57434F) : 0 ∈ formatFaults o := by
  have header : 0 ∈ headerFaults o := by
    refine List.mem_append_left _ (List.mem_map.2 ⟨(0, fileNat o 0 4 == 0x4B57434F), List.mem_filter.2 ⟨by simp, ?_⟩, rfl⟩)
    simpa using h
  unfold formatFaults
  exact List.mem_append_left _ (List.mem_append_left _ (List.mem_append_left _ header))

/-- The native image that is chosen is one of the file's, and lacks no key. -/
theorem chooseNative_spec {s : State} {p : Nat} {o : List Byte} {x : Section} (h : chooseNative s p o = some x) :
    x ∈ sectionsOf o ∧ x.ty = 3 ∧ s.absentKeys p (x.manifest o) = [] := by
  have chosen : x ∈ (sectionsOf o).filter fun x => x.ty == 3 && (s.absentKeys p (x.manifest o)).isEmpty := by
    revert h
    unfold chooseNative
    generalize (sectionsOf o).filter _ = l
    refine List.foldlRecOn (motive := fun best : Option Section => best = some x → x ∈ l) l _ (fun h => nomatch h) ?_
    intro best ih y hy h
    cases best with
    | none => exact Option.some.inj h ▸ hy
    | some z =>
      dsimp only at h
      split at h
      · exact Option.some.inj h ▸ hy
      · exact ih h
  obtain ⟨mem, matching⟩ := List.mem_filter.1 chosen
  simp only [Bool.and_eq_true, beq_iff_eq, List.isEmpty_iff] at matching
  exact ⟨mem, matching⟩

theorem State.absentKeys_eq_nil_iff {s : State} {p : Nat} {keys : List Nat} :
    s.absentKeys p keys = [] ↔ ∀ k ∈ keys, (wayFind s.reducedService (s.partition p).features k).isSome = true := by
  simp only [State.absentKeys, List.filter_eq_nil_iff, Bool.not_eq_true, Option.isNone_eq_false_iff]

theorem length_wordsOf (b : List Byte) : (wordsOf b).length = b.length / 8 := by simp [wordsOf]

/-! ### What a load comes to -/

/-- An object that passes checks 1 to 3 of R58. -/
structure PassesChecks (s : State) (p : Nat) (o : List Byte) : Prop where
  wellFormed : formatFaults o = []
  signed : signedBy o ((s.partition p).keyStore.get (fileNat o (fileNat o 32 8) 4) .empty) = true
  hashed : firstBadPage o = none

/-- Which image a load takes, once its file has passed (R58 steps 4 and 5). -/
def loadRoute (p : Nat) (o : List Byte) (base : Word) (s : State) : Out :=
  match chooseNative s p o with
  | some x => .next (s.install p o base { words := wordsOf (x.bytes o), place := x.place, native := some x } 0 1).1
  | none =>
    match (sectionsOf o).find? (·.ty == 2), (sectionsOf o).find? (·.ty == 1) with
    | some pf, some pv =>
      match s.absentKeys p (pf.manifest o) with
      | k :: _ => .next (s.answerWith (statusRecord 0 0 5 0xFFFF k))
      | [] => .next (s.translateLoad p o base pf pv)
    | _, _ => .next (s.answerWith (statusRecord 0 0 4 0xFFFF 0))

namespace State

variable {s : State} {p : Nat} {o : List Byte} {base : Word}

section Loading

variable (known : s.partitions.find p ≠ none)

include known

theorem loadRequest_faulty {d : Nat} (h : lowest (formatFaults o) = some d) :
    exec (.loadRequest p o base) s = .next (s.answerWith (statusRecord 0 0 1 0xFFFF d)) := by
  show execLoadRequest p o base s = _
  simp only [execLoadRequest, Option.isNone_iff_eq_none, known, if_false, h]

theorem loadRequest_unsigned (wellFormed : formatFaults o = [])
    (h : signedBy o ((s.partition p).keyStore.get (fileNat o (fileNat o 32 8) 4) .empty) = false) :
    exec (.loadRequest p o base) s = .next (s.answerWith (statusRecord 0 0 2 0xFFFF 0)) := by
  show execLoadRequest p o base s = _
  simp only [execLoadRequest, Option.isNone_iff_eq_none, known, if_false, wellFormed, lowest, h, Bool.not_false, if_true]

theorem loadRequest_bad_page {i : Nat} (wellFormed : formatFaults o = [])
    (signed : signedBy o ((s.partition p).keyStore.get (fileNat o (fileNat o 32 8) 4) .empty) = true) (h : firstBadPage o = some i) :
    exec (.loadRequest p o base) s = .next (s.answerWith (statusRecord 0 0 3 0xFFFF i)) := by
  show execLoadRequest p o base s = _
  simp only [execLoadRequest, Option.isNone_iff_eq_none, known, if_false, wellFormed, lowest, signed, Bool.not_true, Bool.false_eq_true, h]

variable (passes : PassesChecks s p o)

include passes

theorem loadRequest_of_passes : exec (.loadRequest p o base) s = loadRoute p o (base &&& ~~~0xFFFF) s := by
  show execLoadRequest p o base s = _
  simp only [execLoadRequest, Option.isNone_iff_eq_none, known, if_false, passes.wellFormed, lowest, passes.signed, Bool.not_true,
    Bool.false_eq_true, passes.hashed]
  rfl

theorem loadRequest_native {x : Section} (h : chooseNative s p o = some x) : exec (.loadRequest p o base) s =
    .next (s.install p o (base &&& ~~~0xFFFF) { words := wordsOf (x.bytes o), place := x.place, native := some x } 0 1).1 := by
  rw [loadRequest_of_passes known passes, loadRoute, h]

variable (translated : chooseNative s p o = none)

include translated

theorem loadRequest_no_image (h : ∀ x ∈ sectionsOf o, x.ty ≠ 2) :
    exec (.loadRequest p o base) s = .next (s.answerWith (statusRecord 0 0 4 0xFFFF 0)) := by
  have no_pathfinder : (sectionsOf o).find? (·.ty == 2) = none := List.find?_eq_none.2 fun x hx => by simpa using h x hx
  rw [loadRequest_of_passes known passes, loadRoute, translated, no_pathfinder]

variable {pf pv : Section} (pathfinder : (sectionsOf o).find? (·.ty == 2) = some pf) (code : (sectionsOf o).find? (·.ty == 1) = some pv)

include pathfinder code

theorem loadRequest_absent_key {k : Nat} {rest : List Nat} (h : s.absentKeys p (pf.manifest o) = k :: rest) :
    exec (.loadRequest p o base) s = .next (s.answerWith (statusRecord 0 0 5 0xFFFF k)) := by
  rw [loadRequest_of_passes known passes]
  simp only [loadRoute, translated, pathfinder, code, h]

theorem loadRequest_translated (h : s.absentKeys p (pf.manifest o) = []) :
    exec (.loadRequest p o base) s = .next (s.translateLoad p o (base &&& ~~~0xFFFF) pf pv) := by
  rw [loadRequest_of_passes known passes]
  simp only [loadRoute, translated, pathfinder, code, h]

end Loading

/-! ### The pathfinder route (R78 to R80) -/

/-- An element that a filter drops pays for itself. -/
theorem sum_filter_add_le {α : Type} (f : α → Nat) (keep : α → Bool) {l : List α} {e : α} (h : e ∈ l)
    (dropped : keep e = false) : f e + ((l.filter keep).map f).sum ≤ (l.map f).sum := by
  have le_all (l : List α) : ((l.filter keep).map f).sum ≤ (l.map f).sum :=
    (l.filter_sublist.map f).sum_le_sum fun _ _ => Nat.zero_le _
  induction l with
  | nil => exact nomatch h
  | cons x t ih =>
    rcases List.mem_cons.1 h with rfl | h
    · simpa [dropped] using le_all t
    · have := ih h
      by_cases hx : keep x = true
      · rw [List.filter_cons_of_pos hx, List.map_cons, List.map_cons, List.sum_cons, List.sum_cons]; omega
      · rw [List.filter_cons_of_neg hx, List.map_cons, List.sum_cons]; omega

/-- The Cairn cache with an entry most recently used (R79). -/
def refreshed (q : Partition) (e : List Byte × List Word) : Partition := { q with cairn := e :: q.cairn.filter (·.1 ≠ e.1) }

/-- An image in the Cairn cache takes no more pages when it is the most recently used. -/
theorem drawable_refreshed {q : Partition} {e : List Byte × List Word} (h : e ∈ q.cairn) : drawable q ≤ drawable (refreshed q e) := by
  have pages : cairnPages (refreshed q e) ≤ cairnPages q :=
    sum_filter_add_le (fun e : List Byte × List Word => (e.2.length * 8 + 65535) / 65536) (fun x => decide (x.1 ≠ e.1)) h (by simp)
  exact Nat.sub_le_sub_left pages _

variable {file : List Byte} {pf pv : Section}

theorem translateLoad_cached {e : List Byte × List Word}
    (h : (s.partition p).cairn.find? (·.1 == s.cairnKey p (pf.bytes file) (pv.bytes file)) = some e) :
    s.translateLoad p file base pf pv = ((s.setPartition p (refreshed (s.partition p) e)).install p file base
      { words := e.2.map (·.toNat), place := pv.place } 0 2).1 := by
  have key : e.1 = s.cairnKey p (pf.bytes file) (pv.bytes file) := by simpa using List.find?_some h
  unfold translateLoad
  dsimp only
  rw [h]
  dsimp only
  rw [← key]; rfl

/-- A table has a free number among the first of them. -/
theorem exists_free_number {α : Type} (t : Table Nat α) :
    ∃ k, (List.range (t.length + 1)).find? (fun k => (t.find k).isNone) = some k ∧ t.find k = none := by
  cases h : (List.range (t.length + 1)).find? (fun k => (t.find k).isNone) with
  | some k => exact ⟨k, rfl, by simpa using List.find?_some h⟩
  | none =>
    exfalso
    have taken : List.range (t.length + 1) ⊆ t.map (·.1) := by
      intro k hk
      have used := List.find?_eq_none.1 h k hk
      obtain ⟨x, hx⟩ := Option.ne_none_iff_exists'.1 fun (e : t.find k = none) => used (by rw [e]; rfl)
      exact List.mem_map.2 ⟨(k, x), Table.mem_of_find hx, rfl⟩
    have := (List.subperm_of_subset List.nodup_range taken).length_le
    rw [List.length_range, List.length_map] at this
    omega

/-- The Clearing in which a translation starts (R72, R80). -/
def freshClearing (s : State) (p : Nat) (file : List Byte) (base : Word) (pf pv : Section) : Clearing :=
  let cap := min (s.partition p).budgetCap (2 ^ 26)
  let asked := fileNat file 12 4
  { part := p, tsc := (s.partition p).slice.head?, m := (Vector.replicate 16 0).set 1 (BitVec.ofNat 64 (pv.bytes file).length)
    budget := min (if asked ≠ 0 then asked else cap) cap, pathfinder := pf.bytes file, code := pv.bytes file
    key := s.cairnKey p (pf.bytes file) (pv.bytes file), file, base := base + BitVec.ofNat 64 pv.place, running := true }

theorem get_freshClearing (n : BitVec 4) :
    (s.freshClearing p file base pf pv).get n = if n = 1 then BitVec.ofNat 64 (pv.bytes file).length else 0 := by
  show ((Vector.replicate 16 (0 : Word)).set 1 _)[n.toNat]'n.isLt = _
  rw [Vector.getElem_set, Vector.getElem_replicate]
  by_cases h : n = 1
  · rw [if_pos h, h]; rfl
  · rw [if_neg h, if_neg fun e => h (BitVec.eq_of_toNat_eq e.symm)]

theorem budget_freshClearing : (s.freshClearing p file base pf pv).budget =
    if fileNat file 12 4 = 0 then min (s.partition p).budgetCap (2 ^ 26)
    else min (fileNat file 12 4) (min (s.partition p).budgetCap (2 ^ 26)) := by
  show min (if fileNat file 12 4 ≠ 0 then _ else _) _ = _
  by_cases h : fileNat file 12 4 = 0
  · rw [if_neg (not_not.2 h), if_pos h, min_self]
  · rw [if_pos h, if_neg h]

theorem translateLoad_starts (absent : (s.partition p).cairn.find? (·.1 == s.cairnKey p (pf.bytes file) (pv.bytes file)) = none)
    (alone : ∀ e ∈ s.clearings, e.2.key ≠ s.cairnKey p (pf.bytes file) (pv.bytes file)) : ∃ k, s.clearings.find k = none ∧
      s.translateLoad p file base pf pv = { s with clearings := s.clearings.set k (s.freshClearing p file base pf pv) } := by
  obtain ⟨k, first, free⟩ := exists_free_number s.clearings
  have none_runs : s.clearings.find? (fun e => e.2.running && e.2.part == p
      && e.2.key == s.cairnKey p (pf.bytes file) (pv.bytes file)) = none :=
    List.find?_eq_none.2 fun e he => by simp [alone e he]
  refine ⟨k, free, ?_⟩
  unfold translateLoad
  dsimp only
  rw [absent]
  dsimp only
  rw [none_runs]
  dsimp only
  rw [first]; rfl

end State

end Sys2Proof.Machine
end

section
/-! PROOF. What follows a load (03 R72, R80, R82 to R85), and the statement on loads. -/

namespace Sys2Proof.Machine

open Sys2Proof

set_option Elab.async false

namespace State

variable {s : State} {p : Nat} {file : List Byte} {base : Word} {g : Image} {units route : Nat}

/-! ### Installing -/

/-- Installed or not, the load is answered once, and no translation changes. -/
theorem install_outcome (s : State) (p : Nat) (file : List Byte) (base : Word) (g : Image) (units route : Nat) :
    ∃ r, (s.install p file base g units route).1.clearings = s.clearings ∧
      (s.install p file base g units route).1.answers = s.answers ++ [r] ∧
      (r = statusRecord units route 0 g.number g.words.length ∨ ∃ n, 0 < n ∧ r = statusRecord units 0 6 g.number n) := by
  rcases Nat.lt_or_ge (drawable (s.partition p)) (g.need file) with short | room
  · rw [install_of_short short]
    exact ⟨_, rfl, rfl, .inr ⟨_, Nat.sub_pos_of_lt short, rfl⟩⟩
  · obtain ⟨u, mapped, installed⟩ := install_of_room (base := base) (units := units) (route := route) room
    rw [installed]
    exact ⟨_, mapped.clearings, congrArg (· ++ _) mapped.answers, .inl rfl⟩

/-- What an installed image leaves in its partition. -/
theorem install_of_room_partition (room : g.need file ≤ drawable (s.partition p)) :
    (s.install p file base g units route).1.answers = s.answers ++ [statusRecord units route 0 g.number g.words.length] ∧
      ∃ joins, (s.install p file base g units route).1.partition p = { (s.partition p).withImage file base g with joins } := by
  obtain ⟨u, mapped, installed⟩ := install_of_room (base := base) (units := units) (route := route) room
  obtain ⟨joins, here⟩ := mapped.partition p
  rw [partition_setPartition] at here
  rw [installed]
  exact ⟨congrArg (· ++ _) mapped.answers, joins, here⟩

end State

/-- A native image of a file. -/
def Image.ofNative (o : List Byte) (x : Section) : Image := { words := wordsOf (x.bytes o), place := x.place, native := some x }

@[simp] theorem Image.words_native (o : List Byte) (x : Section) : (Image.ofNative o x).words = wordsOf (x.bytes o) := rfl

theorem Image.need_native {o : List Byte} {x : Section} (whole : (x.bytes o).length = x.length) : (Image.ofNative o x).need o =
    (x.length / 8 * 8 + 65535) / 65536 + (((sectionsOf o).filter (·.ty == 4)).map fun x => (x.length + 65535) / 65536).sum := by
  rw [need, pages, words_native, length_wordsOf, whole]; rfl

namespace State

variable {s : State} {p : Nat} {o file : List Byte} {base : Word} {g : Image} {units route : Nat}

section Native

variable {x : Section} (known : s.partitions.find p ≠ none) (passes : PassesChecks s p o) (chosen : chooseNative s p o = some x)

include known passes chosen

theorem loadRequest_native_short (short : drawable (s.partition p) < (Image.ofNative o x).need o) : exec (.loadRequest p o base) s =
    .next (s.answerWith (statusRecord 0 0 6 x.index ((Image.ofNative o x).need o - drawable (s.partition p)))) := by
  rw [loadRequest_native known passes chosen, ← Image.ofNative, install_of_short short]; rfl

theorem loadRequest_native_room (room : (Image.ofNative o x).need o ≤ drawable (s.partition p)) :
    ∃ t, exec (.loadRequest p o base) s = .next t ∧
    t.answers = s.answers ++ [statusRecord 0 1 0 x.index (Image.ofNative o x).words.length] ∧
    (t.partition p).objects.find (BitVec.ofNat 64 (s.partition p).nextObject) =
      some ((Image.ofNative o x).object (s.partition p) o (base &&& ~~~0xFFFF)) ∧
    (t.partition p).framesLeft = (s.partition p).framesLeft.drop ((Image.ofNative o x).need o) := by
  obtain ⟨answers, joins, here⟩ := install_of_room_partition (base := base &&& ~~~0xFFFF) (units := 0) (route := 1) room
  refine ⟨_, loadRequest_native known passes chosen, answers, ?_, ?_⟩
  · rw [← Image.ofNative, here]; exact Table.find_set_same ..
  · rw [← Image.ofNative, here]; rfl

end Native

/-- A cached image with pages enough is installed with ROUTE 2, and is the most recently used (R79). -/
theorem translateLoad_cached_room {pf pv : Section} {e : List Byte × List Word}
    (cached : (s.partition p).cairn.find? (·.1 == s.cairnKey p (pf.bytes file) (pv.bytes file)) = some e)
    (room : (e.2.length * 8 + 65535) / 65536 + (((sectionsOf file).filter (·.ty == 4)).map Section.pages).sum ≤
      drawable (s.partition p)) :
    (s.translateLoad p file base pf pv).answers = s.answers ++ [statusRecord 0 2 0 0xFFFF e.2.length] ∧
      ((s.translateLoad p file base pf pv).partition p).cairn.head? = some e := by
  have enough : ({ words := e.2.map (·.toNat), place := pv.place } : Image).need file ≤
      drawable ((s.setPartition p (refreshed (s.partition p) e)).partition p) := by
    rw [partition_setPartition, Image.need, Image.pages, List.length_map]
    exact Nat.le_trans room (drawable_refreshed (List.mem_of_find?_eq_some cached))
  obtain ⟨answers, joins, here⟩ := install_of_room_partition (base := base) (units := 0) (route := 2) enough
  rw [translateLoad_cached cached]
  rw [List.length_map] at answers
  refine ⟨answers, ?_⟩
  rw [here, partition_setPartition]; rfl

/-! ### The end of a translation (R72, R80) -/

theorem here_of_find {c : Clearing} (h : s.clearings.find s.clearing = some c) : s.here = c := by rw [here, Table.get, h]; rfl

/-- With no load waiting, a translation that ends leaves nothing but its answer. -/
theorem abortTranslation_of_alone {c : Clearing} (h : s.clearings.find s.clearing = some c) (alone : c.waiting = []) (code detail : Nat) :
    s.abortTranslation code detail = { s with
      answers := s.answers ++ [statusRecord c.units 0 code 0xFFFF detail], clearings := s.clearings.erase s.clearing } := by
  have answered : (s.answerWith (statusRecord c.units 0 code 0xFFFF detail)).here = c := here_of_find h
  unfold abortTranslation translationOver
  rw [here_of_find h, answered]
  exact if_pos (by rw [alone]; rfl)

theorem exec_budgetExhausted {k : Nat} {c : Clearing} (h : s.clearings.find k = some c) : exec (.budgetExhausted k) s =
    if c.running && c.budget ≤ c.units then .next ({ s with clearing := k }.abortTranslation 0x11 c.ip.toNat) else .next s := by
  show execBudgetExhausted k s = _
  rw [execBudgetExhausted, h]

/-- The one Clearing without the load that has taken its outcome. -/
def afterWait (s : State) (k : Nat) (c : Clearing) (i : Nat) : State :=
  let left := c.waiting.eraseIdx i
  { s with clearings := if left = [] then [] else [(k, { c with waiting := left })] }

section Waiting

variable {k i code detail : Nat} {c : Clearing} (only : s.clearings = [(k, c)]) (part : c.part = p)
  (ended : c.outcome = some (code, detail)) (waits : c.waiting[i]? = some (file, base))

include only part ended waits

theorem exec_cairnWaitResolve : exec (.cairnWaitResolve p i) s = if code = 0 then
      .next ((s.afterWait k c i).install p file base
        { words := c.out.reverse.map (·.toNat), place := (((sectionsOf file).find? (·.ty == 1)).map (·.place)).getD 0 } 0 2).1
    else .next ((s.afterWait k c i).answerWith (statusRecord 0 0 code 0xFFFF detail)) := by
  have some_wait : c.waiting ≠ [] := fun e => by rw [e] at waits; exact nomatch waits
  have found : s.clearings.find? (fun e => e.2.part == p && e.2.outcome.isSome && !e.2.waiting.isEmpty) = some (k, c) := by
    rw [only, List.find?_cons_of_pos]
    simp [part, ended, some_wait]
  have rest : (if (c.waiting.eraseIdx i).isEmpty then s.clearings.erase k
      else s.clearings.set k { c with waiting := c.waiting.eraseIdx i }) =
      (s.afterWait k c i).clearings := by
    simp only [afterWait, only, Table.erase, Table.set, List.isEmpty_iff]
    simp
  show execCairnWaitResolve p i s = _
  rw [execCairnWaitResolve, found]
  dsimp only
  rw [waits]
  dsimp only
  rw [rest, ended]
  cases code <;> rfl

end Waiting

/-! ### Pages of a native image (R82) -/

theorem recordsWork_of_idle (h : ∀ e ∈ s.clusters, ∀ x ∈ e.2.misses, ∀ r ∈ x.records, r.1.working s.now = false) (obj : Word) :
    s.recordsWork p obj = false := by
  simp only [recordsWork, List.any_eq_false, Bool.not_eq_true, Bool.and_eq_false_iff]
  intro e he
  simpa using fun x hx a b hr => .inr (h e he x hx (a, b) hr)

/-- A page of an object has passed its hash and its admission check. -/
def passPage (s : State) (p : Nat) (obj : Word) (o : Object) (page : Nat) : State :=
  s.setPartition p { s.partition p with
    objects := (s.partition p).objects.set obj { o with hashing := none, passed := insertRising o.passed page } }

/-- Mapping a page that has passed leaves the object as it is. -/
theorem find_mapRange_passPage (s : State) (p : Nat) (obj : Word) (o : Object) (page va : Nat) (frames : List Nat) (b : List Byte)
    (r w x : Bool) : (((s.passPage p obj o page).mapRange p va frames b r w x).partition p).objects.find obj =
      some { o with hashing := none, passed := insertRising o.passed page } := by
  obtain ⟨joins, here⟩ := (mapped_mapRange (s.passPage p obj o page) p va frames b r w x).partition p
  rw [here, passPage, partition_setPartition]
  exact Table.find_set_same ..

section Pages

variable {obj : Word} {o : Object} {page : Nat} (h : (s.partition p).objects.find obj = some o)

include h

theorem pageHashCheck_idle (idle : o.revoked = true ∨ o.hashing ≠ some page ∨ s.recordsWork p obj = true) :
    exec (.pageHashCheck p obj page) s = .next s := by
  show execPageHashCheck p obj page s = _
  rw [execPageHashCheck, h]
  exact if_pos (by simpa [or_assoc] using idle)

variable (live : o.revoked = false) (hashing : o.hashing = some page) (idle : s.recordsWork p obj = false)

include live hashing idle

theorem exec_pageHashCheck : exec (.pageHashCheck p obj page) s =
    if o.digests.getD page [] == pageHash o.image page && admitsPage s.reducedService (wordsOf o.image) page then
      .next ((s.passPage p obj o page).mapRange p (o.base.toNat + 65536 * page) [o.frames.getD page 0]
        ((o.image.drop (65536 * page)).take 65536) false false true)
    else .next (s.revoke p obj) := by
  show execPageHashCheck p obj page s = _
  rw [execPageHashCheck, h]
  exact if_neg (by simp [live, hashing, idle])

end Pages

/-- The bytes of a page of an image. -/
theorem getD_page (image : List Byte) (page : Nat) {j : Nat} (hj : j < 65536) :
    ((image.drop (65536 * page)).take 65536).getD j 0 = image.getD (65536 * page + j) 0 := by
  simp only [List.getD_eq_getElem?_getD, List.getElem?_take, if_pos hj, List.getElem?_drop]

/-- One page mapped: its bytes, the memory around it, and its entry. -/
theorem mapRange_page (s : State) (p va f : Nat) (b : List Byte) (r w x : Bool) (canonical : s.mem.wf = true) :
    (∀ j < 65536, (s.mapRange p va [f] b r w x).mem.byte (f * 65536 + j) = b.getD j 0) ∧
      (∀ a, a < f * 65536 ∨ f * 65536 + 65536 ≤ a → (s.mapRange p va [f] b r w x).mem.byte a = s.mem.byte a) ∧
      ∀ k ∈ (s.partition p).slice, pageEntry ((s.partition p).asids.headD 0) ((s.partition p).keys.headD 0) (va % 2 ^ 64) f r w x
        (x && Config.signaturePolicy p) ∈ ((s.mapRange p va [f] b r w x).die (k / 26)).tlb := by
  have filled : (s.mapRange p va [f] b r w x).mem = s.mem.fillPage f (b.take 65536) := mem_mapPage ..
  rw [filled]
  refine ⟨fun j hj => ?_, fun a ha => Mem.byte_fillPage_other canonical (List.length_take_le ..) ha, fun k hk => mem_tlb_mapPage _ hk⟩
  rw [Mem.byte_fillPage f canonical hj, List.getD_eq_getElem?_getD, List.getElem?_take, if_pos hj, ← List.getD_eq_getElem?_getD]

/-! ### Notices and unloading (R83, R85) -/

theorem exec_revocationNotice (c : Nat) (obj : Word) : exec (.revocationNotice c obj) s =
    if s.partitions.any fun e => (e.2.objects.find obj).any (·.revoked) then .next (s.setCore c { s.core c with
      notices := if (s.core c).notices.contains obj then (s.core c).notices else (s.core c).notices ++ [obj] })
    else .next s := rfl

/-- The entries that the unloading of an object leaves in a level: none of its pages, and not the page after its image. -/
def leftBy (o : Object) (l : List TlbEntry) : List TlbEntry :=
  l.filter fun e => e.asid ≠ o.asid || !(o.frames.contains e.pfn
    || (e.vpn == bits (o.base.toNat + (o.words * 8 + 65535) / 65536 * 65536) 16 41 && !e.r && !e.w && !e.x))

/-- The state in which an object has been unloaded. -/
def unloaded (s : State) (p : Nat) (obj : Word) (o : Object) : State :=
  let u := s.unbindAll p obj
  let v := u.setPartition p { u.partition p with objects := (u.partition p).objects.erase obj
                                                 framesLeft := (u.partition p).framesLeft ++ o.frames }
  { v with
    dies := v.dies.update fun _ d => { d with tlb := leftBy o d.tlb }
    clusters := v.clusters.update fun _ k => { k with tlb := leftBy o k.tlb, victims := leftBy o k.victims }
    cores := v.cores.update fun _ c => { c with tlb := leftBy o c.tlb } }

variable {obj : Word} {o : Object}

theorem exec_imageUnload (h : (s.partition p).objects.find obj = some o) : exec (.imageUnload p obj) s = .next (s.unloaded p obj o) := by
  show execImageUnload p obj s = _
  rw [execImageUnload, h]
  rfl

theorem partition_unloaded (s : State) (p : Nat) (obj : Word) (o : Object) : (s.unloaded p obj o).partition p =
    { (s.unbindAll p obj).partition p with objects := ((s.unbindAll p obj).partition p).objects.erase obj
                                           framesLeft := ((s.unbindAll p obj).partition p).framesLeft ++ o.frames } :=
  partition_setPartition ..

theorem not_mem_leftBy {l : List TlbEntry} {e : TlbEntry} (h : e ∈ leftBy o l) : ¬ (e.asid = o.asid ∧ e.pfn ∈ o.frames) := by
  rintro ⟨asid, pfn⟩
  have kept := (List.mem_filter.1 h).2
  simp [asid, pfn] at kept

theorem tlbs_unloaded (s : State) (p : Nat) (obj : Word) (o : Object) (j : Nat) :
    ((s.unloaded p obj o).core j).tlb = leftBy o ((s.unbindAll p obj).core j).tlb ∧
    ((s.unloaded p obj o).cluster j).tlb = leftBy o ((s.unbindAll p obj).cluster j).tlb ∧
    ((s.unloaded p obj o).cluster j).victims = leftBy o ((s.unbindAll p obj).cluster j).victims ∧
    ((s.unloaded p obj o).die j).tlb = leftBy o ((s.unbindAll p obj).die j).tlb := by
  unfold unloaded core cluster die
  dsimp only
  rw [Table.get_update _ rfl, Table.get_update _ rfl, Table.get_update _ rfl]
  exact ⟨rfl, rfl, rfl, rfl⟩

end State

/-! ### The statement -/

/-- Settles O54: each check by the lemma on its answer; an image by what installing leaves in its partition, a translation by the Clearing
that it starts; and what follows by the pages that are mapped and the mailboxes that are unbound. -/
theorem loadsGoThroughTheirChecks : Obligations.LoadsGoThroughTheirChecks := by
  unfold Obligations.LoadsGoThroughTheirChecks
  refine ⟨?load, ?budget, ?resolve, ?page, ?notice, ?unload⟩
  case load =>
    intro p o base s known
    dsimp only
    refine ⟨fun magic => ?_, fun d hd least => ?_, fun wf unsigned => ?_, fun i wf signed bad => ?_, ?_, ?_, ?_⟩
    · exact State.loadRequest_faulty known (lowest_of_least (zero_mem_formatFaults magic) fun _ _ => Nat.zero_le _)
    · exact State.loadRequest_faulty known (lowest_of_least hd least)
    · exact State.loadRequest_unsigned known wf unsigned
    · exact State.loadRequest_bad_page known wf signed bad
    · rintro ⟨wf, signed, hashed⟩ translated none_holds
      exact State.loadRequest_no_image known ⟨wf, signed, hashed⟩ translated none_holds
    · rintro x ⟨wf, signed, hashed⟩ chosen
      obtain ⟨mem, ty, present⟩ := chooseNative_spec chosen
      refine ⟨mem, ty, State.absentKeys_eq_nil_iff.1 present, fun whole words => ?_⟩
      have passes : PassesChecks s p o := ⟨wf, signed, hashed⟩
      have need := Image.need_native whole
      constructor
      · intro short
        rw [← need] at short ⊢
        exact State.loadRequest_native_short known passes chosen short
      · intro room
        rw [← need] at room ⊢
        obtain ⟨t, run, answers, found, frames⟩ := State.loadRequest_native_room (base := base) known passes chosen room
        have words : (Image.ofNative o x).words.length = x.length / 8 := by rw [Image.words_native, length_wordsOf, whole]
        rw [words] at answers
        exact ⟨t, _, run, answers, found, by rw [← words]; rfl, frames, rfl⟩
    · rintro pf pv ⟨wf, signed, hashed⟩ translated pathfinder code
      have passes : PassesChecks s p o := ⟨wf, signed, hashed⟩
      refine ⟨fun k rest absent => State.loadRequest_absent_key known passes translated pathfinder code absent, fun present => ?_⟩
      have run := State.loadRequest_translated (base := base) known passes translated pathfinder code
        (State.absentKeys_eq_nil_iff.2 present)
      refine ⟨fun e cached room => ?_, fun absent alone => ?_⟩
      · obtain ⟨answers, newest⟩ := State.translateLoad_cached_room (base := base &&& ~~~0xFFFF) (file := o) (pv := pv) cached room
        exact ⟨_, run, answers, newest⟩
      · obtain ⟨k, free, started⟩ := State.translateLoad_starts (base := base &&& ~~~0xFFFF) (file := o) absent alone
        rw [started] at run
        exact ⟨_, k, _, run, free, rfl, rfl, rfl, rfl, rfl, rfl, rfl, rfl, rfl, rfl, rfl, rfl, State.get_freshClearing,
          State.budget_freshClearing⟩
  case budget =>
    intro s k c found alone
    rw [State.exec_budgetExhausted found]
    constructor
    · intro running spent
      rw [if_pos (by simp [running, spent])]
      exact congrArg Host.Outcome.next (State.abortTranslation_of_alone found alone _ _)
    · intro left
      rw [if_neg (by simp; omega)]
  case resolve =>
    intro s p k i c code detail file base only part ended waits
    dsimp only
    rw [State.exec_cairnWaitResolve only part ended waits]
    constructor
    · intro failed
      rw [if_neg failed]; rfl
    · intro done
      rw [if_pos done]
      obtain ⟨r, clearings, answers, outcome⟩ := State.install_outcome (s.afterWait k c i) p file base
        { words := c.out.reverse.map (·.toNat), place := (((sectionsOf file).find? (·.ty == 1)).map (·.place)).getD 0 } 0 2
      rw [List.length_map, List.length_reverse] at outcome
      exact ⟨_, r, rfl, clearings, answers, outcome⟩
  case page =>
    intro s p page obj o canonical found
    have wf : s.mem.wf = true := State.wf_mem canonical
    dsimp only
    refine ⟨State.pageHashCheck_idle found, fun live hashing good idle => ?_, fun live hashing bad idle => ?_⟩
    · rw [State.exec_pageHashCheck found live hashing (State.recordsWork_of_idle idle obj), if_pos good]
      obtain ⟨bytes, others, entry⟩ := State.mapRange_page (s.passPage p obj o page) p (o.base.toNat + 65536 * page)
        (o.frames.getD page 0) ((o.image.drop (65536 * page)).take 65536) false false true wf
      rw [State.passPage, State.partition_setPartition] at entry
      refine ⟨_, rfl, State.find_mapRange_passPage .., fun j hj => ?_, others, entry⟩
      rw [bytes j hj, State.getD_page _ _ hj]
    · rw [State.exec_pageHashCheck found live hashing (State.recordsWork_of_idle idle obj), if_neg (by rw [bad]; decide)]
      obtain ⟨kept, mem⟩ := State.kept_revoke found live
      refine ⟨_, rfl, ⟨{ o with revoked := true }, ?_, rfl⟩, mem, fun i m hm bound mine => ?_⟩
      · rw [(kept p).objects, State.find_markRevoked]
      · have cleared : ((s.markRevoked p obj o).partition p).mailbox i = m.cleared := State.mailbox_markRevoked hm bound mine
        exact ((kept p).cleared i (by rw [cleared]; rfl)).trans (by rw [cleared]; rfl)
  case notice =>
    intro s c obj
    rw [State.exec_revocationNotice]
    constructor
    · rintro ⟨e, he, o, found, revoked⟩
      rw [if_pos (List.any_eq_true.2 ⟨e, he, by simp [found, revoked]⟩)]
      refine ⟨_, rfl, ?_, fun j hj => State.core_setCore_other _ _ hj⟩
      rw [State.core_setCore]
      dsimp only
      split
      next known => simpa using known
      next => simp
    · intro live
      rw [if_neg]
      simp only [List.any_eq_true, not_exists, not_and, Option.any_eq_true]
      intro e he o found
      simp [live e he o found]
  case unload =>
    intro s p obj o found
    have kept := (State.posted_unbindAll s p obj).partition p
    refine ⟨_, State.exec_imageUnload found, ?_, fun h hh => ?_, ?_, fun i m hm bound mine => ?_, fun j e he => ?_, fun j e he => ?_,
      fun j e he => ?_⟩
    · rw [State.partition_unloaded, Table.find_erase_same]
    · rw [State.partition_unloaded, Table.find_erase_other _ hh, kept.objects]
    · rw [State.partition_unloaded, kept.framesLeft]
    · rw [State.mailbox, State.partition_unloaded]
      exact State.mailbox_unbindAll hm bound mine
    all_goals obtain ⟨core, tlb, victims, die⟩ := State.tlbs_unloaded s p obj o j
    · rw [core] at he; exact State.not_mem_leftBy he
    · rw [tlb, victims] at he
      exact (List.mem_append.1 he).elim State.not_mem_leftBy State.not_mem_leftBy
    · rw [die] at he; exact State.not_mem_leftBy he

end Sys2Proof.Machine
end

section
/-! PROOF. What performing stores changes, and what a hart's own `end` leaves (05 R113, R118; 06 R131, R157; 13 R299; 17 R347). -/

namespace Sys2Proof.Machine

open Sys2Proof

set_option Elab.async false

namespace State

/-! ### What a release leaves as it is -/

/-- Two states differ in nothing but memory, of the package and of the clusters, its keys and errors, the dies' logs, and the time of the
last accesses. -/
structure OnlyMemory (s t : State) : Prop where
  eq : t = { s with mem := t.mem, lineKeys := t.lineKeys, upsets := t.upsets, dies := t.dies, clusters := t.clusters, lineUse := t.lineUse }
  cluster : ∀ k, t.cluster k = { s.cluster k with mem := (t.cluster k).mem }

namespace OnlyMemory

variable {s t u : State}

theorem refl (s : State) : OnlyMemory s s := ⟨rfl, fun _ => rfl⟩

theorem trans (h : OnlyMemory s t) (g : OnlyMemory t u) : OnlyMemory s u := by
  refine ⟨g.eq.trans ?_, fun k => (g.cluster k).trans ?_⟩
  · rw [h.eq]
  · rw [h.cluster k]

theorem foldl {α : Type} {f : State → α → State} (h : ∀ s x, OnlyMemory s (f s x)) (l : List α) (s : State) :
    OnlyMemory s (l.foldl f s) :=
  List.foldlRecOn (motive := OnlyMemory s) l f (.refl s) fun _ ht x _ => ht.trans (h _ x)

theorem harts (h : OnlyMemory s t) : t.harts = s.harts := by rw [h.eq]

end OnlyMemory

theorem onlyMemory_meetErrors (s : State) (pa n : Nat) : OnlyMemory s (s.meetErrors pa n) := by
  unfold meetErrors
  split
  · exact .refl s
  refine .foldl (fun s u => ?_) _ s
  dsimp only
  split
  · split <;> exact ⟨rfl, fun _ => rfl⟩
  · split <;> exact ⟨rfl, fun _ => rfl⟩
  · exact ⟨rfl, fun _ => rfl⟩

theorem onlyMemory_meetStore (s : State) (bytes : List (Nat × Byte)) (half : List (Nat × Bool × Nat)) :
    OnlyMemory s (s.meetStore bytes half) := by
  unfold meetStore
  split
  · exact .refl _
  · extract_lets whole kept
    have dropped : OnlyMemory s kept := ⟨rfl, fun _ => rfl⟩
    exact dropped.trans (.foldl (fun s a => onlyMemory_meetErrors s a 1) _ _)

theorem onlyMemory_storeNow (s : State) (bytes : List (Nat × Byte)) (half : List (Nat × Bool × Nat)) :
    OnlyMemory s (s.storeNow bytes half) :=
  .trans (.foldl (f := fun s a => s.touchDie a 1) (fun _ _ => ⟨rfl, fun _ => rfl⟩) (bytes.map (·.1) ++ half.map (·.1)) s)
    (onlyMemory_meetStore ..)

theorem onlyMemory_rekey (s : State) (slot pa n : Nat) : OnlyMemory s (s.rekey slot pa n) := by
  refine .foldl (fun s line => ?_) _ s
  unfold rekeyLine
  split
  · exact ⟨rfl, fun _ => rfl⟩
  · split <;> exact ⟨rfl, fun _ => rfl⟩

theorem onlyMemory_perform (s : State) (st : Store) : OnlyMemory s (s.perform st) := by
  unfold perform
  split
  · refine ⟨rfl, fun k => ?_⟩
    next j _ =>
      by_cases h : k = j
      · subst h; rw [cluster_setCluster]
      · rw [cluster_setCluster_other _ _ h]
  · refine (onlyMemory_storeNow ..).trans (.trans (.foldl (fun s a => ?_) _ _) ⟨rfl, fun _ => rfl⟩)
    split
    · exact onlyMemory_rekey ..
    · exact .refl _

/-- Performing a hart's stores empties its store queue, and else changes memory alone. -/
theorem onlyMemory_drainAll (s : State) (h : HartId) : OnlyMemory (s.modHart h fun x => { x with stores := [] }) (s.drainAll h) := by
  have performed : OnlyMemory s ((s.hart h).stores.foldl perform s) := .foldl onlyMemory_perform _ s
  have same : drainAll s h =
      { (s.hart h).stores.foldl perform s with harts := (s.modHart h fun x => { x with stores := [] }).harts } := by
    have here : ((s.hart h).stores.foldl perform s).hart h = s.hart h := congrArg (·.get h {}) performed.harts
    rw [drainAll, modHart, here, setHart, performed.harts]
    rfl
  refine ⟨?_, fun k => ?_⟩
  · rw [same, performed.eq]; rfl
  · rw [same]; exact performed.cluster k

section
variable (s : State) (h : HartId)

@[simp] theorem cur_drainAll : (s.drainAll h).cur = s.cur := by rw [(onlyMemory_drainAll s h).eq]; rfl
@[simp] theorem cores_drainAll : (s.drainAll h).cores = s.cores := by rw [(onlyMemory_drainAll s h).eq]; rfl
@[simp] theorem partitions_drainAll : (s.drainAll h).partitions = s.partitions := by
  rw [(onlyMemory_drainAll s h).eq]; rfl
@[simp] theorem core_drainAll (c : Nat) : (s.drainAll h).core c = s.core c := congrArg (·.get c {}) (cores_drainAll s h)
@[simp] theorem partition_drainAll (p : Nat) : (s.drainAll h).partition p = s.partition p :=
  congrArg (·.get p {}) (partitions_drainAll s h)
@[simp] theorem owner_drainAll (k : Nat) : ((s.drainAll h).cluster k).owner = (s.cluster k).owner := by
  rw [(onlyMemory_drainAll s h).cluster]; rfl
@[simp] theorem hart_drainAll : (s.drainAll h).hart h = { s.hart h with stores := [] } :=
  (congrArg (·.get h {}) (onlyMemory_drainAll s h).harts).trans (hart_modHart ..)

end

@[simp] theorem me_drainAll (s : State) : (s.drainAll s.cur).me = { s.me with stores := [] } := by
  rw [me, cur_drainAll, hart_drainAll, me]

end State

/-! ### `end` (05 R113, R118; 06 R131, R157; 17 R347) -/

namespace State

/-- What the outermost `end` of a task gives up once its stores are performed: its views, tiles, gang and commands (R157). -/
def givenUp (s : State) (t : Task) : State :=
  let id := s.cur
  let core := hartCore id
  let u := s.dropViews id
  let u := (u.setCore core ((u.core core).freeTiles (hartSlot id))).leaveGang t
  u.setDie (hartDie id) { u.die (hartDie id) with
    orphans := (u.die (hartDie id)).orphans ++ s.me.queue.map fun c => { c with orphan := true } }

/-- The outermost `end` of a task whose stores are performed: its end is counted, or left to its counter's decrement, and its slot is
free (R157). -/
def ended (s : State) (t : Task) : State :=
  ((s.givenUp t).taskOver t.desc .normal (hartCore s.cur) (hartSlot s.cur) 0 false s.me.regionpc s.me.pc s.me.insn).setHart s.cur {}

end State

section
variable {f : FmtA} {s : State}

theorem exec_taskEnd_waits (runs : s.runs f.gd = true) (busy : ∃ p ∈ s.me.pend, p.complete s.now = false) :
    exec (.taskEnd f) s = .next (s.stall .drain) := by
  show execTaskEnd f s = _
  refine (State.guarded_of_runs _ runs).trans (if_pos ?_)
  simpa using busy

theorem exec_taskEnd_inline {e : Frame} {rest : List Frame} (runs : s.runs f.gd = true)
    (done : ∀ p ∈ s.me.pend, p.complete s.now = true) (resolved : s.me.unres = []) (inline : s.me.regs.inline = rest ++ [e]) :
    exec (.taskEnd f) s = if e.left ≠ 0 then
        .next (s.modMe fun h => { h with pc := e.target, boundary := true,
                                         regs := { (h.regs.setS 8 (BitVec.ofNat 64 e.index)) with
                                                   inline := rest ++ [{ e with index := e.index + 1, left := e.left - 1 }] } })
      else .next (s.modMe fun h => { h with pc := e.ret, boundary := true, regs := { h.regs with inline := rest } }) := by
  show execTaskEnd f s = _
  refine (State.guarded_of_runs _ runs).trans ?_
  have pend : s.me.pend.all (·.complete s.now) = true := List.all_eq_true.2 done
  rw [if_neg (by simp [pend]), if_neg (by simp [resolved]), inline, List.getLast?_concat, List.dropLast_concat]
  dsimp only [State.endRegion]
  simp only [State.modMe_modMe]
  rfl

theorem exec_taskEnd_outermost {task : Task} (runs : s.runs f.gd = true) (done : s.me.pend = []) (resolved : s.me.unres = [])
    (outermost : s.me.regs.inline = []) (may : s.mayPublish = true) (mine : s.me.task = some task) :
    exec (.taskEnd f) s = .next ((s.drainAll s.cur).ended task) := by
  have landed : s.landAll s.cur = s := by
    rw [State.landAll, show (s.hart s.cur).pend = [] from done]
    rfl
  have mine' : (s.drainAll s.cur).me.task = some task := by rw [State.me_drainAll]; exact mine
  show execTaskEnd f s = _
  refine (State.guarded_of_runs _ runs).trans ?_
  rw [if_neg (by simp [done]), if_neg (by simp [resolved]), outermost, List.getLast?_nil]
  dsimp only
  rw [landed, State.publish_of_mayPublish may, Res.run_ok, mine']
  rfl

end

namespace State

variable {s : State} {task : Task} {x : Launch}

/-! What the end of a task leaves (R118, R157, R347). -/

theorem leaveGang_eq (s : State) (t : Task) : s.leaveGang t = { s with gangs := (s.leaveGang t).gangs } := by
  unfold leaveGang
  split
  · rfl
  · split
    · rfl
    · dsimp only; split <;> rfl

@[simp] theorem partitions_givenUp (s : State) (t : Task) : (s.givenUp t).partitions = s.partitions := by
  unfold givenUp; dsimp only; rw [leaveGang_eq]; rfl

@[simp] theorem mem_givenUp (s : State) (t : Task) : (s.givenUp t).mem = s.mem := by
  unfold givenUp; dsimp only; rw [leaveGang_eq]; rfl

theorem holds_givenUp (s : State) (t : Task) : ((s.givenUp t).core (hartCore s.cur)).holds (hartSlot s.cur) = false := by
  have freed (k : Core) (n : Nat) : (k.freeTiles n).holds n = false := by
    simp only [Core.holds, Core.freeTiles, Vector.toList_map, List.any_map, List.any_eq_false, Function.comp_apply]
    intro tile _
    split
    · simp
    · assumption
  unfold givenUp
  dsimp only
  rw [leaveGang_eq]
  exact (congrArg (Core.holds · _) (core_setCore ..)).trans (freed ..)

/-- While an end of a launch is to come, it does not complete (R118). -/
theorem completeLaunch_of_open {p l : Nat} (here : s.launch p l = some x) (open_ : x.normal + x.trapped + x.discarded ≠ x.born) :
    s.completeLaunch p l = s := by
  unfold completeLaunch
  rw [here]
  simp [open_]

theorem launch_setPartition (s : State) (p : Nat) (q : Partition) (l : Nat) : (s.setPartition p q).launch p l = q.launches.find l := by
  rw [launch, partition_setPartition]

theorem modLaunch_of_launch {p l : Nat} (f : Launch → Launch) (here : s.launch p l = some x) :
    s.modLaunch p l f = s.setPartition p { s.partition p with launches := (s.partition p).launches.set l (f x) } := by
  rw [modLaunch, here]

theorem launch_modLaunch {p l : Nat} (f : Launch → Launch) (here : s.launch p l = some x) :
    (s.modLaunch p l f).launch p l = some (f x) := by
  rw [modLaunch_of_launch f here, launch_setPartition, Table.find_set_same]

/-- An end of a task without a counter is counted, and its launch goes on where others are to come (R118, R347). -/
theorem taskOver_counted {d : Descriptor} {core slot : Nat} {first regionpc pc insn : Word} {integrity : Bool} (none : d.counter = 0)
    (here : s.launch d.part d.launch = some x) (more : x.normal + x.trapped + x.discarded + 1 < x.born) :
    s.taskOver d .normal core slot first integrity regionpc pc insn
      = s.modLaunch d.part d.launch fun x => { x with normal := x.normal + 1 } := by
  refine (if_pos none).trans (completeLaunch_of_open (launch_modLaunch _ here) ?_)
  show x.normal + 1 + x.trapped + x.discarded ≠ x.born
  omega

/-- An end of a task with a counter is left to the decrement, which is to be performed (R115, R347). -/
def owing (s : State) (d : Descriptor) (x : Decrement) : State :=
  s.setPartition d.part { s.partition d.part with
    nextId := (s.partition d.part).nextId + 1, decrements := (s.partition d.part).decrements ++ [x] }

theorem taskOver_counter {d : Descriptor} {kind : EndKind} {core slot : Nat} {first regionpc pc insn : Word} {integrity : Bool}
    (some : d.counter ≠ 0) : ∃ x, s.taskOver d kind core slot first integrity regionpc pc insn = s.owing d x ∧ x.desc = d ∧
      x.kind = kind := ⟨_, if_neg some, rfl, rfl⟩

theorem launch_owing (s : State) (d : Descriptor) (x : Decrement) (l : Nat) : (s.owing d x).launch d.part l = s.launch d.part l :=
  launch_setPartition ..

theorem mem_modLaunch (s : State) (p l : Nat) (f : Launch → Launch) : (s.modLaunch p l f).mem = s.mem := by
  unfold modLaunch; split <;> rfl

theorem cores_modLaunch (s : State) (p l : Nat) (f : Launch → Launch) : (s.modLaunch p l f).cores = s.cores := by
  unfold modLaunch; split <;> rfl

/-- What the outermost `end` of a task comes to, where its launch goes on. -/
theorem ended_spec (here : s.launch task.desc.part task.desc.launch = some x)
    (more : x.normal + x.trapped + x.discarded + 1 < x.born) :
    let t := s.ended task
    t.hart s.cur = {} ∧ t.mem = s.mem ∧
      (task.desc.counter = 0 → t.launch task.desc.part task.desc.launch = some { x with normal := x.normal + 1 }) ∧
      (task.desc.counter ≠ 0 → t.launch task.desc.part task.desc.launch = some x ∧
        ∃ d, (t.partition task.desc.part).decrements = (s.partition task.desc.part).decrements ++ [d] ∧
          d.desc = task.desc ∧ d.kind = .normal) ∧
      ((t.core (hartCore s.cur)).holds (hartSlot s.cur)) = false := by
  have kept (p : Nat) : (s.givenUp task).partition p = s.partition p := congrArg (·.get p {}) (partitions_givenUp s task)
  have here' : (s.givenUp task).launch task.desc.part task.desc.launch = some x := by rw [launch, kept]; exact here
  by_cases counter : task.desc.counter = 0
  · have e : s.ended task = ((s.givenUp task).modLaunch task.desc.part task.desc.launch fun x => { x with normal := x.normal + 1 }).setHart
        s.cur {} := congrArg (State.setHart · s.cur {}) (taskOver_counted counter here' more)
    refine ⟨?_, ?_, fun _ => ?_, fun h => absurd counter h, ?_⟩ <;> rw [e]
    · exact hart_setHart ..
    · exact (mem_modLaunch ..).trans (mem_givenUp ..)
    · exact launch_modLaunch _ here'
    · rw [core_setHart, core, cores_modLaunch]; exact holds_givenUp ..
  · obtain ⟨d, left, desc, kind⟩ := taskOver_counter (s := s.givenUp task) (kind := .normal) (core := hartCore s.cur)
      (slot := hartSlot s.cur) (first := 0) (regionpc := s.me.regionpc) (pc := s.me.pc) (insn := s.me.insn) (integrity := false) counter
    have e : s.ended task = ((s.givenUp task).owing task.desc d).setHart s.cur {} := congrArg (State.setHart · s.cur {}) left
    refine ⟨?_, ?_, fun h => absurd h counter, fun _ => ⟨?_, d, ?_, desc, kind⟩, ?_⟩ <;> rw [e]
    · exact hart_setHart ..
    · exact mem_givenUp ..
    · exact (launch_owing ..).trans here'
    · rw [partition_setHart, owing, partition_setPartition, kept]
    · exact holds_givenUp ..

end State

/-- Settles O12: an `end` inline by what its frame has left, and the outermost one by whether its task has a counter. -/
theorem theEndOfATask : Obligations.TheEndOfATask := by
  unfold Obligations.TheEndOfATask
  refine ⟨fun f s runs busy => exec_taskEnd_waits runs busy, fun f s e rest runs done resolved inline => ⟨fun last => ?_, fun more => ?_⟩,
    fun f s task x runs done resolved outermost may _ mine here more => ?_⟩
  · exact (exec_taskEnd_inline runs done resolved inline).trans (if_neg (not_not.2 last))
  · exact (exec_taskEnd_inline runs done resolved inline).trans (if_pos more)
  · have here' : (s.drainAll s.cur).launch task.desc.part task.desc.launch = some x := by
      rw [State.launch, State.partition_drainAll]; exact here
    have spec := State.ended_spec here' more
    simp only [State.cur_drainAll, State.partition_drainAll] at spec
    exact ⟨_, exec_taskEnd_outermost runs done resolved outermost may mine, spec⟩

end Sys2Proof.Machine
end

section
/-! PROOF. Mailboxes as they are unbound (05 R99, R100; 15 R337): a faulted mailbox sends the message that it owes first, which another
mailbox takes. -/

namespace Sys2Proof.Machine

open Sys2Proof

set_option Elab.async false

/-- A task that holds, in `s1`, the handle of mailbox 0, which has faulted and owes its message to mailbox 1, of one slot. -/
def owedFault : State :=
  { harts := [(.slot 0 0, { regs := ({} : Regs).setS 1 (handleOf 0 1 0), task := some {} })]
    partitions := [(0, { mailboxes := [(0, { state := .faulted, gen := 1, owes := true, faultMbx := handleOf 0 1 1 }),
                                       (1, { state := .armed, gen := 1, messageFed := true })] })] }

/-- `mbind.un s2, s1`. -/
def unbindS1 : FmtS := { la := 0, nf := false, gd := 0, sel := 0, fn := 1, c := 0, b := 0, a := 1, d := 2 }

theorem exec_mbindUn_current {f : FmtS} {s : State} (runs : s.runs f.gd = true)
    (bound : (s.mailbox (s.partOf s.cur) (bits (s.getS f.a).toNat 0 12)).state ≠ .unbound)
    (current : s.getS f.a = handleOf s.node (s.mailbox (s.partOf s.cur) (bits (s.getS f.a).toNat 0 12)).gen (bits (s.getS f.a).toNat 0 12)) :
    exec (.mbindUn f) s = (s.unbindMailbox (s.partOf s.cur) (bits (s.getS f.a).toNat 0 12)).sysDone f.d 0 := by
  show execMbindUn f s = _
  refine (State.guarded_of_runs _ runs).trans (if_pos ?_)
  rw [Bool.and_eq_true, bne_iff_ne, beq_iff_eq]
  exact ⟨bound, current⟩

/-- The message has been taken and mailbox 1 expects the next one. -/
theorem expect_owedFault : ((owedFault.unbindMailbox 0 0).mailbox 0 1).expect = 2 := by decide +kernel

/-- Refutes O49: `mbind.un` of a faulted mailbox that owes its message (R100) delivers it to another mailbox of the partition, whose slots
change. -/
theorem not_mailboxesAreBound : ¬ Obligations.MailboxesAreBound := by
  unfold Obligations.MailboxesAreBound
  intro holds
  obtain ⟨-, -, -, -, unbinds⟩ := holds unbindS1 owedFault (fun _ => ⟨0, 0⟩) rfl
  obtain ⟨t, ran, -, -, others⟩ := unbinds ⟨by decide +kernel, by decide +kernel⟩
  have unbound : t.mailbox 0 1 = (owedFault.unbindMailbox 0 0).mailbox 0 1 := by
    rw [exec_mbindUn_current rfl (by decide +kernel) (by decide +kernel)] at ran
    cases ran
    rfl
  have same := others 1 (by decide +kernel)
  have expects := congrArg Mailbox.expect (unbound.symm.trans same)
  rw [expect_owedFault] at expects
  exact absurd expects (by decide +kernel)

end Sys2Proof.Machine
end

section
/-! PROOF. `join` on a counter whose page is the event ring of a die (05 R114; 17 R356): the system level reads the ring's records there,
and not the memory under them. -/

namespace Sys2Proof.Machine

open Sys2Proof

set_option Elab.async false

/-- System core 0 of die 0, which maps the die's event ring, empty as yet, at address 0 to read and write; the memory under the ring
holds a byte that is not 0. -/
def joinOnRing : State :=
  { cur := .sys 0 0
    dies := [(0, { ringFrame := some 0, tlb := [⟨0, BitVec.ofNat 64 (2 ^ 52 + 2 ^ 51)⟩] })]
    partitions := [(1, { id := 1, asids := [0] })]
    mem := { cells := [(0, 1)] } }

/-- `join s0, s0` with its target at the next word. -/
def joinS0 : FmtB := { la := 0, nf := false, gd := 0, fn := 0, offs := 0, c := 0, b := 0, a := 0, d := 0 }

/-- How many continuations of a partition are armed after a step. -/
def armedAfter (p : Nat) : Out → Nat
  | .next t => (t.partition p).joins.length
  | _ => 0

/-- The ring reads 0 at the counter, so that the continuation is pushed at once. -/
theorem armedAfter_joinOnRing : armedAfter 1 (exec (.join joinS0) joinOnRing) = 0 := by decide +kernel

/-- Refutes O44: with the counter in the event ring, which reads 0 while the memory under it does not, `join` pushes the continuation that
the statement has it arm. -/
theorem not_joinSendAndQinfo : ¬ Obligations.JoinSendAndQinfo := by
  unfold Obligations.JoinSendAndQinfo
  rintro ⟨joins, -, -⟩
  obtain ⟨-, room⟩ := joins joinS0 joinOnRing ⟨0, BitVec.ofNat 64 (2 ^ 52 + 2 ^ 51)⟩ rfl (by decide +kernel) (by decide +kernel)
    (by decide +kernel) (by decide +kernel) rfl (by decide +kernel) (by decide +kernel) (by decide +kernel) (by decide +kernel)
  obtain ⟨-, free⟩ := room (by decide +kernel)
  obtain ⟨arms, -⟩ := free nofun
  have armed := congrArg (armedAfter 1) (arms (by decide +kernel))
  rw [armedAfter_joinOnRing] at armed
  exact absurd armed (by decide +kernel)

end Sys2Proof.Machine
end

section
/-! PROOF. The instructions that create tasks (05 R105, R107, R110 to R113, R116 to R118). -/

namespace Sys2Proof.Machine

open Sys2Proof

set_option Elab.async false

/-! ### Registers -/

theorem Regs.getS_setS (r : Regs) (d n : BitVec 5) (x : Word) : (r.setS d x).getS n = if n = d ∧ d ≠ 0 then x else r.getS n := by
  by_cases hn : n = d
  · subst hn
    by_cases hz : n = 0
    · subst hz; rfl
    · rw [if_pos ⟨rfl, hz⟩, Regs.getS_setS_same _ _ hz]
  · rw [if_neg fun h => hn h.1, Regs.getS_setS_other _ _ hn]

namespace State

/-! ### Who creates a task -/

/-- The executing task of two states is the same: what it runs, where, and for whom. -/
structure SameTask (s t : State) : Prop where
  cur : t.cur = s.cur
  regs : t.me.regs = s.me.regs
  pc : t.me.pc = s.me.pc
  task : t.me.task = s.me.task
  asid : t.me.asid = s.me.asid
  part : t.partOf t.cur = s.partOf s.cur

namespace SameTask

variable {s t u : State}

theorem refl (s : State) : SameTask s s := ⟨rfl, rfl, rfl, rfl, rfl, rfl⟩

theorem trans (h : SameTask s t) (g : SameTask t u) : SameTask s u :=
  ⟨g.cur.trans h.cur, g.regs.trans h.regs, g.pc.trans h.pc, g.task.trans h.task, g.asid.trans h.asid, g.part.trans h.part⟩

/-- The hart, the owners of the clusters and the partitions' address spaces say it all. -/
theorem of_hart (cur : t.cur = s.cur) (regs : t.me.regs = s.me.regs) (pc : t.me.pc = s.me.pc) (task : t.me.task = s.me.task)
    (asid : t.me.asid = s.me.asid) (owner : ∀ k, (t.cluster k).owner = (s.cluster k).owner)
    (spaces : t.partitions.map (fun e => (e.1, e.2.asids)) = s.partitions.map fun e => (e.1, e.2.asids)) : SameTask s t := by
  refine ⟨cur, regs, pc, task, asid, ?_⟩
  have task' : (t.hart s.cur).task = (s.hart s.cur).task := by rw [me, cur] at task; exact task
  have asid' : (t.hart s.cur).asid = (s.hart s.cur).asid := by rw [me, cur] at asid; exact asid
  have first (u : State) (a : Nat) : ((u.partitions.find? fun e => e.2.asids.contains a).map (·.1)) =
      (((u.partitions.map fun e => (e.1, e.2.asids)).find? fun e => e.2.contains a).map (·.1)) := by
    rw [List.find?_map, Option.map_map]; rfl
  rw [cur]
  unfold partOf
  rw [task', asid', first t, first s, spaces]
  cases s.cur
  · rfl
  · exact owner _
  · rfl

theorem asidOf (h : SameTask s t) : t.asidOf t.cur = s.asidOf s.cur := by
  unfold State.asidOf
  rw [show (t.hart t.cur).task = (s.hart s.cur).task from h.task, show (t.hart t.cur).asid = (s.hart s.cur).asid from h.asid]

/-- The same task creates the same child. -/
theorem child (h : SameTask s t) (f : FmtB) (kind : Nat) (counter : Word) : t.child f kind counter = s.child f kind counter := by
  unfold State.child payload myTask
  rw [h.cur, h.regs, h.pc, h.task, ← h.cur, h.asidOf, h.part, h.cur]

end SameTask

theorem sameTask_touchDie (s : State) (pa n : Nat) : SameTask s (s.touchDie pa n) := ⟨rfl, rfl, rfl, rfl, rfl, rfl⟩

theorem sameTask_drainAll (s : State) : SameTask s (s.drainAll s.cur) := by
  refine .of_hart (cur_drainAll ..) ?_ ?_ ?_ ?_ (fun k => owner_drainAll ..) (by rw [partitions_drainAll])
  all_goals rw [me_drainAll]

theorem sameTask_push (s : State) (c : Nat) (urgent : Bool) (w : Work) : SameTask s (s.push c urgent w) := by
  unfold push; dsimp only; split <;> exact ⟨rfl, rfl, rfl, rfl, rfl, rfl⟩

theorem sameTask_atomicWrite (s : State) (bytes : List (Nat × Byte)) : SameTask s (s.atomicWrite bytes) := by
  unfold atomicWrite
  extract_lets m fired js u
  have written : SameTask s u := .of_hart rfl rfl rfl rfl rfl (fun _ => rfl) (by simp [u, List.map_map, Function.comp_def])
  exact List.foldlRecOn (motive := SameTask s) js pushJoin written fun _ h j _ => h.trans (sameTask_push ..)

/-! ### A counter and its children (R111) -/

/-- The hart's stores are performed, and then a number is added to a counter (R111). -/
def counterAdded (s : State) (e : TlbEntry) (c : Word) (n : Nat) : State :=
  let pa := e.physical c.toNat
  let v := ((s.drainAll s.cur).touchDie (pa / 128 * 128) 128).drainAll s.cur
  v.atomicWrite (bytesAt pa (leBytes 8 (v.mem.nat pa 8 + n)))

theorem sameTask_counterAdded (s : State) (e : TlbEntry) (c : Word) (n : Nat) : SameTask s (s.counterAdded e c n) := by
  have drained := (sameTask_drainAll s).trans (sameTask_touchDie _ (e.physical c.toNat / 128 * 128) 128)
  refine (drained.trans ?_).trans (sameTask_atomicWrite ..)
  have again := sameTask_drainAll ((s.drainAll s.cur).touchDie (e.physical c.toNat / 128 * 128) 128)
  rwa [cur_touchDie, cur_drainAll] at again

/-- An address at which a counter of the executing task lies. -/
def countable (s : State) (e : TlbEntry) (c : Word) : Prop :=
  c.toNat % 8 = 0 ∧ s.maps c e = true ∧ (s.drainAll s.cur).atomicable c 0 e = true

section
variable {s : State} {e : TlbEntry} {c : Word}

theorem checkCounter_of_countable (h : s.countable e c) (always : Bool) : s.checkCounter c always = .ok () s := by
  obtain ⟨aligned, mapped, atomic⟩ := h
  have writes : e.w = true := by
    simp only [atomicable, Bool.and_eq_true] at atomic
    tauto
  unfold checkCounter
  rw [checkAt_ok _ _ _ (beq_iff_eq.2 aligned), Res.bind_ok, translate_of_maps .w 1 mapped writes]
  exact ite_self _

theorem checkCounter_of_may (h : c = 0 ∨ s.countable e c) : s.checkCounter c false = .ok () s := by
  rcases h with rfl | h
  · rfl
  · exact checkCounter_of_countable h false

theorem addCounter_of_countable (h : s.countable e c) (n : Nat) (always : Bool) (some : always = true ∨ c ≠ 0) :
    (s.drainAll s.cur).addCounter c n always = .ok () (s.counterAdded e c n) := by
  have counts : (!always && decide (c = 0)) = false := by
    rcases some with rfl | some
    · rfl
    · rw [decide_eq_false some, Bool.and_false]
  unfold addCounter
  rw [if_neg (by rw [counts]; nofun), atomicAt_of_atomicable h.2.2, Res.bind_ok, cur_drainAll]
  rfl

/-- The parent's stores are performed and its counter, if it has one, counts its children. -/
def counted (s : State) (e : TlbEntry) (c : Word) (n : Nat) : State :=
  if c = 0 then s.drainAll s.cur else s.counterAdded e c n

theorem addCounter_of_may (h : c = 0 ∨ s.countable e c) (n : Nat) :
    (s.drainAll s.cur).addCounter c n false = .ok () (s.counted e c n) := by
  unfold counted
  by_cases z : c = 0
  · subst z; rfl
  · rw [if_neg z]
    exact addCounter_of_countable (h.resolve_left z) n false (.inr z)

theorem sameTask_counted (s : State) (e : TlbEntry) (c : Word) (n : Nat) : SameTask s (s.counted e c n) := by
  unfold counted
  split
  · exact sameTask_drainAll s
  · exact sameTask_counterAdded ..

end

/-! ### Children pushed, and children inline (R111 to R113) -/

/-- Children are born and one descriptor of them is pushed, with answer 0 (R112). -/
def pushedChild (u : State) (f : FmtB) (d : Descriptor) (n : Nat) : State :=
  (((u.birth d.part d.launch n).push d.origin d.urgent (.desc d)).setS f.d 0).endRegion.advance

/-- An inline run has begun (R113): at its entry, with its frame, answer 1 over the status, and nothing else changed. -/
structure InlineStart (s : State) (f : FmtB) (fr : Frame) (range : Bool) (t : State) : Prop where
  pc : t.me.pc = target24 s.me.pc f.offs
  boundary : t.me.boundary = true
  inline : t.me.regs.inline = s.me.regs.inline ++ [fr]
  regs : ∀ n, t.getS n = if n = 8 ∧ range = true then 0 else if n = f.d ∧ f.d ≠ 0 then 1 else s.getS n
  rest : (t.cores, t.partitions, t.mem) = (s.cores, s.partitions, s.mem)

/-- The state in which an inline run begins. -/
def inlined (s : State) (f : FmtB) (fr : Frame) (range : Bool) : State :=
  s.modMe fun h =>
    let r := { h.regs with inline := h.regs.inline ++ [fr] }.setS f.d 1
    { h with pc := target24 s.me.pc f.offs, boundary := true, block := none, regs := if range then r.setS 8 0 else r }

theorem inlineRun_of_room {s : State} (f : FmtB) (fr : Frame) (range : Bool) (room : s.me.regs.inline.length < 16) :
    s.inlineRun f fr range = .next (s.inlined f fr range) := by
  refine (if_neg (Nat.not_le.2 room)).trans (congrArg Host.Outcome.next ?_)
  cases range <;> simp only [setS, endRegion, Bool.false_eq_true, if_true, if_false, modMe_modMe, inlined] <;> rfl

theorem inlineRun_overflows {s : State} (f : FmtB) (fr : Frame) (range : Bool) (full : 16 ≤ s.me.regs.inline.length) :
    s.inlineRun f fr range = .next (s.raise .inlineOverflow) := if_pos full

theorem inlineStart_inlined (s : State) (f : FmtB) (fr : Frame) (range : Bool) : InlineStart s f fr range (s.inlined f fr range) := by
  refine ⟨?_, ?_, ?_, fun n => ?_, rfl⟩
  · rw [inlined, me_modMe]
  · rw [inlined, me_modMe]
  · rw [inlined, me_modMe]
    cases range <;> simp
  · rw [inlined, getS, me_modMe]
    cases range
    · exact (Regs.getS_setS ..).trans (if_neg fun h => Bool.false_ne_true h.2).symm
    · dsimp only
      rw [if_pos rfl, Regs.getS_setS, Regs.getS_setS]
      simp only [and_true, show (8 : BitVec 5) ≠ 0 by decide, ne_eq, not_false_eq_true]
      rfl

/-! ### `fork`, `forkc` and `spawn` (R111 to R113, R117) -/

section
variable {f : FmtB} {s : State} {e : TlbEntry} {c : Word}

theorem overQuota_eq (s : State) (n : Nat) : s.overQuota n = decide (¬ s.pending (s.partOf s.cur) + n ≤ s.myPart.quota) := by
  simp [overQuota]

theorem forkOne_pushes {counts : Bool} (runs : s.runs f.gd = true) (may : s.mayPublish = true)
    (room : s.pending (s.partOf s.cur) + 1 ≤ s.myPart.quota) (usable : counts = true → s.countable e (s.getS f.a)) :
    s.forkOne f counts = .next (if counts then
        (s.counterAdded e (s.getS f.a) 1).pushedChild f (s.child f 0 (s.getS f.a)) 1
      else (s.drainAll s.cur).pushedChild f (s.child f 0 0) 1) := by
  have within : ¬ s.overQuota 1 = true := by simpa [overQuota_eq] using room
  refine (guarded_of_runs _ runs).trans ?_
  dsimp only
  cases counts with
  | false =>
    rw [if_neg (by nofun), show s.checkCounter 0 false = .ok () s from rfl, Res.run_ok, if_neg within, publish_of_mayPublish may, Res.run_ok,
      if_neg (by nofun), Res.run_ok, (sameTask_drainAll s).child]
    rfl
  | true =>
    rw [if_pos rfl, checkCounter_of_countable (usable rfl), Res.run_ok, if_neg within, publish_of_mayPublish may, Res.run_ok,
      if_pos rfl, addCounter_of_countable (usable rfl) 1 true (.inl rfl), Res.run_ok,
      (sameTask_counterAdded ..).child]
    rfl

theorem forkOne_inlines {counts : Bool} (runs : s.runs f.gd = true) (full : ¬ s.pending (s.partOf s.cur) + 1 ≤ s.myPart.quota)
    (usable : counts = true → s.countable e (s.getS f.a)) : s.forkOne f counts = s.inlineRun f { ret := s.me.pc + 8 } false := by
  have quota : s.overQuota 1 = true := by rw [overQuota_eq]; exact decide_eq_true full
  refine (guarded_of_runs _ runs).trans ?_
  dsimp only
  cases counts with
  | false => exact if_pos quota
  | true =>
    rw [if_pos rfl, checkCounter_of_countable (usable rfl), Res.run_ok]
    exact if_pos quota

section
variable (runs : s.runs f.gd = true) (may : s.getS f.b = 0 ∨ s.countable e (s.getS f.b))
include runs may

/-- `spawn` past its checks. -/
theorem exec_spawn_checked : exec (.spawn f) s =
    if (s.getS f.a).toNat = 0 then s.created f 0
    else if 2 ^ 32 < (s.getS f.a).toNat then s.created f 3
    else if s.overQuota 1 then
      s.inlineRun f { ret := s.me.pc + 8, target := target24 s.me.pc f.offs, index := 1, left := (s.getS f.a).toNat - 1 } true
    else s.publish.run fun _ u => (u.addCounter (s.getS f.b) (s.getS f.a).toNat false).run fun _ u =>
      .next (u.pushedChild f { u.child f 1 (s.getS f.b) with hi := (s.getS f.a).toNat } (s.getS f.a).toNat) := by
  show execSpawn f s = _
  refine (guarded_of_runs _ runs).trans ?_
  dsimp only
  rw [checkCounter_of_may may]
  rfl

theorem exec_spawn_nothing (zero : (s.getS f.a).toNat = 0) : exec (.spawn f) s = .next (s.setS f.d 0).endRegion.advance :=
  (exec_spawn_checked runs may).trans (if_pos zero)

theorem exec_spawn_tooMany (many : 2 ^ 32 < (s.getS f.a).toNat) : exec (.spawn f) s = .next (s.setS f.d 3).endRegion.advance := by
  rw [exec_spawn_checked runs may, if_neg (by omega), if_pos many]
  rfl

variable (some : 1 ≤ (s.getS f.a).toNat) (few : (s.getS f.a).toNat ≤ 2 ^ 32)
include some few

theorem exec_spawn_pushes (publishes : s.mayPublish = true) (room : s.pending (s.partOf s.cur) + 1 ≤ s.myPart.quota) :
    exec (.spawn f) s = .next ((s.counted e (s.getS f.b) (s.getS f.a).toNat).pushedChild f
      { s.child f 1 (s.getS f.b) with hi := (s.getS f.a).toNat } (s.getS f.a).toNat) := by
  have within : ¬ s.overQuota 1 = true := by simpa [overQuota_eq] using room
  rw [exec_spawn_checked runs may, if_neg (by omega), if_neg (by omega), if_neg within, publish_of_mayPublish publishes, Res.run_ok,
    addCounter_of_may may, Res.run_ok, (sameTask_counted ..).child]

theorem exec_spawn_inlines (full : ¬ s.pending (s.partOf s.cur) + 1 ≤ s.myPart.quota) : exec (.spawn f) s =
    s.inlineRun f { ret := s.me.pc + 8, target := target24 s.me.pc f.offs, index := 1, left := (s.getS f.a).toNat - 1 } true := by
  have quota : s.overQuota 1 = true := by rw [overQuota_eq]; exact decide_eq_true full
  rw [exec_spawn_checked runs may, if_neg (by omega), if_neg (by omega), if_pos quota]

end

/-! ### `forkg` (R111, R116) -/

/-- Some row of a cluster has eight live cores. -/
def rowLives (s : State) (k : Nat) : Prop := ∃ r < 4, ∀ i < 8, (s.core (k * 32 + 8 * r + i)).quarantined = false

theorem gangRows_isEmpty (s : State) (k : Nat) : (s.gangRows k).isEmpty = true ↔ ¬ s.rowLives k := by
  simp [gangRows, rowLive, rowCores, rowLives]

/-- The member of a gang of a number (R116). -/
def member (s : State) (f : FmtB) (c : Word) (m : Nat) : Descriptor :=
  { s.child f 2 c with payload := (s.child f 2 c).payload.set 7 (BitVec.ofNat 64 m), lo := m, urgent := false }

/-- A gang waits in its cluster's queue, and its eight members are born. -/
def gangQueued (u s : State) (f : FmtB) (c : Word) : State :=
  let k := hartCluster s.cur
  ((u.setCluster k { u.cluster k with gangs := (u.cluster k).gangs ++ [{ members := (List.range 8).map (s.member f c) }] }).birth
    (s.partOf s.cur) s.myTask.desc.launch 8)

theorem sameTask_setGangs (u : State) (k : Nat) (gangs : List GangWait) : SameTask u (u.setCluster k { u.cluster k with gangs }) := by
  refine .of_hart rfl rfl rfl rfl rfl (fun j => ?_) rfl
  by_cases h : j = k
  · subst h; rw [cluster_setCluster]
  · rw [cluster_setCluster_other _ _ h]

theorem created_gang {u : State} (h : SameTask s u) (f : FmtB) : (u.birth (u.partOf u.cur) u.myTask.desc.launch 8).created f 0 =
    .next ((u.birth (s.partOf s.cur) s.myTask.desc.launch 8).setS f.d 0).endRegion.advance := by
  rw [h.part, myTask, h.task]
  rfl

section
variable (runs : s.runs f.gd = true) (may : s.getS f.a = 0 ∨ s.countable e (s.getS f.a))
include runs may

theorem exec_forkg_noRow (dead : ¬ s.rowLives (hartCluster s.cur)) : exec (.forkg f) s = .next (s.setS f.d 2).endRegion.advance := by
  show execForkg f s = _
  refine (guarded_of_runs _ runs).trans ?_
  dsimp only
  rw [checkCounter_of_may may, Res.run_ok, if_pos ((gangRows_isEmpty ..).2 dead)]
  rfl

variable (live : s.rowLives (hartCluster s.cur))
include live

theorem exec_forkg_refused (full : ¬ s.pending (s.partOf s.cur) + 8 ≤ s.myPart.quota ∨ 16 ≤ s.myCluster.gangs.length) :
    exec (.forkg f) s = .next (s.setS f.d 1).endRegion.advance := by
  show execForkg f s = _
  refine (guarded_of_runs _ runs).trans ?_
  dsimp only
  rw [checkCounter_of_may may, Res.run_ok, if_neg fun h => (gangRows_isEmpty ..).1 h live, if_pos]
  · rfl
  · rw [overQuota_eq, Bool.or_eq_true, decide_eq_true_iff, decide_eq_true_iff]
    exact full

theorem exec_forkg_queues (publishes : s.mayPublish = true) (room : s.pending (s.partOf s.cur) + 8 ≤ s.myPart.quota)
    (few : s.myCluster.gangs.length < 16) : exec (.forkg f) s =
    .next (((s.counted e (s.getS f.a) 8).gangQueued s f (s.getS f.a)).setS f.d 0).endRegion.advance := by
  have same := sameTask_counted s e (s.getS f.a) 8
  have within : ¬ (s.overQuota 8 || decide (16 ≤ (s.cluster (hartCluster s.cur)).gangs.length)) = true := by
    rw [overQuota_eq, Bool.or_eq_true, decide_eq_true_iff, decide_eq_true_iff]
    exact not_or.2 ⟨not_not.2 room, Nat.not_le.2 few⟩
  show execForkg f s = _
  refine (guarded_of_runs _ runs).trans ?_
  dsimp only
  rw [checkCounter_of_may may, Res.run_ok, if_neg fun h => (gangRows_isEmpty ..).1 h live, if_neg within,
    publish_of_mayPublish publishes, Res.run_ok, addCounter_of_may may, Res.run_ok, same.child]
  exact created_gang (same.trans (sameTask_setGangs ..)) f

end

end

/-! ### Deques and descriptors (R105, R107) -/

theorem core_push (s : State) (c : Nat) (urgent : Bool) (w : Work) : (s.push c urgent w).core c =
    if urgent then { s.core c with dequeU := (pushWork (s.core c).dequeU (s.core c).spillU w).1
                                   spillU := (pushWork (s.core c).dequeU (s.core c).spillU w).2 }
    else { s.core c with dequeN := (pushWork (s.core c).dequeN (s.core c).spillN w).1
                         spillN := (pushWork (s.core c).dequeN (s.core c).spillN w).2 } := by
  unfold push
  cases urgent
  · exact core_setCore ..
  · exact core_setCore ..

end State

/-- A full deque spills its sixteen oldest before the push. -/
theorem pushWork_eq (deque spill : List Work) (w : Work) : pushWork deque spill w =
    ((if deque.length < 64 then deque else deque.drop 16) ++ [w], if deque.length < 64 then spill else spill ++ deque.take 16) := by
  unfold pushWork
  by_cases h : 64 ≤ deque.length
  · rw [if_pos h, if_neg (Nat.not_lt.2 h), if_neg (Nat.not_lt.2 h)]
  · rw [if_neg h, if_pos (Nat.not_le.1 h), if_pos (Nat.not_le.1 h)]

theorem exec_fork (f : FmtB) (s : State) : exec (.fork f) s = s.forkOne f false := rfl
theorem exec_forkc (f : FmtB) (s : State) : exec (.forkc f) s = s.forkOne f true := rfl

/-- The payload of a child is s1 to s8 (R110). -/
theorem State.payload_eq (s : State) : s.payload = .ofFn fun i => s.getS (BitVec.ofNat 5 (i.val + 1)) := by
  unfold State.payload
  refine congrArg Vector.ofFn (funext fun i => ?_)
  have place : (BitVec.ofNat 5 (i.val + 1)).toNat = i.val + 1 := by
    rw [BitVec.toNat_ofNat]; omega
  have named : BitVec.ofNat 5 (i.val + 1) ≠ 0 := fun h => by
    have := congrArg BitVec.toNat h
    rw [place] at this
    simp at this
  refine Eq.trans ?_ (if_neg named).symm
  simp only [place]
  rw [List.getD_eq_getElem _ _ (by simp; omega)]
  simp

/-! What stands at an offset of a descriptor (R105), part by part. -/

/-- Of parts of known lengths that stand one after the other, each is found at the sum of the lengths before it. -/
theorem take_drop_flatten {α : Type} {l : List (List α)} {lens : List Nat} (h : l.map List.length = lens) {i : Nat} {x : List α}
    (hx : l[i]? = some x) : (l.flatten.drop (lens.take i).sum).take (lens.getD i 0) = x := by
  obtain ⟨hi, rfl⟩ := List.getElem?_eq_some_iff.1 hx
  have before : (l.take i).flatten.length = (lens.take i).sum := by rw [List.length_flatten, List.map_take, h]
  have here : lens.getD i 0 = l[i].length := by
    rw [← h, List.getD_eq_getElem _ _ (by simpa using hi), List.getElem_map]
  have split : l.flatten = (l.take i).flatten ++ (l[i] ++ (l.drop (i + 1)).flatten) := by
    rw [← List.flatten_cons, List.getElem_cons_drop, ← List.flatten_append, List.take_append_drop]
  rw [split, List.drop_left' before, List.take_left' here.symm]

/-- The parts of a descriptor (R105), and their lengths. -/
def State.descriptorParts (s : State) (d : Descriptor) : List (List Byte) :=
  [leBytes 8 d.payload[0].toNat, leBytes 8 d.payload[1].toNat, leBytes 8 d.payload[2].toNat, leBytes 8 d.payload[3].toNat,
    leBytes 8 d.payload[4].toNat, leBytes 8 d.payload[5].toNat, leBytes 8 d.payload[6].toNat, leBytes 8 d.payload[7].toNat,
    leBytes 8 d.entry.toNat, leBytes 8 d.counter.toNat, leBytes 4 d.launch, [BitVec.ofNat 8 d.kind], [State.classByte d],
    leBytes 2 (s.logicalCore d.part d.origin), leBytes 8 d.lo, leBytes 8 d.hi, leBytes 8 d.object.toNat, List.replicate 16 0]

def descriptorLengths : List Nat := [8, 8, 8, 8, 8, 8, 8, 8, 8, 8, 4, 1, 1, 2, 8, 8, 8, 16]

section
variable (s : State) (d : Descriptor)

theorem lengths_descriptorParts : (s.descriptorParts d).map List.length = descriptorLengths := by
  simp [State.descriptorParts, descriptorLengths, leBytes_length]

theorem descriptorBytes_eq : s.descriptorBytes d = (s.descriptorParts d).flatten := by
  have payload : d.payload.toList = [d.payload[0], d.payload[1], d.payload[2], d.payload[3], d.payload[4], d.payload[5], d.payload[6],
      d.payload[7]] := by
    refine List.ext_getElem (by simp) fun i hi _ => ?_
    have : i < 8 := by simpa using hi
    interval_cases i <;> simp
  simp [State.descriptorBytes, State.descriptorParts, payload]

/-- A part of a descriptor, read at its place. -/
theorem descriptor_field {i : Nat} {x : List Byte} (hx : (s.descriptorParts d)[i]? = some x) :
    leNat (((s.descriptorBytes d).drop (descriptorLengths.take i).sum).take (descriptorLengths.getD i 0)) = leNat x := by
  rw [descriptorBytes_eq, take_drop_flatten (lengths_descriptorParts s d) hx]

end

/-- Settles O43: each creation by its quota, its count and its rows; a push and a descriptor by their layouts. -/
theorem tasksAreCreatedAndPushed : Obligations.TasksAreCreatedAndPushed := by
  unfold Obligations.TasksAreCreatedAndPushed
  refine ⟨fun f s e runs may => ?_, fun s c urgent w => ?_, fun s d launch kind glade lo hi => ?_⟩
  · intro own p core target child u added counted pushed usable may' room inline
    have same : child = s.child f := by
      unfold State.child
      rw [State.payload_eq]
      rfl
    clear_value child
    subst same
    have inlined {o : Out} {fr : Frame} {range : Bool} (e : o = s.inlineRun f fr range) : inline o fr range := by
      subst e
      refine ⟨fun few => ⟨_, State.inlineRun_of_room f fr range few, ?_⟩, fun full => State.inlineRun_overflows f fr range full⟩
      obtain ⟨pc, boundary, frames, regs, rest⟩ := State.inlineStart_inlined s f fr range
      exact ⟨pc, boundary, frames, regs, rest⟩
    refine ⟨fun h => ?_, fun h => ?_, fun h => ⟨fun h' => ?_, fun h' => ?_⟩,
      fun h => ⟨fun zero => ?_, fun many => ?_, fun some few h' => ?_, fun some few h' => ?_⟩,
      fun h => ⟨fun dead => ?_, fun live h' => ?_, fun live h' few => ?_⟩⟩
    · exact (exec_fork f s).trans (State.forkOne_pushes (e := e) runs may h nofun)
    · exact inlined ((exec_fork f s).trans (State.forkOne_inlines (e := e) runs h nofun))
    · exact (exec_forkc f s).trans (State.forkOne_pushes (e := e) runs may h' fun _ => h)
    · exact inlined ((exec_forkc f s).trans (State.forkOne_inlines (e := e) runs h' fun _ => h))
    · exact State.exec_spawn_nothing (e := e) runs h zero
    · exact State.exec_spawn_tooMany (e := e) runs h many
    · exact State.exec_spawn_pushes (e := e) runs h some few may h'
    · exact inlined (State.exec_spawn_inlines (e := e) runs h some few h')
    · exact State.exec_forkg_noRow (e := e) runs h dead
    · exact State.exec_forkg_refused (e := e) runs h live h'
    · exact State.exec_forkg_queues (e := e) runs h live may h' few
  · refine ⟨fun d h => State.core_push_other _ _ _ h, fun normal => ?_, fun urgent => ?_⟩
    · rw [State.core_push, normal, if_neg Bool.false_ne_true, pushWork_eq]
    · rw [State.core_push, urgent, if_pos rfl, pushWork_eq]
  · intro r field
    have word (x : Word) : leNat (leBytes 8 x.toNat) = x.toNat := by
      rw [leNat_leBytes]; exact Nat.mod_eq_of_lt x.isLt
    have number {n x : Nat} (h : x < 256 ^ n) : leNat (leBytes n x) = x := by rw [leNat_leBytes, Nat.mod_eq_of_lt h]
    have byte {x : Nat} (h : x < 256) : leNat [BitVec.ofNat 8 x] = x := by
      simp [leNat, Nat.mod_eq_of_lt h]
    refine ⟨?_, fun i => ?_, ?_, ?_, ?_, ?_, ?_, ?_, ?_, ?_, ?_, ?_⟩
    · rw [show r = _ from descriptorBytes_eq s d, List.length_flatten, lengths_descriptorParts]; rfl
    · have part : (s.descriptorParts d)[i.val]? = some (leBytes 8 d.payload[i].toNat) := by fin_cases i <;> rfl
      have place : (descriptorLengths.take i.val).sum = 8 * i.val ∧ descriptorLengths.getD i.val 0 = 8 := by fin_cases i <;> decide
      have here := descriptor_field s d part
      rw [place.1, place.2] at here
      exact here.trans (word _)
    · exact (descriptor_field s d (i := 8) rfl).trans (word _)
    · exact (descriptor_field s d (i := 9) rfl).trans (word _)
    · exact (descriptor_field s d (i := 10) rfl).trans (number launch)
    · exact (descriptor_field s d (i := 11) rfl).trans (byte kind)
    · refine (descriptor_field s d (i := 12) rfl).trans ((byte ?_).trans ?_)
      · have : bit d.urgent ≤ 1 := by cases d.urgent <;> decide
        omega
      · cases d.urgent <;> rfl
    · exact (descriptor_field s d (i := 13) rfl).trans (leNat_leBytes ..)
    · exact (descriptor_field s d (i := 14) rfl).trans (number lo)
    · exact (descriptor_field s d (i := 15) rfl).trans (number hi)
    · exact (descriptor_field s d (i := 16) rfl).trans (word _)
    · exact (descriptor_field s d (i := 17) rfl).trans (by decide)

end Sys2Proof.Machine
end

section
/-! PROOF. The banks of the die caches (17 R350): what waking them changes, when they serve accesses, and what their uses are. -/

namespace Sys2Proof.Machine

open Sys2Proof

set_option Elab.async false

/-- What an access that waits makes of a bank's state (R350). -/
def BankState.woken : BankState → BankState
  | .entering _ => .entering true
  | .retention => .exiting
  | x => x

@[simp] theorem BankState.woken_woken (x : BankState) : x.woken.woken = x.woken := by cases x <;> rfl

namespace State

/-- Two states differ in nothing but the states of the banks. -/
def OnlyBanks (s t : State) : Prop := t = { s with banks := t.banks }

theorem OnlyBanks.trans {s t u : State} (h : OnlyBanks s t) (g : OnlyBanks t u) : OnlyBanks s u := by
  unfold OnlyBanks at *
  rw [g, h]

theorem onlyBanks_wakeBank (s : State) (b : Bank) : OnlyBanks s (s.wakeBank b) := by
  unfold wakeBank
  split <;> exact rfl

theorem find_wakeBank (s : State) (b c : Bank) :
    (s.wakeBank b).banks.find c = if c = b then (s.banks.find c).map BankState.woken else s.banks.find c := by
  have put (x : BankState) : (s.banks.set b x).find c = if c = b then some x else s.banks.find c := by
    by_cases h : c = b
    · subst h; rw [Table.find_set_same, if_pos rfl]
    · rw [Table.find_set_other _ _ h, if_neg h]
  by_cases h : c = b
  · subst h
    unfold wakeBank
    split
    next found => rw [put, found]; rfl
    next found => rw [put, found]; rfl
    next entering retention =>
      rw [if_pos rfl]
      cases found : s.banks.find c with
      | none => rfl
      | some x =>
        cases x with
        | entering w => exact absurd found (entering w)
        | retention => exact absurd found retention
        | active => rfl
        | exiting => rfl
  · unfold wakeBank
    split
    · rw [put, if_neg h, if_neg h]
    · rw [put, if_neg h, if_neg h]
    · rw [if_neg h]

theorem onlyBanks_wakeBanks (l : List Bank) (s : State) : OnlyBanks s (l.foldl wakeBank s) :=
  List.foldlRecOn (motive := OnlyBanks s) l wakeBank rfl fun _ h b _ => h.trans (onlyBanks_wakeBank _ b)

/-- Of the banks of a list each is woken, and no other. -/
theorem find_wakeBanks (l : List Bank) (s : State) (c : Bank) :
    (l.foldl wakeBank s).banks.find c = if c ∈ l then (s.banks.find c).map BankState.woken else s.banks.find c := by
  induction l generalizing s with
  | nil => rfl
  | cons b l ih =>
    rw [List.foldl_cons, ih, find_wakeBank]
    by_cases h : c = b
    · subst h
      cases s.banks.find c <;> simp
    · simp [h]

/-- Which banks some bytes pass through does not depend on their states. -/
theorem OnlyBanks.dieBanks {s t : State} (h : OnlyBanks s t) (pa n : Nat) : t.dieBanks pa n = s.dieBanks pa n := by rw [h]; rfl

/-- Waking what some addresses pass through is waking a list of banks. -/
theorem wakeDies_eq (l : List Nat) (n : Nat) (s : State) :
    l.foldl (fun s a => s.wakeDie a n) s = (l.flatMap fun a => s.dieBanks a n).foldl wakeBank s := by
  induction l generalizing s with
  | nil => rfl
  | cons a l ih =>
    have same (b : Nat) : (s.wakeDie a n).dieBanks b n = s.dieBanks b n := (onlyBanks_wakeBanks _ s).dieBanks b n
    rw [List.foldl_cons, ih, List.flatMap_cons, List.foldl_append]
    simp only [same]
    rfl

/-- The banks that some addresses pass through have been woken, and nothing else has changed. -/
structure Woken (s t : State) (l : List Nat) (n : Nat) : Prop where
  only : OnlyBanks s t
  woken : ∀ a ∈ l, ∀ b ∈ s.dieBanks a n, t.banks.find b = (s.banks.find b).map BankState.woken

theorem woken_wakeDies (l : List Nat) (n : Nat) (s : State) : Woken s (l.foldl (fun s a => s.wakeDie a n) s) l n := by
  rw [wakeDies_eq]
  refine ⟨onlyBanks_wakeBanks .., fun a ha b hb => ?_⟩
  rw [find_wakeBanks, if_pos (List.mem_flatMap.2 ⟨a, ha, hb⟩)]

theorem woken_wakeDie (s : State) (pa n : Nat) : Woken s (s.wakeDie pa n) [pa] n := woken_wakeDies [pa] n s

namespace Woken

variable {s t : State} {l : List Nat} {n : Nat}

theorem exiting (h : Woken s t l n) {a : Nat} (ha : a ∈ l) {b : Bank} (hb : b ∈ s.dieBanks a n) (asleep : s.banks.find b = some .retention) :
    t.banks.find b = some .exiting := by
  rw [h.woken a ha b hb, asleep]; rfl

theorem entering (h : Woken s t l n) {a : Nat} (ha : a ∈ l) {b : Bank} (hb : b ∈ s.dieBanks a n) {w : Bool}
    (sleepy : s.banks.find b = some (.entering w)) : t.banks.find b = some (.entering true) := by
  rw [h.woken a ha b hb, sleepy]; rfl

end Woken

/-! ### The uses of lines -/

theorem mem_linesOf {pa n a : Nat} (lo : pa ≤ a) (hi : a < pa + n) : a / 128 ∈ linesOf pa n := by
  unfold linesOf
  refine List.mem_map.2 ⟨a / 128 - pa / 128, List.mem_range.2 ?_, ?_⟩ <;> omega

theorem find_setAll {α : Type} (l : List Nat) (x : α) (t : Table Nat α) (k : Nat) :
    (l.foldl (fun t i => t.set i x) t).find k = if k ∈ l then some x else t.find k := by
  induction l generalizing t with
  | nil => rfl
  | cons i l ih =>
    rw [List.foldl_cons, ih]
    by_cases h : k = i
    · subst h; simp
    · simp [h, Table.find_set_other _ _ h]

/-- Every line of an access has been used in this cycle. -/
theorem find_lineUse_touchDie (s : State) {pa n a : Nat} (lo : pa ≤ a) (hi : a < pa + n) :
    (s.touchDie pa n).lineUse.find (a / 128) = some s.clock :=
  (find_setAll ..).trans (if_pos (mem_linesOf lo hi))

end State
end Sys2Proof.Machine
end

section
/-! PROOF. The units around a core and a cluster: lines of the instruction cache, stores on their way, and the miss queue (06 R129; 09 R222,
R223; 13 R297; 17 R350, R371, R372). -/

namespace Sys2Proof.Machine

open Sys2Proof

set_option Elab.async false

/-! ### Instruction caches (R129) -/

namespace State

theorem core_fillLine (s : State) (c asid : Nat) (va : Word) :
    (asid, va.toNat / 128) ∈ ((s.fillLine c asid va).core c).icache := by
  unfold fillLine reclaim
  dsimp only
  rw [core_setCluster, core_setCore]
  dsimp only
  rw [List.drop_append_of_le_length (by simp)]
  simp

theorem core_fillLine_other (s : State) (c asid : Nat) (va : Word) {j : Nat} (h : j ≠ c) :
    (s.fillLine c asid va).core j = s.core j := core_setCore_other _ _ h

/-- The line that a slot waits for is the one of its word, or the next where that is there. -/
theorem exec_instructionCacheFill {s : State} {c n : Nat} (task : (s.hart (.slot c n)).task.isSome = true)
    (waits : (s.hart (.slot c n)).wait = some .fetch) {va : Word}
    (first : [(s.hart (.slot c n)).pc, (s.hart (.slot c n)).pc + 128].find? (fun va =>
      !(s.core c).icache.contains (s.asidOf (.slot c n), va.toNat / 128)) = some va) :
    exec (.instructionCacheFill (.slot c n)) s = .next (s.fillLine c (s.asidOf (.slot c n)) va) := by
  show execInstructionCacheFill (.slot c n) s = _
  unfold execInstructionCacheFill
  dsimp only
  rw [if_pos (by simp [isSlot, task, waits])]
  dsimp only [hartCore]
  rw [first]

end State

/-! ### Stores on their way (R297, R350, R371, R372) -/

namespace State

variable {s : State} {h : HartId} {st : Store} {rest : List Store}

/-- The stores of a hart are these. -/
def withStores (s : State) (h : HartId) (l : List Store) : State := s.setHart h { s.hart h with stores := l }

section
variable (stores : (s.hart h).stores = st :: rest)
include stores

theorem exec_storeDrain : exec (.storeDrain h) s = match st.routed with
    | none => .next (s.withStores h ({ st with routed := some (s.route st) } :: rest))
    | some r =>
      if r != s.route st || s.blocked st then .next s
      else if !s.awakeFor st then .next (s.wakeFor [st])
      else .next ((s.perform st).withStores h rest) := by
  show execStoreDrain h s = _
  unfold execStoreDrain
  rw [stores]
  rfl

theorem exec_storeDrain_unrouted (unrouted : st.routed = none) :
    exec (.storeDrain h) s = .next (s.withStores h ({ st with routed := some (s.route st) } :: rest)) := by
  rw [exec_storeDrain stores, unrouted]

theorem exec_storeDrain_stays {r : Bool × List Nat} (routed : st.routed = some r) (stays : r ≠ s.route st ∨ s.blocked st = true) :
    exec (.storeDrain h) s = .next s := by
  rw [exec_storeDrain stores, routed]
  dsimp only
  rw [if_pos (by simpa using stays)]

section
variable (routed : st.routed = some (s.route st)) (free : s.blocked st = false)
include routed free

theorem exec_storeDrain_performs (awake : s.awakeFor st = true) : exec (.storeDrain h) s = .next ((s.perform st).withStores h rest) := by
  rw [exec_storeDrain stores, routed]
  dsimp only
  rw [if_neg (by simp [free]), if_neg (by simp [awake])]

theorem exec_storeDrain_wakes (asleep : s.awakeFor st = false) : exec (.storeDrain h) s = .next (s.wakeFor [st]) := by
  rw [exec_storeDrain stores, routed]
  dsimp only
  rw [if_neg (by simp [free]), if_pos (by simp [asleep])]

end

/-- The first hart with a store on its way under another route gets it back. -/
theorem exec_requestReplay {r : Bool × List Nat} {before after : Table HartId Hart} {x : Hart} (routed : st.routed = some r)
    (stale : r ≠ s.route st) (harts : s.harts = before ++ (h, x) :: after) (first : ∀ e ∈ before, e.1 ≠ h ∧ e.2.stores = []) :
    exec .requestReplay s = .next (s.withStores h ({ st with routed := none } :: rest)) := by
  have found : Table.find (before ++ (h, x) :: after) h = some x := by
    clear harts
    induction before with
    | nil => simp [Table.find]
    | cons e t ih => simp [Table.find, (first e (List.mem_cons_self ..)).1, ih fun f hf => first f (List.mem_cons_of_mem _ hf)]
  have here : s.hart h = x := by rw [hart, Table.get, harts, found]; rfl
  rw [here] at stores
  show execRequestReplay s = _
  unfold execRequestReplay
  dsimp only
  rw [harts, List.find?_append, List.find?_eq_none.2 fun e he => by simp [(first e he).2], Option.none_or, List.find?_cons_of_pos]
  · dsimp only
    rw [stores]
    dsimp only
    rw [withStores, here]
  · simp [stores, routed, stale]

end

theorem route_cluster (st : Store) (h : st.cluster ≠ none) : (s.route st).2 = [] := by
  unfold route
  cases found : st.cluster with
  | none => exact absurd found h
  | some k => rfl

theorem stackOf_mem_route (h : st.cluster = none) {e : Nat × Byte} (he : e ∈ st.bytes) : s.stackOf e.1 ∈ (s.route st).2 := by
  unfold route
  rw [h]
  dsimp only
  rw [List.mem_eraseDups]
  exact List.mem_map_of_mem (List.mem_append_left _ (List.mem_map_of_mem he))

theorem awakeFor_iff (st : Store) : s.awakeFor st = true ↔ st.cluster ≠ none ∨ ∀ a ∈ st.addrs, s.dieAwake a 1 = true := by
  simp [awakeFor, Option.isSome_iff_ne_none]

theorem wakeFor_one (h : st.cluster = none) : s.wakeFor [st] = st.addrs.foldl (fun s a => s.wakeDie a 1) s := by
  simp [wakeFor, h]

end State

/-! ### The miss queue (R222, R223) -/

namespace State

variable {s : State} {k : Nat} {x : MissWait} {rest : List MissWait}

/-- A TSC finds a page where its cluster's TLB, the victims or the die's TLB has it. -/
theorem isSome_lookup_tsc (s : State) (k asid va : Nat) : (s.lookup (.tsc k) asid va).isSome =
    ((s.cluster k).tlb.any (·.covers asid va) || (s.cluster k).victims.any (·.covers asid va)
      || (s.die (k / 26)).tlb.any (·.covers asid va)) := by
  have own : hartCluster (.tsc k) = k := Nat.mul_div_cancel k (by decide)
  have die : hartDie (.tsc k) = k / 26 := Nat.mul_div_mul_right k 26 (by decide : 0 < 32)
  rw [← List.isSome_find?, ← List.isSome_find?, ← List.isSome_find?]
  unfold lookup
  dsimp only [isSlot]
  rw [own, die]
  cases (s.cluster k).tlb.find? (·.covers asid va) with
  | some e => rfl
  | none =>
    cases (s.cluster k).victims.find? (·.covers asid va) with
    | some e => rfl
    | none => cases (s.die (k / 26)).tlb.find? (·.covers asid va) <;> rfl

/-- The first entry of a page is the one that answers for it. -/
theorem missEntry_of_first {asid page : Nat} {before after : List MissEntry} {e : MissEntry}
    (misses : (s.cluster k).misses = before ++ e :: after) (hasid : e.asid = asid) (hpage : e.page = page)
    (first : ∀ y ∈ before, y.asid ≠ asid ∨ y.page ≠ page) : s.missEntry k asid page = some e := by
  unfold missEntry
  rw [misses, List.find?_append, List.find?_eq_none.2 fun y hy => by simpa [← not_and_or] using first y hy, Option.none_or,
    List.find?_cons_of_pos (by simp [hasid, hpage])]

theorem missEntry_eq_none {asid page : Nat} (absent : ∀ y ∈ (s.cluster k).misses, y.asid ≠ asid ∨ y.page ≠ page) :
    s.missEntry k asid page = none :=
  List.find?_eq_none.2 fun y hy => by simpa [← not_and_or] using absent y hy

/-- A cluster without the oldest miss outside its queue. -/
def withoutOldest (s : State) (k : Nat) (rest : List MissWait) : State := s.setCluster k { s.cluster k with overflow := rest }

section
variable (oldest : (s.cluster k).overflow = x :: rest)
include oldest

theorem exec_missQueueAdmit : exec (.missQueueAdmit k) s =
    if (s.lookup (.tsc k) x.asid (x.page * 65536)).isSome then .next (s.withoutOldest k rest)
    else match s.missEntry k x.asid x.page with
      | some e => .next ((s.withoutOldest k rest).joinMiss k e.seq x.who)
      | none => .next (s.admitMiss k x.who x.asid x.page x.image) := by
  show execMissQueueAdmit k s = _
  unfold execMissQueueAdmit
  dsimp only
  rw [oldest]
  rfl

/-- The page has come. -/
theorem exec_missQueueAdmit_here (here : (s.lookup (.tsc k) x.asid (x.page * 65536)).isSome = true) :
    exec (.missQueueAdmit k) s = .next (s.withoutOldest k rest) := by
  rw [exec_missQueueAdmit oldest, if_pos here]

variable (missing : (s.lookup (.tsc k) x.asid (x.page * 65536)).isSome = false)
include missing

theorem exec_missQueueAdmit_joins {e : MissEntry} (found : s.missEntry k x.asid x.page = some e) :
    exec (.missQueueAdmit k) s = .next ((s.withoutOldest k rest).joinMiss k e.seq x.who) := by
  rw [exec_missQueueAdmit oldest, if_neg (by simp [missing]), found]

theorem exec_missQueueAdmit_admits (absent : s.missEntry k x.asid x.page = none) :
    exec (.missQueueAdmit k) s = .next (s.admitMiss k x.who x.asid x.page x.image) := by
  rw [exec_missQueueAdmit oldest, if_neg (by simp [missing]), absent]

omit missing

/-- Behind a full queue the oldest stays as it is. -/
theorem admitMiss_full (full : 256 ≤ (s.cluster k).live) : s.admitMiss k x.who x.asid x.page x.image = s := by
  unfold admitMiss
  dsimp only
  rw [if_pos (by simp [full]), if_pos (by rw [oldest]; simp)]

/-- The entry that a miss makes (R342). -/
def freshMiss (c : Cluster) (x : MissWait) : MissEntry :=
  { seq := c.nextSeq, asid := x.asid, page := x.page, image := x.image ||| BitVec.ofNat 256 (c.nextSeq * 2 ^ 160), stalled := [x.who] }

theorem misses_admitMiss_room (room : (s.cluster k).live < 256) :
    ((s.admitMiss k x.who x.asid x.page x.image).cluster k).misses = (s.cluster k).misses ++ [freshMiss (s.cluster k) x] := by
  unfold admitMiss
  dsimp only
  rw [if_neg (by rw [oldest]; simp [room]), cluster_setCluster]
  rfl

end

/-! #### Joining a live entry -/

/-- An entry with one more that waits on it. -/
def MissEntry.joinedBy (e : MissEntry) (r : Requester) : MissEntry := { e with stalled := e.stalled ++ [r] }

theorem cluster_modHarts (l : List HartId) (f : Hart → Hart) (s : State) (k : Nat) :
    (l.foldl (fun s id => s.modHart id f) s).cluster k = s.cluster k :=
  List.foldlRecOn (motive := fun t : State => t.cluster k = s.cluster k) l _ rfl fun _ h _ _ => h

/-- A cluster in whose queue a requester has joined the one entry of a number. -/
def joinedCluster (c : Cluster) (before after : List MissEntry) (e : MissEntry) (r : Requester) : Cluster :=
  { c with overflow := c.overflow.filter (·.who ≠ r), misses := before ++ MissEntry.joinedBy e r :: after }

section
variable {before after : List MissEntry} {e : MissEntry} {r : Requester} (alone : ∀ y ∈ before ++ after, y.seq ≠ e.seq)
include alone

theorem joinMiss_eq (misses : (s.cluster k).misses = before ++ e :: after) (fresh : r ∉ e.stalled) :
    s.joinMiss k e.seq r = (s.setCluster k (joinedCluster (s.cluster k) before after e r)).giveMiss k e.seq := by
  have others (l : List MissEntry) (h : ∀ y ∈ l, y.seq ≠ e.seq) : (l.map fun y =>
      if (decide (y.seq = e.seq) && !y.stalled.contains r) = true then { y with stalled := y.stalled ++ [r] } else y) = l := by
    refine (List.map_congr_left fun y hy => ?_).trans (List.map_id l)
    simp [h y hy]
  have joined : (if (decide (e.seq = e.seq) && !e.stalled.contains r) = true then { e with stalled := e.stalled ++ [r] } else e) =
      MissEntry.joinedBy e r := by
    rw [if_pos (by simpa using fresh)]; rfl
  unfold joinMiss
  dsimp only
  rw [misses, List.map_append, List.map_cons, others before fun y hy => alone y (List.mem_append_left _ hy),
    others after fun y hy => alone y (List.mem_append_right _ hy), joined]
  rfl

/-- The one entry of a number waits behind the others under the next, if it was restored; else the queue stays. -/
theorem cluster_giveMiss (misses : (s.cluster k).misses = before ++ e :: after) :
    ((s.giveMiss k e.seq).cluster k).misses =
        (if e.restored = true then before ++ after ++ [e.numbered (s.cluster k).nextSeq] else before ++ e :: after) ∧
      ((s.giveMiss k e.seq).cluster k).overflow = (s.cluster k).overflow := by
  have notThese (l : List MissEntry) (h : ∀ y ∈ l, y.seq ≠ e.seq) : l.find? (fun y => y.seq == e.seq && y.restored) = none :=
    List.find?_eq_none.2 fun y hy => by simp [h y hy]
  have kept (l : List MissEntry) (h : ∀ y ∈ l, y.seq ≠ e.seq) : l.filter (fun y => decide (y.seq ≠ e.seq)) = l :=
    List.filter_eq_self.2 fun y hy => decide_eq_true (h y hy)
  have first := notThese before fun y hy => alone y (List.mem_append_left _ hy)
  have last := notThese after fun y hy => alone y (List.mem_append_right _ hy)
  unfold giveMiss
  dsimp only
  rw [misses, List.find?_append, first, Option.none_or]
  cases restored : e.restored with
  | false =>
    rw [List.find?_cons_of_neg (by simp [restored]), last]
    exact ⟨misses.trans (if_neg Bool.false_ne_true).symm, rfl⟩
  | true =>
    rw [List.find?_cons_of_pos (by simp [restored])]
    dsimp only
    rw [cluster_modHarts, cluster_setCluster, if_pos rfl, List.filter_append, List.filter_cons_of_neg (by simp),
      kept before fun y hy => alone y (List.mem_append_left _ hy), kept after fun y hy => alone y (List.mem_append_right _ hy)]
    exact ⟨rfl, rfl⟩

/-- The miss queue of a cluster after a requester has joined the one entry of a number. -/
theorem cluster_joinMiss (misses : (s.cluster k).misses = before ++ e :: after) (fresh : r ∉ e.stalled) :
    ((s.joinMiss k e.seq r).cluster k).misses =
        (if e.restored = true then before ++ after ++ [(MissEntry.joinedBy e r).numbered (s.cluster k).nextSeq]
          else before ++ MissEntry.joinedBy e r :: after) ∧
      ((s.joinMiss k e.seq r).cluster k).overflow = (s.cluster k).overflow.filter (·.who ≠ r) := by
  rw [joinMiss_eq alone misses fresh]
  have given := cluster_giveMiss (s := s.setCluster k (joinedCluster (s.cluster k) before after e r)) (e := MissEntry.joinedBy e r) alone
    (by rw [cluster_setCluster]; rfl)
  rw [cluster_setCluster] at given
  exact given

end

end State
end Sys2Proof.Machine
end

section
/-! PROOF. Decrements of counters and completions of launches (05 R115, R118, R119; 17 R347, R348, R350). -/

namespace Sys2Proof.Machine

open Sys2Proof

set_option Elab.async false

/-! ### What the completion tree leaves as it is -/

namespace State

/-- Every partition has the same decrements to be performed. -/
structure SameDecrements (s t : State) : Prop where
  partition : ∀ p, (t.partition p).decrements = (s.partition p).decrements

namespace SameDecrements

variable {s t u : State}

theorem refl (s : State) : SameDecrements s s := ⟨fun _ => rfl⟩

theorem trans (h : SameDecrements s t) (g : SameDecrements t u) : SameDecrements s u :=
  ⟨fun p => (g.partition p).trans (h.partition p)⟩

theorem setPartition {p : Nat} {q : Partition} (h : q.decrements = (s.partition p).decrements) : SameDecrements s (s.setPartition p q) := by
  refine ⟨fun j => ?_⟩
  by_cases hj : j = p
  · rw [hj, partition_setPartition, h]
  · rw [partition_setPartition_other _ _ hj]

end SameDecrements

theorem sameDecrements_push (s : State) (c : Nat) (urgent : Bool) (w : Work) : SameDecrements s (s.push c urgent w) :=
  ⟨fun p => by rw [partition_push]⟩

theorem sameDecrements_modLaunch (s : State) (p l : Nat) (f : Launch → Launch) : SameDecrements s (s.modLaunch p l f) := by
  unfold modLaunch
  split
  · exact .setPartition rfl
  · exact .refl s

theorem sameDecrements_setMailbox (s : State) (p i : Nat) (m : Mailbox) : SameDecrements s (s.setMailbox p i m) := .setPartition rfl

theorem sameDecrements_trigger (s : State) (p i : Nat) (m : Mailbox) (b : List Byte) : SameDecrements s (s.trigger p i m b) := by
  unfold trigger
  extract_lets q id l r d
  have placed : SameDecrements s (s.setPartition p r) := .setPartition rfl
  exact placed.trans (sameDecrements_push ..)

theorem sameDecrements_launchGone (s : State) (p l : Nat) : SameDecrements s (s.launchGone p l) := .setPartition rfl

theorem sameDecrements_drop (s : State) (p : Nat) : SameDecrements s (s.drop p) := .setPartition rfl

theorem sameDecrements_validate (p i n : Nat) (s : State) : SameDecrements s (validate p i n s) := by
  induction n generalizing s with
  | zero => exact .refl s
  | succ n ih =>
    unfold validate
    extract_lets m held
    split
    · exact .refl s
    · split
      · split
        · have kept : SameDecrements s held := .setPartition rfl
          exact kept.trans (.setPartition rfl)
        · exact (sameDecrements_trigger ..).trans (ih _)
      · split
        · split <;> exact .setPartition rfl
        · exact .refl s

theorem sameDecrements_deliver (s : State) (p : Nat) (handle : Word) (body : List Byte) :
    SameDecrements s (s.deliver p handle body).1 := by
  unfold deliver
  dsimp only
  iterate 6
    split
    · exact ⟨fun _ => rfl⟩
  exact (sameDecrements_setMailbox ..).trans (sameDecrements_validate ..)

theorem sameDecrements_launchAnswered (s : State) (p l answer : Nat) : SameDecrements s (s.launchAnswered p l answer) := by
  unfold launchAnswered
  split
  · exact sameDecrements_launchGone ..
  · exact sameDecrements_modLaunch ..
  · exact sameDecrements_modLaunch ..
  · exact (sameDecrements_launchGone ..).trans (sameDecrements_drop ..)

theorem sameDecrements_completeLaunch (s : State) (p l : Nat) : SameDecrements s (s.completeLaunch p l) := by
  unfold completeLaunch
  split
  · exact .refl s
  · split
    · exact .refl s
    · split
      · exact sameDecrements_launchGone ..
      · exact (sameDecrements_deliver ..).trans (sameDecrements_launchAnswered ..)

end State

/-! ### An end of a launch -/

/-- A launch with one more end (R118, R322). -/
def Launch.ended (x : Launch) (kind : EndKind) (first : Word) (integrity : Bool) : Launch :=
  match kind with
  | .normal => { x with normal := x.normal + 1 }
  | .trapped => { x with trapped := x.trapped + 1, first := if x.first = 0 then first else x.first, integrity := x.integrity || integrity }
  | .discarded => { x with discarded := x.discarded + 1, integrity := x.integrity || integrity }

theorem Launch.ends_ended (x : Launch) (kind : EndKind) (first : Word) (integrity : Bool) :
    let y := x.ended kind first integrity
    y.normal + y.trapped + y.discarded = x.normal + x.trapped + x.discarded + 1 ∧ y.born = x.born := by
  cases kind <;> exact ⟨by simp only [ended]; omega, rfl⟩

namespace State

variable {s : State} {p : Nat} {d : Decrement} {e : TlbEntry} {x : Launch}

theorem countEnd_eq (s : State) (p l : Nat) (kind : EndKind) (first : Word) (integrity : Bool) :
    s.countEnd p l kind first integrity = (s.modLaunch p l (·.ended kind first integrity)).completeLaunch p l := rfl

/-- A decrement is over: the partition owes it no longer, and where other ends are to come its launch counts the task's (R347). -/
structure DecrementOver (s : State) (p : Nat) (d : Decrement) (x : Launch) (kind : EndKind) (first : Word) (t : State) : Prop where
  mem : t.mem = s.mem
  decrements : (t.partition p).decrements = []
  launch : x.normal + x.trapped + x.discarded + 1 < x.born → t.launch p d.desc.launch = some (x.ended kind first d.integrity)

theorem decrementOver_spec {o : Decrement} (one : (s.partition p).decrements = [o]) (same : o.id = d.id)
    (here : s.launch p d.desc.launch = some x) :
    DecrementOver s p d x d.kind d.first (s.decrementOver p d) := by
  unfold decrementOver
  dsimp only
  generalize hu : s.setPartition p _ = u
  have paid : (u.partition p).decrements = [] := by rw [← hu, partition_setPartition, one]; simp [same]
  have here' : u.launch p d.desc.launch = some x := by rw [← hu, launch_setPartition]; exact here
  have counted := launch_modLaunch (·.ended d.kind d.first d.integrity) here'
  rw [countEnd_eq]
  refine ⟨?_, ?_, fun more => ?_⟩
  · rw [(posted_completeLaunch ..).mem, mem_modLaunch, ← hu]; rfl
  · rw [(sameDecrements_completeLaunch ..).partition, (sameDecrements_modLaunch ..).partition, paid]
  · obtain ⟨ends, born⟩ := x.ends_ended d.kind d.first d.integrity
    rw [completeLaunch_of_open counted (by rw [ends, born]; omega), counted]

/-! ### Performing a decrement (R115, R350) -/

theorem lookup_tsc_hit {k asid va : Nat} (hit : (s.cluster k).tlb.find? (·.covers asid va) = some e) :
    s.lookup (.tsc k) asid va = some (e, s) := by
  have own : hartCluster (.tsc k) = k := Nat.mul_div_cancel k (by decide)
  unfold lookup
  dsimp only [isSlot]
  rw [own, hit]
  rfl

/-- The atomic of a decrement is permitted at the entry that answers. -/
def mayDecrement (s : State) (d : Decrement) (e : TlbEntry) : Bool :=
  canonical d.desc.counter && e.r && e.w && s.reaches (.tsc d.cluster) (e.physical d.desc.counter.toNat)

theorem not_mayDecrement (s : State) (d : Decrement) (e : TlbEntry) : (!canonical d.desc.counter || !e.allows .rw
    || !s.reaches (.tsc d.cluster) (e.physical d.desc.counter.toNat)) = !s.mayDecrement d e := by
  simp only [mayDecrement, TlbEntry.allows, Bool.not_and, Bool.or_assoc]

/-- The one decrement of a partition goes as far as it can. -/
theorem exec_counterDecrementPerform (one : (s.partition p).decrements = [d]) :
    exec (.counterDecrementPerform p) s = .next (s.tryDecrement p d) := by
  show execCounterDecrementPerform p s = _
  unfold execCounterDecrementPerform
  rw [one, List.map_cons, List.map_nil]
  by_cases same : s.tryDecrement p d = s
  · rw [List.find?_cons_of_neg (by simpa using same), same]; rfl
  · rw [List.find?_cons_of_pos (by simpa using same)]; rfl

section
variable (hit : (s.cluster d.cluster).tlb.find? (·.covers d.desc.asid d.desc.counter.toNat) = some e)
include hit

theorem tryDecrement_fails (may : s.mayDecrement d e = false) : s.tryDecrement p d = s.failDecrement p d .protection 0 := by
  unfold tryDecrement
  dsimp only
  rw [lookup_tsc_hit hit]
  exact if_pos (by rw [not_mayDecrement, may]; rfl)

variable (may : s.mayDecrement d e = true)
include may

theorem tryDecrement_may : s.tryDecrement p d =
    let line := e.physical d.desc.counter.toNat / 128 * 128
    if !s.dieAwake line 128 then s.wakeDie line 128
    else
      let u := (s.accessNow line 128).underKey (some e.key) line 128
      if u.mem.bad line 128 then u.failDecrement p d .poison 0
      else (u.atomicWrite (bytesAt (e.physical d.desc.counter.toNat) (leBytes 8 (u.mem.nat (e.physical d.desc.counter.toNat) 8
        + (2 ^ 64 - 1))))).decrementOver p d := by
  unfold tryDecrement
  dsimp only
  rw [lookup_tsc_hit hit]
  exact if_neg (by rw [not_mayDecrement, may]; decide)

end

/-! #### The atomic -/

theorem atomicWrite_foldl (l : List Join) (s : State) :
    (l.foldl pushJoin s).mem = s.mem ∧ ∀ p, (l.foldl pushJoin s).partition p = s.partition p :=
  List.foldlRecOn (motive := fun t : State => t.mem = s.mem ∧ ∀ p, t.partition p = s.partition p) l pushJoin ⟨rfl, fun _ => rfl⟩
    fun _ h _ _ => ⟨(posted_push ..).mem.trans h.1, fun p => (partition_push ..).trans (h.2 p)⟩

theorem mem_atomicWrite (s : State) (l : List (Nat × Byte)) : (s.atomicWrite l).mem = s.mem.store l := (atomicWrite_foldl ..).1

/-- Of a partition an atomic may change the armed continuations. -/
theorem partition_atomicWrite (s : State) (l : List (Nat × Byte)) (p : Nat) :
    ∃ joins, (s.atomicWrite l).partition p = { s.partition p with joins } :=
  ⟨_, ((atomicWrite_foldl ..).2 p).trans
    (Table.get_update s.partitions (f := fun _ q => { q with joins := q.joins.filter fun j =>
      !(s.mem.nat j.pa 8 ≠ 0 && (s.mem.store l).nat j.pa 8 == 0) }) rfl)⟩

end State

/-- A number that one access writes reads back. -/
theorem Mem.nat_storeNat {m : Mem} (a n x : Nat) (ok : m.wf = true) : (m.storeNat a n x).nat a n = x % 256 ^ n := by
  have bytes (l : List Byte) (b k : Nat) (h : ∀ i < k, (m.storeNat a n x).byte (b + i) = l.getD i 0) (len : l.length = k) :
      (m.storeNat a n x).bytes b k = l := by
    induction l generalizing b k with
    | nil => subst len; rfl
    | cons y l ih =>
      obtain ⟨k, rfl⟩ : ∃ j, k = j + 1 := ⟨l.length, len.symm⟩
      have rest := ih (b + 1) k (fun i hi => by
        have := h (i + 1) (by omega)
        rwa [show b + (i + 1) = b + 1 + i by omega] at this) (by simpa using len)
      rw [Mem.bytes, rest, show (m.storeNat a n x).byte b = y from h 0 (by omega)]
  rw [Mem.nat, bytes (leBytes n x) a n (fun i hi => ?_) (leBytes_length ..), leNat_leBytes]
  have at' := Mem.byte_storeBytes a (leBytes n x) (a + i) ok
  rw [leBytes_length, if_pos (by omega), Nat.add_sub_cancel_left] at at'
  exact at'

namespace State

variable {s : State} {p : Nat} {d : Decrement} {e : TlbEntry} {x : Launch}

/-! #### Where a decrement that is permitted or refused comes to -/

theorem accessNow_eq (clean : s.upsets = []) (pa n : Nat) : s.accessNow pa n = s.touchDie pa n := by
  unfold accessNow meetErrors
  exact if_pos (by rw [show (s.touchDie pa n).upsets = [] from clean]; rfl)

section
variable (hit : (s.cluster d.cluster).tlb.find? (·.covers d.desc.asid d.desc.counter.toNat) = some e)
  (one : (s.partition p).decrements = [d]) (here : s.launch p d.desc.launch = some x)
include hit

theorem tryDecrement_asleep (may : s.mayDecrement d e = true)
    (asleep : s.dieAwake (e.physical d.desc.counter.toNat / 128 * 128) 128 = false) :
    s.tryDecrement p d = s.wakeDie (e.physical d.desc.counter.toNat / 128 * 128) 128 := by
  rw [tryDecrement_may hit may]
  exact if_pos (by simp [asleep])

include one here

/-- The atomic takes 1 from the counter and counts the end (R115, R118). -/
theorem tryDecrement_performs (clean : s.upsets = []) (may : s.mayDecrement d e = true)
    (awake : s.dieAwake (e.physical d.desc.counter.toNat / 128 * 128) 128 = true)
    (good : s.mem.bad (e.physical d.desc.counter.toNat / 128 * 128) 128 = false)
    (keyed : s.keyed e.key (e.physical d.desc.counter.toNat / 128 * 128) 128 = true) :
    let t := s.tryDecrement p d
    let pa := e.physical d.desc.counter.toNat
    t.mem = s.mem.storeNat pa 8 (s.mem.nat pa 8 + (2 ^ 64 - 1)) ∧ (t.partition p).decrements = [] ∧
      (x.normal + x.trapped + x.discarded + 1 < x.born → t.launch p d.desc.launch = some (x.ended d.kind d.first d.integrity)) := by
  intro t pa
  have performed : t = ((s.touchDie (pa / 128 * 128) 128).atomicWrite
      (bytesAt pa (leBytes 8 (s.mem.nat pa 8 + (2 ^ 64 - 1))))).decrementOver p d := by
    refine (tryDecrement_may hit may).trans ?_
    dsimp only
    rw [if_neg (by simp [awake]), accessNow_eq clean, underKey]
    rw [if_pos (show (s.touchDie (pa / 128 * 128) 128).keyed e.key (pa / 128 * 128) 128 = true from keyed)]
    exact if_neg (by rw [show (s.touchDie (pa / 128 * 128) 128).mem = s.mem from rfl, good]; decide)
  have wrote := mem_atomicWrite (s.touchDie (pa / 128 * 128) 128) (bytesAt pa (leBytes 8 (s.mem.nat pa 8 + (2 ^ 64 - 1))))
  obtain ⟨joins, part⟩ := partition_atomicWrite (s.touchDie (pa / 128 * 128) 128)
    (bytesAt pa (leBytes 8 (s.mem.nat pa 8 + (2 ^ 64 - 1)))) p
  rw [performed]
  generalize (s.touchDie (pa / 128 * 128) 128).atomicWrite _ = u at wrote part
  obtain ⟨mem, decrements, launch⟩ := decrementOver_spec (s := u) (p := p) (d := d) (x := x) (by rw [part]; exact one)
    rfl (by rw [State.launch, part]; exact here)
  exact ⟨mem.trans wrote, decrements, launch⟩

/-- A refused atomic makes a normal end a trapped one, and counts the end (R115); without a fault mailbox nothing is sent. -/
theorem tryDecrement_refused (mine : d.desc.part = p) (may : s.mayDecrement d e = false) (silent : x.faultMbx = 0) :
    let t := s.tryDecrement p d
    let counted (kind : EndKind) (first : Word) : Prop := (t.partition p).decrements = [] ∧
      (x.normal + x.trapped + x.discarded + 1 < x.born → t.launch p d.desc.launch = some (x.ended kind first d.integrity))
    t.mem = s.mem ∧ (d.kind = .normal → counted .trapped (s.firstTrap d.desc d.pc { cls := .protection })) ∧
      (d.kind ≠ .normal → counted d.kind d.first) := by
  have none (body : List Byte) : s.deliverOrDrop p (s.faultMbx d.desc) body = s :=
    if_pos (by rw [faultMbx, mine, here]; exact silent)
  intro t counted
  have failed : t = s.failDecrement p d .protection 0 := tryDecrement_fails hit may
  by_cases normal : d.kind = .normal
  · have e : t = s.decrementOver p { d with kind := .trapped, first := s.firstTrap d.desc d.pc { cls := .protection } } := by
      rw [failed, failDecrement, normal]; dsimp only; rw [none]; rfl
    obtain ⟨mem, decrements, launch⟩ := decrementOver_spec (p := p)
      (d := { d with kind := .trapped, first := s.firstTrap d.desc d.pc { cls := .protection } }) one rfl here
    rw [← e] at mem decrements launch
    exact ⟨mem, fun _ => ⟨decrements, launch⟩, fun n => absurd normal n⟩
  · have e : t = s.decrementOver p d := by
      rw [failed, failDecrement]; dsimp only
      split
      · rfl
      next n => exact absurd n normal
      · rw [none]
    obtain ⟨mem, decrements, launch⟩ := decrementOver_spec one rfl here
    rw [← e] at mem decrements launch
    exact ⟨mem, fun n => absurd n normal, fun _ => ⟨decrements, launch⟩⟩

end

/-! ### Completion (R118, R119) -/

/-- The ends of a launch are all counted, its commands are over, and its completion message is not on its way. -/
def final (x : Launch) : Prop := x.normal + x.trapped + x.discarded = x.born ∧ x.commands = 0 ∧ x.away = false

section
variable {l : Nat} (here : s.launch p l = some x)
include here

theorem completeLaunch_of_launch : s.completeLaunch p l =
    if x.normal + x.trapped + x.discarded ≠ x.born || x.commands ≠ 0 || x.away then s
    else if x.doneMbx = 0 then s.launchGone p l
    else (s.deliver p x.doneMbx (completionBody x)).1.launchAnswered p l (s.deliver p x.doneMbx (completionBody x)).2 := by
  unfold completeLaunch
  rw [here]

theorem completeLaunch_waits (waits : ¬ final x) : s.completeLaunch p l = s := by
  rw [completeLaunch_of_launch here]
  refine if_pos ?_
  simp only [final, not_and_or, Bool.not_eq_false] at waits
  simpa [or_assoc] using waits

variable (over_ : final x)
include over_

theorem completeLaunch_final : s.completeLaunch p l =
    if x.doneMbx = 0 then s.launchGone p l
    else (s.deliver p x.doneMbx (completionBody x)).1.launchAnswered p l (s.deliver p x.doneMbx (completionBody x)).2 := by
  rw [completeLaunch_of_launch here]
  obtain ⟨ends, commands, away⟩ := over_
  exact if_neg (by simp [ends, commands, away])

theorem completeLaunch_silent (silent : x.doneMbx = 0) : s.completeLaunch p l = s.launchGone p l := by
  rw [completeLaunch_final here over_, if_pos silent]

theorem completeLaunch_sends (told : x.doneMbx ≠ 0) {u : State} {n : Nat} (sent : s.deliver p x.doneMbx (completionBody x) = (u, n)) :
    s.completeLaunch p l = u.launchAnswered p l n := by
  rw [completeLaunch_final here over_, if_neg told, sent]

end

theorem launchAnswered_dropped (s : State) (p l : Nat) {n : Nat} (two : 2 ≤ n) (local_ : n ≠ 5) :
    s.launchAnswered p l n = (s.launchGone p l).drop p := by
  unfold launchAnswered
  split
  · omega
  · omega
  · exact absurd rfl local_
  · rfl

end State
end Sys2Proof.Machine
end

section
/-! PROOF. Placing a gang (05 R116): the row it takes, and its eight slots. -/

namespace Sys2Proof.Machine

open Sys2Proof

set_option Elab.async false

namespace State

variable {s : State} {k r : Nat}

/-! ### The row -/

/-- A row of a cluster can take a gang: its eight cores are live, each with a free normal slot. -/
def rowFits (s : State) (k r : Nat) : Prop :=
  r < 4 ∧ ∀ m < 8, (s.core (k * 32 + 8 * r + m)).quarantined = false ∧ s.freeSlots (k * 32 + 8 * r + m) ≠ []

/-- The rows of a cluster that can take a gang, in rising order. -/
def roomyRows (s : State) (k : Nat) : List Nat := (s.gangRows k).filter fun r => (rowCores k r).all fun c => !(s.freeSlots c).isEmpty

theorem mem_roomyRows : r ∈ s.roomyRows k ↔ s.rowFits k r := by
  simp only [roomyRows, gangRows, rowLive, rowCores, rowFits, List.mem_filter, List.mem_range, List.all_map, List.all_eq_true,
    Function.comp_apply, Bool.not_eq_true', List.isEmpty_eq_false_iff, ne_eq, and_assoc]
  exact and_congr_right fun _ => ⟨fun ⟨live, free⟩ m hm => ⟨live m hm, free m hm⟩,
    fun h => ⟨fun m hm => (h m hm).1, fun m hm => (h m hm).2⟩⟩

theorem roomyRows_sorted (s : State) (k : Nat) : (s.roomyRows k).Pairwise (· < ·) := (List.pairwise_lt_range.filter _).filter _

/-- One more row is looked at. -/
def betterRow (s : State) (k : Nat) (best : Option Nat) (r : Nat) : Option Nat := match best with
  | none => some r
  | some b => if s.freeInRow k b < s.freeInRow k r then some r else some b

theorem bestRow_eq (s : State) (k : Nat) (rows : List Nat) : s.bestRow k rows = rows.foldl (s.betterRow k) none := rfl

/-- What is best so far is one of the rows looked at. -/
theorem betterRows_mem (rows : List Nat) {b : Nat} (h : rows.foldl (s.betterRow k) none = some b) : b ∈ rows := by
  have all : ∀ b, rows.foldl (s.betterRow k) none = some b → b ∈ rows :=
    List.foldlRecOn (motive := fun best => ∀ b, best = some b → b ∈ rows) rows _ nofun fun best ih r hr b found => by
      unfold betterRow at found
      split at found
      · exact Option.some.inj found ▸ hr
      · split at found
        · exact Option.some.inj found ▸ hr
        · exact ih b found
  exact all b h

/-- The row with the most free slots, the lowest of those, is the best. -/
theorem bestRow_of_max {rows : List Nat} (sorted : rows.Pairwise (· < ·)) (here : r ∈ rows) (max : ∀ r' ∈ rows,
    s.freeInRow k r' < s.freeInRow k r ∨ s.freeInRow k r' = s.freeInRow k r ∧ r ≤ r') : s.bestRow k rows = some r := by
  obtain ⟨before, after, rfl⟩ := List.append_of_mem here
  have lower : ∀ b ∈ before, b < r := fun b hb => (List.pairwise_append.1 sorted).2.2 b hb r (List.mem_cons_self ..)
  rw [bestRow_eq, List.foldl_append, List.foldl_cons]
  have taken : s.betterRow k (before.foldl (s.betterRow k) none) r = some r := by
    unfold betterRow
    split
    · rfl
    next b found =>
      have hb := betterRows_mem before found
      rcases max b (List.mem_append_left _ hb) with less | ⟨-, le⟩
      · exact if_pos less
      · exact absurd le (Nat.not_le.2 (lower b hb))
  rw [taken]
  refine List.foldlRecOn (motive := fun best => best = some r) after _ rfl fun best ih r' hr' => ?_
  rw [ih]
  refine if_neg (Nat.not_lt.2 ?_)
  rcases max r' (List.mem_append_right _ (List.mem_cons_of_mem _ hr')) with less | ⟨same, -⟩
  · exact less.le
  · exact same.le

theorem bestRow_nil : s.bestRow k [] = none := rfl

/-! ### The slots -/

/-- The slot of each member of a gang in a row: the lowest free normal slot of its core. -/
def places (s : State) (k r : Nat) : List (Nat × Nat) := (rowCores k r).map fun c => (c, (s.freeSlots c).headD 0)

/-- A gang of a cluster has left its queue. -/
def gangTaken (s : State) (k : Nat) (rest : List GangWait) : State := s.setCluster k { s.cluster k with gangs := rest }

/-- The record of a gang that takes a row. -/
def placedGang (s : State) (k r : Nat) : Gang :=
  { cluster := k, row := r, slots := s.places k r, limit := (s.partition (s.cluster k).owner).gangwait }

/-- A gang of a cluster has a row: it has left the queue, and its record stands. -/
def rowTaken (s : State) (k r : Nat) (rest : List GangWait) : State :=
  { s.gangTaken k rest with nextId := s.nextId + 1, gangs := s.gangs.set s.nextId (s.placedGang k r) }

theorem gangs_of_taken {rest : List GangWait} {t : State} (same : t.clusters = (s.gangTaken k rest).clusters) :
    (t.cluster k).gangs = rest := by
  rw [cluster, same]
  exact congrArg Cluster.gangs (cluster_setCluster s k _)

/-- A gang starts in some slots. -/
def startGang (s : State) (id : Nat) (pairs : List (Descriptor × Nat × Nat)) : State :=
  pairs.foldl (fun s e => s.setHart (.slot e.2.1 e.2.2) (s.prepared e.1 (some id))) s

/-- The members of a gang are discarded. -/
def discardGang (s : State) (pairs : List (Descriptor × Nat × Nat)) : State :=
  pairs.foldl (fun s e => s.taskOver e.1 .discarded e.1.origin 0 0 true e.1.entry e.1.entry 0) s

section
variable {g : GangWait} {rest : List GangWait} (head : (s.cluster k).gangs = g :: rest)
include head

theorem exec_gangPlace : exec (.gangPlace k) s = match s.bestRow k (s.roomyRows k) with
    | none => .next s
    | some r =>
      if (s.partition (s.cluster k).owner).preempt != .running then .next s
      else if (g.members.zip (s.places k r)).all (fun e => s.startable e.1) then
        .next ((s.rowTaken k r rest).startGang s.nextId (g.members.zip (s.places k r)))
      else .next ((s.gangTaken k rest).discardGang (g.members.zip (s.places k r))) := by
  show execGangPlace k s = _
  unfold execGangPlace
  dsimp only
  rw [head]
  rfl

theorem exec_gangPlace_waits (full : ∀ r, ¬ s.rowFits k r) : exec (.gangPlace k) s = .next s := by
  have none_ : s.roomyRows k = [] := List.eq_nil_iff_forall_not_mem.2 fun r hr => full r (mem_roomyRows.1 hr)
  rw [exec_gangPlace head, none_, bestRow_nil]

variable (fits : s.rowFits k r) (max : ∀ r', s.rowFits k r' →
    s.freeInRow k r' < s.freeInRow k r ∨ s.freeInRow k r' = s.freeInRow k r ∧ r ≤ r')
  (runs : (s.partition (s.cluster k).owner).preempt = .running) (eight : g.members.length = 8)
include fits max runs eight

theorem exec_gangPlace_takes : exec (.gangPlace k) s =
    if g.members.all s.startable then
      .next ((s.rowTaken k r rest).startGang s.nextId (g.members.zip (s.places k r)))
    else .next ((s.gangTaken k rest).discardGang (g.members.zip (s.places k r))) := by
  have best : s.bestRow k (s.roomyRows k) = some r :=
    bestRow_of_max (roomyRows_sorted s k) (mem_roomyRows.2 fits) fun r' hr' => max r' (mem_roomyRows.1 hr')
  have members : (g.members.zip (s.places k r)).map Prod.fst = g.members :=
    List.map_fst_zip (by simp [places, rowCores, eight])
  have all : (g.members.zip (s.places k r)).all (fun e => s.startable e.1) = g.members.all s.startable := by
    rw [← congrArg (List.all · s.startable) members, List.all_map]; rfl
  rw [exec_gangPlace head, best]
  dsimp only
  rw [if_neg (by rw [runs]; decide), all]

end

/-! ### What the eight slots hold -/

/-- The slot that a pair of a member and a place names. -/
def slotOf (e : Descriptor × Nat × Nat) : HartId := .slot e.2.1 e.2.2

theorem clusters_startGang (id : Nat) (pairs : List (Descriptor × Nat × Nat)) (s : State) :
    (s.startGang id pairs).clusters = s.clusters ∧ (s.startGang id pairs).gangs = s.gangs :=
  List.foldlRecOn (motive := fun t : State => t.clusters = s.clusters ∧ t.gangs = s.gangs) pairs _ ⟨rfl, rfl⟩ fun _ h _ _ => h

theorem hart_startGang_other (id : Nat) (pairs : List (Descriptor × Nat × Nat)) (s : State) {h : HartId}
    (other : ∀ e ∈ pairs, h ≠ slotOf e) : (s.startGang id pairs).hart h = s.hart h :=
  List.foldlRecOn (motive := fun t : State => t.hart h = s.hart h) pairs _ rfl fun _ ih e he =>
    (hart_setHart_other _ _ (other e he)).trans ih

/-- In distinct slots each member stands as its descriptor says. -/
theorem hart_startGang (id : Nat) (pairs : List (Descriptor × Nat × Nat)) (s : State) (distinct : (pairs.map slotOf).Nodup)
    {e : Descriptor × Nat × Nat} (he : e ∈ pairs) : (s.startGang id pairs).hart (slotOf e) = s.prepared e.1 (some id) := by
  induction pairs generalizing s with
  | nil => simp at he
  | cons x l ih =>
    rw [List.map_cons, List.nodup_cons] at distinct
    obtain ⟨first, later⟩ := distinct
    rcases List.mem_cons.1 he with rfl | he
    · refine (hart_startGang_other id l _ fun y hy same => first ?_).trans (hart_setHart ..)
      rw [same]; exact List.mem_map_of_mem hy
    · exact ih _ later he

theorem distinct_places (s : State) (k r : Nat) {members : List Descriptor} (eight : members.length = 8) :
    ((members.zip (s.places k r)).map slotOf).Nodup := by
  have slots : (members.zip (s.places k r)).map slotOf = ((members.zip (s.places k r)).map Prod.snd).map fun c => .slot c.1 c.2 := by
    rw [List.map_map]; rfl
  have all : ((s.places k r).map fun c => HartId.slot c.1 c.2).Nodup := by
    simp only [places, rowCores, List.map_map]
    refine List.Nodup.map (fun m n same => ?_) List.nodup_range
    simp only [Function.comp_apply, HartId.slot.injEq] at same
    omega
  rw [slots, List.map_snd_zip (by simp [places, rowCores, eight])]
  exact all

theorem mem_pairs {members : List Descriptor} {m : Nat} {d : Descriptor} (hm : m < 8) (member : members[m]? = some d) :
    (d, k * 32 + 8 * r + m, (s.freeSlots (k * 32 + 8 * r + m)).headD 0) ∈ members.zip (s.places k r) := by
  refine List.mem_iff_getElem?.2 ⟨m, ?_⟩
  rw [List.getElem?_zip_eq_some]
  exact ⟨member, by simp [places, rowCores, hm]⟩

theorem mem_places_of_pair {members : List Descriptor} {e : Descriptor × Nat × Nat} (he : e ∈ members.zip (s.places k r)) :
    ∃ m < 8, slotOf e = .slot (k * 32 + 8 * r + m) ((s.freeSlots (k * 32 + 8 * r + m)).headD 0) := by
  have place := (List.of_mem_zip he).2
  simp only [places, rowCores, List.map_map, List.mem_map, List.mem_range, Function.comp_apply] at place
  obtain ⟨m, hm, same⟩ := place
  exact ⟨m, hm, by rw [slotOf, ← same]⟩

/-- Discarding members starts nothing, and leaves the clusters as they are. -/
theorem discardGang_harts (pairs : List (Descriptor × Nat × Nat)) (s : State) :
    (s.discardGang pairs).harts = s.harts ∧ (s.discardGang pairs).clusters = s.clusters :=
  List.foldlRecOn (motive := fun t : State => t.harts = s.harts ∧ t.clusters = s.clusters) pairs _ ⟨rfl, rfl⟩ fun _ ih _ _ =>
    ⟨(harts_taskOver ..).trans ih.1, (posted_taskOver ..).clusters.trans ih.2⟩

end State
end Sys2Proof.Machine
end

section
/-! PROOF. Mailboxes as held slots are pushed and as faults are told (05 R94, R96, R99, R100; 15 R329). -/

namespace Sys2Proof.Machine

open Sys2Proof

set_option Elab.async false

/-- A held mailbox that goes on. -/
def Mailbox.released (m : Mailbox) : Mailbox := { m with state := .armed, latched := none }

namespace State

variable {s : State} {p i : Nat} {m : Mailbox}

/-! ### A trigger (R89, R90, R94, R96) -/

/-- The launch id that a trigger takes. -/
def triggerId (s : State) (p : Nat) : Nat :=
  freshLaunch ((s.partition p).launches.map (·.1)) (s.partition p).nextLaunch ((s.partition p).launches.length + 2)

/-- The launch that a trigger makes. -/
def triggerLaunch (s : State) (p i : Nat) (m : Mailbox) : Launch :=
  { id := s.triggerId p, origin := handleOf s.node m.gen i, doneMbx := m.doneMbx, faultMbx := m.faultMbx }

/-- The task that a trigger makes. -/
def triggerTask (s : State) (p : Nat) (m : Mailbox) (b : List Byte) : Descriptor :=
  { payload := payloadOf b, entry := m.entry, launch := s.triggerId p, glade := m.glade, urgent := m.urgent, origin := m.home
    object := m.object, asid := m.asid, part := p }

/-- A partition after a trigger. -/
def triggerPartition (s : State) (p i : Nat) (m : Mailbox) : Partition :=
  { s.partition p with launches := (s.partition p).launches.set (s.triggerId p) (s.triggerLaunch p i m)
                       nextLaunch := (s.triggerId p + 1) % 2 ^ 32, mailboxes := (s.partition p).mailboxes.set i m.next }

theorem trigger_eq (s : State) (p i : Nat) (m : Mailbox) (b : List Byte) : s.trigger p i m b =
    (s.setPartition p (s.triggerPartition p i m)).push (s.liveCore m.home) m.urgent (.desc (s.triggerTask p m b)) := rfl

theorem partition_trigger (s : State) (p i : Nat) (m : Mailbox) (b : List Byte) :
    (s.trigger p i m b).partition p = s.triggerPartition p i m := by
  rw [trigger_eq, partition_push, partition_setPartition]

theorem mailbox_trigger (s : State) (p i : Nat) (m : Mailbox) (b : List Byte) : (s.trigger p i m b).mailbox p i = m.next := by
  rw [mailbox, partition_trigger, triggerPartition, Table.get_set_same]

theorem launch_trigger (s : State) (p i : Nat) (m : Mailbox) (b : List Byte) :
    (s.trigger p i m b).launch p (s.triggerId p) = some (s.triggerLaunch p i m) := by
  rw [launch, partition_trigger, triggerPartition, Table.find_set_same]

theorem liveCore_of_live {c : Nat} (live : (s.core c).quarantined = false) : s.liveCore c = c := if_pos (by rw [live]; rfl)

/-- On a live core whose deque has room the task goes to its newest end (R107). -/
theorem dequeN_trigger {b : List Byte} (live : (s.core m.home).quarantined = false) (normal : m.urgent = false)
    (room : (s.core m.home).dequeN.length < 64) :
    ((s.trigger p i m b).core m.home).dequeN = (s.core m.home).dequeN ++ [.desc (s.triggerTask p m b)] := by
  rw [trigger_eq, liveCore_of_live live, core_push, normal, if_neg Bool.false_ne_true]
  exact congrArg Prod.fst (pushWork_of_room _ room)

/-- So does an urgent one to the newest end of the urgent deque. -/
theorem dequeU_trigger {b : List Byte} (live : (s.core m.home).quarantined = false) (urgent : m.urgent = true)
    (room : (s.core m.home).dequeU.length < 64) :
    ((s.trigger p i m b).core m.home).dequeU = (s.core m.home).dequeU ++ [.desc (s.triggerTask p m b)] := by
  rw [trigger_eq, liveCore_of_live live, core_push, urgent, if_pos rfl]
  exact congrArg Prod.fst (pushWork_of_room _ room)

/-- A slot of E that is neither valid nor announced stays as it is. -/
theorem validate_idle {n : Nat} (invalid : (s.mailbox p i).valid = false)
    (quiet : (s.mailbox p i).announced.contains (s.mailbox p i).slot = false) : validate p i n s = s := by
  cases n with
  | zero => rfl
  | succ n =>
    unfold validate
    dsimp only
    rw [invalid, quiet]
    exact ite_id _

/-! ### A held slot (R96, R99, R329) -/

/-- A partition without the slot that was held first. -/
def withoutHeld (s : State) (p : Nat) (rest : List Nat) : State := s.setPartition p { s.partition p with heldOrder := rest }

section
variable {rest : List Nat} (held : (s.partition p).heldOrder = i :: rest)
include held

theorem exec_heldSlotPush : exec (.heldSlotPush p) s = match (s.partition p).preempt with
    | .running => .next (if decide ((s.partition p).quota ≤ s.pending p) then s else s.pushHeld p i rest)
    | .restoring => .next (if s.restoreWaits p then s
        else if decide ((s.partition p).quota ≤ s.pending p) then s.resume p else s.pushHeld p i rest)
    | _ => .next s := by
  show execHeldSlotPush p s = _
  unfold execHeldSlotPush
  dsimp only
  rw [held]
  cases (s.partition p).preempt <;> rfl

theorem exec_heldSlotPush_running (runs : (s.partition p).preempt = .running) :
    exec (.heldSlotPush p) s = .next (if (s.partition p).quota ≤ s.pending p then s else s.pushHeld p i rest) := by
  rw [exec_heldSlotPush held, runs]
  simp only [decide_eq_true_eq]

theorem exec_heldSlotPush_stopped (stopped : (s.partition p).preempt ≠ .running) (kept : (s.partition p).preempt ≠ .restoring) :
    exec (.heldSlotPush p) s = .next s := by
  rw [exec_heldSlotPush held]
  split
  next h => exact absurd h stopped
  next h => exact absurd h kept
  · rfl

/-- Remainders and the queues' saved entries come before the held slots (R329). -/
theorem exec_heldSlotPush_restoring (restores : (s.partition p).preempt = .restoring)
    (first : s.remaindersLeft p = true ∨ ∃ k ∈ (s.partition p).slice, 256 < (s.cluster k).misses.length) :
    exec (.heldSlotPush p) s = .next s := by
  have waits : s.restoreWaits p = true := by
    unfold restoreWaits missesFit
    rcases first with left | ⟨k, hk, full⟩
    · rw [left]; rfl
    · rw [Bool.or_eq_true, Bool.not_eq_true']
      exact .inr (List.all_eq_false.2 ⟨k, hk, by simpa using full⟩)
  rw [exec_heldSlotPush held, restores]
  dsimp only
  rw [if_pos waits]

end

/-- The held slot becomes a task, and where the next slot is neither valid nor announced, no more happens. -/
theorem pushHeld_eq {rest : List Nat} {b : List Byte} (latched : (s.mailbox p i).latched = some b)
    (invalid : (s.mailbox p i).released.next.valid = false)
    (quiet : (s.mailbox p i).released.next.announced.contains (s.mailbox p i).released.next.slot = false) :
    s.pushHeld p i rest = (s.withoutHeld p rest).trigger p i (s.mailbox p i).released b := by
  have stays : validate p i 256 ((s.withoutHeld p rest).trigger p i (s.mailbox p i).released b) = _ :=
    validate_idle (by rw [mailbox_trigger]; exact invalid) (by rw [mailbox_trigger]; exact quiet)
  unfold pushHeld
  dsimp only
  rw [latched]
  exact stays

/-! ### A faulted mailbox (R100) -/

/-- A mailbox owes its message no longer. -/
def faultPaid (s : State) (p i : Nat) : State := s.setMailbox p i { s.mailbox p i with owes := false }

theorem exec_mailboxFault_none (nothing : (s.mailbox p i).state ≠ .faulted ∨ (s.mailbox p i).owes = false) :
    exec (.mailboxFault p i) s = .next s :=
  congrArg Host.Outcome.next (if_pos (by simpa using nothing))

theorem exec_mailboxFault (faulted : (s.mailbox p i).state = .faulted) (owes : (s.mailbox p i).owes = true) :
    exec (.mailboxFault p i) s = .next ((s.faultPaid p i).deliverOrDrop p (s.mailbox p i).faultMbx
      (faultBody (handleOf s.node (s.mailbox p i).gen i) (s.mailbox p i))) :=
  congrArg Host.Outcome.next (if_neg (by simp [faulted, owes]))

theorem deliverOrDrop_taken {u v : State} {handle : Word} {body : List Byte} (some_ : handle ≠ 0)
    (taken : u.deliver p handle body = (v, 0) ∨ u.deliver p handle body = (v, 5)) : u.deliverOrDrop p handle body = v := by
  unfold deliverOrDrop
  rw [if_neg some_]
  rcases taken with h | h <;> rw [h] <;> rfl

theorem deliverOrDrop_refused {u v : State} {handle : Word} {body : List Byte} {n : Nat} (some_ : handle ≠ 0) (here : n ≠ 0)
    (local_ : n ≠ 5) (refused : u.deliver p handle body = (v, n)) : u.deliverOrDrop p handle body = v.drop p := by
  unfold deliverOrDrop
  rw [if_neg some_, refused]
  split
  next h => exact absurd (congrArg Prod.snd h) here
  next h => exact absurd (congrArg Prod.snd h) local_
  next h => exact congrArg (·.1.drop p) h.symm

end State

theorem Mem.drop_bytes (m : Mem) (a k n : Nat) : (m.bytes a (k + n)).drop k = m.bytes (a + k) n := by
  induction k generalizing a with
  | zero => rw [Nat.zero_add]; rfl
  | succ k ih =>
    rw [show k + 1 + n = (k + n) + 1 by omega, Mem.bytes, List.drop_succ_cons, ih, show a + 1 + k = a + (k + 1) by omega]

/-- The message of a faulted mailbox names it and the sequence it expects, and holds the last word of the slot of E. -/
theorem State.faultBody_eq {node gen i : Nat} (m : Mailbox) (short : node * 2 ^ 48 + gen * 2 ^ 32 + i < 2 ^ 64) :
    State.faultBody (handleOf node gen i) m = leBytes 8 (node * 2 ^ 48 + gen * 2 ^ 32 + i) ++ leBytes 4 m.expect
      ++ m.bytes.bytes (64 * m.slot + 56) 8 ++ List.replicate 36 0 := by
  rw [State.faultBody, handleOf, BitVec.toNat_ofNat, Nat.mod_eq_of_lt short, Mailbox.slotBytes, Mem.drop_bytes _ _ 56 8]

end Sys2Proof.Machine
end

section
/-! PROOF. Retention of banks (17 R350), the histograms and logs of the dies (17 R355 to R357), and service queues (15 R340, R400). -/

namespace Sys2Proof.Machine

open Sys2Proof

set_option Elab.async false

namespace State

variable {s : State} {b : Bank}

/-! ### Retention -/

theorem foldl_max_le {α : Type} (f : α → Nat) (l : List α) (a n : Nat) :
    l.foldl (fun t e => max t (f e)) a ≤ n ↔ a ≤ n ∧ ∀ e ∈ l, f e ≤ n := by
  induction l generalizing a with
  | nil => simp
  | cons e l ih => rw [List.foldl_cons, ih, max_le_iff, List.forall_mem_cons, and_assoc]

/-- Nothing has used a bank for n cycles, the lines of a die cache's included. -/
theorem lastUse_le (s : State) (b : Bank) (n : Nat) : s.lastUse b ≤ n ↔
    s.bankUse.get b 0 ≤ n ∧ ∀ e ∈ s.lineUse, b ∈ s.dieBanks (e.1 * 128) 1 → e.2 ≤ n := by
  unfold lastUse
  rw [foldl_max_le]
  simp only [List.mem_filter, List.contains_iff_mem, and_imp]

theorem idle_iff (s : State) (b : Bank) : ¬ s.clock < s.lastUse b + 65536 ↔
    s.bankUse.get b 0 + 65536 ≤ s.clock ∧ ∀ e ∈ s.lineUse, b ∈ s.dieBanks (e.1 * 128) 1 → e.2 + 65536 ≤ s.clock := by
  by_cases early : s.clock < 65536
  · exact iff_of_false (by omega) fun h => by omega
  · rw [show (¬ s.clock < s.lastUse b + 65536) = (s.lastUse b ≤ s.clock - 65536) from propext (by omega), lastUse_le]
    refine and_congr (by omega) (forall₃_congr fun e _ _ => by omega)

/-- A bank has a state. -/
def withBank (s : State) (b : Bank) (x : BankState) : State := { s with banks := s.banks.set b x }

theorem exec_retentionEnter (active : s.banks.find b = none ∨ s.banks.find b = some .active) :
    exec (.retentionEnter b) s = .next (if s.clock < s.lastUse b + 65536 then s else s.withBank b (.entering false)) := by
  show execRetentionEnter b s = _
  unfold execRetentionEnter
  rcases active with h | h <;> rw [h] <;> rfl

theorem exec_retentionEntryDone {w : Bool} (entering : s.banks.find b = some (.entering w)) :
    exec (.retentionEntryDone b) s = .next (s.withBank b (if w then .exiting else .retention)) := by
  show execRetentionEntryDone b s = _
  unfold execRetentionEntryDone
  rw [entering]
  rfl

/-- A bank is active again, and this is its last use. -/
def bankBack (s : State) (b : Bank) : State := { s with banks := s.banks.erase b }.touch b

/-- A corrected word of a bank is logged (R355). -/
def loggedWord (s : State) (b : Bank) (w : Nat × Nat × Bool) : State :=
  s.setDie (bankDie b) ((s.die (bankDie b)).corrected (bankRow b w.1) (min w.2.1 2) w.2.2)

/-- A word of a bank that could not be corrected is logged and poisoned (R355). -/
def poisonedWord (s : State) (b : Bank) (w : Nat) : State :=
  (s.setDie (bankDie b) ((s.die (bankDie b)).log (bankRow b w) 3 0)).markBank b w

theorem exec_retentionExitDone (exiting : s.banks.find b = some .exiting) (corrected : List (Nat × Nat × Bool)) (bad : List Nat) :
    exec (.retentionExitDone b corrected bad) s =
      .next (bad.foldl (fun s w => s.poisonedWord b w) (corrected.foldl (fun s w => s.loggedWord b w) (s.bankBack b))) := by
  show execRetentionExitDone b corrected bad s = _
  unfold execRetentionExitDone
  rw [exiting]
  rfl

theorem poisonedWord_typed (s : State) (c : Nat) (sp : BitVec 3) (i w : Nat) : s.poisonedWord (.typed c sp i) w =
    (s.setDie (c / 832) ((s.die (c / 832)).log (bankRow (.typed c sp i) w) 3 0)).setCore c
      ((s.core c).setBuffer sp (((s.core c).buffer sp).mark (i * 8192 + w % 8192))) := rfl

end State

theorem Mem.poisoned_mark (m : Mem) {w a : Nat} (h : a / 8 = w) : (m.mark w).poisoned a = true := by
  rw [Mem.poisoned, h, List.contains_iff_mem]
  exact insertRising_mem.2 (.inl rfl)

theorem Core.buffer_setBuffer (k : Core) (sp : BitVec 3) (m : Mem) : (k.setBuffer sp m).buffer sp = m := by
  unfold buffer setBuffer
  generalize sp.toNat = n
  match n with
  | 0 | 1 | 2 | 3 | 4 => rfl
  | n + 5 => rfl

namespace State

/-- Poisoning a word of a typed buffer changes no byte. -/
theorem buffer_poisonedWord (s : State) (c : Nat) (sp : BitVec 3) (i w : Nat) :
    ((s.poisonedWord (.typed c sp i) w).core c).buffer sp = ((s.core c).buffer sp).mark (i * 8192 + w % 8192) := by
  rw [poisonedWord_typed, core_setCore, Core.buffer_setBuffer]

end State

/-! ### Histograms and logs -/

/-- The parts of a die's histogram record (R357). -/
def Die.histogramParts (d : Die) (c : Nat) : List (List Byte) :=
  (List.range 24).map (fun i => leBytes 4 (d.flash.get (c, i) 0)) ++ [List.replicate 32 0]

theorem Die.histogram_eq (d : Die) (c : Nat) : d.histogram c = (d.histogramParts c).flatten := by
  rw [histogram, histogramParts, List.flatten_append, List.flatten_singleton]

theorem Die.lengths_histogramParts (d : Die) (c : Nat) :
    (d.histogramParts c).map List.length = List.replicate 24 4 ++ [32] := by
  simp [histogramParts, leBytes_length, Function.comp_def]

theorem Die.histogram_length (d : Die) (c : Nat) : (d.histogram c).length = 128 := by
  rw [histogram_eq, List.length_flatten, lengths_histogramParts]
  rfl

theorem Die.histogram_field (d : Die) (c : Nat) {i : Nat} (hi : i < 24) :
    leNat (((d.histogram c).drop (4 * i)).take 4) = d.flash.get (c, i) 0 % 2 ^ 32 := by
  have part : (d.histogramParts c)[i]? = some (leBytes 4 (d.flash.get (c, i) 0)) := by
    rw [histogramParts, List.getElem?_append_left (by simpa using hi), List.getElem?_map, List.getElem?_range hi]
    rfl
  have field := take_drop_flatten (lengths_histogramParts d c) part
  rw [List.take_append_of_le_length (by simpa using hi.le), List.take_replicate, List.sum_replicate, Nat.min_eq_left hi.le,
    List.getD_append _ _ _ _ (by simpa using hi), List.getD_replicate _ hi, ← histogram_eq, smul_eq_mul, Nat.mul_comm] at field
  rw [field, leNat_leBytes]
  rfl

theorem LogEvent.record_length (e : LogEvent) : e.record.length = 16 := by
  simp [record, leBytes_length]

theorem LogEvent.record_row (e : LogEvent) : leNat (e.record.take 4) = e.row.toNat := by
  rw [record, List.append_assoc, List.take_left' (leBytes_length ..), leNat_leBytes]
  exact Nat.mod_eq_of_lt e.row.isLt

theorem LogEvent.record_seq (e : LogEvent) : leNat (e.record.drop 8) = e.seq % 2 ^ 64 := by
  rw [record, List.drop_left' (by simp [leBytes_length]), leNat_leBytes]
  rfl

namespace State

theorem flash_flushed (s : State) (d : Nat) :
    (({ s with dies := s.dies.update fun _ x => x.flush s.clock } : State).die d).flash = (s.die d).counters := by
  rw [die, Table.get, Table.find_update, die, Table.get]
  cases s.dies.find d <;> rfl

/-! ### Service queues -/

theorem serve_room {s : State} {d n : Nat} (msg : List Byte) (room : (s.hart (.sys d n)).inbox.length < 4096) : s.serve d n msg =
    State.setHart { s with messages := if n = 0 then s.messages else s.messages + 1 } (.sys d n)
      { s.hart (.sys d n) with inbox := (s.hart (.sys d n)).inbox ++ [msg] } := by
  refine (if_neg (Nat.not_le.2 room)).trans ?_
  by_cases zero : n = 0
  · simp only [zero, ne_eq, not_true_eq_false, if_false, if_true, modHart]
  · simp only [zero, ne_eq, not_false_eq_true, if_false, if_true, modHart]
    rfl

end State
end Sys2Proof.Machine
end

section
/-! PROOF. The activities of the units around the cores, together (05, 06, 09, 13, 15, 17). -/

namespace Sys2Proof.Machine

open Sys2Proof

set_option Elab.async false

/-- Settles O53: each unit by the lemmas of its kind above. -/
theorem unitsDoTheirWork : Obligations.UnitsDoTheirWork := by
  unfold Obligations.UnitsDoTheirWork
  refine ⟨fun s c n asid hasid task waits => ?fills, fun s h st rest stores => ?drains,
    fun s k x rest oldest => ?admits, fun s p d e l ok one here mine hit clean => ?decrements, fun s u p i l here => ?completes,
    fun s k g rest head eight => ?places, fun s p i rest b held => ?pushes, fun s p i => ?faults, fun s b => ?banks,
    fun s d => ?histograms, fun s d n msg => ?messages⟩
  case fills =>
    intro pc lacks va line
    subst hasid
    have first : [pc, pc + 128].find? (fun va => !(s.core c).icache.contains (s.asidOf (.slot c n), va.toNat / 128)) = some va := by
      rcases line with ⟨lacksFirst, rfl⟩ | ⟨hasFirst, lacksNext, rfl⟩
      · exact List.find?_cons_of_pos (by simpa [lacks] using lacksFirst)
      · rw [List.find?_cons_of_neg (by simpa [lacks] using hasFirst), List.find?_cons_of_pos (by simpa [lacks] using lacksNext)]
    exact ⟨_, State.exec_instructionCacheFill task waits first, State.core_fillLine .., rfl, rfl,
      fun j hj => State.core_fillLine_other _ _ _ _ hj⟩
  case drains =>
    intro way left
    refine ⟨State.exec_storeDrain_unrouted stores, rfl, State.route_cluster st, fun e he mem => State.stackOf_mem_route mem he, ?_,
      fun blocked routed => State.exec_storeDrain_stays stores routed (.inr blocked), fun r routed stale =>
        ⟨State.exec_storeDrain_stays stores routed (.inl stale), fun before after x harts first =>
          State.exec_requestReplay stores routed stale harts first⟩⟩
    intro addrs awake routed free
    refine ⟨fun woken => State.exec_storeDrain_performs stores routed free ((State.awakeFor_iff st).2 woken), fun asleep => ?_⟩
    have sleeps : s.awakeFor st = false := Bool.eq_false_iff.2 fun h => asleep ((State.awakeFor_iff st).1 h)
    have global : st.cluster = none := by_contra fun h => asleep (.inl h)
    have woken : State.Woken s (s.wakeFor [st]) st.addrs 1 := by
      rw [State.wakeFor_one global]; exact State.woken_wakeDies ..
    refine ⟨_, State.exec_storeDrain_wakes stores routed free sleeps, ?_, ?_, fun a ha b hb =>
      ⟨woken.exiting ha hb, fun w => woken.entering ha hb⟩⟩
    · rw [woken.only]
    · rw [woken.only]
  case admits =>
    intro c covered here
    have looked : (s.lookup (.tsc k) x.asid (x.page * 65536)).isSome = here := State.isSome_lookup_tsc ..
    refine ⟨fun found => State.exec_missQueueAdmit_here oldest (looked.trans found), fun missing => ⟨?_, fun absent => ?_⟩⟩
    · intro before after e misses asid page notBefore alone fresh
      have found := State.missEntry_of_first misses asid page notBefore
      have kept := State.cluster_setCluster s k { s.cluster k with overflow := rest }
      obtain ⟨misses', overflow⟩ := State.cluster_joinMiss (s := s.withoutOldest k rest) (k := k) alone
        (by rw [State.withoutOldest, kept]; exact misses) fresh
      rw [State.withoutOldest, kept] at misses' overflow
      exact ⟨_, State.exec_missQueueAdmit_joins oldest (looked.trans missing) found, misses', overflow⟩
    · have admits := State.exec_missQueueAdmit_admits oldest (looked.trans missing) (State.missEntry_eq_none absent)
      refine ⟨fun full => ?_, fun room => ?_⟩
      · rw [admits, State.admitMiss_full oldest full]
      · exact ⟨_, _, admits, State.misses_admitMiss_room oldest room, rfl, rfl⟩
  case decrements =>
    intro pa may counted
    have attempts := State.exec_counterDecrementPerform one
    have counts {t : State} {kind : EndKind} {first : Word} (h : (t.partition p).decrements = [] ∧
        (l.normal + l.trapped + l.discarded + 1 < l.born → t.launch p d.desc.launch = some (l.ended kind first d.integrity))) :
        counted t kind first := by
      cases kind <;> exact h
    refine ⟨fun yes asleep => ?_, fun yes awake good keyed => ?_, fun no silent => ?_⟩
    · have woken := State.woken_wakeDie s (pa / 128 * 128) 128
      refine ⟨_, attempts.trans (congrArg _ (State.tryDecrement_asleep hit yes asleep)), ?_, ?_, fun b hb =>
        woken.exiting (List.mem_singleton_self _) hb⟩
      · rw [woken.only]
      · rw [woken.only]
    · obtain ⟨mem, decrements, launch⟩ := State.tryDecrement_performs hit one here clean yes awake good keyed
      refine ⟨_, attempts, ?_, fun a outside => ?_, counts ⟨decrements, launch⟩⟩
      · rw [mem, Mem.nat_storeNat _ _ _ (State.wf_mem ok)]; rfl
      · rw [mem, Mem.byte_storeNat_other _ outside]
    · obtain ⟨mem, normal, other⟩ := State.tryDecrement_refused hit one here mine no silent
      exact ⟨_, attempts, mem, fun kind => counts (normal kind), fun kind => counts (other kind)⟩
  case completes =>
    intro final body retry ended
    have runs : retry = .next (s.completeLaunch p i) := rfl
    refine ⟨fun waits => ?_, fun over_ silent => ?_, fun over_ told => ?_⟩
    · rw [runs, State.completeLaunch_waits here waits]
    · rw [runs, State.completeLaunch_silent here over_ silent]; rfl
    · have sends {n : Nat} (sent : s.deliver p l.doneMbx body = (u, n)) : retry = .next (u.launchAnswered p i n) :=
        runs.trans (congrArg _ (State.completeLaunch_sends here over_ told sent))
      exact ⟨sends, sends, sends, fun n two local_ sent => (sends sent).trans (congrArg _ (State.launchAnswered_dropped u p i two local_))⟩
  case places =>
    intro freeIn core fits count q
    have sums (r : Nat) : count r = s.freeInRow k r := by
      rw [State.freeInRow, State.rowCores, List.map_map]; rfl
    refine ⟨State.exec_gangPlace_waits head, fun r taken max runs => ?_⟩
    simp only [sums] at max
    have takes := State.exec_gangPlace_takes head taken max runs eight
    refine ⟨fun all => ?_, fun some_ => ?_⟩
    · rw [if_pos (List.all_eq_true.2 all)] at takes
      obtain ⟨clusters, gangs⟩ := State.clusters_startGang s.nextId (g.members.zip (s.places k r)) (s.rowTaken k r rest)
      refine ⟨_, takes, State.gangs_of_taken clusters, ⟨s.placedGang k r, ?_, rfl, ?_⟩, fun m d member => ?_, fun h others => ?_⟩
      · rw [gangs]
        exact Table.find_set_same ..
      · show s.places k r = _
        rw [State.places, State.rowCores, List.map_map]; rfl
      · have small : m < 8 := eight ▸ (List.getElem?_eq_some_iff.1 member).1
        have stands := State.hart_startGang s.nextId _ (s.rowTaken k r rest) (State.distinct_places s k r eight) (State.mem_pairs small member)
        refine ⟨_, _, stands, rfl, rfl, rfl, rfl, rfl, State.getS_prepared _ _ _⟩
      · refine State.hart_startGang_other _ _ _ fun e he same => ?_
        obtain ⟨m, hm, slot⟩ := State.mem_places_of_pair he
        exact others m hm (same.trans slot)
    · obtain ⟨d, hd, dead⟩ := some_
      rw [if_neg (by simpa using ⟨d, hd, dead⟩)] at takes
      obtain ⟨harts, clusters⟩ := State.discardGang_harts (g.members.zip (s.places k r)) (s.gangTaken k rest)
      exact ⟨_, takes, State.gangs_of_taken clusters, harts⟩
  case pushes =>
    intro q m after
    refine ⟨fun full runs => ?_, State.exec_heldSlotPush_stopped held, State.exec_heldSlotPush_restoring held,
      fun room runs latched invalid quiet live roomU roomN => ?_⟩
    · rw [State.exec_heldSlotPush_running held runs, if_pos full]
    · have pushed := State.exec_heldSlotPush_running held runs
      rw [if_neg (Nat.not_le.2 room), State.pushHeld_eq latched invalid quiet] at pushed
      have part := State.partition_trigger (s.withoutHeld p rest) p i m.released b
      refine ⟨_, (s.withoutHeld p rest).triggerTask p m.released b, (s.withoutHeld p rest).triggerLaunch p i m.released, pushed,
        State.mailbox_trigger .., rfl, rfl, ?_, fun normal =>
          State.dequeN_trigger (s := s.withoutHeld p rest) (m := m.released) live normal roomN, fun urgent =>
          State.dequeU_trigger (s := s.withoutHeld p rest) (m := m.released) live urgent roomU, rfl, fun j =>
          Vector.getElem_ofFn _, State.launch_trigger .., rfl, rfl, rfl⟩
      rw [part, State.triggerPartition, State.withoutHeld, State.partition_setPartition]
  case faults =>
    intro m u body
    refine ⟨fun faulted owes short => ?_, State.exec_mailboxFault_none⟩
    have told : exec (.mailboxFault p i) s = .next (u.deliverOrDrop p m.faultMbx body) := by
      rw [State.exec_mailboxFault faulted owes, State.faultBody_eq _ short]; rfl
    exact ⟨fun none_ => told.trans (congrArg _ (if_pos none_)), fun some_ =>
      ⟨fun v taken => told.trans (congrArg _ (State.deliverOrDrop_taken some_ taken)),
       fun v n here local_ refused => told.trans (congrArg _ (State.deliverOrDrop_refused some_ here local_ refused))⟩⟩
  case banks =>
    intro at' puts idle
    refine ⟨fun pa n a lo hi => s.find_lineUse_touchDie lo hi, fun active => ⟨fun rests => ?_, fun used => ?_⟩,
      fun w entering => State.exec_retentionEntryDone entering, fun exiting => State.exec_retentionExitDone exiting [] [],
      fun w n lasting exiting => ⟨_, State.exec_retentionExitDone exiting _ _, State.die_setDie .., rfl⟩,
      fun c sp i w hb lo hi word exiting => ?_⟩
    · exact (State.exec_retentionEnter active).trans (congrArg _ (if_neg ((State.idle_iff s b).2 rests)))
    · exact (State.exec_retentionEnter active).trans (congrArg _ (if_pos (by_contra fun h => used ((State.idle_iff s b).1 h))))
    · subst hb
      have same := State.buffer_poisonedWord (s.bankBack (.typed c sp i)) c sp i w
      refine ⟨_, State.exec_retentionExitDone exiting _ _, rfl, fun a => ?_, ?_, rfl⟩
      · exact (congrArg (Mem.byte · a) same).trans rfl
      · refine (congrArg (Mem.poisoned · _) same).trans (Mem.poisoned_mark _ ?_)
        omega
  case histograms =>
    intro x
    exact ⟨fun due => if_neg (Nat.not_lt.2 due), fun early => if_pos early,
      ⟨_, rfl, State.flash_flushed s d⟩, fun c => ⟨x.histogram_length c, fun i hi => x.histogram_field c hi⟩,
      fun e => ⟨e.record_length, e.record_row, e.record_seq⟩⟩
  case messages =>
    intro h
    exact ⟨fun room => congrArg Host.Outcome.next (State.serve_room msg room), fun full => congrArg Host.Outcome.next (if_pos full)⟩

end Sys2Proof.Machine
end

section
/-! PROOF. A signal of another package that finds its word poisoned (10 R261, R262; 17 R351), over a memory that is not in canonical
form. -/

namespace Sys2Proof.Machine

open Sys2Proof

set_option Elab.async false

/-- Word 0 is poisoned, and the memory lists address 0 twice, as no canonical memory does (`Mem.wf`): a store of a zero byte there removes
the first entry alone, so that the second reads. -/
def signalTwice : State :=
  { detour := { capacity := 8 }
    mem := { cells := [(0, 255), (0, 7)], poison := [0] } }

/-- The word at address 0 after a step. -/
def wordAfter : Out → Nat
  | .next t => t.mem.nat 0 8
  | _ => 0

/-- The byte of 256 that is 0 does not read back: 263 stands where 255 + 1 was written. -/
theorem wordAfter_signalTwice : wordAfter (exec (.turnpikeArrival (.signal 0 true)) signalTwice) = 263 := by decide +kernel

/-- Refutes O55: the clause on a signal at a poisoned word lacks the premise that the memory is in canonical form. Where an address is
listed twice, the word does not read one more afterwards. -/
theorem not_hostsPortsAndPackagesActOnMemory : ¬ Obligations.HostsPortsAndPackagesActOnMemory := by
  unfold Obligations.HostsPortsAndPackagesActOnMemory
  rintro ⟨-, -, -, -, turnpike, -⟩
  obtain ⟨-, arrives, -⟩ := turnpike signalTwice signalTwice 0 0 0 0 [] 0 (.slot 0 0)
  obtain ⟨awake, -⟩ := arrives rfl
  obtain ⟨-, signals, -⟩ := awake (fun _ _ => rfl) rfl
  obtain ⟨-, poisoned, -⟩ := signals (by decide +kernel)
  obtain ⟨t, ran, one_more, -⟩ := poisoned (by decide +kernel) rfl
  have word := congrArg wordAfter ran
  rw [wordAfter_signalTwice] at word
  have reads := word.trans one_more
  exact absurd reads (by decide +kernel)

end Sys2Proof.Machine
end
